-- ==== Sys2Proof/Word.lean ====
section
/-! DEFINITION. The words of the Pyade architecture (R4, R27, R30): bytes, 32-bit lane words, 64-bit slice scalars and
instruction words, and 57-bit virtual addresses. -/

namespace Sys2Proof

/-- One byte of memory. -/
abbrev Byte := BitVec 8

/-- One lane register word (R30). -/
abbrev LWord := BitVec 32

/-- A slice scalar, an instruction word or an extension word (R27, R30). -/
abbrev Word := BitVec 64

/-- A 57-bit virtual address (R216). -/
abbrev VA := BitVec 57

/-- Four bits, one a lane of a slice; bit i is lane i (R91). -/
abbrev Mask := BitVec 4

end Sys2Proof
end

