-- ==== Sys2Proof/Syntax.lean ====
section
/-! DEFINITION. The instructions of Pyade (R27 to R53) and the events of the units beside the slices: one constructor of
`Instr` for every row of spec/opcode_table.json. An instruction holds its guard, its named field values and its operand
specifiers; an event holds what the table's row leaves to its source (the command, the host's address, the packet). -/

namespace Sys2Proof

/-- The guard PG (R29): `neg` is PG[48], `p` the index. -/
structure Guard where
  neg : Bool
  p : BitVec 3
  deriving DecidableEq, Repr

/-- A register specifier (R30), its extension word in place where it names 0x1FE (R32). -/
inductive Opd where
  | v (n : BitVec 8)
  | s (n : BitVec 6)
  | p (n : BitVec 3)
  | q (n : BitVec 3)
  | acc (n : BitVec 6)
  | fmt
  | flg
  | tl (n : BitVec 3)
  | ident (n : BitVec 4)
  | small (k : BitVec 5)
  | ext (w : Word)
  | none
  deriving DecidableEq, Repr

/-- The general types (R40). -/
inductive Ty where
  | none | i8 | n8 | i16 | n16 | i32 | n32 | i64 | n64 | f32 | f16 | bf16 | b32 | b64
  deriving DecidableEq, Repr

/-- The narrow types (R41). -/
inductive NTy where
  | none | e5m2 | e4m3 | e3m2 | e2m3 | e2m1 | i8 | i4
  deriving DecidableEq, Repr

/-- Rounding modes, MOD class RND (R42). -/
inductive Rnd where
  | rne | rtz | rup | rdn
  deriving DecidableEq, Repr

/-- Conditions, MOD class CND (R42). -/
inductive Cnd where
  | eq | ne | lt | le | gt | ge | ord | uno
  deriving DecidableEq, Repr

/-- Scopes, MOD class SCP (R20, R42). -/
inductive Scope where
  | lvl (k : BitVec 3) | pkg | fab | sys
  deriving DecidableEq, Repr

/-- MOD class BRC (R42, R102). -/
inductive BrCond where
  | per | any | all
  deriving DecidableEq, Repr

inductive VoteOp where
  | any | all | ballot | uni
  deriving DecidableEq, Repr

/-- SUB of IADD (R116). -/
inductive AddOp where
  | sum | diff | carry | borrow
  deriving DecidableEq, Repr

/-- SUB of IMUL and IMAD (R117). -/
inductive MulOp where
  | low | hi | wide
  deriving DecidableEq, Repr

inductive MinMax where
  | min | max
  deriving DecidableEq, Repr

/-- SUB of SHIFT (R120). -/
inductive ShiftOp where
  | shl | shr | sar | rol | ror | fshl | fshr
  deriving DecidableEq, Repr

/-- SUB of BITS (R121). -/
inductive BitsOp where
  | popc | clz | ctz | brev | bswap
  deriving DecidableEq, Repr

/-- SUB of BFX (R122). -/
inductive BfxOp where
  | ext | ins
  deriving DecidableEq, Repr

/-- SUB of LANE (R132). -/
inductive LaneOp where
  | shfl | bcast | up | down | xorl
  | redadd | redmin | redmax | redand | redor | redxor
  | scanadd | scanmin | scanmax | xscanadd
  deriving DecidableEq, Repr

/-- SUB of PRED (R136). -/
inductive PredOp where
  | pand | por | pxor | pnot | pmask | pload
  deriving DecidableEq, Repr

/-- SUB of FFMA (R147). -/
inductive FmaOp where
  | ma | ms | nma | nms
  deriving DecidableEq, Repr

/-- SUB of FMINMAX (R148). -/
inductive FMinMax where
  | min | max | minnum | maxnum
  deriving DecidableEq, Repr

/-- SUB of FAPX (R151). -/
inductive FapxFn where
  | rcp | rsq | sqrt | exp2 | log2 | sin | cos | tanh
  deriving DecidableEq, Repr

/-- A word count of an expansion operand (R48). -/
inductive Wc where
  | w2 | w3 | w4
  deriving DecidableEq, Repr

/-- SUB of SPACK (R190). -/
inductive NzOp where
  | nz3 | nz4 | nz6
  deriving DecidableEq, Repr

/-- SUB of LD (ACQ) and ST (REL) (R230): plain, acquire or release, non-temporal. -/
inductive MemKind where
  | plain | sync | nt
  deriving DecidableEq, Repr

/-- SUB of PREF (R234). -/
inductive PrefKind where
  | inl1 | inl2 | int1
  deriving DecidableEq, Repr

/-- SUB of CMAINT (R235). -/
inductive MaintKind where
  | clean | inv | clinv
  deriving DecidableEq, Repr

/-- SUB of FENCE (R246). -/
inductive FenceKind where
  | both | acq | rel
  deriving DecidableEq, Repr

/-- MOD class AOP (R42, R270). -/
inductive AtomOp where
  | add | min | max | and | or | xor | xchg | cas
  deriving DecidableEq, Repr

/-- MOD class ROP (R42, R271). -/
inductive RedOp where
  | add | min | max | and | or | xor
  deriving DecidableEq, Repr

/-- MOD class AWN (R42, R273). -/
inductive AwN where
  | w1 | w2 | w3 | w4
  deriving DecidableEq, Repr

/-- SUB of MCMP (R300). -/
inductive McmpOp where
  | vadd | vmul | vfma | vcopy | vfill
  deriving DecidableEq, Repr

/-- MOD of COLL.RSEND (R334). -/
inductive CollMode where
  | rns | fppair
  deriving DecidableEq, Repr

/-- SUB of LEA: the factor (R126). -/
inductive LeaK where
  | m1 | m2 | m4 | m8 | m16
  deriving DecidableEq, Repr

/-- The system registers (R53, R377). -/
inductive SysReg where
  | archid | qlen | detctl | tokctl | trapvec | trapcause | trapaddr | trapregion
  deriving DecidableEq, Repr

/-- What a remote operation reported to a collective of this module (R337, R338). -/
inductive RemoteResult where
  | ok | remote (bytes : Nat) | dup
  deriving DecidableEq, Repr

/-- Where a collective request comes from (R329, R352): the module, the tag of the request and the module's number for the
command that it belongs to. -/
structure Origin where
  src : Nat
  tag : Nat
  cmd : Nat
  deriving DecidableEq, Repr, Inhabited

/-- The origin of traffic that a job's module asks to be done, with the number of the job (R330). -/
structure JobOrigin extends Origin where
  job : Nat
  deriving DecidableEq, Repr, Inhabited

/-- The flags of a chunk, with the module that owns it and its address; none where its owner failed it twice (R342, R344). -/
structure ChunkFlags where
  owner : Nat
  y : Word
  flags : Option (BitVec 6)
  deriving DecidableEq, Repr, Inhabited

/-- An access a peer module asks of this one (R329): physical accesses to PEER pages carry the address FRAME gives, and
collective traffic carries a job and a virtual address. -/
inductive RemoteReq where
  | read (src tag : Nat) (pa : Nat) (len : Nat)
  | write (src tag : Nat) (pa : Nat) (data : List Byte)
  | atom (src tag : Nat) (ty : Ty) (op : AtomOp) (pa : Nat) (b c : Word)
  | atomc (src tag : Nat) (pa : Nat) (v : LWord)
  | atomw (src tag : Nat) (pa : Nat) (expect new : List Byte)
  | collWrite (o : Origin) (job seq : Nat) (va : Word) (data : List Byte)
  | collRead (o : Origin) (job seq : Nat) (va : Word) (len : Nat)
  deriving DecidableEq, Repr

/-- One element of a contribution as it travels: the residues of n (R342), the word of three channels and the fourth one, with
|n| and whether n is inexact; or a pattern, of FP-pair mode, of a NaN or of an infinity. -/
inductive Piece where
  | res (w : LWord) (d mag : Nat) (nx : Bool)
  | pat (x : LWord)
  deriving DecidableEq, Repr, Inhabited

/-- One contribution to a chunk (R340): its origin, the member's rank, the element type and the elements. -/
structure Contribution where
  orig : Origin
  rank : Nat
  ty : Ty
  words : List Piece
  deriving DecidableEq, Repr

/-- A link flit (R348), its fields as they arrive. -/
structure Flit where
  kind : Nat
  slot : Bool
  vc : Nat
  resv : Nat
  seq : BitVec 12
  ack : BitVec 12
  nak : Bool
  ctr : Word
  payload : List Byte
  tag : List Byte
  crc : BitVec 32
  deriving DecidableEq, Repr

/-- A host access (R397): to device memory through CXL.mem or PCIe, to its own memory, or a read of the host window. -/
inductive HostOp where
  | read (pa len : Nat)
  | write (pa : Nat) (data : List Byte) (enable : List Bool)
  | fetchAdd (pa : Nat) (delta : Word)
  | hostWrite (hpa : Nat) (data : List Byte)
  | window (off : Nat)
  deriving DecidableEq, Repr

/-- The masters an access table tells apart (R401). -/
inductive Master where
  | core | copy | peer | host
  deriving DecidableEq, Repr

/-- One window of an access table (R401): which target's controllers hold it (one of the HBM controllers, by its stack, or with
none each of the target's), for which context, its physical range and what each master kind and which peers may do. -/
structure AccWindow where
  tgt : BitVec 3
  unit : Option Nat
  ctx : Nat
  base : Nat
  size : Nat
  coreR : Bool
  coreW : Bool
  copyR : Bool
  copyW : Bool
  peerR : Bool
  peerW : Bool
  hostR : Bool
  hostW : Bool
  peers : List Nat
  deriving DecidableEq, Repr

/-- A command to the root mailbox (R399). -/
inductive MailCmd where
  | setQuota (tenant bytes : Nat)
  | setTable (w : List AccWindow) (ctx : Nat) (tgt : BitVec 3) (unit : Option Nat)
  | retrain (port : Nat)
  | assign (devno : BitVec 9)
  | fromService
  deriving DecidableEq, Repr

/-- A firmware image as the module receives it (R398). -/
structure Image where
  body : List Byte
  security : Nat
  deriving DecidableEq, Repr, Inhabited

/-- Where a soft error strikes (R239): a byte of a core's scratchpad, of a memory, or of the memory's copy in a way of a die's L2. -/
inductive ErrSite where
  | scratch (core off : Nat)
  | memory (loc : Nat)
  | l2 (die way loc : Nat)
  deriving DecidableEq, Repr

/-- The instructions and events of the KM740. -/
inductive Instr where
  -- control (R98 to R112)
  | nop (g : Guard)
  | bra (g : Guard) (off : BitVec 27)
  | brp (g : Guard) (c : BrCond) (p : BitVec 3) (off : BitVec 27)
  | brx (g : Guard) (a : Opd)
  | call (g : Guard) (d : Opd) (off : BitVec 27)
  | ret (g : Guard) (a : Opd)
  | loop (g : Guard) (l : BitVec 2) (a : Opd) (off : BitVec 18)
  | lbrk (g : Guard) (l : BitVec 2)
  | regang (g : Guard)
  | yield (g : Guard)
  | exit (g : Guard)
  | vote (g : Guard) (op : VoteOp) (d a : Opd)
  -- integer, lane and partition (R116 to R136)
  | iadd (g : Guard) (ty : Ty) (sat : Bool) (op : AddOp) (d a b c : Opd)
  | imul (g : Guard) (ty : Ty) (sat : Bool) (op : MulOp) (d a b : Opd)
  | imad (g : Guard) (ty : Ty) (sat : Bool) (op : MulOp) (d a b c : Opd)
  | iminmax (g : Guard) (ty : Ty) (op : MinMax) (d a b : Opd)
  | logic (g : Guard) (ty : Ty) (tt : BitVec 8) (d a b c : Opd)
  | shift (g : Guard) (ty : Ty) (op : ShiftOp) (d a b c : Opd)
  | bits (g : Guard) (ty : Ty) (op : BitsOp) (d a : Opd)
  | bfx (g : Guard) (ty : Ty) (op : BfxOp) (d a b c : Opd)
  | icmp (g : Guard) (ty : Ty) (c : Cnd) (d a b : Opd)
  | sel (g : Guard) (ty : Ty) (d a b c : Opd)
  | mov (g : Guard) (ty : Ty) (d a : Opd)
  | lea (g : Guard) (k : LeaK) (d a b c : Opd)
  | hashCrc32c (g : Guard) (ty : Ty) (d a b : Opd)
  | hashMix64 (g : Guard) (ty : Ty) (d a b : Opd)
  | partRadix (g : Guard) (ty : Ty) (d a c : Opd)
  | partRange (g : Guard) (ty : Ty) (d a b c : Opd)
  | lane (g : Guard) (ty : Ty) (gang : Bool) (op : LaneOp) (d a b : Opd)
  | pred (g : Guard) (op : PredOp) (d a b : Opd)
  -- float (R147 to R158)
  | fadd (g : Guard) (ty : Ty) (r : Rnd) (diff : Bool) (d a b : Opd)
  | fmul (g : Guard) (ty : Ty) (r : Rnd) (d a b : Opd)
  | ffma (g : Guard) (ty : Ty) (r : Rnd) (op : FmaOp) (d a b c : Opd)
  | fminmax (g : Guard) (ty : Ty) (op : FMinMax) (d a b : Opd)
  | fcmp (g : Guard) (ty : Ty) (c : Cnd) (d a b : Opd)
  | fclass (g : Guard) (ty : Ty) (d a : Opd)
  | fapx (g : Guard) (ty : Ty) (fn : FapxFn) (d a : Opd)
  | fcvt (g : Guard) (ty : Ty) (r : Rnd) (src : Ty) (d a : Opd)
  | fadd2 (g : Guard) (ty : Ty) (d a b : Opd)
  | fmul2 (g : Guard) (ty : Ty) (d a b : Opd)
  | ffma3 (g : Guard) (ty : Ty) (d a b c : Opd)
  -- expansion (R165 to R171)
  | xadd (g : Guard) (ty : Ty) (wd wa wb : Wc) (d a b : Opd)
  | xadds (g : Guard) (ty : Ty) (wd wa : Wc) (d a b : Opd)
  | xmuls (g : Guard) (ty : Ty) (wd wa : Wc) (d a b : Opd)
  | xrenorm (g : Guard) (ty : Ty) (wd wa : Wc) (d a : Opd)
  | xcomp (g : Guard) (ty : Ty) (wa : Wc) (d a : Opd)
  | xcmp (g : Guard) (ty : Ty) (c : Cnd) (wa wb : Wc) (d a b : Opd)
  | xcvt (g : Guard) (ty : Ty) (wd wa : Wc) (src : Ty) (d a : Opd)
  -- narrow and residue (R178 to R190)
  | setfmt (g : Guard) (a : Opd)
  | getfmt (g : Guard) (d : Opd)
  | qcvt (g : Guard) (ty : NTy) (src : Ty) (d a : Opd)
  | qdec (g : Guard) (ty : NTy) (dst : Ty) (d a : Opd)
  | renc (g : Guard) (ty : NTy) (d a b : Opd)
  | rmac (g : Guard) (ty : NTy) (d a b c : Opd)
  | rdec (g : Guard) (dst : Ty) (d a b : Opd)
  | spack (g : Guard) (ty : NTy) (n : NzOp) (d a : Opd)
  -- memory (R230 to R238)
  | ld (g : Guard) (ty : Ty) (sc : Scope) (k : MemKind) (d a b c : Opd)
  | scratchLoadReturn (cmd : Nat)
  | st (g : Guard) (ty : Ty) (sc : Scope) (k : MemKind) (a b c : Opd)
  | lds (g : Guard) (ty : Ty) (d a b : Opd)
  | sts (g : Guard) (ty : Ty) (a b c : Opd)
  | ldw (g : Guard) (ty : Ty) (sc : Scope) (g4 : Bool) (d a b c : Opd)
  | stw (g : Guard) (ty : Ty) (sc : Scope) (g4 : Bool) (a b c : Opd)
  | stsplit (g : Guard) (ty : Ty) (sc : Scope) (a b c : Opd)
  | ldsplit (g : Guard) (ty : Ty) (sc : Scope) (d a b : Opd)
  | pref (g : Guard) (k : PrefKind) (a b : Opd)
  | cmaint (g : Guard) (sc : Scope) (k : MaintKind) (a b : Opd)
  | waitp (g : Guard) (path : Fin 6) (a : Opd)
  | xlat (g : Guard) (d a : Opd)
  | heldStoreEviction (line : Nat)
  -- synchronisation (R246 to R258)
  | fence (g : Guard) (sc : Scope) (k : FenceKind)
  | bar (g : Guard) (lv : BitVec 3)
  | barArrive (g : Guard) (lv : BitVec 3)
  | barWait (g : Guard) (lv : BitVec 3)
  | barArrivedrop (g : Guard) (lv : BitVec 3)
  | tlwait (g : Guard) (t : BitVec 3) (b : Opd)
  | tlread (g : Guard) (t : BitVec 3) (d b : Opd)
  | qend (g : Guard)
  | dsync (g : Guard)
  | quantumEnd (blk gang : Nat)
  | detCommitPhase (blk : Nat)
  | detSerialPhase (blk : Nat)
  -- atomics (R270 to R279)
  | atom (g : Guard) (ty : Ty) (op : AtomOp) (sc : Scope) (d a b c : Opd)
  | redm (g : Guard) (ty : Ty) (op : RedOp) (sc : Scope) (a b : Opd)
  | atomc (g : Guard) (sc : Scope) (d a b : Opd)
  | atomw (g : Guard) (ty : Ty) (n : AwN) (sc : Scope) (d a b c : Opd)
  | append (g : Guard) (d a b : Opd)
  | appendGrant (cmd : Nat)
  | skopEnq (g : Guard) (d a b : Opd)
  | skopChase (g : Guard) (d a b c : Opd)
  | skipperReply (cmd : Nat)
  -- matrix (R196 to R211)
  | mzero (g : Guard) (d : Opd)
  | memit (g : Guard) (main : Bool) (d a b c : Opd)
  | msave (g : Guard) (a b : Opd)
  | mload (g : Guard) (d a : Opd)
  | mbobjInit (g : Guard) (a b c : Opd)
  | mbobjArrive (g : Guard) (a b : Opd)
  | mbobjWait (g : Guard) (a b : Opd)
  | qpostTask (g : Guard) (a : Opd)
  | tileTaskStart (core : Nat)
  | tileChunkEnd (task : Nat)
  -- asynchronous (R287 to R300)
  | cpy (g : Guard) (d a b c : Opd)
  | cpyt (g : Guard) (ty : Ty) (cb : Bool) (d a : Opd)
  | cbook (g : Guard) (d a : Opd)
  | copyComplete (cmd : Nat)
  | qpost (g : Guard) (d a b : Opd)
  | queuePacketPickup (uq : Nat)
  | queuePacketComplete (uq : Nat)
  | mred (g : Guard) (a : Opd)
  | mredComplete (cmd : Nat)
  | mcmp (g : Guard) (ty : Ty) (r : Rnd) (op : McmpOp) (a : Opd)
  | mcmpComplete (cmd : Nat)
  -- spans and switch memory (R304 to R324)
  | spanctlCap (g : Guard) (a b : Opd)
  | spanctlPol (g : Guard) (a b : Opd)
  | spanctlEvict (g : Guard) (a : Opd)
  | spanq (g : Guard) (d a : Opd)
  | spanfet (g : Guard) (d a b : Opd)
  | spanFetchArrival (span : Nat)
  | spanReplacement (span : Nat)
  | spanEvictionComplete (span : Nat)
  | salloc (g : Guard) (dup : Bool) (d a b : Opd)
  | sfree (g : Guard) (d a : Opd)
  -- collectives (R332 to R344)
  | collSend (g : Guard) (d a b c : Opd)
  | collGet (g : Guard) (d a b c : Opd)
  | collRsend (g : Guard) (ty : Ty) (m : CollMode) (d a b c : Opd)
  | collMcast (g : Guard) (d a b c : Opd)
  | collComplete (cmd : Nat) (r : RemoteResult) (data : List Byte)
  | cinstStart (g : Guard) (d a : Opd)
  | cinstQuery (g : Guard) (d a : Opd)
  | instanceAnnounceReceive (job member seq : Nat) (digest : BitVec 32)
  | remoteRequestReceive (r : RemoteReq)
  | rnsExponentReceive (o : JobOrigin) (seq : Nat) (y : Word) (rank : Nat) (e : Option Int) (agreed : Bool)
  | chunkContributionArrive (job seq : Nat) (y : Word) (c : Contribution)
  | chunkFlagsReceive (job seq : Nat) (f : ChunkFlags)
  | mcastLanding (o : JobOrigin) (seq : Nat) (va : Word) (len : Nat)
  | mcastLandingComplete (landing : Nat) (data : List Byte)
  -- launch, events and system (R370 to R388)
  | launch (g : Guard) (d a b : Opd)
  | evopSet (g : Guard) (a b : Opd)
  | evopClr (g : Guard) (a b : Opd)
  | evopTest (g : Guard) (d a b : Opd)
  | sysr (g : Guard) (r : SysReg) (d : Opd)
  | sysw (g : Guard) (r : SysReg) (a : Opd)
  | trap (g : Guard) (n : BitVec 8)
  | eret (g : Guard)
  | sleep (g : Guard) (a : Opd)
  | sleepExpiry (blk slice : Nat)
  -- the scheduler (R357 to R375, R389 to R397)
  | hqsub (hq : Nat) (addr : Word)
  | hqctlRestart (hq : Nat)
  | hqctlRemoveHead (hq : Nat)
  | hqctlClearOvf (hq : Nat)
  | recordHeadCheck (hq : Nat)
  | nodeEnterPool (hq pos : Nat)
  | nodeDispatch (hq pos : Nat)
  | blockPlacement (launch : Nat) (cores : List Nat)
  | chrysalisSaveComplete (launch unit : Nat)
  | drainTimeout (launch unit : Nat)
  | launchComplete (launch : Nat)
  | graphUpload (addr : Word)
  | graphFree (slot : Nat)
  | graphKick (slot : Nat) (table : Word)
  | graphKickProceed (slot : Nat)
  | pfresResume (ctx id : Nat)
  | pfresFail (ctx id : Nat)
  | preempt (ctx : Nat)
  | tlbinv (ctx : Nat)
  | faultClear (ctx : Nat)
  | hostRegisterWrite (off : Nat) (value : Word)
  | tokenBucketTick (bytes energy : List Nat)
  | retentionExitDone (core bank : Nat)
  -- links and the fabric (R348 to R355)
  | flitReceive (port : Nat) (f : Flit)
  | heartbeatTimer (port : Nat)
  | linkSilenceTimeout (port : Nat)
  | keyInstall (port : Nat) (tx slot : Bool) (key : List Byte) (salt : BitVec 32) (limit : Nat)
  | linkTrainingComplete (port : Nat)
  | keySwitchover (port : Nat)
  | drainingSlotLimit (port : Nat)
  | linkDeathReport (reporter plane : Nat)
  | deathNotice (dev epoch : Nat)
  -- firmware, power and memory errors (R239, R283, R354, R355, R389, R397 to R403)
  | moduleReset
  | serviceImageDelivery (img : Image)
  | attestationRequest (nonce : List Byte)
  | clockThrottle (watts : Nat)
  | wordNotInstruction (check : Nat)
  | hostMemoryAccess (op : HostOp)
  | rootMailboxCommand (c : MailCmd)
  | powerLoss (leafAdvanced : Bool)
  | pageMigrationFreeze (page : Nat) (on : Bool)
  | retentionEntry (core bank : Nat)
  | memorySoftError (site : ErrSite) (correctable : Bool)
  | peerReadmission (dev epoch : Nat)
  | planeFailureAnnouncement (plane : Nat)
  | engineAccessFault (cmd : Nat)
  deriving DecidableEq, Repr

end Sys2Proof
end

