-- ==== Sys2Proof/Config.lean ====
section
/-! DEFINITION. What the implementation fixes (R1, R26) and the values the manual leaves open. An opaque constant here has
no body that a proof can see: a claim holds whatever it is. -/

namespace Sys2Proof.Config

/-- Cores of the package (R11, R411). -/
def cores : Nat := 192

/-- archid (R3): stepping B0. -/
def archid : Word := 0x7AE1_0740_0100_1000

/-- Entries of a private buffer (R255). -/
def bufEntries : Nat := 1024

/-- Tasks a core's queue holds (R205). -/
def taskQueue : Nat := 64

/-- K positions of a chunk (R205). -/
def chunkK : Nat := 96

/-- Values logged for re-execution (R280, R301). -/
def logEntries : Nat := 16

/-- Replies q1 holds (R277). -/
def q1Replies : Nat := 16

/-- The n-th value that the manual leaves open (log entry 3). -/
opaque freeWord : Nat → BitVec 64

/-- The n-th open value of an operation of a deterministic launch, which has one name in all of the launch's runs (R25; log entry 3). -/
opaque detWord : List Nat → Nat → BitVec 64

/-- FAPX results whose value R151 bounds but does not state (log entry 4). -/
opaque fapx : FapxFn → LWord → LWord

/-- Whether an access between a change of an entry and its invalidation uses the old one (R220; log entry 5). -/
opaque useStale : Nat → Bool

/-- The SHA-256 function and the LMS verification and signature of R398 and R400, whose algorithms the manual names and does
not restate (log entry 6). -/
opaque sha256 : List Byte → List Byte
opaque lmsVerify : List Byte → Bool
opaque lmsSign : Nat → List Byte → List Byte

/-- The hash of R328 of a destination and a page, and the texts of the flits that carry the n-th packet (log entry 55). -/
opaque planeHash : Nat → Nat → Nat
opaque packet : Nat → List (List Byte)

/-- Whether the host link trains as PCIe 6.0 at the n-th reset (R397). -/
opaque pcie6 : Nat → Bool

/-- The bytes of a chrysalis image whose layout is the KM740's own (R395): the n-th image's, by offset (log entry 58). -/
opaque imageByte : Nat → Nat → Byte

/-- AES-GCM-256 of a flit (R348): the key, the salt, the invocation counter, the additional data and the text. -/
opaque gcmSeal : List Byte → BitVec 32 → Word → List Byte → List Byte → List Byte
opaque gcmTag : List Byte → BitVec 32 → Word → List Byte → List Byte → List Byte
opaque gcmOpen : List Byte → BitVec 32 → Word → List Byte → List Byte → List Byte

/-- The module flash (R398): the root firmware and the service firmware images. -/
opaque flashRoot : Image
opaque flashService : Image

/-- Rows of a core's SRAMs that the March C- test finds failing (R402). -/
opaque failingRows : Nat → Nat → Nat

end Sys2Proof.Config
end

