-- ==== Sys2Proof/WellFormed.lean ====
section
/-! DEFINITION. The checks of R57 that an instruction's fields alone decide: accepted operand classes (check 8), group
alignment, LIVE and the accumulator window (check 9), the extension word (check 10), and each chapter's own checks on the
encoding (check 11). One table, `Instr.uses`, gives every field an instruction uses: the classes it accepts, the width at
which it is read and the lane registers it spans. -/

namespace Sys2Proof

/-- Operand classes (R30). `identLane` is the identity `lane`, which a slice scalar cannot read (R21); `bad` is a
specifier with no class. -/
inductive Cls where
  | v | s | p | q | acc | fmt | flg | tl | ident | identLane | small | ext | none | bad
  deriving DecidableEq, Repr

def Opd.cls : Opd → Cls
  | .v _ => .v
  | .s _ => .s
  | .p _ => .p
  | .q _ => .q
  | .acc _ => .acc
  | .fmt => .fmt
  | .flg => .flg
  | .tl _ => .tl
  | .ident n => if n = 0 then .identLane else if n.toNat ≤ 12 then .ident else .bad
  | .small _ => .small
  | .ext _ => .ext
  | .none => .none

/-- One field as an instruction uses it. -/
structure Use where
  o : Opd
  accept : List Cls
  /-- the width at which an extension word in this field is read (R32) -/
  width : Nat
  /-- the lane registers it spans when it names one: 1, 2, 3, 4 or 8 (R5, R160, R180) -/
  regs : Nat
  deriving DecidableEq, Repr

/-- The width of a type in bits (R40). -/
def Ty.width : Ty → Nat
  | .i8 | .n8 => 8
  | .i16 | .n16 | .f16 | .bf16 => 16
  | .i32 | .n32 | .f32 | .b32 => 32
  | _ => 64

def Ty.isInt : Ty → Bool
  | .i8 | .n8 | .i16 | .n16 | .i32 | .n32 | .i64 | .n64 => true
  | _ => false

def Ty.isFloat : Ty → Bool
  | .f32 | .f16 | .bf16 => true
  | _ => false

def Ty.isSigned : Ty → Bool
  | .i8 | .i16 | .i32 | .i64 => true
  | _ => false

/-- Lane registers of a value of this type (R115): 64-bit types take a pair. -/
def Ty.regs (t : Ty) : Nat := if t.width = 64 then 2 else 1

def Opd.isS : Opd → Bool
  | .s _ => true
  | _ => false

def Opd.isV : Opd → Bool
  | .v _ => true
  | _ => false

def Opd.isNone : Opd → Bool
  | .none => true
  | _ => false

def Opd.isExt : Opd → Bool
  | .ext _ => true
  | _ => false

/-- The extension word of an operand that takes one (R32). -/
def Opd.word? : Opd → Option Word
  | .ext w => some w
  | _ => Option.none

/-- A negative small constant (R31): bit 4 of k − 0x1C0 clear means −16..−1. -/
def Opd.negSmall : Opd → Bool
  | .small k => k.toNat < 16
  | _ => false

def Wc.num : Wc → Nat
  | .w2 => 2 | .w3 => 3 | .w4 => 4

def AwN.num : AwN → Nat
  | .w1 => 1 | .w2 => 2 | .w3 => 3 | .w4 => 4

namespace Use

/-- Integer sources (R115): the scalar form, chosen by an s destination, refuses lane registers and `lane`. -/
def intSrc (d : Opd) : List Cls :=
  if d.isS then [.s, .small, .ext, .none, .ident] else [.v, .s, .small, .ext, .none, .ident, .identLane]

def floatSrc : List Cls := [.v, .s, .small, .ext, .none]

/-- A global address A (R225); the scalar form has no lane register. -/
def addr (scalar : Bool) : List Cls := if scalar then [.s, .ext] else [.v, .s, .ext]

def addrOff (scalar : Bool) : List Cls := if scalar then [.s, .small, .ext, .none] else [.v, .s, .small, .ext, .none]

def cmdVal : List Cls := [.s, .small, .ext]

/-- An atomic's operand (R269). -/
def atomSrc (scalar : Bool) : List Cls := if scalar then [.s, .small, .ext] else [.v, .s, .small, .ext]

end Use

open Use in
/-- Every field an instruction uses, in the order D, A, B, C. A LANE reduction with an s destination takes its v source: R132 and R135
give it that form, against R115's rule for the scalar form; and the source position in B of LANE SHFL is one register whatever TY is, for
R32 gives it 32 bits (log entry 62). -/
def Instr.uses : Instr → List Use
  | .brx _ a => [⟨a, [.s, .ext], 64, 1⟩]
  | .call _ d _ => [⟨d, [.s, .none], 64, 1⟩]
  | .ret _ a => [⟨a, [.s], 64, 1⟩]
  | .loop _ _ a _ => [⟨a, cmdVal, 32, 1⟩]
  | .vote _ op d a =>
    [⟨d, if op = .ballot then [.s] else [.p], 64, 1⟩, ⟨a, if op = .uni then [.v] else [.p], 32, 1⟩]
  | .iadd _ ty _ _ d a b c =>
    [⟨d, [.v, .s], 64, ty.regs⟩, ⟨a, intSrc d, ty.width, ty.regs⟩, ⟨b, intSrc d, ty.width, ty.regs⟩,
     ⟨c, intSrc d, ty.width, ty.regs⟩]
  | .imul _ ty _ op d a b =>
    [⟨d, [.v, .s], 64, if op = .wide then (if ty.width = 64 then 4 else if ty.width = 32 then 2 else 1) else ty.regs⟩,
     ⟨a, intSrc d, ty.width, ty.regs⟩, ⟨b, intSrc d, ty.width, ty.regs⟩]
  | .imad _ ty _ op d a b c =>
    let n := if op = .wide then (if ty.width = 64 then 4 else if ty.width = 32 then 2 else 1) else ty.regs
    [⟨d, [.v, .s], 64, n⟩, ⟨a, intSrc d, ty.width, ty.regs⟩, ⟨b, intSrc d, ty.width, ty.regs⟩,
     ⟨c, intSrc d, ty.width, n⟩]
  | .iminmax _ ty _ d a b =>
    [⟨d, [.v, .s], 64, ty.regs⟩, ⟨a, intSrc d, ty.width, ty.regs⟩, ⟨b, intSrc d, ty.width, ty.regs⟩]
  | .logic _ ty _ d a b c =>
    [⟨d, [.v, .s], 64, ty.regs⟩, ⟨a, intSrc d, ty.width, ty.regs⟩, ⟨b, intSrc d, ty.width, ty.regs⟩,
     ⟨c, intSrc d, ty.width, ty.regs⟩]
  | .shift _ ty op d a b c =>
    [⟨d, [.v, .s], 64, ty.regs⟩, ⟨a, intSrc d, ty.width, ty.regs⟩, ⟨b, intSrc d, 32, 1⟩,
     ⟨c, if op = .fshl ∨ op = .fshr then intSrc d else [.none], ty.width, ty.regs⟩]
  | .bits _ ty op d a =>
    [⟨d, [.v, .s], 64, if op = .brev ∨ op = .bswap then ty.regs else 1⟩, ⟨a, intSrc d, ty.width, ty.regs⟩]
  | .bfx _ ty op d a b c =>
    [⟨d, [.v, .s], 64, ty.regs⟩, ⟨a, intSrc d, ty.width, ty.regs⟩,
     ⟨b, if op = .ins then intSrc d else [.none], ty.width, ty.regs⟩, ⟨c, intSrc d, 64, ty.regs⟩]
  | .icmp _ ty _ d a b =>
    [⟨d, [.p], 64, 1⟩, ⟨a, intSrc d, ty.width, ty.regs⟩, ⟨b, intSrc d, ty.width, ty.regs⟩]
  | .sel _ ty d a b c =>
    [⟨d, [.v], 64, ty.regs⟩, ⟨a, intSrc d, ty.width, ty.regs⟩, ⟨b, intSrc d, ty.width, ty.regs⟩, ⟨c, [.p], 64, 1⟩]
  | .mov _ ty d a =>
    match ty with
    | .b32 => [⟨d, [.v, .s], 64, 1⟩, ⟨a, if d.isS then [.s, .small, .ext, .ident] else
        [.v, .s, .small, .ext, .ident, .identLane], 32, 1⟩]
    | .b64 => [⟨d, [.v, .s], 64, 2⟩, ⟨a, if d.isS then [.s, .small, .ext] else [.v, .s, .small, .ext], 64, 2⟩]
    | _ => [⟨d, [.s, .flg], 64, 1⟩, ⟨a, if d.isS then [.flg] else [.s], 64, 1⟩]
  | .lea _ _ d a b c =>
    [⟨d, [.v, .s], 64, 2⟩, ⟨a, if d.isS then [.s, .ext] else [.v, .s, .ext], 64, 2⟩,
     ⟨b, if d.isS then [.s, .small, .none] else [.v, .s, .small, .none], 64, 1⟩, ⟨c, [.small, .s, .ext, .none], 64, 1⟩]
  | .hashCrc32c _ ty d a b =>
    [⟨d, [.v, .s], 64, ty.regs⟩, ⟨a, intSrc d, 32, ty.regs⟩, ⟨b, intSrc d, ty.width, ty.regs⟩]
  | .hashMix64 _ ty d a b =>
    [⟨d, [.v, .s], 64, ty.regs⟩, ⟨a, intSrc d, 64, 2⟩, ⟨b, intSrc d, 64, 2⟩]
  | .partRadix _ ty d a c =>
    [⟨d, [.v, .s], 64, ty.regs⟩, ⟨a, intSrc d, ty.width, ty.regs⟩, ⟨c, intSrc d, 64, ty.regs⟩]
  | .partRange _ ty d a b c =>
    [⟨d, [.v, .s], 64, ty.regs⟩, ⟨a, intSrc d, ty.width, ty.regs⟩, ⟨b, [.s, .ext], 64, 1⟩, ⟨c, intSrc d, 64, ty.regs⟩]
  | .lane _ ty _ op d a b =>
    let red := op = .redadd ∨ op = .redmin ∨ op = .redmax ∨ op = .redand ∨ op = .redor ∨ op = .redxor
    [⟨d, if red then [.v, .s] else [.v], 64, ty.regs⟩,
     ⟨a, [.v, .s, .small, .ext, .none, .ident, .identLane], ty.width, ty.regs⟩,
     ⟨b, match op with
         | .shfl => [.v, .s, .small, .ext]
         | .bcast | .up | .down | .xorl => [.s, .small, .ext]
         | _ => [.none], 32, 1⟩]
  | .pred _ op d a b =>
    [⟨d, [.p], 64, 1⟩,
     ⟨a, match op with | .pmask => cmdVal | .pload => [.v] | _ => [.p], 64, 1⟩,
     ⟨b, match op with | .pand | .por | .pxor => [.p] | _ => [.none], 64, 1⟩]
  | .fadd _ ty _ _ d a b => [⟨d, [.v], 64, 1⟩, ⟨a, floatSrc, ty.width, 1⟩, ⟨b, floatSrc, ty.width, 1⟩]
  | .fmul _ ty _ d a b => [⟨d, [.v], 64, 1⟩, ⟨a, floatSrc, ty.width, 1⟩, ⟨b, floatSrc, ty.width, 1⟩]
  | .ffma _ ty _ _ d a b c =>
    [⟨d, [.v], 64, 1⟩, ⟨a, floatSrc, ty.width, 1⟩, ⟨b, floatSrc, ty.width, 1⟩, ⟨c, floatSrc, ty.width, 1⟩]
  | .fminmax _ ty _ d a b => [⟨d, [.v], 64, 1⟩, ⟨a, floatSrc, ty.width, 1⟩, ⟨b, floatSrc, ty.width, 1⟩]
  | .fcmp _ ty _ d a b => [⟨d, [.p], 64, 1⟩, ⟨a, floatSrc, ty.width, 1⟩, ⟨b, floatSrc, ty.width, 1⟩]
  | .fclass _ ty d a => [⟨d, [.v], 64, 1⟩, ⟨a, floatSrc, ty.width, 1⟩]
  | .fapx _ ty _ d a => [⟨d, [.v], 64, 1⟩, ⟨a, floatSrc, ty.width, 1⟩]
  | .fcvt _ ty _ src d a => [⟨d, [.v], 64, ty.regs⟩, ⟨a, floatSrc, src.width, src.regs⟩]
  | .fadd2 _ ty d a b => [⟨d, [.v], 64, 2⟩, ⟨a, floatSrc, ty.width, 1⟩, ⟨b, floatSrc, ty.width, 1⟩]
  | .fmul2 _ ty d a b => [⟨d, [.v], 64, 2⟩, ⟨a, floatSrc, ty.width, 1⟩, ⟨b, floatSrc, ty.width, 1⟩]
  | .ffma3 _ ty d a b c =>
    [⟨d, [.v], 64, 3⟩, ⟨a, floatSrc, ty.width, 1⟩, ⟨b, floatSrc, ty.width, 1⟩, ⟨c, floatSrc, ty.width, 1⟩]
  | .xadd _ _ wd wa wb d a b => [⟨d, [.v], 64, wd.num⟩, ⟨a, [.v], 64, wa.num⟩, ⟨b, [.v], 64, wb.num⟩]
  | .xadds _ ty wd wa d a b => [⟨d, [.v], 64, wd.num⟩, ⟨a, [.v], 64, wa.num⟩, ⟨b, floatSrc, ty.width, 1⟩]
  | .xmuls _ ty wd wa d a b => [⟨d, [.v], 64, wd.num⟩, ⟨a, [.v], 64, wa.num⟩, ⟨b, floatSrc, ty.width, 1⟩]
  | .xrenorm _ _ wd wa d a => [⟨d, [.v], 64, wd.num⟩, ⟨a, [.v], 64, wa.num⟩]
  | .xcomp _ _ wa d a => [⟨d, [.v], 64, 1⟩, ⟨a, [.v], 64, wa.num⟩]
  | .xcmp _ _ _ wa wb d a b => [⟨d, [.p], 64, 1⟩, ⟨a, [.v], 64, wa.num⟩, ⟨b, [.v], 64, wb.num⟩]
  | .xcvt _ _ wd wa _ d a => [⟨d, [.v], 64, wd.num⟩, ⟨a, [.v], 64, wa.num⟩]
  | .setfmt _ a => [⟨a, [.s, .ext], 64, 1⟩]
  | .getfmt _ d => [⟨d, [.s], 64, 1⟩]
  | .qcvt _ _ _ d a => [⟨d, [.v], 64, 3⟩, ⟨a, [.v], 64, 8⟩]
  | .qdec _ _ _ d a => [⟨d, [.v], 64, 8⟩, ⟨a, [.v], 64, 3⟩]
  | .renc _ _ d a b => [⟨d, [.v], 64, 1⟩, ⟨a, [.v, .s, .none], 32, 1⟩, ⟨b, [.v, .s, .small, .ext], 32, 1⟩]
  | .rmac _ _ d a b c =>
    [⟨d, [.v], 64, 1⟩, ⟨a, [.v, .s, .none], 32, 1⟩, ⟨b, [.v, .s, .none], 32, 1⟩, ⟨c, [.v], 32, 1⟩]
  | .rdec _ dst d a b =>
    [⟨d, [.v], 64, 1⟩, ⟨a, [.v], 32, 1⟩, ⟨b, if dst = .f32 then [.v, .s, .small, .ext] else [.none], 32, 1⟩]
  | .spack _ _ _ d a => [⟨d, [.v], 64, 3⟩, ⟨a, [.v], 64, 3⟩]
  | .ld _ ty _ _ d a b c =>
    [⟨d, [.v, .s, .none], 64, ty.regs⟩, ⟨a, addr d.isS, 64, 2⟩, ⟨b, addrOff d.isS, 64, 1⟩,
     ⟨c, if d.isNone then [.v, .s] else [.none], 32, 1⟩]
  | .st _ ty _ _ a b c =>
    [⟨a, addr false, 64, 2⟩, ⟨b, addrOff false, 64, 1⟩, ⟨c, [.v, .s, .small, .ext], ty.width, ty.regs⟩]
  | .lds _ ty d a b =>
    [⟨d, [.v, .s], 64, ty.regs⟩, ⟨a, if d.isS then cmdVal else [.v, .s, .small, .ext], 32, 1⟩,
     ⟨b, if d.isS then cmdVal else [.v, .s, .small, .ext], 32, 1⟩]
  | .sts _ ty a b c =>
    [⟨a, [.v, .s, .small, .ext], 32, 1⟩, ⟨b, [.v, .s, .small, .ext], 32, 1⟩,
     ⟨c, [.v, .s, .small, .ext], ty.width, ty.regs⟩]
  | .ldw _ ty _ g4 d a b c =>
    [⟨d, [.v, .none], 64, if g4 ∨ ty = .b64 then 4 else 2⟩, ⟨a, addr false, 64, 2⟩, ⟨b, addrOff false, 64, 1⟩,
     ⟨c, if d.isNone then [.v, .s] else [.none], 32, 1⟩]
  | .stw _ ty _ g4 a b c =>
    [⟨a, addr false, 64, 2⟩, ⟨b, [.v, .s, .small, .ext, .none], 64, 1⟩,
     ⟨c, [.v], 64, if g4 ∨ ty = .b64 then 4 else 2⟩]
  | .stsplit _ _ _ a b c => [⟨a, [.s], 64, 1⟩, ⟨b, [.v, .s, .small, .ext], 32, 1⟩, ⟨c, [.v], 64, 2⟩]
  | .ldsplit _ _ _ d a b => [⟨d, [.v], 64, 2⟩, ⟨a, [.s], 64, 1⟩, ⟨b, [.v, .s, .small, .ext], 32, 1⟩]
  | .pref _ _ a b => [⟨a, addr false, 64, 2⟩, ⟨b, addrOff false, 64, 1⟩]
  | .cmaint _ _ _ a b => [⟨a, [.s], 64, 1⟩, ⟨b, cmdVal, 64, 1⟩]
  | .waitp _ _ a => [⟨a, cmdVal, 16, 1⟩]
  | .xlat _ d a => [⟨d, [.s], 64, 1⟩, ⟨a, [.s, .ext], 64, 1⟩]
  | .tlwait _ _ b => [⟨b, cmdVal, 64, 1⟩]
  | .tlread _ _ d b => [⟨d, [.s], 64, 1⟩, ⟨b, [.small, .none], 64, 1⟩]
  | .atom _ ty op _ d a b c =>
    let sc := d.isS
    [⟨d, [.v, .s, .none], 64, ty.regs⟩, ⟨a, addr sc, 64, 2⟩, ⟨b, atomSrc sc, ty.width, ty.regs⟩,
     ⟨c, if op = .cas then .none :: atomSrc sc else [.none], ty.width, ty.regs⟩]
  | .redm _ ty _ _ a b => [⟨a, addr false, 64, 2⟩, ⟨b, atomSrc false, ty.width, ty.regs⟩]
  | .atomc _ _ d a b => [⟨d, [.v, .none], 64, 2⟩, ⟨a, addr false, 64, 2⟩, ⟨b, atomSrc false, 32, 1⟩]
  | .atomw _ ty n _ d a b c =>
    let k := n.num * ty.regs
    [⟨d, [.v, .none], 64, k⟩, ⟨a, addr false, 64, 2⟩, ⟨b, [.v], 64, k⟩, ⟨c, [.v], 64, k⟩]
  | .append _ d a b =>
    [⟨d, [.v, .s], 64, 1⟩, ⟨a, [.s, .ext], 64, 1⟩, ⟨b, if d.isS then cmdVal else [.v, .s, .small, .ext], 32, 1⟩]
  | .skopEnq _ d a b => [⟨d, [.s], 64, 1⟩, ⟨a, [.s, .ext], 64, 1⟩, ⟨b, [.s, .ext], 64, 1⟩]
  | .skopChase _ d a b c => [⟨d, [.s], 64, 1⟩, ⟨a, [.s, .ext], 64, 1⟩, ⟨b, [.s, .ext], 64, 1⟩, ⟨c, [.s], 64, 1⟩]
  | .mzero _ d => [⟨d, [.acc], 64, 1⟩]
  | .memit _ _ d a b c => [⟨d, [.s, .none], 64, 1⟩, ⟨a, [.acc], 64, 1⟩, ⟨b, [.s], 64, 1⟩, ⟨c, [.s, .none], 64, 1⟩]
  | .msave _ a b => [⟨a, [.acc], 64, 1⟩, ⟨b, [.s], 64, 1⟩]
  | .mload _ d a => [⟨d, [.acc], 64, 1⟩, ⟨a, [.s], 64, 1⟩]
  | .mbobjInit _ a b c => [⟨a, [.small, .s], 64, 1⟩, ⟨b, [.acc, .none], 64, 1⟩, ⟨c, cmdVal, 64, 1⟩]
  | .mbobjArrive _ a b => [⟨a, [.small, .s], 64, 1⟩, ⟨b, cmdVal, 64, 1⟩]
  | .mbobjWait _ a b => [⟨a, [.small, .s], 64, 1⟩, ⟨b, [.small, .s], 64, 1⟩]
  | .qpostTask _ a => [⟨a, [.s], 64, 1⟩]
  | .cpy _ d a b c => [⟨d, [.s, .none], 64, 1⟩, ⟨a, [.s, .ext], 64, 1⟩, ⟨b, [.s, .ext], 64, 1⟩, ⟨c, cmdVal, 64, 1⟩]
  | .cpyt _ _ _ d a => [⟨d, [.s, .none], 64, 1⟩, ⟨a, cmdVal, 64, 1⟩]
  | .cbook _ d a => [⟨d, [.s, .none], 64, 1⟩, ⟨a, [.s, .ext], 64, 1⟩]
  | .qpost _ d a b => [⟨d, [.s], 64, 1⟩, ⟨a, [.s], 64, 1⟩, ⟨b, [.s, .ext], 64, 1⟩]
  | .mred _ a => [⟨a, [.s, .ext], 64, 1⟩]
  | .mcmp _ _ _ _ a => [⟨a, [.s], 64, 1⟩]
  | .spanctlCap _ a b => [⟨a, [.s, .ext], 64, 1⟩, ⟨b, cmdVal, 64, 1⟩]
  | .spanctlPol _ a b => [⟨a, [.s, .ext], 64, 1⟩, ⟨b, cmdVal, 64, 1⟩]
  | .spanctlEvict _ a => [⟨a, [.s, .ext], 64, 1⟩]
  | .spanq _ d a => [⟨d, [.s], 64, 1⟩, ⟨a, [.s, .ext], 64, 1⟩]
  | .spanfet _ d a b => [⟨d, [.s, .none], 64, 1⟩, ⟨a, [.s, .ext], 64, 1⟩, ⟨b, cmdVal, 64, 1⟩]
  | .salloc _ _ d a b => [⟨d, [.s], 64, 1⟩, ⟨a, [.s, .ext], 64, 1⟩, ⟨b, cmdVal, 64, 1⟩]
  | .sfree _ d a => [⟨d, [.s, .none], 64, 1⟩, ⟨a, [.s, .ext], 64, 1⟩]
  | .collSend _ d a b c | .collGet _ d a b c | .collMcast _ d a b c | .collRsend _ _ _ d a b c =>
    [⟨d, [.s, .none], 64, 1⟩, ⟨a, [.v], 64, 1⟩, ⟨b, [.v], 64, 2⟩, ⟨c, [.s], 64, 1⟩]
  | .cinstStart _ d a => [⟨d, [.s], 64, 1⟩, ⟨a, [.s, .ext], 64, 1⟩]
  | .cinstQuery _ d a => [⟨d, [.s], 64, 1⟩, ⟨a, cmdVal, 64, 1⟩]
  | .launch _ d a b => [⟨d, [.s, .none], 64, 1⟩, ⟨a, [.s, .ext], 64, 1⟩, ⟨b, cmdVal, 64, 1⟩]
  | .evopSet _ a b | .evopClr _ a b => [⟨a, [.small, .s], 64, 1⟩, ⟨b, [.s, .ext], 64, 1⟩]
  | .evopTest _ d a b => [⟨d, [.s], 64, 1⟩, ⟨a, [.small, .s], 64, 1⟩, ⟨b, [.s, .ext], 64, 1⟩]
  | .sysr _ _ d => [⟨d, [.s], 64, 1⟩]
  | .sysw _ _ a => [⟨a, cmdVal, 64, 1⟩]
  | .sleep _ a => [⟨a, cmdVal, 32, 1⟩]
  | _ => []

/-- A group's alignment (R5): a pair's base is even, a triple's or quad's a multiple of four, a block of eight's of eight. -/
def groupAlign : Nat → Nat
  | 2 => 2
  | 3 | 4 => 4
  | 8 => 8
  | _ => 1

/-- Check 9 for one field: alignment, the end of the register file, LIVE (R36) and the accumulator window (R30). -/
def Use.groupOk (live accn : Nat) (u : Use) : Bool :=
  match u.o with
  | .v n => n.toNat % groupAlign u.regs == 0 && n.toNat + u.regs ≤ 256 && n.toNat + u.regs ≤ live
  | .acc n => n.toNat < accn
  | _ => true

/-- R32: the bits of an extension word above the operand's width are all zero or all copies of the operand's top bit. -/
def extUpperOk (width : Nat) (w : Word) : Bool :=
  width ≥ 64 || w.toNat / 2 ^ width == 0 || w.toNat / 2 ^ (width - 1) == 2 ^ (65 - width) - 1

def Use.extOk (u : Use) : Bool :=
  match u.o with
  | .ext w => extUpperOk u.width w
  | _ => true

/-- Checks 8 to 10 of R57 on a decoded instruction, against its block's LIVE and its launch's window: the number of the
first that fails. -/
def Instr.check (live accn : Nat) (i : Instr) : Option Nat :=
  if !i.uses.all (fun u => u.accept.contains u.o.cls && u.o.cls != .bad) then some 8
  else if !i.uses.all (Use.groupOk live accn) then some 9
  else if (i.uses.filter (fun u => u.o.isExt)).length > 1 || !i.uses.all Use.extOk then some 10
  else none

def SysReg.writable : SysReg → Bool
  | .qlen | .trapvec => true
  | _ => false

def Opd.sIdx : Opd → Option Nat
  | .s n => Option.some n.toNat
  | _ => Option.none

def Opd.sMultipleOf (k : Nat) : Opd → Bool
  | .s n => n.toNat % k == 0
  | _ => false

/-- Check 11 of R57, the parts that the encoding alone decides: each chapter's own rules on types, forms and constants. A source type code
outside the list that R153 or R171 gives fails check 6 in the decoder; a source equal to TY, or two integer types, fails here (log
entry 50). -/
def Instr.own : Instr → Bool
  | .loop _ _ a _ => !a.negSmall                                                       -- R107
  | .iadd _ _ sat op _ _ _ _ => !(sat && (op == .carry || op == .borrow))              -- R116
  | .imul _ ty sat op d _ _ => !(sat && op != .low) && !(op == .wide && ty.width == 64 && d.isS)   -- R117
  | .imad _ ty sat op d _ _ _ => !(sat && op != .low) && !(op == .wide && ty.width == 64 && d.isS)
  | .lane _ ty _ op _ _ _ =>                                                           -- R132
    match op with
    | .shfl | .bcast | .up | .down | .xorl => true
    | .redand | .redor | .redxor => ty.isInt || ty == .b32
    | _ => ty.isInt || ty.isFloat
  | .fcvt _ ty _ src _ _ =>                                                            -- R153
    (src == .i32 || src == .n32 || src == .i64 || src == .n64 || src.isFloat) && src != ty && !(src.isInt && ty.isInt)
  | .xcvt _ ty _ _ src _ _ => src.isFloat && src != ty                                 -- R171
  | .ldw _ ty _ g4 _ _ _ _ => !(ty == .b64 && g4)                                      -- R232
  | .stw _ ty _ g4 _ _ _ => !(ty == .b64 && g4)
  | .stsplit _ _ _ a _ _ => a.sMultipleOf 2                                            -- R233
  | .ldsplit _ _ _ _ a _ => a.sMultipleOf 2
  | .cmaint _ _ _ _ b => !b.negSmall                                                   -- R235
  | .waitp _ _ a => !a.negSmall                                                        -- R236
  | .tlwait _ _ b => !b.negSmall                                                       -- R252
  | .tlread _ _ _ b => b.isNone || b == .small 17                                      -- R253
  | .atom _ ty op _ _ _ _ _ => !(ty == .f32 && (op == .and || op == .or || op == .xor)) -- R270
  | .redm _ ty op _ _ _ => !(ty == .f32 && (op == .and || op == .or || op == .xor))    -- R271
  | .atomw _ ty n _ _ _ _ _ => !(ty == .b64 && n.num > 2)                              -- R273
  | .append _ _ _ b => !b.negSmall                                                     -- R275
  | .mbobjInit _ a _ c => (!a.negSmall) && (match a with | .small k => k.toNat < 24 | _ => true) && !c.negSmall &&
      c != .small 16                                                                   -- R208
  | .mbobjArrive _ a b => (!a.negSmall) && (match a with | .small k => k.toNat < 24 | _ => true) && !b.negSmall
  | .mbobjWait _ a b => (!a.negSmall) && (match a with | .small k => k.toNat < 24 | _ => true) && !b.negSmall
  | .qpostTask _ a => a.sMultipleOf 8                                                  -- R196
  | .qpost _ _ a _ => a.sMultipleOf 8                                                  -- R295
  | .mcmp _ ty r _ a => a.sMultipleOf 8 && !(ty == .i32 && r != .rne)                  -- R300
  | .cpy _ _ _ _ c => !c.negSmall                                                      -- R287
  | .cpyt _ _ _ _ a => !a.negSmall                                                     -- R289
  | .spanfet _ _ _ b => !b.negSmall                                                    -- R319
  | .salloc _ _ _ _ b => !b.negSmall                                                   -- R323
  | .collSend _ _ _ _ c | .collGet _ _ _ _ c | .collMcast _ _ _ _ c => c.sMultipleOf 2 -- R334
  | .collRsend _ ty m _ _ _ c => c.sMultipleOf 2 && (ty == .f32 || ty == .bf16 || ((ty == .i32 || ty == .n32) && m == .rns))
  | .cinstQuery _ _ a => !a.negSmall                                                   -- R332
  | .launch _ _ _ b => !b.negSmall                                                     -- R370
  | .evopSet _ a _ | .evopClr _ a _ | .evopTest _ _ a _ =>
    (match a with | .small k => 16 ≤ k.toNat && k.toNat < 20 | _ => true)              -- R371
  | .sysw _ r _ => r.writable                                                          -- R3, R377
  | .sleep _ a => !a.negSmall                                                          -- R388
  | _ => true

end Sys2Proof
end

