-- ==== Sys2Proof/Decode.lean ====
section
/-! DEFINITION. Instruction words (R27 to R54, R57): the fields of a word, the decoder in the order of R57's checks, and the
encoder, both from the tables of spec/02_encoding.md and the Encoding line of each instruction. An event of a unit beside
the slices has no word. -/

namespace Sys2Proof

/-- The fields of an instruction word (R27). -/
structure Parts where
  opc : BitVec 7
  ty : BitVec 4
  mod : BitVec 4
  pg : BitVec 4
  d : BitVec 9
  a : BitVec 9
  b : BitVec 9
  c : BitVec 9
  sub : BitVec 9
  deriving DecidableEq, Repr

def Parts.ofWord (w : Word) : Parts :=
  { opc := w.extractLsb' 57 7, ty := w.extractLsb' 53 4, mod := w.extractLsb' 49 4, pg := w.extractLsb' 45 4
    d := w.extractLsb' 36 9, a := w.extractLsb' 27 9, b := w.extractLsb' 18 9, c := w.extractLsb' 9 9
    sub := w.extractLsb' 0 9 }

def Parts.toWord (p : Parts) : Word :=
  p.opc ++ p.ty ++ p.mod ++ p.pg ++ p.d ++ p.a ++ p.b ++ p.c ++ p.sub

/-- The word offset of BRA, BRP and CALL: fields A, B and C together (R44). -/
def Parts.off27 (p : Parts) : BitVec 27 := p.a ++ p.b ++ p.c

/-- LOOP's offset: fields B and C together (R44). -/
def Parts.off18 (p : Parts) : BitVec 18 := p.b ++ p.c

/-! ## Field values and their codes -/

def Ty.code : Ty → BitVec 4
  | .none => 0 | .i8 => 1 | .n8 => 2 | .i16 => 3 | .n16 => 4 | .i32 => 5 | .n32 => 6 | .i64 => 7 | .n64 => 8
  | .f32 => 9 | .f16 => 10 | .bf16 => 11 | .b32 => 12 | .b64 => 13

/-- The general type table (R40). -/
def Ty.ofCode (n : Nat) : Option Ty :=
  [Ty.none, .i8, .n8, .i16, .n16, .i32, .n32, .i64, .n64, .f32, .f16, .bf16, .b32, .b64][n]?

def NTy.code : NTy → BitVec 4
  | .none => 0 | .e5m2 => 1 | .e4m3 => 2 | .e3m2 => 3 | .e2m3 => 4 | .e2m1 => 5 | .i8 => 6 | .i4 => 7

/-- The narrow type table (R41). -/
def NTy.ofCode (n : Nat) : Option NTy :=
  [NTy.none, .e5m2, .e4m3, .e3m2, .e2m3, .e2m1, .i8, .i4][n]?

def Rnd.code : Rnd → Nat
  | .rne => 0 | .rtz => 1 | .rup => 2 | .rdn => 3
def Rnd.ofCode (n : Nat) : Option Rnd := [Rnd.rne, .rtz, .rup, .rdn][n]?

def Cnd.code : Cnd → Nat
  | .eq => 0 | .ne => 1 | .lt => 2 | .le => 3 | .gt => 4 | .ge => 5 | .ord => 6 | .uno => 7
def Cnd.ofCode (n : Nat) : Option Cnd := [Cnd.eq, .ne, .lt, .le, .gt, .ge, .ord, .uno][n]?

def Scope.code : Scope → Nat
  | .lvl k => k.toNat | .pkg => 8 | .fab => 9 | .sys => 10
def Scope.ofCode (n : Nat) : Option Scope :=
  if n < 8 then some (.lvl (BitVec.ofNat 3 n)) else [Scope.pkg, .fab, .sys][n - 8]?

def BrCond.code : BrCond → Nat
  | .per => 0 | .any => 1 | .all => 2
def BrCond.ofCode (n : Nat) : Option BrCond := [BrCond.per, .any, .all][n]?

def AtomOp.code : AtomOp → Nat
  | .add => 0 | .min => 1 | .max => 2 | .and => 3 | .or => 4 | .xor => 5 | .xchg => 6 | .cas => 7
def AtomOp.ofCode (n : Nat) : Option AtomOp := [AtomOp.add, .min, .max, .and, .or, .xor, .xchg, .cas][n]?

def RedOp.code : RedOp → Nat
  | .add => 0 | .min => 1 | .max => 2 | .and => 3 | .or => 4 | .xor => 5
def RedOp.ofCode (n : Nat) : Option RedOp := [RedOp.add, .min, .max, .and, .or, .xor][n]?

def AwN.code : AwN → Nat
  | .w1 => 0 | .w2 => 1 | .w3 => 2 | .w4 => 3
def AwN.ofCode (n : Nat) : Option AwN := [AwN.w1, .w2, .w3, .w4][n]?

def Wc.code : Wc → Nat
  | .w2 => 0 | .w3 => 1 | .w4 => 2
def Wc.ofCode (n : Nat) : Option Wc := [Wc.w2, .w3, .w4][n]?

def VoteOp.code : VoteOp → Nat
  | .any => 1 | .all => 2 | .ballot => 3 | .uni => 4
def VoteOp.ofCode (n : Nat) : Option VoteOp := if n = 0 then none else [VoteOp.any, .all, .ballot, .uni][n - 1]?

def AddOp.code : AddOp → Nat
  | .sum => 0 | .diff => 1 | .carry => 2 | .borrow => 3
def AddOp.ofCode (n : Nat) : Option AddOp := [AddOp.sum, .diff, .carry, .borrow][n]?

def MulOp.code : MulOp → Nat
  | .low => 0 | .hi => 1 | .wide => 2
def MulOp.ofCode (n : Nat) : Option MulOp := [MulOp.low, .hi, .wide][n]?

def MinMax.code : MinMax → Nat
  | .min => 1 | .max => 2
def MinMax.ofCode (n : Nat) : Option MinMax := if n = 0 then none else [MinMax.min, .max][n - 1]?

def ShiftOp.code : ShiftOp → Nat
  | .shl => 1 | .shr => 2 | .sar => 3 | .rol => 4 | .ror => 5 | .fshl => 6 | .fshr => 7
def ShiftOp.ofCode (n : Nat) : Option ShiftOp :=
  if n = 0 then none else [ShiftOp.shl, .shr, .sar, .rol, .ror, .fshl, .fshr][n - 1]?

def BitsOp.code : BitsOp → Nat
  | .popc => 1 | .clz => 2 | .ctz => 3 | .brev => 4 | .bswap => 5
def BitsOp.ofCode (n : Nat) : Option BitsOp :=
  if n = 0 then none else [BitsOp.popc, .clz, .ctz, .brev, .bswap][n - 1]?

def BfxOp.code : BfxOp → Nat
  | .ext => 1 | .ins => 2
def BfxOp.ofCode (n : Nat) : Option BfxOp := if n = 0 then none else [BfxOp.ext, .ins][n - 1]?

def LeaK.code : LeaK → Nat
  | .m1 => 0 | .m2 => 1 | .m4 => 2 | .m8 => 3 | .m16 => 4
def LeaK.ofCode (n : Nat) : Option LeaK := [LeaK.m1, .m2, .m4, .m8, .m16][n]?

def LaneOp.code : LaneOp → Nat
  | .shfl => 1 | .bcast => 2 | .up => 3 | .down => 4 | .xorl => 5
  | .redadd => 0x10 | .redmin => 0x11 | .redmax => 0x12 | .redand => 0x13 | .redor => 0x14 | .redxor => 0x15
  | .scanadd => 0x20 | .scanmin => 0x21 | .scanmax => 0x22 | .xscanadd => 0x28
def LaneOp.ofCode (n : Nat) : Option LaneOp :=
  if n = 0 then none
  else if n < 0x10 then [LaneOp.shfl, .bcast, .up, .down, .xorl][n - 1]?
  else if n < 0x20 then [LaneOp.redadd, .redmin, .redmax, .redand, .redor, .redxor][n - 0x10]?
  else if n < 0x28 then [LaneOp.scanadd, .scanmin, .scanmax][n - 0x20]?
  else [LaneOp.xscanadd][n - 0x28]?

def PredOp.code : PredOp → Nat
  | .pand => 1 | .por => 2 | .pxor => 3 | .pnot => 4 | .pmask => 5 | .pload => 6
def PredOp.ofCode (n : Nat) : Option PredOp :=
  if n = 0 then none else [PredOp.pand, .por, .pxor, .pnot, .pmask, .pload][n - 1]?

def FmaOp.code : FmaOp → Nat
  | .ma => 0 | .ms => 1 | .nma => 2 | .nms => 3
def FmaOp.ofCode (n : Nat) : Option FmaOp := [FmaOp.ma, .ms, .nma, .nms][n]?

def FMinMax.code : FMinMax → Nat
  | .min => 1 | .max => 2 | .minnum => 3 | .maxnum => 4
def FMinMax.ofCode (n : Nat) : Option FMinMax :=
  if n = 0 then none else [FMinMax.min, .max, .minnum, .maxnum][n - 1]?

def FapxFn.code : FapxFn → Nat
  | .rcp => 1 | .rsq => 2 | .sqrt => 3 | .exp2 => 4 | .log2 => 5 | .sin => 6 | .cos => 7 | .tanh => 8
def FapxFn.ofCode (n : Nat) : Option FapxFn :=
  if n = 0 then none else [FapxFn.rcp, .rsq, .sqrt, .exp2, .log2, .sin, .cos, .tanh][n - 1]?

def NzOp.code : NzOp → Nat
  | .nz3 => 3 | .nz4 => 4 | .nz6 => 6
def NzOp.ofCode (n : Nat) : Option NzOp :=
  if n = 3 then some .nz3 else if n = 4 then some .nz4 else if n = 6 then some .nz6 else none

def MemKind.code : MemKind → Nat
  | .plain => 0 | .sync => 1 | .nt => 2
def MemKind.ofCode (n : Nat) : Option MemKind := [MemKind.plain, .sync, .nt][n]?

def PrefKind.code : PrefKind → Nat
  | .inl1 => 1 | .inl2 => 2 | .int1 => 3
def PrefKind.ofCode (n : Nat) : Option PrefKind := if n = 0 then none else [PrefKind.inl1, .inl2, .int1][n - 1]?

def MaintKind.code : MaintKind → Nat
  | .clean => 1 | .inv => 2 | .clinv => 3
def MaintKind.ofCode (n : Nat) : Option MaintKind := if n = 0 then none else [MaintKind.clean, .inv, .clinv][n - 1]?

def FenceKind.code : FenceKind → Nat
  | .both => 0 | .acq => 1 | .rel => 2
def FenceKind.ofCode (n : Nat) : Option FenceKind := [FenceKind.both, .acq, .rel][n]?

def McmpOp.code : McmpOp → Nat
  | .vadd => 1 | .vmul => 2 | .vfma => 3 | .vcopy => 4 | .vfill => 5
def McmpOp.ofCode (n : Nat) : Option McmpOp :=
  if n = 0 then none else [McmpOp.vadd, .vmul, .vfma, .vcopy, .vfill][n - 1]?

def CollMode.code : CollMode → Nat
  | .rns => 1 | .fppair => 2
def CollMode.ofCode (n : Nat) : Option CollMode := if n = 0 then none else [CollMode.rns, .fppair][n - 1]?

def SysReg.code : SysReg → Nat
  | .archid => 0 | .qlen => 1 | .detctl => 2 | .tokctl => 3 | .trapvec => 0x10 | .trapcause => 0x11 | .trapaddr => 0x12
  | .trapregion => 0x13
/-- The system registers' SUB values (R53). -/
def SysReg.ofCode (n : Nat) : Option SysReg :=
  if n < 0x10 then [SysReg.archid, .qlen, .detctl, .tokctl][n]?
  else [SysReg.trapvec, .trapcause, .trapaddr, .trapregion][n - 0x10]?

def Guard.code (g : Guard) : BitVec 4 := BitVec.ofBool g.neg ++ g.p
def Guard.ofCode (b : BitVec 4) : Guard := { neg := b.msb, p := b.extractLsb' 0 3 }

/-- The specifier of an operand (R30). -/
def Opd.spec : Opd → BitVec 9
  | .v n => 0#1 ++ n
  | .s n => 0b100#3 ++ n
  | .p n => 0b101000#6 ++ n
  | .q n => 0b101001#6 ++ n
  | .acc n => BitVec.ofNat 9 (0x150 + n.toNat)
  | .fmt => 0x190
  | .flg => 0x191
  | .tl n => 0b110011#6 ++ n
  | .ident n => 0b11010#5 ++ n
  | .small k => 0b1110#4 ++ k
  | .ext _ => 0x1FE
  | .none => 0x1FF

/-- The operand a specifier names, an extension word's value in place; none where the specifier is unassigned (R30). -/
def Opd.ofSpec (n : BitVec 9) (ext : Word) : Option Opd :=
  let k := n.toNat
  if k < 0x100 then some (.v (n.extractLsb' 0 8))
  else if k < 0x140 then some (.s (n.extractLsb' 0 6))
  else if k < 0x148 then some (.p (n.extractLsb' 0 3))
  else if k < 0x150 then some (.q (n.extractLsb' 0 3))
  else if k < 0x190 then some (.acc (BitVec.ofNat 6 (k - 0x150)))
  else if k = 0x190 then some .fmt
  else if k = 0x191 then some .flg
  else if k < 0x198 then Option.none
  else if k < 0x1A0 then some (.tl (n.extractLsb' 0 3))
  else if k < 0x1AD then some (.ident (n.extractLsb' 0 4))
  else if k < 0x1C0 then Option.none
  else if k < 0x1E0 then some (.small (n.extractLsb' 0 5))
  else if k < 0x1FE then Option.none
  else if k = 0x1FE then some (.ext ext)
  else some .none

/-! ## The opcode map -/

/-- What the opcode map lists for an OPC (R44 to R53): its TY codes, its MOD codes and its SUB values. -/
structure Row where
  tys : List Nat
  mods : List Nat
  sub : Nat → Bool

namespace Row

def ints : List Nat := [1, 2, 3, 4, 5, 6, 7, 8]
def floats : List Nat := [9, 10, 11]
def bits : List Nat := [12, 13]
def data : List Nat := [1, 2, 3, 4, 5, 6, 7, 8, 9, 10, 11, 12, 13]
def narrow : List Nat := [1, 2, 3, 4, 5, 6, 7]
def residue : List Nat := [3, 4, 5, 6, 7]
def scp : List Nat := [0, 1, 2, 3, 4, 5, 6, 7, 8, 9, 10]
def zero (n : Nat) : Bool := n == 0
def upTo (k n : Nat) : Bool := n ≤ k
def oneTo (k n : Nat) : Bool := 1 ≤ n && n ≤ k
def src16 (n : Nat) : Bool := n == 9 || n == 10 || n == 11

/-- A word-count code (R48). -/
def cnt (n : Nat) : Bool := n % 4 != 3

end Row

open Row in
/-- The opcode map; an OPC it does not list is unassigned (R54). -/
def rowOf : Nat → Option Row
  | 0x00 => some ⟨[0], [0], zero⟩
  | 0x01 => some ⟨[0], [0], zero⟩
  | 0x02 => some ⟨[0], [0, 1, 2], zero⟩
  | 0x03 => some ⟨[0], [0], zero⟩
  | 0x04 => some ⟨[0], [0], zero⟩
  | 0x05 => some ⟨[0], [0], zero⟩
  | 0x06 => some ⟨[0], [0, 1, 2, 3], zero⟩
  | 0x07 => some ⟨[0], [0, 1, 2, 3], zero⟩
  | 0x08 => some ⟨[0], [0], zero⟩
  | 0x09 => some ⟨[0], [0], zero⟩
  | 0x0A => some ⟨[0], [0], zero⟩
  | 0x0B => some ⟨[0], [0], oneTo 4⟩
  | 0x10 => some ⟨ints, [0, 1], upTo 3⟩
  | 0x11 => some ⟨ints, [0, 1], upTo 2⟩
  | 0x12 => some ⟨ints, [0, 1], upTo 2⟩
  | 0x13 => some ⟨ints, [0], oneTo 2⟩
  | 0x14 => some ⟨bits, [0], upTo 0xFF⟩
  | 0x15 => some ⟨ints ++ bits, [0], oneTo 7⟩
  | 0x16 => some ⟨bits, [0], oneTo 5⟩
  | 0x17 => some ⟨ints, [0], oneTo 2⟩
  | 0x18 => some ⟨ints, [0, 1, 2, 3, 4, 5], zero⟩
  | 0x19 => some ⟨bits, [0], zero⟩
  | 0x1A => some ⟨0 :: bits, [0], zero⟩
  | 0x1B => some ⟨[8], [0], upTo 4⟩
  | 0x1C => some ⟨[6, 8], [0], oneTo 2⟩
  | 0x1D => some ⟨[6, 8, 5, 7, 9], [0], oneTo 2⟩
  | 0x1E => some ⟨ints ++ floats ++ [12], [0, 1], fun n => (LaneOp.ofCode n).isSome⟩
  | 0x1F => some ⟨[0], [0], oneTo 6⟩
  | 0x20 => some ⟨floats, [0, 1, 2, 3], upTo 1⟩
  | 0x21 => some ⟨floats, [0, 1, 2, 3], zero⟩
  | 0x22 => some ⟨floats, [0, 1, 2, 3], upTo 3⟩
  | 0x23 => some ⟨floats, [0], oneTo 4⟩
  | 0x24 => some ⟨floats, [0, 1, 2, 3, 4, 5, 6, 7], zero⟩
  | 0x25 => some ⟨floats, [0], zero⟩
  | 0x26 => some ⟨floats, [0], oneTo 8⟩
  | 0x27 => some ⟨floats ++ [5, 6, 7, 8], [0, 1, 2, 3], fun n => 5 ≤ n && n ≤ 11⟩
  | 0x28 => some ⟨floats, [0], zero⟩
  | 0x29 => some ⟨floats, [0], zero⟩
  | 0x2A => some ⟨floats, [0], zero⟩
  | 0x30 => some ⟨floats, [0], fun n => n < 64 && cnt n && cnt (n / 4) && cnt (n / 16)⟩
  | 0x31 => some ⟨floats, [0], fun n => n < 16 && cnt n && cnt (n / 4)⟩
  | 0x32 => some ⟨floats, [0], fun n => n < 16 && cnt n && cnt (n / 4)⟩
  | 0x33 => some ⟨floats, [0], fun n => n < 16 && cnt n && cnt (n / 4)⟩
  | 0x34 => some ⟨floats, [0], fun n => n < 16 && n % 4 == 0 && cnt (n / 4)⟩
  | 0x35 => some ⟨floats, [0, 1, 2, 3, 4, 5, 6, 7], fun n => n < 64 && n % 4 == 0 && cnt (n / 4) && cnt (n / 16)⟩
  | 0x36 => some ⟨floats, [0], fun n => 9 ≤ n / 16 && n / 16 ≤ 11 && cnt n && cnt (n / 4)⟩
  | 0x38 => some ⟨[0], [0], zero⟩
  | 0x39 => some ⟨[0], [0], zero⟩
  | 0x3A => some ⟨narrow, [0], src16⟩
  | 0x3B => some ⟨narrow, [0], src16⟩
  | 0x3C => some ⟨residue, [0], zero⟩
  | 0x3D => some ⟨[0], [0], fun n => n == 5 || n == 9⟩
  | 0x3E => some ⟨residue, [0], zero⟩
  | 0x3F => some ⟨narrow, [0], fun n => (NzOp.ofCode n).isSome⟩
  | 0x40 => some ⟨data, scp, upTo 2⟩
  | 0x41 => some ⟨data, scp, upTo 2⟩
  | 0x42 => some ⟨data, [0], zero⟩
  | 0x43 => some ⟨data, [0], zero⟩
  | 0x44 => some ⟨bits, scp, oneTo 2⟩
  | 0x45 => some ⟨bits, scp, oneTo 2⟩
  | 0x46 => some ⟨floats, scp, zero⟩
  | 0x47 => some ⟨floats, scp, zero⟩
  | 0x48 => some ⟨[0], [0], oneTo 3⟩
  | 0x49 => some ⟨[0], scp, oneTo 3⟩
  | 0x4A => some ⟨[0], [0], upTo 5⟩
  | 0x4B => some ⟨[0], [0], zero⟩
  | 0x50 => some ⟨[0], scp, upTo 2⟩
  | 0x51 => some ⟨[0], [0, 1, 2, 3, 4, 5, 6, 7], upTo 3⟩
  | 0x52 => some ⟨[0], [0], zero⟩
  | 0x53 => some ⟨[0], [0], zero⟩
  | 0x54 => some ⟨[0], [0], zero⟩
  | 0x55 => some ⟨[0], [0], zero⟩
  | 0x58 => some ⟨[5, 6, 7, 8, 9], [0, 1, 2, 3, 4, 5, 6, 7], upTo 10⟩
  | 0x59 => some ⟨[9], [0], upTo 10⟩
  | 0x5A => some ⟨bits, [0, 1, 2, 3], upTo 10⟩
  | 0x5B => some ⟨[6], [0], zero⟩
  | 0x5C => some ⟨[5, 6, 7, 8, 9], [0, 1, 2, 3, 4, 5], upTo 10⟩
  | 0x5D => some ⟨[13], [0, 1], zero⟩
  | 0x60 => some ⟨[0], [0], zero⟩
  | 0x61 => some ⟨[0], [0], upTo 1⟩
  | 0x62 => some ⟨[0], [0], zero⟩
  | 0x63 => some ⟨[0], [0], zero⟩
  | 0x64 => some ⟨[0], [0], oneTo 3⟩
  | 0x68 => some ⟨[0], [0], zero⟩
  | 0x69 => some ⟨[2, 4, 12, 13], [0], upTo 1⟩
  | 0x6A => some ⟨[0], [0], zero⟩
  | 0x6B => some ⟨[0], [0], zero⟩
  | 0x6C => some ⟨[0], [0], zero⟩
  | 0x6D => some ⟨[9, 11, 5], [0, 1, 2, 3], oneTo 5⟩
  | 0x70 => some ⟨[0], [0], oneTo 3⟩
  | 0x71 => some ⟨[0], [0], zero⟩
  | 0x72 => some ⟨[0], [0], zero⟩
  | 0x73 => some ⟨[0], [0], upTo 1⟩
  | 0x74 => some ⟨[0], [0], zero⟩
  | 0x75 => some ⟨[0, 9, 11, 5, 6], [0, 1, 2], oneTo 4⟩
  | 0x76 => some ⟨[0], [0], oneTo 2⟩
  | 0x78 => some ⟨[0], [0], zero⟩
  | 0x79 => some ⟨[0], [0], oneTo 3⟩
  | 0x7A => some ⟨[0], [0], fun n => (SysReg.ofCode n).isSome⟩
  | 0x7B => some ⟨[0], [0], fun n => (SysReg.ofCode n).isSome⟩
  | 0x7C => some ⟨[0], [0], upTo 0xFF⟩
  | 0x7D => some ⟨[0], [0], zero⟩
  | 0x7E => some ⟨[0], [0], zero⟩
  | _ => none

/-- The pairings of R42 and R52: ORD and UNO with float types only; COLL's RNS and FPPAIR with RSEND only, and no RSEND
without one of them. ICMP's row lists neither ORD nor UNO, and XCMP's and FCMP's types are all float types. -/
def pairingOk (p : Parts) : Bool :=
  if p.opc = 0x75 then (p.sub == 3) == (p.mod != 0) else true

/-- The control instructions, OPC 0x00 to 0x0F. -/
def Parts.buildControl (p : Parts) (o : BitVec 9 → Option Opd) : Option Instr := do
  let g := Guard.ofCode p.pg
  let m := p.mod.toNat
  let u := p.sub.toNat
  match p.opc.toNat with
  | 0x00 => some (.nop g)
  | 0x01 => some (.bra g p.off27)
  | 0x02 => do
    match ← o p.d with
    | .p n => some (.brp g (← BrCond.ofCode m) n p.off27)
    | _ => none
  | 0x03 => some (.brx g (← o p.a))
  | 0x04 => some (.call g (← o p.d) p.off27)
  | 0x05 => some (.ret g (← o p.a))
  | 0x06 => some (.loop g (p.mod.extractLsb' 0 2) (← o p.a) p.off18)
  | 0x07 => some (.lbrk g (p.mod.extractLsb' 0 2))
  | 0x08 => some (.regang g)
  | 0x09 => some (.yield g)
  | 0x0A => some (.exit g)
  | 0x0B => some (.vote g (← VoteOp.ofCode u) (← o p.d) (← o p.a))
  | _ => none

/-- The integer instructions, OPC 0x10 to 0x1F. -/
def Parts.buildInteger (p : Parts) (o : BitVec 9 → Option Opd) : Option Instr := do
  let g := Guard.ofCode p.pg
  let ty ← Ty.ofCode p.ty.toNat
  let m := p.mod.toNat
  let u := p.sub.toNat
  match p.opc.toNat with
  | 0x10 => some (.iadd g ty (m == 1) (← AddOp.ofCode u) (← o p.d) (← o p.a) (← o p.b) (← o p.c))
  | 0x11 => some (.imul g ty (m == 1) (← MulOp.ofCode u) (← o p.d) (← o p.a) (← o p.b))
  | 0x12 => some (.imad g ty (m == 1) (← MulOp.ofCode u) (← o p.d) (← o p.a) (← o p.b) (← o p.c))
  | 0x13 => some (.iminmax g ty (← MinMax.ofCode u) (← o p.d) (← o p.a) (← o p.b))
  | 0x14 => some (.logic g ty (p.sub.extractLsb' 0 8) (← o p.d) (← o p.a) (← o p.b) (← o p.c))
  | 0x15 => some (.shift g ty (← ShiftOp.ofCode u) (← o p.d) (← o p.a) (← o p.b) (← o p.c))
  | 0x16 => some (.bits g ty (← BitsOp.ofCode u) (← o p.d) (← o p.a))
  | 0x17 => some (.bfx g ty (← BfxOp.ofCode u) (← o p.d) (← o p.a) (← o p.b) (← o p.c))
  | 0x18 => some (.icmp g ty (← Cnd.ofCode m) (← o p.d) (← o p.a) (← o p.b))
  | 0x19 => some (.sel g ty (← o p.d) (← o p.a) (← o p.b) (← o p.c))
  | 0x1A => some (.mov g ty (← o p.d) (← o p.a))
  | 0x1B => some (.lea g (← LeaK.ofCode u) (← o p.d) (← o p.a) (← o p.b) (← o p.c))
  | 0x1C =>
    if u = 1 then do some (.hashCrc32c g ty (← o p.d) (← o p.a) (← o p.b))
    else do some (.hashMix64 g ty (← o p.d) (← o p.a) (← o p.b))
  | 0x1D =>
    if u = 1 then do some (.partRadix g ty (← o p.d) (← o p.a) (← o p.c))
    else do some (.partRange g ty (← o p.d) (← o p.a) (← o p.b) (← o p.c))
  | 0x1E => some (.lane g ty (m == 1) (← LaneOp.ofCode u) (← o p.d) (← o p.a) (← o p.b))
  | 0x1F => some (.pred g (← PredOp.ofCode u) (← o p.d) (← o p.a) (← o p.b))
  | _ => none

/-- The float instructions, OPC 0x20 to 0x2F. -/
def Parts.buildFloat (p : Parts) (o : BitVec 9 → Option Opd) : Option Instr := do
  let g := Guard.ofCode p.pg
  let ty ← Ty.ofCode p.ty.toNat
  let m := p.mod.toNat
  let u := p.sub.toNat
  match p.opc.toNat with
  | 0x20 => some (.fadd g ty (← Rnd.ofCode m) (u == 1) (← o p.d) (← o p.a) (← o p.b))
  | 0x21 => some (.fmul g ty (← Rnd.ofCode m) (← o p.d) (← o p.a) (← o p.b))
  | 0x22 => some (.ffma g ty (← Rnd.ofCode m) (← FmaOp.ofCode u) (← o p.d) (← o p.a) (← o p.b) (← o p.c))
  | 0x23 => some (.fminmax g ty (← FMinMax.ofCode u) (← o p.d) (← o p.a) (← o p.b))
  | 0x24 => some (.fcmp g ty (← Cnd.ofCode m) (← o p.d) (← o p.a) (← o p.b))
  | 0x25 => some (.fclass g ty (← o p.d) (← o p.a))
  | 0x26 => some (.fapx g ty (← FapxFn.ofCode u) (← o p.d) (← o p.a))
  | 0x27 => some (.fcvt g ty (← Rnd.ofCode m) (← Ty.ofCode u) (← o p.d) (← o p.a))
  | 0x28 => some (.fadd2 g ty (← o p.d) (← o p.a) (← o p.b))
  | 0x29 => some (.fmul2 g ty (← o p.d) (← o p.a) (← o p.b))
  | 0x2A => some (.ffma3 g ty (← o p.d) (← o p.a) (← o p.b) (← o p.c))
  | _ => none

/-- The expansion and narrow instructions, OPC 0x30 to 0x3F. -/
def Parts.buildNarrow (p : Parts) (o : BitVec 9 → Option Opd) : Option Instr := do
  let g := Guard.ofCode p.pg
  let ty ← Ty.ofCode p.ty.toNat
  let m := p.mod.toNat
  let u := p.sub.toNat
  match p.opc.toNat with
  | 0x30 => some (.xadd g ty (← Wc.ofCode (u % 4)) (← Wc.ofCode (u / 4 % 4)) (← Wc.ofCode (u / 16 % 4))
      (← o p.d) (← o p.a) (← o p.b))
  | 0x31 => some (.xadds g ty (← Wc.ofCode (u % 4)) (← Wc.ofCode (u / 4 % 4)) (← o p.d) (← o p.a) (← o p.b))
  | 0x32 => some (.xmuls g ty (← Wc.ofCode (u % 4)) (← Wc.ofCode (u / 4 % 4)) (← o p.d) (← o p.a) (← o p.b))
  | 0x33 => some (.xrenorm g ty (← Wc.ofCode (u % 4)) (← Wc.ofCode (u / 4 % 4)) (← o p.d) (← o p.a))
  | 0x34 => some (.xcomp g ty (← Wc.ofCode (u / 4 % 4)) (← o p.d) (← o p.a))
  | 0x35 => some (.xcmp g ty (← Cnd.ofCode m) (← Wc.ofCode (u / 4 % 4)) (← Wc.ofCode (u / 16 % 4))
      (← o p.d) (← o p.a) (← o p.b))
  | 0x36 => some (.xcvt g ty (← Wc.ofCode (u % 4)) (← Wc.ofCode (u / 4 % 4)) (← Ty.ofCode (u / 16))
      (← o p.d) (← o p.a))
  | 0x38 => some (.setfmt g (← o p.a))
  | 0x39 => some (.getfmt g (← o p.d))
  | 0x3A => some (.qcvt g (← NTy.ofCode p.ty.toNat) (← Ty.ofCode u) (← o p.d) (← o p.a))
  | 0x3B => some (.qdec g (← NTy.ofCode p.ty.toNat) (← Ty.ofCode u) (← o p.d) (← o p.a))
  | 0x3C => some (.renc g (← NTy.ofCode p.ty.toNat) (← o p.d) (← o p.a) (← o p.b))
  | 0x3D => some (.rdec g (← Ty.ofCode u) (← o p.d) (← o p.a) (← o p.b))
  | 0x3E => some (.rmac g (← NTy.ofCode p.ty.toNat) (← o p.d) (← o p.a) (← o p.b) (← o p.c))
  | 0x3F => some (.spack g (← NTy.ofCode p.ty.toNat) (← NzOp.ofCode u) (← o p.d) (← o p.a))
  | _ => none

/-- The memory instructions, OPC 0x40 to 0x4F. -/
def Parts.buildMemory (p : Parts) (o : BitVec 9 → Option Opd) : Option Instr := do
  let g := Guard.ofCode p.pg
  let ty ← Ty.ofCode p.ty.toNat
  let m := p.mod.toNat
  let u := p.sub.toNat
  match p.opc.toNat with
  | 0x40 => some (.ld g ty (← Scope.ofCode m) (← MemKind.ofCode u) (← o p.d) (← o p.a) (← o p.b) (← o p.c))
  | 0x41 => some (.st g ty (← Scope.ofCode m) (← MemKind.ofCode u) (← o p.a) (← o p.b) (← o p.c))
  | 0x42 => some (.lds g ty (← o p.d) (← o p.a) (← o p.b))
  | 0x43 => some (.sts g ty (← o p.a) (← o p.b) (← o p.c))
  | 0x44 => some (.ldw g ty (← Scope.ofCode m) (u == 2) (← o p.d) (← o p.a) (← o p.b) (← o p.c))
  | 0x45 => some (.stw g ty (← Scope.ofCode m) (u == 2) (← o p.a) (← o p.b) (← o p.c))
  | 0x46 => some (.stsplit g ty (← Scope.ofCode m) (← o p.a) (← o p.b) (← o p.c))
  | 0x47 => some (.ldsplit g ty (← Scope.ofCode m) (← o p.d) (← o p.a) (← o p.b))
  | 0x48 => some (.pref g (← PrefKind.ofCode u) (← o p.a) (← o p.b))
  | 0x49 => some (.cmaint g (← Scope.ofCode m) (← MaintKind.ofCode u) (← o p.a) (← o p.b))
  | 0x4A => if h : u < 6 then do some (.waitp g ⟨u, h⟩ (← o p.a)) else none
  | 0x4B => some (.xlat g (← o p.d) (← o p.a))
  | _ => none

/-- The synchronisation and atomic instructions, OPC 0x50 to 0x5F. -/
def Parts.buildSync (p : Parts) (o : BitVec 9 → Option Opd) : Option Instr := do
  let g := Guard.ofCode p.pg
  let ty ← Ty.ofCode p.ty.toNat
  let m := p.mod.toNat
  let u := p.sub.toNat
  match p.opc.toNat with
  | 0x50 => some (.fence g (← Scope.ofCode m) (← FenceKind.ofCode u))
  | 0x51 =>
    let lv := p.mod.extractLsb' 0 3
    if u = 0 then some (.bar g lv) else if u = 1 then some (.barArrive g lv)
    else if u = 2 then some (.barWait g lv) else some (.barArrivedrop g lv)
  | 0x52 => do
    match ← o p.a with
    | .tl t => some (.tlwait g t (← o p.b))
    | _ => none
  | 0x53 => do
    match ← o p.a with
    | .tl t => some (.tlread g t (← o p.d) (← o p.b))
    | _ => none
  | 0x54 => some (.qend g)
  | 0x55 => some (.dsync g)
  | 0x58 => some (.atom g ty (← AtomOp.ofCode m) (← Scope.ofCode u) (← o p.d) (← o p.a) (← o p.b) (← o p.c))
  | 0x59 => some (.atomc g (← Scope.ofCode u) (← o p.d) (← o p.a) (← o p.b))
  | 0x5A => some (.atomw g ty (← AwN.ofCode m) (← Scope.ofCode u) (← o p.d) (← o p.a) (← o p.b) (← o p.c))
  | 0x5B => some (.append g (← o p.d) (← o p.a) (← o p.b))
  | 0x5C => some (.redm g ty (← RedOp.ofCode m) (← Scope.ofCode u) (← o p.a) (← o p.b))
  | 0x5D =>
    if m = 0 then do some (.skopEnq g (← o p.d) (← o p.a) (← o p.b))
    else do some (.skopChase g (← o p.d) (← o p.a) (← o p.b) (← o p.c))
  | _ => none

/-- The matrix and asynchronous instructions, OPC 0x60 to 0x6F. -/
def Parts.buildMatrix (p : Parts) (o : BitVec 9 → Option Opd) : Option Instr := do
  let g := Guard.ofCode p.pg
  let ty ← Ty.ofCode p.ty.toNat
  let m := p.mod.toNat
  let u := p.sub.toNat
  match p.opc.toNat with
  | 0x60 => some (.mzero g (← o p.d))
  | 0x61 => some (.memit g (u == 1) (← o p.d) (← o p.a) (← o p.b) (← o p.c))
  | 0x62 => some (.msave g (← o p.a) (← o p.b))
  | 0x63 => some (.mload g (← o p.d) (← o p.a))
  | 0x64 =>
    if u = 1 then do some (.mbobjInit g (← o p.a) (← o p.b) (← o p.c))
    else if u = 2 then do some (.mbobjArrive g (← o p.a) (← o p.b))
    else do some (.mbobjWait g (← o p.a) (← o p.b))
  | 0x68 => some (.cpy g (← o p.d) (← o p.a) (← o p.b) (← o p.c))
  | 0x69 => some (.cpyt g ty (u == 1) (← o p.d) (← o p.a))
  | 0x6A => some (.cbook g (← o p.d) (← o p.a))
  | 0x6B => do
    match ← o p.d with
    | .q n => if n = 0 then do some (.qpostTask g (← o p.a)) else none
    | d => some (.qpost g d (← o p.a) (← o p.b))
  | 0x6C => some (.mred g (← o p.a))
  | 0x6D => some (.mcmp g ty (← Rnd.ofCode m) (← McmpOp.ofCode u) (← o p.a))
  | _ => none

/-- The span, collective, launch and system instructions, OPC 0x70 to 0x7F. -/
def Parts.buildSystem (p : Parts) (o : BitVec 9 → Option Opd) : Option Instr := do
  let g := Guard.ofCode p.pg
  let ty ← Ty.ofCode p.ty.toNat
  let m := p.mod.toNat
  let u := p.sub.toNat
  match p.opc.toNat with
  | 0x70 =>
    if u = 1 then do some (.spanctlCap g (← o p.a) (← o p.b))
    else if u = 2 then do some (.spanctlPol g (← o p.a) (← o p.b))
    else do some (.spanctlEvict g (← o p.a))
  | 0x71 => some (.spanq g (← o p.d) (← o p.a))
  | 0x72 => some (.spanfet g (← o p.d) (← o p.a) (← o p.b))
  | 0x73 => some (.salloc g (u == 1) (← o p.d) (← o p.a) (← o p.b))
  | 0x74 => some (.sfree g (← o p.d) (← o p.a))
  | 0x75 =>
    if u = 1 then do some (.collSend g (← o p.d) (← o p.a) (← o p.b) (← o p.c))
    else if u = 2 then do some (.collGet g (← o p.d) (← o p.a) (← o p.b) (← o p.c))
    else if u = 3 then do
      some (.collRsend g ty (← CollMode.ofCode m) (← o p.d) (← o p.a) (← o p.b) (← o p.c))
    else do some (.collMcast g (← o p.d) (← o p.a) (← o p.b) (← o p.c))
  | 0x76 =>
    if u = 1 then do some (.cinstStart g (← o p.d) (← o p.a)) else do some (.cinstQuery g (← o p.d) (← o p.a))
  | 0x78 => some (.launch g (← o p.d) (← o p.a) (← o p.b))
  | 0x79 =>
    if u = 1 then do some (.evopSet g (← o p.a) (← o p.b))
    else if u = 2 then do some (.evopClr g (← o p.a) (← o p.b))
    else do some (.evopTest g (← o p.d) (← o p.a) (← o p.b))
  | 0x7A => some (.sysr g (← SysReg.ofCode u) (← o p.d))
  | 0x7B => some (.sysw g (← SysReg.ofCode u) (← o p.a))
  | 0x7C => some (.trap g (p.sub.extractLsb' 0 8))
  | 0x7D => some (.eret g)
  | 0x7E => some (.sleep g (← o p.a))
  | _ => none

/-- Build the instruction from fields that the map lists; `o` reads a specifier. -/
def Parts.build (p : Parts) (o : BitVec 9 → Option Opd) : Option Instr :=
  match p.opc.toNat / 16 with
  | 0 => p.buildControl o
  | 1 => p.buildInteger o
  | 2 => p.buildFloat o
  | 3 => p.buildNarrow o
  | 4 => p.buildMemory o
  | 5 => p.buildSync o
  | 6 => p.buildMatrix o
  | 7 => p.buildSystem o
  | _ => none

/-! ## The encoder -/

/-- Nine bits of a field value. -/
def f9 (n : Nat) : BitVec 9 := BitVec.ofNat 9 n
def f4 (n : Nat) : BitVec 4 := BitVec.ofNat 4 n

/-- The fields of a word with every register field unused (R28). -/
def Parts.bare (opc : BitVec 7) (ty mod : BitVec 4) (sub : BitVec 9) (g : Guard) : Parts :=
  { opc, ty, mod, pg := g.code, d := 0x1FF, a := 0x1FF, b := 0x1FF, c := 0x1FF, sub }

def Parts.setD (p : Parts) (o : Opd) : Parts := { p with d := o.spec }
def Parts.setA (p : Parts) (o : Opd) : Parts := { p with a := o.spec }
def Parts.setB (p : Parts) (o : Opd) : Parts := { p with b := o.spec }
def Parts.setC (p : Parts) (o : Opd) : Parts := { p with c := o.spec }
def Parts.setOff (p : Parts) (off : BitVec 27) : Parts :=
  { p with a := off.extractLsb' 18 9, b := off.extractLsb' 9 9, c := off.extractLsb' 0 9 }

def bit1 (b : Bool) : Nat := if b then 1 else 0

/-- The fields of an instruction's word; an event has none. -/
def Instr.parts : Instr → Option Parts
  | .nop g => some (.bare 0x00 0 0 0 g)
  | .bra g off => some ((Parts.bare 0x01 0 0 0 g).setOff off)
  | .brp g c p off => some (((Parts.bare 0x02 0 (f4 c.code) 0 g).setD (.p p)).setOff off)
  | .brx g a => some ((Parts.bare 0x03 0 0 0 g).setA a)
  | .call g d off => some (((Parts.bare 0x04 0 0 0 g).setD d).setOff off)
  | .ret g a => some ((Parts.bare 0x05 0 0 0 g).setA a)
  | .loop g l a off =>
    let p := (Parts.bare 0x06 0 (0#2 ++ l) 0 g).setA a
    some { p with b := off.extractLsb' 9 9, c := off.extractLsb' 0 9 }
  | .lbrk g l => some (.bare 0x07 0 (0#2 ++ l) 0 g)
  | .regang g => some (.bare 0x08 0 0 0 g)
  | .yield g => some (.bare 0x09 0 0 0 g)
  | .exit g => some (.bare 0x0A 0 0 0 g)
  | .vote g op d a => some (((Parts.bare 0x0B 0 0 (f9 op.code) g).setD d).setA a)
  | .iadd g ty sat op d a b c =>
    some (((((Parts.bare 0x10 ty.code (f4 (bit1 sat)) (f9 op.code) g).setD d).setA a).setB b).setC c)
  | .imul g ty sat op d a b =>
    some ((((Parts.bare 0x11 ty.code (f4 (bit1 sat)) (f9 op.code) g).setD d).setA a).setB b)
  | .imad g ty sat op d a b c =>
    some (((((Parts.bare 0x12 ty.code (f4 (bit1 sat)) (f9 op.code) g).setD d).setA a).setB b).setC c)
  | .iminmax g ty op d a b => some ((((Parts.bare 0x13 ty.code 0 (f9 op.code) g).setD d).setA a).setB b)
  | .logic g ty tt d a b c => some (((((Parts.bare 0x14 ty.code 0 (0#1 ++ tt) g).setD d).setA a).setB b).setC c)
  | .shift g ty op d a b c => some (((((Parts.bare 0x15 ty.code 0 (f9 op.code) g).setD d).setA a).setB b).setC c)
  | .bits g ty op d a => some (((Parts.bare 0x16 ty.code 0 (f9 op.code) g).setD d).setA a)
  | .bfx g ty op d a b c => some (((((Parts.bare 0x17 ty.code 0 (f9 op.code) g).setD d).setA a).setB b).setC c)
  | .icmp g ty c d a b => some ((((Parts.bare 0x18 ty.code (f4 c.code) 0 g).setD d).setA a).setB b)
  | .sel g ty d a b c => some (((((Parts.bare 0x19 ty.code 0 0 g).setD d).setA a).setB b).setC c)
  | .mov g ty d a => some (((Parts.bare 0x1A ty.code 0 0 g).setD d).setA a)
  | .lea g k d a b c => some (((((Parts.bare 0x1B 8 0 (f9 k.code) g).setD d).setA a).setB b).setC c)
  | .hashCrc32c g ty d a b => some ((((Parts.bare 0x1C ty.code 0 1 g).setD d).setA a).setB b)
  | .hashMix64 g ty d a b => some ((((Parts.bare 0x1C ty.code 0 2 g).setD d).setA a).setB b)
  | .partRadix g ty d a c => some ((((Parts.bare 0x1D ty.code 0 1 g).setD d).setA a).setC c)
  | .partRange g ty d a b c => some (((((Parts.bare 0x1D ty.code 0 2 g).setD d).setA a).setB b).setC c)
  | .lane g ty gang op d a b =>
    some ((((Parts.bare 0x1E ty.code (f4 (bit1 gang)) (f9 op.code) g).setD d).setA a).setB b)
  | .pred g op d a b => some ((((Parts.bare 0x1F 0 0 (f9 op.code) g).setD d).setA a).setB b)
  | .fadd g ty r diff d a b =>
    some ((((Parts.bare 0x20 ty.code (f4 r.code) (f9 (bit1 diff)) g).setD d).setA a).setB b)
  | .fmul g ty r d a b => some ((((Parts.bare 0x21 ty.code (f4 r.code) 0 g).setD d).setA a).setB b)
  | .ffma g ty r op d a b c =>
    some (((((Parts.bare 0x22 ty.code (f4 r.code) (f9 op.code) g).setD d).setA a).setB b).setC c)
  | .fminmax g ty op d a b => some ((((Parts.bare 0x23 ty.code 0 (f9 op.code) g).setD d).setA a).setB b)
  | .fcmp g ty c d a b => some ((((Parts.bare 0x24 ty.code (f4 c.code) 0 g).setD d).setA a).setB b)
  | .fclass g ty d a => some (((Parts.bare 0x25 ty.code 0 0 g).setD d).setA a)
  | .fapx g ty fn d a => some (((Parts.bare 0x26 ty.code 0 (f9 fn.code) g).setD d).setA a)
  | .fcvt g ty r src d a => some (((Parts.bare 0x27 ty.code (f4 r.code) (0#5 ++ src.code) g).setD d).setA a)
  | .fadd2 g ty d a b => some ((((Parts.bare 0x28 ty.code 0 0 g).setD d).setA a).setB b)
  | .fmul2 g ty d a b => some ((((Parts.bare 0x29 ty.code 0 0 g).setD d).setA a).setB b)
  | .ffma3 g ty d a b c => some (((((Parts.bare 0x2A ty.code 0 0 g).setD d).setA a).setB b).setC c)
  | .xadd g ty wd wa wb d a b =>
    some ((((Parts.bare 0x30 ty.code 0 (f9 (wd.code + 4 * wa.code + 16 * wb.code)) g).setD d).setA a).setB b)
  | .xadds g ty wd wa d a b =>
    some ((((Parts.bare 0x31 ty.code 0 (f9 (wd.code + 4 * wa.code)) g).setD d).setA a).setB b)
  | .xmuls g ty wd wa d a b =>
    some ((((Parts.bare 0x32 ty.code 0 (f9 (wd.code + 4 * wa.code)) g).setD d).setA a).setB b)
  | .xrenorm g ty wd wa d a => some (((Parts.bare 0x33 ty.code 0 (f9 (wd.code + 4 * wa.code)) g).setD d).setA a)
  | .xcomp g ty wa d a => some (((Parts.bare 0x34 ty.code 0 (f9 (4 * wa.code)) g).setD d).setA a)
  | .xcmp g ty c wa wb d a b =>
    some ((((Parts.bare 0x35 ty.code (f4 c.code) (f9 (4 * wa.code + 16 * wb.code)) g).setD d).setA a).setB b)
  | .xcvt g ty wd wa src d a =>
    some (((Parts.bare 0x36 ty.code 0 (f9 (wd.code + 4 * wa.code + 16 * src.code.toNat)) g).setD d).setA a)
  | .setfmt g a => some (((Parts.bare 0x38 0 0 0 g).setD .fmt).setA a)
  | .getfmt g d => some (((Parts.bare 0x39 0 0 0 g).setD d).setA .fmt)
  | .qcvt g ty src d a => some (((Parts.bare 0x3A ty.code 0 (0#5 ++ src.code) g).setD d).setA a)
  | .qdec g ty dst d a => some (((Parts.bare 0x3B ty.code 0 (0#5 ++ dst.code) g).setD d).setA a)
  | .renc g ty d a b => some ((((Parts.bare 0x3C ty.code 0 0 g).setD d).setA a).setB b)
  | .rmac g ty d a b c => some (((((Parts.bare 0x3E ty.code 0 0 g).setD d).setA a).setB b).setC c)
  | .rdec g dst d a b => some ((((Parts.bare 0x3D 0 0 (0#5 ++ dst.code) g).setD d).setA a).setB b)
  | .spack g ty n d a => some (((Parts.bare 0x3F ty.code 0 (f9 n.code) g).setD d).setA a)
  | .ld g ty sc k d a b c =>
    some (((((Parts.bare 0x40 ty.code (f4 sc.code) (f9 k.code) g).setD d).setA a).setB b).setC c)
  | .st g ty sc k a b c => some ((((Parts.bare 0x41 ty.code (f4 sc.code) (f9 k.code) g).setA a).setB b).setC c)
  | .lds g ty d a b => some ((((Parts.bare 0x42 ty.code 0 0 g).setD d).setA a).setB b)
  | .sts g ty a b c => some ((((Parts.bare 0x43 ty.code 0 0 g).setA a).setB b).setC c)
  | .ldw g ty sc g4 d a b c =>
    some (((((Parts.bare 0x44 ty.code (f4 sc.code) (f9 (1 + bit1 g4)) g).setD d).setA a).setB b).setC c)
  | .stw g ty sc g4 a b c =>
    some ((((Parts.bare 0x45 ty.code (f4 sc.code) (f9 (1 + bit1 g4)) g).setA a).setB b).setC c)
  | .stsplit g ty sc a b c => some ((((Parts.bare 0x46 ty.code (f4 sc.code) 0 g).setA a).setB b).setC c)
  | .ldsplit g ty sc d a b => some ((((Parts.bare 0x47 ty.code (f4 sc.code) 0 g).setD d).setA a).setB b)
  | .pref g k a b => some (((Parts.bare 0x48 0 0 (f9 k.code) g).setA a).setB b)
  | .cmaint g sc k a b => some (((Parts.bare 0x49 0 (f4 sc.code) (f9 k.code) g).setA a).setB b)
  | .waitp g path a => some ((Parts.bare 0x4A 0 0 (f9 path.val) g).setA a)
  | .xlat g d a => some (((Parts.bare 0x4B 0 0 0 g).setD d).setA a)
  | .fence g sc k => some (.bare 0x50 0 (f4 sc.code) (f9 k.code) g)
  | .bar g lv => some (.bare 0x51 0 (0#1 ++ lv) 0 g)
  | .barArrive g lv => some (.bare 0x51 0 (0#1 ++ lv) 1 g)
  | .barWait g lv => some (.bare 0x51 0 (0#1 ++ lv) 2 g)
  | .barArrivedrop g lv => some (.bare 0x51 0 (0#1 ++ lv) 3 g)
  | .tlwait g t b => some (((Parts.bare 0x52 0 0 0 g).setA (.tl t)).setB b)
  | .tlread g t d b => some ((((Parts.bare 0x53 0 0 0 g).setD d).setA (.tl t)).setB b)
  | .qend g => some (.bare 0x54 0 0 0 g)
  | .dsync g => some (.bare 0x55 0 0 0 g)
  | .atom g ty op sc d a b c =>
    some (((((Parts.bare 0x58 ty.code (f4 op.code) (f9 sc.code) g).setD d).setA a).setB b).setC c)
  | .redm g ty op sc a b => some (((Parts.bare 0x5C ty.code (f4 op.code) (f9 sc.code) g).setA a).setB b)
  | .atomc g sc d a b => some ((((Parts.bare 0x59 9 0 (f9 sc.code) g).setD d).setA a).setB b)
  | .atomw g ty n sc d a b c =>
    some (((((Parts.bare 0x5A ty.code (f4 n.code) (f9 sc.code) g).setD d).setA a).setB b).setC c)
  | .append g d a b => some ((((Parts.bare 0x5B 6 0 0 g).setD d).setA a).setB b)
  | .skopEnq g d a b => some ((((Parts.bare 0x5D 13 0 0 g).setD d).setA a).setB b)
  | .skopChase g d a b c => some (((((Parts.bare 0x5D 13 1 0 g).setD d).setA a).setB b).setC c)
  | .mzero g d => some ((Parts.bare 0x60 0 0 0 g).setD d)
  | .memit g main d a b c => some (((((Parts.bare 0x61 0 0 (f9 (bit1 main)) g).setD d).setA a).setB b).setC c)
  | .msave g a b => some (((Parts.bare 0x62 0 0 0 g).setA a).setB b)
  | .mload g d a => some (((Parts.bare 0x63 0 0 0 g).setD d).setA a)
  | .mbobjInit g a b c => some ((((Parts.bare 0x64 0 0 1 g).setA a).setB b).setC c)
  | .mbobjArrive g a b => some (((Parts.bare 0x64 0 0 2 g).setA a).setB b)
  | .mbobjWait g a b => some (((Parts.bare 0x64 0 0 3 g).setA a).setB b)
  | .qpostTask g a => some (((Parts.bare 0x6B 0 0 0 g).setD (.q 0)).setA a)
  | .cpy g d a b c => some (((((Parts.bare 0x68 0 0 0 g).setD d).setA a).setB b).setC c)
  | .cpyt g ty cb d a => some (((Parts.bare 0x69 ty.code 0 (f9 (bit1 cb)) g).setD d).setA a)
  | .cbook g d a => some (((Parts.bare 0x6A 0 0 0 g).setD d).setA a)
  | .qpost g d a b => some ((((Parts.bare 0x6B 0 0 0 g).setD d).setA a).setB b)
  | .mred g a => some ((Parts.bare 0x6C 0 0 0 g).setA a)
  | .mcmp g ty r op a => some ((Parts.bare 0x6D ty.code (f4 r.code) (f9 op.code) g).setA a)
  | .spanctlCap g a b => some (((Parts.bare 0x70 0 0 1 g).setA a).setB b)
  | .spanctlPol g a b => some (((Parts.bare 0x70 0 0 2 g).setA a).setB b)
  | .spanctlEvict g a => some ((Parts.bare 0x70 0 0 3 g).setA a)
  | .spanq g d a => some (((Parts.bare 0x71 0 0 0 g).setD d).setA a)
  | .spanfet g d a b => some ((((Parts.bare 0x72 0 0 0 g).setD d).setA a).setB b)
  | .salloc g dup d a b => some ((((Parts.bare 0x73 0 0 (f9 (bit1 dup)) g).setD d).setA a).setB b)
  | .sfree g d a => some (((Parts.bare 0x74 0 0 0 g).setD d).setA a)
  | .collSend g d a b c => some (((((Parts.bare 0x75 0 0 1 g).setD d).setA a).setB b).setC c)
  | .collGet g d a b c => some (((((Parts.bare 0x75 0 0 2 g).setD d).setA a).setB b).setC c)
  | .collRsend g ty m d a b c =>
    some (((((Parts.bare 0x75 ty.code (f4 m.code) 3 g).setD d).setA a).setB b).setC c)
  | .collMcast g d a b c => some (((((Parts.bare 0x75 0 0 4 g).setD d).setA a).setB b).setC c)
  | .cinstStart g d a => some (((Parts.bare 0x76 0 0 1 g).setD d).setA a)
  | .cinstQuery g d a => some (((Parts.bare 0x76 0 0 2 g).setD d).setA a)
  | .launch g d a b => some ((((Parts.bare 0x78 0 0 0 g).setD d).setA a).setB b)
  | .evopSet g a b => some (((Parts.bare 0x79 0 0 1 g).setA a).setB b)
  | .evopClr g a b => some (((Parts.bare 0x79 0 0 2 g).setA a).setB b)
  | .evopTest g d a b => some ((((Parts.bare 0x79 0 0 3 g).setD d).setA a).setB b)
  | .sysr g r d => some ((Parts.bare 0x7A 0 0 (f9 r.code) g).setD d)
  | .sysw g r a => some ((Parts.bare 0x7B 0 0 (f9 r.code) g).setA a)
  | .trap g n => some (.bare 0x7C 0 0 (0#1 ++ n) g)
  | .eret g => some (.bare 0x7D 0 0 0 g)
  | .sleep g a => some ((Parts.bare 0x7E 0 0 0 g).setA a)
  | _ => none

/-- The guard of an instruction; an event has none. -/
def Instr.guard (i : Instr) : Guard :=
  match i.parts with
  | some p => Guard.ofCode p.pg
  | none => { neg := false, p := 0 }

/-- The extension word an instruction takes (R32). -/
def Instr.extWord (i : Instr) : Option Word := i.uses.findSome? fun u => u.o.word?

/-- The words of an instruction: its word, then its extension word; an event has no words. -/
def encode (i : Instr) : List Word :=
  match i.parts with
  | some p => p.toWord :: i.extWord.toList
  | none => []

/-! ## The decoder -/

/-- Checks 3 to 7 of R57 on the fields of a word: the number of the first that fails. -/
def Parts.check (p : Parts) : Option Nat :=
  match rowOf p.opc.toNat with
  | none => some 3
  | some r =>
    if !r.tys.contains p.ty.toNat then some 4
    else if !r.mods.contains p.mod.toNat || !pairingOk p then some 5
    else if !r.sub p.sub.toNat then some 6
    else if p.pg = 0b1000 then some 7
    else none

/-- Decode the word w of a block whose LIVE is `live`, in a launch whose window holds `accn` tiles; `next` is the following
word of the block. `.error n` names the check of R57 that fails first. -/
def decodeAt (live accn : Nat) (w : Word) (next : Option Word) : Except Nat Instr :=
  let p := Parts.ofWord w
  match p.check with
  | some n => .error n
  | none =>
    match p.build (fun n => Opd.ofSpec n (next.getD 0)) with
    | none => .error 8
    | some i =>
      -- a TY that the form does not use is the chapter's own check (R334), any other field of no use check 8 (R28)
      if i.parts ≠ some p then .error (if i.parts = some { p with ty := 0 } then (i.check live accn).getD 11 else 8)
      else
        match i.check live accn with
        | some n => .error n
        | none => if i.extWord.isSome && next.isNone then .error 10 else .ok i

/-- A well-formed instruction: its fields pass checks 3 to 10 of R57 and its own rules on the encoding. An event is none. -/
def Instr.wf (live accn : Nat) (i : Instr) : Bool :=
  (match i.parts with | some p => p.check == none | none => false) && i.check live accn == none && i.own

/-- The words an instruction occupies. -/
def Instr.length (i : Instr) : Nat := if i.extWord.isSome then 2 else 1

/-- The instruction the decoder reads from an instruction whose bits are w: bit 0 of w is the least significant bit of the
first byte (R4, R27), every bit at or above nbits is zero, and the block's LIVE and the window are the widest. -/
def decodeTableWord (nbits w : Nat) : Option Instr :=
  let m := w % 2 ^ nbits
  match decodeAt 256 64 (BitVec.ofNat 64 m) (some (BitVec.ofNat 64 (m / 2 ^ 64))) with
  | .ok i => some i
  | .error _ => none

end Sys2Proof
end

