-- ==== Sys2Proof/Machine/State.lean ====
section
/-! DEFINITION. Everything the manual gives the machine to hold, as plain data, and its value right after reset. -/

namespace Sys2Proof.Machine

/-- A sparse array: (index, value) pairs with indexes strictly rising. -/
abbrev Cells (α : Type) := List (Nat × α)

/-! ## Slices -/

/-- One entry of the reconvergence stack (R91). -/
structure RsEntry where
  pend : Bool
  mask : Mask
  hdr : VA
  fmt : BitVec 16
  deriving DecidableEq, Repr, Inhabited

/-- A hardware loop register (R91). -/
structure LoopReg where
  act : Bool
  start : VA
  endh : VA
  count : BitVec 32
  brk : Mask
  depth : Nat
  deriving DecidableEq, Repr, Inhabited

/-- What a slice waits for at the instruction its pc addresses; `bar` and `barWait` have made their arrival, `made` has done the
instruction's work and waits for the others of its gang, and `span` waits until each of these spans is RESIDENT; `queue` has claimed a
slot of a queue of `nslot` slots, at this address, by this index (R295), and waits for it, and for such spans (R312);
`fence` waits for what the slice has outstanding beyond the module (R245), for value-returning operations only where `vals` is set,
at a DSYNC where `dsync` is (R393); and
`room` holds tiles and a barrier object of its share until the core's queue has room for its task (R212). -/
inductive Wait where
  | none
  | regang
  | bar (level : Nat)
  | barWait (level : Nat)
  | coll
  | tlwait (share tl n : Nat)
  | waitp (share path n : Nat)
  | sleep (until_ : Nat)
  | mbobj (share obj phase : Nat)
  | append (cmd : Nat)
  | span (nums : List Nat)
  | queue (idx nslot slot : Nat) (spans : List Nat)
  | engine (tile before : Nat)
  | made
  | fence (vals dsync : Bool)
  | room (tiles : List Nat) (obj : Option Nat)
  deriving DecidableEq, Repr, Inhabited

/-- Where a region is entered again (R382): the word, and the wait in which a BAR, REGANG or COLL resumes; `header` tells that the
word is the header whose entry opened the region. -/
structure Rep where
  addr : VA
  pc : VA
  hdr : VA
  hword : Option Word
  wait : Wait
  header : Bool
  deriving DecidableEq, Repr, Inhabited

/-- The checkpoint of a region (R382). -/
structure Checkpoint where
  rep : Rep
  am : Mask
  xm : Mask
  rs : List RsEntry
  lp : List LoopReg
  order : List Nat
  fmt : BitVec 16
  clock : Nat
  gang : Nat
  bufLen : Nat
  deriving DecidableEq, Repr, Inhabited

/-- A register write that a suppressed operation makes again from its log (R280, R301). -/
inductive RegWrite where
  | v (reg lane : Nat) (val : LWord)
  | s (reg : Nat) (val : Word)
  deriving DecidableEq, Repr, Inhabited

/-- A suppression count with its log (R214, R280, R301): operations retired since the region's entry, the operations met by
the present attempt, and the writes of each value-returning one; a write of none waits for the command numbered there. -/
structure Supp where
  count : Nat
  pos : Nat
  log : List (Nat × List RegWrite)
  cmds : List (Nat × Nat)
  deriving DecidableEq, Repr, Inhabited

/-- How far a slice of a deterministic launch is in its round (R254, R255). -/
inductive QPhase where
  | running
  | ended
  | atSerial
  deriving DecidableEq, Repr, Inhabited

/-- A recoverable stop (R381): outstanding record, or waiting for a slot of the ring, and whether it resumes after a TRAP. -/
inductive Stop where
  | none
  | held (record : Nat) (trap : Bool)
  deriving DecidableEq, Repr, Inhabited

/-- A buffered store: the key of its first byte, the entry of its page, its physical address and the number of its virtual page as it
was made (all 0 for on-chip bytes), whether it is non-temporal, its bytes (none where not written), the path that its landing is
counted on, whether its commit has forced a fetch that it waits for (R321), and whether it is its instruction's last on a span-managed
page, with which the instruction counts as made (R321). -/
structure BufStore where
  key : Nat
  pte : Word
  pa : Nat
  page : Nat
  nt : Bool
  data : List (Option Byte)
  path : Option (Nat × Nat)
  forced : Bool
  last : Bool
  deriving DecidableEq, Repr, Inhabited

/-- One entry of a deterministic slice's buffer of stores and commands (R254, R255); `forced` tells that the commit of a command has
forced a fetch that it waits for. -/
inductive BufEntry where
  | store (x : BufStore)
  | command (i : Instr) (pc : VA) (am part : Mask) (id : Nat) (args : List Word) (forced : Bool)
  deriving DecidableEq, Repr

/-- A slice: four lanes with one program counter (R15, R91), its registers (R30), its system registers (R377) and what R395
saves with them; `atRep` tells that it goes back to the header that is its REP, where no new region opens (R384), and `trapLen` is how
much of its buffer stood there as it entered its handler. -/
structure Slice where
  num : Nat
  gnum : Nat
  share : Nat
  part : Nat
  pos : Nat
  ended : Bool
  gang : Nat
  pc : VA
  hdr : VA
  hword : Option Word
  atRep : Bool
  am : Mask
  xm : Mask
  rs : List RsEntry
  lp : List LoopReg
  order : List Nat
  v : Cells LWord
  s : Cells Word
  p : Cells Mask
  fmt : BitVec 16
  flg : BitVec 6
  shadow : BitVec 6
  qlen : BitVec 17
  trapvec : VA
  trapcause : Word
  trapaddr : VA
  trapregion : VA
  handling : Bool
  trapLen : Nat
  rcnt : BitVec 32
  ck : Checkpoint
  supM : Supp
  supA : Supp
  supC : Supp
  supS : Supp
  clock : Nat
  retired : Nat
  quantum : Nat
  qlenNow : Nat
  qphase : QPhase
  wait : Wait
  stop : Stop
  arrp : List (Option (BitVec 16))
  drop : List Bool
  pend : List (Nat × Nat)
  q1 : List Nat
  buf : List BufEntry
  ts : Nat
  deriving DecidableEq, Repr, Inhabited

/-! ## Shares and blocks -/

/-- PATH of a tile (R193). -/
inductive TPath where
  | empty | res | fphi | fplo
  deriving DecidableEq, Repr, Inhabited

/-- An accumulator tile with its state (R193). -/
structure Tile where
  words : Cells LWord
  path : TPath
  g : Nat
  bound : Nat
  exc : Word
  owner : Option Nat
  deriving DecidableEq, Repr, Inhabited

/-- A barrier object (R207): position → the task that fills it, none for an arrival. -/
structure BarObj where
  act : Bool
  tile : Nat
  cnt : Nat
  phase : BitVec 16
  total : Nat
  cur : List (Nat × Option Nat)
  nxt : List (Nat × Option Nat)
  deriving DecidableEq, Repr, Inhabited

/-- A timeline counter (R251): operations accepted, the counter, completions ahead of a gap, and the packets that QPOST has posted
and no engine has picked up yet: the address of each one's slot and its number. -/
structure Timeline where
  accepted : Nat
  done : Nat
  early : List Nat
  posted : List (Nat × Nat)
  deriving DecidableEq, Repr, Inhabited

/-- One operation outstanding on an in-flight path (R238), in issue order; `n` accesses. -/
structure PathOp where
  id : Nat
  n : Nat
  returned : Bool
  deriving DecidableEq, Repr, Inhabited

/-- A block's share on one core (R221, R412). -/
structure Share where
  core : Nat
  slot : Nat
  scratch : Cells Byte
  tiles : List Tile
  book : Cells Byte
  bookTag : Bool
  objs : List BarObj
  tls : List Timeline
  paths : List (List PathOp)
  deriving DecidableEq, Repr, Inhabited

/-- The phase of a deterministic block's round (R254). -/
inductive Round where
  | parallel | commit | serial
  deriving DecidableEq, Repr, Inhabited

structure Block where
  uid : Nat
  launch : Nat
  num : Nat
  unit : Nat
  round : Round
  slices : List Slice
  shares : List Share
  noFlush : Bool
  deriving DecidableEq, Repr, Inhabited

/-! ## Launches -/

/-- A launch record's fields (R359). -/
structure LaunchRec where
  entry : Word
  param : Word
  ctx : Nat
  prio : Nat
  hint : Nat
  det : Bool
  restart : Bool
  top : Nat
  blklv : Nat
  sreg : Nat
  sscr : Nat
  sl1 : Nat
  rlive : Nat
  accb : Nat
  accn : Nat
  ext : List Nat
  bind : List Nat
  wait : BitVec 256
  set : BitVec 256
  deriving DecidableEq, Repr, Inhabited

/-- A barrier of a level's place (R247), keyed by its level and its number within the launch. -/
structure Barrier where
  level : Nat
  idx : Nat
  exp : Nat
  arr : Nat
  ndrop : Nat
  phase : BitVec 16
  deriving DecidableEq, Repr, Inhabited

/-- A line's tags (R259): WB, and RB (none, one block, or MANY); by its virtual address they follow its page to a new home (R283). -/
inductive Rb where
  | none | one (b : Nat) | many
  deriving DecidableEq, Repr, Inhabited

structure LineTag where
  line : Nat
  va : Nat
  wb : Option Nat
  rb : Rb
  deriving DecidableEq, Repr, Inhabited

/-- A counter that the OAU tracks for a deterministic launch (R276), wherever its page lies (R283): the blocks closed on it. -/
structure OauCtr where
  key : Nat
  va : Nat
  closed : List Nat
  deriving DecidableEq, Repr, Inhabited

/-- A unit that has left its cores and waits to be placed again (R393 to R396): the blocks saved into images, at this address of
the chrysalis area with this much room, and the numbers of the blocks that start anew. -/
structure WaitUnit where
  unit : Nat
  saved : List Block
  todo : List Nat
  addr : Nat
  room : Nat
  deriving DecidableEq, Repr, Inhabited

structure Launch where
  id : Nat
  rcd : LaunchRec
  addr : Word
  hq : Nat
  pos : Nat
  graph : Option (Nat × Nat)
  age : Nat
  waiting : List WaitUnit
  nextUnit : Nat
  blocksLeft : Nat
  bars : List Barrier
  tags : List LineTag
  oau : List OauCtr
  deriving DecidableEq, Repr, Inhabited

/-! ## Asynchronous commands and tile tasks -/

/-- The tensor box of CPYT (R288). -/
structure Box where
  dims : Nat
  dir : Bool
  pad : Word
  tbase : Word
  pbase : Word
  start : List Int
  box : List Nat
  size : List Nat
  tstr : List Int
  pstr : List Int
  deriving DecidableEq, Repr, Inhabited

/-- The parameter block of MRED (R298). -/
structure RedBlock where
  op : Nat
  fmt : Nat
  nsrc : Nat
  src : Nat
  sstep : Int
  dst : Nat
  len : Nat
  faddr : Word
  fval : Word
  deriving DecidableEq, Repr, Inhabited

/-- The scalars of MCMP (R300). -/
structure McmpArgs where
  dst : Nat
  x : Nat
  y : Nat
  z : Nat
  n : Nat
  faddr : Word
  fval : Word
  fill : Word
  deriving DecidableEq, Repr, Inhabited

/-- A copy address (R285): an offset of the issuing share's slot, or a virtual address. -/
structure CAddr where
  scr : Bool
  addr : Nat
  deriving DecidableEq, Repr, Inhabited

/-- One lane or entry of a collective (R337, R345), with the bytes that the engine has read for it, and the chunks whose
agreed exponent it still awaits (R341). -/
structure CollLane where
  peer : Nat
  remote : Word
  loc : CAddr
  len : Nat
  bytes : List Byte
  due : List Nat := []
  deriving DecidableEq, Repr, Inhabited

/-- COP of a collective (R337, R345). -/
inductive CollOp where
  | send | get | rsend | mcast
  deriving DecidableEq, Repr, Inhabited

/-- A collective in the engine (R337, R338): whether it has read and sent, its status so far and the bytes it has moved. -/
structure CollCmd where
  op : CollOp
  ty : Ty
  mode : Nat
  job : Nat
  inst_ : Nat
  lanes : List CollLane
  sent : Bool
  st : Nat
  moved : Nat
  deriving DecidableEq, Repr

/-- Where an atomic that leaves the module is performed (R266): a peer's skipper, or the banks of a plane, with the partner plane
of a DUP2 page. -/
inductive Far where
  | peer (dev : Nat)
  | plane (k : Nat) (partner : Option Nat)
  deriving DecidableEq, Repr, Inhabited

/-- `scratch` keeps the places outside the module that its bytes come from, each with the address there (R326, R354). -/
inductive CmdKind where
  | scratch (places : List (Far × Nat)) (writes : List (Nat × List Byte))
  | copy (dst src : Word) (len : Nat)
  | tensor (ty : Ty) (cb : Bool) (d : Box)
  | book (src : Word)
  | red (b : RedBlock)
  | mcmp (ty : Ty) (r : Rnd) (op : McmpOp) (a : McmpArgs)
  | skip (reply : Word)
  | far (place : Far) (va : Nat) (ws : List RegWrite)
  | grant (va : Nat) (counts : List (Nat × Nat))
  | granted (vals : List (Nat × Nat))
  | fetch (spans seen : List Nat)
  | coll (x : CollCmd)
  deriving DecidableEq, Repr

/-- A node in flight: its queue and position there, its graph slot and index. -/
structure NodeRef where
  hq : Nat
  pos : Nat
  slot : Nat
  idx : Nat
  deriving DecidableEq, Repr, Inhabited

/-- A command in a unit beside the slices (R251, R292); `at_` is the word that sent it (R391), 0 for a node or a packet. -/
structure Cmd where
  id : Nat
  ctx : Nat
  block : Option Nat
  share : Nat
  slice : Nat
  at_ : VA
  others : List Nat
  tl : Option (Nat × Nat)
  path : Option Nat
  dst : Option Nat
  node : Option NodeRef
  uq : Option Nat
  hold : Option Nat
  kind : CmdKind
  deriving DecidableEq, Repr

/-- A tile-task record's fields (R195). -/
structure TaskRec where
  amode : Nat
  acc : Nat
  scl : Bool
  obj : Nat
  useobj : Bool
  k : Nat
  aoff : Nat
  astr : Nat
  boff : Nat
  bstr : Nat
  moff : Nat
  soff : Nat
  gbase : Nat
  k0 : Nat
  p0 : Nat
  h : Nat
  w : Nat
  ch : Nat
  ow : Nat
  kh : Nat
  kw : Nat
  sh : Nat
  sw : Nat
  dh : Nat
  dw : Nat
  ph : Nat
  pw : Nat
  seq : Nat
  afmt : Nat
  bfmt : Nat
  sparn : Nat
  deriving DecidableEq, Repr, Inhabited

/-- Counts that a task holds privately while it runs (R194). -/
structure TaskCounts where
  sclc : Bool
  metac : Nat
  ofc : Nat
  nvc : Nat
  nxc : Nat
  deriving DecidableEq, Repr, Inhabited

/-- An accepted task (R205), in acceptance order in its core's queue. -/
structure Task where
  id : Nat
  core : Nat
  block : Nat
  share : Nat
  slice : Nat
  at_ : VA
  num : Nat
  phase : Nat
  rcd : TaskRec
  running : Bool
  chunks : Nat
  counts : TaskCounts
  hold : Option Nat
  deriving DecidableEq, Repr, Inhabited

/-! ## Memory -/

/-- Where in the caches a line lies: the L1 of a core, the L2 of a die, or the line's home L2 (R20, R266). -/
inductive CachePlace where
  | l1 (core : Nat) | l2 (die : Nat) | home
  deriving DecidableEq, Repr, Inhabited

/-- A byte of a store of a narrow scope, held at its publication point (R243); `core` is that of its slice, and `nt` tells that the
store is non-temporal. -/
structure HeldByte where
  block : Nat
  slice : Nat
  launch : Nat
  level : Nat
  idx : Nat
  seq : Nat
  place : CachePlace
  nt : Bool
  key : Nat
  val : Byte
  deriving DecidableEq, Repr, Inhabited

/-- A line that a cache holds (R228, R235), and the cache that holds it dirty. -/
structure Line where
  line : Nat
  dirty : Bool
  place : CachePlace
  deriving DecidableEq, Repr, Inhabited

/-- A line's write time and read lease (R242); a line not listed has both at 0. -/
structure LineTime where
  line : Nat
  wt : Nat
  lease : Nat
  deriving DecidableEq, Repr, Inhabited

/-- A remembered translation (R220). -/
structure TlbEntry where
  ctx : Nat
  base : Nat
  size : Nat
  pte : Word
  deriving DecidableEq, Repr, Inhabited

structure Memory where
  ram : List Host.Cell
  bank : Cells Byte
  lines : List Line
  times : List LineTime
  held : List HeldByte
  tlb : List TlbEntry
  poison : List Nat
  frozen : List Nat
  deriving DecidableEq, Repr, Inhabited

/-! ## Spans (R303 to R315) -/

inductive SpanState where
  | absent | fetching | resident | evicting
  deriving DecidableEq, Repr, Inhabited

/-- One cocoon entry (R306). -/
structure CocoonEntry where
  data : Word
  seq : Nat
  det : Bool
  sz : Nat
  op : Nat
  off : Nat
  deriving DecidableEq, Repr, Inhabited

/-- A span; `frame` is the T1 physical address of its copy, in the span cache of a context (R305). -/
structure Span where
  num : Nat
  st : SpanState
  frame : Option Nat
  cap : Nat
  pol : BitVec 4
  seq : Nat
  cocoon : List CocoonEntry
  refetch : Bool
  deriving DecidableEq, Repr, Inhabited

/-! ## Contexts and the scheduler -/

/-- A token bucket (R375). -/
structure Bucket where
  cap : Int
  rate : Int
  level : Int
  deriving DecidableEq, Repr, Inhabited

/-- A fault record (R391). -/
structure FaultRec where
  cause : Word
  addr : Word
  rep : Word
  rcnt : Nat
  block : Nat
  hq : Nat
  pos : Nat
  peer : Nat
  deriving DecidableEq, Repr, Inhabited

/-- What a record of the fault ring stands for (R389): a gang, by the slice that it reports, or a unit's command or task. -/
inductive FaultSrc where
  | gang (block slice : Nat) (trap : Bool)
  | command (cmd : Nat)
  | task (task : Nat)
  deriving DecidableEq, Repr, Inhabited

/-- A source in its fault; `slot` is none while the ring is full. -/
structure Outstanding where
  id : Nat
  slot : Option Nat
  addr : Word
  cause : Word
  source : Nat
  block : Nat
  place : Nat
  rcnt : Nat
  src : FaultSrc
  deriving DecidableEq, Repr, Inhabited

/-- A context's registers of the host window (R397), the bytes that its engines have moved since the last tick (R375), its event
vector (R362) and its faults. -/
structure Ctx where
  ptroot : Word
  tenant : Nat
  chrysB : Nat
  chrysS : Nat
  spanB : Nat
  spanS : Nat
  scacheB : Nat
  scacheS : Nat
  swwinB : Nat
  swwinS : Nat
  pfring : Nat
  time : Bucket
  bytes : Bucket
  energy : Bucket
  moved : Nat
  ev : BitVec 256
  fault : Option FaultRec
  ring : List Outstanding
  nextSlot : Nat
  deriving DecidableEq, Repr, Inhabited

inductive HqState where
  | idle | running | stopped
  deriving DecidableEq, Repr, Inhabited

/-- An entry of a hardware queue (R357): a record's address, or a node of a graph slot. -/
structure HqEntry where
  pos : Nat
  addr : Word
  graph : Option (Nat × Nat)
  checked : Bool
  rcd : LaunchRec
  age : Option Nat
  deriving DecidableEq, Repr, Inhabited

structure Hq where
  bound : Bool
  ctx : Nat
  entries : List HqEntry
  next : Nat
  st : HqState
  failPos : Nat
  failCode : Nat
  ovf : Bool
  deriving DecidableEq, Repr, Inhabited

/-- A node of an uploaded graph (R83, R372). -/
structure GNode where
  kind : Nat
  hq : Nat
  wait : BitVec 256
  set : BitVec 256
  payload : List Byte
  running : Bool
  deriving DecidableEq, Repr, Inhabited

/-- A pending kick (R374): the patches, and the next node to append once they are applied. -/
structure Kick where
  patches : List (Nat × Nat × Word)
  applied : Bool
  node : Nat
  deriving DecidableEq, Repr, Inhabited

structure Graph where
  slot : Nat
  ctx : Nat
  nodes : List GNode
  kicks : List Kick
  kickReg : Nat
  deriving DecidableEq, Repr, Inhabited

/-- A packet picked up and not yet completed (R296): its slot, its number on its counter (R251), the command that runs it, whether
it completes as a bad one, and what its completion needs. -/
structure Packet where
  slot : Nat
  num : Nat
  cmd : Option Nat
  bad : Bool
  tlsel : Nat
  origin : Nat
  faddr : Nat
  fval : Word
  deriving DecidableEq, Repr, Inhabited

/-- A user-mode queue (R295) as system software binds it: its header, its context and the packet kinds its engine takes. -/
structure UserQueue where
  id : Nat
  ctx : Nat
  header : Nat
  kinds : List Nat
  inFlight : List Packet
  deriving DecidableEq, Repr, Inhabited

/-- A pre-emption under way (R392): a drain, a drain whose 50 µs have passed, a flush-and-restart, or a save. -/
inductive PreAct where
  | drain | drainFor | flush | save
  deriving DecidableEq, Repr, Inhabited

/-- A unit under pre-emption, with the room of the chrysalis area that a save has taken. -/
structure Preempt where
  launch : Nat
  unit : Nat
  act : PreAct
  addr : Nat
  room : Nat
  deriving DecidableEq, Repr, Inhabited

structure Sched where
  hqs : List Hq
  graphs : List Graph
  gres : Word
  userQs : List UserQueue
  preempts : List Preempt
  deriving DecidableEq, Repr, Inhabited

/-! ## Fabric -/

/-- A chunk that this module owns (R340), with the residual distance of its instance, the exponents that have come and whether
the agreed one has been returned (R341), and the contributions. -/
structure Chunk where
  inst_ : Nat
  y : Word
  rdist : Int
  exps : List (Nat × Option Int)
  agreed : Bool
  parts : List Contribution
  written : Bool
  deriving DecidableEq, Repr, Inhabited

/-- An announcement that a member has made (R332). -/
structure Announce where
  dev : Nat
  seq : Nat
  digest : BitVec 32
  deriving DecidableEq, Repr, Inhabited

/-- One job of the job table (R330); the buffered traffic is that of the instance after CUR (R333), and `flagged` the chunks
whose flags have reached this module, each by its instance, its owner and its address (R338, R344). -/
structure Job where
  bound : Bool
  ctx : Nat
  cur : Nat
  done : Nat
  opened : Nat
  chunkCount : Nat
  flags : BitVec 6
  mode : Nat
  nmem : Nat
  rank : Nat
  list : List Nat
  rdist : Int
  prevRdist : Int
  digest : BitVec 32
  announced : List Announce
  buffered : List Instr
  flagged : List (Nat × Nat × Word)
  chunks : List Chunk
  deriving DecidableEq, Repr, Inhabited

/-- A switch allocation (R322, R323): its virtual base and size, its plane and address there, the partner plane that holds the same
addresses, and the slice (by its block) whose SFREE of it waits for accesses in flight: such a one is mapped no more (R324). -/
structure Alloc where
  ctx : Nat
  base : Nat
  size : Nat
  page : Nat
  plane : Nat
  pa : Nat
  partner : Option Nat
  lost : Bool
  freeing : Option (Nat × Nat)
  deriving DecidableEq, Repr, Inhabited

inductive SlotState where
  | empty | ready | active | draining
  deriving DecidableEq, Repr, Inhabited

/-- A key slot of one direction (R350). -/
structure KeySlot where
  st : SlotState
  key : List Byte
  salt : BitVec 32
  limit : Nat
  ctr : Nat
  marker : Option Nat
  deriving DecidableEq, Repr, Inhabited

/-- A flit that a port has sent and keeps for replay, or will send (R349): its number, kind, channel, slot and text. -/
structure Kept where
  seq : BitVec 12
  kind : Nat
  vc : Nat
  slot : Bool
  text : List Byte
  deriving DecidableEq, Repr, Inhabited

/-- One port (R328, R348 to R351): `waiting` are flits (kind, channel, text) for which 512 unacknowledged ones leave no room,
`nak` a NAK that is due, and `refusals` how often each SEQ has been refused. -/
structure Port where
  up : Bool
  dead : Bool
  tx : List KeySlot
  rx : List KeySlot
  sendSeq : BitVec 12
  unacked : List Kept
  waiting : List (Nat × Nat × List Byte)
  nak : Bool
  expect : BitVec 12
  refusals : List (BitVec 12 × Nat)
  deriving DecidableEq, Repr, Inhabited

/-- A multicast landing that a block has numbered (R339), and whose it is. -/
structure Landing where
  id : Nat
  orig : Origin
  job : Nat
  block : Nat
  share : Nat
  off : Nat
  len : Nat
  num : Nat
  deriving DecidableEq, Repr, Inhabited

/-- What this module sends to its peers and switches: traffic of a job carries its number (R330), a reply the tag of its
request, an access is what its slice or engine asks of a peer's memory under a tag, a landing is begun by its first page's bytes and
its later pages follow in parts, and a notice names a lost device and its epoch. -/
inductive Msg where
  | announce (job inst_ : Nat) (digest : BitVec 32)
  | reply (job : Option Nat) (tag : Nat) (data : List Byte)
  | refuse (job : Option Nat) (tag : Nat)
  | retry (job : Option Nat) (tag : Nat)
  | poisoned (job : Option Nat) (tag : Nat)
  | landing (o : Origin) (job inst_ : Nat) (va : Word) (len : Nat) (data : List Byte)
  | landingPart (o : Origin) (job inst_ : Nat) (va : Word) (data : List Byte)
  | request (r : RemoteReq)
  | exponent (o : Origin) (job inst_ : Nat) (y : Word) (rank : Nat) (e : Option Int)
  | agreed (job inst_ : Nat) (y : Word) (e : Option Int)
  | contribution (job inst_ : Nat) (y : Word) (c : Contribution)
  | chunkFlags (job inst_ : Nat) (y : Word) (flags : Option (BitVec 6))
  | complete (job inst_ : Nat) (y : Word)
  | duplicate (job inst_ : Nat) (y : Word)
  | access (tag : Nat)
  | notice (dev epoch : Nat)
  | flit (f : Flit)
  deriving DecidableEq, Repr

/-- A message on its way (R328): the port that it leaves by, none while it waits in the hub, the module that it is for (a
notice and a flit are for the far end of the port), and the virtual page that it is about. -/
structure Post where
  port : Option Nat
  dst : Nat
  page : Option Nat
  msg : Msg
  deriving DecidableEq, Repr

/-- A request that awaits its answer (R352): its tag, its post, the command here that awaits it, and whether it has been re-sent. -/
structure InFlight where
  tag : Nat
  cmd : Nat
  post : Post
  again : Bool
  deriving DecidableEq, Repr

/-- The fabric side of the module (R328 to R355): `served` is the record of requests answered, by module and tag (R352), and
`stopped` the commands of peers that a refusal here has stopped (R337). -/
structure Fabric where
  devno : BitVec 9
  jobs : List Job
  allocs : List Alloc
  ports : List Port
  lostPeers : List Nat
  epochs : List (Nat × Nat)
  lostPlanes : List Nat
  linkReports : List (Nat × Nat)
  notices : List (Nat × Nat)
  served : List (Nat × Nat × Msg)
  stopped : List (Nat × Nat)
  landings : List Landing
  nextTag : Nat
  inFlight : List InFlight
  outbox : List Post
  deriving DecidableEq, Repr, Inhabited

/-! ## Firmware, power and errors -/

/-- Status of an attestation report (R400). -/
inductive ReportStatus where
  | ok | exhausted | svcRefused
  deriving DecidableEq, Repr, Inhabited

/-- An attestation report (R400). -/
structure Report where
  archid : Word
  rootMeas : List Byte
  svcMeas : List Byte
  security : Nat
  selftest : Word
  nonce : List Byte
  status : ReportStatus
  signature : List Byte
  deriving DecidableEq, Repr, Inhabited

/-- The retention of a scratchpad bank, by its core and number, or of an L2 way, by its die and number (R239); a core's number at or
above 192 in `banks` is that of a die's L2. -/
inductive BankState where
  | active | retention | exiting
  deriving DecidableEq, Repr, Inhabited

/-- The security processor, the service controller and what they keep (R398 to R403): `corrected` and `reported` are telemetry's
counts of corrected errors and of uncorrectable ones in idle banks (R239), `pcie6` tells how the host link has trained, and
`answers` is what host reads have returned, the latest first (R397). -/
structure Firmware where
  bootst : BitVec 16
  rollRoot : Nat
  rollSvc : Nat
  rootMeas : List Byte
  svcMeas : List Byte
  security : Nat
  selftest : Word
  coresOff : List Nat
  repair : List (Nat × Nat)
  leaf : Nat
  quotas : List (Nat × Nat)
  windows : List AccWindow
  clockMHz : Nat
  banks : List (Nat × Nat × BankState)
  corrected : List (Nat × Nat)
  reported : List (Nat × Nat)
  pcie6 : Bool
  answers : List (List Byte)
  reports : List Report
  refusedCmds : Nat
  deriving DecidableEq, Repr, Inhabited

/-! ## The machine -/

/-- Whose turn the agenda names: a gang, one slice's serial operation (R254), or an event. -/
inductive Turn where
  | gang (block gang : Nat)
  | serial (block slice : Nat)
  | event (i : Instr)
  deriving DecidableEq, Repr

/-- The gang that issues; `only` names the one slice whose serial operation is performed. -/
structure Issuer where
  block : Nat
  gang : Nat
  only : Option Nat
  deriving DecidableEq, Repr, Inhabited

structure State where
  cycle : Nat
  fresh : Nat
  nextId : Nat
  cur : Option Issuer
  agenda : List Turn
  lastPart : Nat
  lastIssue : Cells Nat
  mem : Memory
  ctxs : List Ctx
  blocks : List Block
  launches : List Launch
  cmds : List Cmd
  tasks : List Task
  spans : List Span
  sched : Sched
  fabric : Fabric
  fw : Firmware
  deriving DecidableEq, Repr

/-- No fault stops this machine: every fault of the manual is a next state (R381), and no access reaches an address that
the manual's checks have not refused before. The type is closed and has no constructor. -/
inductive Fault where
  deriving DecidableEq, Repr

/-- Why a step has no meaning. -/
inductive Refusal where
  /-- raised by an arm of exec whose instruction has no meaning yet; stopping is safe -/
  | notModelled (mnemonic : String)
  deriving DecidableEq, Repr

/-! ## Reset -/

def LoopReg.idle : LoopReg := { act := false, start := 0, endh := 0, count := 0, brk := 0, depth := 0 }

def Supp.zero : Supp := { count := 0, pos := 0, log := [], cmds := [] }

def Tile.reset : Tile := { words := [], path := .empty, g := 0, bound := 0, exc := 0, owner := none }

def BarObj.reset : BarObj := { act := false, tile := 0, cnt := 0, phase := 0, total := 0, cur := [], nxt := [] }

def Timeline.reset : Timeline := { accepted := 0, done := 0, early := [], posted := [] }

def Bucket.reset : Bucket := { cap := 0, rate := 0, level := 0 }

/-- A context's host window at reset (log entry 7). -/
def Ctx.reset : Ctx :=
  { ptroot := 0, tenant := 0, chrysB := 0, chrysS := 0, spanB := 0, spanS := 0, scacheB := 0
    scacheS := 0, swwinB := 0, swwinS := 0, pfring := 0, time := .reset, bytes := .reset, energy := .reset
    moved := 0, ev := 0, fault := none, ring := [], nextSlot := 0 }

def Hq.reset : Hq :=
  { bound := false, ctx := 0, entries := [], next := 0, st := .idle, failPos := 0, failCode := 0, ovf := false }

def Job.reset : Job :=
  { bound := false, ctx := 0, cur := 0, done := 0, opened := 0, chunkCount := 0, flags := 0, mode := 0, nmem := 0
    rank := 0, list := [], rdist := 0, prevRdist := 0, digest := 0, announced := [], buffered := [], flagged := [], chunks := [] }

def KeySlot.reset : KeySlot := { st := .empty, key := [], salt := 0, limit := 0, ctr := 0, marker := none }

def Port.reset : Port :=
  { up := false, dead := false, tx := [.reset, .reset], rx := [.reset, .reset], sendSeq := 0
    unacked := [], waiting := [], nak := false, expect := 0, refusals := [] }

def Memory.reset : Memory :=
  { ram := [], bank := [], lines := [], times := [], held := [], tlb := [], poison := [], frozen := [] }

/-- The machine right after reset: no work, no binding, the boot in progress (R398). -/
def State.reset : State :=
  { cycle := 0, fresh := 0, nextId := 1, cur := none, agenda := [], lastPart := 0, lastIssue := [], mem := .reset
    ctxs := List.replicate 64 .reset, blocks := [], launches := [], cmds := [], tasks := [], spans := []
    sched := { hqs := List.replicate 64 .reset, graphs := [], gres := 0, userQs := [], preempts := [] }
    fabric :=
      { devno := 0, jobs := List.replicate 64 .reset, allocs := [], ports := List.replicate 16 .reset, lostPeers := []
        epochs := [], lostPlanes := [], linkReports := [], notices := [], served := [], stopped := [], landings := [], nextTag := 0, inFlight := [], outbox := [] }
    fw :=
      { bootst := 0, rollRoot := 0, rollSvc := 0, rootMeas := [], svcMeas := [], security := 0, selftest := 0
        coresOff := [], repair := [], leaf := 0, quotas := [], windows := [], clockMHz := 2250, banks := []
        corrected := [], reported := [], pcie6 := false, answers := [], reports := [], refusedCmds := 0 } }

end Sys2Proof.Machine
end

