-- ==== Sys2Proof/Machine/Cells.lean ====
section
/-! DEFINITION. Sparse arrays: pairs of an index and a value, indexes strictly rising, and the byte strings built on them.
Byte order is decided here once (R4: little-endian). -/

namespace Sys2Proof.Machine

namespace Cells

/-- The value at k, if one is listed. -/
def find? {α : Type} : Cells α → Nat → Option α
  | [], _ => none
  | (a, x) :: l, k => if a = k then some x else find? l k

/-- The value at k; an index not listed reads d. -/
def get {α : Type} (d : α) (l : Cells α) (k : Nat) : α := (find? l k).getD d

/-- List x at k. -/
def put {α : Type} : Cells α → Nat → α → Cells α
  | [], k, x => [(k, x)]
  | (a, y) :: l, k, x => if a = k then (k, x) :: l else if k < a then (k, x) :: (a, y) :: l else (a, y) :: put l k x

/-- List nothing at k. -/
def del {α : Type} (l : Cells α) (k : Nat) : Cells α := l.filter fun c => c.1 != k

/-- Write x at k in an array whose unlisted indexes read d: writing d lists nothing. -/
def set {α : Type} [DecidableEq α] (d : α) (l : Cells α) (k : Nat) (x : α) : Cells α :=
  if x = d then del l k else put l k x

/-- Indexes strictly rising from at least b. -/
def sorted {α : Type} : Nat → Cells α → Bool
  | _, [] => true
  | b, (a, _) :: l => b ≤ a && sorted (a + 1) l

/-- The canonical form of an array whose unlisted indexes read d. -/
def wf {α : Type} [DecidableEq α] (d : α) (l : Cells α) : Bool := sorted 0 l && l.all (fun c => c.2 != d)

/-- Bytes at k, k + 1, ... -/
def bytes (l : Cells Byte) (k : Nat) : Nat → List Byte
  | 0 => []
  | n + 1 => get 0 l k :: bytes l (k + 1) n

def putBytes (l : Cells Byte) (k : Nat) : List Byte → Cells Byte
  | [] => l
  | b :: bs => putBytes (set 0 l k b) (k + 1) bs

end Cells

/-- Insert x before the first element that goes after it. -/
def insertBy {α : Type} (before : α → α → Bool) (x : α) : List α → List α
  | [] => [x]
  | y :: l => if before x y then x :: y :: l else y :: insertBy before x l

/-- A list in order; elements that are level keep their order. -/
def sortBy {α : Type} (before : α → α → Bool) : List α → List α
  | [] => []
  | x :: l => insertBy before x (sortBy before l)

/-- The value of bytes, least significant first. -/
def leNat : List Byte → Nat
  | [] => 0
  | b :: bs => b.toNat + 256 * leNat bs

/-- n bytes of a value, least significant first. -/
def leBytes : Nat → Nat → List Byte
  | 0, _ => []
  | n + 1, x => BitVec.ofNat 8 x :: leBytes n (x / 256)

def leWord (bs : List Byte) : Word := BitVec.ofNat 64 (leNat bs)

/-- The field of n bytes at offset o of a structure in memory. -/
def field (bs : List Byte) (o n : Nat) : Nat := leNat ((bs.drop o).take n)

/-- A signed reading of a w-bit value. -/
def sgn (w : Nat) (x : Nat) : Int := let y := x % 2 ^ w; if 2 * y < 2 ^ w then (y : Int) else (y : Int) - (2 ^ w : Nat)

/-- The w-bit pattern of an integer. -/
def wrapTo (w : Nat) (x : Int) : Nat := (x % ((2 ^ w : Nat) : Int)).toNat

/-- Bits [lo + n - 1 : lo] of a number. -/
def bitsOf (x lo n : Nat) : Nat := x / 2 ^ lo % 2 ^ n

end Sys2Proof.Machine
end

