-- ==== Sys2Proof/Machine/Flags.lean ====
section
/-! DEFINITION. The sticky flags (R144, R145): the six bits, and setting them into a slice's region shadow. -/

namespace Sys2Proof.Machine

/-- A set of flags in the layout of flg [5:0] (R144). -/
abbrev Flags := BitVec 6

namespace Flags
def nx : Flags := 1
def uf : Flags := 2
def of : Flags := 4
def dz : Flags := 8
def nv : Flags := 16
def el : Flags := 32
def when_ (c : Bool) (f : Flags) : Flags := if c then f else 0
end Flags

/-- R6: set FLAG ors into the region shadow. -/
def Slice.setFlags (sl : Slice) (f : Flags) : Slice := { sl with shadow := sl.shadow ||| f }

/-- R125: a read of flg sees the flags of the open region too. -/
def Slice.readFlg (sl : Slice) : Word := (sl.flg ||| sl.shadow).setWidth 64

/-- R125: a write of flg takes the flag bits and clears the shadow. -/
def Slice.writeFlg (sl : Slice) (x : Word) : Slice := { sl with flg := x.setWidth 6, shadow := 0 }

/-- R382 step 1: the shadow joins flg at the exit of a region. -/
def Slice.commitFlags (sl : Slice) : Slice := { sl with flg := sl.flg ||| sl.shadow, shadow := 0 }

end Sys2Proof.Machine
end

