-- ==== Sys2Proof/Machine/Operands.lean ====
section
/-! DEFINITION. The registers of a slice and every operand form: guards (R29), specifiers (R30 to R32), identity values (R21),
integer forms (R115) and the groups of R5. Every read and write of a register goes through this file. -/

namespace Sys2Proof.Machine

/-! ## Registers -/

def Slice.rv (sl : Slice) (r l : Nat) : LWord := Cells.get 0 sl.v (4 * r + l)
def Slice.wv (sl : Slice) (r l : Nat) (x : LWord) : Slice := { sl with v := Cells.set 0 sl.v (4 * r + l) x }
def Slice.sr (sl : Slice) (r : Nat) : Word := Cells.get 0 sl.s r
def Slice.ws (sl : Slice) (r : Nat) (x : Word) : Slice := { sl with s := Cells.set 0 sl.s r x }

/-- p0 reads all ones (R30). -/
def Slice.rp (sl : Slice) (r : Nat) : Mask := if r = 0 then 0xF else Cells.get 0 sl.p r
/-- A write to p0 is discarded (R30). -/
def Slice.wp (sl : Slice) (r : Nat) (m : Mask) : Slice := if r = 0 then sl else { sl with p := Cells.set 0 sl.p r m }

/-- The lanes that take part (R29). -/
def Slice.part_ (sl : Slice) (g : Guard) : Mask :=
  sl.am &&& (if g.neg then ~~~ (sl.rp g.p.toNat) else sl.rp g.p.toNat)

/-- The lanes of a mask, ascending. -/
def lanes (m : Mask) : List Nat := [0, 1, 2, 3].filter (fun l => m.getLsbD l)

/-- R36: from a block of LIVE n on, lane registers at or above n read zero. -/
def Slice.trimLive (sl : Slice) (n : Nat) : Slice :=
  { sl with v := sl.v.filter (fun c => c.1 < 4 * n), pend := sl.pend.filter (fun p => p.1 < 64 + n) }

/-! ## What an instruction's operands depend on beside the slice -/

/-- The surroundings of a slice: its launch's record, its block number, its core and the module's device number. -/
structure Env where
  lr : LaunchRec
  blk : Nat
  core : Nat
  devno : BitVec 9
  deriving DecidableEq, Repr, Inhabited

def LaunchRec.extent (r : LaunchRec) (k : Nat) : Nat := if k = 0 then 1 else r.ext.getD (k - 1) 0

/-- The slices in one level-k part of the launch (R17). -/
def LaunchRec.slicesIn (r : LaunchRec) : Nat → Nat
  | 0 => 1
  | k + 1 => r.slicesIn k * r.extent (k + 1)

/-- The number within the launch of the level-k part that holds a slice. -/
def LaunchRec.partOf (r : LaunchRec) (k gnum : Nat) : Nat := gnum / r.slicesIn k

/-- ix0 to ix7 (R21). -/
def LaunchRec.ix (r : LaunchRec) (k gnum : Nat) : Nat :=
  if k < r.top then r.partOf k gnum % r.extent (k + 1) else 0

/-- An identity value (R21): specifier 0x1A0 + n. -/
def Env.ident (e : Env) (sl : Slice) (n lane : Nat) : Nat :=
  if n = 0 then lane
  else if n ≤ 8 then e.lr.ix (n - 1) sl.gnum
  else if n = 9 then e.blk
  else if n = 10 then e.devno.toNat
  else if n = 11 then (if e.lr.det then 0 else e.core / 48 * 256 + e.core % 48 * 4 + sl.part)
  else e.lr.ctx

/-! ## Operand values -/

/-- The low w bits of an operand of lane l (R30 to R32, R115); groups supply up to 128 bits. -/
def valOf (e : Env) (sl : Slice) (l w : Nat) : Opd → Nat
  | .v n =>
    let r := n.toNat
    if w ≤ 32 then (sl.rv r l).toNat % 2 ^ w
    else if w ≤ 64 then (sl.rv r l).toNat + 2 ^ 32 * (sl.rv (r + 1) l).toNat
    else (sl.rv r l).toNat + 2 ^ 32 * (sl.rv (r + 1) l).toNat + 2 ^ 64 * (sl.rv (r + 2) l).toNat +
      2 ^ 96 * (sl.rv (r + 3) l).toNat
  | .s n => (sl.sr n.toNat).toNat % 2 ^ w
  | .small k => wrapTo w ((k.toNat : Int) - 16)
  | .ext x => x.toNat % 2 ^ w
  | .ident n => e.ident sl n.toNat l % 2 ^ w
  | _ => 0

/-- The pattern of a small integer in a floating-point type (R31): exact in each. -/
def smallFloat (ty : Ty) (k : Int) : Nat :=
  let (bias, frac, sign) := match ty with | .f16 => (15, 10, 15) | .bf16 => (127, 7, 15) | _ => (127, 23, 31)
  let m := k.natAbs
  if m = 0 then 0
  else
    let e := Nat.log2 m
    (if k < 0 then 2 ^ sign else 0) + (e + bias) * 2 ^ frac + (m - 2 ^ e) * 2 ^ (frac - e)

/-- An operand as a type reads it: a small constant of a floating-point operand is that number (R31). -/
def tvalOf (e : Env) (sl : Slice) (l : Nat) (ty : Ty) (o : Opd) : Nat :=
  match o with
  | .small k => if ty.isFloat then smallFloat ty ((k.toNat : Int) - 16) else valOf e sl l ty.width (.small k)
  | o => valOf e sl l ty.width o

/-- The value of an operand read once for the slice, as 64 bits. -/
def svalOf (e : Env) (sl : Slice) (o : Opd) : Word := BitVec.ofNat 64 (valOf e sl 0 64 o)

/-- An integer operand as its type reads it. -/
def readInt (signed : Bool) (w x : Nat) : Int := if signed then sgn w x else (x : Int)

/-- A w-bit result extended to n bits (R115): sign-extended for I types. -/
def extend (signed : Bool) (w n x : Nat) : Nat := if signed then wrapTo n (sgn w x) else x % 2 ^ w

/-- Write a w-bit result into lane l of a register or group. -/
def Slice.putLane (sl : Slice) (r l : Nat) (signed : Bool) (w x : Nat) : Slice :=
  if w ≤ 32 then sl.wv r l (BitVec.ofNat 32 (extend signed w 32 x))
  else if w ≤ 64 then (sl.wv r l (BitVec.ofNat 32 x)).wv (r + 1) l (BitVec.ofNat 32 (x / 2 ^ 32))
  else (((sl.wv r l (BitVec.ofNat 32 x)).wv (r + 1) l (BitVec.ofNat 32 (x / 2 ^ 32))).wv (r + 2) l
    (BitVec.ofNat 32 (x / 2 ^ 64))).wv (r + 3) l (BitVec.ofNat 32 (x / 2 ^ 96))

/-- Do f for each lane of a mask, ascending; f writes into the slice it is given. -/
def Slice.overLanes (sl : Slice) (m : Mask) (f : Nat → Slice → Slice) : Slice :=
  (lanes m).foldl (fun acc l => f l acc) sl

/-- Write f of each lane that takes part to D in the lane form, or f 0 once in the scalar form (R115, R29). -/
def Slice.setInt (sl : Slice) (g : Guard) (d : Opd) (signed : Bool) (w : Nat) (f : Nat → Nat) : Slice :=
  let m := sl.part_ g
  match d with
  | .v n => sl.overLanes m fun l acc => acc.putLane n.toNat l signed w (f l)
  | .s n => if m = 0 then sl else sl.ws n.toNat (BitVec.ofNat 64 (extend signed w 64 (f 0)))
  | _ => sl

/-- Write a bit per lane that takes part to a predicate. -/
def Slice.setPred (sl : Slice) (g : Guard) (d : Opd) (f : Nat → Bool) : Slice :=
  let m := sl.part_ g
  match d with
  | .p n =>
    sl.wp n.toNat ((lanes m).foldl
      (fun acc l => if f l then acc ||| (1#4 <<< l) else acc &&& ~~~ (1#4 <<< l)) (sl.rp n.toNat))
  | _ => sl

/-- Write one value to an s destination when some lane takes part (a per-slice effect, R29). -/
def Slice.setS (sl : Slice) (g : Guard) (d : Opd) (x : Word) : Slice :=
  match d with
  | .s n => if sl.part_ g = 0 then sl else sl.ws n.toNat x
  | _ => sl

/-- A predicate operand's bits. -/
def predOf (sl : Slice) : Opd → Mask
  | .p n => sl.rp n.toNat
  | _ => 0

/-! ## Events -/

/-- A trap or fault as an instruction raises it (R380): the code, the detail, the check, the data address or the lost unit,
and the lanes of each slice that raised it. `at_` overrides the word it is reported at. -/
structure Ev where
  code : Nat
  detail : Nat
  check : Nat
  row : Nat
  addr : Option Word
  unit_ : Nat
  lanes : List (Nat × Mask)
  at_ : Option VA
  deriving DecidableEq, Repr, Inhabited

def Ev.of (code : Nat) : Ev :=
  { code, detail := 0, check := 0, row := 0, addr := none, unit_ := 0xFFFF, lanes := [], at_ := none }

def Ev.illop : Ev := .of 0x01
def Ev.badtgt : Ev := .of 0x02
def Ev.align : Ev := .of 0x03
def Ev.pagef : Ev := .of 0x04
def Ev.perm : Ev := .of 0x05
def Ev.bkpt : Ev := .of 0x06
def Ev.detx : Ev := .of 0x07
def Ev.memue : Ev := .of 0x08
def Ev.swlost : Ev := .of 0x09
def Ev.peerlost : Ev := .of 0x0A
def Ev.asyovf : Ev := .of 0x0B
/-- ILLOP of an instruction's own operand checks (check 11 of R57). -/
def Ev.own : Ev := { Ev.illop with check := 11 }

def Ev.in_ (ev : Ev) (sl : Slice) (m : Mask) : Ev := { ev with lanes := [(sl.num, m)] }

/-- A per-slice check that fails in every lane that takes part. -/
def Ev.per (ev : Ev) (sl : Slice) (g : Guard) : Ev := ev.in_ sl (sl.part_ g)

end Sys2Proof.Machine
end

