-- ==== Sys2Proof/Machine/Translate.lean ====
section
/-! DEFINITION. Translation (R216 to R220), placement (R219), and the access tables (R401). A byte of any memory has one key:
T1 bytes by stack, row and channel, the other targets above 2^60. -/

namespace Sys2Proof.Machine

/-! ## Keys -/

/-- The key of a T1 byte (R219): with SL = 0 the granule is spread over all stacks. -/
def t1Key (sl : Bool) (pa : Nat) : Nat :=
  if sl then pa
  else
    let g := bitsOf pa 10 9 ^^^ bitsOf pa 19 9
    bitsOf g 6 3 * 2 ^ 36 + bitsOf pa 19 20 * 2 ^ 16 + bitsOf g 0 6 * 2 ^ 10 + pa % 2 ^ 10

def t2Key (pa : Nat) : Nat := 2 ^ 60 + pa
def hostKey (pa : Nat) : Nat := 2 * 2 ^ 60 + pa
def peerKey (dev pa : Nat) : Nat := 3 * 2 ^ 60 + dev * 2 ^ 43 + pa
def switchKey (plane pa : Nat) : Nat := 4 * 2 ^ 60 + plane * 2 ^ 37 + pa
/-- The name under which tags and buffers know a byte of a span-managed page, whatever its span's state (R254, R259). -/
def spanKey (pa : Nat) : Nat := 5 * 2 ^ 60 + pa

/-- The stack that holds a T1 byte. -/
def stackOf (key : Nat) : Nat := key / 2 ^ 36 % 8

/-! ## Page-table entries (R217) -/

namespace Pte
def v (w : Word) : Bool := w.getLsbD 0
def leaf (w : Word) : Bool := w.getLsbD 1
def r (w : Word) : Bool := w.getLsbD 2
def w_ (w : Word) : Bool := w.getLsbD 3
def x (w : Word) : Bool := w.getLsbD 4
def tgt (w : Word) : Nat := bitsOf w.toNat 5 3
def ms (w : Word) : Bool := w.getLsbD 8
def sl (w : Word) : Bool := w.getLsbD 9
def spn (w : Word) : Bool := w.getLsbD 10
def lost (w : Word) : Bool := w.getLsbD 11
def resv (w : Word) : Nat := bitsOf w.toNat 12 2
/-- The physical address that FRAME gives, bits [54:14]. -/
def frame (w : Word) : Nat := bitsOf w.toNat 14 41 * 2 ^ 14
def node (w : Word) : Nat := bitsOf w.toNat 55 9

/-- R218: a page of n bytes at a physical address lies within the capacity of its target. -/
def inCapacity (tgt pa n : Nat) : Bool :=
  match tgt with
  | 0 => pa + n ≤ 2 ^ 39
  | 1 => pa + n ≤ 2 ^ 41
  | 2 => pa + n ≤ 2 ^ 52
  | 3 => pa + n ≤ 2 ^ 39 || (2 ^ 41 ≤ pa && pa + n ≤ 2 ^ 42)
  | 4 => pa + n ≤ 2 ^ 36
  | 5 => pa + n ≤ 192 * 2 ^ 22
  | _ => false

/-- R218: a leaf that maps a page of n bytes is well formed. -/
def leafOk (w : Word) (n : Nat) : Bool :=
  resv w == 0 && tgt w ≤ 5 && (!ms w || tgt w == 0) && (!sl w || tgt w == 0) && (!spn w || tgt w == 1) &&
  (!lost w || tgt w == 4) && (node w == 0 || tgt w == 3 || tgt w == 4) && frame w % n == 0 && inCapacity (tgt w) (frame w) n

/-- R217, R218: a table entry uses V and FRAME only, and names a table in T1. -/
def tableOk (w : Word) : Bool := bitsOf w.toNat 1 13 == 0 && node w == 0 && inCapacity 0 (frame w) (2 ^ 14)
end Pte

/-- A leaf as a walk finds it: the entry and the page it maps. -/
structure Leaf where
  pte : Word
  base : Nat
  size : Nat
  deriving DecidableEq, Repr, Inhabited

/-- FAIL of XLAT (R237): why a walk finds no leaf. -/
inductive WalkFail where
  | nonCanonical | invalid | malformed
  deriving DecidableEq, Repr, Inhabited

/-- The 8-byte table entry at a T1 physical address. -/
def State.readPte (s : State) (pa : Nat) : Word :=
  leWord ((List.range 8).map fun i => Cells.get 0 s.mem.ram (t1Key false (pa + i)))

/-- The page size of a leaf at a level (R216). -/
def levelSize : Nat → Nat
  | 0 => 2 ^ 14
  | 1 => 2 ^ 25
  | _ => 2 ^ 36

/-- Walk from a table at `pa` for level k and below (R216, R218). -/
def State.walkFrom (s : State) (va : Nat) : Nat → Nat → Except WalkFail Leaf
  | k, pa =>
    let sh := 14 + 11 * k
    let e := s.readPte (pa + 8 * bitsOf va sh (if k = 3 then 10 else 11))
    if !Pte.v e then .error .invalid
    else if Pte.leaf e then
      if k = 3 then .error .malformed
      else if Pte.leafOk e (levelSize k) then .ok ⟨e, va / levelSize k * levelSize k, levelSize k⟩
      else .error .malformed
    else
      match k with
      | 0 => .error .malformed
      | k' + 1 => if Pte.tableOk e then s.walkFrom va k' (Pte.frame e) else .error .malformed

def State.ctx (s : State) (c : Nat) : Ctx := s.ctxs.getD c Ctx.reset
def State.setCtx (s : State) (c : Nat) (f : Ctx → Ctx) : State := { s with ctxs := s.ctxs.modify c f }

/-- The page size of a switch allocation of a requested size (R323). -/
def switchPage (size : Nat) : Nat := if size < 2 ^ 25 then 2 ^ 14 else 2 ^ 25

/-- The leaf that the hub's switch allocator keeps for a page of an allocation (R322, R323). -/
def Alloc.leaf (a : Alloc) (va : Nat) : Leaf :=
  let n := a.page
  let base := va / n * n
  let node := a.plane % 16 + (match a.partner with | some p => 16 + p % 16 * 32 | none => 0)
  ⟨BitVec.ofNat 64 (0xF + 4 * 2 ^ 5 + (if a.lost then 2 ^ 11 else 0) + (a.pa + (base - a.base)) + node * 2 ^ 55), base, n⟩

/-- A virtual address lies in a context's switch window. -/
def Ctx.inWindow (x : Ctx) (va : Nat) : Bool := x.swwinB ≤ va && va < x.swwinB + x.swwinS

/-- The walk of a context's tables as they stand; those of its switch window are the hub's (R322). -/
def State.walkNow (s : State) (c va : Nat) : Except WalkFail Leaf :=
  if va ≥ 2 ^ 57 then .error .nonCanonical
  else if (s.ctx c).inWindow va then
    match s.fabric.allocs.find? (fun a => a.ctx == c && a.freeing.isNone && a.base ≤ va && va < a.base + a.size) with
    | some a => .ok (a.leaf va)
    | none => .error .invalid
  else if !(s.ctx c).ptroot.getLsbD 0 then .error .invalid
  else if !Pte.inCapacity 0 (Pte.frame (s.ctx c).ptroot) (2 ^ 14) then .error .malformed
  else s.walkFrom va 3 (Pte.frame (s.ctx c).ptroot)

/-- A translation (R220): a remembered leaf that the tables no longer give may still be used. -/
def State.walk (s : State) (c va : Nat) : Except WalkFail Leaf :=
  let now := s.walkNow c va
  if va ≥ 2 ^ 57 then now
  else
    match s.mem.tlb.find? (fun t => t.ctx == c && t.base ≤ va && va < t.base + t.size) with
    | none => now
    | some t =>
      let old : Leaf := ⟨t.pte, t.base, t.size⟩
      let same := match now with | .ok l => l == old | .error _ => false
      if same then now else if Config.useStale s.fresh then .ok old else now

/-- Remember the leaf that serves an access. -/
def State.remember (s : State) (c va : Nat) : State :=
  match s.walk c va with
  | .ok l =>
    if s.mem.tlb.any (fun t => t.ctx == c && t.base ≤ va && va < t.base + t.size) then s
    else { s with mem := { s.mem with tlb := { ctx := c, base := l.base, size := l.size, pte := l.pte } :: s.mem.tlb } }
  | .error _ => s

/-- DETAIL of a PAGEF (R216, R218, R380). -/
def WalkFail.detail : WalkFail → Nat
  | .nonCanonical => 1
  | .invalid => 0
  | .malformed => 2

/-! ## Physical accesses -/

/-- Where an access lands: the leaf that maps it, its physical address, and the number of its virtual page, by which a request to a
peer chooses its plane (R328, log entry 55). -/
structure Phys where
  pte : Word
  pa : Nat
  page : Nat
  deriving DecidableEq, Repr, Inhabited

/-- The virtual address of an access. -/
def Phys.va (p : Phys) : Nat := p.page * 2 ^ 14 + p.pa % 2 ^ 14

def Leaf.phys (l : Leaf) (va : Nat) : Phys := ⟨l.pte, Pte.frame l.pte + (va - l.base), va / 2 ^ 14⟩

def State.phys? (s : State) (c va : Nat) : Except WalkFail Phys :=
  match s.walk c va with
  | .ok l => .ok (l.phys va)
  | .error f => .error f

/-- Switch memory that no live link of this module serves (R218, R326, R352): the page is LOST, or its plane's link is dead and no
partner stands in. -/
def State.lostPage (s : State) (pte : Word) : Bool :=
  let dead (k : Nat) : Bool := (s.fabric.ports.getD k .reset).dead
  let n := Pte.node pte
  Pte.lost pte || (Pte.tgt pte == 4 && dead (n % 16) && (n / 16 % 2 == 0 || dead (n / 32)))

def State.span? (s : State) (n : Nat) : Option Span := s.spans.find? (fun p => p.num == n)
def Span.fresh (n : Nat) : Span := { num := n, st := .absent, frame := none, cap := 256, pol := 0, seq := 1, cocoon := [], refetch := false }
def State.span (s : State) (n : Nat) : Span := (s.span? n).getD (Span.fresh n)
def State.setSpan (s : State) (p : Span) : State :=
  { s with spans := p :: s.spans.filter (fun q => q.num != p.num) }

/-- The span that holds a T2 byte (R303). -/
def spanOf (pa : Nat) : Nat := pa / 2 ^ 16

/-- A span has a T1 copy: an EVICTING one keeps it until it is ABSENT (R304, R314). -/
def SpanState.copied : SpanState → Bool
  | .resident | .evicting => true
  | .absent | .fetching => false

/-- The access reaches a span that has no T1 copy (R304). -/
def State.inAbsentSpan (s : State) (p : Phys) : Bool :=
  Pte.tgt p.pte == 1 && Pte.spn p.pte && !(s.span (spanOf p.pa)).st.copied

/-- What a physical address of a PEER page reaches at its module: the target there and the address in it (R217, R218). -/
def selfTarget (pa : Nat) : Nat × Nat := if pa < 2 ^ 39 then (0, pa) else (1, pa - 2 ^ 41)

/-- The key of a byte of T2 that an access to a page with SPN reaches: in its span's copy, where it has one (R303 to R305). -/
def State.copyKey (s : State) (pa : Nat) : Nat :=
  match (s.span (spanOf pa)).frame with
  | some f => t1Key false (f + pa % 2 ^ 16)
  | none => t2Key pa

/-- The key of byte i of an access; OPM bytes have none and are resolved apart. What cannot be made to wait for an EVICTING span
reaches its copy, whose bytes T2 then takes (log entry 56). -/
def State.keyOf (s : State) (p : Phys) (i : Nat) : Nat :=
  let pa := p.pa + i
  match Pte.tgt p.pte with
  | 0 => t1Key (Pte.sl p.pte) pa
  | 1 => if Pte.spn p.pte then s.copyKey pa else t2Key pa
  | 2 => hostKey pa
  | 3 =>
    let dev := Pte.node p.pte
    if dev = s.fabric.devno.toNat then (if pa < 2 ^ 39 then t1Key false pa else t2Key (pa - 2 ^ 41)) else peerKey dev pa
  | _ => switchKey (Pte.node p.pte % 16) pa

/-- The HBM controllers that serve a range of T1 (R401): those of the stacks that hold its bytes (R219). -/
def t1Units (sl : Bool) (pa n : Nat) : List Nat :=
  if sl then (List.range 8).filter fun k => pa / 2 ^ 36 ≤ k && k ≤ (pa + n - 1) / 2 ^ 36
  else ((List.range (min ((pa % 2 ^ 10 + n - 1) / 2 ^ 10 + 1) 1024)).map fun i => stackOf (t1Key false (pa + 2 ^ 10 * i))).eraseDups

/-- A range of T1 reaches into the span, span-cache or chrysalis region of a context (R305, R401). -/
def State.reserved (s : State) (pa n : Nat) : Bool :=
  s.ctxs.any fun x => [(x.spanB, x.spanS), (x.scacheB, x.scacheS), (x.chrysB, x.chrysS)].any fun r =>
    r.2 != 0 && pa < r.1 + r.2 && r.1 < pa + n

/-- What a window grants to a master. -/
def windowGrants (w : AccWindow) (m : Master) (peer : Nat) (write : Bool) : Bool :=
  match m with
  | .core => if write then w.coreW else w.coreR
  | .copy => if write then w.copyW else w.copyR
  | .peer => (if write then w.peerW else w.peerR) && w.peers.contains peer
  | .host => if write then w.hostW else w.hostR

/-- At each controller that serves a range of a target some window admits the master; `of_` picks the windows that count. -/
def State.inTables (s : State) (of_ : AccWindow → Bool) (m : Master) (peer tgt : Nat) (sl : Bool) (pa n : Nat) (write : Bool) : Bool :=
  (if tgt = 0 then t1Units sl pa n else [0]).all fun u => s.fw.windows.any fun w =>
    w.tgt.toNat == tgt && (w.unit == none || w.unit == some u) && of_ w && w.base ≤ pa && pa + n ≤ w.base + w.size &&
    windowGrants w m peer write

/-- The access tables of the targets (R305, R329, R401): the windows of a context admit the master, and slices and copy engines are
kept out of the reserved regions of T1. A PEER request is checked at its peer, with the requesting module as master: that of a page
which names this module is checked here. -/
def State.admits (s : State) (m : Master) (peer c : Nat) (pte : Word) (pa n : Nat) (write : Bool) : Bool :=
  let tgt := Pte.tgt pte
  let free (t pa : Nat) : Bool := !(t == 0 && (m == .core || m == .copy) && s.reserved pa n)
  if tgt = 3 then
    let dev := s.fabric.devno.toNat
    let p := selfTarget pa
    Pte.node pte != dev || (free p.1 p.2 && s.inTables (fun _ => true) .peer dev p.1 false p.2 n write)
  else free tgt pa && s.inTables (fun w => w.ctx == c) m peer tgt (Pte.sl pte) pa n write

end Sys2Proof.Machine
end

