-- ==== Sys2Proof/Machine/Planes.lean ====
section
/-! DEFINITION. What an access must wait for: the plane that carries it to another module or to switch memory (R328, R352), a page
under migration (R283), or a span on its way out (R304). -/

namespace Sys2Proof.Machine

/-! ## Planes (R328) -/

def State.live (s : State) (p : Nat) : Bool := (s.fabric.ports.getD p .reset).up
def State.livePorts (s : State) : List Nat := (List.range 16).filter s.live

/-- The plane that carries a message to a module about a page: a fixed hash over the live ports in ascending order. -/
def State.planeFor (s : State) (dst : Nat) (page : Option Nat) : Option Nat :=
  s.livePorts[Config.planeHash dst (page.getD 0) % s.livePorts.length]?

/-- New requests for a destination and a page wait until those that were re-sent have been answered (R352). -/
def State.affected (s : State) (dst : Nat) (page : Option Nat) : Bool :=
  page.isSome && s.fabric.inFlight.any fun x => x.again && x.post.dst == dst && x.post.page == page

def State.route (s : State) (dst : Nat) (page : Option Nat) : Option Nat :=
  if s.affected dst page then none else s.planeFor dst page

/-- An access leaves the module: to another module's memory, or to a plane's banks. -/
def State.leaves (s : State) (p : Phys) : Bool :=
  (Pte.tgt p.pte == 3 && Pte.node p.pte != s.fabric.devno.toNat) || Pte.tgt p.pte == 4

/-- The partner plane of a DUP2 page (R266, R326). -/
def partnerOf (pte : Word) : Option Nat :=
  if Pte.tgt pte = 4 && Pte.node pte / 16 % 2 = 1 then some (Pte.node pte / 32 % 16) else none

/-- The planes that serve it now: of a PEER page the one that its module and its virtual page choose, of a SWITCH page its own, and
the partner of a DUP2 page. -/
def State.ways (s : State) (p : Phys) : List Nat :=
  if Pte.tgt p.pte = 3 then (s.route (Pte.node p.pte) (some p.page)).toList
  else (Pte.node p.pte % 16 :: (partnerOf p.pte).toList).filter s.live

/-- An access that leaves finds no plane now: it waits for one (R352, log entry 55). -/
def State.noWay (s : State) (p : Phys) : Bool := s.leaves p && (s.ways p).isEmpty

/-! ## Accesses that cannot go on now -/

/-- The number of the page of a target that an access reaches (R283). -/
def frozenPage (p : Phys) : Nat := (Pte.tgt p.pte * 2 ^ 60 + p.pa) / 2 ^ 14

/-- A span-managed access finds its span on its way out (R304). -/
def State.evicting (s : State) (p : Phys) : Bool :=
  Pte.tgt p.pte = 1 && Pte.spn p.pte && (s.span (spanOf p.pa)).st == .evicting

/-- An access cannot go on now: its page is under migration (R283), its span is on its way out (R304), or no plane serves it (R352). -/
def State.blocked (s : State) (p : Phys) : Bool := s.mem.frozen.contains (frozenPage p) || s.evicting p || s.noWay p

/-- An address in each virtual page that n bytes reach. -/
def vaPages (va n : Nat) : List Nat :=
  (List.range ((va + n - 1) / 2 ^ 14 + 1 - va / 2 ^ 14)).map fun i => if i = 0 then va else (va / 2 ^ 14 + i) * 2 ^ 14

/-- Reading n bytes of a context's virtual memory cannot go on now (R283, R304, R352). -/
def State.vaBlocked (s : State) (c va n : Nat) : Bool :=
  (vaPages va n).any fun a => match s.phys? c a with | .ok p => s.blocked p | .error _ => false

end Sys2Proof.Machine
end

