-- ==== Sys2Proof/Machine/Round.lean ====
section
/-! DEFINITION. Exact binary arithmetic: dyadic numbers, the float formats (R138, R139, R173), Round (R141), zeros and NaNs
(R142, R143), TwoSum and TwoProd (R146), Greedy and Emit (R162, R163), and the residue words (R183, R184). -/

namespace Sys2Proof.Machine

/-- The exact number m · 2^e. -/
structure Dy where
  m : Int
  e : Int
  deriving DecidableEq, Repr, Inhabited

namespace Dy

def ofInt (n : Int) : Dy := ⟨n, 0⟩
def zero : Dy := ⟨0, 0⟩

/-- m when the number is written with the exponent k ≤ e. -/
def at_ (x : Dy) (k : Int) : Int := x.m * (2 : Int) ^ (x.e - k).toNat

def add (x y : Dy) : Dy := let k := min x.e y.e; ⟨x.at_ k + y.at_ k, k⟩
def neg (x : Dy) : Dy := ⟨-x.m, x.e⟩
def sub (x y : Dy) : Dy := x.add y.neg
def mul (x y : Dy) : Dy := ⟨x.m * y.m, x.e + y.e⟩
def scale (x : Dy) (k : Int) : Dy := ⟨x.m, x.e + k⟩
def isZero (x : Dy) : Bool := x.m == 0
def isNeg (x : Dy) : Bool := decide (x.m < 0)
def lt (x y : Dy) : Bool := let k := min x.e y.e; decide (x.at_ k < y.at_ k)
def eq (x y : Dy) : Bool := let k := min x.e y.e; decide (x.at_ k = y.at_ k)
def abs (x : Dy) : Dy := ⟨x.m.natAbs, x.e⟩

/-- floor(log2 |x|) of a nonzero number. -/
def log2 (x : Dy) : Int := (Nat.log2 x.m.natAbs : Int) + x.e

end Dy

/-- A float format: precision p, emin, the patterns of the largest finite value, of infinity (if any) and of the canonical
NaN, and the width with the sign. -/
structure Fmt where
  p : Nat
  emin : Int
  maxPat : Nat
  inf : Option Nat
  nan : Nat
  width : Nat
  deriving DecidableEq, Repr, Inhabited

def Fmt.f32 : Fmt := ⟨24, -126, 0x7F7FFFFF, some 0x7F800000, 0x7FC00000, 32⟩
def Fmt.f16 : Fmt := ⟨11, -14, 0x7BFF, some 0x7C00, 0x7E00, 16⟩
def Fmt.bf16 : Fmt := ⟨8, -126, 0x7F7F, some 0x7F80, 0x7FC0, 16⟩
def Fmt.e5m2 : Fmt := ⟨3, -14, 0x7B, some 0x7C, 0x7E, 8⟩
def Fmt.e4m3 : Fmt := ⟨4, -6, 0x7E, none, 0x7F, 8⟩
def Fmt.e3m2 : Fmt := ⟨3, -2, 0x1F, none, 0, 6⟩
def Fmt.e2m3 : Fmt := ⟨4, 0, 0x1F, none, 0, 6⟩
def Fmt.e2m1 : Fmt := ⟨2, 0, 0x7, none, 0, 4⟩

/-- The format of a general float type. -/
def fmtOf : Ty → Fmt
  | .f16 => .f16
  | .bf16 => .bf16
  | _ => .f32

/-- A float datum. `fin` is nonzero and finite. -/
inductive FV where
  | nan (signalling : Bool)
  | inf (neg : Bool)
  | zero (neg : Bool)
  | fin (x : Dy)
  deriving DecidableEq, Repr, Inhabited

/-- Read a pattern (R138, R139, R173). -/
def Fmt.read (t : Fmt) (bits : Nat) : FV :=
  let half := 2 ^ (t.width - 1)
  let neg := bits / half % 2 == 1
  let pat := bits % half
  if pat = 0 then .zero neg
  else if pat > t.maxPat then
    match t.inf with
    | some i => if pat = i then .inf neg else .nan (pat < i + 2 ^ (t.p - 2))
    | none => .nan false
  else
    let h := 2 ^ (t.p - 1)
    let q := t.emin - t.p + 1
    let x : Dy := if pat < h then ⟨pat, q⟩ else ⟨(pat % h + h : Nat), q + (pat / h - 1 : Nat)⟩
    .fin (if neg then x.neg else x)

def Fmt.signed (t : Fmt) (neg : Bool) (pat : Nat) : Nat := if neg then 2 ^ (t.width - 1) + pat else pat

/-- x / 2^k rounded to an integer by m; the sign is given apart, x being a magnitude (R141). -/
def roundShift (m : Rnd) (neg : Bool) (x k : Nat) : Nat :=
  let d := 2 ^ k
  let q := x / d
  let r := x % d
  match m with
  | .rne => if 2 * r > d || (2 * r == d && q % 2 == 1) then q + 1 else q
  | .rtz => q
  | .rup => if r ≠ 0 && !neg then q + 1 else q
  | .rdn => if r ≠ 0 && neg then q + 1 else q

/-- |x| as a multiple of 2^k, rounded by m. -/
def roundAt (m : Rnd) (x : Dy) (k : Int) : Nat :=
  if k ≤ x.e then x.m.natAbs * 2 ^ (x.e - k).toNat else roundShift m (x.m < 0) x.m.natAbs (k - x.e).toNat

/-- The pattern that a mode overflows to (R141). -/
def Fmt.overflow (t : Fmt) (m : Rnd) (neg : Bool) : Nat :=
  let toInf := match m with | .rne => true | .rtz => false | .rup => !neg | .rdn => neg
  t.signed neg (if toInf then t.inf.getD t.nan else t.maxPat)

/-- What Round returns: the pattern, the value when finite, and the conditions it reports. -/
structure Rounded where
  bits : Nat
  val : Option Dy
  flags : Flags
  deriving DecidableEq, Repr, Inhabited

/-- Round(m, t, X) for an exact X other than zero (R141). -/
def Fmt.round (t : Fmt) (m : Rnd) (x : Dy) : Rounded :=
  let neg := x.isNeg
  let e := x.log2
  let lo := t.emin - t.p + 1
  let q := max e t.emin - t.p + 1
  let n := roundAt m x q
  let pat := n + (q - lo).toNat * 2 ^ (t.p - 1)
  if pat > t.maxPat then
    let bits := t.overflow m neg
    { bits, val := if bits % 2 ^ (t.width - 1) ≤ t.maxPat then
        (match t.read bits with | .fin v => some v | _ => none) else none, flags := Flags.of ||| Flags.nx }
  else
    let y : Dy := ⟨if neg then -(n : Int) else n, q⟩
    if y.eq x then { bits := t.signed neg pat, val := some y, flags := 0 }
    else
      let q' := e - t.p + 1
      let tiny := Dy.lt ⟨roundAt m x q', q'⟩ ⟨1, t.emin⟩
      { bits := t.signed neg pat, val := some y, flags := Flags.nx ||| Flags.when_ tiny Flags.uf }

/-- An operation's exact result: a NaN, an infinity, a signed zero or a nonzero number. -/
abbrev XR := FV

def FV.isNan : FV → Bool
  | .nan _ => true
  | _ => false
def FV.isSnan : FV → Bool
  | .nan s => s
  | _ => false
def FV.isInf : FV → Bool
  | .inf _ => true
  | _ => false
def FV.isZero : FV → Bool
  | .zero _ => true
  | _ => false
def FV.neg : FV → FV
  | .nan s => .nan s
  | .inf n => .inf !n
  | .zero n => .zero !n
  | .fin x => .fin x.neg
def FV.isNeg : FV → Bool
  | .nan _ => false
  | .inf n => n
  | .zero n => n
  | .fin x => x.isNeg
/-- The number of a finite datum. -/
def FV.dy : FV → Dy
  | .fin x => x
  | _ => .zero

/-- NV for an sNaN operand (R143). -/
def snanFlag (l : List FV) : Flags := Flags.when_ (l.any FV.isSnan) Flags.nv

/-- The sign of an exact zero sum of finite operands (R142). -/
def zeroSum (m : Rnd) (a b : FV) : FV :=
  if a.isZero && b.isZero && a.isNeg == b.isNeg then .zero a.isNeg else .zero (m == .rdn)

/-- a + b before rounding, with the flags that R143 sets. -/
def addX (m : Rnd) (a b : FV) : XR × Flags :=
  let f := snanFlag [a, b]
  if a.isNan || b.isNan then (.nan false, f)
  else match a, b with
    | .inf x, .inf y => if x == y then (.inf x, f) else (.nan false, f ||| Flags.nv)
    | .inf x, _ => (.inf x, f)
    | _, .inf y => (.inf y, f)
    | _, _ => let s := a.dy.add b.dy; (if s.isZero then zeroSum m a b else .fin s, f)

/-- a · b before rounding. -/
def mulX (a b : FV) : XR × Flags :=
  let f := snanFlag [a, b]
  let neg := a.isNeg != b.isNeg
  if a.isNan || b.isNan then (.nan false, f)
  else if (a.isInf && b.isZero) || (a.isZero && b.isInf) then (.nan false, f ||| Flags.nv)
  else if a.isInf || b.isInf then (.inf neg, f)
  else if a.isZero || b.isZero then (.zero neg, f)
  else (.fin (a.dy.mul b.dy), f)

/-- a · b + c before rounding; 0 · ∞ is invalid whatever c is (R143). -/
def fmaX (m : Rnd) (a b c : FV) : XR × Flags :=
  let f := snanFlag [a, b, c]
  let (p, fp) := mulX a b
  if p.isNan || c.isNan then (.nan false, f ||| fp)
  else let (x, fx) := addX m p c; (x, f ||| fp ||| fx)

/-- Round an exact result into a format (R147). -/
def Fmt.finish (t : Fmt) (m : Rnd) : XR → Nat × Flags
  | .nan _ => (t.nan, 0)
  | .inf n => (t.signed n (t.inf.getD t.nan), 0)
  | .zero n => (t.signed n 0, 0)
  | .fin x => let r := t.round m x; (r.bits, r.flags)

def Fmt.add (t : Fmt) (m : Rnd) (a b : Nat) : Nat × Flags :=
  let (x, f) := addX m (t.read a) (t.read b)
  let (r, g) := t.finish m x
  (r, f ||| g)

def Fmt.mul (t : Fmt) (m : Rnd) (a b : Nat) : Nat × Flags :=
  let (x, f) := mulX (t.read a) (t.read b)
  let (r, g) := t.finish m x
  (r, f ||| g)

/-- FFMA's four forms (R147); the negated ones negate the exact result, zeros included (R142). -/
def Fmt.fma (t : Fmt) (m : Rnd) (op : FmaOp) (a b c : Nat) : Nat × Flags :=
  let c' := t.read c
  let (x, f) := fmaX m (t.read a) (t.read b) (if op = .ms ∨ op = .nms then c'.neg else c')
  let (r, g) := t.finish m (if op = .nma ∨ op = .nms then x.neg else x)
  (r, f ||| g)

/-- −0 below +0 in the order of FMINMAX (R148). -/
def minLess (a b : FV) : Bool :=
  match a, b with
  | .inf n, .inf m => n && !m
  | .inf n, _ => n
  | _, .inf n => !n
  | .zero n, .zero m => n && !m
  | _, _ => a.dy.lt b.dy

/-- FMINMAX (R148): the result is an operand's own bits or the canonical NaN. -/
def Fmt.minMax (t : Fmt) (max num : Bool) (a b : Nat) : Nat × Flags :=
  let x := t.read a
  let y := t.read b
  let f := snanFlag [x, y]
  if x.isNan && y.isNan then (t.nan, f)
  else if x.isNan then (if num then b % 2 ^ t.width else t.nan, f)
  else if y.isNan then (if num then a % 2 ^ t.width else t.nan, f)
  else ((if (if max then minLess x y else minLess y x) then b else a) % 2 ^ t.width, f)

/-- The comparison of FCMP and XCMP (R149, R170) on values. -/
def cmpX (c : Cnd) (a b : FV) : Bool :=
  let u := a.isNan || b.isNan
  let lt := match a, b with
    | .inf n, .inf m => n && !m
    | .inf n, _ => n
    | _, .inf n => !n
    | _, _ => a.dy.lt b.dy
  let eq := match a, b with
    | .inf n, .inf m => n == m
    | .inf _, _ => false
    | _, .inf _ => false
    | _, _ => a.dy.eq b.dy
  match c with
  | .eq => !u && eq
  | .ne => u || !eq
  | .lt => !u && lt
  | .le => !u && (lt || eq)
  | .gt => !u && !lt && !eq
  | .ge => !u && !lt
  | .ord => !u
  | .uno => u

/-- NV of a comparison: any NaN in the ordered relations, an sNaN in the others (R149). -/
def cmpFlags (c : Cnd) (a b : FV) : Flags :=
  match c with
  | .lt | .le | .gt | .ge => Flags.when_ (a.isNan || b.isNan) Flags.nv
  | _ => snanFlag [a, b]

/-- RoundNE of an exact number, zero included: its pattern, its value (none for an infinity) and UF (R146). -/
def Fmt.rne (t : Fmt) (x : Dy) : Nat × Option Dy × Flags :=
  if x.isZero then (0, some .zero, 0) else let r := t.round .rne x; (r.bits, r.val, r.flags)

/-- Greedy (R162): the words, what is left of X, whether word 0 overflowed, and the conditions that Round reported. -/
def Fmt.greedy (t : Fmt) : Nat → Dy → List Nat × Dy × Bool × Flags
  | 0, x => ([], x, false, 0)
  | n + 1, x =>
    let (bits, val, f) := t.rne x
    match val with
    | none => (bits :: List.replicate n 0, .zero, true, f)
    | some v => let (ws, rest, ov, g) := t.greedy n (x.sub v); (bits :: ws, rest, ov, f ||| g)

/-- Emit (R163): m words of type t for the exact result v, and the flags. A zero v carries the sign z. -/
def Fmt.emit (t : Fmt) (m : Nat) : XR → List Nat × Flags
  | .nan _ => (List.replicate m t.nan, 0)
  | .inf n => (t.signed n (t.inf.getD t.nan) :: List.replicate (m - 1) 0, 0)
  | .zero n => (t.signed n 0 :: List.replicate (m - 1) 0, 0)
  | .fin x =>
    let (ws, rest, ov, f) := t.greedy m x
    if ov then (ws, Flags.of ||| Flags.nx ||| Flags.el)
    else if rest.isZero then (ws, 0)
    else (ws, Flags.nx ||| Flags.el ||| (f &&& Flags.uf))

/-- Value and Sgn of an expansion (R161), a zero carrying the sign, with its flags. -/
def Fmt.value (t : Fmt) (ws : List Nat) : FV × Flags :=
  let l := ws.map t.read
  let f := snanFlag l
  if l.any FV.isNan then (.nan false, f)
  else if l.any (fun x => x.isInf && x.isNeg) && l.any (fun x => x.isInf && !x.isNeg) then (.nan false, Flags.nv)
  else match l.find? FV.isInf with
    | some i => (i, 0)
    | none =>
      let s := l.foldl (fun acc x => acc.add x.dy) Dy.zero
      (if s.isZero then .zero (l.all (fun x => x.isZero && x.isNeg)) else .fin s, 0)

/-- The two words of ATOMC, of the FP path and of FP-pair mode: hi + v with its error joined to lo (R203, R272, R343).
The flags tell what R343 asks: NX for an inexact rounding of lo, OF for an infinite hi, NV for an invalid sum. -/
def pairAdd (hi lo v : Nat) : Nat × Nat × Flags :=
  let t := Fmt.f32
  let h := t.read hi
  let x := t.read v
  let fin := fun (a : FV) => !a.isNan && !a.isInf
  if fin h && fin x then
    let (s, f) := addX .rne h x
    let (bits, _) := t.finish .rne s
    match t.read bits with
    | .inf _ => (bits, 0, f ||| Flags.of)
    | r =>
      let e := (h.dy.add x.dy).sub r.dy
      let l := t.read lo
      let (lv, fl) := addX .rne l (if e.isZero then .zero false else .fin e)
      let (lbits, g) := t.finish .rne lv
      (bits, lbits, f ||| fl ||| g)
  else
    let (s, f) := addX .rne h x
    let (bits, _) := t.finish .rne s
    (bits, 0, f)

/-! ## Residue words -/

def resM : Nat := 4288677888
/-- The largest |sum| that a residue word represents (R187). -/
def resMax : Nat := 2144338943

/-- Res(n) (R184). -/
def resOf (n : Int) : LWord :=
  BitVec.ofNat 32 ((n % 1023).toNat * 2 ^ 22 + (n % 2047).toNat * 2 ^ 11 + (n % 2048).toNat)

/-- Crt(w) (R184). -/
def crt (w : LWord) : Int :=
  let ra := bitsOf w.toNat 0 11
  let rb := bitsOf w.toNat 11 11 % 2047
  let rc := bitsOf w.toNat 22 10 % 1023
  let t2 := (((rb : Int) - ra) % 2047).toNat
  let t3 := ((((rc : Int) - ra - 2 * t2) * 512) % 1023).toNat
  let x := ra + 2048 * t2 + 4192256 * t3
  if 2 * x ≥ resM then (x : Int) - resM else x

/-- The sum of two residue words, channel by channel (R342). -/
def resJoin (w v : LWord) : LWord :=
  let ch (lo n m : Nat) : Nat := (bitsOf w.toNat lo n + bitsOf v.toNat lo n) % m
  BitVec.ofNat 32 (ch 22 10 1023 * 2 ^ 22 + ch 11 11 2047 * 2 ^ 11 + ch 0 11 2048)

/-- Add a product to each channel of a residue word (R187, R202). -/
def resAdd (w : LWord) (n : Int) : LWord :=
  let ra := ((bitsOf w.toNat 0 11 : Int) + n) % 2048
  let rb := ((bitsOf w.toNat 11 11 : Int) + n) % 2047
  let rc := ((bitsOf w.toNat 22 10 : Int) + n) % 1023
  BitVec.ofNat 32 (rc.toNat * 2 ^ 22 + rb.toNat * 2 ^ 11 + ra.toNat)

end Sys2Proof.Machine
end

