-- ==== Sys2Proof/Machine/Mem.lean ====
section
/-! DEFINITION. Memory: the bytes every agent agrees on (R241), the banks behind dirty or stale lines (R235, R297), held
stores and their publication (R243, R244), logical time (R242), and cocoons (R306 to R313). -/

namespace Sys2Proof.Machine

/-! ## Lines and banks -/

def lineOf (key : Nat) : Nat := key / 128
def isT1 (key : Nat) : Bool := key < 2 ^ 60
/-- A byte of T1 or T2, whose lines the caches hold (R291, R303). -/
def isCached (key : Nat) : Bool := key < 2 * 2 ^ 60

def Memory.line? (m : Memory) (l : Nat) : Option Line := m.lines.find? (fun x => x.line == l)

def Memory.setLine (m : Memory) (x : Line) : Memory :=
  { m with lines := x :: m.lines.filter (fun y => y.line != x.line) }

/-- The byte that every load sees once nothing narrower is held (R241). -/
def Memory.peek (m : Memory) (key : Nat) : Byte := Cells.get 0 m.ram key

/-- The byte at its home memory: of T1, at the stack (R297). -/
def Memory.bankPeek (m : Memory) (key : Nat) : Byte := (Cells.find? m.bank key).getD (m.peek key)

/-- The home memory's own byte of a line that a cache holds; one that is what every load sees is not listed. -/
def Memory.setBank (m : Memory) (key : Nat) (b : Byte) : Memory :=
  { m with bank := if m.peek key = b then Cells.del m.bank key else Cells.put m.bank key b }

/-- Write a byte that the caches and the stack then agree on. -/
def Memory.through (m : Memory) (key : Nat) (b : Byte) : Memory :=
  { m with ram := Cells.set 0 m.ram key b, bank := Cells.del m.bank key, poison := m.poison.filter (fun k => k != key) }

/-- A dirty copy of a line is written to its home memory; the copy stays (R235). -/
def Memory.clean (m : Memory) (l : Nat) : Memory :=
  match m.line? l with
  | some x =>
    if x.dirty then { m.setLine { x with dirty := false } with bank := m.bank.filter (fun c => lineOf c.1 != l) } else m
  | none => m

/-- A line is dirty in another cache than this. -/
def Memory.dirtyBeside (m : Memory) (at_ : CachePlace) (l : Nat) : Bool :=
  match m.line? l with | some x => x.dirty && x.place != at_ | none => false

/-- A cache takes a line to write it: what another holds dirty is written to its home memory on the way (log entry 25). -/
def Memory.take (m : Memory) (at_ : CachePlace) (l : Nat) : Memory := if m.dirtyBeside at_ l then m.clean l else m

/-- Write a byte in the package order at a cache: a line of T1 or T2 becomes dirty there, and its home keeps what it had (R228, R235).
Older held stores to the byte are behind this one in the package order. -/
def Memory.pokeAt (m : Memory) (at_ : CachePlace) (key : Nat) (b : Byte) : Memory :=
  if isCached key then
    let n := m.take at_ (lineOf key)
    (({ n.through key b with held := n.held.filter (fun h => h.key != key) } : Memory).setLine
      { line := lineOf key, dirty := true, place := at_ }).setBank key (n.bankPeek key)
  else { m.through key b with held := m.held.filter (fun h => h.key != key) }

/-- A unit that is no slice writes a byte in the package order, at the line's home. -/
def Memory.poke (m : Memory) (key : Nat) (b : Byte) : Memory := m.pokeAt .home key b

/-- Write a byte at the stack: what a cache holds of the line stays (R228, R297). -/
def Memory.bankPoke (m : Memory) (key : Nat) (b : Byte) : Memory :=
  if isCached key && (m.line? (lineOf key)).isSome then m.setBank key b else m.through key b

/-- A slice writes a byte in the package order at a cache. A non-temporal store allocates no line (R230). -/
def Memory.store (m : Memory) (nt : Bool) (at_ : CachePlace) (key : Nat) (b : Byte) : Memory :=
  if nt && (m.line? (lineOf key)).isNone then { m.through key b with held := m.held.filter (fun h => h.key != key) }
  else m.pokeAt at_ key b

/-- Every copy of a line is discarded: what the bank holds is seen again (R235). -/
def Memory.inval (m : Memory) (l : Nat) : Memory :=
  { m with
    ram := (m.bank.filter (fun c => lineOf c.1 == l)).foldl (fun r c => Cells.set 0 r c.1 c.2) m.ram
    bank := m.bank.filter (fun c => lineOf c.1 != l)
    lines := m.lines.filter (fun x => x.line != l) }

/-- Eviction: a dirty line is written back, a clean one dropped. -/
def Memory.evict (m : Memory) (l : Nat) : Memory := (m.clean l).inval l

/-- A load brings a line of T1 or T2 into the caches unless it is non-temporal (R230). -/
def Memory.touch (m : Memory) (key : Nat) : Memory :=
  if isCached key && (m.line? (lineOf key)).isNone then
    m.setLine { line := lineOf key, dirty := false, place := .home }
  else m

/-! ## Held stores -/

/-- A slice as an observer of held stores: its launch, its number there and the launch's record. -/
structure Observer where
  launch : Nat
  gnum : Nat
  lr : LaunchRec
  deriving DecidableEq, Repr, Inhabited

/-- The observer is inside the scope that the store names (R243). -/
def HeldByte.sees (h : HeldByte) (o : Observer) : Bool := h.launch == o.launch && o.lr.partOf h.level o.gnum == h.idx

/-- A byte as an observer reads it: the newest held store it is inside the scope of, else the published value. -/
def Memory.readAs (m : Memory) (o : Option Observer) (key : Nat) : Byte :=
  match o with
  | none => m.peek key
  | some o =>
    match m.held.find? (fun h => h.key == key && h.sees o) with
    | some h => h.val
    | none => m.peek key

/-- Publish the held bytes that `p` chooses, oldest first; a byte held later than one that is published stays. -/
def Memory.publish (m : Memory) (p : HeldByte → Bool) : Memory :=
  m.held.foldr (fun h m => if p h then m.store h.nt h.place h.key h.val else { m with held := h :: m.held }) { m with held := [] }

/-- Publish every store of a slice up to one sequence number: publication is cumulative (R244). -/
def Memory.publishUpTo (m : Memory) (blk sl seq : Nat) : Memory :=
  m.publish (fun h => h.block == blk && h.slice == sl && h.seq ≤ seq)

/-- Publish every held store of a slice (R244). -/
def Memory.publishSlice (m : Memory) (blk sl : Nat) : Memory :=
  m.publish (fun h => h.block == blk && h.slice == sl)

/-- Publish the slice's held stores of a scope narrower than level k, and the stores before them: publication is cumulative
(R244). -/
def Memory.publishBelow (m : Memory) (blk sl k : Nat) : Memory :=
  m.publishUpTo blk sl
    (((m.held.filter (fun h => h.block == blk && h.slice == sl && h.level < k)).map (fun h => h.seq)).foldl max 0)

/-- The stores on a line that an observer outside their scope must have published, each with its predecessors (R244). -/
def Memory.publishLine (m : Memory) (o : Option Observer) (line : Nat) : Memory :=
  (m.held.filter (fun h => lineOf h.key == line && !(match o with | some o => h.sees o | none => false))).foldl
    (fun m h => m.publishUpTo h.block h.slice h.seq) m

/-- Hold a byte of a store at its scope's publication point (R243), behind the bytes that are held already. -/
def Memory.hold (m : Memory) (h : HeldByte) : Memory := { m with held := h :: m.held }

/-! ## Logical time (R242) -/

/-- A line's write time and lease; they are kept whatever the caches do with the line. -/
def Memory.time (m : Memory) (line : Nat) : LineTime :=
  (m.times.find? (fun x => x.line == line)).getD { line, wt := 0, lease := 0 }

def Memory.setTime (m : Memory) (x : LineTime) : Memory := { m with times := x :: m.times.filter (fun y => y.line != x.line) }

/-- A load at timestamp ts: the slice moves on to the line's write time, and the lease reaches as far. -/
def Memory.loadTime (m : Memory) (key ts : Nat) : Memory × Nat :=
  let x := m.time (lineOf key)
  let t := max ts x.wt
  (m.setTime { x with lease := max x.lease t }, t)

/-- A store at timestamp ts: the slice moves past the lease, and write time and lease are that time. -/
def Memory.storeTime (m : Memory) (key ts : Nat) : Memory × Nat :=
  let x := m.time (lineOf key)
  let t := max ts (x.lease + 1)
  (m.setTime { x with wt := t, lease := t }, t)

/-! ## Plain ranges of keys -/

def Memory.pokeMany (m : Memory) (ws : List (Nat × Byte)) : Memory := ws.foldl (fun m w => m.poke w.1 w.2) m

/-! ## Read-modify-write values (R270, R307) -/

/-- The value an atomic leaves (R270): w bits, signedness by the type. -/
def atomNew (ty : Ty) (op : AtomOp) (m b c : Nat) : Nat :=
  let w := ty.width
  match op with
  | .add => if ty == .f32 then (Fmt.f32.add .rne m b).1 else (m + b) % 2 ^ w
  | .min =>
    if ty == .f32 then (Fmt.f32.minMax false true m b).1
    else if readInt ty.isSigned w b < readInt ty.isSigned w m then b else m
  | .max =>
    if ty == .f32 then (Fmt.f32.minMax true true m b).1
    else if readInt ty.isSigned w m < readInt ty.isSigned w b then b else m
  | .and => m &&& b
  | .or => m ||| b
  | .xor => m ^^^ b
  | .xchg => b
  | .cas => if m = b then c else m

/-! ## Cocoons -/

/-- The operation of a cocoon entry (R307) as an atomic on its bytes; ST replaces them. -/
def cocoonApply (op size m d : Nat) : Nat :=
  let s := if size = 8 then Ty.i64 else .i32
  let n := if size = 8 then Ty.n64 else .n32
  match op with
  | 0x1 => d % 2 ^ (8 * size)
  | 0x2 => (m + d) % 2 ^ (8 * size)
  | 0x3 => atomNew s .min m d 0
  | 0x4 => atomNew s .max m d 0
  | 0x5 => atomNew n .min m d 0
  | 0x6 => atomNew n .max m d 0
  | 0x7 => m &&& d
  | 0x8 => m ||| d
  | 0x9 => atomNew .f32 .add m d 0
  | 0xA => atomNew .f32 .min m d 0
  | 0xB => atomNew .f32 .max m d 0
  | _ =>
    let (hi, lo, _) := pairAdd (m % 2 ^ 32) (m / 2 ^ 32) (d % 2 ^ 32)
    hi + lo * 2 ^ 32

def CocoonEntry.bytes (e : CocoonEntry) : Nat := 2 ^ e.sz

/-- Apply an entry to the bytes of its span. -/
def CocoonEntry.apply (e : CocoonEntry) (b : Cells Byte) : Cells Byte :=
  let m := leNat (Cells.bytes b e.off e.bytes)
  Cells.putBytes b e.off (leBytes e.bytes (cocoonApply e.op e.bytes m (e.data.toNat % 2 ^ (8 * e.bytes))))

def CocoonEntry.touches (e f : CocoonEntry) : Bool := e.off < f.off + f.bytes && f.off < e.off + e.bytes
def CocoonEntry.covers (e f : CocoonEntry) : Bool := e.off ≤ f.off && f.off + f.bytes ≤ e.off + e.bytes

/-- What the pair i, j of R310 becomes: none when no rule applies; some none when i goes and j stays as it is. -/
def compactPair (fpmerge : Bool) (i j : CocoonEntry) : Option (Option CocoonEntry) :=
  if j.op = 1 && j.covers i then some none
  else if i.op = 1 && i.covers j then
    let b := j.apply (Cells.putBytes [] i.off (leBytes i.bytes i.data.toNat))
    some (some { i with data := leWord (Cells.bytes b i.off i.bytes), seq := j.seq, det := j.det })
  else if i.op = j.op && i.off = j.off && i.sz = j.sz then
    if (2 ≤ i.op && i.op ≤ 8) || i.op = 0xA || i.op = 0xB then
      some (some { j with data := BitVec.ofNat 64 (cocoonApply i.op i.bytes (i.data.toNat % 2 ^ (8 * i.bytes))
        (j.data.toNat % 2 ^ (8 * j.bytes))) })
    else if i.op = 9 && fpmerge && !i.det && !j.det then
      some (some { j with data := BitVec.ofNat 64 (cocoonApply 9 4 (i.data.toNat % 2 ^ 32) (j.data.toNat % 2 ^ 32)) })
    else none
  else none

/-- Find for j, going back through the earlier entries (newest first), the nearest i to which a rule applies; entries passed
over must touch no byte of i or of j. Answers the earlier entries without i, and what j becomes. -/
def compactBack (fp : Bool) (j : CocoonEntry) : List CocoonEntry → List CocoonEntry → Option (List CocoonEntry × CocoonEntry)
  | _, [] => none
  | passed, i :: rest =>
    match if passed.any (fun k => k.touches i || k.touches j) then none else compactPair fp i j with
    | some r => some (passed.reverse ++ rest, r.getD j)
    | none => compactBack fp j (i :: passed) rest

/-- One pass over the entries in ascending SEQ; `done_` holds those passed, newest first. -/
def compactPass (fp : Bool) : List CocoonEntry → List CocoonEntry → List CocoonEntry
  | done_, [] => done_.reverse
  | done_, j :: rest =>
    match compactBack fp j [] done_ with
    | some (d, j') => compactPass fp (j' :: d) rest
    | none => compactPass fp (j :: done_) rest

/-- Passes until one changes nothing (R310): each that changes something removes an entry. -/
def compactAll (fp : Bool) : Nat → List CocoonEntry → List CocoonEntry
  | 0, l => l
  | n + 1, l => let l' := compactPass fp [] l; if l'.length = l.length then l else compactAll fp n l'

def Span.fpmerge (p : Span) : Bool := p.pol.getLsbD 0
def Span.compact (p : Span) : Span := { p with cocoon := compactAll p.fpmerge p.cocoon.length p.cocoon }

/-- 3·CAP/4 entries, rounded up (R310). -/
def Span.threshold (p : Span) : Nat := (3 * p.cap + 3) / 4

/-- A compaction, with the fetch that FETCHP 0b10 asks for where it leaves the threshold or more (R310, R315). -/
def Span.compacted (p : Span) : Span :=
  let q := p.compact
  if q.st == .absent && bitsOf q.pol.toNat 1 2 == 2 && q.cocoon.length ≥ q.threshold then { q with st := .fetching } else q

/-- Append one entry (R308), compacting before when full and after at the threshold (R310). -/
def Span.append (p : Span) (e : CocoonEntry) : Span :=
  let p := if p.cocoon.length ≥ p.cap then p.compacted else p
  let p := { p with cocoon := p.cocoon ++ [{ e with seq := p.seq }], seq := p.seq + 1 }
  if p.cocoon.length ≥ p.threshold then p.compacted else p

/-- A 128-byte line of T2 as a read-through sees it (R309). -/
def State.readThrough (s : State) (pa : Nat) (n : Nat) : List Byte :=
  let p := s.span (spanOf pa)
  let base := pa / 128 * 128
  let off := base % 2 ^ 16
  let line : Cells Byte := Cells.putBytes [] off ((List.range 128).map fun i => s.mem.peek (t2Key (base + i)))
  let applied := (p.cocoon.filter (fun e => e.off < off + 128 && off < e.off + e.bytes)).foldl (fun b e => e.apply b) line
  Cells.bytes applied (pa % 2 ^ 16) n

end Sys2Proof.Machine
end

