-- ==== Sys2Proof/Machine/Ops.lean ====
section
/-! DEFINITION. The operations every instruction shares: the gang that issues, control flow (R92 to R96, R107, R108), regions
and re-execution (R382, R384), taking an exception (R381, R386, R389 to R391), and retiring (R97, R255, R256). -/

namespace Sys2Proof.Machine

/-! ## Finding and updating -/

/-- The blocks saved into chrysalis images. -/
def State.images (s : State) : List Block := s.launches.flatMap fun l => l.waiting.flatMap fun w => w.saved

/-- A block, resident or in its image: what goes on for a saved block lands there (R339, R347, R393). -/
def State.block? (s : State) (uid : Nat) : Option Block :=
  match s.blocks.find? (fun b => b.uid == uid) with
  | some b => some b
  | none => s.images.find? (fun b => b.uid == uid)
def State.modBlock (s : State) (uid : Nat) (f : Block → Block) : State :=
  let g (b : Block) : Block := if b.uid == uid then f b else b
  if s.blocks.any (fun b => b.uid == uid) then { s with blocks := s.blocks.map g }
  else { s with launches := s.launches.map fun l =>
    { l with waiting := l.waiting.map fun w => { w with saved := w.saved.map g } } }
def State.launch? (s : State) (id : Nat) : Option Launch := s.launches.find? (fun l => l.id == id)
def State.modLaunch (s : State) (id : Nat) (f : Launch → Launch) : State :=
  { s with launches := s.launches.map (fun l => if l.id == id then f l else l) }

def Block.slice? (b : Block) (n : Nat) : Option Slice := b.slices.find? (fun x => x.num == n)
def Block.modSlice (b : Block) (n : Nat) (f : Slice → Slice) : Block :=
  { b with slices := b.slices.map (fun x => if x.num == n then f x else x) }
def Block.modShare (b : Block) (n : Nat) (f : Share → Share) : Block := { b with shares := b.shares.modify n f }
def Share.reset : Share :=
  { core := 0, slot := 0, scratch := [], tiles := [], book := [], bookTag := false, objs := List.replicate 8 .reset
    tls := List.replicate 8 .reset, paths := List.replicate 6 [] }
def Block.share (b : Block) (n : Nat) : Share := b.shares.getD n Share.reset

def State.modSlice (s : State) (uid n : Nat) (f : Slice → Slice) : State := s.modBlock uid (fun b => b.modSlice n f)
def State.modShare (s : State) (uid n : Nat) (f : Share → Share) : State := s.modBlock uid (fun b => b.modShare n f)

def State.lrOf (s : State) (b : Block) : LaunchRec :=
  match s.launch? b.launch with
  | some l => l.rcd
  | none => default

def State.envOf (s : State) (b : Block) (sl : Slice) : Env :=
  { lr := s.lrOf b, blk := b.num, core := (b.share sl.share).core, devno := s.fabric.devno }

def State.observer (s : State) (b : Block) (sl : Slice) : Observer :=
  { launch := b.launch, gnum := sl.gnum, lr := s.lrOf b }

/-- The slices of a gang that have not ended, in ascending order. -/
def Block.gangSlices (b : Block) (gang : Nat) : List Slice := b.slices.filter (fun x => x.gang == gang && !x.ended)

/-- The resident block and its slices that issue: those of the issuing gang, or the one whose serial operation is performed. -/
def State.issuing (s : State) : Option (Block × List Slice) :=
  match s.cur with
  | none => none
  | some c =>
    match s.blocks.find? (fun b => b.uid == c.block) with
    | none => none
    | some b => some (b, (b.gangSlices c.gang).filter (fun x => match c.only with | none => true | some n => x.num == n))

/-- A fresh number. -/
def State.newId (s : State) : Nat × State := (s.nextId, { s with nextId := s.nextId + 1 })

/-- The next value that the manual leaves open (log entry 3). -/
def State.free (s : State) : Word × State := (Config.freeWord s.fresh, { s with fresh := s.fresh + 1 })

/-! ## Headers (R33) -/

namespace Hdr
def isHeader (w : Word) : Bool := w.extractLsb' 57 7 == 0x7F
def len (w : Word) : Nat := bitsOf w.toNat 47 10
def live (w : Word) : Nat := let n := bitsOf w.toNat 39 8; if n = 0 then 256 else n
def rcv (w : Word) : BitVec 16 := w.extractLsb' 23 16
def pfo (w : Word) : BitVec 14 := w.extractLsb' 9 14
def pfk (w : Word) : Nat := bitsOf w.toNat 7 2
def idem (w : Word) : Bool := w.getLsbD 6
def loopb (w : Word) : Bool := w.getLsbD 5
/-- Check 2 of R57: LEN, the reserved bits, PFO against PFK, and LIVE against the launch's. -/
def ok (w : Word) (rlive : Nat) : Bool :=
  len w != 0 && bitsOf w.toNat 0 5 == 0 && (pfk w ≥ 2 || pfo w == 0) && live w ≤ (if rlive = 0 then 256 else rlive)
end Hdr

/-- A word offset from an address. -/
def VA.plus (a : VA) (n : Int) : VA := a + BitVec.ofInt 57 (8 * n)

/-- LIVE of the block a slice is in. -/
def Slice.live (sl : Slice) : Nat := match sl.hword with | some w => Hdr.live w | none => 256

/-- Bytes that an access reads: through the cocoon of an absent span (R309), else at their keys. -/
def State.readPhys (s : State) (o : Option Observer) (p : Phys) (n : Nat) : List Byte :=
  if s.inAbsentSpan p then s.readThrough p.pa n
  else (List.range n).map fun i => s.mem.readAs o (s.keyOf p i)

/-- A store in the cocoon of an absent span has replaced a byte of T2 (R309). -/
def State.replaced (s : State) (p : Phys) (i : Nat) : Bool :=
  s.inAbsentSpan p && (s.span (spanOf p.pa)).cocoon.any fun e =>
    e.op == 1 && e.off ≤ (p.pa + i) % 2 ^ 16 && (p.pa + i) % 2 ^ 16 < e.off + 2 ^ e.sz

/-- Poison among the bytes of an access (R226, R281). -/
def State.poisoned (s : State) (p : Phys) (n : Nat) : Bool :=
  (List.range n).any fun i => s.mem.poison.contains (s.keyOf p i) && !s.replaced p i

/-- Fetch a word (R39): translated, X granted, readable, on a page that is not lost. -/
def State.fetchWord (s : State) (c : Nat) (va : Nat) : Except Ev Word :=
  match s.phys? c va with
  | .error f => .error { Ev.pagef with detail := f.detail, addr := some (BitVec.ofNat 64 va) }
  | .ok p =>
    if !Pte.x p.pte then .error { Ev.perm with addr := some (BitVec.ofNat 64 va) }
    else if !s.admits .core 0 c p.pte p.pa 8 false then .error { Ev.perm with addr := some (BitVec.ofNat 64 va) }
    else if s.lostPage p.pte then .error { Ev.swlost with addr := some (BitVec.ofNat 64 va), unit_ := Pte.node p.pte % 16 }
    else if Pte.tgt p.pte = 3 && s.fabric.lostPeers.contains (Pte.node p.pte) then
      .error { Ev.peerlost with addr := some (BitVec.ofNat 64 va), unit_ := Pte.node p.pte }
    -- a page under migration is looked at when the fetch goes on (R283)
    else if !s.mem.frozen.contains (frozenPage p) && s.poisoned p 8 then .error { Ev.memue with addr := some (BitVec.ofNat 64 va) }
    else .ok (leWord (s.readPhys none p 8))

/-! ## Arrival, divergence and loops -/

def Slice.lpOf (sl : Slice) (k : Nat) : LoopReg := sl.lp.getD k LoopReg.idle
def Slice.setLp (sl : Slice) (k : Nat) (r : LoopReg) : Slice := { sl with lp := sl.lp.set k r }

/-- Stack entries at or below this depth are out of reach of Arrive (R94). -/
def Slice.floor_ (sl : Slice) : Nat := match sl.order with | k :: _ => (sl.lpOf k).depth | [] => 0

/-- Arrive (R94), over at most n pops. -/
def Slice.arriveN (sl : Slice) (h : VA) : Nat → Slice
  | 0 => { sl with pc := h, hword := none }
  | n + 1 =>
    match sl.rs with
    | e :: f :: rest =>
      if sl.rs.length > sl.floor_ then
        if e.pend && sl.rs.length > sl.floor_ + 1 && !f.pend && f.hdr ≠ 0 && f.hdr = h then
          { sl with rs := f :: rest, am := e.mask, fmt := e.fmt }.arriveN e.hdr n
        else if !e.pend && e.hdr ≠ 0 && e.hdr = h then
          { sl with rs := f :: rest, am := e.mask, fmt := e.fmt }.arriveN h n
        else { sl with pc := h, hword := none }
      else { sl with pc := h, hword := none }
    | [e] =>
      if sl.floor_ = 0 && !e.pend && e.hdr ≠ 0 && e.hdr = h then
        { sl with rs := [], am := e.mask, fmt := e.fmt }.arriveN h n
      else { sl with pc := h, hword := none }
    | [] => { sl with pc := h, hword := none }

def Slice.arrive (sl : Slice) (h : VA) : Slice := sl.arriveN h (sl.rs.length + 1)

/-- A loop level becomes inactive and leaves the start order (R91). -/
def Slice.endLoop (sl : Slice) (k : Nat) : Slice :=
  { sl.setLp k { sl.lpOf k with act := false } with order := sl.order.filter (fun j => j != k) }

/-- EmptyMask (R95), over at most n steps; `exit` gives LoopExit of an end header. -/
def Slice.emptyMaskN (exit : VA → VA) (sl : Slice) : Nat → Slice
  | 0 => { sl with ended := true, am := 0 }
  | n + 1 =>
    match sl.order with
    | k :: _ =>
      if sl.rs.length = (sl.lpOf k).depth then
        let r := sl.lpOf k
        let sl' := sl.endLoop k
        if r.brk ≠ 0 then { sl' with am := r.brk }.arrive (exit r.endh) else sl'.emptyMaskN exit n
      else
        match sl.rs with
        | [] => { sl with ended := true, am := 0 }
        | e :: rest =>
          let sl' := { sl with rs := rest }
          if e.mask ≠ 0 && (e.pend || e.hdr ≠ 0) then { sl' with am := e.mask, fmt := e.fmt }.arrive e.hdr
          else sl'.emptyMaskN exit n
    | [] =>
      match sl.rs with
      | [] => { sl with ended := true, am := 0 }
      | e :: rest =>
        let sl' := { sl with rs := rest }
        if e.mask ≠ 0 && (e.pend || e.hdr ≠ 0) then { sl' with am := e.mask, fmt := e.fmt }.arrive e.hdr
        else sl'.emptyMaskN exit n

/-- LoopExit of an end header: the word after its block (R107). EmptyMask needs the header's LEN (R95); the manual does not say what it
does where the header cannot be fetched any more, and the model then takes E + 8, without an event (log entry 51). -/
def State.loopExit (s : State) (c : Nat) (e : VA) : VA :=
  match s.fetchWord c e.toNat with
  | .ok w => VA.plus e (Hdr.len w)
  | .error _ => VA.plus e 1

def Slice.emptyMask (exit : VA → VA) (sl : Slice) : Slice := sl.emptyMaskN exit (sl.rs.length + sl.order.length + 1)

/-- The header at an address that a transfer names, or why the transfer faults (R92, R103). -/
def State.header (s : State) (c : Nat) (t : VA) : Except Ev Word :=
  match s.fetchWord c t.toNat with
  | .error e => .error e
  | .ok w => if Hdr.isHeader w then .ok w else .error { Ev.badtgt with check := 11 }

/-- Transfer (R92): T transfers to the target, the rest of AM waits behind it. `next` is the word after the instruction.
Answers the slice and whether it transferred. -/
def State.transfer (s : State) (c : Nat) (sl : Slice) (t : Mask) (target next : VA) : Except Ev (Slice × Bool) :=
  if t = 0 then .ok (sl, false)
  else
    match s.header c target with
    | .error e => .error (e.in_ sl t)
    | .ok _ =>
      if t = sl.am then .ok (sl.arrive target, true)
      else
        let off : BitVec 16 := match sl.hword with | some w => Hdr.rcv w | none => 0
        let rh : VA := if off = 0 then 0 else VA.plus sl.hdr off.toInt
        match if off = 0 then .ok 0 else s.header c rh with
        | .error e => .error (e.in_ sl t)
        | .ok _ =>
          if sl.rs.length + 2 > 32 then .error { (Ev.own.in_ sl t) with detail := 0x04 }
          else
            let join : RsEntry := { pend := false, mask := sl.am, hdr := rh, fmt := sl.fmt }
            let pend : RsEntry := { pend := true, mask := sl.am &&& ~~~ t, hdr := next, fmt := sl.fmt }
            .ok ({ sl with rs := pend :: join :: sl.rs, am := t }.arrive target, true)

/-- A word that can be fetched and is no header (R35). -/
def State.noHeader (s : State) (c : Nat) (t : VA) : Bool :=
  match s.fetchWord c t.toNat with
  | .ok w => !Hdr.isHeader w
  | .error _ => false

/-- The iteration end of R108 for each active level that ends with this block, the innermost first, then arrival at the next word.
`bad` tells of a back edge's target that it is no header any more: the transfer raises BADTGT (R35), under check 11 as other
transfers do (log entry 51). -/
def Slice.passEnd (sl : Slice) (bad : VA → Bool) (next : VA) : List Nat → Except Ev Slice
  | [] => .ok (sl.arrive next)
  | k :: ks =>
    let r := sl.lpOf k
    if r.act && r.endh == sl.hdr then
      if sl.rs.length > r.depth then .error (Ev.own.in_ sl sl.am)
      else if r.count.toNat > 1 then
        if bad r.start then .error ({ Ev.badtgt with check := 11 }.in_ sl sl.am)
        else .ok ((sl.setLp k { r with count := r.count - 1 }).arrive r.start)
      else ({ (sl.setLp k { r with count := 0 }).endLoop k with am := sl.am ||| r.brk }).passEnd bad next ks
    else sl.passEnd bad next ks

/-- The word after the block a slice is in. -/
def Slice.blockEnd (sl : Slice) : VA := match sl.hword with | some w => VA.plus sl.hdr (Hdr.len w) | none => sl.pc

/-- Go on to the word n words ahead, passing the end of the block where it lies there (R35, R108). -/
def Slice.advance (sl : Slice) (bad : VA → Bool) (n : Nat) : Except Ev Slice :=
  let pc := VA.plus sl.pc n
  if sl.hword.isSome && pc == sl.blockEnd then sl.passEnd bad pc sl.order else .ok { sl with pc := pc }

/-! ## Regions -/

/-- Open a region at a REP (R382); while the slice is handling its checkpoint is frozen (R386). -/
def Slice.openRegion (sl : Slice) (rep : Rep) : Slice :=
  if sl.handling then sl
  else
  let sl := sl.commitFlags
  { sl with
    rcnt := sl.rcnt + 1
    ck := { rep, am := sl.am, xm := sl.xm, rs := sl.rs, lp := sl.lp, order := sl.order, fmt := sl.fmt, clock := sl.clock
            gang := sl.gang, bufLen := sl.buf.length }
    supM := Supp.zero, supA := Supp.zero, supC := Supp.zero, supS := Supp.zero }

/-- The REP that is the instruction a slice stands at, taken as arrived (R382). -/
def Slice.repHere (sl : Slice) (w : Wait) : Rep := { addr := sl.pc, pc := sl.pc, hdr := sl.hdr, hword := sl.hword, wait := w, header := false }

/-- The numbers of buffered commands. -/
def bufCmds (l : List BufEntry) : List Nat := l.filterMap fun e => match e with | .command _ _ _ _ id _ _ => some id | .store _ => none

/-- The paths on which buffered scratchpad stores are counted. -/
def bufPaths (l : List BufEntry) : List (Nat × Nat) := l.filterMap fun e => match e with | .store x => x.path | .command .. => none

/-- The entries that the abandoned attempt left in the private buffer (R256). -/
def Slice.abandoned (sl : Slice) : List BufEntry := sl.buf.drop sl.ck.bufLen

/-- One slice per pc keeps together (R97): the gang's number stays when all agree, else each part takes a fresh one. -/
def partGang (first : Nat) (l : List Slice) : List Slice × Nat :=
  let live := l.filter (fun x => !x.ended)
  let pcs := (live.map (fun x => x.pc)).eraseDups
  if pcs.length ≤ 1 then (l, first)
  else (l.map (fun x => if x.ended then x else { x with gang := first + pcs.idxOf x.pc }), first + pcs.length)

def evOf {α : Type} : Except Ev α → Option Ev
  | .error e => some e
  | .ok _ => none

def okOf {α : Type} : Except Ev α → Option α
  | .error _ => none
  | .ok x => some x

/-- Put slices back into a block. -/
def Block.putSlices (b : Block) (l : List Slice) : Block :=
  { b with slices := b.slices.map (fun x => (l.find? (fun y => y.num == x.num)).getD x) }

/-- Restore the checkpoint and go back to the REP (R384); the operations met from there start over. A header that is the REP is
arrived at again (R35); inside a block the registers at or above its LIVE read zero (R36). -/
def Slice.reExecute (sl : Slice) : Slice :=
  let y : Slice := { sl with
    am := sl.ck.am, xm := sl.ck.xm, rs := sl.ck.rs, lp := sl.ck.lp, order := sl.ck.order, fmt := sl.ck.fmt
    clock := sl.ck.clock, quantum := sl.quantum - (sl.clock - sl.ck.clock), buf := sl.buf.take sl.ck.bufLen, shadow := 0
    pend := sl.pend.filter (fun x => !(bufCmds sl.abandoned).contains x.2)
    supM := { sl.supM with pos := 0 }, supA := { sl.supA with pos := 0 }, supC := { sl.supC with pos := 0 }
    supS := { sl.supS with pos := 0 }
    pc := sl.ck.rep.pc, hdr := sl.ck.rep.hdr, hword := sl.ck.rep.hword, wait := sl.ck.rep.wait
    atRep := sl.ck.rep.header, qphase := .running, stop := .none }
  match sl.ck.rep.hword with
  | some w => y.trimLive (Hdr.live w)
  | none => y

/-- Give the re-executing slices the gangs of their checkpoints, each under a fresh number (R384); the checkpoint keeps the gang that it
recorded. Slices of one gang whose REPs differ, as where a guarded BAR has taken only some of them (R248), go back to different words and
so part, as R97 parts slices whose next PCs differ (log entry 52). -/
def regroup (first : Nat) (l : List Slice) : List Slice × Nat :=
  let ids := (l.map (fun x => (x.ck.gang, x.pc))).eraseDups
  (l.map (fun x => { x with gang := first + ids.idxOf (x.ck.gang, x.pc) }), first + ids.length)

/-- Operations that their slice has abandoned leave their path. -/
def Share.dropPath (sh : Share) (p : Nat × Nat) : Share :=
  { sh with paths := sh.paths.modify p.1 (fun l => (l.filter (fun q => q.id != p.2)).dropWhile (fun q => q.returned)) }

/-- The counts of the entries that re-executing slices abandon (R238, R256). -/
def Block.dropPaths (b : Block) (l : List Slice) : Block :=
  l.foldl (fun b x => (bufPaths x.abandoned).foldl (fun b p => b.modShare x.share (fun sh => sh.dropPath p)) b) b

/-- Re-execute the region of every slice that `p` chooses in a block. -/
def State.reExecuteAll (s : State) (uid : Nat) (p : Slice → Bool) : State :=
  match s.block? uid with
  | none => s
  | some b =>
    let (l, n) := regroup s.nextId ((b.slices.filter p).map Slice.reExecute)
    { s.modBlock uid (fun b => (b.dropPaths (b.slices.filter p)).putSlices l) with nextId := n }

/-! ## Exceptions -/

/-- trapcause (R380). -/
def Ev.cause (e : Ev) (lanes : Mask) : Word :=
  BitVec.ofNat 64 (e.code + e.detail * 2 ^ 8 + e.check * 2 ^ 16 + lanes.toNat * 2 ^ 24)

/-- The lanes of a slice that raised an event; an event without a list was raised by every active lane. -/
def Ev.lanesOf (e : Ev) (sl : Slice) : Mask :=
  if e.lanes = [] then sl.am else match e.lanes.find? (fun p => p.1 == sl.num) with | some p => p.2 | none => 0

/-- The slice that a record reports: the lowest whose LANES is not 0 (R380). -/
def Ev.reporter (e : Ev) (l : List Slice) : Option Slice :=
  match l.find? (fun x => e.lanesOf x != 0) with
  | some x => some x
  | none => l.head?

def Slice.tick (sl : Slice) : Slice := { sl with clock := sl.clock + 1, retired := sl.retired + 1, quantum := sl.quantum + 1 }

/-- Publish what a set of slices holds, to PKG (R244). -/
def State.publishAll (s : State) (uid : Nat) : State := { s with mem := s.mem.publish (fun h => h.block == uid) }

/-- A launch that has placed no unit has not started (R360): its entry is still in its queue. -/
def Launch.unstarted (l : Launch) : Bool := l.nextUnit == 0

/-- Discard a context's work (R390 steps 1, 2 and 4): its blocks, commands, tasks and launches; what was written stands, and so do the
entries of what has not started (R369). -/
def State.discard (s : State) (c : Nat) : State :=
  let ls := (s.launches.filter (fun l => l.rcd.ctx == c)).map (fun l => l.id)
  let bs := ((s.blocks ++ s.images).filter (fun b => ls.contains b.launch)).map (fun b => b.uid)
  let nodes := (s.launches.filter (fun l => l.rcd.ctx == c && !l.unstarted)).filterMap (fun l => l.graph) ++
    (s.cmds.filter (fun k => k.ctx == c)).filterMap (fun k => k.node.map fun n => (n.slot, n.idx))
  let s := { s with mem := s.mem.publish (fun h => bs.contains h.block) }
  { s with
    blocks := s.blocks.filter (fun b => !ls.contains b.launch)
    launches := s.launches.filter (fun l => l.rcd.ctx != c)
    cmds := s.cmds.filter (fun k => k.ctx != c)
    tasks := s.tasks.filter (fun t => !bs.contains t.block)
    fabric := { s.fabric with
      landings := s.fabric.landings.filter (fun l => !bs.contains l.block)
      allocs := s.fabric.allocs.filter (fun a => !a.freeing.any fun x => bs.contains x.1)
      inFlight := s.fabric.inFlight.filter (fun x => !s.cmds.any fun k => k.ctx == c && k.id == x.cmd) }
    sched := { s.sched with
      preempts := s.sched.preempts.filter (fun p => !ls.contains p.launch)
      graphs := s.sched.graphs.map (fun g =>
        { g with nodes := g.nodes.mapIdx fun i n => if nodes.contains (g.slot, i) then { n with running := false } else n })
      userQs := s.sched.userQs.map (fun q => if q.ctx == c then { q with inFlight := [] } else q) } }

/-- Queues bound to a context stop with CTXFAULT (R369, R390 step 3); `inFlight` gives the node of each queue that ran. -/
def State.stopQueues (s : State) (c : Nat) (inFlight : List (Nat × Nat)) : State :=
  { s with sched := { s.sched with hqs := s.sched.hqs.mapIdx (fun i q =>
      if q.bound && q.ctx == c then
        { q with st := .stopped, failCode := 6
                 failPos := match inFlight.find? (fun p => p.1 == i) with | some p => p.2 | none => q.failPos }
      else q) } }

/-- An unrecoverable fault of a context (R390): the first record is kept until the host clears it (R391). -/
def State.contextFault (s : State) (c : Nat) (r : FaultRec) : State :=
  let inFlight := (s.launches.filter (fun l => l.rcd.ctx == c && !l.unstarted)).map (fun l => (l.hq, l.pos)) ++
    (s.cmds.filter (fun k => k.ctx == c)).filterMap (fun k => k.node.map fun n => (n.hq, n.pos))
  let s := (s.discard c).setCtx c (fun x => { x with fault := match x.fault with | none => some r | some f => some f, ring := [] })
  s.stopQueues c inFlight

/-- The address that a record gives of an event at a word (R391): the data address for MEMUE, SWLOST and PEERLOST. -/
def Ev.recAddr (e : Ev) (pc : VA) : Word :=
  if e.code = 0x08 ∨ e.code = 0x09 ∨ e.code = 0x0A then e.addr.getD (pc.setWidth 64) else pc.setWidth 64

/-- The record of a fault of a gang's slice. -/
def State.faultRec (s : State) (b : Block) (sl : Slice) (e : Ev) : FaultRec :=
  let l := s.launch? b.launch
  { cause := e.cause (e.lanesOf sl)
    addr := e.recAddr (e.at_.getD sl.pc)
    rep := sl.ck.rep.addr.setWidth 64, rcnt := sl.rcnt.toNat, block := b.num
    hq := match l with | some l => l.hq + 0x8000 | none => 0
    pos := match l with | some l => l.pos | none => 0
    peer := e.unit_ }

/-- A slot of the fault ring that no outstanding record holds, from `start` on (R389). -/
def freeSlot (used : List Nat) (start : Nat) : Option Nat :=
  ((List.range 256).map (fun i => (start + i) % 256)).find? (fun i => !used.contains i)

/-- A record identifier that no outstanding record has, of whatever context (R389). -/
def State.freeRecord (s : State) : Nat :=
  let used := s.ctxs.flatMap fun x => x.ring.map fun r => r.id
  ((List.range (used.length + 1)).find? (fun i => !used.contains i)).getD 0

/-- The 32 bytes of a fault-ring record (R389). -/
def Outstanding.image (o : Outstanding) : List Byte :=
  leBytes 8 o.addr.toNat ++ leBytes 8 (o.cause.toNat + o.source * 2 ^ 28) ++ leBytes 4 o.block ++ leBytes 2 o.place ++
  leBytes 2 o.id ++ leBytes 4 o.rcnt ++ leBytes 4 0

def writeHost (m : Memory) (pa : Nat) : List Byte → Memory
  | [] => m
  | b :: bs => writeHost (m.poke (hostKey pa) b) (pa + 1) bs

/-- Put a source into its fault: a record goes to the ring, or the source waits for a slot (R389). -/
def State.report (s : State) (c : Nat) (o : Outstanding) : State :=
  let x := s.ctx c
  let id := s.freeRecord
  let slot := freeSlot (x.ring.filterMap (fun r => r.slot)) x.nextSlot
  let o := { o with id, slot }
  let s := s.setCtx c (fun x => { x with ring := x.ring ++ [o], nextSlot := match slot with | some k => (k + 1) % 256 | none => x.nextSlot })
  match slot with
  | some k => { s with mem := writeHost s.mem (x.pfring + 32 * k) o.image }
  | none => s

/-- A slot came free: the first source that waits for one takes it. -/
def State.feedRing (s : State) (c : Nat) : State :=
  let x := s.ctx c
  match x.ring.find? (fun r => r.slot.isNone), freeSlot (x.ring.filterMap (fun r => r.slot)) x.nextSlot with
  | some o, some k =>
    let o' := { o with slot := some k }
    { s.setCtx c (fun x => { x with ring := x.ring.map (fun r => if r.id == o.id then o' else r), nextSlot := (k + 1) % 256 }) with
      mem := writeHost s.mem (x.pfring + 32 * k) o'.image }
  | _, _ => s

/-- Entering the handler (R386): the registers that save the event and the mode that changes; what the region has buffered so far stays
apart from what the handler will buffer. -/
def Slice.enterHandler (sl : Slice) (e : Ev) : Slice :=
  { sl with
    trapcause := e.cause (e.lanesOf sl), trapaddr := e.at_.getD sl.pc, trapregion := sl.ck.rep.addr
    handling := true, trapLen := sl.buf.length, atRep := false, am := sl.ck.am &&& ~~~ sl.xm, pc := sl.trapvec, hword := none, wait := .none, qphase := .running }

/-- A gang's slices stop in a recoverable event until the host answers (R381, R389). -/
def State.stopGang (s : State) (b : Block) (l : List Slice) (r : Slice) (e : Ev) (trap : Bool) : State :=
  let env := s.envOf b r
  let c := env.lr.ctx
  let id := s.freeRecord
  let s := s.modBlock b.uid (fun b => { b with slices := b.slices.map (fun x =>
    if l.any (fun y => y.num == x.num) then { x with stop := .held id trap } else x) })
  s.report c
    { id, slot := none, addr := e.addr.getD (r.pc.setWidth 64), cause := e.cause (e.lanesOf r), source := 0, block := b.num
      place := env.core / 48 * 256 + env.core % 48 * 4 + r.part
      rcnt := match l with | x :: _ => x.rcnt.toNat | [] => 0
      src := .gang b.uid r.num trap }

/-- Note the gang as its partition's last issue (R99), at the place of the lowest of the slices that issue. A slice that performs its
synchronising operation in the serial phase of a round counts as such an issue, at its own place (log entry 53). -/
def State.markIssued (s : State) (b : Block) (l : List Slice) : State :=
  match l with
  | x :: _ => { s with lastIssue := Cells.put s.lastIssue ((b.share x.share).core * 4 + x.part) x.pos }
  | [] => s

/-- Taking an exception: the route of R381 for an event that the issuing gang raises, before any of its state changed. -/
def State.raise (s : State) (e : Ev) : State :=
  match s.issuing with
  | none => s
  | some (b, l) =>
    match e.reporter l with
    | none => s
    | some r =>
      let c := (s.lrOf b).ctx
      if l.any (fun x => x.handling) then s.contextFault c (s.faultRec b r { e with detail := 0x0C })
      else if e.code = 0x04 then s.stopGang b l r e false
      else if e.code = 0x05 ∨ e.code = 0x06 ∨ e.code = 0x10 then
        if r.trapvec ≠ 0 then
          -- a handler whose header cannot be read yet: the gang has had its turn, and the event comes again in its next
          if l.any (fun x => s.vaBlocked c x.trapvec.toNat 8) then s.markIssued b l
          else
          match l.find? (fun x => (okOf (s.header c x.trapvec)).isNone) with
          | some x => s.contextFault c (s.faultRec b x { Ev.badtgt with detail := 0x06, lanes := [(x.num, x.am)] })
          | none =>
            let (r, n) := partGang s.nextId (l.map fun x => x.enterHandler e)
            { s.modBlock b.uid (fun b => b.putSlices r) with nextId := n }
        else if e.code = 0x05 then s.contextFault c (s.faultRec b r e)
        else s.stopGang b l r e true
      else s.contextFault c (s.faultRec b r e)

/-! ## Issue and retirement -/

/-- What an instruction's meaning comes to: every slice of the gang has done it (the listed ones have set their own pc), the
gang waits at it, or it raises an event and nothing of it has happened. -/
inductive Res where
  | done (s : State) (moved : List Nat)
  | stall (s : State)
  | trap (e : Ev)
  deriving Repr

/-- A deterministic slice's quantum ends (R255): a region opens at the next word (R382). -/
def Slice.endQuantum (sl : Slice) : Slice :=
  { sl with qphase := .ended, quantum := 0, qlenNow := sl.qlen.toNat }.openRegion (sl.repHere .none)

/-- One slice retires: its clocks (R256), its wait's end, its next pc. One that has set its own pc does not pass the end of its block:
so a LOOP that is the last word of the end block of an active level starts its level (R107) and ends no iteration (R108), which is the
model's reading of the two (log entry 47). -/
def Slice.retire (sl : Slice) (bad : VA → Bool) (moved : Bool) (len : Nat) : Except Ev Slice :=
  if sl.ended || moved then .ok { sl.tick with wait := .none } else { sl.tick with wait := .none }.advance bad len

/-- The place of an event among the checks of an instruction, by the check and then by its row in the instruction's own table: one
that no numbered check raises comes last. Where the slices of a gang fail different rows of R103, which gives an order within one
transfer only, this makes the one that is reported: a target that is no header comes before PAGEF and PERM of another slice's (log
entry 74). -/
def Ev.rank (e : Ev) : Nat := if e.check = 0 then 2 ^ 16 else e.check * 256 + e.row

/-- Suppression (R280, R301): whether the next operation was performed in an earlier attempt. -/
def Supp.again (p : Supp) : Bool := p.pos < p.count
/-- A suppressed operation is met. -/
def Supp.meet (p : Supp) : Supp := { p with pos := p.pos + 1 }
/-- An operation is performed; `w` are the writes that its log entry keeps. -/
def Supp.perform (p : Supp) (w : Option (List RegWrite)) : Supp :=
  { p with count := p.count + 1, pos := p.pos + 1, log := match w with | some x => p.log ++ [(p.count, x)] | none => p.log }
/-- An operation is performed whose write comes with the reply to a command. -/
def Supp.performCmd (p : Supp) (cmd : Nat) : Supp :=
  { p with count := p.count + 1, pos := p.pos + 1, log := p.log ++ [(p.count, [])], cmds := p.cmds ++ [(p.count, cmd)] }
/-- A command's reply joins the log. -/
def Supp.reply (p : Supp) (cmd : Nat) (w : List RegWrite) : Supp :=
  match p.cmds.find? (fun x => x.2 == cmd) with
  | some x => { p with log := p.log.map (fun y => if y.1 == x.1 then (y.1, w) else y), cmds := p.cmds.filter (fun y => y.2 != cmd) }
  | none => p
/-- Whether the log has room for one more value (R280, R301). -/
def Supp.full (p : Supp) : Bool := p.log.length ≥ Config.logEntries
/-- The logged writes of the operation met. -/
def Supp.logged (p : Supp) : List RegWrite := match p.log.find? (fun x => x.1 == p.pos) with | some x => x.2 | none => []

def RegWrite.apply (w : RegWrite) (sl : Slice) : Slice :=
  match w with
  | .v r l x => sl.wv r l x
  | .s r x => sl.ws r x

/-- Of two events the one of the lower check, the first where they are level. -/
def lowerEv (acc : Option Ev) (e : Ev) : Option Ev :=
  match acc with
  | none => some e
  | some f => if e.rank < f.rank then some e else some f

/-- Keep the successes, or the event of the lowest check; its lanes are those of every slice that failed it (R380). -/
def gather {α : Type} (rs : List (Except Ev α)) : Except Ev (List α) :=
  match (rs.filterMap evOf).foldl lowerEv none with
  | none => .ok (rs.filterMap okOf)
  | some e => .error { e with lanes := ((rs.filterMap evOf).filter (fun f => f.code == e.code && f.check == e.check)).flatMap (fun f => f.lanes) }

/-- An instruction that has waited has part of its effect already: what its slices' going on would raise is then left to their arrival at
the word in question, so that nothing is raised after part of an effect (R6). -/
def begun (l : List Slice) : Bool := l.any fun x => x.wait != .none

/-- Retire an instruction in the listed slices of a block, from the state `s` that its effect has left; where passing the end of
the block raises an event, `old`, the state before the instruction, takes it (R6, R381): clocks (R256), the next pc, the end of a
quantum (R255), and the gangs that part (R97). `qend` tells that the instruction itself ends the quantum; `part` whether the gang parts now. -/
def State.retire (old s : State) (uid : Nat) (nums moved : List Nat) (len : Nat) (qend part : Bool) : State :=
  match s.block? uid with
  | none => s
  | some b =>
    let det := (s.lrOf b).det
    let now := b.slices.filter (fun x => nums.contains x.num)
    let late := ((old.block? uid).map fun b => begun (b.slices.filter fun x => nums.contains x.num)).getD false
    match gather (now.map fun x => x.retire (fun v => !late && s.noHeader (s.lrOf b).ctx v) (moved.contains x.num) len) with
    | .error e => old.raise { e with at_ := some (match (old.block? uid).bind (fun b => b.slices.find? (fun x => nums.contains x.num)) with
        -- BADTGT at the transferring instruction (R35), ILLOP at the last word of the block (R108)
        | some x => if e.code = Ev.badtgt.code then x.pc else VA.plus x.pc ((len : Int) - 1)
        | none => 0) }
    | .ok l =>
      let ends := det && (qend || l.any (fun x => x.ended || x.quantum ≥ x.qlenNow || x.buf.length ≥ Config.bufEntries))
      let l := if ends then l.map Slice.endQuantum else l
      let r := if part then partGang s.nextId l else (l, s.nextId)
      { s.modBlock uid (fun b => b.putSlices r.1) with nextId := r.2 }

/-- The event that going on to the next word raises in some of these slices (R35, R108). -/
def State.retireEv (s : State) (b : Block) (l : List Slice) (len : Nat) : Option Ev :=
  evOf (gather (l.map fun x => x.retire (s.noHeader (s.lrOf b).ctx) false len))

/-- Whether the gang issues as a whole, not one slice in the serial phase (R254). -/
def State.whole (s : State) : Bool := match s.cur with | some c => c.only.isNone | none => true

/-- Complete an instruction of the issuing gang. One that waits has already looked whether the gang can go on from it: what has part of
its effect meanwhile raises nothing afterwards (R6). -/
def State.complete (s : State) (len : Nat) (qend : Bool) : Res → State
  | .trap e => s.raise e
  | .stall s' =>
    match s.issuing with
    | none => s'
    | some (b, l) =>
      if !begun l && (s.retireEv b l len).isSome then s.retire s b.uid (l.map (fun x => x.num)) [] len qend s.whole else s'
  | .done s' moved =>
    match s.issuing with
    | none => s'
    | some (b, l) =>
      s.retire s' b.uid (l.map (fun x => x.num)) moved len qend
        s.whole

/-- Run `f` in each slice of the gang with a lane that takes part (R29): all of them, or none when one raises (R381). `f` also
tells whether the slice has set its own pc. -/
def eachMove (s : State) (g : Guard) (b : Block) (l : List Slice) (f : Env → Slice → Except Ev (Slice × Bool)) : Res :=
  match gather (l.map (fun x => if x.part_ g = 0 then Except.ok (x, false) else f (s.envOf b x) x)) with
  | .error e => .trap e
  | .ok r =>
    .done (s.modBlock b.uid (fun b => b.putSlices (r.map (fun x => x.1))))
      ((r.filter (fun x => x.2)).map (fun x => x.1.num))

/-- `eachMove` for instructions that leave the pc to go on. -/
def eachSlice (s : State) (g : Guard) (b : Block) (l : List Slice) (f : Env → Slice → Except Ev Slice) : Res :=
  eachMove s g b l fun e x => (f e x).map fun y => (y, false)

/-- An instruction whose whole effect is on the registers of each slice. -/
def State.perSlice (s : State) (g : Guard) (len : Nat) (f : Env → Slice → Except Ev Slice) : State :=
  match s.issuing with
  | none => s
  | some (b, l) => s.complete len false (eachSlice s g b l f)

/-- An instruction whose effect on the gang `f` gives. -/
def State.perGang (s : State) (len : Nat) (qend : Bool) (f : Block → List Slice → Res) : State :=
  match s.issuing with
  | none => s
  | some (b, l) => s.complete len qend (f b l)

/-- A synchronising operation (R255): in the parallel phase of a deterministic launch it ends the quantum and waits for its
turn in the serial phase, unless it raises an event already; otherwise `f` gives its effect on the gang. -/
def State.perSerial (s : State) (g : Guard) (len : Nat) (f : Block → List Slice → Res) : State :=
  match s.issuing with
  | none => s
  | some (b, l) =>
    if (s.lrOf b).det && s.whole then
      if l.all (fun x => x.part_ g == 0) then s.complete len false (.done s [])
      else
        match f b l with
        | .trap e => s.raise e
        | _ => s.modBlock b.uid (fun b => b.putSlices (l.map (fun x => { x with qphase := .atSerial })))
    else s.complete len true (f b l)

/-- Do `f` for the slices of the gang with a lane that takes part, in ascending order, each on the state the last left. -/
def overSlices (s : State) (g : Guard) (b : Block) (l : List Slice) (f : State → Block → Slice → State) : State :=
  (l.filter (fun x => x.part_ g != 0)).foldl (fun s x =>
    match s.block? b.uid with
    | some b' => match b'.slice? x.num with
      | some x' => f s b' x'
      | none => s
    | none => s) s

/-- The first event that some slice with a lane taking part raises, its lanes those of every slice that raises it. -/
def firstEv (g : Guard) (l : List Slice) (f : Slice → Option Ev) : Option Ev :=
  let hits := (l.filter (fun x => x.part_ g != 0)).filterMap f
  match hits with
  | [] => none
  | e :: _ => some { e with lanes := (hits.filter (fun h => h.code == e.code && h.check == e.check)).flatMap (fun h => h.lanes) }

/-- The event of a gang in which a check is made of each slice with a lane that takes part: that of the lowest check (R380). -/
def gangTrap (g : Guard) (l : List Slice) (check : Slice → Option Ev) : Option Ev :=
  match gather ((l.filter (fun x => x.part_ g != 0)).map fun x =>
      match check x with | some e => Except.error (e.per x g) | none => .ok x) with
  | .error e => some e
  | .ok _ => none

def State.inDet (s : State) (b : Block) : Bool := (s.lrOf b).det

/-- The outcome of a step of this machine. -/
abbrev Out := Host.Outcome State Fault Refusal

/-- The words of an instruction with these operands (R32). -/
def lenOf (l : List Opd) : Nat := if l.any (fun o => o.isExt) then 2 else 1

end Sys2Proof.Machine
end

