-- ==== Sys2Proof/Machine/Barrier.lean ====
section
/-! DEFINITION. The barriers of a launch's levels (R247 to R249), the release of REGANG (R98), and the end of a slice (R111). -/

namespace Sys2Proof.Machine

/-! ## Barriers -/

/-- The barrier of instance idx of level k: at launch entry it expects every slice of the instance (R247). -/
def Launch.bar (l : Launch) (k idx : Nat) : Barrier :=
  (l.bars.find? (fun b => b.level == k && b.idx == idx)).getD
    { level := k, idx, exp := l.rcd.slicesIn k, arr := 0, ndrop := 0, phase := 0 }

def Launch.setBar (l : Launch) (b : Barrier) : Launch :=
  { l with bars := b :: l.bars.filter (fun x => !(x.level == b.level && x.idx == b.idx)) }

/-- Completion (R248), checked once after the arrivals of a cycle. A barrier that expects nothing completes nothing (R249). -/
def Barrier.complete (b : Barrier) : Barrier :=
  if b.exp ≠ 0 && b.arr = b.exp then { b with exp := b.exp - b.ndrop, arr := 0, ndrop := 0, phase := b.phase + 1 } else b

/-- The barrier of level k that a slice belongs to. -/
def State.barOf (s : State) (b : Block) (sl : Slice) (k : Nat) : Barrier :=
  match s.launch? b.launch with
  | some l => l.bar k (l.rcd.partOf k sl.gnum)
  | none => default

def State.setBar (s : State) (b : Block) (x : Barrier) : State := s.modLaunch b.launch (fun l => l.setBar x)

def Slice.arrival (sl : Slice) (k : Nat) : Option (BitVec 16) := sl.arrp.getD k none
def Slice.dropped (sl : Slice) (k : Nat) : Bool := sl.drop.getD k false

/-- An ended slice leaves level k (R249): an arrive-and-drop, or a drop alone where its arrival is counted already. -/
def State.leaveLevel (s : State) (b : Block) (sl : Slice) (k : Nat) : State :=
  if sl.dropped k then s
  else
    let x := s.barOf b sl k
    let x := if sl.arrival k = some x.phase then { x with ndrop := x.ndrop + 1 } else { x with arr := x.arr + 1, ndrop := x.ndrop + 1 }
    s.setBar b x

/-- The completion checks of the barriers that slices belong to. -/
def State.checkBars (s : State) (b : Block) (l : List Slice) (ks : List Nat) : State :=
  l.foldl (fun s sl => ks.foldl (fun s k => s.setBar b (s.barOf b sl k).complete) s) s

def LaunchRec.levels (r : LaunchRec) : List Nat := (List.range r.top).map (· + 1)

/-- Ended slices leave every barrier of theirs (R111, R249). -/
def State.leaveBars (s : State) (b : Block) (l : List Slice) : State :=
  let ks := (s.lrOf b).levels
  (l.foldl (fun s sl => ks.foldl (fun s k => s.leaveLevel b sl k) s) s).checkBars b l ks

/-! ## REGANG -/

/-- After a release the region goes on from where the slice stands, in its new gang: it does not wait there again (R384). -/
def Slice.passRep (sl : Slice) : Slice :=
  if sl.handling then sl
  else
    { sl with ck := { sl.ck with
        rep := { sl.ck.rep with pc := sl.pc, hdr := sl.hdr, hword := sl.hword, wait := .none, header := false }
        am := sl.am, xm := sl.xm, rs := sl.rs, lp := sl.lp, order := sl.order, fmt := sl.fmt, clock := sl.clock, gang := sl.gang } }

/-- Slices whose wait at one instruction ends together: each retires, and those that stay together form one gang, under a
fresh number. In a deterministic launch their quanta have ended, so that a region opens at the next word (R256, R382). What going on
would raise was looked at as each arrived, before any of the instruction's effect (`State.complete`); at the release nothing is raised
any more (R6, R381, log entry 15). -/
def State.releaseAll (s : State) (b : Block) (l : List Slice) : State :=
  match gather (l.map fun x => x.retire (fun _ => false) false 1) with
  | .error _ => s
  | .ok r =>
    let keys := ((l.zip r).map (fun p => (p.1.pc, p.2.pc))).eraseDups
    let r := (l.zip r).map fun p =>
      let y : Slice := { p.2 with gang := s.nextId + keys.idxOf (p.1.pc, p.2.pc) }
      if (s.lrOf b).det then y.endQuantum else y.passRep
    { s.modBlock b.uid (fun b => b.putSlices r) with nextId := s.nextId + keys.length }

/-- R98: the REGANG of a group is released when every live slice of it waits at one. -/
def State.regangTry (s : State) (uid group : Nat) : State :=
  match s.block? uid with
  | none => s
  | some b =>
    let live := b.slices.filter (fun x => !x.ended && (s.lrOf b).partOf 1 x.gnum == group)
    if live ≠ [] && live.all (fun x => x.wait == .regang) then s.releaseAll b live else s

/-! ## The end of a slice -/

/-- What follows when slices of a block have ended since `old` (R111, R244): their held stores are published, they leave their
barriers, and REGANG no longer counts them. -/
def State.settleEnded (old s : State) (uid : Nat) : State :=
  match old.block? uid, s.block? uid with
  | some b0, some b =>
    let gone := b.slices.filter (fun x => x.ended && b0.slices.any (fun y => y.num == x.num && !y.ended))
    let s := gone.foldl (fun s x => { s with mem := s.mem.publishSlice uid x.num }) s
    let s := s.leaveBars b gone
    if (s.lrOf b).det then s
    else ((gone.map (fun x => (s.lrOf b).partOf 1 x.gnum)).eraseDups).foldl (fun s g => s.regangTry uid g) s
  | _, _ => s

end Sys2Proof.Machine
end

