-- ==== Sys2Proof/Machine/Control.lean ====
section
/-! DEFINITION. The control instructions (R92 to R112). -/

namespace Sys2Proof.Machine

/-- An instruction that may set the pc of a slice. -/
def State.perMove (s : State) (g : Guard) (len : Nat) (f : Env → Slice → Except Ev (Slice × Bool)) : State :=
  s.perGang len false fun b l => eachMove s g b l f

/-- The word n words after an instruction. -/
def nextWord (sl : Slice) (n : Nat) : VA := VA.plus sl.pc n

/-- The target of a word offset (R44). -/
def offTarget {w : Nat} (sl : Slice) (off : BitVec w) : VA := VA.plus sl.pc off.toInt

def execNop (g : Guard) (s : State) : Out := .next (s.perSlice g 1 fun _ sl => .ok sl)

def execBra (g : Guard) (off : BitVec 27) (s : State) : Out :=
  .next (s.perMove g 1 fun e sl => s.transfer e.lr.ctx sl (sl.part_ g) (offTarget sl off) (nextWord sl 1))

/-- T of BRP (R102). -/
def brpMask (c : BrCond) (am part bits : Mask) : Mask :=
  match c with
  | .per => part &&& bits
  | .any => if part &&& bits = 0 then 0 else am
  | .all => if part ≠ 0 && part &&& bits = part then am else 0

def execBrp (g : Guard) (c : BrCond) (p : BitVec 3) (off : BitVec 27) (s : State) : Out :=
  .next (s.perMove g 1 fun e sl =>
    s.transfer e.lr.ctx sl (brpMask c sl.am (sl.part_ g) (sl.rp p.toNat)) (offTarget sl off) (nextWord sl 1))

/-- A transfer to the byte address in a scalar (R103). -/
def jumpTo (s : State) (g : Guard) (e : Env) (sl : Slice) (a : Opd) (len : Nat) : Except Ev (Slice × Bool) :=
  let x := svalOf e sl a
  if x.toNat ≥ 2 ^ 57 || x.toNat % 8 ≠ 0 then .error ({ Ev.badtgt with check := 11 }.per sl g)
  else s.transfer e.lr.ctx sl (sl.part_ g) (x.setWidth 57) (nextWord sl len)

def execBrx (g : Guard) (a : Opd) (s : State) : Out :=
  .next (s.perMove g (lenOf [a]) fun e sl => jumpTo s g e sl a (lenOf [a]))

def execCall (g : Guard) (d : Opd) (off : BitVec 27) (s : State) : Out :=
  .next (s.perMove g 1 fun e sl =>
    s.transfer e.lr.ctx (sl.setS g d ((nextWord sl 1).setWidth 64)) (sl.part_ g) (offTarget sl off) (nextWord sl 1))

def execRet (g : Guard) (a : Opd) (s : State) : Out :=
  .next (s.perMove g 1 fun e sl => jumpTo s g e sl a 1)

/-- LOOP's start of level n (R107), with the end header at en. It sets the pc, also where it is the last word of the end block of an
active level (log entry 47). -/
def loopStart (s : State) (g : Guard) (c : Nat) (sl : Slice) (n : Nat) (count : BitVec 32) (en : VA) : Except Ev (Slice × Bool) :=
  let st := sl.blockEnd
  if (sl.lpOf n).act then .error (Ev.own.per sl g)
  else
    match s.header c st with
    | .error e => .error (e.per sl g)
    | .ok h =>
      if !Hdr.loopb h then .error ({ Ev.badtgt with check := 11 }.per sl g)
      else
        match s.header c en with
        | .error e => .error (e.per sl g)
        | .ok _ =>
          if en < st then .error (Ev.own.per sl g)
          else if count = 0 then .ok (sl.arrive (s.loopExit c en), true)
          else
            let r : LoopReg := { act := true, start := st, endh := en, count, brk := 0, depth := sl.rs.length }
            .ok ({ sl.setLp n r with order := n :: sl.order.filter (fun j => j != n) }.arrive st, true)

def execLoop (g : Guard) (l : BitVec 2) (a : Opd) (off : BitVec 18) (s : State) : Out :=
  .next (s.perMove g (lenOf [a]) fun e sl =>
    loopStart s g e.lr.ctx sl l.toNat ((svalOf e sl a).setWidth 32) (offTarget sl off))

/-- Take lanes out of AM, of the entries of the stack above a depth, and of BRK of levels (R109, R111). -/
def Slice.dropLanes (sl : Slice) (m : Mask) (depth : Nat) (ks : List Nat) : Slice :=
  { sl with
    am := sl.am &&& ~~~ m
    rs := (sl.rs.take (sl.rs.length - depth)).map (fun e => { e with mask := e.mask &&& ~~~ m }) ++
      sl.rs.drop (sl.rs.length - depth)
    lp := sl.lp.mapIdx (fun k r => if ks.contains k then { r with brk := r.brk &&& ~~~ m } else r) }

/-- EmptyMask where no lane is left (R95). -/
def Slice.settle (sl : Slice) (exit : VA → VA) : Slice × Bool := if sl.am = 0 then (sl.emptyMask exit, true) else (sl, false)

/-- LBRK in a slice (R109). -/
def lbrkSlice (s : State) (g : Guard) (n : Nat) (e : Env) (sl : Slice) : Except Ev (Slice × Bool) :=
  let r := sl.lpOf n
  let m := sl.part_ g
  if !r.act then .error (Ev.own.per sl g)
  else
    .ok (((sl.setLp n { r with brk := r.brk ||| m }).dropLanes m r.depth (sl.order.takeWhile (fun k => k != n))).settle
      (s.loopExit e.lr.ctx))

/-- An instruction that may end slices. -/
def State.perEnding (s : State) (g : Guard) (f : Env → Slice → Except Ev (Slice × Bool)) : State :=
  let s' := s.perMove g 1 f
  match s.cur with
  | some c => s.settleEnded s' c.block
  | none => s'

def execLbrk (g : Guard) (l : BitVec 2) (s : State) : Out := .next (s.perEnding g (lbrkSlice s g l.toNat))

/-- EXIT in a slice (R111). -/
def exitSlice (s : State) (g : Guard) (e : Env) (sl : Slice) : Except Ev (Slice × Bool) :=
  let m := sl.part_ g
  .ok (({ sl with xm := sl.xm ||| m }.dropLanes m 0 [0, 1, 2, 3]).settle (s.loopExit e.lr.ctx))

/-- EXIT ends a quantum (R255). -/
def execExit (g : Guard) (s : State) : Out :=
  let s' := s.perGang 1 ((match s.issuing with | some (_, l) => l.any (fun x => x.part_ g != 0) | none => false)) fun b l =>
    eachMove s g b l (exitSlice s g)
  .next (match s.cur with | some c => s.settleEnded s' c.block | none => s')

/-- REGANG (R98): slices with a lane that takes part wait at it, the others go on. -/
def execRegang (g : Guard) (s : State) : Out :=
  .next (s.perSerial g 1 fun b l =>
    let waits := l.filter (fun x => x.part_ g != 0)
    let goes := (l.filter (fun x => x.part_ g == 0)).map (fun x => x.num)
    let held := waits.map fun x =>
      if x.wait == .regang then x
      else { (x.openRegion (x.repHere .regang)) with wait := .regang, qphase := if (s.lrOf b).det then .ended else .running }
    let (id, s0) := s.newId
    let held := if goes = [] then held else held.map (fun x => { x with gang := id })
    let s1 := s0.modBlock b.uid (fun b => b.putSlices held)
    let s2 := if goes = [] then s1 else s.retire s1 b.uid goes [] 1 true s.whole
    .stall (((waits.map (fun x => (s.lrOf b).partOf 1 x.gnum)).eraseDups).foldl (fun s k => s.regangTry b.uid k) s2))

/-- YIELD (R110). -/
def execYield (g : Guard) (s : State) : Out :=
  .next (s.perGang 1 false fun b l => .done (if l.any (fun x => x.part_ g != 0) then s.markIssued b l else s) [])

/-- VOTE in a slice (R112). -/
def voteSlice (g : Guard) (op : VoteOp) (d a : Opd) (e : Env) (sl : Slice) : Slice :=
  let m := sl.part_ g
  let bits := predOf sl a
  match op with
  | .any => sl.setPred g d fun _ => m &&& bits != 0
  | .all => sl.setPred g d fun _ => m &&& bits == m
  | .ballot => sl.setS g d ((m &&& bits).setWidth 64)
  | .uni =>
    let xs := (lanes m).map (fun l => valOf e sl l 32 a)
    sl.setPred g d fun _ => xs.all (fun x => some x == xs.head?)

def execVote (g : Guard) (op : VoteOp) (d a : Opd) (s : State) : Out :=
  .next (s.perSlice g 1 fun e sl => .ok (voteSlice g op d a e sl))

end Sys2Proof.Machine
end

