-- ==== Sys2Proof/Machine/Entry.lean ====
section
/-! DEFINITION. Slices and blocks at launch entry (R91, R97, R144, R177, R205, R247, R251, R360, R377), and how the words of an
instruction are put where the next step fetches them. -/

namespace Sys2Proof.Machine

/-- A slice at launch entry. -/
def Slice.entry (num gnum share part pos gang : Nat) (r : LaunchRec) : Slice :=
  let pc := r.entry.setWidth 57
  let lp := List.replicate 4 LoopReg.idle
  { num, gnum, share, part, pos, ended := false, gang, pc, hdr := pc, hword := none, atRep := false, am := 0xF, xm := 0, rs := [], lp
    order := [], v := [], s := Cells.set 0 [] 0 r.param, p := [], fmt := 0, flg := 0, shadow := 0, qlen := 4096, trapvec := 0
    trapcause := 0, trapaddr := 0, trapregion := 0, handling := false, trapLen := 0, rcnt := 0
    ck := { rep := { addr := pc, pc, hdr := pc, hword := none, wait := .none, header := false }, am := 0xF, xm := 0, rs := [], lp, order := []
            fmt := 0, clock := 0, gang, bufLen := 0 }
    supM := .zero, supA := .zero, supC := .zero, supS := .zero, clock := 0, retired := 0, quantum := 0, qlenNow := 4096, qphase := .running
    wait := .none, stop := .none, arrp := List.replicate 8 none, drop := List.replicate 8 false, pend := [], q1 := []
    buf := [], ts := 0 }

/-- A block's share of a core at launch entry: scratchpad zero, tiles in their reset state, no objects (R412, R193, R207). -/
def Share.entry (core slot accn : Nat) : Share :=
  { core, slot, scratch := [], tiles := List.replicate accn .reset, book := [], bookTag := false
    objs := List.replicate 8 .reset, tls := List.replicate 8 .reset, paths := List.replicate 6 [] }

/-! ## Placing an instruction for the next step -/

namespace Place

/-- A launch of one block of one slice in context 0, its code at virtual address 64G + 64K. -/
def code : Nat := 0x10_0001_0000
def root : Nat := 0x70_0000_0000

def rcd : LaunchRec :=
  { entry := BitVec.ofNat 64 code, param := 0, ctx := 0, prio := 0, hint := 0, det := false, restart := false, top := 2
    blklv := 2, sreg := 0, sscr := 0, sl1 := 0, rlive := 0, accb := 0, accn := 64, ext := [1, 1], bind := [0, 1], wait := 0
    set := 0 }

/-- Eight bytes of a T1 physical address with SL = 0. -/
def put8 (ram : List Host.Cell) (pa x : Nat) : List Host.Cell :=
  (List.range 8).foldl (fun r i => Cells.set 0 r (t1Key false (pa + i)) (BitVec.ofNat 8 (x / 2 ^ (8 * i)))) ram

/-- The root table's entry 0 names a table whose entry 0 maps the first 64 GiB with R and W and whose entry 1 maps the next
with R and X; then the words. -/
def ram (m : List Host.Cell) (w : Nat) : List Host.Cell :=
  let m := put8 (put8 (put8 m root (1 + (root + 0x4000))) (root + 0x4000) 0xF) (root + 0x4008) (0x17 + 2 ^ 36)
  put8 (put8 m (code + 8) (w % 2 ^ 64)) (code + 16) (w / 2 ^ 64)

/-- A header of 64 words that has been consumed. -/
def header : Word := BitVec.ofNat 64 (0x7F * 2 ^ 57 + 64 * 2 ^ 47)

def slice (gang : Nat) : Slice :=
  { Slice.entry 0 0 0 0 0 gang rcd with
    pc := BitVec.ofNat 57 (code + 8), hdr := BitVec.ofNat 57 code, hword := some header }

def window : AccWindow :=
  { tgt := 0, unit := none, ctx := 0, base := 0, size := 2 ^ 37, coreR := true, coreW := true, copyR := true, copyW := true, peerR := false
    peerW := false, hostR := true, hostW := true, peers := [] }

end Place

/-- A core on which no block has a share. -/
def State.freeCore (s : State) : Nat :=
  ((List.range Config.cores).find? fun c => !s.blocks.any fun b => b.shares.any fun sh => sh.core == c).getD 0

/-- The state with an instruction's words where the next step fetches them (log entry 8): tables, window and code in context
0, and a block of one slice whose gang has the turn. -/
def State.place (s : State) (w : Nat) : State :=
  let id := s.nextId
  let l : Launch :=
    { id, rcd := Place.rcd, addr := 0, hq := 0, pos := 0, graph := none, age := 0, waiting := [], nextUnit := 1, blocksLeft := 1, bars := []
      tags := [], oau := [] }
  let b : Block :=
    { uid := id + 1, launch := id, num := 0, unit := 0, round := .parallel, slices := [Place.slice (id + 2)]
      shares := [Share.entry s.freeCore 0 64], noFlush := false }
  { s with
    nextId := id + 3
    agenda := [.gang (id + 1) (id + 2)]
    mem := { s.mem with ram := Place.ram s.mem.ram w, tlb := [], poison := [] }
    ctxs := { s.ctx 0 with ptroot := BitVec.ofNat 64 (1 + Place.root) } :: s.ctxs.tail
    launches := l :: s.launches
    blocks := b :: s.blocks
    fw := { s.fw with bootst := 0x600D, windows := Place.window :: s.fw.windows } }

end Sys2Proof.Machine
end

