-- ==== Sys2Proof/Machine/Integer.lean ====
section
/-! DEFINITION. The integer instructions (R115 to R131, R136): for each the value it computes and its meaning. -/

namespace Sys2Proof.Machine

/-- X clamped to the range of a type (R115). -/
def satTo (signed : Bool) (w : Nat) (x : Int) : Nat :=
  let lo : Int := if signed then -(2 ^ (w - 1) : Nat) else 0
  let hi : Int := if signed then (2 ^ (w - 1) : Nat) - 1 else (2 ^ w : Nat) - 1
  wrapTo w (if x < lo then lo else if hi < x then hi else x)

/-- IADD (R116). -/
def iaddVal (ty : Ty) (sat : Bool) (op : AddOp) (a b c : Nat) : Nat :=
  let w := ty.width
  let r := readInt ty.isSigned w
  match op with
  | .sum => let x := r a + r b + r c; if sat then satTo ty.isSigned w x else wrapTo w x
  | .diff => let x := r a - r b - r c; if sat then satTo ty.isSigned w x else wrapTo w x
  | .carry => (a + b + c) / 2 ^ w
  | .borrow => (-(((a : Int) - b - c) / ((2 ^ w : Nat) : Int))).toNat

/-- IMUL and IMAD (R117): the exact result with the addend joined, then the part that SUB names. -/
def imulVal (ty : Ty) (sat : Bool) (op : MulOp) (a b : Nat) (c : Int) : Nat :=
  let w := ty.width
  let x := readInt ty.isSigned w a * readInt ty.isSigned w b + c
  match op with
  | .low => if sat then satTo ty.isSigned w x else wrapTo w x
  | .hi => wrapTo w (x / ((2 ^ w : Nat) : Int))
  | .wide => wrapTo (2 * w) x

def mulWidth (ty : Ty) (op : MulOp) : Nat := if op = .wide then 2 * ty.width else ty.width

/-- The addend of IMAD: w bits, or 2w bits under WIDE, a narrower source being extended by TY (R117). -/
def imadC (e : Env) (sl : Slice) (l : Nat) (ty : Ty) (op : MulOp) (c : Opd) : Int :=
  let w := ty.width
  if op = .wide then
    match c with
    | .v _ => readInt ty.isSigned (2 * w) (valOf e sl l (2 * w) c)
    | _ => readInt ty.isSigned w (valOf e sl l w c)
  else readInt ty.isSigned w (valOf e sl l w c)

def execIadd (g : Guard) (ty : Ty) (sat : Bool) (op : AddOp) (d a b c : Opd) (s : State) : Out :=
  .next (s.perSlice g (lenOf [a, b, c]) fun e sl => .ok (sl.setInt g d ty.isSigned ty.width fun l =>
    iaddVal ty sat op (tvalOf e sl l ty a) (tvalOf e sl l ty b) (tvalOf e sl l ty c)))

def execImul (g : Guard) (ty : Ty) (sat : Bool) (op : MulOp) (d a b : Opd) (s : State) : Out :=
  .next (s.perSlice g (lenOf [a, b]) fun e sl => .ok (sl.setInt g d ty.isSigned (mulWidth ty op) fun l =>
    imulVal ty sat op (tvalOf e sl l ty a) (tvalOf e sl l ty b) 0))

def execImad (g : Guard) (ty : Ty) (sat : Bool) (op : MulOp) (d a b c : Opd) (s : State) : Out :=
  .next (s.perSlice g (lenOf [a, b, c]) fun e sl => .ok (sl.setInt g d ty.isSigned (mulWidth ty op) fun l =>
    imulVal ty sat op (tvalOf e sl l ty a) (tvalOf e sl l ty b) (imadC e sl l ty op c)))

/-- IMINMAX (R118). -/
def minMaxVal (ty : Ty) (op : MinMax) (a b : Nat) : Nat :=
  let lt := readInt ty.isSigned ty.width a < readInt ty.isSigned ty.width b
  match op with
  | .min => if lt then a else b
  | .max => if lt then b else a

def execIminmax (g : Guard) (ty : Ty) (op : MinMax) (d a b : Opd) (s : State) : Out :=
  .next (s.perSlice g (lenOf [a, b]) fun e sl => .ok (sl.setInt g d ty.isSigned ty.width fun l =>
    minMaxVal ty op (tvalOf e sl l ty a) (tvalOf e sl l ty b)))

/-- LOGIC (R46, R119): bit j of the result is the table's bit 4a + 2b + c. -/
def logicVal (w : Nat) (tt : BitVec 8) (a b c : Nat) : Nat :=
  (List.range w).foldl (fun acc j =>
    acc + (if tt.getLsbD (4 * bitsOf a j 1 + 2 * bitsOf b j 1 + bitsOf c j 1) then 2 ^ j else 0)) 0

def execLogic (g : Guard) (ty : Ty) (tt : BitVec 8) (d a b c : Opd) (s : State) : Out :=
  .next (s.perSlice g (lenOf [a, b, c]) fun e sl => .ok (sl.setInt g d false ty.width fun l =>
    logicVal ty.width tt (tvalOf e sl l ty a) (tvalOf e sl l ty b) (tvalOf e sl l ty c)))

/-- SHIFT (R120). -/
def shiftVal (w : Nat) (op : ShiftOp) (a n c : Nat) : Nat :=
  match op with
  | .shl => if n ≥ w then 0 else a * 2 ^ n % 2 ^ w
  | .shr => if n ≥ w then 0 else a / 2 ^ n
  | .sar => wrapTo w (sgn w a / ((2 ^ min n w : Nat) : Int))
  | .rol => let k := n % w; a * 2 ^ k % 2 ^ w + a / 2 ^ (w - k)
  | .ror => let k := n % w; a / 2 ^ k + a * 2 ^ (w - k) % 2 ^ w
  | .fshl => (a * 2 ^ w + c) * 2 ^ (n % w) % 2 ^ (2 * w) / 2 ^ w
  | .fshr => (c * 2 ^ w + a) / 2 ^ (n % w) % 2 ^ w

def execShift (g : Guard) (ty : Ty) (op : ShiftOp) (d a b c : Opd) (s : State) : Out :=
  .next (s.perSlice g (lenOf [a, b, c]) fun e sl => .ok (sl.setInt g d ty.isSigned ty.width fun l =>
    shiftVal ty.width op (tvalOf e sl l ty a) (valOf e sl l 32 b) (tvalOf e sl l ty c)))

/-- BITS (R121). -/
def bitsVal (w : Nat) (op : BitsOp) (a : Nat) : Nat :=
  match op with
  | .popc => ((List.range w).filter (fun j => a.testBit j)).length
  | .clz => if a = 0 then w else w - 1 - Nat.log2 a
  | .ctz => ((List.range w).find? (fun j => a.testBit j)).getD w
  | .brev => (List.range w).foldl (fun acc j => acc + (if a.testBit j then 2 ^ (w - 1 - j) else 0)) 0
  | .bswap => leNat (leBytes (w / 8) a).reverse

/-- POPC, CLZ and CTZ write one register even for B64 (R121). -/
def bitsWidth (w : Nat) (op : BitsOp) : Nat :=
  match op with
  | .brev | .bswap => w
  | _ => 32

def execBits (g : Guard) (ty : Ty) (op : BitsOp) (d a : Opd) (s : State) : Out :=
  .next (s.perSlice g (lenOf [a]) fun e sl => .ok (sl.setInt g d false (bitsWidth ty.width op) fun l =>
    bitsVal ty.width op (tvalOf e sl l ty a)))

/-- BFX (R122). -/
def bfxVal (ty : Ty) (op : BfxOp) (a b c : Nat) : Nat :=
  let w := ty.width
  let pos := bitsOf c 0 8
  let len := min (bitsOf c 8 8) w
  match op with
  | .ext =>
    if len = 0 then 0
    else
      let f := wrapTo len (readInt ty.isSigned w a / ((2 ^ pos : Nat) : Int))
      if ty.isSigned then wrapTo w (sgn len f) else f
  | .ins =>
    let m := (2 ^ len - 1) * 2 ^ pos % 2 ^ w
    (a - (a &&& m)) + ((b * 2 ^ pos) &&& m)

def execBfx (g : Guard) (ty : Ty) (op : BfxOp) (d a b c : Opd) (s : State) : Out :=
  .next (s.perSlice g (lenOf [a, b, c]) fun e sl => .ok (sl.setInt g d ty.isSigned ty.width fun l =>
    bfxVal ty op (tvalOf e sl l ty a) (tvalOf e sl l ty b) (valOf e sl l 32 c)))

/-- ICMP (R123). -/
def icmpVal (ty : Ty) (c : Cnd) (a b : Nat) : Bool :=
  let x := readInt ty.isSigned ty.width a
  let y := readInt ty.isSigned ty.width b
  match c with
  | .eq => x == y
  | .ne => x != y
  | .lt => decide (x < y)
  | .le => decide (x ≤ y)
  | .gt => decide (y < x)
  | .ge => decide (y ≤ x)
  | _ => false

def execIcmp (g : Guard) (ty : Ty) (c : Cnd) (d a b : Opd) (s : State) : Out :=
  .next (s.perSlice g (lenOf [a, b]) fun e sl => .ok (sl.setPred g d fun l =>
    icmpVal ty c (tvalOf e sl l ty a) (tvalOf e sl l ty b)))

/-- SEL (R124). -/
def execSel (g : Guard) (ty : Ty) (d a b c : Opd) (s : State) : Out :=
  .next (s.perSlice g (lenOf [a, b]) fun e sl => .ok (sl.setInt g d false ty.width fun l =>
    if (predOf sl c).getLsbD l then tvalOf e sl l ty a else tvalOf e sl l ty b))

/-- MOV (R125): the flag forms are per slice. -/
def execMov (g : Guard) (ty : Ty) (d a : Opd) (s : State) : Out :=
  .next (s.perSlice g (lenOf [a]) fun e sl =>
    match ty with
    | .b32 => .ok (sl.setInt g d false 32 fun l => valOf e sl l 32 a)
    | .b64 => .ok (sl.setInt g d false 64 fun l => valOf e sl l 64 a)
    | _ =>
      match d with
      | .flg => .ok (sl.writeFlg (svalOf e sl a))
      | _ => .ok (sl.setS g d sl.readFlg))

def leaFactor : LeaK → Nat
  | .m1 => 1 | .m2 => 2 | .m4 => 4 | .m8 => 8 | .m16 => 16

/-- A signed offset operand: a v register is signed 32 bits, others 64 bits (R126, R225). -/
def offsetOf (e : Env) (sl : Slice) (l : Nat) (o : Opd) : Int :=
  match o with
  | .v _ => sgn 32 (valOf e sl l 32 o)
  | _ => sgn 64 (valOf e sl l 64 o)

/-- LEA (R126). -/
def execLea (g : Guard) (k : LeaK) (d a b c : Opd) (s : State) : Out :=
  .next (s.perSlice g (lenOf [a, b, c]) fun e sl => .ok (sl.setInt g d false 64 fun l =>
    wrapTo 64 ((valOf e sl l 64 a : Int) + offsetOf e sl l b * (leaFactor k : Int) + sgn 64 (valOf e sl l 64 c))))

/-- One bit of the reflected CRC-32C (R127). -/
def crcBit (c : Nat) : Nat := (c / 2) ^^^ (if c % 2 = 1 then 0x82F63B78 else 0)
def crcByte (c : Nat) (b : Byte) : Nat := (List.range 8).foldl (fun c _ => crcBit c) (c ^^^ b.toNat)

/-- HASH.CRC32C (R127) over bytes, with no inversion. -/
def crc32c (c : Nat) (bs : List Byte) : Nat := bs.foldl crcByte c

def execHashCrc32c (g : Guard) (ty : Ty) (d a b : Opd) (s : State) : Out :=
  .next (s.perSlice g (lenOf [a, b]) fun e sl => .ok (sl.setInt g d false ty.width fun l =>
    crc32c (valOf e sl l 32 a) (leBytes (ty.width / 8) (tvalOf e sl l ty b))))

/-- HASH.MIX64 (R128). -/
def mix64 (a b : Nat) : Nat :=
  let x := a ^^^ b
  let x := (x ^^^ (x / 2 ^ 31)) * 0xA3C59AC2F1D73B65 % 2 ^ 64
  let x := (x ^^^ (x / 2 ^ 29)) * 0x8E174C2B5D9F03A7 % 2 ^ 64
  x ^^^ (x / 2 ^ 32)

def execHashMix64 (g : Guard) (ty : Ty) (d a b : Opd) (s : State) : Out :=
  .next (s.perSlice g (lenOf [a, b]) fun e sl => .ok (sl.setInt g d false ty.width fun l =>
    let x := mix64 (valOf e sl l 64 a) (valOf e sl l 64 b)
    if ty = .n64 then x else x / 2 ^ 32))

/-- OrdKey (R129). -/
def ordKey (ty : Ty) (a : Nat) : Nat :=
  match ty with
  | .i32 => a ^^^ 2 ^ 31
  | .i64 => a ^^^ 2 ^ 63
  | .f32 => if a / 2 ^ 31 % 2 = 1 then 2 ^ 32 - 1 - a else a ^^^ 2 ^ 31
  | _ => a

/-- PART.RADIX (R130). -/
def radixVal (ty : Ty) (a c : Nat) : Nat :=
  let shift := bitsOf c 0 8
  let n := min (bitsOf c 8 8) 16
  if shift ≥ ty.width then 0 else ordKey ty a / 2 ^ shift % 2 ^ n

def execPartRadix (g : Guard) (ty : Ty) (d a c : Opd) (s : State) : Out :=
  .next (s.perSlice g (lenOf [a, c]) fun e sl => .ok (sl.setInt g d false ty.width fun l =>
    radixVal ty (tvalOf e sl l ty a) (valOf e sl l 32 c)))

/-- The search of PART.RANGE (R131) over at most 12 entries; `entry` reads one, or names its failure. -/
def rangeSearch {ε : Type} (entry : Nat → Except ε Nat) (k : Nat) : Nat → Nat → Nat → Except ε Nat
  | 0, lo, _ => .ok lo
  | n + 1, lo, hi =>
    if lo < hi then
      let mid := (lo + hi) / 2
      match entry mid with
      | .error e => .error e
      | .ok x => if x ≤ k then rangeSearch entry k n (mid + 1) hi else rangeSearch entry k n lo mid
    else .ok lo

/-- PRED (R136). -/
def predVal (op : PredOp) (pa pb : Bool) (a l : Nat) : Bool :=
  match op with
  | .pand => pa && pb
  | .por => pa || pb
  | .pxor => pa != pb
  | .pnot => !pa
  | .pmask => a.testBit l
  | .pload => a != 0

def execPred (g : Guard) (op : PredOp) (d a b : Opd) (s : State) : Out :=
  .next (s.perSlice g (lenOf [a]) fun e sl => .ok (sl.setPred g d fun l =>
    predVal op ((predOf sl a).getLsbD l) ((predOf sl b).getLsbD l)
      (match op with | .pload => valOf e sl l 32 a | _ => valOf e sl l 64 a) l))

end Sys2Proof.Machine
end

