-- ==== Sys2Proof/Machine/Fabric.lean ====
section
/-! DEFINITION. The ports of the fabric: flits as they are sealed and sent (R348, R349), the plane that carries a message (R328),
and requests on their way (R352). -/

namespace Sys2Proof.Machine

def State.modPort (s : State) (p : Nat) (f : Port → Port) : State :=
  { s with fabric := { s.fabric with ports := s.fabric.ports.modify p f } }

/-- CRC-32C as a checksum of bytes. -/
def crcOf (bs : List Byte) : BitVec 32 := BitVec.ofNat 32 (crc32c 0xFFFFFFFF bs ^^^ 0xFFFFFFFF)

/-! ## Flits (R348) -/

def Flit.head (f : Flit) : List Byte :=
  leBytes 1 f.kind ++ leBytes 1 ((if f.slot then 1 else 0) + f.vc % 4 * 2 + f.resv * 8) ++ leBytes 2 f.seq.toNat ++
  leBytes 2 (f.ack.toNat + if f.nak then 2 ^ 12 else 0) ++ leBytes 2 0 ++ leBytes 8 f.ctr.toNat

/-- CRC-32C of bytes 0 to 247. -/
def Flit.sum (f : Flit) : BitVec 32 := crcOf (Flit.head f ++ f.payload ++ f.tag)

def slotIx (b : Bool) : Nat := if b then 1 else 0

def Port.txSlot (p : Port) (b : Bool) : KeySlot := p.tx.getD (slotIx b) .reset
def Port.rxSlot (p : Port) (b : Bool) : KeySlot := p.rx.getD (slotIx b) .reset
def Port.setTx (p : Port) (b : Bool) (k : KeySlot) : Port := { p with tx := p.tx.set (slotIx b) k }
def Port.setRx (p : Port) (b : Bool) (k : KeySlot) : Port := { p with rx := p.rx.set (slotIx b) k }

/-- The slot of a direction that new flits use. -/
def activeOf (l : List KeySlot) : Option Bool :=
  if (l.getD 0 .reset).st == .active then some false else if (l.getD 1 .reset).st == .active then some true else none

/-- Seal a flit in its slot: the counter advances by one for every flit, and a NAK that is due goes with it. -/
def Port.seal (p : Port) (k : Kept) : Flit × Port :=
  let x := p.txSlot k.slot
  let f : Flit :=
    { kind := k.kind, slot := k.slot, vc := k.vc, resv := 0, seq := k.seq, ack := p.expect, nak := p.nak
      ctr := BitVec.ofNat 64 x.ctr, payload := [], tag := [], crc := 0 }
  let f := { f with payload := Config.gcmSeal x.key x.salt f.ctr (Flit.head f) k.text }
  let f := { f with tag := Config.gcmTag x.key x.salt f.ctr (Flit.head f) f.payload }
  ({ f with crc := Flit.sum f }, { p.setTx k.slot { x with ctr := x.ctr + 1 } with nak := false })

/-- A text fills the 216 bytes of a flit. -/
def flitText (t : List Byte) : List Byte := (t ++ List.replicate 216 0).take 216

/-- Put a message among those that have left, or that wait. -/
def State.put (s : State) (x : Post) : State := { s with fabric := { s.fabric with outbox := s.fabric.outbox ++ [x] } }

/-- A flit leaves by a port. -/
def State.putFlit (s : State) (p : Nat) (f : Flit) : State := s.put { port := some p, dst := 0, page := none, msg := .flit f }

/-- Send a new flit on a port in a slot: it is kept until it is acknowledged; beyond 512 such, it waits (R349). -/
def State.sendFlit (s : State) (p : Nat) (slot : Bool) (kind vc : Nat) (text : List Byte) : State :=
  let x := s.fabric.ports.getD p .reset
  if !x.up then s
  else if x.unacked.length ≥ 512 then s.modPort p fun y => { y with waiting := y.waiting ++ [(kind, vc, text)] }
  else
    let k : Kept := { seq := x.sendSeq, kind, vc, slot, text := flitText text }
    let (f, y) := x.seal k
    (s.modPort p fun _ => { y with sendSeq := x.sendSeq + 1, unacked := x.unacked ++ [k] }).putFlit p f

/-- Send a flit in the slot in use. -/
def State.sendNow (s : State) (p kind vc : Nat) (text : List Byte) : State :=
  match activeOf (s.fabric.ports.getD p .reset).tx with
  | some b => s.sendFlit p b kind vc text
  | none => s

/-- The next number of a packet or a tag. -/
def State.stepTag (s : State) : State := { s with fabric := { s.fabric with nextTag := s.fabric.nextTag + 1 } }

/-- A message leaves by a port in DATA flits on its channel; how many they are and what they hold is not stated (log entry 55). -/
def State.carry (s : State) (p vc : Nat) : State :=
  (Config.packet s.fabric.nextTag).foldl (fun (s : State) t => s.sendNow p 1 vc t) s.stepTag

/-- The virtual channel of a message (R348). -/
def Msg.vc : Msg → Nat
  | .request r => match r with | .collWrite .. => 2 | .collRead .. => 2 | _ => 0
  | .reply j _ _ => if j.isSome then 2 else 1
  | .refuse j _ => if j.isSome then 2 else 1
  | .retry j _ => if j.isSome then 2 else 1
  | .poisoned j _ => if j.isSome then 2 else 1
  | .access _ => 0
  | .notice .. => 3
  | _ => 2

/-- Send a message, by a live plane or as soon as there is one. -/
def State.post (s : State) (dst : Nat) (page : Option Nat) (m : Msg) : State :=
  match s.route dst page with
  | some p => (s.put { port := some p, dst, page, msg := m }).carry p m.vc
  | none => s.put { port := none, dst, page, msg := m }

/-- The virtual page of an address, as the hash of R328 takes it (log entry 55). -/
def pageNo (va : Word) : Option Nat := some (va.toNat / 2 ^ 14)

/-- Send a request that a command awaits the answer of; `m` makes it from its tag. -/
def State.ask (s : State) (cmd dst : Nat) (page : Option Nat) (m : Nat → Msg) : State :=
  let t := s.fabric.nextTag
  let x : InFlight := { tag := t, cmd, post := { port := s.route dst page, dst, page, msg := m t }, again := false }
  let s := s.stepTag.post dst page (m t)
  { s with fabric := { s.fabric with inFlight := s.fabric.inFlight ++ [x] } }

/-- A message that waits in the hub is a request that was re-sent while no plane was live. -/
def State.resent (s : State) (x : Post) : Bool := s.fabric.inFlight.any fun y => y.again && y.post == x

/-- Messages that wait in the hub leave, oldest first, where they may: one that was re-sent does not wait for itself. -/
def State.repost (s : State) : State :=
  let held := s.fabric.outbox.filter fun x => x.port.isNone
  held.foldl (fun (s : State) x =>
    match if s.resent x then s.planeFor x.dst x.page else s.route x.dst x.page with
    | some p =>
      let s := { s with fabric := { s.fabric with
        inFlight := s.fabric.inFlight.map fun (y : InFlight) => if y.post == x then { y with post := { x with port := some p } } else y } }
      (s.put { x with port := some p }).carry p x.msg.vc
    | none => s.put x)
    { s with fabric := { s.fabric with outbox := s.fabric.outbox.filter fun x => x.port.isSome } }

/-- An exponent's request has been answered: the agreed one has come back from its owner (R341), and what waited behind it may leave
(R352). -/
def State.exponentAnswered (s : State) (cmd owner job seq : Nat) (y : Word) : State :=
  let hit (x : InFlight) : Bool := x.cmd == cmd && x.post.dst == owner &&
    match x.post.msg with | .exponent _ j n z _ _ => j == job && n == seq && z == y | _ => false
  ({ s with fabric := { s.fabric with inFlight := s.fabric.inFlight.filter fun x => !hit x } } : State).repost

/-- The requests of a command have been answered. -/
def State.answered (s : State) (cmd : Nat) : State :=
  ({ s with fabric := { s.fabric with inFlight := s.fabric.inFlight.filter fun x => x.cmd != cmd } } : State).repost

/-- Requests in flight on a link that has died are re-sent on another live plane with their tags (R352). -/
def State.resend (s : State) (p : Nat) : State :=
  let hit := s.fabric.inFlight.filter fun x => x.post.port == some p
  hit.foldl (fun (s : State) x =>
    let y := { x.post with port := s.planeFor x.post.dst x.post.page }
    let s := { s with fabric := { s.fabric with
      inFlight := s.fabric.inFlight.map fun (z : InFlight) => if z.tag == x.tag then { z with post := y, again := true } else z } }
    match y.port with
    | some q => (s.put y).carry q y.msg.vc
    | none => s.put y) s

/-! ## Accesses of this module's own to other modules and to switch memory (R328, R348) -/

/-- The request of an access leaves as DATA on VC 0; one that writes a DUP2 page leaves for both planes (R326, R348). -/
def State.sendOut (s : State) (p : Phys) (w : Bool) : State :=
  if s.leaves p then (if w then s.ways p else (s.ways p).take 1).foldl (fun s k => s.carry k 0) s else s

/-- The requests of a command on pages of other modules are on their way until it is answered (R352). -/
def State.onWay (s : State) (cmd : Nat) (ps : List Phys) : State :=
  (((ps.filter fun p => Pte.tgt p.pte == 3 && s.leaves p).map fun p => (Pte.node p.pte, p.page)).eraseDups).foldl (fun (s : State) x =>
    let t := s.fabric.nextTag
    let y : InFlight := { tag := t, cmd, post := { port := s.route x.1 (some x.2), dst := x.1, page := some x.2, msg := .access t }, again := false }
    let s := s.stepTag
    { s with fabric := { s.fabric with inFlight := s.fabric.inFlight ++ [y] } }) s

/-- A request of a command waits in the hub for a plane: nothing can answer it (R352). -/
def State.stranded (s : State) (cmd : Nat) : Bool := s.fabric.inFlight.any fun x => x.cmd == cmd && x.post.port.isNone

/-- Bytes moved, which the token bucket of a context counts (R375). -/
def State.countMoved (s : State) (c n : Nat) : State := s.setCtx c fun x => { x with moved := x.moved + n }

/-- What an access of a context leaves on its way beside its bytes: its request where it leaves the module, and its count in the
bucket where it reaches T1, T2, the host or the fabric (R348, R375, log entry 36). -/
def State.travels (s : State) (c : Nat) (p : Phys) (n : Nat) (w : Bool) : State :=
  let s := s.sendOut p w
  if Pte.tgt p.pte = 5 then s else s.countMoved c n

end Sys2Proof.Machine
end

