-- ==== Sys2Proof/Machine/Shares.lean ====
section
/-! DEFINITION. A core's parts (R13, R221, R412) and the on-chip physical map (R222, R223). -/

namespace Sys2Proof.Machine

/-- The level whose instances are a block's shares: the highest at or below the block bound to partition or core (R221). -/
def LaunchRec.shareLevel (r : LaunchRec) : Nat :=
  ((List.range r.blklv).map (· + 1)).foldl (fun acc k => if r.bind.getD (k - 1) 5 ≤ 1 then k else acc) 1

/-- The level whose instances are placement units: the highest whose binding is not FREE (R367). -/
def LaunchRec.unitLevel (r : LaunchRec) : Nat :=
  ((List.range r.top).map (· + 1)).foldl (fun acc k => if r.bind.getD (k - 1) 5 ≤ 4 then k else acc) 1

/-- RLIVE as a count of registers. -/
def LaunchRec.live (r : LaunchRec) : Nat := if r.rlive = 0 then 256 else r.rlive

/-- Whether S slots of a launch fit a core (R221). -/
def LaunchRec.slotsFit (r : LaunchRec) (k : Nat) : Bool :=
  let g := r.extent 1
  let n := r.slicesIn r.shareLevel / g
  k * n * g * 16 * r.live ≤ r.sreg * 16384 &&
  (if r.bind.getD (r.shareLevel - 1) 5 = 0 then k ≤ 4 * (64 / (n * g)) else k * n ≤ 4 * (64 / g))

/-- S (R221); 0 when even one slot does not fit. -/
def LaunchRec.slots (r : LaunchRec) : Nat := ([16, 8, 4, 2, 1].find? r.slotsFit).getD 0

/-- Bytes of a slot: scratch/S, rounded down to 1 KiB (R221). -/
def LaunchRec.slotBytes (r : LaunchRec) : Nat := if r.slots = 0 then 0 else r.sscr * 16384 / r.slots / 1024 * 1024

/-- The key of a byte of the on-chip map. -/
def opmKey (pa : Nat) : Nat := 6 * 2 ^ 60 + pa

/-- The physical address of a byte of a slot (R222). -/
def scratchPa (r : LaunchRec) (sh : Share) (off : Nat) : Nat := sh.core * 2 ^ 22 + 2 ^ 20 + sh.slot * r.slotBytes + off

/-- What a byte of the on-chip map belongs to (R222). -/
inductive OpmLoc where
  | reg (blk slice r lane byte : Nat)
  | scratch (blk share off : Nat)
  | tile (blk share t word byte : Nat)
  deriving DecidableEq, Repr

def OpmLoc.block : OpmLoc → Nat
  | .reg b _ _ _ _ | .scratch b _ _ | .tile b _ _ _ _ => b

/-- The shares on a core of the resident blocks of a context: block and index. -/
def State.sharesOn (s : State) (c core : Nat) : List (Block × Nat × Share) :=
  (s.blocks.filter (fun b => (s.lrOf b).ctx == c)).flatMap fun b =>
    (b.shares.zipIdx.filter (fun x => x.1.core == core)).map (fun x => (b, x.2, x.1))

/-- The slice, slot or tile of a context that holds a byte; none where no resident block of it does. -/
def State.opmLoc (s : State) (c pa : Nat) : Option OpmLoc :=
  let core := pa / 2 ^ 22
  let off := pa % 2 ^ 22
  if off < 2 ^ 20 then
    let w := off / 4
    (s.sharesOn c core).findSome? fun x =>
      (x.1.slices.find? (fun sl => sl.share == x.2.1 && sl.part == w / 65536 && sl.pos == w / 1024 % 64)).bind fun sl =>
        if w / 4 % 256 < (s.lrOf x.1).live then some (.reg x.1.uid sl.num (w / 4 % 256) (w % 4) (off % 4)) else none
  else if off < 2 ^ 21 then
    let so := off - 2 ^ 20
    (s.sharesOn c core).findSome? fun x =>
      let n := (s.lrOf x.1).slotBytes
      if x.2.2.slot * n ≤ so && so < (x.2.2.slot + 1) * n then some (.scratch x.1.uid x.2.1 (so - x.2.2.slot * n)) else none
  else if off < 2 ^ 21 + 2 ^ 16 then
    let ao := off - 2 ^ 21
    (s.sharesOn c core).findSome? fun x =>
      let r := s.lrOf x.1
      let t := ao / 1024
      if r.accb ≤ t && t < r.accb + r.accn then some (.tile x.1.uid x.2.1 (t - r.accb) (ao % 1024 / 4) (ao % 4)) else none
  else none

def Tile.word (t : Tile) (i : Nat) : LWord := Cells.get 0 t.words i
def Tile.setWord (t : Tile) (i : Nat) (x : LWord) : Tile := { t with words := Cells.set 0 t.words i x }
def Share.tile (sh : Share) (t : Nat) : Tile := sh.tiles.getD t .reset

/-- A word with one of its bytes replaced. -/
def setByte (x : LWord) (i : Nat) (b : Byte) : LWord :=
  (x &&& ~~~ (0xFF#32 <<< (8 * i))) ||| (b.setWidth 32 <<< (8 * i))

def State.opmRead (s : State) : OpmLoc → Byte
  | .reg blk sl r l i =>
    match (s.block? blk).bind (fun b => b.slice? sl) with
    | some x => (x.rv r l).extractLsb' (8 * i) 8
    | none => 0
  | .scratch blk sh off => match s.block? blk with | some b => Cells.get 0 (b.share sh).scratch off | none => 0
  | .tile blk sh t w i => match s.block? blk with | some b => (((b.share sh).tile t).word w).extractLsb' (8 * i) 8 | none => 0

def State.opmWrite (s : State) (l : OpmLoc) (x : Byte) : State :=
  match l with
  -- a register at or above LIVE reads zero (R36, R293)
  | .reg blk sl r ln i => s.modSlice blk sl (fun y => if r < y.live then y.wv r ln (setByte (y.rv r ln) i x) else y)
  | .scratch blk sh off => s.modShare blk sh (fun y => { y with scratch := Cells.set 0 y.scratch off x })
  | .tile blk sh t w i =>
    s.modShare blk sh (fun y => { y with tiles := y.tiles.modify t (fun z => z.setWord w (setByte (z.word w) i x)) })

/-- Read bytes of a share's slot. -/
def Share.read (sh : Share) (off n : Nat) : List Byte := Cells.bytes sh.scratch off n
def Share.write (sh : Share) (off : Nat) (bs : List Byte) : Share := { sh with scratch := Cells.putBytes sh.scratch off bs }

/-! ## Chrysalis images (R395) -/

def roundUp (n k : Nat) : Nat := (n + k - 1) / k * k

/-- The parts of an image and their sizes (R395): slice records, scratchpad, tiles, tasks, engine part, buffers, codebooks. -/
def LaunchRec.imageParts (r : LaunchRec) (b : Block) : List Nat :=
  let h := b.shares.length
  let n := b.slices.length
  [n * (4096 + 16 * r.live), h * r.slotBytes, roundUp (h * 1056 * r.accn) 64, h * 5120, h * 1024, if r.det then n * 33024 else 0,
    16384 * (b.shares.filter (fun sh => sh.bookTag)).length]

/-- ISIZE. -/
def LaunchRec.imageSize (r : LaunchRec) (b : Block) : Nat := 64 + (r.imageParts b).foldl (· + ·) 0

/-- Where the parts of an image begin, each at a multiple of 64. -/
def offsets : Nat → List Nat → List Nat
  | _, [] => []
  | at_, n :: ns => roundUp at_ 64 :: offsets (roundUp at_ 64 + n) ns

/-- Bytes that the hub writes to T1; poison goes with what is overwritten. -/
def State.areaWrite (s : State) (pa : Nat) (bs : List Byte) : State :=
  let ks := (List.range bs.length).map fun i => t1Key false (pa + i)
  { s with mem := { s.mem.pokeMany (ks.zip bs) with poison := s.mem.poison.filter (fun k => !ks.contains k) } }

/-- Where the part of a share begins in the image of a saved block, of those that lie from an address on: its scratchpad slot. -/
def LaunchRec.slotImage (r : LaunchRec) (uid share : Nat) : Nat → List Block → Option Nat
  | _, [] => none
  | a, b :: bs =>
    if b.uid = uid then some (a + (offsets 64 (r.imageParts b)).getD 1 0 + share * r.slotBytes)
    else r.slotImage uid share (roundUp (a + r.imageSize b) 64) bs

/-- The address of a saved block's slot in its image. -/
def State.slotImage (s : State) (uid share : Nat) : Option Nat :=
  s.launches.findSome? fun l => l.waiting.findSome? fun w => l.rcd.slotImage uid share w.addr w.saved

/-! ## Paths (R238) -/

/-- A path's counter. -/
def Share.path (sh : Share) (k : Nat) : Nat := ((sh.paths.getD k []).map (fun p => p.n)).foldl (· + ·) 0

def Share.issuePath (sh : Share) (k : Nat) (p : PathOp) : Share := { sh with paths := sh.paths.modify k (fun l => l ++ [p]) }

/-- An operation returns; returns are counted in issue order. -/
def Share.returnPath (sh : Share) (k id : Nat) : Share :=
  { sh with paths := sh.paths.modify k (fun l =>
      (l.map (fun p => if p.id == id then { p with returned := true } else p)).dropWhile (fun p => p.returned)) }

/-! ## Timelines (R251) -/

/-- Close the gap behind the completions that ran ahead. -/
def Timeline.settle : Nat → Timeline → Timeline
  | 0, t => t
  | n + 1, t =>
    if t.early.contains (t.done + 1) then
      Timeline.settle n { t with done := t.done + 1, early := t.early.filter (fun k => k != t.done + 1) }
    else t

/-- Operation n of the counter completes. -/
def Timeline.complete (t : Timeline) (n : Nat) : Timeline :=
  let t := { t with early := n :: t.early }
  t.settle t.early.length

def Share.timeline (sh : Share) (k : Nat) : Timeline := sh.tls.getD k .reset

/-- Accept an operation: its number. -/
def Share.accept (sh : Share) (k : Nat) : Share := { sh with tls := sh.tls.modify k (fun t => { t with accepted := t.accepted + 1 }) }

def Share.completeTl (sh : Share) (k n : Nat) : Share := { sh with tls := sh.tls.modify k (fun t => t.complete n) }

end Sys2Proof.Machine
end

