-- ==== Sys2Proof/Machine/Access.lean ====
section
/-! DEFINITION. What every memory instruction shares: the accesses of its lanes, the checks of R226 row by row, what a load
reads and what a store leaves (R227 to R229, R243, R244, R254, R259, R304 to R312). -/

namespace Sys2Proof.Machine

/-- One access: the slice and lanes it is for, the lowest position 4·ix0 + lane, the global address or the scratchpad offset or
both, their sizes and alignment, and the permissions it needs. -/
structure Acc where
  slice : Nat
  mask : Mask
  lane : Nat
  pos : Nat
  ea : Option Nat
  so : Option Nat
  size : Nat
  align : Nat
  r : Bool
  w : Bool
  deriving DecidableEq, Repr, Inhabited

/-! ## Keys -/

/-- The key under which buffers and tags know a byte of an access: one for a span-managed byte whatever its span's state. -/
def State.logKey (s : State) (p : Phys) (i : Nat) : Nat :=
  if Pte.tgt p.pte = 5 then opmKey (p.pa + i)
  else if Pte.tgt p.pte = 1 && Pte.spn p.pte then spanKey (p.pa + i)
  else s.keyOf p i

/-! ## The checks of R226 -/

/-- OPM rules for a slice (R223): loads from scratchpad and accumulator windows, stores to scratchpad windows. -/
def State.opmAllows (s : State) (c pa n : Nat) (w : Bool) : Bool :=
  (List.range n).all fun i =>
    match s.opmLoc c (pa + i) with
    | some (.scratch ..) => true
    | some (.tile ..) => !w
    | _ => false

/-- PERM, row 4. `ok` is what the instruction asks of the page beyond R226. -/
def State.permits (s : State) (c : Nat) (p : Phys) (a : Acc) (ok : Phys → Bool) : Bool :=
  (!a.r || Pte.r p.pte) && (!a.w || (Pte.w_ p.pte && !Pte.x p.pte)) && ok p &&
  (Pte.tgt p.pte != 5 || s.opmAllows c p.pa a.size a.w) &&
  (!a.r || s.admits .core 0 c p.pte p.pa a.size false) && (!a.w || s.admits .core 0 c p.pte p.pa a.size true)

/-- The key that a virtual address has now, or the one that it had where nothing translates it. -/
def State.rekey (s : State) (c va key : Nat) : Nat := match s.phys? c va with | .ok p => s.logKey p 0 | .error _ => key

/-- A launch with its tags and its counters where their pages now lie: a migration is not visible to it (R283). -/
def State.rekeyed (s : State) (l : Launch) : Launch :=
  { l with
    tags := l.tags.map fun t => { t with line := lineOf (s.rekey l.rcd.ctx t.va (128 * t.line)) }
    oau := l.oau.map fun x => { x with key := s.rekey l.rcd.ctx x.va x.key } }

/-- The launch of a block, as its tags stand now. -/
def State.tagged? (s : State) (b : Block) : Option Launch := (s.launch? b.launch).map s.rekeyed

/-- Change the tags of a block's launch. -/
def State.modTags (s : State) (b : Block) (f : Launch → Launch) : State := s.modLaunch b.launch fun l => f (s.rekeyed l)

/-- The tags of R259 on a line, which a virtual address names. -/
def Launch.tag (l : Launch) (line va : Nat) : LineTag :=
  (l.tags.find? (fun t => t.line == line)).getD { line, va := va / 128 * 128, wb := none, rb := .none }

/-- A line has these tags from now on. -/
def Launch.setTag (l : Launch) (t : LineTag) : Launch := { l with tags := t :: l.tags.filter (fun x => x.line != t.line) }

/-- The lines of an access, each with a virtual address on it. -/
def State.logLines (s : State) (p : Phys) (n : Nat) : List (Nat × Nat) :=
  ((List.range n).map fun i => (lineOf (s.logKey p i), (p.va + i) / 128 * 128)).eraseDups

/-- Whether the tags of the accessed lines, or another block's slot or tile, stop a deterministic access (R259). -/
def State.taggedOff (s : State) (b : Block) (p : Phys) (n : Nat) (w : Bool) : Bool :=
  if Pte.tgt p.pte = 5 then
    (List.range n).any fun i =>
      match s.opmLoc (s.lrOf b).ctx (p.pa + i) with
      | some x => (match s.block? x.block with | some b' => b'.launch == b.launch && b'.uid != b.uid | none => false)
      | none => false
  else
    match s.tagged? b with
    | none => false
    | some l =>
      (s.logLines p n).any fun x =>
        let t := l.tag x.1 x.2
        -- a counter's line is the OAU's alone (R276)
        l.oau.any (fun c => lineOf c.key == t.line) || (match t.wb with | some k => k != b.num | none => false) ||
        (w && match t.rb with | .none => false | .one k => k != b.num | .many => true)

/-- Set the tags of an access that a deterministic block makes. -/
def State.tagAccess (s : State) (b : Block) (p : Phys) (n : Nat) (w : Bool) : State :=
  if !(s.lrOf b).det || Pte.tgt p.pte = 5 then s
  else
    (s.logLines p n).foldl (fun s x =>
      s.modTags b fun l =>
        let t := l.tag x.1 x.2
        l.setTag (if w then { t with wb := some b.num }
          else { t with rb := match t.rb with | .none => .one b.num | .one k => if k = b.num then .one k else .many | .many => .many })) s

/-- Poison among the bytes of an access, on-chip bytes included. -/
def State.accPoisoned (s : State) (p : Phys) (n : Nat) : Bool :=
  if Pte.tgt p.pte = 5 then (List.range n).any fun i => s.mem.poison.contains (opmKey (p.pa + i)) else s.poisoned p n

/-- Row k of R226 for one access, then (row 6) what a deterministic launch may not touch, and (row 7) poison. Where row 1 fails for EA
and for SO, the event names EA (log entry 71). -/
def State.rowFails (s : State) (b : Block) (ok : Phys → Bool) (k : Nat) (a : Acc) : Option Ev :=
  let r := s.lrOf b
  let at_ (x : Option Nat) : Option Word := x.map (fun n => BitVec.ofNat 64 n)
  match k with
  | 1 =>
    if (match a.ea with | some x => x % a.align != 0 | none => false) then some { Ev.align with check := 1, addr := at_ a.ea }
    else if (match a.so with | some x => x % a.align != 0 | none => false) then some { Ev.align with check := 1, addr := at_ a.so }
    else none
  | 2 => if (match a.so with | some x => decide (x + a.size > r.slotBytes) | none => false) then
      some { Ev.perm with check := 2, detail := 0x03, addr := at_ a.so } else none
  | 3 =>
    match a.ea.map (s.walk r.ctx) with
    | some (.error f) => some { Ev.pagef with check := 3, detail := f.detail, addr := at_ a.ea }
    | _ => none
  | _ =>
    match a.ea with
    | none =>
      if k = 7 && a.r then
        match a.so.bind (fun so => (b.slice? a.slice).map (fun sl => scratchPa r (b.share sl.share) so)) with
        | some pa => if (List.range a.size).any (fun i => s.mem.poison.contains (opmKey (pa + i))) then
            some { Ev.memue with addr := at_ a.so } else none
        | none => none
      else none
    | some x =>
      match s.phys? r.ctx x with
      | .error _ => none
      | .ok p =>
        match k with
        | 4 => if s.permits r.ctx p a ok then none else some { Ev.perm with check := 4, addr := at_ a.ea }
        | 5 =>
          if s.lostPage p.pte then some { Ev.swlost with check := 5, addr := at_ a.ea, unit_ := Pte.node p.pte % 16 }
          else if Pte.tgt p.pte = 3 && s.fabric.lostPeers.contains (Pte.node p.pte) then
            some { Ev.peerlost with check := 5, addr := at_ a.ea, unit_ := Pte.node p.pte }
          else none
        | 6 => if r.det && s.taggedOff b p a.size a.w then some { Ev.detx with addr := at_ a.ea } else none
        -- a page under migration is looked at when its access goes on (R283)
        | _ => if a.r && !s.mem.frozen.contains (frozenPage p) && s.accPoisoned p a.size then some { Ev.memue with addr := at_ a.ea } else none

/-- Lanes of failing accesses, slice by slice. -/
def lanesOfAccs (l : List Acc) : List (Nat × Mask) :=
  ((l.map (fun a => a.slice)).eraseDups).map fun n =>
    (n, (l.filter (fun a => a.slice == n)).foldl (fun m a => m ||| a.mask) 0)

/-- R226: the first row, of those listed, that fails in some lane decides, at the lowest failing position. -/
def State.checkRows (s : State) (b : Block) (accs : List Acc) (ok : Phys → Bool) (rows : List Nat) : Option Ev :=
  rows.findSome? fun k =>
    match accs.filter (fun a => (s.rowFails b ok k a).isSome) with
    | [] => none
    | a :: l => (s.rowFails b ok k a).map fun e => { e with lanes := lanesOfAccs (a :: l) }

def State.checkAccs (s : State) (b : Block) (accs : List Acc) (ok : Phys → Bool) : Option Ev :=
  s.checkRows b accs ok [1, 2, 3, 4, 5, 6, 7]

/-- Where an access that has passed its checks lands. -/
def State.physOf (s : State) (c : Nat) (a : Acc) : Phys :=
  match s.phys? c (a.ea.getD 0) with
  | .ok p => p
  | .error _ => ⟨0, 0, 0⟩

/-- Remember the translations of the accesses (R220). -/
def State.rememberAll (s : State) (c : Nat) (l : List Acc) : State :=
  l.foldl (fun s a => match a.ea with | some x => s.remember c x | none => s) s

/-! ## Reading -/

/-- The bytes of memory that an access reads: on-chip, at the stack for an MS page (R228), through a cocoon, else as the
observer sees them. -/
def State.readAt (s : State) (o : Option Observer) (c : Nat) (p : Phys) (n : Nat) : List Byte :=
  if Pte.tgt p.pte = 5 then (List.range n).map fun i => match s.opmLoc c (p.pa + i) with | some l => s.opmRead l | none => 0
  else if Pte.ms p.pte then (List.range n).map fun i => s.mem.bankPeek (s.keyOf p i)
  else s.readPhys o p n

/-- Where a buffered store lands now: its page may have moved since the store was made (R283). -/
def State.homeOf (s : State) (c : Nat) (x : BufStore) : Phys :=
  match s.phys? c (x.page * 2 ^ 14 + x.pa % 2 ^ 14) with
  | .ok p => p
  | .error _ => ⟨x.pte, x.pa, x.page⟩

/-- The key under which a buffered store is known now. -/
def State.keyNow (s : State) (c : Nat) (x : BufStore) : Nat := if opmKey 0 ≤ x.key then x.key else s.logKey (s.homeOf c x) 0

/-- The byte that a slice's own buffer holds for a key, newest first (R254). -/
def State.bufByte (s : State) (c : Nat) (buf : List BufEntry) (key : Nat) : Option Byte :=
  buf.reverse.findSome? fun e =>
    match e with
    | .store x => if s.keyNow c x ≤ key then (x.data[key - s.keyNow c x]?).join else none
    | .command .. => none

/-- What a slice's load reads. -/
def State.loadBytes (s : State) (b : Block) (sl : Slice) (p : Phys) (n : Nat) : List Byte :=
  (s.readAt (some (s.observer b sl)) (s.lrOf b).ctx p n).mapIdx fun i x => (s.bufByte (s.lrOf b).ctx sl.buf (s.logKey p i)).getD x

/-- What an LDS reads of the slice's slot. -/
def State.ldsBytes (s : State) (b : Block) (sl : Slice) (off n : Nat) : List Byte :=
  let sh := b.share sl.share
  (sh.read off n).mapIdx fun i x => (s.bufByte (s.lrOf b).ctx sl.buf (opmKey (scratchPa (s.lrOf b) sh (off + i)))).getD x

/-- A page whose accesses are part of the package order (R241): T1 without MS, T2, and OPM windows. -/
def packagePage (p : Phys) : Bool := (Pte.tgt p.pte = 0 && !Pte.ms p.pte) || Pte.tgt p.pte = 1 || Pte.tgt p.pte = 5

/-- A slice's logical timestamp as it stands now (R242). -/
def State.tsOf (s : State) (b : Block) (n : Nat) : Nat :=
  match (s.block? b.uid).bind fun b => b.slice? n with | some x => x.ts | none => 0

/-- A slice loads from a line: it moves on to the line's write time (R242). -/
def State.loadTick (s : State) (b : Block) (n key : Nat) : State :=
  let (m, t) := s.mem.loadTime key (s.tsOf b n)
  { s with mem := m }.modSlice b.uid n (fun x => { x with ts := t })

/-- A slice stores to a line: it moves past the line's lease (R242). -/
def State.storeTick (s : State) (b : Block) (n key : Nat) : State :=
  let (m, t) := s.mem.storeTime key (s.tsOf b n)
  { s with mem := m }.modSlice b.uid n (fun x => { x with ts := t })

/-- A load's mark on the caches and on logical time (R230, R242): the order of the machine's steps is one in which these times
ascend along each line. -/
def State.loadMark (s : State) (b : Block) (sl : Slice) (p : Phys) (nt : Bool) : State :=
  if packagePage p then
    ({ s with mem := if nt || s.inAbsentSpan p then s.mem else s.mem.touch (s.keyOf p 0) } : State).loadTick b sl.num (s.logKey p 0)
  else s

/-! ## Scopes -/

/-- The level at which a store of a scope is held: narrower than PKG by its binding (R20, R243), none for a wider one. -/
def holdLevel (r : LaunchRec) (sc : Scope) : Option Nat :=
  match sc with
  | .lvl k => if k.toNat ≤ r.top && (k.toNat = 0 || r.bind.getD (k.toNat - 1) 5 ≤ 3) then some k.toNat else none
  | _ => none

/-- The cache that a slice on a core publishes a level's stores at: an L1 or an L2 (R20). -/
def placeOf (r : LaunchRec) (core k : Nat) : CachePlace := if k = 0 || r.bind.getD (k - 1) 5 ≤ 1 then .l1 core else .l2 (core / 48)

/-- The level up to which a release or a wider store publishes: every level below it. -/
def publishTo (r : LaunchRec) (sc : Scope) : Nat := (holdLevel r sc).getD 8

/-- A page whose accesses are FAB or SYS whatever MOD names (R228). -/
def farPage (p : Phys) : Bool := Pte.tgt p.pte = 2 || Pte.tgt p.pte = 3 || Pte.tgt p.pte = 4

/-- Operations of a slice on PEER, SWITCH and HOST pages whose replies or bytes are still to come (R245): atomics, of which `vals` asks for
those that return a value only, and loads to scratchpad, by their path (R238). -/
def State.farDue (s : State) (b : Block) (n : Nat) (vals : Bool) : Bool :=
  s.cmds.any fun c => c.block == some b.uid && c.slice == n &&
    match c.kind with | .far _ _ ws => !vals || !ws.isEmpty | .scratch .. => c.path == some 4 | _ => false

/-- A release at this scope on this page waits until what its slice has outstanding at other modules and in switch memory is
acknowledged (R245): it is of FAB or SYS scope, which a far page makes it (R228). -/
def farRelease (sc : Scope) (p : Phys) : Bool := sc == .fab || sc == .sys || farPage p

/-- An acquire publishes what others hold on the lines it reads (R244). -/
def State.acquireLines (s : State) (b : Block) (sl : Slice) (p : Phys) (n : Nat) : State :=
  let o := s.observer b sl
  { s with mem := (((List.range n).map (fun i => lineOf (s.keyOf p i))).eraseDups).foldl (fun m l => m.publishLine (some o) l) s.mem }

/-- A release of a scope by a slice publishes its narrower held stores (R244, R245). -/
def State.releaseHeld (s : State) (b : Block) (sl : Slice) (sc : Scope) : State :=
  { s with mem := s.mem.publishBelow b.uid sl.num (publishTo (s.lrOf b) sc) }

/-! ## Cocoons -/

/-- The entries that a store of these bytes makes (R307): aligned runs within each 8-byte word. -/
def storeRun (en : List Bool) : Option (Nat × Nat) :=
  let ks := (List.range 8).filter (fun i => en.getD i false)
  match ks with
  | [] => none
  | k :: _ =>
    let n := ks.length
    if (n = 1 || n = 2 || n = 4 || n = 8) && k % n = 0 && ks == (List.range n).map (fun i => k + i) then some (k, n) else none

def szCode (n : Nat) : Nat := if n = 8 then 3 else if n = 4 then 2 else if n = 2 then 1 else 0

/-- Entries of one aligned word of up to 8 bytes at offset `off`. -/
def wordEntries (off : Nat) (det : Bool) (d : List (Option Byte)) : List CocoonEntry :=
  let pad := off % 8
  let full := List.replicate pad none ++ d
  let entry (k n : Nat) : CocoonEntry :=
    { data := leWord ((List.range n).map fun i => ((full[k + i]?).join).getD 0), seq := 0, det, sz := szCode n, op := 1
      off := off - pad + k }
  let en := full.map Option.isSome
  match storeRun en with
  | some (k, n) => [entry k n]
  | none => ((List.range 8).filter (fun i => en.getD i false)).map (fun i => entry i 1)

def storeEntries (off : Nat) (det : Bool) (d : List (Option Byte)) : List CocoonEntry :=
  if d.length ≤ 8 then wordEntries off det d else wordEntries off det (d.take 8) ++ wordEntries (off + 8) det (d.drop 8)

/-- Start or join a fetch (R304): an EVICTING span fetches once it is absent. -/
def State.startFetch (s : State) (n : Nat) : State :=
  let p := s.span n
  match p.st with
  | .absent => s.setSpan { p with st := .fetching }
  | .evicting => s.setSpan { p with refetch := true }
  | _ => s

/-- Spans, of those that the entries name, that lack room after compaction (R312). -/
def State.lacksRoom (s : State) (es : List (Nat × CocoonEntry)) : List Nat :=
  ((es.map (fun e => e.1)).eraseDups).filter fun n =>
    let p := s.span n
    !p.st.copied && p.compact.cocoon.length + (es.filter (fun e => e.1 == n)).length > p.cap

def State.appendAll (s : State) (es : List (Nat × CocoonEntry)) : State :=
  es.foldl (fun s e => s.setSpan ((s.span e.1).append e.2)) s

/-- Some of these accesses cannot go on now. -/
def State.held_ (s : State) (c : Nat) (accs : List Acc) : Bool := accs.any fun a => a.ea.isSome && s.blocked (s.physOf c a)

/-- FETCHP 0b01: the first read-through of a span asks for its fetch (R315). -/
def State.policyFetch (s : State) (p : Phys) : State :=
  if s.inAbsentSpan p then
    let x := s.span (spanOf p.pa)
    if x.st == .absent && bitsOf x.pol.toNat 1 2 == 1 then s.startFetch x.num else s
  else s

/-- What reading n bytes of a context's virtual memory may ask of their spans (R315). -/
def State.readsVa (s : State) (c va n : Nat) : State :=
  (vaPages va n).foldl (fun s a => match s.phys? c a with | .ok p => s.policyFetch p | .error _ => s) s

/-- The requests of a read of n bytes leave the module, one for each page that lies beyond it (R328, R348). -/
def State.asksVa (s : State) (c va n : Nat) : State :=
  (vaPages va n).foldl (fun s a => match s.phys? c a with | .ok p => s.sendOut p false | .error _ => s) s

/-- A unit, or a slice's command, reads ranges, each an address and a number of bytes: the fetches that it asks for, and its requests. -/
def State.readsAll (s : State) (c : Nat) (l : List (Nat × Nat)) : State := l.foldl (fun s x => (s.readsVa c x.1 x.2).asksVa c x.1 x.2) s

/-- Some of these ranges cannot be read now. -/
def State.anyBlocked (s : State) (c : Nat) (l : List (Nat × Nat)) : Bool := l.any fun x => s.vaBlocked c x.1 x.2

/-! ## Writing -/

/-- A byte written to a DUP2 page is written to the partner plane too (R266, R326). -/
def State.mirror (s : State) (p : Phys) (i : Nat) (x : Byte) : State :=
  match partnerOf p.pte with
  | some k => { s with mem := s.mem.poke (switchKey k (p.pa + i)) x }
  | none => s

/-- Write one byte of an access to a place that is no absent span: on-chip, at the stack, or in the package order, held at a
level of the slice's when `hold` names one; in the package order it is written at the slice's L1, which a scope of PKG or wider
does not fix (log entry 25), or where `at_` says. -/
def State.writeByte (s : State) (b : Block) (sl : Slice) (hold : Option Nat) (seq : Nat) (nt : Bool) (at_ : Option CachePlace) (p : Phys)
    (i : Nat) (x : Byte) : State :=
  let key := s.keyOf p i
  let s := s.mirror p i x
  if Pte.tgt p.pte = 5 then
    match s.opmLoc (s.lrOf b).ctx (p.pa + i) with
    | some l => { s.opmWrite l x with mem := { s.mem with poison := s.mem.poison.filter (fun k => k != opmKey (p.pa + i)) } }
    | none => s
  else if Pte.ms p.pte then { s with mem := s.mem.bankPoke key x }
  else
    match if farPage p then none else hold with
    | some k =>
      { s with mem := s.mem.hold { block := b.uid, slice := sl.num, launch := b.launch, level := k
                                   idx := (s.lrOf b).partOf k sl.gnum, seq, place := placeOf (s.lrOf b) (b.share sl.share).core k, nt, key, val := x } }
    | none =>
      { s with mem := s.mem.store nt (at_.getD (.l1 (b.share sl.share).core)) key x }

/-- Write the enabled bytes of an access. -/
def State.writeBytes (s : State) (b : Block) (sl : Slice) (hold : Option Nat) (seq : Nat) (nt : Bool) (at_ : Option CachePlace) (p : Phys)
    (d : List (Option Byte)) : State :=
  (d.zipIdx).foldl (fun s x => match x.1 with | some v => s.writeByte b sl hold seq nt at_ p x.2 v | none => s) s

/-- A store's mark on logical time (R242): an empty store changes no lease (R229). -/
def State.storeMark (s : State) (b : Block) (sl : Slice) (p : Phys) (d : List (Option Byte)) : State :=
  if packagePage p && d.any Option.isSome then
    s.storeTick b sl.num (s.logKey p 0)
  else s

/-- The cocoon entries that stores make, each with its span. -/
def State.entriesOf (s : State) (b : Block) (l : List (Slice × Phys × List (Option Byte))) : List (Nat × CocoonEntry) :=
  l.flatMap fun x =>
    if s.inAbsentSpan x.2.1 then (storeEntries (x.2.1.pa % 2 ^ 16) (s.lrOf b).det x.2.2).map (fun e => (spanOf x.2.1.pa, e)) else []

/-- The scope that an access is performed at: PKG at least on an MS page, FAB or SYS on a far one (R228, R266). A store to an OPM
window is seen by all at once, so what its slice stored before is published with it (R244). -/
def scopeOn (p : Phys) (sc : Scope) : Scope := if farPage p || Pte.ms p.pte || Pte.tgt p.pte = 5 then .fab else sc

/-- The level at which a launch's store is held. One of a deterministic launch is published as it is performed, which R244 allows,
so that no later publication can change what another slice reads (R25). -/
def holdOf (r : LaunchRec) (sc : Scope) : Option Nat := if r.det then none else holdLevel r sc

/-- Perform one store. An append to a cocoon is seen by all at once, so what its slice stored before is published with it (R244,
R308). -/
def State.storeOne (s : State) (b : Block) (sc : Scope) (nt : Bool) (at_ : Option CachePlace) (seq : Nat)
    (x : Slice × Phys × List (Option Byte)) : State :=
  let s := s.releaseHeld b x.1 (if s.inAbsentSpan x.2.1 then .fab else scopeOn x.2.1 sc)
  let s := (s.tagAccess b x.2.1 x.2.2.length true).travels (s.lrOf b).ctx x.2.1 (x.2.2.filter Option.isSome).length true
  (if s.inAbsentSpan x.2.1 then s.appendAll (s.entriesOf b [x])
   else s.writeBytes b x.1 (holdOf (s.lrOf b) sc) seq nt at_ x.2.1 x.2.2).storeMark b x.1 x.2.1 x.2.2

/-- Perform stores in order (R227), under one sequence number. -/
def State.stored (s : State) (b : Block) (sc : Scope) (nt : Bool) (l : List (Slice × Phys × List (Option Byte)))
    (at_ : Option CachePlace := none) : State :=
  l.foldl (fun s' x => s'.storeOne b sc nt at_ s.nextId x) { s with nextId := s.nextId + 1 }

/-- The spans that an instruction of a slice has stalled for and that are not RESIDENT yet (R312). -/
def State.awaited (s : State) (x : Slice) : List Nat :=
  match x.wait with
  | .span ns | .queue _ _ _ ns => ns.filter fun n => (s.span n).st != .resident
  | _ => []

/-- The spans that stores must wait for: those that the instruction has stalled for, then those that lack room (R312). -/
def State.wants (s : State) (b : Block) (l : List (Slice × Phys × List (Option Byte))) : List Nat :=
  (l.flatMap fun x => s.awaited x.1) ++ s.lacksRoom (s.entriesOf b l)

/-- Slices stall until each of these spans is RESIDENT; their fetches are forced (R312). -/
def State.stallFor (s : State) (b : Block) (l : List Nat) (ns : List Nat) : State :=
  l.foldl (fun (s : State) n => s.modSlice b.uid n fun x => { x with wait := .span ns }) (ns.foldl State.startFetch s)

/-- Perform the stores of an instruction: room in cocoons is judged for all of them first (R312). -/
def State.performStores (s : State) (b : Block) (sc : Scope) (nt : Bool) (l : List (Slice × Phys × List (Option Byte)))
    (at_ : Option CachePlace := none) : Except State State :=
  match s.wants b l with
  | n :: ns => .error (s.stallFor b (l.map fun x => x.1.num) (n :: ns))
  | [] => .ok (s.stored b sc nt l at_)

/-- A store as it enters a buffer. -/
def bufStore (key : Nat) (p : Phys) (nt : Bool) (data : List (Option Byte)) (path : Option (Nat × Nat)) : BufStore :=
  { key, pte := p.pte, pa := p.pa, page := p.page, nt, data, path, forced := false, last := false }

/-- A store of on-chip bytes as it enters a buffer. -/
def bufChip (key : Nat) (data : List Byte) (path : Option (Nat × Nat)) : BufStore := bufStore key ⟨0, 0, 0⟩ false (data.map some) path

/-- Whether a slice's effects go to its buffer now: the parallel phase of a deterministic launch (R254). -/
def State.buffers (s : State) (b : Block) : Bool := (s.lrOf b).det && s.whole

/-- A page whose bytes are governed by their spans (R303). -/
def spanPage (p : Phys) : Bool := Pte.tgt p.pte == 1 && Pte.spn p.pte

/-- The next store of a slice on a span-managed page was made in an earlier attempt of its region. -/
def Slice.againS (sl : Slice) : Bool := !sl.handling && sl.supS.again

/-- The stores that are made: an append of an earlier attempt is not made again (R321). -/
def State.unmade (s : State) (l : List (Slice × Phys × List (Option Byte))) : List (Slice × Phys × List (Option Byte)) :=
  l.filter fun x => !(x.1.againS && s.inAbsentSpan x.2.1)

/-- Put the stores of an instruction into the private buffers (R254): all of them, also where they pass the 1,024th entry, which ends the
quantum after the instruction (R255, log entry 17). An append that an earlier attempt has committed is not made again (R321). -/
def State.bufferStores (s : State) (b : Block) (nt : Bool) (l : List (Slice × Phys × List (Option Byte))) : State :=
  let todo := s.unmade l
  let on (n : Nat) (y : Slice × Phys × List (Option Byte)) : Bool := y.1.num == n && spanPage y.2.1
  let s := todo.zipIdx.foldl (fun (s : State) x =>
    let n := x.1.1.num
    let last := !x.1.1.againS && on n x.1 && !(todo.drop (x.2 + 1)).any (on n)
    s.modSlice b.uid n fun y =>
      { y with buf := y.buf ++ [.store { bufStore (s.logKey x.1.2.1 0) x.1.2.1 nt x.1.2.2 none with last }] }) s
  (((l.filter fun x => x.1.againS && spanPage x.2.1).map fun x => x.1.num).eraseDups).foldl (fun (s : State) n =>
    s.modSlice b.uid n fun y => { y with supS := y.supS.meet }) s

/-- A slice has made a store instruction on span-managed pages, or met one that it made before. -/
def Slice.countStore (x : Slice) : Slice :=
  if x.handling then x else { x with supS := if x.supS.again then x.supS.meet else x.supS.perform none }

/-- Count the store instruction in the slices that it took to span-managed pages. -/
def State.countStores (s : State) (b : Block) (l : List (Slice × Phys × List (Option Byte))) : State :=
  (((l.filter (fun x => spanPage x.2.1)).map (fun x => x.1.num)).eraseDups).foldl (fun (s : State) n =>
    s.modSlice b.uid n Slice.countStore) s

/-- The stores of an instruction, as its mode performs them. -/
def State.storeAll (s : State) (b : Block) (sc : Scope) (nt : Bool) (l : List (Slice × Phys × List (Option Byte))) : Res :=
  if s.buffers b then .done (s.bufferStores b nt l) []
  else match s.performStores b sc nt (s.unmade l) with
    | .ok s' => .done (s'.countStores b l) []
    | .error s' => .stall s'

end Sys2Proof.Machine
end

