-- ==== Sys2Proof/Machine/Memory.lean ====
section
/-! DEFINITION. The memory instructions (R224 to R238) and PART.RANGE (R131). -/

namespace Sys2Proof.Machine

/-! ## Accesses -/

/-- The position of a lane in its gang (R16). -/
def posOf (e : Env) (sl : Slice) (l : Nat) : Nat := 4 * e.lr.ix 0 sl.gnum + l

/-- The lanes that take part, or for a scalar form the one access of the slice. -/
def accLanes (sl : Slice) (g : Guard) (scalar : Bool) : List (Nat × Mask) :=
  let m := sl.part_ g
  if scalar then (match lanes m with | [] => [] | l :: _ => [(l, m)]) else (lanes m).map (fun l => (l, 1#4 <<< l))

/-- Global accesses (R225): EA := (A + sext(B)) mod 2^64. -/
def globalAccs (e : Env) (sl : Slice) (g : Guard) (scalar : Bool) (a b : Opd) (size align : Nat) (r w : Bool) : List Acc :=
  (accLanes sl g scalar).map fun x =>
    { slice := sl.num, mask := x.2, lane := x.1, pos := posOf e sl x.1
      ea := some (wrapTo 64 ((valOf e sl x.1 64 a : Int) + offsetOf e sl x.1 b)), so := none, size, align, r, w }

/-- Scratchpad accesses (R225): SO := (A + B) mod 2^32. -/
def scratchAccs (e : Env) (sl : Slice) (g : Guard) (scalar : Bool) (a b : Opd) (size : Nat) (r w : Bool) : List Acc :=
  (accLanes sl g scalar).map fun x =>
    { slice := sl.num, mask := x.2, lane := x.1, pos := posOf e sl x.1, ea := none
      so := some ((valOf e sl x.1 32 a + valOf e sl x.1 32 b) % 2 ^ 32), size, align := size, r, w }

/-- The accesses of a gang, in ascending position. -/
def gangAccs (s : State) (b : Block) (l : List Slice) (f : Env → Slice → List Acc) : List Acc :=
  l.flatMap fun sl => f (s.envOf b sl) sl

def sliceOf (l : List Slice) (n : Nat) : Slice := (l.find? (fun x => x.num == n)).getD default

/-! ## Loads -/

/-- Write a loaded value of w bits to the registers of an access (R224). -/
def putLoad (d : Opd) (signed : Bool) (w : Nat) (a : Acc) (x : Nat) (sl : Slice) : Slice :=
  match d with
  | .v r => sl.putLane r.toNat a.lane signed w x
  | .s r => sl.ws r.toNat (BitVec.ofNat 64 (extend signed w 64 x))
  | _ => sl

/-- What global loads leave behind beside their values: acquired lines, remembered translations, marks, tags, requests, counted bytes
and fetches. -/
def State.afterLoads (s : State) (b : Block) (nt : Bool) (l : List Slice) (accs : List Acc) : State :=
  let c := (s.lrOf b).ctx
  accs.foldl (fun s a =>
    let p := s.physOf c a
    (((s.loadMark b (sliceOf l a.slice) p nt).tagAccess b p a.size false).travels c p a.size false).policyFetch p) (s.rememberAll c accs)

/-- Acquires publish before they read (R244). -/
def State.beforeLoads (s : State) (b : Block) (acq : Bool) (l : List Slice) (accs : List Acc) : State :=
  if acq then accs.foldl (fun s a => s.acquireLines b (sliceOf l a.slice) (s.physOf (s.lrOf b).ctx a) a.size) s else s

/-- What global loads to registers do: every value is read before any register is written (R227). -/
def State.loaded (s : State) (b : Block) (l : List Slice) (accs : List Acc) (acq nt : Bool) (put : Acc → Nat → Slice → Slice) : State :=
  let s0 := s.beforeLoads b acq l accs
  let vals := accs.map fun a => (a, leNat (s0.loadBytes b (sliceOf l a.slice) (s0.physOf (s.lrOf b).ctx a) a.size))
  vals.foldl (fun s v => s.modSlice b.uid v.1.slice (put v.1 v.2)) (s0.afterLoads b nt l accs)

/-- Loads to registers, after the checks. -/
def State.loadRegs (s : State) (b : Block) (l : List Slice) (accs : List Acc) (acq nt : Bool) (put : Acc → Nat → Slice → Slice) : Res :=
  match s.checkAccs b accs (fun _ => true) with
  | some e => .trap e
  | none => if s.held_ (s.lrOf b).ctx accs then .stall s else .done (s.loaded b l accs acq nt put) []

/-- The path of a load to scratchpad (R238). -/
def State.pathOf (s : State) (p : Phys) : Nat :=
  match Pte.tgt p.pte with
  | 0 => 0
  | 1 => if s.inAbsentSpan p then 5 else 0
  | 5 => 1
  | _ => 4

/-- Where an access that leaves the module is performed (R266). -/
def farOf (p : Phys) : Option Far :=
  if Pte.tgt p.pte = 3 then some (.peer (Pte.node p.pte))
  else if Pte.tgt p.pte = 4 then some (.plane (Pte.node p.pte % 16) (partnerOf p.pte))
  else none

def State.farAcc (s : State) (c : Nat) (a : Acc) : Option Far := farOf (s.physOf c a)

/-- One store to scratchpad: to the slot, or in the parallel phase of a deterministic launch to the slice's buffer. It is a store at
the block's scope (R231), so it publishes what its slice holds in narrower ones (R244). -/
def State.stsOne (s : State) (b : Block) (sl : Slice) (so : Nat) (d : List Byte) : State :=
  let pa := scratchPa (s.lrOf b) (b.share sl.share) so
  if s.buffers b then
    s.modSlice b.uid sl.num (fun y => { y with buf := y.buf ++ [.store (bufChip (opmKey pa) d none)] })
  else
    let s := s.releaseHeld b sl (.lvl (BitVec.ofNat 3 (s.lrOf b).blklv))
    ({ s.modShare b.uid sl.share (fun sh => sh.write so d) with
      mem := { s.mem with poison := s.mem.poison.filter (fun k => !(opmKey pa ≤ k && k < opmKey pa + d.length)) } } : State).storeTick
        b sl.num (opmKey pa)

/-- A slice's loads to scratchpad leave on their paths: one command for each path. In a deterministic launch they are buffer entries, and
an acquiring load of the serial phase lands at once, since it takes effect outside the buffer (R238, R254, R256).
A slice whose counts were made in an earlier attempt issues nothing (R238). -/
def State.issueScratch (s : State) (b : Block) (sl : Slice) (vals : List (Acc × Nat × List Byte)) : State :=
  let r := s.lrOf b
  if r.det && !s.buffers b then vals.foldl (fun s v => s.stsOne b sl (v.1.so.getD 0) v.2.2) s
  else if r.det then
    vals.foldl (fun s v =>
      let (id, s) := s.newId
      let pa := scratchPa r (b.share sl.share) (v.1.so.getD 0)
      (s.modShare b.uid sl.share (fun sh => sh.issuePath v.2.1 { id, n := 1, returned := false })).modSlice b.uid sl.num
        (fun x => { x with buf := x.buf ++ [.store (bufChip (opmKey pa) v.2.2 (some (v.2.1, id)))] })) s
  else if !sl.handling && sl.supC.again then s.modSlice b.uid sl.num (fun x => { x with supC := x.supC.meet })
  else
    let s := if sl.handling then s else s.modSlice b.uid sl.num (fun x => { x with supC := x.supC.perform none })
    ((vals.map (fun v => v.2.1)).eraseDups).foldl (fun s k =>
      let mine := vals.filter (fun v => v.2.1 == k)
      let (id, s) := s.newId
      let cmd : Cmd :=
        { id, ctx := r.ctx, block := some b.uid, share := sl.share, slice := sl.num, at_ := sl.pc, others := [], tl := none, path := some k
          dst := none, node := none, uq := none, hold := none
          kind := .scratch (mine.filterMap fun v => (s.farAcc r.ctx v.1).map fun f => (f, v.1.ea.getD 0))
            (mine.map (fun v => (v.1.so.getD 0, v.2.2))) }
      { (s.modShare b.uid sl.share (fun sh => sh.issuePath k { id, n := mine.length, returned := false })).onWay id
          (mine.map fun v => s.physOf r.ctx v.1) with
        cmds := s.cmds ++ [cmd] }) s

/-- A path of a share has no room for the gang's loads to scratchpad there (R238). -/
def State.pathFull (s : State) (b : Block) (l : List Slice) (accs : List Acc) : Bool :=
  ((l.map fun sl => sl.share).eraseDups).any fun n => (List.range 6).any fun k =>
    (b.share n).path k +
      (accs.filter (fun a => (sliceOf l a.slice).share == n && s.pathOf (s.physOf (s.lrOf b).ctx a) == k)).length > 65535

/-- What loads to scratchpad do: the bytes are read, and leave on their paths. -/
def State.loadsSent (s : State) (b : Block) (l : List Slice) (accs : List Acc) (acq nt : Bool) : State :=
  let c := (s.lrOf b).ctx
  let s0 := s.beforeLoads b acq l accs
  let vals := accs.map fun a =>
    (a, s0.pathOf (s0.physOf c a), s0.loadBytes b (sliceOf l a.slice) (s0.physOf c a) a.size)
  l.foldl (fun s sl =>
    match vals.filter (fun v => v.1.slice == sl.num) with
    | [] => s
    | v :: vs => s.issueScratch b sl (v :: vs)) (s0.afterLoads b nt l accs)

/-- Loads to scratchpad (R230, R238), after the checks. -/
def State.loadScratch (s : State) (b : Block) (l : List Slice) (accs : List Acc) (acq nt : Bool) : Res :=
  match s.checkAccs b accs (fun _ => true) with
  | some e => .trap e
  | none => if s.held_ (s.lrOf b).ctx accs || s.pathFull b l accs then .stall s else .done (s.loadsSent b l accs acq nt) []

/-- Add the scratchpad offset in C to global accesses (R230). -/
def withOffset (e : Env) (sl : Slice) (c : Opd) (accs : List Acc) : List Acc :=
  accs.map fun a => { a with so := some (valOf e sl a.lane 32 c) }

/-- A synchronising instruction or a plain one (R255). -/
def State.perKind (s : State) (sync : Bool) (g : Guard) (len : Nat) (f : Block → List Slice → Res) : State :=
  if sync then s.perSerial g len f else s.perGang len false f

/-- The accesses of LD and LDW: to registers, or with C an offset to scratchpad. -/
def loadAccs (s : State) (b : Block) (l : List Slice) (g : Guard) (n : Nat) (d a c off : Opd) : List Acc :=
  gangAccs s b l fun e sl =>
    if d.isNone then withOffset e sl off (globalAccs e sl g false a c n n true false) else globalAccs e sl g d.isS a c n n true false

def execLd (g : Guard) (ty : Ty) (_sc : Scope) (k : MemKind) (d a b c : Opd) (s : State) : Out :=
  let n := ty.width / 8
  .next (s.perKind (k == .sync) g (lenOf [a, b, c]) fun blk l =>
    let accs := loadAccs s blk l g n d a b c
    if d.isNone then s.loadScratch blk l accs (k == .sync) (k == .nt)
    else s.loadRegs blk l accs (k == .sync) (k == .nt) (putLoad d ty.isSigned ty.width))

def wideBytes (ty : Ty) (g4 : Bool) : Nat := if g4 ∨ ty = .b64 then 16 else 8

def execLdw (g : Guard) (ty : Ty) (_sc : Scope) (g4 : Bool) (d a b c : Opd) (s : State) : Out :=
  let n := wideBytes ty g4
  .next (s.perGang (lenOf [a, b, c]) false fun blk l =>
    let accs := loadAccs s blk l g n d a b c
    if d.isNone then s.loadScratch blk l accs false false
    else s.loadRegs blk l accs false false (putLoad d false (8 * n)))

/-- The keys of the slot's bytes that writes of a share reach. -/
def State.landKeys (s : State) (blk share : Nat) (ws : List (Nat × List Byte)) : List Nat :=
  match s.block? blk with
  | some b => ws.flatMap fun w => (List.range w.2.length).map fun i => opmKey (scratchPa (s.lrOf b) (b.share share) (w.1 + i))
  | none => []

/-- A load to scratchpad returns (R236, R238): its bytes land, poison going with what they overwrite, and its path counts it in
issue order. -/
def execScratchLoadReturn (cmd : Nat) (s : State) : Out :=
  .next (match s.cmds.find? (fun c => c.id == cmd) with
    | some c =>
      match c.kind, c.block, c.path with
      | .scratch _ ws, some blk, some k =>
        let s := s.modShare blk c.share (fun sh => (ws.foldl (fun sh w => sh.write w.1 w.2) sh).returnPath k cmd)
        ({ s with
          cmds := s.cmds.filter (fun c => c.id != cmd)
          mem := { s.mem with poison := s.mem.poison.filter fun z => !(s.landKeys blk c.share ws).contains z } } : State).answered cmd
      | _, _, _ => s
    | none => s)

/-! ## Stores -/

/-- The stores of accesses: each with its slice, where it lands and its bytes. -/
def State.storesOf (s : State) (b : Block) (l : List Slice) (accs : List Acc) (data : Acc → List (Option Byte)) :
    List (Slice × Phys × List (Option Byte)) :=
  accs.map fun a => (sliceOf l a.slice, s.physOf (s.lrOf b).ctx a, data a)

/-- Check and perform the stores of a gang. -/
def State.storeGang (s : State) (b : Block) (l : List Slice) (sc : Scope) (nt : Bool) (accs : List Acc)
    (data : Acc → List (Option Byte)) : Res :=
  match s.checkAccs b accs (fun _ => true) with
  | some e => .trap e
  | none =>
    if s.held_ (s.lrOf b).ctx accs then .stall s
    else
      let s1 := s.rememberAll (s.lrOf b).ctx accs
      s1.storeAll b sc nt (s1.storesOf b l accs data)

/-- The accesses of ST, and the bytes of each. -/
def stAccs (s : State) (b : Block) (l : List Slice) (g : Guard) (ty : Ty) (a off : Opd) : List Acc :=
  gangAccs s b l fun e sl => globalAccs e sl g false a off (ty.width / 8) (ty.width / 8) false true

def stData (s : State) (b : Block) (l : List Slice) (ty : Ty) (c : Opd) (x : Acc) : List (Option Byte) :=
  let sl := sliceOf l x.slice
  (leBytes (ty.width / 8) (tvalOf (s.envOf b sl) sl x.lane ty c)).map some

/-- ST.REL waits for what its slices have outstanding beyond the module (R245). -/
def stWaits (s : State) (b : Block) (sc : Scope) (k : MemKind) (accs : List Acc) : Bool :=
  k == .sync && accs.any fun a => farRelease sc (s.physOf (s.lrOf b).ctx a) && s.farDue b a.slice false

def execSt (g : Guard) (ty : Ty) (sc : Scope) (k : MemKind) (a b c : Opd) (s : State) : Out :=
  .next (s.perKind (k == .sync) g (lenOf [a, b, c]) fun blk l =>
    match s.storeGang blk l sc (k == .nt) (stAccs s blk l g ty a b) (stData s blk l ty c) with
    | .done s' m => if stWaits s blk sc k (stAccs s blk l g ty a b) then .stall s else .done s' m
    | r => r)

/-- The bytes of the register group of a wide store (R232). -/
def groupBytes (sl : Slice) (l n : Nat) (c : Opd) : List Byte :=
  match c with
  | .v r => (List.range (n / 4)).flatMap fun i => leBytes 4 (sl.rv (r.toNat + i) l).toNat
  | _ => []

/-- The accesses of STW, and the bytes of each that its enables choose. -/
def stwAccs (s : State) (b : Block) (l : List Slice) (g : Guard) (n : Nat) (a : Opd) : List Acc :=
  gangAccs s b l fun e sl => globalAccs e sl g false a .none n n false true

def stwData (s : State) (blk : Block) (l : List Slice) (n : Nat) (b c : Opd) (x : Acc) : List (Option Byte) :=
  let sl := sliceOf l x.slice
  let en := if b.isNone then 2 ^ n - 1 else valOf (s.envOf blk sl) sl x.lane 32 b
  (groupBytes sl x.lane n c).mapIdx fun i v => if en.testBit i then some v else none

def execStw (g : Guard) (ty : Ty) (sc : Scope) (g4 : Bool) (a b c : Opd) (s : State) : Out :=
  let n := wideBytes ty g4
  .next (s.perGang (lenOf [a, b]) false fun blk l =>
    s.storeGang blk l sc false (stwAccs s blk l g n a) (stwData s blk l n b c))

/-! ## Scratchpad (R231) -/

/-- The accesses of LDS and STS. -/
def ldsAccs (s : State) (b : Block) (l : List Slice) (g : Guard) (n : Nat) (d a off : Opd) : List Acc :=
  gangAccs s b l fun e sl => scratchAccs e sl g d.isS a off n true false

def stsAccs (s : State) (b : Block) (l : List Slice) (g : Guard) (n : Nat) (a off : Opd) : List Acc :=
  gangAccs s b l fun e sl => scratchAccs e sl g false a off n false true

/-- The key of a byte of a slice's slot. -/
def State.slotKey (s : State) (b : Block) (sl : Slice) (so : Nat) : Nat := opmKey (scratchPa (s.lrOf b) (b.share sl.share) so)

/-- What LDS does: each access's bytes of the slice's slot reach its register. -/
def State.ldsDone (s : State) (b : Block) (l : List Slice) (accs : List Acc) (n : Nat) (put : Acc → Nat → Slice → Slice) : State :=
  accs.foldl (fun s' x =>
    (s'.loadTick b x.slice (s.slotKey b (sliceOf l x.slice) (x.so.getD 0))).modSlice b.uid x.slice
      (put x (leNat (s.ldsBytes b (sliceOf l x.slice) (x.so.getD 0) n)))) s

def execLds (g : Guard) (ty : Ty) (d a b : Opd) (s : State) : Out :=
  let n := ty.width / 8
  .next (s.perGang (lenOf [a, b]) false fun blk l =>
    let accs := ldsAccs s blk l g n d a b
    match s.checkAccs blk accs (fun _ => true) with
    | some e => .trap e
    | none => .done (s.ldsDone blk l accs n (putLoad d ty.isSigned ty.width)) [])

/-- What STS does, access by access. -/
def State.stsDone (s : State) (b : Block) (l : List Slice) (ty : Ty) (c : Opd) (accs : List Acc) : State :=
  accs.foldl (fun s' x =>
    let sl := sliceOf l x.slice
    s'.stsOne b sl (x.so.getD 0) (leBytes (ty.width / 8) (tvalOf (s.envOf b sl) sl x.lane ty c))) s

def execSts (g : Guard) (ty : Ty) (a b c : Opd) (s : State) : Out :=
  .next (s.perGang (lenOf [a, b, c]) false fun blk l =>
    let accs := stsAccs s blk l g (ty.width / 8) a b
    match s.checkAccs blk accs (fun _ => true) with
    | some e => .trap e
    | none => .done (s.stsDone blk l ty c accs) [])

/-- PART.RANGE in a slice (R131). Of the base in B, the low 32 bits give T, as for the other scratchpad offsets; the rule states no
width, and no check for the ALIGN of T, which is given number 1. That the search reads poisoned bytes without MEMUE and moves neither the slice's logical timestamp nor a lease (R242) is the
model's choice too: R131 calls it no load (log entry 57). -/
def rangeSlice (s : State) (blk : Block) (g : Guard) (ty : Ty) (d a b c : Opd) (e : Env) (sl : Slice) : Except Ev Slice :=
  let n := ty.width / 8
  let t := (svalOf e sl b).toNat % 2 ^ 32
  if t % n ≠ 0 then .error { Ev.align.per sl g with check := 1, addr := some (BitVec.ofNat 64 t) }
  else
    let entry (mid : Nat) : Except Ev Nat :=
      let off := t + mid * n
      if off + n > e.lr.slotBytes then .error { Ev.perm with check := 2, detail := 0x03, addr := some (BitVec.ofNat 64 off) }
      else .ok (ordKey ty (leNat (s.ldsBytes blk sl off n)))
    let look (l : Nat) : Except Ev Nat :=
      rangeSearch entry (ordKey ty (tvalOf e sl l ty a)) 12 0 (valOf e sl l 32 c % 2 ^ 12)
    let ls := accLanes sl g d.isS
    let bad := ls.filter fun x => match look x.1 with | .error _ => true | .ok _ => false
    match bad with
    | x :: _ =>
      match look x.1 with
      | .error ev => .error (ev.in_ sl (bad.foldl (fun m y => m ||| y.2) 0))
      | .ok _ => .ok sl
    | [] => .ok (sl.setInt g d false ty.width fun l => match look l with | .ok k => k | .error _ => 0)

def execPartRange (g : Guard) (ty : Ty) (d a b c : Opd) (s : State) : Out :=
  .next (s.perGang (lenOf [a, b, c]) false fun blk l => eachSlice s g blk l (rangeSlice s blk g ty d a b c))

/-! ## Split storage (R233) -/

def splitReg (a : Opd) (sl : Slice) (i : Nat) : Word :=
  match a with
  | .s n => sl.sr (n.toNat + i)
  | _ => 0

/-- The two halves of each lane, lo before hi. -/
def splitAccs (e : Env) (sl : Slice) (g : Guard) (a b : Opd) (n : Nat) (r w : Bool) : List Acc :=
  (accLanes sl g false).flatMap fun x =>
    [(1, 0), (0, 1)].map fun (h : Nat × Nat) =>
      { slice := sl.num, mask := x.2, lane := x.1, pos := posOf e sl x.1
        ea := some ((splitReg a sl h.1).toNat + valOf e sl x.1 32 b * n), so := none, size := n, align := n, r, w }

/-- Slices whose descriptor has a reserved bit set (R233). -/
def splitBad (g : Guard) (a : Opd) (l : List Slice) : Option Ev :=
  firstEv g l fun sl =>
    if (splitReg a sl 0).toNat ≥ 2 ^ 57 || (splitReg a sl 1).toNat ≥ 2 ^ 57 then some (Ev.own.per sl g) else none

/-- The accesses of STSPLIT, lo before hi in each lane, and the bytes of each. -/
def stsplitAccs (s : State) (b : Block) (l : List Slice) (g : Guard) (n : Nat) (a off : Opd) : List Acc :=
  gangAccs s b l fun e sl => splitAccs e sl g a off n false true

def State.splitStores (s : State) (b : Block) (l : List Slice) (n : Nat) (c : Opd) (accs : List Acc) :
    List (Slice × Phys × List (Option Byte)) :=
  accs.zipIdx.map fun x =>
    let sl := sliceOf l x.1.slice
    -- even places are lo halves, odd ones hi halves
    let v := match c with | .v q => (sl.rv (q.toNat + (1 - x.2 % 2)) x.1.lane).toNat | _ => 0
    (sl, s.physOf (s.lrOf b).ctx x.1, (leBytes n v).map some)

def execStsplit (g : Guard) (ty : Ty) (sc : Scope) (a b c : Opd) (s : State) : Out :=
  let n := ty.width / 8
  .next (s.perGang (lenOf [b]) false fun blk l =>
    match splitBad g a l with
    | some e => .trap e
    | none =>
      let accs := stsplitAccs s blk l g n a b
      match s.checkAccs blk accs (fun _ => true) with
      | some e => .trap e
      | none =>
        if s.held_ (s.lrOf blk).ctx accs then .stall s
        else
          let s1 := s.rememberAll (s.lrOf blk).ctx accs
          s1.storeAll blk sc false (s1.splitStores blk l n c accs))

/-- The accesses of LDSPLIT, checked together in ascending position; `lane` + 4 marks the lo half. Where both halves of a lane fail the
row that decides, the event's address is that of the hi half; it is that of the lo half for STSPLIT, and R233 leaves open which (log
entry 71). -/
def ldsplitAccs (s : State) (b : Block) (l : List Slice) (g : Guard) (n : Nat) (a off : Opd) : List Acc :=
  let half (k : Nat) : List Acc := gangAccs s b l fun e sl => (splitAccs e sl g a off n true false).zipIdx.filterMap fun x =>
    if x.2 % 2 = k then some x.1 else none
  sortBy (fun x y => x.pos ≤ y.pos) (half 1 ++ (half 0).map (fun x => { x with lane := x.lane + 4 }))

def putSplit (d : Opd) (n : Nat) (x : Acc) (v : Nat) (sl : Slice) : Slice :=
  match d with
  | .v r => if x.lane < 4 then sl.putLane r.toNat x.lane false (8 * n) v else sl.putLane (r.toNat + 1) (x.lane - 4) false (8 * n) v
  | _ => sl

def execLdsplit (g : Guard) (ty : Ty) (_sc : Scope) (d a b : Opd) (s : State) : Out :=
  let n := ty.width / 8
  .next (s.perGang (lenOf [b]) false fun blk l =>
    match splitBad g a l with
    | some e => .trap e
    | none => s.loadRegs blk l (ldsplitAccs s blk l g n a b) false false (putSplit d n))

/-! ## Prefetch, maintenance, paths and translation (R234 to R237) -/

/-- The lanes of PREF that would pass the checks of a load. -/
def prefAccs (s : State) (blk : Block) (l : List Slice) (g : Guard) (a b : Opd) : List Acc :=
  (gangAccs s blk l fun e sl => globalAccs e sl g false a b 1 1 true false).filter fun x =>
    (s.checkAccs blk [x] (fun _ => true)).isNone

/-- What one prefetch does: PREF.INT1 on a span on its way out fetches it once it is ABSENT (R304). -/
def State.prefOne (s : State) (k : PrefKind) (p : Phys) : State :=
  if s.inAbsentSpan p || s.evicting p then (if k == .int1 then s.startFetch (spanOf p.pa) else s)
  else if (Pte.tgt p.pte = 0 && !Pte.ms p.pte) || Pte.tgt p.pte = 1 then { s with mem := s.mem.touch (s.keyOf p 0) }
  else s

def execPref (g : Guard) (k : PrefKind) (a b : Opd) (s : State) : Out :=
  .next (s.perGang (lenOf [a, b]) false fun blk l =>
    .done ((prefAccs s blk l g a b).foldl (fun s' x => s'.prefOne k (s'.physOf (s.lrOf blk).ctx x)) s) [])

/-- One page of a range, as far as it reaches. -/
structure Seg where
  pte : Word
  pa : Nat
  n : Nat
  deriving DecidableEq, Repr, Inhabited

/-- The pages of [va, va + n), each with its address, or the first address that is not translated (row 3 of R226). -/
def State.pagesOf (s : State) (c : Nat) : Nat → Nat → Nat → Except Ev (List (Nat × Seg))
  | 0, _, _ => .ok []
  | fuel + 1, va, n =>
    if n = 0 then .ok []
    else
      match s.walk c va with
      | .error f => .error { Ev.pagef with check := 3, detail := f.detail, addr := some (BitVec.ofNat 64 va) }
      | .ok leaf =>
        let m := min n (leaf.base + leaf.size - va)
        (s.pagesOf c fuel (va + m) (n - m)).map fun l => (va, ⟨(leaf.phys va).pte, (leaf.phys va).pa, m⟩) :: l

/-- A check of a page of a range: of where it lies and of how many of its bytes the range holds. -/
abbrev PageRow := Phys → Nat → Option Ev

/-- The pages of [va, va + n), or the event of the first row that fails in any of them, at the first address that fails it: that they
are translated, then each of `rows` (R226). -/
def State.segments (s : State) (c : Nat) (rows : List PageRow) (va n : Nat) : Except Ev (List Seg) :=
  match s.pagesOf c (n / 2 ^ 14 + 2) va n with
  | .error e => .error e
  | .ok l =>
    match rows.findSome? fun row => l.findSome? fun x =>
        (row ⟨x.2.pte, x.2.pa, x.1 / 2 ^ 14⟩ x.2.n).map fun e => { e with addr := some (BitVec.ofNat 64 x.1) } with
    | some e => .error e
    | none => .ok (l.map fun x => x.2)

/-- Row 4 of R226 for a page of a range that a slice reads or writes; `x` tells that a page with X is no place for the writes. -/
def State.permRow (s : State) (c : Nat) (r w x : Bool) : PageRow := fun p n =>
  if (r && !Pte.r p.pte) || (w && !Pte.w_ p.pte) || (x && Pte.x p.pte) || (Pte.tgt p.pte == 5 && !s.opmAllows c p.pa n w) ||
      (r && !s.admits .core 0 c p.pte p.pa n false) || (w && !s.admits .core 0 c p.pte p.pa n true) then
    some { Ev.perm with check := 4 }
  else none

/-- Row 5 of R226 for a page of a range. -/
def State.lostRow (s : State) : PageRow := fun p _ =>
  if s.lostPage p.pte then some { Ev.swlost with check := 5, unit_ := Pte.node p.pte % 16 }
  else if Pte.tgt p.pte = 3 && s.fabric.lostPeers.contains (Pte.node p.pte) then
    some { Ev.peerlost with check := 5, unit_ := Pte.node p.pte }
  else none

/-- The physical address of a T1 key under a placement (R219). -/
def t1Pa (sl : Bool) (key : Nat) : Nat :=
  if sl then key
  else
    let row := key / 2 ^ 16 % 2 ^ 20
    let g := (key / 2 ^ 36 % 8) * 64 + key / 2 ^ 10 % 64
    row * 2 ^ 19 + (g ^^^ (row % 2 ^ 9)) * 2 ^ 10 + key % 2 ^ 10

/-- The offset of a T1 key in the frame of 64 KiB at a physical address (R305). -/
def t1Off (f key : Nat) : Option Nat := if isT1 key && f ≤ t1Pa false key && t1Pa false key < f + 2 ^ 16 then some (t1Pa false key - f) else none

/-- The T2 address of a T1 key in the copy of a span. -/
def State.copyOf (s : State) (key : Nat) : Option Nat :=
  s.spans.findSome? fun p => (p.frame.bind fun f => t1Off f key).map fun o => p.num * 2 ^ 16 + o

/-- The lines of keys that a range reaches hold a byte of it: a line of T1 by its placement, of T2 or of a span's copy. -/
def State.segHolds (s : State) (x : Seg) (line : Nat) : Bool :=
  let near (pa : Nat) : Bool := pa < x.pa + x.n && x.pa < pa + 128
  match Pte.tgt x.pte with
  | 0 => isT1 (line * 128) && near (t1Pa (Pte.sl x.pte) (line * 128))
  | 1 =>
    if isT1 (line * 128) then Pte.spn x.pte && (s.copyOf (line * 128)).any near
    else isCached (line * 128) && near (line * 128 - t2Key 0) && !(Pte.spn x.pte && (s.span (spanOf (line * 128 - t2Key 0))).st.copied)
  | _ => false

/-- A cache lies within a scope named by a slice on `core`: an L1 scope takes the L1 of that core, an L2 scope the L1s and the L2 of
its die, any other every cache (R20, R235). -/
def scopeCovers (r : LaunchRec) (sc : Scope) (core : Nat) (x : CachePlace) : Bool :=
  match holdLevel r sc with
  | none => true
  | some k =>
    match placeOf r core k, x with
    | .l2 d, .l1 c => c / 48 == d
    | p, x => x == p

/-- The copies of a line lie within the scope: the dirty one, or clean ones, which a cache may drop at any time. -/
def Memory.covered (m : Memory) (r : LaunchRec) (sc : Scope) (core line : Nat) : Bool :=
  match m.line? line with | some x => scopeCovers r sc core x.place || !x.dirty | none => true

/-- CMAINT on one line (R235): a clean publishes what is held on it within the scope, and writes a dirty copy that is then there back;
an invalidation discards both. -/
def Memory.maintain (m : Memory) (r : LaunchRec) (sc : Scope) (core : Nat) (k : MaintKind) (line : Nat) : Memory :=
  let mine (h : HeldByte) : Bool := lineOf h.key == line && scopeCovers r sc core h.place
  let m := if k = .inv then { m with held := m.held.filter (fun h => !mine h) }
    else (m.held.filter mine).foldl (fun m h => m.publishUpTo h.block h.slice h.seq) m
  if m.covered r sc core line then
    match k with
    | .clean => m.clean line
    | .clinv => m.evict line
    | .inv => m.inval line
  else m

/-- The pages of a CMAINT of [va, va + n): R for CLEAN, and W, an X beside it or not, for INV and CLINV (R235). -/
def State.maintSegs (s : State) (c : Nat) (k : MaintKind) (va n : Nat) : Except Ev (List Seg) :=
  s.segments c [s.permRow c (k == .clean) (k != .clean) false, s.lostRow] va n

def cmaintSegs (s : State) (blk : Block) (k : MaintKind) (a b : Opd) (sl : Slice) : Except Ev (List Seg) :=
  let e := s.envOf blk sl
  s.maintSegs (s.lrOf blk).ctx k (svalOf e sl a).toNat (svalOf e sl b).toNat

/-- The lines with a copy or a held byte in the pages. -/
def State.linesIn (s : State) (sg : List Seg) : List Nat :=
  (((s.mem.lines.map (fun x => x.line)) ++ (s.mem.held.map (fun h => lineOf h.key))).eraseDups).filter fun n =>
    sg.any (fun x => s.segHolds x n)

/-- The maintenance of a range by a slice: each line with a copy or a held byte there is maintained. -/
def State.maintRange (s : State) (b : Block) (sl : Slice) (sc : Scope) (k : MaintKind) (va n : Nat) : State :=
  match s.maintSegs (s.lrOf b).ctx k va n with
  | .error _ => s
  | .ok sg => { s with mem := (s.linesIn sg).foldl (fun m line => m.maintain (s.lrOf b) sc (b.share sl.share).core k line) s.mem }

/-- What CMAINT does: each slice's range is maintained, whole as it issues; R235 lets the write-backs and discards happen at any time
before the FENCE that waits for them (log entry 25). In the parallel phase of a deterministic launch it enters the slice's buffer,
behind the stores that it follows (R254). -/
def cmaintDone (s : State) (blk : Block) (l : List Slice) (g : Guard) (sc : Scope) (k : MaintKind) (a b : Opd) : State :=
  let va (b' : Block) (sl : Slice) : Word := svalOf (s.envOf b' sl) sl a
  let n (b' : Block) (sl : Slice) : Word := svalOf (s.envOf b' sl) sl b
  overSlices s g blk l fun s' b' sl =>
    if s.buffers blk then
      s'.modSlice b'.uid sl.num fun y => { y with buf := y.buf ++ [.command (.cmaint g sc k a b) y.pc y.am (y.part_ g) 0 [va b' sl, n b' sl] false] }
    else s'.maintRange b' sl sc k (va b' sl).toNat (n b' sl).toNat

def execCmaint (g : Guard) (sc : Scope) (k : MaintKind) (a b : Opd) (s : State) : Out :=
  .next (s.perGang (lenOf [b]) false fun blk l =>
    match gangTrap g l fun sl => evOf (cmaintSegs s blk k a b sl) with
    | some e => .trap e
    | none => .done (cmaintDone s blk l g sc k a b) [])

/-- Wait, all the slices of a gang together, until each that takes part finds its condition; `w` records what it waits for. -/
def waitGang (s : State) (g : Guard) (b : Block) (l : List Slice) (holds : Slice → Bool) (w : Slice → Wait) : Res :=
  let ps := l.filter (fun x => x.part_ g != 0)
  if ps.all holds then .done s []
  else .stall (s.modBlock b.uid (fun b => b.putSlices ((ps.filter (fun x => !holds x)).map (fun x => { x with wait := w x }))))

def execWaitp (g : Guard) (path : Fin 6) (a : Opd) (s : State) : Out :=
  .next (s.perSerial g (lenOf [a]) fun blk l =>
    let n (sl : Slice) : Nat := (svalOf (s.envOf blk sl) sl a).toNat % 2 ^ 16
    waitGang s g blk l (fun sl => (blk.share sl.share).path path.val ≤ n sl) (fun sl => .waitp sl.share path.val (n sl)))

/-- The word that XLAT writes (R237). -/
def State.xlatWord (s : State) (c va : Nat) (det : Bool) : Word :=
  match s.walk c va with
  | .error f => BitVec.ofNat 64 (2 * (match f with | .nonCanonical => 1 | .invalid => 2 | .malformed => 3))
  | .ok leaf =>
    let t := leaf.pte
    let bit (x : Bool) (k : Nat) : Nat := if x then 2 ^ k else 0
    let resid := !det && Pte.tgt t = 1 && Pte.spn t && (s.span (spanOf (leaf.phys va).pa)).st == .resident
    BitVec.ofNat 64 (1 + bit (Pte.r t) 4 + bit (Pte.w_ t) 5 + bit (Pte.x t) 6 + bit (Pte.ms t) 7 + bit (Pte.sl t) 8 +
      bit (Pte.spn t) 9 + Pte.tgt t * 2 ^ 10 + bit (Pte.lost t) 13 +
      (if leaf.size = 2 ^ 14 then 0 else if leaf.size = 2 ^ 25 then 1 else 2) * 2 ^ 14 + bit resid 16)

def execXlat (g : Guard) (d a : Opd) (s : State) : Out :=
  .next (s.perSlice g (lenOf [a]) fun e sl =>
    .ok (sl.setS g d (s.xlatWord e.lr.ctx (svalOf e sl a).toNat e.lr.det)))

/-- A line leaves its publication point (R244): what is held on it is published, each store with its predecessors, and a dirty
copy is written back. -/
def execHeldStoreEviction (line : Nat) (s : State) : Out :=
  .next { s with mem := (s.mem.publishLine none line).evict line }

end Sys2Proof.Machine
end

