-- ==== Sys2Proof/Machine/Sync.lean ====
section
/-! DEFINITION. The synchronisation instructions (R245 to R258). -/

namespace Sys2Proof.Machine

/-! ## FENCE, DSYNC and QEND -/

/-- A fence waits for the atomics and loads of its slices that have not completed: those at other modules, in switch memory and at the
host whose replies are still to come; an acquire alone for those that return a value (R246). These are the slices that wait. -/
def fenceWaits (s : State) (g : Guard) (b : Block) (l : List Slice) (release : Bool) : List Slice :=
  l.filter fun x => x.part_ g != 0 && s.farDue b x.num (!release)

/-- A fence, a DSYNC with `dsync`: once nothing is due, its release half publishes the held stores of narrower scopes (R244, R246). -/
def fenceGang (s : State) (g : Guard) (b : Block) (l : List Slice) (release dsync : Bool) (sc : Scope) : Res :=
  match fenceWaits s g b l release with
  | x :: xs => .stall (s.modBlock b.uid fun b => b.putSlices ((x :: xs).map fun y => { y with wait := .fence (!release) dsync }))
  | [] => .done (if release then overSlices s g b l fun s b sl => s.releaseHeld b sl sc else s) []

/-- FENCE (R246). Every other load returns and every other store is performed before the next instruction issues. -/
def execFence (g : Guard) (sc : Scope) (k : FenceKind) (s : State) : Out :=
  .next (s.perSerial g 1 fun b l => fenceGang s g b l (k != .acq) false sc)

/-- The scope that names the block's level. -/
def blockScope (r : LaunchRec) : Scope := .lvl (BitVec.ofNat 3 r.blklv)

/-- DSYNC (R258). -/
def execDsync (g : Guard) (s : State) : Out :=
  .next (s.perSerial g 1 fun b l => fenceGang s g b l true true (blockScope (s.lrOf b)))

/-- QEND (R257). -/
def execQend (g : Guard) (s : State) : Out :=
  .next (match s.issuing with
    | some (_, l) => s.perGang 1 (l.any (fun x => x.part_ g != 0)) fun _ _ => .done s []
    | none => s)

/-! ## Barriers (R247 to R250) -/

/-- The forms of BAR (R248). -/
inductive BarForm where
  | full | arrive | wait | arriveDrop
  deriving DecidableEq, Repr

/-- The level that MOD class BLV names. -/
def barLevel (r : LaunchRec) (lv : BitVec 3) : Nat := if lv = 0 then r.blklv else lv.toNat

/-- R250, in its order: the level, its binding, the drop and the missing arrival; then DETX. -/
def barBad (r : LaunchRec) (g : Guard) (k : Nat) (form : BarForm) (sl : Slice) : Option Ev :=
  if k > r.top || r.bind.getD (k - 1) 5 = 5 then some (Ev.own.per sl g)
  else if sl.wait != .bar k && sl.wait != .made && (sl.dropped k || (form == .wait && (sl.arrival k).isNone)) then some (Ev.own.per sl g)
  else if r.det && k > r.blklv then some ({ Ev.detx with check := 11 }.per sl g)
  else none

/-- A slice arrives at its barrier of level k, or waits for the phase it has arrived in to end (R248). The region that opens
at the arrival takes it as arrived, in the wait of the instruction, which the forms that only arrive have not (R382, R384). -/
def State.barArrive (s : State) (k : Nat) (drop full : Bool) (b : Block) (sl : Slice) : State :=
  if sl.wait == .bar k || sl.wait == .made then s
  else
    let x := s.barOf b sl k
    if sl.arrival k = some x.phase then s.modSlice b.uid sl.num (fun y => { y with wait := .barWait k })
    else
      ((s.releaseHeld b sl (.lvl (BitVec.ofNat 3 k))).setBar b
        { x with arr := x.arr + 1, ndrop := if drop then x.ndrop + 1 else x.ndrop }).modSlice b.uid sl.num fun y =>
        { ({ y with arrp := y.arrp.set k (some x.phase), drop := if drop then y.drop.set k true else y.drop }.openRegion
            (y.repHere (if full then .bar k else .made))) with wait := .bar k }

/-- A slice's wait at its barrier of level k is over. -/
def State.barOver (s : State) (b : Block) (sl : Slice) (k : Nat) : Bool := sl.arrival k != some (s.barOf b sl k).phase

/-- The slices of a gang with a lane that takes part, as they stand in a state. -/
def State.takers (s : State) (g : Guard) (b : Block) (l : List Slice) : List Slice :=
  (l.filter (fun x => x.part_ g != 0)).map fun x => ((s.block? b.uid).bind (fun b => b.slice? x.num)).getD x

/-- A deterministic slice that waits runs empty quanta (R254); a wait that is no arrival opens its region here. -/
def State.emptyQuanta (s : State) (b : Block) (l : List Slice) : State :=
  if (s.lrOf b).det then
    s.modBlock b.uid fun b => b.putSlices (l.map fun x =>
      { (match x.wait with | .barWait _ | .mbobj .. => x.openRegion (x.repHere x.wait) | _ => x) with qphase := .ended })
  else s

/-- The state once the slices that take part have arrived at their barriers of level k, and the barriers have been checked. -/
def barMet (s : State) (g : Guard) (k : Nat) (drop full : Bool) (b : Block) (l : List Slice) : State :=
  (overSlices s g b l fun s b sl => s.barArrive k drop full b sl).checkBars b l [k]

/-- Each slice that takes part has arrived, and with `over` its wait is over. -/
def barDone (s : State) (g : Guard) (k : Nat) (over_ : Bool) (b : Block) (l : List Slice) : Bool :=
  (s.takers g b l).all fun x => x.wait == .made || (x.wait == .bar k && (!over_ || s.barOver b x k))

/-- BAR on the gang: the gang goes on once every slice that takes part may. -/
def barGang (s : State) (g : Guard) (lv : BitVec 3) (form : BarForm) (b : Block) (l : List Slice) : Res :=
  let r := s.lrOf b
  let k := barLevel r lv
  match firstEv g l (barBad r g k form) with
  | some e => .trap e
  | none =>
    if form = .wait then
      match waitGang s g b l (fun x => s.barOver b x k) (fun _ => .barWait k) with
      | .stall s' => .stall (s'.emptyQuanta b (s'.takers g b l))
      | x => x
    else
      let s1 := barMet s g k (form == .arriveDrop) (form == .full) b l
      if barDone s1 g k (form == .full) b l then .done s1 []
      else .stall (s1.emptyQuanta b (s1.takers g b l))

def execBar (g : Guard) (lv : BitVec 3) (s : State) : Out := .next (s.perSerial g 1 (barGang s g lv .full))
def execBarArrive (g : Guard) (lv : BitVec 3) (s : State) : Out := .next (s.perSerial g 1 (barGang s g lv .arrive))
def execBarWait (g : Guard) (lv : BitVec 3) (s : State) : Out := .next (s.perSerial g 1 (barGang s g lv .wait))
def execBarArrivedrop (g : Guard) (lv : BitVec 3) (s : State) : Out := .next (s.perSerial g 1 (barGang s g lv .arriveDrop))

/-! ## Timelines (R251 to R253) -/


/-- TLWAIT (R252). -/
def execTlwait (g : Guard) (t : BitVec 3) (c : Opd) (s : State) : Out :=
  .next (s.perSerial g (lenOf [c]) fun b l =>
    match firstEv g l fun sl => if Opd.negSmall c then some (Ev.own.per sl g) else none with
    | some e => .trap e
    | none =>
      let n (sl : Slice) : Nat := (svalOf (s.envOf b sl) sl c).toNat
      waitGang s g b l (fun sl => n sl ≤ ((b.share sl.share).timeline t.toNat).done) (fun sl => .tlwait sl.share t.toNat (n sl)))

/-- TLREAD (R253): the counter, or with B the constant 1 the operations accepted. A deterministic launch waits for those that
the commits so far have made. -/
def execTlread (g : Guard) (t : BitVec 3) (d c : Opd) (s : State) : Out :=
  .next (s.perKind (match s.issuing with | some (b, _) => (s.lrOf b).det | none => false) g 1 fun b l =>
    let tl (sl : Slice) : Timeline := (b.share sl.share).timeline t.toNat
    let put (s : State) : Res :=
      eachSlice s g b l fun _ sl =>
        if !c.isNone && c != .small 17 then .error (Ev.own.per sl g)
        else
          let x := if !c.isNone || (s.lrOf b).det then (tl sl).accepted else (tl sl).done
          .ok (sl.setS g d (BitVec.ofNat 64 x))
    if c.isNone && (s.lrOf b).det then
      match waitGang s g b l (fun sl => (tl sl).accepted ≤ (tl sl).done) (fun sl => .tlwait sl.share t.toNat (tl sl).accepted) with
      | .stall s' => .stall s'
      | _ => put s
    else put s)

end Sys2Proof.Machine
end

