-- ==== Sys2Proof/Machine/Atomic.lean ====
section
/-! DEFINITION. Atomics (R266 to R274), the ordered-append unit (R275, R276) and the skipper (R277 to R279), with their
suppression under re-execution (R280). -/

namespace Sys2Proof.Machine

/-! ## What the four atomic forms share -/

/-- Register writes that put a w-bit value into an operand (R115). -/
def putWrites (d : Opd) (signed : Bool) (w lane x : Nat) : List RegWrite :=
  match d with
  | .v r =>
    if w ≤ 32 then [.v r.toNat lane (BitVec.ofNat 32 (extend signed w 32 x))]
    else (List.range (w / 32)).map fun i => .v (r.toNat + i) lane (BitVec.ofNat 32 (x / 2 ^ (32 * i)))
  | .s r => [.s r.toNat (BitVec.ofNat 64 (extend signed w 64 x))]
  | _ => []

def Slice.writeAll (sl : Slice) (ws : List RegWrite) : Slice := ws.foldl (fun x w => w.apply x) sl

/-- A scope above the block's level (R274). -/
def widerThanBlock (r : LaunchRec) (sc : Scope) : Bool :=
  match sc with
  | .lvl k => k.toNat > r.blklv
  | _ => true

/-- One atomic instruction: whether it returns a value, what it leaves in memory (none: nothing is written), the cocoon entry
that it may be appended as (R267), and the register writes of an old value. -/
structure Atomic where
  ret : Bool
  new : Env → Slice → Acc → Nat → Option Nat
  entry : Env → Slice → Acc → Option (Nat × Nat)
  writes : Acc → Nat → List RegWrite

/-- Checks of R226 for atomics: W, and R for a form that returns a value; OPM pages are refused (R266); the read must find no
poison (R281). -/
def State.checkAtomics (s : State) (b : Block) (accs : List Acc) : Option Ev :=
  match s.checkAccs b accs (fun p => Pte.tgt p.pte != 5) with
  | some e => some e
  | none => s.checkRows b ((accs.filter (fun a => !s.inAbsentSpan (s.physOf (s.lrOf b).ctx a))).map (fun a => { a with r := true }))
      (fun _ => true) [7]

/-- A page that a deterministic launch's atomics may not reach (R274). -/
def State.atomicDetx (s : State) (p : Phys) : Bool :=
  Pte.ms p.pte || farPage p || s.inAbsentSpan p

/-- The cache that performs a slice's atomics of a scope, where a cache does (R266). -/
def State.atomicPlace (s : State) (b : Block) (sl : Slice) (sc : Scope) : CachePlace :=
  match holdLevel (s.lrOf b) sc with
  | some k => placeOf (s.lrOf b) (b.share sl.share).core k
  | none => .home

/-- Perform one access (R268): held stores on the line are published, the old value is read, and the result is written or held
at the scope; one that writes nothing has been a load (R242, R259). Answers the old value. An access that leaves the module is performed here as it issues, its reply being still to
come; so it has been performed even where its peer is lost before it replies, which R282 leaves open (log entry 20). -/
def State.atomicOne (s : State) (b : Block) (sl : Slice) (sc : Scope) (p : Phys) (size : Nat) (f : Nat → Option Nat) : Nat × State :=
  let s := { s with
    mem := (((List.range size).map (fun i => lineOf (s.keyOf p i))).eraseDups).foldl (fun m n => m.publishLine none n) s.mem }
  let m := leNat (s.readAt none (s.lrOf b).ctx p size)
  let s := match f m with
    | none => ((if packagePage p then s.loadTick b sl.num (s.logKey p 0) else s).tagAccess b p size false).travels (s.lrOf b).ctx p size true
    | some x =>
      match s.performStores b sc false [(sl, p, (leBytes size x).map some)] (some (s.atomicPlace b sl sc)) with
      | .ok s' => s'
      | .error s' => s'
  (m, s)

/-- A suppression count comes into play: the slice is not handling (R386 freezes it). -/
def Slice.againA (sl : Slice) : Bool := !sl.handling && sl.supA.again

/-- An atomic instruction retires in a slice with these writes, of which `late` come with replies: all are logged where it returns
a value. -/
def Slice.doneA (sl : Slice) (ret : Bool) (ws : List RegWrite) (late : List RegWrite := []) : Slice :=
  let sl := sl.writeAll ws
  if sl.handling then sl else { sl with supA := sl.supA.perform (if ret then some (ws ++ late) else none) }

/-- A suppressed atomic writes what its log holds. -/
def Slice.replayA (sl : Slice) : Slice := { (sl.writeAll sl.supA.logged) with supA := sl.supA.meet }

/-- The log of a slice has no room for a value-returning atomic (R280). -/
def logFull (g : Guard) (l : List Slice) : Option Ev :=
  firstEv g l fun sl =>
    if !sl.handling && !sl.supA.again && sl.supA.full then some { (Ev.illop.per sl g) with detail := 0x05 } else none

/-- The event that an atomic instruction raises: its scope in a deterministic launch, R226, its pages there, and last the log. R274 and R280
give the two DETX and the full log no place among the checks of R226 (log entry 61). -/
def State.atomicEv (s : State) (g : Guard) (b : Block) (l : List Slice) (sc : Scope) (k : Atomic) (accs : List Acc) : Option Ev :=
  let r := s.lrOf b
  match if r.det && widerThanBlock r sc then firstEv g l (fun sl => some ({ Ev.detx with check := 11 }.per sl g)) else none with
  | some e => some e
  | none =>
    match s.checkAtomics b accs with
    | some e => some e
    | none =>
      match if r.det then accs.filter (fun a => s.atomicDetx (s.physOf r.ctx a)) else [] with
      | a :: as => some { Ev.detx with lanes := lanesOfAccs (a :: as), addr := a.ea.map (fun n => BitVec.ofNat 64 n) }
      | [] => if k.ret then logFull g l else none

/-- The accesses that are not suppressed. -/
def atomicTodo (l : List Slice) (accs : List Acc) : List Acc := accs.filter (fun a => !(sliceOf l a.slice).againA)

/-- The cocoon entry of an access to a span that is not resident, none where the form makes none. -/
def State.atomicEntry (s : State) (b : Block) (l : List Slice) (k : Atomic) (a : Acc) : Option (Nat × CocoonEntry) :=
  let sl := sliceOf l a.slice
  let p := s.physOf (s.lrOf b).ctx a
  (k.entry (s.envOf b sl) sl a).map fun e =>
    (spanOf p.pa, { data := BitVec.ofNat 64 e.2, seq := 0, det := false, sz := szCode a.size, op := e.1, off := p.pa % 2 ^ 16 })

/-- Perform the accesses in ascending position; the old values with their accesses. An append is a store (R308), which all see at
once, so that what its slice stored before is published with it (R244). -/
def State.atomicRun (s : State) (b : Block) (l : List Slice) (sc : Scope) (k : Atomic) : List Acc → State × List (Acc × Nat)
  | [] => (s, [])
  | a :: rest =>
    let sl := sliceOf l a.slice
    let p := s.physOf (s.lrOf b).ctx a
    if s.inAbsentSpan p then
      match s.atomicEntry b l k a with
      | some e =>
        ((((s.releaseHeld b sl .fab).travels (s.lrOf b).ctx p a.size true).appendAll [e]).storeMark b sl p [some 0]).atomicRun b l sc k rest
      | none => s.atomicRun b l sc k rest
    else
      let (m, s) := s.atomicOne b sl sc p a.size (k.new (s.envOf b sl) sl a)
      let (s, vs) := s.atomicRun b l sc k rest
      (s, (a, m) :: vs)

/-- The spans that the accesses wait for: absent ones that a form cannot append to, or whose cocoons lack room (R267, R312). -/
def State.atomicWants (s : State) (b : Block) (l : List Slice) (k : Atomic) (todo : List Acc) : List Nat :=
  let absent := todo.filter (fun a => s.inAbsentSpan (s.physOf (s.lrOf b).ctx a))
  (l.flatMap s.awaited) ++
  (absent.filter (fun a => (s.atomicEntry b l k a).isNone)).map (fun a => spanOf (s.physOf (s.lrOf b).ctx a).pa) ++
  s.lacksRoom (absent.filterMap (s.atomicEntry b l k))

def Far.isPeer : Far → Bool
  | .peer _ => true
  | .plane .. => false

/-- The number under which the scoreboard knows a register (R277): an s register's own, a v register's above them. -/
def RegWrite.num : RegWrite → Nat
  | .s r _ => r
  | .v r _ _ => 64 + r

/-- A slice's accesses at one place outside the module await their reply: those at a peer's skipper each hold a place of q1, and
tl4 counts them (R277): one operation for each slice and peer, a count that R277 does not give (log entry 20). -/
def State.awaitFar (s : State) (b : Block) (sl : Slice) (place : Far) (accs : List Acc) (ws : List RegWrite) : State :=
  let (id, s) := s.newId
  let s := if place.isPeer then s.modShare b.uid sl.share (fun sh => sh.accept 4) else s
  let n := match s.block? b.uid with | some b => ((b.share sl.share).timeline 4).accepted | none => 0
  let cmd : Cmd :=
    { id, ctx := (s.lrOf b).ctx, block := some b.uid, share := sl.share, slice := sl.num, at_ := sl.pc, others := []
      tl := if place.isPeer then some (4, n) else none, path := none, dst := none, node := none, uq := none, hold := none
      kind := .far place ((accs.findSome? fun a => a.ea).getD 0) ws }
  { (s.modSlice b.uid sl.num fun x =>
      { x with
        q1 := if place.isPeer then x.q1 ++ List.replicate accs.length id else x.q1
        pend := ((ws.map RegWrite.num).eraseDups).map (fun r => (r, id)) ++ x.pend }).onWay id (accs.map (s.physOf (s.lrOf b).ctx)) with
    cmds := s.cmds ++ [cmd] }

/-- The writes of a slice's accesses that `p` chooses, from their old values. -/
def writesOf (k : Atomic) (vals : List (Acc × Nat)) (n : Nat) (p : Acc → Bool) : List RegWrite :=
  (vals.filter (fun v => v.1.slice == n && p v.1)).flatMap (fun v => k.writes v.1 v.2)

/-- The places outside the module that a slice's accesses reach. -/
def State.farPlaces (s : State) (c : Nat) (accs : List Acc) (n : Nat) : List Far :=
  ((accs.filter (fun a => a.slice == n)).filterMap (s.farAcc c)).eraseDups

/-- What an atomic instruction does: its accesses in order, then each slice's registers, its count, and the replies that it awaits. -/
def State.atomicDone (s : State) (g : Guard) (b : Block) (l : List Slice) (sc : Scope) (k : Atomic) (accs : List Acc) : State :=
  let c := (s.lrOf b).ctx
  let todo := atomicTodo l accs
  let r := (s.rememberAll c accs).atomicRun b l sc k todo
  overSlices r.1 g b l fun t b sl =>
    if sl.againA then t.modSlice b.uid sl.num Slice.replayA
    else
      let near := writesOf k r.2 sl.num fun a => (s.farAcc c a).isNone
      let late := writesOf k r.2 sl.num fun a => (s.farAcc c a).isSome
      (s.farPlaces c todo sl.num).foldl (fun t f =>
        t.awaitFar b sl f (todo.filter (fun a => a.slice == sl.num && s.farAcc c a == some f))
          (writesOf k r.2 sl.num fun a => s.farAcc c a == some f))
        (t.modSlice b.uid sl.num fun x => x.doneA k.ret near late)

/-- q1 has no room for the replies of a slice's accesses at peers (R277). -/
def State.q1Full (s : State) (c : Nat) (l : List Slice) (todo : List Acc) : Bool :=
  l.any fun sl =>
    let n := (todo.filter fun a => a.slice == sl.num && (s.farAcc c a).any Far.isPeer).length
    n != 0 && sl.q1.length + n > Config.q1Replies

/-- An atomic instruction on the gang; `sc` is the scope it is performed at. -/
def State.atomicGang (s : State) (g : Guard) (b : Block) (l : List Slice) (named sc : Scope) (k : Atomic) (accs : List Acc) : Res :=
  match s.atomicEv g b l named k accs with
  | some e => .trap e
  | none =>
    if s.held_ (s.lrOf b).ctx (atomicTodo l accs) || s.q1Full (s.lrOf b).ctx l (atomicTodo l accs) then .stall s
    else
      match s.atomicWants b l k (atomicTodo l accs) with
      | n :: ns => .stall (s.stallFor b (l.map fun x => x.num) (n :: ns))
      | [] => .done (s.atomicDone g b l sc k accs) []

/-- Atomics of a deterministic launch at the block's scope or narrower are synchronising (R255); the others raise there. -/
def State.perAtomic (s : State) (g : Guard) (len : Nat) (f : Block → List Slice → Res) : State :=
  s.perKind true g len f

/-- The form of an atomic (R269): scalar with an s destination, or with none and no lane register among its sources. -/
def atomScalar (d : Opd) (src : List Opd) : Bool := d.isS || (d.isNone && !src.any (fun o => o.isV))

/-- The cocoon operation of a reduction (R267, R307). -/
def redCocoon (ty : Ty) (op : RedOp) : Option Nat :=
  match op with
  | .add => some (if ty == .f32 then 0x9 else 0x2)
  | .min => some (if ty == .f32 then 0xA else if ty.isSigned then 0x3 else 0x5)
  | .max => some (if ty == .f32 then 0xB else if ty.isSigned then 0x4 else 0x6)
  | .and => some 0x7
  | .or => some 0x8
  | .xor => none

/-! ## The four forms -/

/-- ATOM (R270). -/
def atomForm (ty : Ty) (op : AtomOp) (d b c : Opd) : Atomic :=
  { ret := !d.isNone
    new := fun e sl x m =>
      let bv := tvalOf e sl x.lane ty b
      if op = .cas && m ≠ bv then none else some (atomNew ty op m bv (tvalOf e sl x.lane ty c))
    entry := fun _ _ _ => none
    writes := fun x m => putWrites d ty.isSigned ty.width x.lane m }

def atomAccs (s : State) (blk : Block) (l : List Slice) (g : Guard) (ty : Ty) (d a b c : Opd) : List Acc :=
  gangAccs s blk l fun e sl =>
    globalAccs e sl g (atomScalar d [a, b, c]) a .none (ty.width / 8) (ty.width / 8) (!d.isNone) true

def execAtom (g : Guard) (ty : Ty) (op : AtomOp) (sc : Scope) (d a b c : Opd) (s : State) : Out :=
  .next (s.perAtomic g (lenOf [a, b, c]) fun blk l =>
    s.atomicGang g blk l sc sc (atomForm ty op d b c) (atomAccs s blk l g ty d a b c))

def RedOp.atom : RedOp → AtomOp
  | .add => .add | .min => .min | .max => .max | .and => .and | .or => .or | .xor => .xor

/-- REDM (R271). -/
def redmForm (ty : Ty) (op : RedOp) (b : Opd) : Atomic :=
  { ret := false
    new := fun e sl x m => some (atomNew ty (RedOp.atom op) m (tvalOf e sl x.lane ty b) 0)
    entry := fun e sl x => (redCocoon ty op).map fun o => (o, tvalOf e sl x.lane ty b)
    writes := fun _ _ => [] }

def execRedm (g : Guard) (ty : Ty) (op : RedOp) (sc : Scope) (a b : Opd) (s : State) : Out :=
  .next (s.perAtomic g (lenOf [a, b]) fun blk l =>
    s.atomicGang g blk l sc sc (redmForm ty op b) (atomAccs s blk l g ty .none a b .none))

/-- ATOMC is performed at the home L2 slice where the scope's publication point is L1 (R272). -/
def atomcScope (r : LaunchRec) (sc : Scope) : Scope :=
  match holdLevel r sc with
  | some k => if k = 0 || r.bind.getD (k - 1) 5 ≤ 1 then .pkg else sc
  | none => sc

/-- ATOMC (R272). -/
def atomcForm (d b : Opd) : Atomic :=
  { ret := !d.isNone
    new := fun e sl x m =>
      let (hi, lo, _) := pairAdd (m % 2 ^ 32) (m / 2 ^ 32) (tvalOf e sl x.lane .f32 b)
      some (hi + lo * 2 ^ 32)
    entry := fun e sl x => if d.isNone then some (0xC, tvalOf e sl x.lane .f32 b) else none
    writes := fun x m => putWrites d false 64 x.lane m }

def atomcAccs (s : State) (blk : Block) (l : List Slice) (g : Guard) (d a b : Opd) : List Acc :=
  gangAccs s blk l fun e sl => globalAccs e sl g (atomScalar d [a, b]) a .none 8 8 (!d.isNone) true

def execAtomc (g : Guard) (sc : Scope) (d a b : Opd) (s : State) : Out :=
  .next (s.perAtomic g (lenOf [a, b]) fun blk l =>
    s.atomicGang g blk l sc (atomcScope (s.lrOf blk) sc) (atomcForm d b) (atomcAccs s blk l g d a b))

/-- ATOMW (R273). -/
def atomwSize (ty : Ty) (n : AwN) : Nat := n.num * ty.width / 8

def atomwForm (size : Nat) (d b c : Opd) : Atomic :=
  let val (e : Env) (sl : Slice) (x : Acc) (o : Opd) : Nat := valOf e sl x.lane (8 * size) o % 2 ^ (8 * size)
  { ret := !d.isNone
    new := fun e sl x m => if m = val e sl x b then some (val e sl x c) else none
    entry := fun _ _ _ => none
    writes := fun x m => putWrites d false (8 * size) x.lane m }

def atomwAccs (s : State) (blk : Block) (l : List Slice) (g : Guard) (size : Nat) (d a : Opd) : List Acc :=
  gangAccs s blk l fun e sl => globalAccs e sl g false a .none size (if size = 12 then 16 else size) (!d.isNone) true

def execAtomw (g : Guard) (ty : Ty) (n : AwN) (sc : Scope) (d a b c : Opd) (s : State) : Out :=
  .next (s.perAtomic g (lenOf [a]) fun blk l =>
    s.atomicGang g blk l sc sc (atomwForm (atomwSize ty n) d b c) (atomwAccs s blk l g (atomwSize ty n) d a))

/-! ## Ordered append -/

/-- The count of a lane of APPEND. -/
def appendCount (e : Env) (sl : Slice) (b : Opd) (lane : Nat) : Nat := valOf e sl lane 32 b

/-- A page that an append counter may lie on (R275). -/
def appendPage (p : Phys) : Bool :=
  Pte.r p.pte && ((Pte.tgt p.pte == 0 && !Pte.ms p.pte) || Pte.tgt p.pte == 1)

/-- The OAU has a counter's line (R276). -/
def Launch.oauLine (l : Launch) (key : Nat) : Bool := l.oau.any (fun c => lineOf c.key == lineOf key)

/-- What a deterministic APPEND on a counter runs into (R259, R276). -/
def State.appendDetx (s : State) (b : Block) (key va : Nat) (closing : Bool) : Option Ev :=
  match s.tagged? b with
  | none => none
  | some l =>
    let t := l.tag (lineOf key) va
    match l.oau.find? (fun c => c.key == key) with
    | some c => if !closing && c.closed.contains b.num then some Ev.detx else none
    | none =>
      if l.oau.length ≥ 64 then some { Ev.detx with detail := 0x08 }
      else if l.oauLine key then none
      else if (match t.wb with | some k => k != b.num | none => false) ||
          (match t.rb with | .none => false | .one k => k != b.num | .many => true) then some Ev.detx
      else none

/-- The OAU tracks a counter: its line is tagged as read by many. -/
def Launch.track (l : Launch) (key va : Nat) : Launch :=
  let l := l.setTag { l.tag (lineOf key) va with rb := .many }
  if l.oau.any (fun c => c.key == key) then l else { l with oau := l.oau ++ [{ key, va, closed := [] }] }

/-- A block closes on a counter. -/
def Launch.closeOn (l : Launch) (key blk : Nat) : Launch :=
  { l with oau := l.oau.map (fun c => if c.key == key then { c with closed := blk :: c.closed.filter (fun n => n != blk) } else c) }

/-- Every block with a lower number has closed on the counter or ended (R276). -/
def State.mayGrant (s : State) (b : Block) (key : Nat) : Bool :=
  match s.tagged? b with
  | none => true
  | some l =>
    !l.rcd.det ||
    (let closed := match l.oau.find? (fun c => c.key == key) with | some c => c.closed | none => []
     let alive (bs : List Block) : List Nat := (bs.filter (fun x => x.slices.any (fun y => !y.ended))).map (fun x => x.num)
     let live := alive (s.blocks.filter (fun x => x.launch == b.launch)) ++ l.waiting.flatMap (fun w => w.todo ++ alive w.saved)
     live.all (fun n => n ≥ b.num || closed.contains n))

/-- The counter's word can be reached now: its page is not frozen, and its span, where it has one, is RESIDENT (R275, R283). -/
def State.grantReady (s : State) (p : Phys) : Bool :=
  !s.mem.frozen.contains (frozenPage p) && !s.inAbsentSpan p && !s.evicting p

/-- A request for the same counter that came before and might be granted too waits still: grants keep their order (R276, R283). -/
def State.askedBefore (s : State) (cmd key : Nat) : Bool :=
  s.cmds.any fun x => decide (x.id < cmd) &&
    match x.kind, x.block.bind s.block? with
    | .grant va _, some b => (match s.phys? x.ctx va with | .ok q => s.logKey q 0 == key && s.mayGrant b key | .error _ => false)
    | _, _ => false

/-- Values of the lanes of one grant, ascending: D := counter; counter := counter + count. -/
def grantVals (m : Nat) : List (Nat × Nat) → List (Nat × Nat) × Nat
  | [] => ([], m)
  | (lane, n) :: rest => let (vs, e) := grantVals ((m + n) % 2 ^ 32) rest; ((lane, m) :: vs, e)

/-- The OAU makes a grant (R276): one fetch-and-add at PKG scope, at the home that the counter's address has now; a request whose page
gives none is refused, and tried again (R283). A span that has left since the request is fetched again (R275). -/
def execAppendGrant (cmd : Nat) (s : State) : Out :=
  .next (match s.cmds.find? (fun c => c.id == cmd) with
    | none => s
    | some c =>
      match c.kind, c.block.bind s.block? with
      | .grant va counts, some b =>
        match s.phys? c.ctx va with
        | .error _ => s
        | .ok p =>
          if s.inAbsentSpan p || s.evicting p then s.startFetch (spanOf p.pa)
          else if s.grantReady p && s.mayGrant b (s.logKey p 0) && !s.askedBefore cmd (s.logKey p 0) then
            let key := s.keyOf p 0
            if (List.range 4).any (fun i => s.mem.poison.contains (key + i)) then
              match b.slice? c.slice with
              | some sl => s.contextFault c.ctx (s.faultRec b sl Ev.memue)
              | none => s
            else
              let m := s.mem.publishLine none (lineOf key)
              let (vals, e) := grantVals (leNat ((List.range 4).map fun i => m.peek (key + i))) counts
              ({ s with
                mem := m.pokeMany ((leBytes 4 e).mapIdx fun i x => (key + i, x))
                cmds := s.cmds.map (fun x => if x.id == cmd then { x with kind := .granted vals } else x) } : State).storeTick b c.slice (s.logKey p 0)
          else s
      | _, _ => s)

/-- What a slice's APPEND comes to now: it is over with these values, it waits, or it has a request to send. -/
inductive AppendAt where
  | vals (ws : List (Nat × Nat)) | waits | asks
  deriving DecidableEq, Repr

def State.appendAt (s : State) (closing : Bool) (counts : List (Nat × Nat)) (sl : Slice) : AppendAt :=
  if closing then .vals (counts.map (fun x => (x.1, 0xFFFFFFFF)))
  else
    match sl.wait with
    | .append id =>
      match s.cmds.find? (fun c => c.id == id) with
      | some c => match c.kind with | .granted vs => .vals vs | _ => .waits
      | none => .asks
    | _ => .asks

/-- The accesses, counts and closings of APPEND. -/
def appendAccs (s : State) (blk : Block) (l : List Slice) (g : Guard) (a : Opd) : List Acc :=
  gangAccs s blk l fun e sl => globalAccs e sl g true a .none 4 4 true true

def appendCounts (s : State) (blk : Block) (g : Guard) (d b : Opd) (sl : Slice) : List (Nat × Nat) :=
  (accLanes sl g d.isS).map fun x => (x.1, appendCount (s.envOf blk sl) sl b x.1)

def appendCloses (s : State) (blk : Block) (g : Guard) (d b : Opd) (sl : Slice) : Bool :=
  (appendCounts s blk g d b sl).all (fun x => x.2 == 0)

/-- The accesses of the slices that read the counter: not of those whose counts are all zero (R275). -/
def appendReads (s : State) (blk : Block) (l : List Slice) (g : Guard) (d a b : Opd) : List Acc :=
  (appendAccs s blk l g a).filter fun x => !appendCloses s blk g d b (sliceOf l x.slice)

/-- Requests of the gang are outstanding: its checks have been made. -/
def appendUnderway (l : List Slice) : Bool := l.any fun x => match x.wait with | .append _ => true | _ => false

/-- The event that APPEND raises, before any of its requests leaves. -/
def appendEv (s : State) (g : Guard) (d a b : Opd) (blk : Block) (l : List Slice) : Option Ev :=
  let r := s.lrOf blk
  let accs := appendAccs s blk l g a
  if appendUnderway l then none
  else
    (s.checkRows blk accs appendPage (if r.det then [1, 2, 3, 4, 5] else [1, 2, 3, 4, 5, 6])) <|>
    (s.checkRows blk (appendReads s blk l g d a b) appendPage [7]) <|>
    (if r.det then
        firstEv g l fun sl => (accs.filter (fun x => x.slice == sl.num)).findSome? fun x =>
          (s.appendDetx blk (s.logKey (s.physOf r.ctx x) 0) (x.ea.getD 0) (appendCloses s blk g d b sl)).map (fun e => e.per sl g)
      else none) <|>
    logFull g l

/-- A slice's held stores are published to PKG, as a command of class E issues, or a fetch-and-add of the OAU (R244, R275). -/
def State.publishHeldOf (s : State) (b : Block) (sl : Slice) : State := { s with mem := s.mem.publishSlice b.uid sl.num }

/-- Requests leave for the slices that have none outstanding; what
these slices hold is published first. -/
def appendSent (s : State) (g : Guard) (d a b : Opd) (blk : Block) (l : List Slice) : State :=
  let r := s.lrOf blk
  (atomicTodo l (appendAccs s blk l g a)).foldl (fun s' x =>
    let sl := sliceOf l x.slice
    let closing := appendCloses s blk g d b sl
    let p := s.physOf r.ctx x
    let key := s.logKey p 0
    let s' := if r.det then s'.modTags blk (fun l =>
        let l := l.track key p.va; if closing then l.closeOn key blk.num else l) else s'
    match s'.appendAt closing (appendCounts s blk g d b sl) sl with
    | .asks =>
      let s' := (if s'.inAbsentSpan p then s'.startFetch (spanOf p.pa) else s').publishHeldOf blk sl
      let (id, s') := s'.newId
      let cmd : Cmd :=
        { id, ctx := r.ctx, block := some blk.uid, share := sl.share, slice := sl.num, at_ := sl.pc, others := [], tl := none
          path := none, dst := none, node := none, uq := none, hold := none
          kind := .grant (x.ea.getD 0) (appendCounts s blk g d b sl) }
      { s'.modSlice blk.uid sl.num (fun y => { y with wait := .append id }) with cmds := s'.cmds ++ [cmd] }
    | _ => s') s

/-- Every slice that takes part has its values. -/
def appendReady (s s1 : State) (g : Guard) (d b : Opd) (blk : Block) (l : List Slice) : Bool :=
  (l.filter (fun sl => sl.part_ g != 0)).all fun sl => sl.againA ||
    (match s1.appendAt (appendCloses s blk g d b sl) (appendCounts s blk g d b sl) sl with | .vals _ => true | _ => false)

/-- The values reach their registers, and the commands that carried them end. -/
def appendDone (s s1 : State) (g : Guard) (d b : Opd) (blk : Block) (l : List Slice) : State :=
  let s2 := overSlices s1 g blk l fun t b' sl =>
    t.modSlice b'.uid sl.num fun y =>
      if y.againA then y.replayA
      else match s1.appendAt (appendCloses s blk g d b sl) (appendCounts s blk g d b sl) sl with
        | .vals vs => y.doneA true (vs.flatMap fun v => putWrites d false 32 v.1 v.2)
        | _ => y
  { s2 with cmds := s2.cmds.filter (fun c => !(l.filter (fun sl => sl.part_ g != 0)).any (fun sl => sl.wait == .append c.id)) }

/-- APPEND on the gang (R275). -/
def appendGang (s : State) (g : Guard) (d a b : Opd) (blk : Block) (l : List Slice) : Res :=
  match appendEv s g d a b blk l with
  | some e => .trap e
  | none =>
    if s.held_ (s.lrOf blk).ctx (atomicTodo l (appendReads s blk l g d a b)) then .stall s
    else
      let s1 := appendSent s g d a b blk l
      if appendReady s s1 g d b blk l then .done (appendDone s s1 g d b blk l) [] else .stall s1

def execAppend (g : Guard) (d a b : Opd) (s : State) : Out :=
  .next (s.perKind true g (lenOf [a, b]) fun blk l => appendGang s g d a b blk l)

/-! ## The skipper -/

/-- The page that a skipper operation works in: its leaf, its size and the offset of A. -/
structure SkPage where
  leaf : Leaf
  deriving DecidableEq, Repr, Inhabited

/-- The key of a byte of the page, by its offset. -/
def SkPage.key (p : SkPage) (off i : Nat) : Nat := t1Key (Pte.sl p.leaf.pte) (Pte.frame p.leaf.pte + off + i)

/-- Read eight bytes of the page at the stack; poisoned data ends the operation (R281). -/
def State.skRead (s : State) (p : SkPage) (off : Nat) : Except Ev Nat :=
  if (List.range 8).any (fun i => s.mem.poison.contains (p.key off i)) then .error Ev.memue
  else .ok (leNat ((List.range 8).map fun i => s.mem.bankPeek (p.key off i)))

def State.skWrite (s : State) (p : SkPage) (off x : Nat) : State :=
  { s with mem := ((leBytes 8 x).zipIdx).foldl (fun m c => m.bankPoke (p.key off c.2) c.1) s.mem }

/-- The status of a pointer to a node whose bytes [0, n) are used (R279): 0 when it is good. One that is misaligned and past the page as
well has the status of the first (log entry 75). -/
def SkPage.status (p : SkPage) (x n : Nat) : Nat := if x % 8 ≠ 0 then 4 else if x + n > p.leaf.size then 3 else 0

/-- A reply word. -/
def skReply (ptr status : Nat) : Word := BitVec.ofNat 64 (ptr / 8 * 8 + status)

/-- ENQ (R279). -/
def State.skopEnq (s : State) (p : SkPage) (desc n : Nat) : Except Ev (Word × State) :=
  match s.skRead p desc, s.skRead p (desc + 8) with
  | .ok _, .ok tail =>
    let st := if p.status n 8 ≠ 0 then p.status n 8 else if tail = 0 then 0 else p.status tail 8
    if st ≠ 0 then .ok (skReply tail st, s)
    else
      let s := s.skWrite p n 0
      let s := if tail = 0 then s.skWrite p desc n else s.skWrite p tail n
      .ok (skReply tail 0, s.skWrite p (desc + 8) n)
  | .error e, _ => .error e
  | _, .error e => .error e

/-- CHASE (R279) from pointer x over at most n nodes: the pointer and the status. -/
def State.skopWalk (s : State) (p : SkPage) (koff key : Nat) : Nat → Nat → Except Ev (Nat × Nat)
  | 0, x => .ok (x, 2)
  | n + 1, x =>
    if x = 0 then .ok (0, 1)
    else if p.status x (koff + 8) ≠ 0 then .ok (x, p.status x (koff + 8))
    else
      match s.skRead p (x + koff) with
      | .error e => .error e
      | .ok k =>
        if k = key then .ok (x, 0)
        else
          match s.skRead p x with
          | .error e => .error e
          | .ok nx => s.skopWalk p koff key n nx

/-- Control words that CHASE refuses (R278). -/
def chaseBad (c : Nat) : Bool := c ≥ 2 ^ 16 || bitsOf c 5 3 != 0 || c / 256 % 8 != 0 || c % 32 = 0 || c % 32 > 16

/-- The skipper performs a slice's SKOP and sends its reply to q1 (R277). PTR of a walk that ends on a bad pointer is not
stated: it is a free value. -/
def State.skopSend (s : State) (b : Block) (sl : Slice) (d : Opd) (reply : Word) : State :=
  let s := s.publishHeldOf b sl
  let (id, s) := s.newId
  let s := s.modShare b.uid sl.share (fun sh => sh.accept 4)
  let n := match s.block? b.uid with | some b => ((b.share sl.share).timeline 4).accepted | none => 0
  let cmd : Cmd :=
    { id, ctx := (s.lrOf b).ctx, block := some b.uid, share := sl.share, slice := sl.num, at_ := sl.pc, others := [], tl := some (4, n)
      path := none, dst := match d with | .s r => some r.toNat | _ => none, node := none, uq := none, hold := none
      kind := .skip reply }
  { s.modSlice b.uid sl.num (fun x =>
      { x with
        q1 := x.q1 ++ [id], pend := match d with | .s r => (r.toNat, id) :: x.pend | _ => x.pend
        supA := if x.handling then x.supA else x.supA.performCmd id }) with
    cmds := s.cmds ++ [cmd] }
/-- The accesses of SKOP: its page, in the size that A must have there. -/
def skopAccs (s : State) (blk : Block) (l : List Slice) (g : Guard) (a : Opd) (size : Nat) (write : Bool) : List Acc :=
  gangAccs s blk l fun e sl => globalAccs e sl g true a .none size size (!write) write

/-- The event that SKOP raises before its walk: DETX, then what its control word has wrong, then R226, then the full log. R278 and R280 give
them no order (log entry 61). -/
def skopEv (s : State) (g : Guard) (a : Opd) (size : Nat) (write : Bool) (bad : Slice → Bool) (blk : Block) (l : List Slice) : Option Ev :=
  match if (s.lrOf blk).det then firstEv g l (fun sl => some ({ Ev.detx with check := 11 }.per sl g)) else none with
  | some e => some e
  | none =>
    match firstEv g l fun sl => if bad sl then some (Ev.own.per sl g) else none with
    | some e => some e
    | none =>
      match s.checkAccs blk (skopAccs s blk l g a size write) (fun p => Pte.tgt p.pte == 0 && Pte.ms p.pte && Pte.sl p.pte) with
      | some e => some e
      | none => logFull g l

/-- The skipper performs the slices' operations in order; `op` performs one in a page at an offset. -/
def skopRun (s : State) (g : Guard) (d a : Opd) (size : Nat) (write : Bool)
    (op : State → Slice → SkPage → Nat → Except Ev (Word × State)) (blk : Block) (l : List Slice) : Except Ev State :=
  let c := (s.lrOf blk).ctx
  let accs := skopAccs s blk l g a size write
  (atomicTodo l accs).foldl (fun (acc : Except Ev State) x =>
    match acc with
    | .error e => .error e
    | .ok s =>
      let sl := sliceOf l x.slice
      match s.walk c (x.ea.getD 0) with
      | .error _ => .ok s
      | .ok leaf =>
        match op s sl ⟨leaf⟩ (x.ea.getD 0 - leaf.base) with
        | .error e => .error { e with lanes := [(sl.num, x.mask)], addr := x.ea.map (fun n => BitVec.ofNat 64 n) }
        | .ok (reply, s) => .ok (s.skopSend blk sl d reply)) (.ok (s.rememberAll c accs))

/-- Suppressed slices write again what their logs hold. -/
def skopReplays (s : State) (g : Guard) (blk : Block) (l : List Slice) : State :=
  overSlices s g blk l fun s b' sl => if (sliceOf l sl.num).againA then s.modSlice b'.uid sl.num Slice.replayA else s

/-- SKOP must wait: for a page, or for room in q1. -/
def skopWaits (s : State) (g : Guard) (a : Opd) (size : Nat) (write : Bool) (blk : Block) (l : List Slice) : Bool :=
  let todo := atomicTodo l (skopAccs s blk l g a size write)
  s.held_ (s.lrOf blk).ctx todo || todo.any (fun x => (sliceOf l x.slice).q1.length ≥ Config.q1Replies)

/-- SKOP on the gang (R278). -/
def skopGang (s : State) (g : Guard) (d a : Opd) (size : Nat) (write : Bool) (bad : Slice → Bool)
    (op : State → Slice → SkPage → Nat → Except Ev (Word × State)) (blk : Block) (l : List Slice) : Res :=
  match skopEv s g a size write bad blk l with
  | some e => .trap e
  | none =>
    if skopWaits s g a size write blk l then .stall s
    else
      match skopRun s g d a size write op blk l with
      | .error e => .trap e
      | .ok s1 => .done (skopReplays s1 g blk l) []

/-- What the two SKOPs do. -/
def enqOp (blk : Block) (b : Opd) (s : State) (sl : Slice) (p : SkPage) (off : Nat) : Except Ev (Word × State) :=
  s.skopEnq p off (svalOf (s.envOf blk sl) sl b).toNat

def chaseWord (s : State) (blk : Block) (c : Opd) (sl : Slice) : Nat := (svalOf (s.envOf blk sl) sl c).toNat

def chaseOp (blk : Block) (b c : Opd) (s : State) (sl : Slice) (p : SkPage) (off : Nat) : Except Ev (Word × State) :=
  match s.skRead p off with
  | .error e => .error e
  | .ok x =>
    match s.skopWalk p (chaseWord s blk c sl / 256) (svalOf (s.envOf blk sl) sl b).toNat (chaseWord s blk c sl % 32) x with
    | .error e => .error e
    | .ok (q, st) => if st = 3 || st = 4 then let (w, s) := s.free; .ok (skReply w.toNat st, s) else .ok (skReply q st, s)

def execSkopEnq (g : Guard) (d a b : Opd) (s : State) : Out :=
  .next (s.perGang (lenOf [a, b]) false fun blk l => skopGang s g d a 16 true (fun _ => false) (enqOp blk b) blk l)

def execSkopChase (g : Guard) (d a b c : Opd) (s : State) : Out :=
  .next (s.perGang (lenOf [a, b]) false fun blk l =>
    skopGang s g d a 8 false (fun sl => chaseBad (chaseWord s blk c sl)) (chaseOp blk b c) blk l)

/-- The writes of a reply that are still awaited: a lane register that a block's LIVE has put out of reach meanwhile stays zero (R36). -/
def Slice.awaitedWrites (x : Slice) (id : Nat) (ws : List RegWrite) : List RegWrite := ws.filter fun w => x.pend.contains (w.num, id)

/-- A reply to a slice's atomic or SKOP reaches its registers, its log and its timeline. -/
def State.replied (s : State) (c : Cmd) (blk : Nat) (ws : List RegWrite) (log : Bool) : State :=
  let s := s.modSlice blk c.slice fun x =>
    { (x.writeAll (x.awaitedWrites c.id ws)) with
      q1 := x.q1.filter (fun n => n != c.id), pend := x.pend.filter (fun p => p.2 != c.id)
      supA := if log then x.supA.reply c.id ws else x.supA }
  let s := match c.tl with | some (t, n) => s.modShare blk c.share (fun sh => sh.completeTl t n) | none => s
  ({ s with cmds := s.cmds.filter (fun x => x.id != c.id) } : State).answered c.id

/-- A reply leaves q1 for its register, in issue order (R277), and tl4 counts the operation. One of a plane's banks does not come
through q1 (log entry 20). -/
def execSkipperReply (cmd : Nat) (s : State) : Out :=
  .next (match s.cmds.find? (fun c => c.id == cmd) with
    | none => s
    | some c =>
      match c.kind, c.block with
      | .skip reply, some blk =>
        match (s.block? blk).bind (fun b => b.slice? c.slice) with
        | some sl =>
          if sl.q1.head? = some cmd then
            s.replied c blk (match c.dst with | some r => [.s r reply] | none => []) true
          else s
        | none => s
      | .far place _ ws, some blk =>
        match (s.block? blk).bind (fun b => b.slice? c.slice) with
        | some sl => if !place.isPeer || sl.q1.head? = some cmd then s.replied c blk ws false else s
        | none => s
      | _, _ => s)

end Sys2Proof.Machine
end

