-- ==== Sys2Proof/Machine/Commands.lean ====
section
/-! DEFINITION. Commands to the units beside the slices: how they are checked, suppressed, buffered and sent (R212, R214, R254,
R256, R301), numbered (R251) and completed. -/

namespace Sys2Proof.Machine

/-- What a command that has gone leaves for its slice: nothing, a reply that comes with the command of that number, or register
writes made now. -/
inductive Note where
  | none
  | cmd (id : Nat)
  | vals (ws : List RegWrite)
  deriving DecidableEq, Repr

/-- What sending a command comes to: it has gone, it must wait (with what the attempt has set going, in `forced` the fetch of a span that
it waits for from now on), or it faults. -/
inductive Issued where
  | done (s : State) (n : Note)
  | waits (s : State)
  | forced (s : State)
  | bad (e : Ev)
  deriving Repr

/-- Which count a command is suppressed by: that of matrix-side operations (R214) or that of asynchronous commands (R301). -/
inductive SupKind where
  | m | c
  deriving DecidableEq, Repr

def Slice.sup (sl : Slice) : SupKind → Supp
  | .m => sl.supM
  | .c => sl.supC
def Slice.setSup (sl : Slice) (k : SupKind) (p : Supp) : Slice :=
  match k with
  | .m => { sl with supM := p }
  | .c => { sl with supC := p }

/-- Suppression applies: a handler's operations are outside it (R386). -/
def Slice.again (sl : Slice) (k : SupKind) : Bool := !sl.handling && (sl.sup k).again

/-- A suppressed command: its logged writes are made again. -/
def Slice.replay (sl : Slice) (k : SupKind) : Slice := (sl.writeAll (sl.sup k).logged).setSup k (sl.sup k).meet

/-- A command has gone: `logs` tells that it returns a value, which its log entry keeps. -/
def Supp.note (p : Supp) (logs : Bool) (n : Note) : Supp :=
  match n with
  | .none => p.perform Option.none
  | .cmd id => if logs then p.performCmd id else p.perform Option.none
  | .vals ws => p.perform (if logs then some ws else Option.none)

/-- A command has gone from a slice; `d` is the register that waits for its reply. -/
def Slice.sent (sl : Slice) (k : SupKind) (d : Option Nat) (n : Note) : Slice :=
  let sl := if sl.handling then sl else sl.setSup k ((sl.sup k).note d.isSome n)
  match n, d with
  | .vals ws, _ => sl.writeAll ws
  | .cmd id, some r => { sl with pend := (r, id) :: sl.pend }
  | _, _ => sl

/-- A sender: given the state, the block, the slice, the command's number and its captured arguments. -/
abbrev Sender := State → Block → Slice → Nat → List Word → Issued

/-- The s register that a destination names. -/
def dstOf : Opd → Option Nat
  | .s r => some r.toNat
  | _ => none

/-- The count that a buffered command joins at its commit, and whether it returns a value. -/
def Instr.supKind : Instr → Option (SupKind × Bool)
  | .qpostTask .. | .mzero .. | .mbobjArrive .. => some (.m, false)
  | .cpy _ d _ _ _ | .cpyt _ _ _ d _ | .cbook _ d _ | .qpost _ d _ _ | .spanfet _ d _ _ => some (.c, (dstOf d).isSome)
  | .mred .. | .mcmp .. => some (.c, false)
  | _ => none

/-- The commands of the open region that wait in the private buffer for a place in the log. -/
def Slice.logsDue (sl : Slice) : Nat :=
  (sl.abandoned.filter fun e => match e with | .command i _ _ _ _ _ _ => Instr.supKind i == some (.c, true) | .store _ => false).length

/-- The log of a slice has no room for a command that returns a value (R301), what its buffer still holds counted. -/
def cmdLogFull (g : Guard) (k : SupKind) (d : Option Nat) (l : List Slice) : Option Ev :=
  firstEv g l fun x =>
    if k == .c && d.isSome && !x.handling && !x.supC.again && x.supC.log.length + x.logsDue ≥ Config.logEntries then some { (Ev.illop.per x g) with detail := 0x07 } else none

/-- A slice's command goes; a suppressed one is checked as usual and writes again what its log holds (R214, R280, R301). -/
def State.sendOne (s : State) (k : SupKind) (d : Option Nat) (args : Slice → List Word) (send : Sender) (uid : Nat) (x : Slice) :
    Except Issued State :=
  match (s.block? uid).bind (fun b => (b.slice? x.num).map (fun y => (b, y))) with
  | none => .ok s
  | some (b, y) =>
    if y.again k then
      match send s.newId.2 b y s.newId.1 (args x) with
      | .bad e => .error (.bad e)
      | _ => .ok (s.modSlice uid x.num (fun z => z.replay k))
    else
      match send s.newId.2 b y s.newId.1 (args x) with
      | .done s' n => .ok (s'.modSlice uid x.num (fun z => z.sent k d n))
      | r => .error r

/-- The commands of slices go in ascending order: a slice whose command has gone waits for the others of its gang, one whose command
cannot go now waits for its room; a slice whose command is refused, with the event. -/
def State.sendAll (s : State) (k : SupKind) (d : Option Nat) (args : Slice → List Word) (send : Sender) (uid : Nat) :
    List Slice → Except (Slice × Ev) State
  | [] => .ok s
  | x :: xs =>
    match s.sendOne k d args send uid x with
    | .ok s' => (s'.modSlice uid x.num fun y => { y with wait := .made }).sendAll k d args send uid xs
    | .error (.bad e) => .error (x, e)
    -- what it asked of spans, published, unmapped and took for its task stands
    | .error (.waits s') => ({ s with blocks := s'.blocks, spans := s'.spans, mem := s'.mem, fabric := s'.fabric } : State).sendAll k d args send uid xs
    | .error (.forced s') => ({ s with spans := s'.spans, mem := s'.mem } : State).sendAll k d args send uid xs
    | .error (.done ..) => s.sendAll k d args send uid xs

/-- Every slice of these has sent its command. -/
def State.allSent (s : State) (uid : Nat) (l : List Slice) : Bool :=
  l.all fun x => ((s.block? uid).bind fun b => b.slice? x.num).all fun y => y.wait == .made

/-- Some slice of these has sent its command. -/
def State.anySent (s : State) (uid : Nat) (l : List Slice) : Bool :=
  l.any fun x => ((s.block? uid).bind fun b => b.slice? x.num).any fun y => y.wait == .made

/-- A command of a slice has been performed in an earlier attempt of its region. -/
def Slice.againAs (sl : Slice) (i : Instr) : Bool := (Instr.supKind i).any fun k => sl.again k.1

/-- Commands enter their slices' buffers (R254); one that an earlier attempt has committed writes again what its log holds (R214, R301).
It has been checked as at a push; the checks that belong to a commit, 8 to 10 of R197 and those of objects in R208, are not made for
it again, since it has no commit any more (log entry 18). -/
def State.bufferCmds (s : State) (g : Guard) (i : Instr) (d : Option Nat) (args : Slice → List Word) (uid : Nat) (l : List Slice) : State :=
  l.foldl (fun s x =>
    let (id, s) := s.newId
    s.modSlice uid x.num fun y =>
      if y.againAs i then y.replay (((Instr.supKind i).map fun k => k.1).getD .c)
      else
      { y with
        buf := y.buf ++ [.command i y.pc y.am (y.part_ g) id (args x) false]
        pend := match d with | some r => (r, id) :: y.pend | none => y.pend }) s

/-- A command of the gang, slice by slice in ascending order: all are checked first, and not again once some have gone, after which
nothing is raised (R6). In the parallel phase of a deterministic launch each enters its slice's buffer; else those that can are sent,
and the gang goes on once all are. -/
def State.cmdGang (s : State) (g : Guard) (k : SupKind) (i : Instr) (d : Option Nat) (check : Slice → Option Ev)
    (args : Slice → List Word) (send : Sender) (b : Block) (l : List Slice) : Res :=
  let act := l.filter (fun x => x.part_ g != 0 && x.wait != .made)
  let underway := l.any (fun x => x.wait == .made)
  match if underway then none else gangTrap g act check <|> cmdLogFull g k d act with
  | some e => .trap e
  | none =>
    if s.buffers b then .done (s.bufferCmds g i d args b.uid act) []
    else
      match s.sendAll k d args send b.uid act with
      | .ok s' =>
        if s'.allSent b.uid act then .done s' []
        else if underway || s'.anySent b.uid act then .stall s'
        else .stall { s with spans := s'.spans, mem := s'.mem, fabric := s'.fabric }
      | .error (x, e) => if underway then .stall s else .trap (e.per x g)

/-- Write scratchpad bytes of a slice's slot; poison goes with what is overwritten. -/
def State.scratchPut (s : State) (b : Block) (share off : Nat) (bs : List Byte) : State :=
  let k := opmKey (scratchPa (s.lrOf b) (b.share share) off)
  { s.modShare b.uid share (fun sh => sh.write off bs) with
    mem := { s.mem with poison := s.mem.poison.filter (fun x => !(k ≤ x && x < k + bs.length)) } }

/-- The bytes of slice scalars. -/
def scalarBytes (ws : List Word) : List Byte := ws.flatMap fun w => leBytes 8 w.toNat

/-- The eight scalars from a base. -/
def eightOf (sl : Slice) (a : Opd) : List Word :=
  match a with
  | .s n => (List.range 8).map fun i => sl.sr (n.toNat + i)
  | _ => []

/-- Number an operation on a timeline of a share (R251). -/
def State.acceptTl (s : State) (blk share k : Nat) : Nat × State :=
  let s := s.modShare blk share (fun sh => sh.accept k)
  (match s.block? blk with | some b => ((b.share share).timeline k).accepted | none => 0, s)

def State.completeTl (s : State) (blk share k n : Nat) : State := s.modShare blk share (fun sh => sh.completeTl k n)

/-- A command of a slice, before what its kind adds. -/
def cmdOf (s : State) (b : Block) (sl : Slice) (id : Nat) (d : Option Nat) (kind : CmdKind) : Cmd :=
  { id, ctx := (s.lrOf b).ctx, block := some b.uid, share := sl.share, slice := sl.num, at_ := sl.pc, others := [], tl := none, path := none
    dst := d, node := none, uq := none, hold := none, kind }

/-- A command ends: its reply reaches the register and the log that wait for it, its path counts its return and its timeline
advances. -/
def State.finishCmd (s : State) (c : Cmd) (reply : Word) : State :=
  let s := match c.block with
    | none => s
    | some blk =>
      let ws : List RegWrite := match c.dst with | some r => [.s r reply] | none => []
      let s := (c.slice :: c.others).foldl (fun (s : State) n => s.modSlice blk n fun x =>
        { (x.writeAll ws) with pend := x.pend.filter (fun p => p.2 != c.id), supC := x.supC.reply c.id ws }) s
      let s := match c.path with | some k => s.modShare blk c.share (fun sh => sh.returnPath k c.id) | none => s
      match c.tl with | some (k, n) => s.completeTl blk c.share k n | none => s
  { s with cmds := s.cmds.filter (fun x => x.id != c.id) }

/-- What a fault of a command is reported with: its block, or none. -/
def State.cmdRec (s : State) (c : Cmd) (e : Ev) : FaultRec :=
  let b := c.block.bind s.block?
  let sl := b.bind (fun b => b.slice? c.slice)
  let l := b.bind (fun b => s.launch? b.launch)
  { cause := e.cause 0, addr := e.recAddr c.at_
    rep := match sl with | some x => x.ck.rep.addr.setWidth 64 | none => 0
    rcnt := match sl with | some x => x.rcnt.toNat | none => 0
    block := match b with | some b => b.num | none => 0xFFFFFFFF
    hq := match l with | some l => l.hq + 0x8000 | none => (match c.node with | some n => n.hq + 0x8000 | none => 0)
    pos := match l with | some l => l.pos | none => (match c.node with | some n => n.pos | none => 0)
    peer := e.unit_ }

/-- A command meets an unrecoverable event: its context faults (R291, R390). -/
def State.commandFault (s : State) (c : Cmd) (e : Ev) : State := s.contextFault c.ctx (s.cmdRec c e)

end Sys2Proof.Machine
end

