-- ==== Sys2Proof/Machine/Queue.lean ====
section
/-! DEFINITION. Hardware queues, event bits and the end of nodes (R357, R358, R362, R363, R368, R369). -/

namespace Sys2Proof.Machine

def State.hq (s : State) (q : Nat) : Hq := s.sched.hqs.getD q .reset
def State.modHq (s : State) (q : Nat) (f : Hq → Hq) : State := { s with sched := { s.sched with hqs := s.sched.hqs.modify q f } }
def State.graph? (s : State) (slot : Nat) : Option Graph := s.sched.graphs.find? (fun g => g.slot == slot)
def State.modGraph (s : State) (slot : Nat) (f : Graph → Graph) : State :=
  { s with sched := { s.sched with graphs := s.sched.graphs.map fun g => if g.slot == slot then f g else g } }
def State.modNode (s : State) (slot idx : Nat) (f : GNode → GNode) : State :=
  s.modGraph slot fun g => { g with nodes := g.nodes.modify idx f }

/-- Set bits of a context's event vector (R362). -/
def State.setBits (s : State) (c : Nat) (m : BitVec 256) : State := s.setCtx c fun x => { x with ev := x.ev ||| m }
def State.clearBits (s : State) (c : Nat) (m : BitVec 256) : State := s.setCtx c fun x => { x with ev := x.ev &&& ~~~ m }

/-- The node of a command that runs keeps its position in its queue, to whose head it comes back should it fail (R357, R369). -/
def State.posTaken (s : State) (q pos : Nat) : Bool :=
  (s.hq q).entries.any (fun e => e.pos == pos) || s.cmds.any fun c => c.node.any fun n => n.hq == q && n.pos == pos

/-- Append an entry to a queue (R357): its position, or none where the queue is full: it holds 1,024 entries, or the ring position that
is next is still one's of them or a running command's (log entry 68). -/
def State.appendEntry (s : State) (q : Nat) (addr : Word) (graph : Option (Nat × Nat)) : Option Nat × State :=
  let h := s.hq q
  if h.entries.length ≥ 1024 || s.posTaken q h.next then (none, s)
  else
    let e : HqEntry := { pos := h.next, addr, graph, checked := false, rcd := default, age := none }
    (some h.next, s.modHq q fun h =>
      { h with entries := h.entries ++ [e], next := (h.next + 1) % 1024, st := if h.st == .idle then .running else h.st })

/-- A queue that is left empty is idle (R357). -/
def Hq.settle (h : Hq) : Hq := if h.st == .running && h.entries.isEmpty then { h with st := .idle } else h

/-- A launch that has not started and whose entry stands at a position of a queue. -/
def Launch.isAt (l : Launch) (q pos : Nat) : Bool := l.unstarted && l.hq == q && l.pos == pos

/-- A launch that has not started goes back to its entry. -/
def State.recall (s : State) (q pos : Nat) : State := { s with launches := s.launches.filter fun l => !l.isAt q pos }

/-- An entry leaves its queue: its node is dispatched. -/
def State.dropEntry (s : State) (q pos : Nat) : State :=
  s.modHq q fun h => { h with entries := h.entries.eraseP (fun e => e.pos == pos) }.settle

/-- A node fails (R369): its queue stops with the node at its head, from which an entry that has its position does not displace it. -/
def State.nodeFails (s : State) (q pos code : Nat) (e : HqEntry) : State :=
  s.modHq q fun h =>
    { h with st := .stopped, failPos := pos, failCode := code, entries := e :: h.entries.filter (fun x => x != e) }

/-- A command node has ended (R368, R369): its set mask reaches ev, or it fails; a node that fails has not completed (R374). -/
def State.nodeEnds (s : State) (c : Cmd) (bad : Bool) : State :=
  match c.node with
  | none => s
  | some n =>
    let s' := s.modNode n.slot n.idx (fun x => { x with running := false })
    if bad then s.nodeFails n.hq n.pos 5 { pos := n.pos, addr := 0, graph := some (n.slot, n.idx), checked := false, rcd := default, age := none }
    else
      match (s.graph? n.slot).bind (fun g => g.nodes[n.idx]?) with
      | some x => s'.setBits c.ctx x.set
      | none => s'

end Sys2Proof.Machine
end

