-- ==== Sys2Proof/Machine/Copy.lean ====
section
/-! DEFINITION. The copy engine: copy addresses, CPY, CPYT, CBOOK and their completion (R285 to R294). -/

namespace Sys2Proof.Machine

/-! ## Copy addresses and engine accesses -/

def caddrOk (w : Word) : Bool :=
  w.toNat / 2 ^ 62 ≤ 1 && bitsOf w.toNat 57 5 == 0 && (w.toNat / 2 ^ 62 == 0 || bitsOf w.toNat 32 25 == 0)

def caddrOf (w : Word) : CAddr := { scr := w.toNat / 2 ^ 62 = 1, addr := w.toNat % 2 ^ 57 }

/-- An address a signed distance on. -/
def CAddr.add (a : CAddr) (n : Int) : CAddr := { a with addr := wrapTo 64 ((a.addr : Int) + n) }

/-- What an engine's command works for: its context, and for a slice's command its block and share. -/
structure Owner where
  ctx : Nat
  blk : Option Block
  share : Nat

def State.ownerOf (s : State) (c : Cmd) : Owner := { ctx := c.ctx, blk := c.block.bind s.block?, share := c.share }

/-- OPM accesses of a copy engine (R223). -/
def State.opmCopies (s : State) (c pa : Nat) (w : Bool) : Bool :=
  match s.opmLoc c pa with
  | some (.scratch ..) | some (.tile ..) => true
  | some (.reg ..) => w
  | none => false

/-- What a copy engine runs into at one byte of virtual memory (R291). -/
def State.engineEv (s : State) (o : Owner) (va : Nat) (w : Bool) : Option Ev :=
  let at_ (e : Ev) : Option Ev := some { e with addr := some (BitVec.ofNat 64 va) }
  if va ≥ 2 ^ 57 then at_ Ev.perm
  else
    match s.phys? o.ctx va with
    | .error f => at_ { Ev.pagef with detail := f.detail }
    | .ok p =>
      if (if w then !Pte.w_ p.pte || Pte.x p.pte else !Pte.r p.pte) || (Pte.tgt p.pte = 5 && !s.opmCopies o.ctx p.pa w) ||
          !s.admits .copy 0 o.ctx p.pte p.pa 1 w then at_ Ev.perm
      else if s.lostPage p.pte then at_ { Ev.swlost with unit_ := Pte.node p.pte % 16 }
      else if Pte.tgt p.pte = 3 && s.fabric.lostPeers.contains (Pte.node p.pte) then at_ { Ev.peerlost with unit_ := Pte.node p.pte }
      else if (match o.blk with | some b => s.inDet b && s.taggedOff b p 1 w | none => false) then at_ Ev.detx
      else if !w && s.accPoisoned p 1 then at_ Ev.memue
      else none

/-- What it runs into at one byte of a copy address; a slot's bytes were checked at issue. -/
def State.copyEv (s : State) (o : Owner) (a : CAddr) (w : Bool) : Option Ev :=
  if a.scr then
    match o.blk with
    | some b =>
      if !w && s.mem.poison.contains (opmKey (scratchPa (s.lrOf b) (b.share o.share) a.addr)) then
        some { Ev.memue with addr := some (BitVec.ofNat 64 a.addr) } else none
    | none => some Ev.perm
  else s.engineEv o a.addr w

/-- Read one byte. -/
def State.copyRead (s : State) (o : Owner) (a : CAddr) : Byte :=
  if a.scr then match o.blk.bind (fun b => s.block? b.uid) with | some b => Cells.get 0 (b.share o.share).scratch a.addr | none => 0
  else
    match s.phys? o.ctx a.addr with
    | .ok p => (s.readAt none o.ctx p 1).headD 0
    | .error _ => 0

/-- An engine writes one byte at a place where its access has been checked, in no span without a copy: on-chip, at the stack, or in
the package order. -/
def State.engineWrite (s : State) (c : Nat) (p : Phys) (x : Byte) : State :=
  let s := s.mirror p 0 x
  if Pte.tgt p.pte = 5 then
    match s.opmLoc c p.pa with
    | some l => { s.opmWrite l x with mem := { s.mem with poison := s.mem.poison.filter (fun k => k != opmKey p.pa) } }
    | none => s
  else if Pte.ms p.pte then { s with mem := s.mem.bankPoke (s.keyOf p 0) x }
  else { s with mem := s.mem.poke (s.keyOf p 0) x }

/-- Write one byte. -/
def State.copyWrite (s : State) (o : Owner) (a : CAddr) (x : Byte) : State :=
  if a.scr then match o.blk.bind (fun b => s.block? b.uid) with | some b => s.scratchPut b o.share a.addr [x] | none => s
  else
    match s.phys? o.ctx a.addr with
    | .ok p =>
      let s := match o.blk with | some b => s.tagAccess b p 1 true | none => s
      s.engineWrite o.ctx p x
    | .error _ => s

/-! ## Stores of an engine's own: flags and queue words -/

/-- An engine's store of up to 8 aligned bytes: into a cocoon, or byte by byte (R296, R299, R304). -/
def State.engineStore (s : State) (c : Nat) (p : Phys) (bs : List Byte) : State :=
  let s := s.travels c p bs.length true
  if s.inAbsentSpan p then s.appendAll ((storeEntries (p.pa % 2 ^ 16) false (bs.map some)).map fun e => (spanOf p.pa, e))
  else (bs.zipIdx).foldl (fun s b => s.engineWrite c { p with pa := p.pa + b.2 } b.1) s

/-- The spans that lack room for such stores, each an address and a number of bytes (R312). -/
def State.engineRoom (s : State) (c : Nat) (l : List (Nat × Nat)) : List Nat :=
  s.lacksRoom (l.flatMap fun x =>
    match s.phys? c x.1 with
    | .ok p => if s.inAbsentSpan p then
        (storeEntries (p.pa % 2 ^ 16) false (List.replicate x.2 (some 0))).map (fun e => (spanOf p.pa, e)) else []
    | .error _ => [])

/-- An address of such a store is not translated, under migration, or in a span on its way out: the engine waits (R283, R291, R304). -/
def State.engineHeld (s : State) (c : Nat) (l : List (Nat × Nat)) : Bool :=
  l.any fun x => match s.phys? c x.1 with
    | .ok p => s.blocked p
    | .error _ => true

def bdrPerm : Ev := { Ev.perm with detail := 0x09, check := 11, row := 5 }

/-- What an engine's store of n bytes within a page runs into (R39, R226 rows 3 to 5); `perm` is the event of row 4. -/
def State.storeEv (s : State) (c va n : Nat) (perm : Ev) : Option Ev :=
  let at_ (e : Ev) : Option Ev := some { e with addr := some (BitVec.ofNat 64 va) }
  match s.phys? c va with
  | .error f => at_ { Ev.pagef with detail := f.detail }
  | .ok p =>
    if !Pte.w_ p.pte || Pte.x p.pte || !s.admits .core 0 c p.pte p.pa n true ||
        (Pte.tgt p.pte = 5 && !s.opmAllows c p.pa n true) then at_ perm
    else if s.lostPage p.pte then at_ { Ev.swlost with unit_ := Pte.node p.pte % 16 }
    else if Pte.tgt p.pte = 3 && s.fabric.lostPeers.contains (Pte.node p.pte) then at_ { Ev.peerlost with unit_ := Pte.node p.pte }
    else none

/-- What a completion flag's address runs into (R299 row 5): 8 bytes checked under R226 for a store. -/
def State.flagEv (s : State) (c va : Nat) : Option Ev :=
  if va = 0 then none else (s.storeEv c va 8 bdrPerm).map fun e => { e with check := 11, row := 5 }

/-- The store that a flag's address asks for. -/
def flagStore (va : Nat) : List (Nat × Nat) := if va = 0 then [] else [(va, 8)]

/-- Write a flag with release at PKG (R296, R299); one that may not be written stays as it is. -/
def State.writeFlag (s : State) (c va : Nat) (x : Word) : State :=
  if va = 0 || (s.flagEv c va).isSome then s
  else
    match s.phys? c va with
    | .error _ => s
    | .ok p => s.engineStore c p (leBytes 8 x.toNat)

/-- What a flag must wait for before it is written: its page, or the room of its span, whose fetch is asked for; none for nothing. -/
def State.flagWait (s : State) (c va : Nat) : Option State :=
  if s.engineHeld c (flagStore va) then some s
  else match s.engineRoom c (flagStore va) with
    | [] => none
    | n :: ns => some ((n :: ns).foldl State.startFetch s)

/-! ## What a copy moves -/

/-- Where a destination byte's value comes from. -/
inductive CSrc where
  | from_ (a : CAddr)
  | lit (x : Byte)
  deriving DecidableEq, Repr, Inhabited

/-- One destination byte, and what is read to find its value beside its source: the index of a codebook entry. -/
structure Move where
  dst : CAddr
  src : CSrc
  idx : List CAddr := []
  deriving DecidableEq, Repr, Inhabited

/-- CPY (R287). -/
def cpyMoves (dst src : CAddr) (len : Nat) : List Move :=
  (List.range len).map fun (k : Nat) => { dst := dst.add k, src := .from_ (src.add k) }

/-- The index tuples of a box. -/
def Box.tuples (d : Box) : List (List Nat) :=
  (d.box.take d.dims).foldr (fun n acc => (List.range n).flatMap fun i => acc.map fun t => i :: t) [[]]

def dotI (xs ys : List Int) : Int := ((xs.zip ys).map (fun p => p.1 * p.2)).foldl (· + ·) 0

/-- The tensor coordinates of a tuple. -/
def Box.coords (d : Box) (t : List Nat) : List Int := (t.zip d.start).map fun p => p.2 + p.1

def Box.inside (d : Box) (t : List Nat) : Bool :=
  ((d.coords t).zip d.size).all fun p => decide (0 ≤ p.1) && decide (p.1 < p.2)

/-- The addresses of a tuple on the tensor side and on the packed side (R289). -/
def Box.tAddr (d : Box) (t : List Nat) : CAddr := (caddrOf d.tbase).add (dotI (d.coords t) d.tstr)
def Box.qAddr (d : Box) (t : List Nat) : CAddr := (caddrOf d.pbase).add (dotI (t.map (fun (n : Nat) => (n : Int))) d.pstr)

/-- PAD's bytes. -/
def padByte (w : Word) (i : Nat) : Byte := w.extractLsb' (8 * (i % 8)) 8

/-- CPYT without a codebook (R289). -/
def tensorMoves (esz : Nat) (d : Box) : List Move :=
  d.tuples.flatMap fun t =>
    (List.range esz).filterMap fun (k : Nat) =>
      let tb := (d.tAddr t).add k
      let qb := (d.qAddr t).add k
      if d.dir then (if d.inside t then some { dst := tb, src := .from_ qb } else none)
      else some { dst := qb, src := if d.inside t then .from_ tb else .lit (padByte d.pad k) }

/-- The bytes of a tuple's index. -/
def Box.index (d : Box) (esz : Nat) (t : List Nat) : List CAddr :=
  if d.inside t then (List.range esz).map fun (k : Nat) => (d.tAddr t).add k else []

/-- CPYT.CB: 64 bytes for each tuple, from the table, zero, or PAD; and whether some index passed 255. The indices are read before any
of them is written, where vectors fall on index elements (the order of tuples is open; log entry 22). -/
def State.bookMoves (s : State) (o : Owner) (table : Cells Byte) (esz : Nat) (d : Box) : List Move × Bool :=
  let one (t : List Nat) : List Byte × Bool :=
    if d.inside t then
      let v := leNat ((d.index esz t).map (s.copyRead o))
      if v > 255 then (List.replicate 64 0, true) else (Cells.bytes table (64 * v) 64, false)
    else ((List.range 64).map (padByte d.pad), false)
  let l := d.tuples.map fun t => (t, one t)
  (l.flatMap fun x => x.2.1.mapIdx fun (k : Nat) b => { dst := (d.qAddr x.1).add k, src := .lit b, idx := d.index esz x.1 },
    l.any (fun x => x.2.2))

def Move.reads (m : Move) : List CAddr := (match m.src with | .from_ a => [a] | .lit _ => []) ++ m.idx

/-- The event of an access that outranks the others: what ends the context, then a fault that the host resolves, then PERM. -/
def worst (l : List Ev) : Option Ev :=
  match l.find? (fun e => e.code != 0x04 && e.code != 0x05) with
  | some e => some e
  | none => match l.find? (fun e => e.code == 0x04) with | some e => some e | none => l.head?

/-- What a copy runs into. -/
def State.movesEv (s : State) (o : Owner) (extra : List CAddr) (ms : List Move) : Option Ev :=
  worst ((extra.filterMap fun a => s.copyEv o a false) ++
    ms.flatMap fun m => (m.reads.filterMap fun a => s.copyEv o a false) ++ (s.copyEv o m.dst true).toList)

/-- A page under migration, a span on its way out, or a plane that is not there stands in the way (R283, R304, R352). -/
def State.copyHeld (s : State) (o : Owner) (l : List CAddr) : Bool :=
  l.any fun a => !a.scr && (match s.phys? o.ctx a.addr with
    | .ok p => s.blocked p
    | .error _ => false)

/-- The same for what a copy engine reads: by a copy's reads system software copies a page under migration (R283, log entry 70). -/
def State.copyReadHeld (s : State) (o : Owner) (l : List CAddr) : Bool :=
  l.any fun a => !a.scr && (match s.phys? o.ctx a.addr with
    | .ok p => s.evicting p || s.noWay p
    | .error _ => false)

/-- A copy address lies outside the chip's on-chip memories. -/
def State.offChip (s : State) (o : Owner) (a : CAddr) : Bool :=
  !a.scr && (match s.phys? o.ctx a.addr with | .ok p => Pte.tgt p.pte != 5 | .error _ => true)

/-- An engine's requests to other modules and to switch memory leave: one for each page that it reads or writes there (R328, R348). -/
def State.engineOut (s : State) (o : Owner) (w : Bool) (l : List CAddr) : State :=
  ((l.filterMap fun a =>
    if a.scr then none
    else match s.phys? o.ctx a.addr with
      | .ok p => if s.leaves p then some { p with pa := 0 } else none
      | .error _ => none).eraseDups).foldl (fun s p => s.sendOut p w) s

/-- The spans without a T1 copy that an engine's writes reach: it starts their fetches and waits (R304, R312, R320). -/
def State.copyRoom (s : State) (o : Owner) (l : List CAddr) : List Nat :=
  (l.filterMap fun a =>
    if a.scr then none
    else match s.phys? o.ctx a.addr with
      | .ok p => if s.inAbsentSpan p then some (spanOf p.pa) else none
      | .error _ => none).eraseDups

/-- The open values that a command draws (log entry 3). Those of a deterministic launch's are the same in every run (R25): they go by
the launch's entry and parameter, the block's number, the share, and the command's number on its timeline. -/
def State.draws (s : State) (c : Cmd) (n : Nat) : Word :=
  match (c.block.bind s.block?).filter s.inDet with
  | some b =>
    let r := s.lrOf b
    let t := c.tl.getD (0, 0)
    Config.detWord [r.entry.toNat, r.param.toNat, b.num, c.share, t.1, t.2] n
  | none => Config.freeWord (s.fresh + 1 + n)

/-- A free choice. -/
def freeBit (draw : Nat → Word) (n : Nat) : Bool := (draw n).getLsbD 0

/-- The byte that a copy address names, whichever way it is named. -/
def State.copyPlace (s : State) (o : Owner) (a : CAddr) : Option Nat :=
  if a.scr then o.blk.map fun b => opmKey (scratchPa (s.lrOf b) (b.share o.share) a.addr)
  else match s.phys? o.ctx a.addr with | .ok p => some (s.logKey p 0) | .error _ => none

/-- The overlap of moves: the destinations that they read too (R287). -/
def State.overlap (s : State) (o : Owner) (ms : List Move) (a : CAddr) : Bool :=
  ms.any fun m => m.reads.any fun r => s.copyPlace o r == s.copyPlace o a

/-- Perform moves one after another: a byte inside the overlap takes the old or the present value of its source, as a free choice
says; one outside it is copied exactly (R287). -/
def State.runMoves (s : State) (o : Owner) (old : State) (ov : CAddr → Bool) (draw : Nat → Word) : Nat → List Move → State
  | _, [] => s
  | n, m :: ms =>
    let x := match m.src with
      | .lit b => b
      | .from_ a => (if ov m.dst && freeBit draw n then s else old).copyRead o a
    (s.copyWrite o m.dst x).runMoves o old ov draw (n + 1) ms

/-- A list in an order that free choices name: each takes one of those left. -/
def shuffle {α : Type} (draw : Nat → Word) : Nat → List α → List α
  | 0, l => l
  | n + 1, l =>
    let k := (draw n).toNat % l.length
    (l[k]?).toList ++ shuffle draw n (l.eraseIdx k)

/-- The bytes that a copy stopped by PERM has written are open (R291): a free choice for each that could be. -/
def State.openMoves (s : State) (o : Owner) (draw : Nat → Word) (ms : List Move) : List Move :=
  (ms.zipIdx.filter fun x =>
    freeBit draw x.2 && (s.copyEv o x.1.dst true).isNone && x.1.reads.all (fun a => (s.copyEv o a false).isNone)).map (fun x => x.1)

/-- The status word (R286). -/
def statusWord (st bytes : Nat) : Word := BitVec.ofNat 64 (st * 2 ^ 56 + bytes % 2 ^ 40)

/-- What reading leaves: the tags of a deterministic launch (R259), and the fetch that a first read-through asks for (R315). -/
def State.copyReads (s : State) (o : Owner) (l : List CAddr) : State :=
  l.foldl (fun s a =>
    if a.scr then s
    else match s.phys? o.ctx a.addr with
      | .ok p => (match o.blk with | some b => s.tagAccess b p 1 false | none => s).policyFetch p
      | .error _ => s) s

/-- Carry a command's moves out, in an order that is not defined: one that free choices name (R287, R289). Answers the bytes written and
the state. -/
def State.carryOut (s : State) (c : Cmd) (perm : Bool) (ms : List Move) : Nat × State :=
  let o := s.ownerOf c
  let n := ms.length
  let draw (from_ k : Nat) : Word := s.draws c (from_ + k)
  let l := if perm then s.openMoves o (draw 0) ms else ms
  let l := shuffle (draw n) l.length l
  let reads := l.flatMap Move.reads
  let dsts := l.map fun (m : Move) => m.dst
  (l.length, (((((({ s with fresh := s.fresh + 3 * n + 2 }).runMoves o s (s.overlap o l) (draw (2 * n)) 0 l).copyReads o reads)).engineOut o
    false reads).engineOut o true dsts).countMoved o.ctx ((dsts.filter (s.offChip o)).length + (reads.filter (s.offChip o)).length))

/-! ## The commands -/

/-- A command of a slice that is numbered on a timeline, and on path P2 when it writes the slot. -/
def State.launchCmd (s : State) (b : Block) (sl : Slice) (id tl : Nat) (path : Option Nat) (d : Option Nat) (kind : CmdKind) : State :=
  let (n, s) := s.acceptTl b.uid sl.share tl
  let s := match path with
    | some k => s.modShare b.uid sl.share (fun sh => sh.issuePath k { id, n := 1, returned := false })
    | none => s
  { s with cmds := s.cmds ++ [{ cmdOf s b sl id d kind with tl := some (tl, n), path }] }

/-- A command that completes as it issues: it is numbered, and counted on its path. -/
def State.instantCmd (s : State) (b : Block) (sl : Slice) (id tl : Nat) (path : Option Nat) : State :=
  let (n, s) := s.acceptTl b.uid sl.share tl
  let s := match path with
    | some k => s.modShare b.uid sl.share (fun sh => (sh.issuePath k { id, n := 1, returned := false }).returnPath k id)
    | none => s
  s.completeTl b.uid sl.share tl n

/-- The slot of a slice's share is free of room on a path (R238). -/
def pathFull (b : Block) (sl : Slice) (path : Option Nat) : Bool :=
  match path with | some k => (b.share sl.share).path k ≥ 65535 | none => false

/-- An SCR range of a copy inside the slot. -/
def scrFits (r : LaunchRec) (a : CAddr) (n : Nat) : Bool := !a.scr || a.addr + n ≤ r.slotBytes

def scrBound : Ev := { Ev.perm with detail := 0x03, check := 11 }

/-- CPY's checks at issue (R287) on its destination, source and length: ILLOP comes before PERM, and an SCR range of no byte that begins
beyond the slot passes its end too (log entry 75). -/
def cpyCheck (r : LaunchRec) (args : List Word) : Option Ev :=
  let dst := args.getD 0 0
  let src := args.getD 1 0
  let len := args.getD 2 0
  if len.toNat ≥ 2 ^ 40 || !caddrOk dst || !caddrOk src then some Ev.own
  else if !scrFits r (caddrOf dst) len.toNat || !scrFits r (caddrOf src) len.toNat then some scrBound
  else none

/-- The values of operands read once for a slice. -/
def argsOf (l : List Opd) (s : State) (b : Block) (sl : Slice) : List Word := l.map (svalOf (s.envOf b sl) sl)

def sendCpy (d : Option Nat) : Sender := fun s b sl id args =>
  let dst := args.headD 0
  let path := if (caddrOf dst).scr then some 2 else none
  let len := (args.getD 2 0).toNat
  let s := s.publishHeldOf b sl
  if pathFull b sl path then .waits s
  else if len = 0 then .done (s.instantCmd b sl id 1 path) (.vals (match d with | some r => [.s r 0] | none => []))
  else .done (s.launchCmd b sl id 1 path d (.copy dst (args.getD 1 0) len)) (.cmd id)

def execCpy (g : Guard) (d a b c : Opd) (s : State) : Out :=
  .next (s.perGang (lenOf [a, b, c]) false fun blk l =>
    s.cmdGang g .c (.cpy g d a b c) (dstOf d) (fun sl => cpyCheck (s.lrOf blk) (argsOf [a, b, c] s blk sl)) (argsOf [a, b, c] s blk)
      (sendCpy (dstOf d)) blk l)

/-! ## CPYT -/

/-- The box of a descriptor of 16 words (R288). -/
def boxOf (ws : List Word) : Box :=
  let bs := scalarBytes ws
  let dims := field bs 0 1
  let at_ (d o n : Nat) : Nat := field bs (32 + 32 * d + o) n
  { dims, dir := field bs 1 1 % 2 = 1, pad := ws.getD 1 0, tbase := ws.getD 2 0, pbase := ws.getD 3 0
    start := (List.range 3).map fun d => sgn 32 (at_ d 0 4)
    box := (List.range 3).map fun d => at_ d 4 4
    size := (List.range 3).map fun d => at_ d 8 4
    tstr := (List.range 3).map fun d => sgn 64 (at_ d 16 8)
    pstr := (List.range 3).map fun d => sgn 64 (at_ d 24 8) }

/-- Reserved fields and the fields of absent dimensions (R288). -/
def descOk (ws : List Word) : Bool :=
  let bs := scalarBytes ws
  let dims := field bs 0 1
  1 ≤ dims && dims ≤ 3 && field bs 1 1 / 2 == 0 && field bs 2 6 == 0 &&
  (List.range 3).all fun d => field bs (44 + 32 * d) 4 == 0 && (d < dims || field bs (32 + 32 * d) 32 == 0)

/-- Elements of a box. -/
def Box.count (d : Box) : Nat := ((d.box.take d.dims).foldl (· * ·) 1)

/-- The least and the greatest of a stride's products over an interval. -/
def spanOf2 (lo hi str : Int) : Int × Int := (min (lo * str) (hi * str), max (lo * str) (hi * str))

def sumPairs (l : List (Int × Int)) : Int × Int := l.foldl (fun a p => (a.1 + p.1, a.2 + p.2)) (0, 0)

/-- The values that the overflow check forms (R290). -/
def Box.checked (d : Box) : List Int :=
  let ds := List.range d.dims
  let st (k : Nat) : Int := d.start.getD k 0
  let n (k : Nat) : Int := (d.box.getD k 0 : Nat)
  let ts := ds.map fun k => spanOf2 (st k) (st k + n k - 1) (d.tstr.getD k 0)
  let ps := ds.map fun k => (n k - 1) * d.pstr.getD k 0
  let t := sumPairs ts
  ts.flatMap (fun p => [p.1, p.2]) ++ ps ++ [t.1, t.2, ps.foldl (· + ·) 0]

/-- The coordinates that are inside the tensor, per dimension: first and last. -/
def Box.window (d : Box) : List (Int × Int) :=
  (List.range d.dims).map fun k =>
    (max 0 (d.start.getD k 0), min ((d.size.getD k 0 : Nat) : Int) (d.start.getD k 0 + ((d.box.getD k 0 : Nat) : Int)) - 1)

/-- Offsets of elements on a side that lies in scratchpad fit the slot (check 7 of R290): `win` are the intervals of indices. -/
def Box.sideFits (base : CAddr) (size slot : Nat) (win : List (Int × Int)) (str : List Int) : Bool :=
  !base.scr || win.any (fun p => p.2 < p.1) ||
  (let t := sumPairs ((win.zip str).map fun x => spanOf2 x.1.1 x.1.2 x.2)
   decide (0 ≤ (base.addr : Int) + t.1) && decide ((base.addr : Int) + t.2 + size ≤ slot))

/-- Checks 3 to 7 of R290; none with `true` when no element is processed. -/
def cpytCheck (r : LaunchRec) (ty : Ty) (cb : Bool) (ws : List Word) : Option Ev × Bool :=
  let d := boxOf ws
  let esz := ty.width / 8
  let dims := List.range d.dims
  let bad (e : Ev) (n : Nat) : Option Ev × Bool := (some { e with check := n }, false)
  let w := d.window
  let packed := if d.dir then (dims.map fun k => ((w.getD k (0, 0)).1 - d.start.getD k 0, (w.getD k (0, 0)).2 - d.start.getD k 0))
    else dims.map fun k => ((0 : Int), ((d.box.getD k 0 : Nat) : Int) - 1)
  if !descOk ws || !caddrOk d.tbase || !caddrOk d.pbase || (cb && (d.dir || 2 < esz)) || d.count > 2 ^ 32 then
    bad Ev.illop 3
  else if d.count = 0 then (none, true)
  else if d.checked.any (fun x => x < -(2 ^ 63 : Int) || (2 ^ 63 : Int) ≤ x) then bad Ev.asyovf 5
  else if d.tbase.toNat % esz ≠ 0 || (d.tstr.take d.dims).any (fun x => x % esz != 0) ||
      d.pbase.toNat % (if cb then 8 else esz) ≠ 0 || (d.pstr.take d.dims).any (fun x => x % (if cb then 8 else esz : Nat) != 0) then
    bad Ev.align 6
  else if !Box.sideFits (caddrOf d.tbase) esz r.slotBytes w d.tstr ||
      !Box.sideFits (caddrOf d.pbase) (if cb then 64 else esz) r.slotBytes packed d.pstr then
    bad { Ev.perm with detail := 0x03 } 7
  else (none, false)

def sendCpyt (r : LaunchRec) (ty : Ty) (cb : Bool) (d : Option Nat) : Sender := fun s b sl id ws =>
  let x := boxOf ws
  let path := if (caddrOf (if x.dir then x.tbase else x.pbase)).scr then some 2 else none
  let s := s.publishHeldOf b sl
  if pathFull b sl path then .waits s
  else if (cpytCheck r ty cb ws).2 then .done (s.instantCmd b sl id 1 path) (.vals (match d with | some r => [.s r 0] | none => []))
  else .done (s.launchCmd b sl id 1 path d (.tensor ty cb x)) (.cmd id)

/-- The descriptor of CPYT, read as an LDS at issue, and the checks of R290 on it. A poisoned byte of it raises nothing: R288 and R290
name no such check (log entry 71). The offset in A has all 64 bits of its register, so that one beyond the slot raises PERM: R289 states
no width, and R225's low 32 bits are those of a load or a store (log entry 71). -/
def cpytOff (a : Opd) (s : State) (b : Block) (sl : Slice) : Nat := (svalOf (s.envOf b sl) sl a).toNat

def cpytDesc (a : Opd) (s : State) (b : Block) (sl : Slice) : List Word :=
  (List.range 16).map fun i => leWord (s.ldsBytes b sl (cpytOff a s b sl + 8 * i) 8)

def cpytTrap (ty : Ty) (cb : Bool) (a : Opd) (s : State) (b : Block) (sl : Slice) : Option Ev :=
  if cpytOff a s b sl % 64 ≠ 0 then some { Ev.align with check := 1 }
  else if cpytOff a s b sl + 128 > (s.lrOf b).slotBytes then some { Ev.perm with check := 2, detail := 0x03 }
  else (cpytCheck (s.lrOf b) ty cb (cpytDesc a s b sl)).1

/-- CPYT (R289). -/
def execCpyt (g : Guard) (ty : Ty) (cb : Bool) (d a : Opd) (s : State) : Out :=
  .next (s.perGang (lenOf [a]) false fun blk l =>
    s.cmdGang g .c (.cpyt g ty cb d a) (dstOf d) (cpytTrap ty cb a s blk) (cpytDesc a s blk) (sendCpyt (s.lrOf blk) ty cb (dstOf d)) blk l)

/-! ## CBOOK (R294) -/

def sendCbook (d : Option Nat) : Sender := fun s b sl id args =>
  let s := s.publishHeldOf b sl
  .done (s.launchCmd b sl id 1 none d (.book (args.headD 0))) (.cmd id)

/-- CBOOK's checks at issue (R285, R294), and last that an SCR source lies in the slot, as CPY's must (R287; log entry 75). -/
def cbookCheck (r : LaunchRec) (args : List Word) : Option Ev :=
  let src := args.getD 0 0
  if !caddrOk src then some Ev.own
  else if src.toNat % 64 ≠ 0 then some { Ev.align with check := 11 }
  else if !scrFits r (caddrOf src) 16384 then some scrBound
  else none

def execCbook (g : Guard) (d a : Opd) (s : State) : Out :=
  .next (s.perGang (lenOf [a]) false fun blk l =>
    s.cmdGang g .c (.cbook g d a) (dstOf d) (fun sl => cbookCheck (s.lrOf blk) (argsOf [a] s blk sl)) (argsOf [a] s blk)
      (sendCbook (dstOf d)) blk l)

/-! ## Completion (R291, R292) -/

/-- The codebook table of a command's block carries the block's tag (R294). -/
def State.tabled (s : State) (c : Cmd) : Bool :=
  match c.block.bind s.block? with | some b => (b.share c.share).bookTag | none => false

/-- A copy's moves, and what it reads beside them: the table of a CBOOK. -/
def State.cmdMoves (s : State) (c : Cmd) : List Move × List CAddr :=
  match c.kind with
  | .copy dst src len => (cpyMoves (caddrOf dst) (caddrOf src) len, [])
  | .tensor ty cb d =>
    if cb then
      let o := s.ownerOf c
      let sh := match o.blk with | some b => b.share c.share | none => Share.reset
      ((s.bookMoves o sh.book (ty.width / 8) d).1, [])
    else (tensorMoves (ty.width / 8) d, [])
  | .book src => ([], (List.range 16384).map fun (k : Nat) => (caddrOf src).add k)
  | _ => ([], [])

/-- The moves that it makes: a codebook copy without its block's table writes no byte (R294). -/
def State.cmdWrites (s : State) (c : Cmd) : List Move :=
  match c.kind with
  | .tensor _ cb _ => if cb && !s.tabled c then [] else (s.cmdMoves c).1
  | _ => (s.cmdMoves c).1

/-- The completion flag of a COPY node's packet: its address and value (R296, R365); 0 for none. -/
def State.nodeFlag (s : State) (c : Cmd) : Nat × Word :=
  match c.node.bind fun n => (s.graph? n.slot).bind fun g => g.nodes[n.idx]? with
  | none => (0, 0)
  | some x =>
    let a := field x.payload 40 8
    if x.kind ≠ 2 || a % 8 ≠ 0 then (0, 0) else (a, BitVec.ofNat 64 (field x.payload 48 8))

/-- What a copy command runs into. -/
def State.copyCmdEv (s : State) (c : Cmd) : Option Ev :=
  let (ms, extra) := s.cmdMoves c
  match s.movesEv (s.ownerOf c) extra ms with
  | some e => some e
  -- a lost page under a packet's flag
  | none => (s.flagEv c.ctx (s.nodeFlag c).1).filter fun e => e.code != 0x04 && e.code != 0x05

/-- Codebook loads and the copies that use the table go one after another (R294). -/
def State.bookTurn (s : State) (c : Cmd) : Bool :=
  let uses (k : CmdKind) : Bool := match k with | .book _ => true | .tensor _ cb _ => cb | _ => false
  !uses c.kind || !s.cmds.any fun x => x.id < c.id && x.block == c.block && x.share == c.share && uses x.kind

/-- The state after a copy command's bytes have moved, with its status. -/
def State.performCopy (s : State) (c : Cmd) (perm : Bool) : Word × State :=
  let o := s.ownerOf c
  let extra := (s.cmdMoves c).2
  match c.kind with
  | .book _ =>
    match c.block with
    | none => (0, s)
    | some blk =>
      if perm then
        -- BYTES of a load that PERM stops is a free value (log entry 22)
        (statusWord 1 ((s.draws c 0).toNat % 16385),
          { s.modShare blk c.share (fun sh => { sh with bookTag := false }) with fresh := s.fresh + 1 })
      else
        let bs := extra.map (s.copyRead o)
        (statusWord 0 16384, ((s.modShare blk c.share (fun sh => { sh with book := Cells.putBytes [] 0 bs, bookTag := true })).copyReads o
          extra).engineOut o false extra |>.countMoved c.ctx (extra.filter (s.offChip o)).length)
  | .tensor ty cb d =>
    let (n, s') := s.carryOut c perm (s.cmdWrites c)
    let sh := match o.blk with | some b => b.share c.share | none => Share.reset
    let st := if perm then 1 else if cb && !s.tabled c then 2 else if cb && (s.bookMoves o sh.book (ty.width / 8) d).2 then 3 else 0
    (statusWord st n, s')
  | _ =>
    let (n, s') := s.carryOut c perm (s.cmdWrites c)
    (statusWord (if perm then 1 else 0) n, s')

/-- A packet's command has ended; `bad` tells that its execution stopped with PERM (R296). -/
def State.packetEnds (s : State) (c : Cmd) (bad : Bool) : State :=
  match c.uq with
  | none => s
  | some q =>
    { s with sched := { s.sched with userQs := s.sched.userQs.map fun u =>
        if u.id == q then
          { u with inFlight := u.inFlight.map fun p => if p.cmd == some c.id then { p with cmd := none, bad := p.bad || bad } else p }
        else u } }

/-- The value that a packet's flag receives (R296). -/
def flagOf (bad : Bool) (v : Word) : Word := if bad then v ^^^ (1#64 <<< 63) else v

/-- A command ends: for its slice, its packet or its node. -/
def State.endCmd (s : State) (c : Cmd) (reply : Word) (bad : Bool) : State :=
  let f := s.nodeFlag c
  (((s.packetEnds c bad).finishCmd c reply).writeFlag c.ctx f.1 (flagOf bad f.2)).nodeEnds c bad

/-- The commands of the copy engine. -/
def CmdKind.copies : CmdKind → Bool
  | .copy .. | .tensor .. | .book _ => true
  | _ => false

/-- A copy stops with PERM (R291). -/
def State.copyPerm (s : State) (c : Cmd) : Bool := match s.copyCmdEv c with | some e => e.code == 0x05 | none => false

/-- A copy cannot complete now: it is held, waits for its codebook or for a page, or meets another event. -/
def State.copyWaits (s : State) (c : Cmd) : Bool :=
  c.hold.isSome || !s.bookTurn c || ((s.copyCmdEv c).isSome && !s.copyPerm c) || s.engineHeld c.ctx (flagStore (s.nodeFlag c).1) ||
    s.copyHeld (s.ownerOf c) ((s.cmdMoves c).1.map fun m => m.dst) ||
    s.copyReadHeld (s.ownerOf c) ((s.cmdMoves c).2 ++ (s.cmdMoves c).1.flatMap Move.reads)

/-- The spans that a copy's writes and its flag wait for. -/
def State.copySpans (s : State) (c : Cmd) : List Nat :=
  s.copyRoom (s.ownerOf c) ((s.cmdWrites c).map (fun m => m.dst)) ++ s.engineRoom c.ctx (flagStore (s.nodeFlag c).1)

/-- A copy command completes. -/
def State.copyDone (s : State) (c : Cmd) : State :=
  let r := s.performCopy c (s.copyPerm c)
  r.2.endCmd c r.1 (s.copyPerm c)

/-- A copy completes, unless it waits, or asks for the fetch of a span. -/
def execCopyComplete (cmd : Nat) (s : State) : Out :=
  .next (match s.cmds.find? (fun c => c.id == cmd) with
    | none => s
    | some c =>
      if !c.kind.copies || s.copyWaits c then s
      else
        match s.copySpans c with
        | n :: ns => (n :: ns).foldl State.startFetch s
        | [] => s.copyDone c)

end Sys2Proof.Machine
end

