-- ==== Sys2Proof/Machine/Approx.lean ====
section
/-! DEFINITION. The bounds that R151 sets on RSQ, EXP2, LOG2, SIN, COS and TANH: each function approximated far beyond the
bound in fixed point (160 fraction bits), and the implementation's value taken where it lies within the bound (log entry
4). -/

namespace Sys2Proof.Machine

/-- The integer square root, bit by bit. -/
def isqrt (y : Nat) : Nat :=
  (List.range (Nat.log2 y / 2 + 1)).reverse.foldl (fun r i => if (r + 2 ^ i) * (r + 2 ^ i) ≤ y then r + 2 ^ i else r) 0

namespace Approx

def one : Nat := 2 ^ 160
/-- ln 2, log2 e, π/2 (160 bits) and 2/π (320 bits). -/
def ln2Fix : Nat := 0xB17217F7D1CF79ABC9E3B39803F2F6AF40F34326
def log2eFix : Nat := 0x171547652B82FE1777D0FFDA0D23A7D11D6AEF551
def halfPiFix : Nat := 0x1921FB54442D18469898CC51701B839A252049C11
def twoOverPiFix : Nat := 0xA2F9836E4E441529FC2757D1F534DDC0DB6295993C439041FE5163ABDEBBC561B7246E3A424DD2E0

def fmul (a b : Nat) : Nat := a * b / one

/-- x · 2^160, rounded down. -/
def fix (x : Dy) : Int := let k := x.e + 160; if 0 ≤ k then x.m * 2 ^ k.toNat else x.m / ((2 ^ (-k).toNat : Nat) : Int)

/-- Taylor terms of e^y, y fixed below 1. -/
def expTerms : Nat → Nat → Nat → Nat → Nat
  | 0, _, _, _ => 0
  | n + 1, k, t, y => t + expTerms n (k + 1) (fmul t y / (k + 1)) y

/-- 2^x for a fixed x. -/
def exp2Fix (x : Int) : Dy := ⟨(expTerms 50 0 one (fmul (x % (one : Int)).toNat ln2Fix) : Nat), x / (one : Int) - 160⟩

/-- The fraction bits of log2 of a fixed m in [1, 2). -/
def log2Bits : Nat → Nat → Nat → Nat
  | 0, _, acc => acc
  | n + 1, m, acc => let q := fmul m m; if q ≥ 2 * one then log2Bits n (q / 2) (2 * acc + 1) else log2Bits n q (2 * acc)

/-- Terms of sin or cos: alternating, from term t with index k. -/
def trigTerms : Nat → Nat → Nat → Nat → Int
  | 0, _, _, _ => 0
  | n + 1, k, t, y2 => (t : Int) - trigTerms n (k + 2) (fmul t y2 / ((k + 1) * (k + 2))) y2

/-- sin of n quarter turns and a fixed angle below one more. -/
def sinFix (n y : Nat) : Int :=
  let y2 := fmul y y
  match n % 4 with
  | 0 => trigTerms 30 1 y y2
  | 1 => trigTerms 30 0 one y2
  | 2 => -trigTerms 30 1 y y2
  | _ => -trigTerms 30 0 one y2

/-- sin x, or cos x as sin of a quarter turn more, for a magnitude x. -/
def trig (x : Dy) (quarter : Nat) : Dy :=
  let k := x.e - 160
  let u := if 0 ≤ k then x.m.natAbs * twoOverPiFix * 2 ^ k.toNat else x.m.natAbs * twoOverPiFix / 2 ^ (-k).toNat
  ⟨sinFix (u / one + quarter) (fmul (u % one) halfPiFix), -160⟩

def recipDy (x : Dy) : Dy := let k := Nat.log2 x.m.natAbs + 100; ⟨(2 ^ k / x.m.natAbs : Nat), -x.e - k⟩

/-- The function, near enough to tell the bound. -/
def value (fn : FapxFn) (x : Dy) : Dy :=
  match fn with
  | .rsq =>
    let k : Nat := if x.e % 2 = 0 then 128 else 129
    recipDy ⟨(isqrt (x.m.natAbs * 2 ^ k) : Nat), (x.e - k) / 2⟩
  | .exp2 => if Dy.lt x ⟨-200, 0⟩ then ⟨1, -200⟩ else exp2Fix (fix x)
  | .log2 =>
    let e := x.log2
    ⟨e * 2 ^ 100 + log2Bits 100 (fix (x.scale (-e))).toNat 0, -100⟩
  | .sin => let y := trig x.abs 0; if x.isNeg then y.neg else y
  | .cos => trig x.abs 1
  | .tanh =>
    let y := x.abs
    let z : Dy :=
      if Dy.lt y ⟨1, -20⟩ then
        let c := (y.mul y).mul y
        y.sub ⟨(c.m.natAbs * 2 ^ 80 / 3 : Nat), c.e - 80⟩
      else if Dy.lt ⟨50, 0⟩ y then ⟨2 ^ 100 - 1, -100⟩
      else
        let e := fix (exp2Fix ((fix (y.scale 1)) * log2eFix / (one : Int)))
        ⟨(e - one) * one / (e + one), -160⟩
    if x.isNeg then z.neg else z
  | _ => x

/-- The F32 bound of a function at x, whose value is near v (R151). -/
def bound (fn : FapxFn) (x v : Dy) : Dy :=
  let ulp2 : Dy := ⟨1, max v.log2 (-126) - 22⟩
  match fn with
  | .sin | .cos => ⟨1, -21⟩
  | .log2 => if Dy.lt x ⟨1, -1⟩ || Dy.lt ⟨2, 0⟩ x then ulp2 else ⟨1, -22⟩
  | _ => ulp2

/-- Whether a pattern meets the bound. -/
def meets (fn : FapxFn) (x : Dy) (bits : Nat) : Bool :=
  let v := value fn x
  match Fmt.f32.read bits with
  | .nan _ | .inf _ => false
  | y => !Dy.lt (bound fn x v) ((y.dy.sub v).abs)

end Approx

/-- The implementation's result for a finite input, with pattern a: its own value where that meets the bound, else the value
nearest to the function. -/
def fapxIn (fn : FapxFn) (x : Dy) (a : Nat) : Nat :=
  let c := (Config.fapx fn (BitVec.ofNat 32 a)).toNat
  if Approx.meets fn x c then c else (Fmt.f32.rne (Approx.value fn x)).1

end Sys2Proof.Machine
end

