-- ==== Sys2Proof/Machine/Float.lean ====
section
/-! DEFINITION. The float instructions (R138 to R158). -/

namespace Sys2Proof.Machine

/-- Write w-bit words of each lane that takes part into the registers of a group, and set the flags that lanes raise (R140,
R145). -/
def Slice.setFloats (sl : Slice) (g : Guard) (d : Opd) (w : Nat) (f : Nat → List Nat × Flags) : Slice :=
  let m := sl.part_ g
  match d with
  | .v n =>
    let sl' := sl.overLanes m fun l acc => ((f l).1.zipIdx).foldl (fun acc x => acc.putLane (n.toNat + x.2) l false w x.1) acc
    sl'.setFlags ((lanes m).foldl (fun acc l => acc ||| (f l).2) 0)
  | _ => sl

/-- One word a lane. -/
def Slice.setFloat (sl : Slice) (g : Guard) (d : Opd) (w : Nat) (f : Nat → Nat × Flags) : Slice :=
  sl.setFloats g d w fun l => ([(f l).1], (f l).2)

/-- Two-operand float instructions of one result. -/
def floatOp2 (g : Guard) (ty : Ty) (d a b : Opd) (f : Nat → Nat → Nat × Flags) (s : State) : State :=
  s.perSlice g (lenOf [a, b]) fun e sl => .ok (sl.setFloat g d ty.width fun l =>
    f (tvalOf e sl l ty a) (tvalOf e sl l ty b))

/-- FADD (R147): a difference is the sum with b negated. -/
def faddVal (ty : Ty) (r : Rnd) (diff : Bool) (a b : Nat) : Nat × Flags :=
  let t := fmtOf ty
  let y := t.read b
  let x := addX r (t.read a) (if diff then y.neg else y)
  let z := t.finish r x.1
  (z.1, x.2 ||| z.2)

def execFadd (g : Guard) (ty : Ty) (r : Rnd) (diff : Bool) (d a b : Opd) (s : State) : Out :=
  .next (floatOp2 g ty d a b (faddVal ty r diff) s)

def execFmul (g : Guard) (ty : Ty) (r : Rnd) (d a b : Opd) (s : State) : Out :=
  .next (floatOp2 g ty d a b ((fmtOf ty).mul r) s)

def execFfma (g : Guard) (ty : Ty) (r : Rnd) (op : FmaOp) (d a b c : Opd) (s : State) : Out :=
  .next (s.perSlice g (lenOf [a, b, c]) fun e sl => .ok (sl.setFloat g d ty.width fun l =>
    (fmtOf ty).fma r op (tvalOf e sl l ty a) (tvalOf e sl l ty b) (tvalOf e sl l ty c)))

def execFminmax (g : Guard) (ty : Ty) (op : FMinMax) (d a b : Opd) (s : State) : Out :=
  .next (floatOp2 g ty d a b ((fmtOf ty).minMax (op == .max || op == .maxnum) (op == .minnum || op == .maxnum)) s)

/-- Write the comparison of each lane and set the flags (R149, R170). -/
def Slice.setCompare (sl : Slice) (g : Guard) (d : Opd) (f : Nat → Bool × Flags) : Slice :=
  (sl.setPred g d fun l => (f l).1).setFlags ((lanes (sl.part_ g)).foldl (fun acc l => acc ||| (f l).2) 0)

def execFcmp (g : Guard) (ty : Ty) (c : Cnd) (d a b : Opd) (s : State) : Out :=
  .next (s.perSlice g (lenOf [a, b]) fun e sl => .ok (sl.setCompare g d fun l =>
    let x := (fmtOf ty).read (tvalOf e sl l ty a)
    let y := (fmtOf ty).read (tvalOf e sl l ty b)
    (cmpX c x y, cmpFlags c x y)))

/-- FCLASS (R150). -/
def fclassVal (t : Fmt) (a : Nat) : Nat :=
  match t.read a with
  | .inf n => if n then 1 else 0x80
  | .zero n => if n then 8 else 0x10
  | .nan s => if s then 0x100 else 0x200
  | .fin x =>
    let sub := a % 2 ^ (t.width - 1) < 2 ^ (t.p - 1)
    if x.isNeg then (if sub then 4 else 2) else (if sub then 0x20 else 0x40)

def execFclass (g : Guard) (ty : Ty) (d a : Opd) (s : State) : Out :=
  .next (s.perSlice g (lenOf [a]) fun e sl => .ok (sl.setInt g d false 32 fun l =>
    fclassVal (fmtOf ty) (tvalOf e sl l ty a)))

/-- 1/x of a nonzero number with a sticky last bit, to more bits than any format holds. -/
def recip (x : Dy) : Dy :=
  let m := x.m.natAbs
  let k := Nat.log2 m + 40
  let q := 2 ^ k / m
  let n : Int := (2 * q + (if 2 ^ k % m = 0 then 0 else 1) : Nat)
  ⟨if x.isNeg then -n else n, -x.e - k - 1⟩

/-- √x of a positive number with a sticky last bit. -/
def sqrtDy (x : Dy) : Dy :=
  let m := x.m.natAbs
  let k : Nat := if x.e % 2 = 0 then 64 else 65
  let y := m * 2 ^ k
  let r := isqrt y
  ⟨(2 * r + (if r * r = y then 0 else 1) : Nat), (x.e - k) / 2 - 1⟩

/-- The functions whose value R151 bounds and does not state, on F32: the special results of R152, else the implementation's
value (log entry 4). -/
def fapx32 (fn : FapxFn) (a : Nat) : Nat × Flags :=
  let t := Fmt.f32
  let free (x : Dy) := fapxIn fn x a
  match t.read a with
  | .nan s => (t.nan, Flags.when_ s Flags.nv)
  | .inf n =>
    match fn with
    | .rsq => if n then (t.nan, Flags.nv) else (0, 0)
    | .exp2 => if n then (0, 0) else (0x7F800000, 0)
    | .log2 => if n then (t.nan, Flags.nv) else (0x7F800000, 0)
    | .tanh => (t.signed n 0x3F800000, 0)
    | _ => (t.nan, Flags.nv)
  | .zero n =>
    match fn with
    | .rsq => (t.signed n 0x7F800000, Flags.dz)
    | .log2 => (t.signed true 0x7F800000, Flags.dz)
    | .exp2 | .cos => (if fn = .cos then 0x3F800000 else free .zero, 0)
    | _ => (t.signed n 0, 0)
  | .fin x =>
    match fn with
    | .rsq => if x.isNeg then (t.nan, Flags.nv) else (free x, 0)
    | .exp2 => if Dy.lt x ⟨1, 7⟩ then (free x, 0) else (0x7F800000, Flags.of)
    | .log2 => if x.isNeg then (t.nan, Flags.nv) else if x.eq ⟨1, 0⟩ then (0, 0) else (free x, 0)
    | _ => (free x, 0)

/-- FAPX (R151, R152). -/
def fapxVal (ty : Ty) (fn : FapxFn) (a : Nat) : Nat × Flags :=
  let t := fmtOf ty
  match fn with
  | .rcp =>
    match t.read a with
    | .nan s => (t.nan, Flags.when_ s Flags.nv)
    | .inf n => (t.signed n 0, 0)
    | .zero n => (t.signed n (t.inf.getD t.nan), Flags.dz)
    | .fin x => let r := t.round .rne (recip x); (r.bits, r.flags)
  | .sqrt =>
    match t.read a with
    | .nan s => (t.nan, Flags.when_ s Flags.nv)
    | .inf n => if n then (t.nan, Flags.nv) else (t.inf.getD t.nan, 0)
    | .zero n => (t.signed n 0, 0)
    | .fin x => if x.isNeg then (t.nan, Flags.nv) else let r := t.round .rne (sqrtDy x); (r.bits, r.flags)
  | _ =>
    if ty = .f32 then fapx32 fn a
    else
      -- the F32 function of the widened input, rounded; widening is exact
      let wide := match t.read a with
        | .nan s => if s then 0x7FA00000 else 0x7FC00000
        | x => (Fmt.f32.finish .rne x).1
      let r := fapx32 fn wide
      let y := t.finish .rne (Fmt.f32.read r.1)
      (y.1, r.2 ||| Flags.when_ (fn == .exp2 && (y.2 &&& Flags.of) != 0) Flags.of)

def execFapx (g : Guard) (ty : Ty) (fn : FapxFn) (d a : Opd) (s : State) : Out :=
  .next (s.perSlice g (lenOf [a]) fun e sl => .ok (sl.setFloat g d ty.width fun l => fapxVal ty fn (tvalOf e sl l ty a)))

/-- A finite number rounded to an integer by a mode (R154). -/
def toInteger (m : Rnd) (x : Dy) : Int := let n : Int := roundAt m x 0; if x.isNeg then -n else n

/-- FCVT (R153, R154): the result as the low bits of the destination type. -/
def fcvtVal (ty : Ty) (r : Rnd) (src : Ty) (a : Nat) : Nat × Flags :=
  if src.isInt then
    let n := readInt src.isSigned src.width a
    if n = 0 then (0, 0) else let z := (fmtOf ty).round r (.ofInt n); (z.bits, z.flags)
  else
    let x := (fmtOf src).read a
    if ty.isFloat then
      let z := (fmtOf ty).finish r x
      (z.1, z.2 ||| snanFlag [x])
    else
      let w := ty.width
      let lo : Int := if ty.isSigned then -(2 ^ (w - 1) : Nat) else 0
      let hi : Int := if ty.isSigned then (2 ^ (w - 1) : Nat) - 1 else (2 ^ w : Nat) - 1
      match x with
      | .nan _ => (0, Flags.nv)
      | .inf n => (wrapTo w (if n then lo else hi), Flags.nv)
      | .zero _ => (0, 0)
      | .fin v =>
        let y := toInteger r v
        if y < lo then (wrapTo w lo, Flags.nv)
        else if hi < y then (wrapTo w hi, Flags.nv)
        else (wrapTo w y, Flags.when_ (!(Dy.ofInt y).eq v) Flags.nx)

def execFcvt (g : Guard) (ty : Ty) (r : Rnd) (src : Ty) (d a : Opd) (s : State) : Out :=
  .next (s.perSlice g (lenOf [a]) fun e sl => .ok (sl.setFloat g d ty.width fun l =>
    fcvtVal ty r src (tvalOf e sl l src a)))

/-- The words of an error-free transform (R155): the greedy-nearest expansion of the exact result. What is left unwritten
lies off the subnormal grid and sets UF, NX and EL (R157, R158). -/
def Fmt.transform (t : Fmt) (m : Nat) : XR → List Nat × Flags
  | .nan _ => (List.replicate m t.nan, 0)
  | .inf n => (t.signed n (t.inf.getD t.nan) :: List.replicate (m - 1) 0, 0)
  | .zero n => (t.signed n 0 :: List.replicate (m - 1) 0, 0)
  | .fin x =>
    let (ws, rest, ov, _) := t.greedy m x
    if ov then (ws, Flags.of ||| Flags.nx ||| Flags.el)
    else if rest.isZero then (ws, 0) else (ws, Flags.uf ||| Flags.nx ||| Flags.el)

def transformVal (ty : Ty) (m : Nat) (x : XR × Flags) : List Nat × Flags :=
  let r := (fmtOf ty).transform m x.1
  (r.1, r.2 ||| x.2)

def execFadd2 (g : Guard) (ty : Ty) (d a b : Opd) (s : State) : Out :=
  .next (s.perSlice g (lenOf [a, b]) fun e sl => .ok (sl.setFloats g d ty.width fun l =>
    transformVal ty 2 (addX .rne ((fmtOf ty).read (tvalOf e sl l ty a)) ((fmtOf ty).read (tvalOf e sl l ty b)))))

def execFmul2 (g : Guard) (ty : Ty) (d a b : Opd) (s : State) : Out :=
  .next (s.perSlice g (lenOf [a, b]) fun e sl => .ok (sl.setFloats g d ty.width fun l =>
    transformVal ty 2 (mulX ((fmtOf ty).read (tvalOf e sl l ty a)) ((fmtOf ty).read (tvalOf e sl l ty b)))))

def execFfma3 (g : Guard) (ty : Ty) (d a b c : Opd) (s : State) : Out :=
  .next (s.perSlice g (lenOf [a, b, c]) fun e sl => .ok (sl.setFloats g d ty.width fun l =>
    transformVal ty 3 (fmaX .rne ((fmtOf ty).read (tvalOf e sl l ty a)) ((fmtOf ty).read (tvalOf e sl l ty b))
      ((fmtOf ty).read (tvalOf e sl l ty c)))))

end Sys2Proof.Machine
end

