-- ==== Sys2Proof/Machine/Expansion.lean ====
section
/-! DEFINITION. The expansion instructions (R160 to R171). -/

namespace Sys2Proof.Machine

/-- The words of an expansion operand in a lane (R160). -/
def expWords (e : Env) (sl : Slice) (l : Nat) (ty : Ty) (n : Nat) : Opd → List Nat
  | .v r => (List.range n).map fun i => tvalOf e sl l ty (.v (r + BitVec.ofNat 8 i))
  | _ => []

/-- An exact result written by Emit, with the flags of its operands (R163). -/
def emitVal (ty : Ty) (m : Nat) (x : XR) (f : Flags) : List Nat × Flags :=
  let r := (fmtOf ty).emit m x
  (r.1, r.2 ||| f)

/-- XADD (R165): opposite infinities are invalid, and a zero is −0 only when every word is −0. -/
def xaddVal (ty : Ty) (m : Nat) (a b : List Nat) : List Nat × Flags :=
  let x := (fmtOf ty).value a
  let y := (fmtOf ty).value b
  let r := addX .rne x.1 y.1
  emitVal ty m r.1 (r.2 ||| x.2 ||| y.2)

/-- XMULS (R167). -/
def xmulsVal (ty : Ty) (m : Nat) (a : List Nat) (b : Nat) : List Nat × Flags :=
  let x := (fmtOf ty).value a
  let r := mulX x.1 ((fmtOf ty).read b)
  emitVal ty m r.1 (r.2 ||| x.2)

def execXadd (g : Guard) (ty : Ty) (wd wa wb : Wc) (d a b : Opd) (s : State) : Out :=
  .next (s.perSlice g (lenOf [a, b]) fun e sl => .ok (sl.setFloats g d ty.width fun l =>
    xaddVal ty wd.num (expWords e sl l ty wa.num a) (expWords e sl l ty wb.num b)))

def execXadds (g : Guard) (ty : Ty) (wd wa : Wc) (d a b : Opd) (s : State) : Out :=
  .next (s.perSlice g (lenOf [a, b]) fun e sl => .ok (sl.setFloats g d ty.width fun l =>
    xaddVal ty wd.num (expWords e sl l ty wa.num a) [tvalOf e sl l ty b]))

def execXmuls (g : Guard) (ty : Ty) (wd wa : Wc) (d a b : Opd) (s : State) : Out :=
  .next (s.perSlice g (lenOf [a, b]) fun e sl => .ok (sl.setFloats g d ty.width fun l =>
    xmulsVal ty wd.num (expWords e sl l ty wa.num a) (tvalOf e sl l ty b)))

/-- XRENORM and XCVT (R168, R171): the value read in one type and emitted in another. -/
def xrenormVal (ty src : Ty) (m : Nat) (a : List Nat) : List Nat × Flags :=
  let x := (fmtOf src).value a
  emitVal ty m x.1 x.2

def execXrenorm (g : Guard) (ty : Ty) (wd wa : Wc) (d a : Opd) (s : State) : Out :=
  .next (s.perSlice g (lenOf [a]) fun e sl => .ok (sl.setFloats g d ty.width fun l =>
    xrenormVal ty ty wd.num (expWords e sl l ty wa.num a)))

/-- XCOMP (R169). -/
def xcompVal (ty : Ty) (a : List Nat) : Nat × Flags :=
  let x := (fmtOf ty).value a
  let r := (fmtOf ty).finish .rne x.1
  (r.1, r.2 ||| x.2)

def execXcomp (g : Guard) (ty : Ty) (wa : Wc) (d a : Opd) (s : State) : Out :=
  .next (s.perSlice g (lenOf [a]) fun e sl => .ok (sl.setFloat g d ty.width fun l =>
    xcompVal ty (expWords e sl l ty wa.num a)))

/-- XCMP (R170). -/
def xcmpVal (ty : Ty) (c : Cnd) (a b : List Nat) : Bool × Flags :=
  let x := (fmtOf ty).value a
  let y := (fmtOf ty).value b
  (cmpX c x.1 y.1, cmpFlags c x.1 y.1 ||| x.2 ||| y.2)

def execXcmp (g : Guard) (ty : Ty) (c : Cnd) (wa wb : Wc) (d a b : Opd) (s : State) : Out :=
  .next (s.perSlice g (lenOf [a, b]) fun e sl => .ok (sl.setCompare g d fun l =>
    xcmpVal ty c (expWords e sl l ty wa.num a) (expWords e sl l ty wb.num b)))

def execXcvt (g : Guard) (ty : Ty) (wd wa : Wc) (src : Ty) (d a : Opd) (s : State) : Out :=
  .next (s.perSlice g (lenOf [a]) fun e sl => .ok (sl.setFloats g d ty.width fun l =>
    xrenormVal ty src wd.num (expWords e sl l src wa.num a)))

end Sys2Proof.Machine
end

