-- ==== Sys2Proof/Machine/Lane.lean ====
section
/-! DEFINITION. LANE (R132 to R135): permutes, reductions and scans over a slice or over the issuing gang. -/

namespace Sys2Proof.Machine

/-- A node of a tree: its value, unless absent, and the flags of the nodes below. -/
abbrev LaneNode := Option Nat × Flags

/-- u ⊕ v (R134), with its flags. -/
def laneComb (ty : Ty) (op : LaneOp) (u v : Nat) : Nat × Flags :=
  let w := ty.width
  match op with
  | .redmin | .scanmin =>
    if ty.isFloat then (fmtOf ty).minMax false false u v else (minMaxVal ty .min u v, 0)
  | .redmax | .scanmax =>
    if ty.isFloat then (fmtOf ty).minMax true false u v else (minMaxVal ty .max u v, 0)
  | .redand => (u &&& v, 0)
  | .redor => (u ||| v, 0)
  | .redxor => (u ^^^ v, 0)
  | _ => if ty.isFloat then (fmtOf ty).add .rne u v else ((u + v) % 2 ^ w, 0)

/-- Comb (R134): an absent operand leaves the other as it is. -/
def combNode (ty : Ty) (op : LaneOp) (x y : LaneNode) : LaneNode :=
  match x.1, y.1 with
  | some u, some v => let r := laneComb ty op u v; (some r.1, x.2 ||| y.2 ||| r.2)
  | some u, none => (some u, x.2 ||| y.2)
  | none, v => (v, x.2 ||| y.2)

/-- One level of a tree. -/
def treeLevel (ty : Ty) (op : LaneOp) : List LaneNode → List LaneNode
  | x :: y :: r => combNode ty op x y :: treeLevel ty op r
  | r => r

/-- Tree(S) (R134) over 2^n positions. -/
def tree (ty : Ty) (op : LaneOp) : Nat → List LaneNode → LaneNode
  | 0, l => l.headD (none, 0)
  | n + 1, l => tree ty op n (treeLevel ty op l)

/-- The domain of LANE: levels of its tree, the base position of a slice, and what holds a position. -/
structure LaneDomain where
  levels : Nat
  base : Slice → Nat
  at_ : Nat → Option (Slice × Nat)

/-- The slice, or the issuing gang with p = 4·ix0 + lane (R132). -/
def laneDomain (lr : LaunchRec) (gang : Bool) (l : List Slice) (self : Slice) : LaneDomain :=
  if gang then
    { levels := 5
      base := fun x => 4 * lr.ix 0 x.gnum
      at_ := fun q => (l.find? (fun x => 4 * lr.ix 0 x.gnum ≤ q && q < 4 * lr.ix 0 x.gnum + 4)).map
        (fun x => (x, q - 4 * lr.ix 0 x.gnum)) }
  else
    { levels := 2, base := fun _ => 0, at_ := fun q => if q < 4 then some (self, q) else none }

/-- The values present at the positions that `keep` chooses, of the lanes that participate. -/
def laneValues (env : Slice → Env) (g : Guard) (ty : Ty) (dm : LaneDomain) (a : Opd) (keep : Nat → Bool) : List LaneNode :=
  (List.range (2 ^ dm.levels)).map fun q =>
    match dm.at_ q with
    | some (x, l) =>
      if keep q && (x.part_ g).getLsbD l then (some (tvalOf (env x) x l ty a), 0) else (none, 0)
    | none => (none, 0)

/-- The source position of a permute (R133), none outside 0..N−1. -/
def lanePos (op : LaneOp) (n p b : Nat) : Option Nat :=
  match op with
  | .shfl | .bcast => some (b % n)
  | .up => if b ≤ p then some (p - b) else none
  | .down => if p + b < n then some (p + b) else none
  | _ => let q := p ^^^ b; if q < n then some q else none

/-- LANE in one slice; `l` are the slices of the issuing gang as they stood before the instruction. -/
def laneSlice (env : Slice → Env) (g : Guard) (ty : Ty) (gang : Bool) (op : LaneOp) (d a b : Opd) (l : List Slice)
    (e : Env) (sl : Slice) : Slice :=
  let dm := laneDomain e.lr gang l sl
  let w := ty.width
  let pick (q : Option Nat) (own : Nat) : Nat :=
    match q.bind dm.at_ with
    | some (x, k) => tvalOf (env x) x k ty a
    | none => tvalOf e sl own ty a
  match op with
  | .shfl | .bcast | .up | .down | .xorl =>
    sl.setInt g d ty.isSigned w fun lane =>
      pick (lanePos op (2 ^ dm.levels) (dm.base sl + lane) (valOf e sl lane 32 b)) lane
  | .redadd | .redmin | .redmax | .redand | .redor | .redxor =>
    let r := tree ty op dm.levels (laneValues env g ty dm a (fun _ => true))
    let x := r.1.getD 0
    let sl' := match d with
      | .s _ => sl.setS g d (BitVec.ofNat 64 (extend ty.isSigned w 64 x))
      | _ => sl.setInt g d ty.isSigned w fun _ => x
    if sl.part_ g = 0 then sl' else sl'.setFlags r.2
  | .scanadd | .scanmin | .scanmax | .xscanadd =>
    let upTo (p : Nat) (q : Nat) : Bool := if op = .xscanadd then decide (q < p) else decide (q ≤ p)
    let at_ (p : Nat) := tree ty op dm.levels (laneValues env g ty dm a (upTo p))
    let sl' := sl.setInt g d ty.isSigned w fun lane => (at_ (dm.base sl + lane)).1.getD 0
    if sl.part_ g = 0 then sl'
    else
      let ps := (List.range (2 ^ dm.levels)).filter fun q =>
        match dm.at_ q with | some (x, k) => (x.part_ g).getLsbD k | none => false
      sl'.setFlags (ps.foldl (fun f p => f ||| (at_ p).2) 0)

def execLane (g : Guard) (ty : Ty) (gang : Bool) (op : LaneOp) (d a b : Opd) (s : State) : Out :=
  .next (s.perGang (lenOf [a, b]) false fun blk l =>
    eachSlice s g blk l fun e sl => .ok (laneSlice (s.envOf blk) g ty gang op d a b l e sl))

end Sys2Proof.Machine
end

