-- ==== Sys2Proof/Machine/MemSide.lean ====
section
/-! DEFINITION. The base-die units (R297 to R300) and user-mode queues (R295, R296). -/

namespace Sys2Proof.Machine

/-! ## Ranges at a stack -/

/-- Bytes of an element of MRED (R298). -/
def redSize (fmt : Nat) : Nat := if fmt = 1 then 4 else if fmt = 2 then 2 else 8

/-- A page that a base-die unit may use (R299 row 5). -/
def bdrPage (w : Bool) (p : Phys) : Bool :=
  Pte.tgt p.pte == 0 && Pte.sl p.pte && (if w then Pte.w_ p.pte && !Pte.x p.pte else Pte.r p.pte)

/-- Rows 4 and 5 of R299 on the sources and the destination: every page walked, then every page checked, all in one stack. -/
def State.bdrRanges (s : State) (c : Nat) (srcs : List Nat) (dst n : Nat) : Option Ev :=
  let walk (va : Nat) : Except Ev (List Seg) := s.segments c [] va n
  let all := (srcs.map fun a => (false, walk a)) ++ [(true, walk dst)]
  match all.findSome? (fun x => match x.2 with | .error e => some { e with check := 11, row := 4 } | .ok _ => none) with
  | some e => some e
  | none =>
    let segs := all.flatMap fun x => match x.2 with | .ok l => l.map (fun g => (x.1, g)) | .error _ => []
    let stks := (segs.map fun x => stackOf (t1Key true x.2.pa)).eraseDups
    let fits (x : Bool × Seg) : Bool :=
      bdrPage x.1 ⟨x.2.pte, x.2.pa, 0⟩ && s.admits .core 0 c x.2.pte x.2.pa x.2.n x.1
    if segs.all fits && stks.length ≤ 1 then none else some bdrPerm

/-- A byte at a virtual address as the stack holds it. -/
def State.stackByte (s : State) (c va : Nat) : Byte :=
  match s.phys? c va with
  | .ok p => s.mem.bankPeek (s.keyOf p 0)
  | .error _ => 0

def State.stackRead (s : State) (c va n : Nat) : Nat := leNat ((List.range n).map fun i => s.stackByte c (va + i))

def State.stackPoison (s : State) (c va n : Nat) : Bool :=
  (List.range n).any fun i => match s.phys? c (va + i) with | .ok p => s.poisoned p 1 | .error _ => false

def State.stackWrite (s : State) (c va : Nat) (bs : List Byte) : State :=
  (bs.zipIdx).foldl (fun s b => match s.phys? c (va + b.2) with
    | .ok p => { s with mem := s.mem.bankPoke (s.keyOf p 0) b.1 }
    | .error _ => s) s

/-- Ranges [a, a + n) and [b, b + n) that meet without being one. -/
def crosses (a b n : Nat) : Bool := a != b && a < b + n && b < a + n

/-- Bytes [x, x + k) meet [a, a + n). -/
def meets (x k a n : Nat) : Bool := decide (x < a + n) && decide (a < x + k)

/-- Elements whose result an overlap of a destination with sources leaves open (R300): element i of the destination lies in
the overlap, or one of its sources does. R299 says nothing of an overlap of an MRED, and the model leaves its elements open too (log
entry 22). -/
def openElem (dst : Nat) (srcs : List Nat) (esz len i : Nat) : Bool :=
  srcs.any fun a => crosses dst a (len * esz) &&
    (meets (dst + i * esz) esz a (len * esz) || meets (a + i * esz) esz dst (len * esz))

/-! ## MRED (R298, R299) -/

/-- The parameter block's fields. -/
def redOf (ws : List Word) : RedBlock :=
  let bs := scalarBytes ws
  { op := field bs 0 1, fmt := field bs 1 1, nsrc := field bs 2 1, src := field bs 8 8, sstep := sgn 64 (field bs 16 8)
    dst := field bs 24 8, len := field bs 32 8, faddr := ws.getD 5 0, fval := ws.getD 6 0 }

/-- Rows 2 and 3 of R299. -/
def redCheck (ws : List Word) : Option Ev :=
  let b := redOf ws
  let bs := scalarBytes ws
  let e := redSize b.fmt
  if !(1 ≤ b.op && b.op ≤ 3 && 1 ≤ b.fmt && b.fmt ≤ 3 && 2 ≤ b.nsrc && b.nsrc ≤ 16 && b.len ≤ 2 ^ 32 && field bs 3 5 == 0 &&
      field bs 56 8 == 0 && (b.fmt ≠ 3 || b.op = 1)) then some { Ev.own with row := 2 }
  else if b.src % e ≠ 0 || b.sstep % e ≠ 0 || b.dst % e ≠ 0 || b.faddr.toNat % 8 ≠ 0 then some { Ev.align with check := 11, row := 3 }
  else none

def RedBlock.srcs (b : RedBlock) : List Nat := (List.range b.nsrc).map fun (k : Nat) => wrapTo 64 ((b.src : Int) + k * b.sstep)

/-- Rows 4 and 5 of R299. -/
def State.redRanges (s : State) (c : Nat) (b : RedBlock) : Option Ev :=
  match if b.len = 0 then none else s.bdrRanges c b.srcs b.dst (b.len * redSize b.fmt) with
  | some e => some e
  | none => s.flagEv c b.faddr.toNat

/-- ⊕ of MRED on element values: a pair is held as hi + lo · 2^32. -/
def redComb (op fmt : Nat) (u v : Nat) : Nat :=
  if fmt = 3 then
    let x := Fmt.f32.value [u % 2 ^ 32, u / 2 ^ 32]
    let y := Fmt.f32.value [v % 2 ^ 32, v / 2 ^ 32]
    let ws := (Fmt.f32.emit 2 (match (addX .rne x.1 y.1).1 with | .zero _ => .zero false | z => z)).1
    ws.getD 0 0 + ws.getD 1 0 * 2 ^ 32
  else if op = 1 then (Fmt.f32.add .rne u v).1
  else
    let t := if fmt = 1 then Fmt.f32 else Fmt.bf16
    (t.minMax (op == 3) false u v).1

/-- One level of the tree of R134 on present and absent values. -/
def redLevel (f : Nat → Nat → Nat) : List (Option Nat) → List (Option Nat)
  | x :: y :: r => (match x, y with | some u, some v => some (f u v) | some u, none => some u | none, z => z) :: redLevel f r
  | r => r

/-- The tree over 16 positions. -/
def redTree (f : Nat → Nat → Nat) (xs : List Nat) : Nat :=
  let l := xs.map some ++ List.replicate (16 - xs.length) none
  (((redLevel f (redLevel f (redLevel f (redLevel f l)))).headD none).getD 0)

/-- Element values to the result's bits (R299). -/
def redElem (op fmt : Nat) (xs : List Nat) : Nat :=
  if fmt = 2 && op = 1 then
    let r := redTree (redComb 1 1) (xs.map fun x => x * 2 ^ 16)
    (Fmt.bf16.finish .rne (Fmt.f32.read r)).1
  else redTree (redComb op fmt) xs

/-- The unit's elements of a command: what each element's address and value are; none where a source is poisoned. -/
def State.unitWrites (s : State) (cmd : Cmd) (dst : Nat) (srcs : List Nat) (esz len : Nat) (f : List Nat → Nat) : List (Nat × Option (List Byte)) :=
  let c := cmd.ctx
  (List.range len).map fun i =>
    let at_ (a : Nat) : Nat := a + i * esz
    (at_ dst,
      if srcs.any (fun a => s.stackPoison c (at_ a) esz) then none
      else if openElem dst srcs esz len i then some (leBytes esz (s.draws cmd i).toNat)
      else some (leBytes esz (f (srcs.map fun a => s.stackRead c (at_ a) esz))))

/-- Perform a base-die command: its writes, then MEMUE where a source was poisoned, else the flag and the completion. -/
def State.unitDone (s : State) (cmd : Cmd) (dst : Nat) (srcs : List Nat) (esz len : Nat) (faddr fval : Word)
    (f : List Nat → Nat) : State :=
  let ws := s.unitWrites cmd dst srcs esz len f
  let s := ws.foldl (fun s w => match w.2 with | some bs => s.stackWrite cmd.ctx w.1 bs | none => s) { s with fresh := s.fresh + len + 1 }
  if ws.any (fun w => w.2.isNone) then s.commandFault cmd Ev.memue
  else ((s.countMoved cmd.ctx (len * esz * (srcs.length + 1))).writeFlag cmd.ctx faddr.toNat fval).endCmd cmd 0 false

/-- A deterministic launch's tags stand in the way of n bytes of a block's memory (R259). -/
def State.tagsBar (s : State) (b : Block) (va n : Nat) (w : Bool) : Bool :=
  s.inDet b && (List.range n).any fun i =>
    match s.phys? (s.lrOf b).ctx (va + i) with
    | .ok p => s.taggedOff b p 1 w
    | .error _ => false

/-- They stand in the way of a base-die command or of its flag. -/
def State.unitDetx (s : State) (cmd : Cmd) (dst : Nat) (srcs : List Nat) (n faddr : Nat) : Bool :=
  match cmd.block.bind s.block? with
  | some b => s.tagsBar b dst n true || srcs.any (fun x => s.tagsBar b x n false) || (flagStore faddr).any (fun f => s.tagsBar b f.1 f.2 true)
  | none => false

/-- Tag the lines of n bytes of a block's memory. -/
def State.tagBytes (s : State) (b : Block) (va n : Nat) (w : Bool) : State :=
  (List.range n).foldl (fun s i =>
    match s.phys? (s.lrOf b).ctx (va + i) with | .ok p => s.tagAccess b p 1 w | .error _ => s) s

/-- Tag the lines of a base-die command and of its flag. -/
def State.unitTag (s : State) (cmd : Cmd) (dst : Nat) (srcs : List Nat) (n faddr : Nat) : State :=
  match cmd.block.bind s.block? with
  | some b =>
    (flagStore faddr).foldl (fun s f => s.tagBytes b f.1 f.2 true)
      ((srcs.foldl (fun s a => s.tagBytes b a n false) s).tagBytes b dst n true)
  | none => s

/-- The pages of a base-die command and of its flag are there and not under migration. -/
def State.unitFree (s : State) (c faddr : Nat) (as : List Nat) (n : Nat) : Bool :=
  !s.copyHeld { ctx := c, blk := none, share := 0 } (as.flatMap fun a => (List.range n).map fun i => ({ scr := false, addr := a + i } : CAddr)) &&
  as.all (fun a => (List.range n).all fun i => match s.phys? c (a + i) with | .ok _ => true | .error _ => false) &&
  !s.engineHeld c (flagStore faddr)

/-- A base-die command without elements completes at the engine port of its core: it waits for its flag's place, writes the flag and
is numbered on tl3 (R299). -/
def State.instantUnit (s : State) (b : Block) (sl : Slice) (id : Nat) (faddr fval : Word) : Issued :=
  let c := (s.lrOf b).ctx
  let f := flagStore faddr.toNat
  if f.any (fun x => s.tagsBar b x.1 x.2 true) then .bad Ev.detx
  else
    match s.flagWait c faddr.toNat with
    | some s' => .waits s'
    | none => .done (((f.foldl (fun s x => s.tagBytes b x.1 x.2 true) s).writeFlag c faddr.toNat fval).instantCmd b sl id 3 none) .none

def sendMred : Sender := fun s b sl id ws =>
  let x := redOf ws
  if x.len = 0 then s.instantUnit b sl id x.faddr x.fval
  else .done (s.launchCmd b sl id 3 none none (.red x)) .none

/-- The parameter block of MRED, read as a PKG load at issue. -/
def mredAccs (s : State) (blk : Block) (l : List Slice) (g : Guard) (a : Opd) : List Acc :=
  gangAccs s blk l fun e sl => globalAccs e sl g true a .none 64 64 true false

def mredWords (s : State) (blk : Block) (accs : List Acc) (sl : Slice) : List Word :=
  match accs.find? (fun x => x.slice == sl.num) with
  | some x =>
    let bs := s.loadBytes blk sl (s.physOf (s.lrOf blk).ctx x) 64
    (List.range 8).map fun i => leWord ((bs.drop (8 * i)).take 8)
  | none => []

/-- The checks of R299 on it. -/
def mredTrap (s : State) (blk : Block) (accs : List Acc) (sl : Slice) : Option Ev :=
  match redCheck (mredWords s blk accs sl) with
  | some e => some e
  | none => s.redRanges (s.lrOf blk).ctx (redOf (mredWords s blk accs sl))

/-- MRED (R299). -/
def execMred (g : Guard) (a : Opd) (s : State) : Out :=
  .next (s.perGang (lenOf [a]) false fun blk l =>
    let accs := mredAccs s blk l g a
    match if l.any (fun x => x.wait == .made) then none else s.checkAccs blk accs (fun _ => true) with
    | some e => .trap e
    | none =>
      if s.held_ (s.lrOf blk).ctx accs then .stall s
      else
        let s := s.afterLoads blk false l accs
        s.cmdGang g .c (.mred g a) none (mredTrap s blk accs) (mredWords s blk accs) sendMred blk l)

def execMredComplete (cmd : Nat) (s : State) : Out :=
  .next (match s.cmds.find? (fun c => c.id == cmd) with
    | none => s
    | some c =>
      match c.kind with
      | .red b =>
        let n := b.len * redSize b.fmt
        if c.hold.isSome || !s.unitFree c.ctx b.faddr.toNat (b.dst :: b.srcs) n then s
        else if s.engineRoom c.ctx (flagStore b.faddr.toNat) ≠ [] then (s.engineRoom c.ctx (flagStore b.faddr.toNat)).foldl State.startFetch s
        else if s.unitDetx c b.dst b.srcs n b.faddr.toNat then s.commandFault c Ev.detx
        else (s.unitTag c b.dst b.srcs n b.faddr.toNat).unitDone c b.dst b.srcs (redSize b.fmt) b.len b.faddr b.fval (redElem b.op b.fmt)
      | _ => s)

/-! ## MCMP (R300) -/

/-- The sources that a SUB uses. -/
def mcmpSrcs (op : McmpOp) (a : McmpArgs) : List Nat :=
  match op with
  | .vadd | .vmul => [a.x, a.y]
  | .vfma => [a.x, a.y, a.z]
  | .vcopy => [a.x]
  | .vfill => []

def mcmpArgsOf (ws : List Word) : McmpArgs :=
  let w (i : Nat) : Word := ws.getD i 0
  { dst := (w 0).toNat, x := (w 1).toNat, y := (w 2).toNat, z := (w 3).toNat, n := (w 4).toNat, faddr := w 5, fval := w 6, fill := w 7 }

/-- MCMP's own checks (R300), then alignment as row 3 of R299. -/
def mcmpCheck (ty : Ty) (op : McmpOp) (a : McmpArgs) : Option Ev :=
  let unused : List Nat := match op with | .vadd | .vmul => [a.z] | .vfma => [] | .vcopy => [a.y, a.z] | .vfill => [a.x, a.y, a.z]
  let e := ty.width / 8
  if unused.any (fun x => x != 0) || a.n ≥ 2 ^ 32 || a.fill.toNat ≥ 2 ^ ty.width then some { Ev.own with row := 2 }
  else if (a.dst :: mcmpSrcs op a).any (fun x => x % e != 0) || a.faddr.toNat % 8 ≠ 0 then some { Ev.align with check := 11, row := 3 }
  else none

/-- One element. -/
def mcmpElem (ty : Ty) (r : Rnd) (op : McmpOp) (fill : Word) (xs : List Nat) : Nat :=
  let x := xs.getD 0 0
  let y := xs.getD 1 0
  let z := xs.getD 2 0
  let t := fmtOf ty
  match op with
  | .vadd => if ty.isFloat then (t.add r x y).1 else (x + y) % 2 ^ 32
  | .vmul => if ty.isFloat then (t.mul r x y).1 else (x * y) % 2 ^ 32
  | .vfma => if ty.isFloat then (t.fma r .ma x y z).1 else (x * y + z) % 2 ^ 32
  -- canonical NaNs, as every float result
  | .vcopy => if ty.isFloat then (t.finish r (t.read x)).1 else x
  | .vfill => if ty.isFloat then (t.finish r (t.read (fill.toNat % 2 ^ ty.width))).1 else fill.toNat % 2 ^ ty.width

def State.mcmpRanges (s : State) (c : Nat) (ty : Ty) (op : McmpOp) (a : McmpArgs) : Option Ev :=
  match if a.n = 0 then none else s.bdrRanges c (mcmpSrcs op a) a.dst (a.n * (ty.width / 8)) with
  | some e => some e
  | none => s.flagEv c a.faddr.toNat

def sendMcmp (ty : Ty) (r : Rnd) (op : McmpOp) : Sender := fun s b sl id ws =>
  let a := mcmpArgsOf ws
  if a.n = 0 then s.instantUnit b sl id a.faddr a.fval
  else .done (s.launchCmd b sl id 3 none none (.mcmp ty r op a)) .none

def mcmpTrap (s : State) (blk : Block) (ty : Ty) (op : McmpOp) (args : List Word) : Option Ev :=
  match mcmpCheck ty op (mcmpArgsOf args) with
  | some e => some e
  | none => s.mcmpRanges (s.lrOf blk).ctx ty op (mcmpArgsOf args)

def execMcmp (g : Guard) (ty : Ty) (r : Rnd) (op : McmpOp) (a : Opd) (s : State) : Out :=
  .next (s.perGang 1 false fun blk l =>
    s.cmdGang g .c (.mcmp g ty r op a) none (fun sl => mcmpTrap s blk ty op (eightOf sl a)) (fun sl => eightOf sl a)
      (sendMcmp ty r op) blk l)

def execMcmpComplete (cmd : Nat) (s : State) : Out :=
  .next (match s.cmds.find? (fun c => c.id == cmd) with
    | none => s
    | some c =>
      match c.kind with
      | .mcmp ty r op a =>
        let e := ty.width / 8
        let srcs := mcmpSrcs op a
        if c.hold.isSome || !s.unitFree c.ctx a.faddr.toNat (a.dst :: srcs) (a.n * e) then s
        else if s.engineRoom c.ctx (flagStore a.faddr.toNat) ≠ [] then (s.engineRoom c.ctx (flagStore a.faddr.toNat)).foldl State.startFetch s
        else if s.unitDetx c a.dst srcs (a.n * e) a.faddr.toNat then s.commandFault c Ev.detx
        else (s.unitTag c a.dst srcs (a.n * e) a.faddr.toNat).unitDone c a.dst srcs e a.n a.faddr a.fval (mcmpElem ty r op a.fill)
      | _ => s)

/-! ## User-mode queues (R295, R296) -/

/-- The code by which a packet names the block and share that posted it (log entry 9). -/
def originOf (b : Block) (share : Nat) : Nat := (b.uid * 256 + share) % 2 ^ 32

/-- The accesses of a QPOST to RIDX, NSLOT and RING of its header (R295), which it loads. -/
def headerLoads (e : Env) (sl : Slice) (g : Guard) (b : Opd) : List Acc :=
  (globalAccs e sl g true b .none 24 8 true true).map fun a => { a with ea := a.ea.map (· + 128) }

/-- The accesses of a QPOST to its header: WIDX, and what it loads. -/
def headerAccs (e : Env) (sl : Slice) (g : Guard) (b : Opd) : List Acc :=
  (globalAccs e sl g true b .none 8 256 true true) ++ headerLoads e sl g b

/-- Read n bytes of virtual memory as a slice's load, its own buffered stores among them (R254). -/
def State.slRead (s : State) (b : Block) (sl : Slice) (va n : Nat) : Nat :=
  match s.phys? (s.lrOf b).ctx va with
  | .ok p => leNat (s.loadBytes b sl p n)
  | .error _ => 0

/-- The header of a queue: NSLOT, RING, WIDX and RIDX. -/
structure UqHead where
  nslot : Nat
  ring : Nat
  widx : Nat
  ridx : Nat
  deriving DecidableEq, Repr, Inhabited

def State.uqHead (s : State) (b : Block) (sl : Slice) (h : Nat) : UqHead :=
  { nslot := s.slRead b sl (h + 136) 4, ring := s.slRead b sl (h + 144) 8, widx := s.slRead b sl h 8, ridx := s.slRead b sl (h + 128) 8 }

def UqHead.ok (x : UqHead) : Bool :=
  2 ≤ x.nslot && x.nslot ≤ 65536 && 2 ^ Nat.log2 x.nslot == x.nslot && x.ring % 64 == 0

def UqHead.slotVa (x : UqHead) (i : Nat) : Nat := x.ring + 64 * (i % x.nslot)

/-- The packet bytes of a post: ORIGIN in place (R295). -/
def packetBytes (ws : List Word) (origin : Nat) : List Byte :=
  let bs := scalarBytes ws
  bs.take 4 ++ leBytes 4 origin ++ bs.drop 8

/-- The accesses to a slot of the ring. -/
def slotAcc (sl : Slice) (m : Mask) (va : Nat) : Acc :=
  { slice := sl.num, mask := m, lane := 0, pos := 0, ea := some va, so := none, size := 64, align := 64, r := true, w := true }

/-- The stores of a packet to its slot: bytes 0 to 62, then VALID with release. -/
def State.packetStores (s : State) (b : Block) (sl : Slice) (va : Nat) (ws : List Word) : List (Slice × Phys × List (Option Byte)) :=
  let bs := packetBytes ws (originOf b sl.share)
  match s.phys? (s.lrOf b).ctx va with
  | .error _ => []
  | .ok p =>
    let half (o n : Nat) : Slice × Phys × List (Option Byte) := (sl, { p with pa := p.pa + o }, ((bs.drop o).take n).map some)
    [half 0 16, half 16 16, half 32 16, half 48 16]

/-- The user context that TLSEL names numbers a packet as it is posted (R251, log entry 59): the number goes with the packet's slot. -/
def State.notePacket (s : State) (b : Block) (sl : Slice) (va : Nat) (ws : List Word) : State :=
  let t := field (scalarBytes ws) 1 1
  if t = 6 || t = 7 then
    let (n, s') := s.acceptTl b.uid sl.share t
    s'.modShare b.uid sl.share fun sh => { sh with tls := sh.tls.modify t fun x => { x with posted := x.posted ++ [(va, n)] } }
  else s

/-- Write a packet whose slot is claimed. -/
def State.writePacket (s : State) (b : Block) (sl : Slice) (va : Nat) (ws : List Word) : Except State State :=
  match s.performStores b .pkg false (s.packetStores b sl va ws) with
  | .ok s' => .ok (s'.notePacket b sl va ws)
  | .error s' => .error s'

/-- A page on which a queue may lie. -/
def queuePage (p : Phys) : Bool := Pte.tgt p.pte != 5

/-- What a queue's header runs into, as a load and a store (R226). -/
def State.slotEv (s : State) (b : Block) (accs : List Acc) : Option Ev := s.checkAccs b accs queuePage

/-- What a queue's ring runs into, with R and W required (R226, R295). Which slot a packet takes is known only once it is claimed, so
all the slots are looked at before that (log entry 69). -/
def State.ringEv (s : State) (b : Block) (sl : Slice) (h : Nat) : Option Ev :=
  let c := (s.lrOf b).ctx
  let x := s.uqHead b sl h
  evOf (s.segments c [fun p n => if queuePage p then s.permRow c true true true p n else some { Ev.perm with check := 4 }, s.lostRow] x.ring
    (64 * x.nslot))

/-- A packet posted at the commit of a deterministic launch, once its slot is free: what stands in the way of its header or its slot by
then is waited for. Room for its stores in a cocoon is judged then; where there is none, it waits until the span is RESIDENT (R312,
R321). -/
def sendQpost (d : Option Nat) : Sender := fun s b sl _ args =>
  let h := (args.getD 8 0).toNat
  let x := s.uqHead b sl h
  if !x.ok then .bad Ev.own
  else
    match s.phys? (s.lrOf b).ctx h, s.phys? (s.lrOf b).ctx (x.slotVa x.widx) with
    | .ok p, .ok q =>
      let s := s.publishHeldOf b sl
      if s.blocked p || s.blocked q || x.widx - x.ridx ≥ x.nslot || (s.inAbsentSpan q && args.getD 9 0 == 1) then .waits s
      else if s.inAbsentSpan p then .waits (s.startFetch (spanOf p.pa))
      else
        match s.checkRows b [slotAcc sl sl.am (x.slotVa x.widx)] queuePage [4, 5, 6] with
        | some e => .bad e
        | none =>
          let (i, s') := s.atomicOne b sl .pkg p 8 (fun m => some ((m + 1) % 2 ^ 64))
          match s'.writePacket b sl (x.slotVa i) (args.take 8) with
          | .error t => .forced { s with spans := t.spans }
          | .ok t => .done t (.vals (match d with | some r => [.s r (BitVec.ofNat 64 i)] | none => []))
    | _, _ => .waits s

/-- The header of a slice's queue, and the slot it has claimed. -/
def postHead (s : State) (blk : Block) (b : Opd) (sl : Slice) : Nat := (svalOf (s.envOf blk sl) sl b).toNat

/-- The index that a slice has claimed, and its slot. -/
def Slice.claimed (sl : Slice) : Option (Nat × Nat) := match sl.wait with | .queue i _ va _ => some (i, va) | _ => none

/-- The accesses of QPOST: its headers, then the slot that each slice has claimed, or would claim now. -/
def postAccs (s : State) (blk : Block) (l : List Slice) (g : Guard) (b : Opd) : List Acc := gangAccs s blk l fun e sl => headerAccs e sl g b

def postTodo (g : Guard) (l : List Slice) : List Slice := l.filter (fun x => x.part_ g != 0 && !x.again .c)

/-- Slices before the k-th that will claim a slot of its queue. -/
def postBefore (s : State) (blk : Block) (b : Opd) (l : List Slice) (k : Nat) : Nat :=
  let at_ (x : Slice) : Option Nat :=
    match s.phys? (s.lrOf blk).ctx (postHead s blk b x) with | .ok p => some (s.logKey p 0) | .error _ => none
  ((l.take k).filter fun y => y.claimed.isNone && (l[k]?).any fun x => at_ x == at_ y).length

def postSlots (s : State) (blk : Block) (l : List Slice) (g : Guard) (b : Opd) : List Acc :=
  (postTodo g l).mapIdx fun (k : Nat) x =>
    let h := s.uqHead blk x (postHead s blk b x)
    slotAcc x (x.part_ g) (match x.claimed with | some c => c.2 | none => h.slotVa (h.widx + postBefore s blk b (postTodo g l) k))

/-- A slice's packet or queue that QPOST refuses (R295). -/
def postBad (s : State) (a b : Opd) (blk : Block) (sl : Slice) : Option Ev :=
  if field (scalarBytes (eightOf sl a)) 63 1 == 0 || !(s.uqHead blk sl (postHead s blk b sl)).ok then some Ev.own else none

/-- What QPOST runs into before its log is looked at (R295): its headers, its packets and queues, then its rings. -/
def postTrap (s : State) (g : Guard) (a b : Opd) (blk : Block) (l : List Slice) : Option Ev :=
  (s.slotEv blk (postAccs s blk l g b)) <|> (gangTrap g l (postBad s a b blk)) <|>
  (gangTrap g l fun sl => s.ringEv blk sl (postHead s blk b sl))

/-- What QPOST still runs into once its slots are claimed: memory that has been lost, and a header that is poisoned by now. Anything else
is waited for (log entry 69). -/
def postLate (s : State) (g : Guard) (b : Opd) (blk : Block) (l : List Slice) : Option Ev :=
  let loads := gangAccs s blk (postTodo g l) fun e sl => headerLoads e sl g b
  (s.checkRows blk (loads ++ postSlots s blk l g b) queuePage [5]) <|> (s.checkRows blk loads queuePage [7])

/-- The event that QPOST raises (R295), before any of its slots is claimed or after. -/
def postEv (s : State) (g : Guard) (a b : Opd) (blk : Block) (l : List Slice) : Option Ev :=
  if l.any (fun x => x.claimed.isSome) then postLate s g b blk l
  else (postTrap s g a b blk l) <|> (cmdLogFull g .c (some 0) l)

/-- The headers cannot be read yet: their accesses pass the checks, and a page of them is held (R283, R304, R352). -/
def postHeld (s : State) (g : Guard) (b : Opd) (blk : Block) (l : List Slice) : Bool :=
  (s.slotEv blk (postAccs s blk l g b)).isNone && s.held_ (s.lrOf blk).ctx (postAccs s blk l g b)

/-- The slices yet to claim a slot, and what their loads of RIDX, NSLOT and RING leave behind (R242, R259, R315, R375). -/
def postNew (g : Guard) (l : List Slice) : List Slice := (postTodo g l).filter fun x => x.claimed.isNone
def postReads (s : State) (g : Guard) (b : Opd) (blk : Block) (l : List Slice) : State :=
  s.afterLoads blk false (postNew g l) (gangAccs s blk (postNew g l) fun e sl => headerLoads e sl g b)

/-- QPOST cannot go on now: a page holds it, or its release on a far page waits for what its slice has outstanding there (R245). -/
def postWaits (s : State) (g : Guard) (b : Opd) (blk : Block) (l : List Slice) : Bool :=
  s.held_ (s.lrOf blk).ctx (postAccs s blk l g b ++ postSlots s blk l g b) ||
  (postSlots s blk l g b).any fun a => farPage (s.physOf (s.lrOf blk).ctx a) && s.farDue blk a.slice false

/-- Spans that the headers of the slices yet to claim lie in, without a T1 copy. -/
def postAbsent (s : State) (g : Guard) (b : Opd) (blk : Block) (l : List Slice) : List Nat :=
  (postNew g l).filterMap fun x =>
    match s.phys? (s.lrOf blk).ctx (postHead s blk b x) with
    | .ok p => if s.inAbsentSpan p then some (spanOf p.pa) else none
    | .error _ => none

/-- Each slice that has not yet claimed a slot claims one: a fetch-and-add on WIDX (R295). It keeps the NSLOT that it has read, and the
slot's address. -/
def postClaim (s : State) (g : Guard) (b : Opd) (blk : Block) (l : List Slice) : State :=
  (postTodo g l).foldl (fun s' sl =>
    match sl.claimed, s'.phys? (s.lrOf blk).ctx (postHead s blk b sl) with
    | none, .ok p =>
      let (i, s') := (s'.publishHeldOf blk sl).atomicOne blk sl .pkg p 8 (fun m => some ((m + 1) % 2 ^ 64))
      let h := s.uqHead blk sl (postHead s blk b sl)
      s'.modSlice blk.uid sl.num (fun y => { y with wait := .queue i h.nslot (h.slotVa i) [] })
    | _, _ => s') s

/-- The slot that a slice has claimed is free, and neither it nor the header's RIDX is out of its reach (log entry 69). -/
def postFree (s : State) (b : Opd) (blk : Block) (sl : Slice) : Bool :=
  let h := postHead s blk b sl
  sl.again .c ||
  match sl.wait with
  | .queue i nslot va _ =>
    (s.checkRows blk [{ slotAcc sl sl.am (h + 128) with size := 24, align := 8, w := false }, slotAcc sl sl.am va] queuePage [3, 4]).isNone &&
      decide (i < (s.uqHead blk sl h).ridx + nslot) && s.awaited sl == []
  | _ => false

/-- The slot that a slice has claimed. -/
def Slice.slot (x : Slice) : Nat := match x.claimed with | some c => c.2 | none => 0

/-- Slices keep their slots and wait for spans, whose fetches are forced (R312). -/
def postAwait (s : State) (blk : Block) (l : List Slice) (ns : List Nat) : State :=
  l.foldl (fun (s : State) x =>
    s.modSlice blk.uid x.num fun y => { y with wait := match y.wait with | .queue i n va _ => .queue i n va ns | w => w }) (ns.foldl State.startFetch s)

/-- The packets are written, slice by slice; room in cocoons is judged for all of them first (R312). -/
def postWrite (s : State) (d a : Opd) (blk : Block) (l : List Slice) : Except State State :=
  match s.wants blk ((l.filter (fun x => !x.again .c)).flatMap fun x => s.packetStores blk x x.slot (eightOf x a)) with
  | n :: ns => .error (postAwait s blk l (n :: ns))
  | [] =>
    l.foldl (fun (acc : Except State State) x =>
      match acc with
      | .error e => .error e
      | .ok s =>
        if x.again .c then .ok (s.modSlice blk.uid x.num (fun y => y.replay .c))
        else
          match s.writePacket blk x x.slot (eightOf x a) with
          | .error s' => .error s'
          | .ok s' => .ok (s'.modSlice blk.uid x.num (fun y =>
              y.sent .c (dstOf d) (.vals (match dstOf d, x.claimed with | some r, some c => [.s r (BitVec.ofNat 64 c.1)] | _, _ => []))))) (.ok s)

/-- QPOST to memory (R295): each slice claims its slot, then the gang waits until every claimed slot is free. -/
def qpostGang (s : State) (g : Guard) (d a b : Opd) (blk : Block) (l : List Slice) : Res :=
  if postHeld s g b blk l then .stall s
  else
  match postEv s g a b blk l with
  | some e => .trap e
  | none =>
    if postWaits s g b blk l then .stall s
    else
      match postAbsent s g b blk l with
      | n :: ns => .stall ((n :: ns).foldl State.startFetch s)
      | [] =>
        let s1 := postClaim (postReads s g b blk l) g b blk l
        if (s1.takers g blk l).all (postFree s1 b blk) then
          match postWrite s1 d a blk (s1.takers g blk l) with
          | .ok s2 => .done s2 []
          | .error s2 => .stall s2
        else .stall s1

/-- QPOST in a deterministic launch: it is checked as it issues, and claims its slot as it commits (R254, R295). -/
def qpostDet (s : State) (g : Guard) (d a b : Opd) (blk : Block) (l : List Slice) : Res :=
  if postHeld s g b blk l then .stall s
  else
  match postTrap s g a b blk l with
  | some e => .trap e
  | none =>
    (postReads s g b blk l).cmdGang g .c (.qpost g d a b) (dstOf d) (fun _ => none)
      (fun sl => eightOf sl a ++ [svalOf (s.envOf blk sl) sl b]) (sendQpost (dstOf d)) blk l

def execQpost (g : Guard) (d a b : Opd) (s : State) : Out :=
  .next (s.perGang (lenOf [b]) false fun blk l => if s.buffers blk then qpostDet s g d a b blk l else qpostGang s g d a b blk l)

/-- Read a context's virtual memory as an engine at PKG. -/
def State.ctxRead (s : State) (c va n : Nat) : Option Nat :=
  match s.phys? c va with
  | .ok p => some (leNat (s.readAt none c p n))
  | .error _ => none

def State.ctxWrite (s : State) (c va n x : Nat) : State :=
  match s.phys? c va with
  | .ok p => s.engineStore c p (leBytes n x)
  | .error _ => s

/-- What an engine's load of n bytes within a page runs into (R226 rows 3 to 5, R281). -/
def State.loadEv (s : State) (c va n : Nat) : Option Ev :=
  let at_ (e : Ev) : Option Ev := some { e with addr := some (BitVec.ofNat 64 va) }
  match s.phys? c va with
  | .error f => at_ { Ev.pagef with detail := f.detail }
  | .ok p =>
    if !Pte.r p.pte || Pte.tgt p.pte = 5 || !s.admits .core 0 c p.pte p.pa n false then at_ Ev.perm
    else if s.lostPage p.pte then at_ { Ev.swlost with unit_ := Pte.node p.pte % 16 }
    else if Pte.tgt p.pte = 3 && s.fabric.lostPeers.contains (Pte.node p.pte) then at_ { Ev.peerlost with unit_ := Pte.node p.pte }
    else if !s.mem.frozen.contains (frozenPage p) && s.accPoisoned p n then at_ Ev.memue
    else none

/-- An event that ends a context, not a check that a packet fails. -/
def Ev.fatal (e : Ev) : Option Ev := if e.code == 0x08 || e.code == 0x09 || e.code == 0x0A then some e else none

/-- The command that a packet or a node's payload asks for (R296, R365): CPY, RED or none. Where it is refused, the event that ends
its context, if that is the reason. -/
def State.packetCmd (s : State) (c : Nat) (bs : List Byte) : Except (Option Ev) (Option CmdKind) :=
  match field bs 0 1 with
  | 1 =>
    let len := field bs 24 8
    let dst := field bs 8 8
    let src := field bs 16 8
    if len ≥ 2 ^ 40 || dst ≥ 2 ^ 57 || src ≥ 2 ^ 57 || dst + len > 2 ^ 57 || src + len > 2 ^ 57 then .error none
    else .ok (if len = 0 then none else some (.copy (BitVec.ofNat 64 dst) (BitVec.ofNat 64 src) len))
  | 2 =>
    let a := field bs 8 8
    if a % 64 ≠ 0 then .error none
    else
      match s.loadEv c a 64 with
      | some e => .error e.fatal
      | none =>
        let ws := (List.range 8).map fun i => BitVec.ofNat 64 ((s.ctxRead c (a + 8 * i) 8).getD 0)
        match redCheck ws with
        | some _ => .error none
        | none =>
          match s.redRanges c (redOf ws) with
          | some e => .error e.fatal
          | none => .ok (some (.red (redOf ws)))
  | _ => .ok none

def State.modUq (s : State) (q : Nat) (f : UserQueue → UserQueue) : State :=
  { s with sched := { s.sched with userQs := s.sched.userQs.map fun u => if u.id == q then f u else u } }

/-- A context-wide command: one that no slice issued. -/
def freeCmd (id c : Nat) (node : Option NodeRef) (uq : Option Nat) (kind : CmdKind) : Cmd :=
  { id, ctx := c, block := none, share := 0, slice := 0, at_ := 0, others := [], tl := none, path := none, dst := none, node, uq, hold := none
    kind }

/-- The next slot of a queue with VALID set: its index and its bytes. -/
def State.uqSlot (s : State) (u : UserQueue) : Option (Nat × List Byte) :=
  match s.ctxRead u.ctx (u.header + 136) 4, s.ctxRead u.ctx (u.header + 144) 8, s.ctxRead u.ctx (u.header + 128) 8 with
  | some nslot, some ring, some ridx =>
    let h : UqHead := { nslot, ring, widx := 0, ridx }
    let k := ridx + u.inFlight.length
    if !h.ok || u.inFlight.length ≥ nslot then none
    else
      match (List.range 64).mapM (fun i => s.ctxRead u.ctx (h.slotVa k + i) 1) with
      | none => none
      | some xs =>
        let bs := xs.map (fun (x : Nat) => BitVec.ofNat 8 x)
        if field bs 63 1 = 0 then none else some (k, bs)
  | _, _, _ => none

/-- A packet's fixed fields are as R296 asks, of a kind that the engine takes. That a FADDR which is no multiple of 8 makes it bad, and
then no flag is written, is log entry 59. -/
def packetOk (u : UserQueue) (bs : List Byte) : Bool :=
  u.kinds.contains (field bs 0 1) && (field bs 1 1 = 0 || field bs 1 1 = 6 || field bs 1 1 = 7) && field bs 2 2 == 0 &&
  field bs 32 8 == 0 && field bs 56 7 == 0 && field bs 40 8 % 8 == 0

/-- The block and share that a packet's ORIGIN names, if it runs or is saved (R296, R393). -/
def State.origin? (s : State) (o : Nat) : Option (Nat × Nat) :=
  (s.blocks ++ s.images).findSome? fun b => ((List.range b.shares.length).find? (fun k => originOf b k == o)).map fun k => (b.uid, k)

/-- A virtual address of a block's context is that of the place with this key, wherever its page now lies. -/
def State.names (s : State) (b : Block) (va key : Nat) : Bool :=
  match s.phys? (s.lrOf b).ctx va with | .ok p => s.logKey p 0 == key | .error _ => false

/-- A packet's number on tl6 or tl7: the one that QPOST gave it with its slot; what else names a block that runs is numbered as its
engine picks it up (R251, log entry 59). -/
def State.numberPacket (s : State) (tlsel origin key : Nat) : Nat × State :=
  match s.origin? origin with
  | some (b, k) =>
    if tlsel = 6 || tlsel = 7 then
      match (s.block? b).bind fun x => ((x.share k).timeline tlsel).posted.find? fun y => s.names x y.1 key with
      | some y => (y.2, s.modShare b k fun sh => { sh with tls := sh.tls.modify tlsel fun x => { x with posted := x.posted.erase y } })
      | none => s.acceptTl b k tlsel
    else (0, s)
  | none => (0, s)

/-- The key of a slot of a queue. -/
def State.uqKey (s : State) (u : UserQueue) (k : Nat) : Nat :=
  match s.ctxRead u.ctx (u.header + 136) 4, s.ctxRead u.ctx (u.header + 144) 8 with
  | some nslot, some ring => (match s.phys? u.ctx (ring + 64 * (k % nslot)) with | .ok p => s.logKey p 0 | .error _ => 0)
  | _, _ => 0

/-- A queue's engine runs into an event that ends its context. -/
def State.queueFault (s : State) (u : UserQueue) (e : Ev) : State :=
  s.contextFault u.ctx (s.cmdRec (freeCmd 0 u.ctx none (some u.id) (.copy 0 0 0)) e)

/-- What a packet's fields ask for; a flag that may not be written is a check that fails (R296). -/
def State.packetAsks (s : State) (u : UserQueue) (bs : List Byte) : Except (Option Ev) (Option CmdKind) :=
  if !packetOk u bs then .error none
  else
    match (s.flagEv u.ctx (field bs 40 8)).filter fun e => e.code != 0x04 with
    | some e => .error e.fatal
    | none => s.packetCmd u.ctx bs

/-- A packet is picked up: its command starts, or it will complete as a bad one. -/
def State.pickUp (s : State) (u : UserQueue) (k : Nat) (bs : List Byte) : State :=
  let id := s.newId.1
  let (num, s) := s.newId.2.numberPacket (field bs 1 1) (field bs 4 4) (s.uqKey u k)
  let pk (cmd : Option Nat) (bad : Bool) : Packet :=
    { slot := k, num, cmd, bad, tlsel := field bs 1 1, origin := field bs 4 4, faddr := field bs 40 8, fval := BitVec.ofNat 64 (field bs 48 8) }
  let put (s : State) (p : Packet) : State := s.modUq u.id (fun u => { u with inFlight := u.inFlight ++ [p] })
  match s.packetAsks u bs with
  | .error (some e) => s.queueFault u e
  | .error none => put s (pk none true)
  | .ok none => put s (pk none false)
  | .ok (some kind) => put { s with cmds := s.cmds ++ [freeCmd id u.ctx none (some u.id) kind] } (pk (some id) false)

/-- What an engine looks at of its queue: the header, and the slot that is next. -/
def State.uqLooks (s : State) (u : UserQueue) : List (Nat × Nat) :=
  (u.header + 128, 24) ::
  match s.ctxRead u.ctx (u.header + 136) 4, s.ctxRead u.ctx (u.header + 144) 8, s.ctxRead u.ctx (u.header + 128) 8 with
  | some nslot, some ring, some ridx => [(({ nslot, ring, widx := 0, ridx } : UqHead).slotVa (ridx + u.inFlight.length), 64)]
  | _, _, _ => []

/-- An engine looks at its queue: reading absent spans through may ask for their fetches (R315), and what lies on another module is
asked for there (R328). -/
def State.uqPolls (s : State) (u : UserQueue) : State := s.readsAll u.ctx (s.uqLooks u)

/-- The queue's header, or the slot that is next, cannot be read yet (R283, R304, R352). -/
def State.uqBlocked (s : State) (u : UserQueue) : Bool := s.anyBlocked u.ctx (s.uqLooks u)

/-- What its engine runs into there (R226 rows 3 to 5, R281). -/
def State.uqEv (s : State) (u : UserQueue) : Option Ev := (s.uqLooks u).findSome? fun x => s.loadEv u.ctx x.1 x.2

/-- What a packet of kind RED has the engine read. -/
def packetBlock (bs : List Byte) : List (Nat × Nat) := if field bs 0 1 = 2 then [(field bs 8 8, 64)] else []

/-- An engine sees VALID in the next slot (R296). -/
def execQueuePacketPickup (uq : Nat) (s : State) : Out :=
  .next (match s.sched.userQs.find? (fun u => u.id == uq) with
    | none => s
    | some u =>
      if s.uqBlocked u then s
      else
        match s.uqEv u with
        | some e => if e.code = 0x04 then s else s.queueFault u e
        | none =>
        let s := s.uqPolls u
        match s.uqSlot u with
        | some x =>
          if s.anyBlocked u.ctx (packetBlock x.2) then s else (s.readsAll u.ctx (packetBlock x.2)).pickUp u x.1 x.2
        | none => s)

/-- The timeline of the share that posted a packet counts it (R296). -/
def State.countPacket (s : State) (p : Packet) : State :=
  match s.origin? p.origin with
  | some (b, k) => if (p.tlsel = 6 || p.tlsel = 7) && p.num ≠ 0 then s.completeTl b k p.tlsel p.num else s
  | none => s

/-- The oldest packet's completion takes effect (R296): the flag, the timeline, VALID, RIDX. -/
def State.packetDone (s : State) (u : UserQueue) (p : Packet) (nslot ring : Nat) : State :=
  let h : UqHead := { nslot, ring, widx := 0, ridx := 0 }
  let s := if p.faddr % 8 = 0 then s.writeFlag u.ctx p.faddr (flagOf p.bad p.fval) else s
  let s := (s.countPacket p).ctxWrite u.ctx (h.slotVa p.slot + 63) 1 0
  let s := s.ctxWrite u.ctx (u.header + 128) 8 (p.slot + 1)
  s.modUq u.id (fun u => { u with inFlight := u.inFlight.tail })

/-- The stores of a completion: the flag, VALID and RIDX. -/
def Packet.stores (p : Packet) (u : UserQueue) (nslot ring : Nat) : List (Nat × Nat) :=
  (if p.faddr % 8 = 0 then flagStore p.faddr else []) ++ [(ring + 64 * (p.slot % nslot) + 63, 1), (u.header + 128, 8)]

/-- What its stores of VALID and RIDX run into (R39, R226): an engine has no handler, so that a PERM ends its context (R381). An address
that is not translated is waited for. -/
def State.wordsEv (s : State) (u : UserQueue) (p : Packet) (nslot ring : Nat) : Option Ev :=
  [(ring + 64 * (p.slot % nslot) + 63, 1), (u.header + 128, 8)].findSome? fun x =>
    (s.storeEv u.ctx x.1 x.2 Ev.perm).filter fun e => e.code != 0x04

/-- The oldest packet completes, once its places are there and have room. -/
def State.packetTurn (s : State) (u : UserQueue) (p : Packet) (nslot ring : Nat) : State :=
  let w := p.stores u nslot ring
  if p.cmd.isSome || s.engineHeld u.ctx w then s
  else
    match (s.flagEv u.ctx p.faddr).bind Ev.fatal <|> s.wordsEv u p nslot ring, s.engineRoom u.ctx w with
    | some e, _ => s.queueFault u e
    | none, n :: ns => (n :: ns).foldl State.startFetch s
    | none, [] => s.packetDone u p nslot ring

def execQueuePacketComplete (uq : Nat) (s : State) : Out :=
  .next (match s.sched.userQs.find? (fun u => u.id == uq) with
    | none => s
    | some u =>
      match u.inFlight, s.ctxRead u.ctx (u.header + 136) 4, s.ctxRead u.ctx (u.header + 144) 8 with
      | p :: _, some nslot, some ring => s.packetTurn u p nslot ring
      | _, _, _ => s)

end Sys2Proof.Machine
end

