-- ==== Sys2Proof/Machine/Span.lean ====
section
/-! DEFINITION. Spans (R303 to R321) and the switch allocator (R322 to R326). -/

namespace Sys2Proof.Machine

/-! ## Ranges of memory -/

/-- Clear a range of memory to zero bytes. -/
def Memory.zeroRange (m : Memory) (k n : Nat) : Memory :=
  { m with
    ram := m.ram.filter (fun c => !(k ≤ c.1 && c.1 < k + n))
    poison := m.poison.filter (fun x => !(k ≤ x && x < k + n)) }

/-! ## Arrival, replacement and eviction -/

def spanBytes : Nat := 2 ^ 16

/-- The offset of a T2 key in the span at an address. -/
def t2Off (base key : Nat) : Option Nat := if t2Key base ≤ key && key < t2Key base + spanBytes then some (key - t2Key base) else none

/-- The bytes of a span or a frame by their offsets, `off` giving that of a key. -/
def Memory.frameBytes (m : Memory) (off : Nat → Option Nat) : Cells Byte :=
  (m.ram.filterMap fun c => (off c.1).map fun o => (o, c.2)).foldl (fun b c => Cells.put b c.1 c.2) []

/-- The offsets of the poisoned bytes of a span or a frame. -/
def Memory.framePoison (m : Memory) (off : Nat → Option Nat) : List Nat := m.poison.filterMap off

/-- A span or a frame takes these bytes and this poison, `key` giving the key of an offset; no cache holds a line of it afterwards. -/
def Memory.setFrame (m : Memory) (off : Nat → Option Nat) (key : Nat → Nat) (b : Cells Byte) (z : List Nat) : Memory :=
  let ram := b.foldl (fun r c => Cells.put r (key c.1) c.2) (m.ram.filter fun c => (off c.1).isNone)
  { m with
    ram
    bank := m.bank.filter fun c => (off c.1).isNone && c.2 != Cells.get 0 ram c.1
    lines := m.lines.filter fun x => (off (x.line * 128)).isNone
    poison := m.poison.filter (fun k => (off k).isNone) ++ z.map key }

/-- A cocoon entry that replaces bytes takes their poison with it (R309). -/
def CocoonEntry.clears (e : CocoonEntry) (z : List Nat) : List Nat :=
  if e.op = 1 then z.filter (fun o => !(e.off ≤ o && o < e.off + e.bytes)) else z

/-- The contexts that reach a span: those with a window on its bytes (R401). -/
def State.spanCtxs (s : State) (n : Nat) : List Ctx :=
  (s.ctxs.zipIdx.filter fun x => s.fw.windows.any fun w =>
    w.ctx == x.2 && w.tgt == 1 && w.base ≤ n * spanBytes && n * spanBytes + spanBytes ≤ w.base + w.size).map fun x => x.1

/-- The frames of a context's span cache (R305). -/
def Ctx.hasFrame (x : Ctx) (f : Nat) : Bool :=
  x.scacheB ≤ f && f + spanBytes ≤ x.scacheB + x.scacheS && f + spanBytes ≤ 2 ^ 39 && (f - x.scacheB) % spanBytes == 0

/-- Where a span's copy may lie: a frame, free of other copies, of the span cache of a context that reaches the span. Which frame a span
takes is not stated: the model takes the first (R305, log entry 30). -/
def State.freeFrame (s : State) (n : Nat) : Option Nat :=
  let used := s.spans.filterMap fun p => p.frame
  (s.spanCtxs n).findSome? fun x =>
    ((List.range (used.length + 1)).map fun i => x.scacheB + i * spanBytes).find? fun f => x.hasFrame f && !used.contains f

/-- Fetch commands note a span that is RESIDENT, and end when all of theirs have been (R319). -/
def State.seeResident (s : State) (n : Nat) : State :=
  s.cmds.foldl (fun s c =>
    match c.kind with
    | .fetch spans seen =>
      if spans.contains n then
        let seen := if seen.contains n then seen else n :: seen
        let c' := { c with kind := .fetch spans seen }
        let s := { s with cmds := s.cmds.map (fun x => if x.id == c.id then c' else x) }
        if spans.all seen.contains then s.finishCmd c' 0 else s
      else s
    | _ => s) s

/-- A fetched span arrives in a frame of the span cache (R305, R313): the batch is applied in ascending SEQ. -/
def State.spanArrives (s : State) (p : Span) (f : Nat) : State :=
  let src := t2Off (p.num * spanBytes)
  let b := p.cocoon.foldl (fun b e => e.apply b) (s.mem.frameBytes src)
  let z := p.cocoon.foldl (fun z e => e.clears z) (s.mem.framePoison src)
  let m := s.mem.setFrame (t1Off f) (fun o => t1Key false (f + o)) b z
  ({ s with mem := m }.setSpan { p with st := .resident, frame := some f, cocoon := [], seq := 1 }).seeResident p.num

/-- The 64 KiB of a fetched span are in T1: it waits where the span cache has no frame for them. -/
def execSpanFetchArrival (span : Nat) (s : State) : Out :=
  .next (
    match s.freeFrame span with
    | some f => if (s.span span).st == .fetching then s.spanArrives (s.span span) f else s
    | none => s)

/-- A fetch of a span is under way or asked for by an uncompleted SPANFET (R304). -/
def State.spanWanted (s : State) (n : Nat) : Bool :=
  s.cmds.any fun c => match c.kind with | .fetch spans _ => spans.contains n | _ => false

def Span.pin (p : Span) : Bool := p.pol.getLsbD 3

/-- Replacement may choose a span (R304, R315). -/
def State.replaceable (s : State) (p : Span) : Bool := p.st == .resident && !p.pin && !s.spanWanted p.num

/-- The span cache replaces a span. -/
def execSpanReplacement (span : Nat) (s : State) : Out :=
  .next (if s.replaceable (s.span span) then s.setSpan { s.span span with st := .evicting } else s)

/-- The spans that replacement may choose for one that finds no frame. -/
def State.victims (s : State) (n : Nat) : List Nat :=
  (s.spans.filter fun p => s.replaceable p && p.frame.any fun f => (s.spanCtxs n).any fun x => x.hasFrame f).map fun p => p.num

/-- A span leaves T1 (R314): held stores to it are published, its lines leave the caches, and its copy is written to T2. -/
def State.spanLeaves (s : State) (p : Span) : State :=
  let base := p.num * spanBytes
  let q : Span := { p with st := if p.refetch then .fetching else .absent, frame := none, cocoon := [], seq := 1, refetch := false }
  match p.frame with
  | none => s.setSpan q
  | some f =>
    let off := t1Off f
    let lines := ((s.mem.held.filter fun h => (off h.key).isSome).map (fun h => lineOf h.key)).eraseDups
    let m := lines.foldl (fun m l => m.publishLine none l) s.mem
    let b := m.frameBytes off
    let z := m.framePoison off
    { s with mem := (m.setFrame off (fun o => t1Key false (f + o)) b z).setFrame (t2Off base) (fun o => t2Key (base + o)) b z }.setSpan q

def execSpanEvictionComplete (span : Nat) (s : State) : Out :=
  .next (let p := s.span span; if p.st == .evicting then s.spanLeaves p else s)

/-! ## SPANCTL, SPANQ and SPANFET -/

def spanPerm : Ev := { Ev.perm with detail := 0x0A, check := 11 }

/-- A page that is not T2 with SPN (R316). -/
def State.notSpan (s : State) (b : Block) (g : Guard) (a : Opd) (sl : Slice) : Option Ev :=
  match s.phys? (s.lrOf b).ctx (svalOf (s.envOf b sl) sl a).toNat with
  | .ok p => if spanPage p then none else some { (spanPerm.per sl g) with addr := some (svalOf (s.envOf b sl) sl a) }
  | .error _ => none

/-- Rows 3 to 5 of R226 for the addresses in A, row by row over the gang, then each page must be T2 with SPN (R316). -/
def State.spanTrap (s : State) (b : Block) (g : Guard) (r w : Bool) (a : Opd) (l : List Slice) : Option Ev :=
  match s.checkRows b (gangAccs s b l fun e sl => globalAccs e sl g true a .none 1 1 r w) (fun _ => true) [3, 4, 5] with
  | some e => some e
  | none => firstEv g l (s.notSpan b g a)

/-- The number of the span at an address. -/
def State.spanNum (s : State) (c va : Nat) : Nat :=
  match s.phys? c va with
  | .ok p => spanOf p.pa
  | .error _ => 0

/-- The number of the span that A names. -/
def State.spanAt (s : State) (b : Block) (sl : Slice) (a : Opd) : Nat := s.spanNum (s.lrOf b).ctx (svalOf (s.envOf b sl) sl a).toNat

/-- A span instruction that changes the table (R316, R317): the check of its value is its own (R57), before those of its page. In the
parallel phase of a deterministic launch it enters the slice's buffer with its address and its value (R254). -/
def spanctl (g : Guard) (i : Instr) (a b : Opd) (bad : Env → Slice → Bool) (f : State → Block → Slice → Nat → State) (blk : Block)
    (l : List Slice) (s : State) : Res :=
  match firstEv g l fun sl => if bad (s.envOf blk sl) sl then some (Ev.own.per sl g) else none with
  | some e => .trap e
  | none =>
    match s.spanTrap blk g false true a l with
    | some e => .trap e
    | none =>
      if s.buffers blk then .done (s.bufferCmds g i none (argsOf [a, b] s blk) blk.uid (l.filter fun x => x.part_ g != 0)) []
      else .done (overSlices s g blk l fun s blk sl => f s blk sl (s.spanAt blk sl a)) []

/-- CAP := v (R317). -/
def State.setCap (s : State) (n v : Nat) : State :=
  let p := { s.span n with cap := v }
  let q := if p.cocoon.length > v then p.compacted else p
  let s := s.setSpan q
  if q.cocoon.length > v then s.startFetch n else s

/-- The three SPANCTLs: what B may not be, and what becomes of a span. -/
def capBad (b : Opd) (e : Env) (sl : Slice) : Bool := (svalOf e sl b).toNat < 8 || 256 < (svalOf e sl b).toNat

def capOne (b : Opd) (s : State) (blk : Block) (sl : Slice) (n : Nat) : State := s.setCap n (svalOf (s.envOf blk sl) sl b).toNat

/-- The policy word := v (R315). -/
def State.setPol (s : State) (n : Nat) (v : Word) : State := s.setSpan { s.span n with pol := v.setWidth 4 }

/-- A RESIDENT span with PIN clear goes to EVICTING (R317). -/
def State.evictSpan (s : State) (n : Nat) : State :=
  if (s.span n).st == .resident && !(s.span n).pin then s.setSpan { s.span n with st := .evicting } else s

def polBad (b : Opd) (e : Env) (sl : Slice) : Bool := (svalOf e sl b).toNat ≥ 16 || bitsOf (svalOf e sl b).toNat 1 2 == 3

def polOne (b : Opd) (s : State) (blk : Block) (sl : Slice) (n : Nat) : State :=
  s.setPol n (svalOf (s.envOf blk sl) sl b)

def evictOne (s : State) (_ : Block) (_ : Slice) (n : Nat) : State := s.evictSpan n

/-- A SPANCTL of a deterministic launch acts at its place in the commit; `f` is what becomes of the span of that number. -/
def sendSpanctl (f : State → Nat → Word → State) : Sender := fun s b _ _ args =>
  .done (f s (s.spanNum (s.lrOf b).ctx (args.headD 0).toNat) (args.getD 1 0)) .none

def execSpanctlCap (g : Guard) (a b : Opd) (s : State) : Out :=
  .next (s.perGang (lenOf [a, b]) false fun blk l => spanctl g (.spanctlCap g a b) a b (capBad b) (capOne b) blk l s)

def execSpanctlPol (g : Guard) (a b : Opd) (s : State) : Out :=
  .next (s.perGang (lenOf [a, b]) false fun blk l => spanctl g (.spanctlPol g a b) a b (polBad b) (polOne b) blk l s)

def execSpanctlEvict (g : Guard) (a : Opd) (s : State) : Out :=
  .next (s.perGang (lenOf [a]) false fun blk l => spanctl g (.spanctlEvict g a) a .none (fun _ _ => false) evictOne blk l s)

def SpanState.code : SpanState → Nat
  | .absent => 0 | .fetching => 1 | .resident => 2 | .evicting => 3

/-- The word that SPANQ writes (R318). -/
def Span.word (p : Span) (det : Bool) : Word :=
  BitVec.ofNat 64 (p.cap * 2 ^ 23 + (if det then 0 else p.cocoon.length * 2 ^ 14 + p.st.code) + p.pol.toNat * 2 ^ 4)

/-- SPANQ retires in a slice with its word, which its log keeps (log entry 72), or one that was made before writes that again. In a
deterministic launch, where the word tells nothing of the span's state (R318), none is kept. -/
def Slice.queried (sl : Slice) (det : Bool) (ws : List RegWrite) : Slice :=
  if sl.handling || det then sl.writeAll ws
  else if sl.supS.again then { sl.writeAll sl.supS.logged with supS := sl.supS.meet }
  else { sl.writeAll ws with supS := sl.supS.perform (some ws) }

/-- The span table as SPANQ of a slice finds it, which orders as a load: behind what its own buffer holds for the span (R254, R318). -/
def State.spanSeen (s : State) (b : Block) (sl : Slice) (n : Nat) : Span :=
  let c := (s.lrOf b).ctx
  sl.buf.foldl (fun (p : Span) e =>
    match e with
    | .command (.spanctlCap ..) _ _ _ _ args _ => if s.spanNum c (args.headD 0).toNat = n then { p with cap := (args.getD 1 0).toNat } else p
    | .command (.spanctlPol ..) _ _ _ _ args _ => if s.spanNum c (args.headD 0).toNat = n then { p with pol := (args.getD 1 0).setWidth 4 } else p
    | _ => p) (s.span n)

def execSpanq (g : Guard) (d a : Opd) (s : State) : Out :=
  .next (s.perGang (lenOf [a]) false fun blk l =>
    match s.spanTrap blk g true false a l with
    | some e => .trap e
    | none => eachSlice s g blk l fun _ sl =>
        .ok (sl.queried (s.lrOf blk).det (putWrites d false 64 0 ((s.spanSeen blk sl (s.spanAt blk sl a)).word (s.lrOf blk).det).toNat)))

/-- The spans of a range whose pages have been checked. -/
def segSpans (l : List Seg) : List Nat :=
  (l.flatMap fun x => (List.range (spanOf (x.pa + x.n - 1) + 1 - spanOf x.pa)).map (fun i => spanOf x.pa + i)).eraseDups

/-- The pages of a SPANFET's range, each checked as R316 gives. -/
def State.fetchPages (s : State) (c va n : Nat) : Except Ev (List Seg) :=
  s.segments c [s.permRow c true false false, s.lostRow, fun p _ => if spanPage p then none else some spanPerm] va n

/-- The lengths that SPANFET refuses, before any page is looked at (R319). -/
def fetchLong (neg : Bool) (va n : Nat) : Option Ev :=
  if neg || (n ≠ 0 && spanOf (va + n - 1) - spanOf va + 1 > 256) then some Ev.own else none

def sendSpanfet (d : Option Nat) : Sender := fun s b sl id args =>
  let va := (args.headD 0).toNat
  let n := (args.getD 1 0).toNat
  match s.fetchPages (s.lrOf b).ctx va n with
  | .error e => .bad e
  | .ok pages =>
    let spans := segSpans pages
    let s := s.publishHeldOf b sl
    let (k, s) := s.acceptTl b.uid sl.share 5
    let note : Note := .vals (match d with | some r => [.s r (BitVec.ofNat 64 k)] | none => [])
    let seen := spans.filter (fun x => (s.span x).st == .resident)
    if spans.all seen.contains then .done (s.completeTl b.uid sl.share 5 k) note
    else
      let c := { cmdOf s b sl id none (.fetch spans seen) with tl := some (5, k) }
      .done (spans.foldl State.startFetch { s with cmds := s.cmds ++ [c] }) note

def execSpanfet (g : Guard) (d a b : Opd) (s : State) : Out :=
  .next (s.perGang (lenOf [a, b]) false fun blk l =>
    let at_ (sl : Slice) : Nat := (svalOf (s.envOf blk sl) sl a).toNat
    let len (sl : Slice) : Nat := (svalOf (s.envOf blk sl) sl b).toNat
    match gangTrap g l fun sl => fetchLong (Opd.negSmall b) (at_ sl) (len sl) with
    | some e => .trap e
    | none =>
      s.cmdGang g .c (.spanfet g d a b) (dstOf d) (fun sl => evOf (s.fetchPages (s.lrOf blk).ctx (at_ sl) (len sl)))
        (argsOf [a, b] s blk) (sendSpanfet (dstOf d)) blk l)

/-! ## The switch allocator -/

/-- The size an allocation takes (R323). -/
def switchSize (n : Nat) : Nat := if n < 2 ^ 25 then (n + 2 ^ 14 - 1) / 2 ^ 14 * 2 ^ 14 else (n + 2 ^ 25 - 1) / 2 ^ 25 * 2 ^ 25

def Alloc.on (a : Alloc) (plane : Nat) : Bool := a.plane == plane || a.partner == some plane
/-- What an allocation counts against a quota (R325): DUP2 twice, and once from the loss of one of its planes on (log entry 77). -/
def Alloc.cost (a : Alloc) : Nat := if a.partner.isSome then 2 * a.size else a.size

/-- The bytes that a tenant's contexts have allocated (R325). -/
def State.tenantBytes (s : State) (t : Nat) : Nat :=
  ((s.fabric.allocs.filter (fun a => (s.ctx a.ctx).tenant == t)).map Alloc.cost).foldl (· + ·) 0

def State.quota (s : State) (t : Nat) : Nat := match s.fw.quotas.find? (fun q => q.1 == t) with | some q => q.2 | none => 0

def planeSize : Nat := 2 ^ 36

/-- Free bytes of a plane. -/
def State.planeFree (s : State) (p : Nat) : Nat :=
  planeSize - ((s.fabric.allocs.filter (fun a => a.on p)).map (fun a => a.size)).foldl (· + ·) 0

/-- The live plane with most free space, other than one: the lower number wins a tie. -/
def State.bestPlane (s : State) (not : Option Nat) : Option Nat :=
  ((List.range 16).filter (fun p => some p != not && !s.fabric.lostPlanes.contains p)).foldl (fun (acc : Option Nat) p =>
    match acc with
    | none => some p
    | some q => if s.planeFree q < s.planeFree p then some p else some q) none

/-- A place of n bytes, aligned, in [lo, lo + size) clear of the ranges in use: the one that the allocator's free choice names
where it is clear, else the lowest (log entry 10). -/
def placeIn (used : List (Nat × Nat)) (lo size n align choice : Nat) : Option Nat :=
  let up (x : Nat) : Nat := (x + align - 1) / align * align
  let clear (x : Nat) : Bool := lo ≤ x && x + n ≤ lo + size && used.all (fun u => x + n ≤ u.1 || u.1 + u.2 ≤ x)
  let c := up lo + choice % (size / align + 1) * align
  if clear c then some c
  else ((up lo :: used.map (fun u => up (u.1 + u.2))).filter clear).foldl (fun (acc : Option Nat) x =>
    match acc with | none => some x | some y => some (min x y)) none

/-- What SALLOC answers and leaves (R323). -/
def State.salloc (s : State) (c : Nat) (dup : Bool) (size : Nat) (pl : Word) : Word × State :=
  let n := switchSize size
  let align := switchPage size
  let any := pl.getLsbD 8
  let first := if any then s.bestPlane none else some (bitsOf pl.toNat 0 4)
  let second := if !dup then none else if any then s.bestPlane first else some (bitsOf pl.toNat 4 4)
  let planes := first.toList ++ second.toList
  let t := (s.ctx c).tenant
  let used (p : Nat) : List (Nat × Nat) := (s.fabric.allocs.filter (fun a => a.on p)).map fun a => (a.pa, a.size)
  let x := s.ctx c
  let mine := (s.fabric.allocs.filter (fun a => a.ctx == c)).map fun a => (a.base, a.size)
  let fail (k : Nat) : Word × State := (BitVec.ofNat 64 k, s)
  if s.tenantBytes t + (if dup then 2 * n else n) > s.quota t then fail 1
  else if planes.any s.fabric.lostPlanes.contains then fail 3
  else if planes.length < (if dup then 2 else 1) then fail 2
  else
    match placeIn (planes.flatMap used) 0 planeSize n align (Config.freeWord (s.fresh + 1)).toNat with
    | none => fail 2
    | some pa =>
      match placeIn mine x.swwinB x.swwinS n align (Config.freeWord (s.fresh + 2)).toNat with
      | none => fail 4
      | some base =>
        let p := first.getD 0
        (BitVec.ofNat 64 base,
          { s with
            fresh := s.fresh + 2
            mem := planes.foldl (fun m k => m.zeroRange (switchKey k pa) n) s.mem
            fabric := { s.fabric with allocs := s.fabric.allocs ++ [{ ctx := c, base, size := n, page := align, plane := p, pa, partner := second, lost := false, freeing := none }] } })

/-- SALLOC's checks (R323, R321). -/
def sallocBad (det dup : Bool) (size pl : Word) : Option Ev :=
  let any := pl.getLsbD 8
  let partner := bitsOf pl.toNat 4 4
  if size = 0 || size.toNat > 2 ^ 36 || pl.toNat ≥ 2 ^ 9 ||
      (if dup && !any then partner == bitsOf pl.toNat 0 4 else partner != 0) then some Ev.own
  else if det then some { Ev.detx with check := 11 }
  else none

def sendSalloc (dup : Bool) (d : Option Nat) : Sender := fun s b sl _ args =>
  if s.farDue b sl.num false then .waits s
  else
    let s := s.releaseHeld b sl .fab
    let (w, s) := s.salloc (s.lrOf b).ctx dup (args.headD 0).toNat (args.getD 1 0)
    .done s (.vals (match d with | some r => [.s r w] | none => []))

def execSalloc (g : Guard) (dup : Bool) (d a b : Opd) (s : State) : Out :=
  .next (s.perGang (lenOf [a, b]) false fun blk l =>
    s.cmdGang g .c (.salloc g dup d a b) (dstOf d)
      (fun sl => sallocBad (s.lrOf blk).det dup (svalOf (s.envOf blk sl) sl a) (svalOf (s.envOf blk sl) sl b))
      (argsOf [a, b] s blk) (sendSalloc dup (dstOf d)) blk l)

/-- The last step of SFREE (R324): the allocation, its quota and its remembered translations go. -/
def State.sfree (s : State) (c base : Nat) : Word × State :=
  match s.fabric.allocs.find? (fun a => a.ctx == c && a.base == base) with
  | none => (5, s)
  | some a =>
    (0, { s with
      fabric := { s.fabric with allocs := s.fabric.allocs.filter (fun x => !(x.ctx == c && x.base == base)) }
      mem := { s.mem with tlb := s.mem.tlb.filter (fun t => !(t.ctx == c && t.base < a.base + a.size && a.base < t.base + t.size)) } })

/-- Accesses of a context to a range that are in flight: those whose replies or bytes are still to come (R324 step 3). -/
def State.rangeDue (s : State) (c base n : Nat) : Bool :=
  let near (va : Nat) : Bool := base ≤ va && va < base + n
  s.cmds.any fun k => k.ctx == c &&
    match k.kind with | .far _ va _ => near va | .scratch ps _ => ps.any (fun p => near p.2) | _ => false

/-- The allocation that a slice's SFREE names: a live one, or the one that it is freeing. -/
def State.freeable (s : State) (b : Block) (sl : Slice) (c base : Nat) : Option Alloc :=
  s.fabric.allocs.find? fun a => a.ctx == c && a.base == base && (a.freeing.isNone || a.freeing == some (b.uid, sl.num))

/-- SFREE's first two steps (R324): the release, then the allocation is mapped no more, and no translation of it is remembered. -/
def State.unmapAlloc (s : State) (b : Block) (sl : Slice) (a : Alloc) : State :=
  let s := s.releaseHeld b sl .fab
  { s with
    fabric := { s.fabric with allocs := s.fabric.allocs.map fun x => if x.ctx == a.ctx && x.base == a.base then { x with freeing := some (b.uid, sl.num) } else x }
    mem := { s.mem with tlb := s.mem.tlb.filter (fun t => !(t.ctx == a.ctx && t.base < a.base + a.size && a.base < t.base + t.size)) } }

/-- SFREE (R324): what is not an allocation leaves everything as it is; it waits for the release, and then, the allocation being mapped
no more, for the accesses in flight. -/
def sendSfree (d : Option Nat) : Sender := fun s b sl _ args =>
  let c := (s.lrOf b).ctx
  let base := (args.headD 0).toNat
  let note (w : Word) : Note := .vals (match d with | some r => [.s r w] | none => [])
  match s.freeable b sl c base with
  | none => .done s (note 5)
  | some a =>
    if s.farDue b sl.num false then .waits s
    else
      let s := s.unmapAlloc b sl a
      if s.rangeDue c base a.size then .waits s else .done (s.sfree c base).2 (note 0)

def execSfree (g : Guard) (d a : Opd) (s : State) : Out :=
  .next (s.perGang (lenOf [a]) false fun blk l =>
    s.cmdGang g .c (.sfree g d a) (dstOf d)
      (fun _ => if (s.lrOf blk).det then some { Ev.detx with check := 11 } else none)
      (argsOf [a] s blk) (sendSfree (dstOf d)) blk l)

end Sys2Proof.Machine
end

