-- ==== Sys2Proof/Machine/Collective.lean ====
section
/-! DEFINITION. Collectives: jobs and instances (R328 to R333), COLL (R334 to R339, R347) and the reductions (R340 to R344). -/

namespace Sys2Proof.Machine

/-! ## Jobs -/

def State.job (s : State) (j : Nat) : Job := s.fabric.jobs.getD j .reset
def State.modJob (s : State) (j : Nat) (f : Job → Job) : State := { s with fabric := { s.fabric with jobs := s.fabric.jobs.modify j f } }

def seqAdd (n : Nat) (k : Int) : Nat := wrapTo 16 ((n : Int) + k)

/-- An instance that is open at this module (R333): CUR, or the one before it. -/
def Job.accepts (j : Job) (seq : Nat) : Bool := (1 ≤ j.opened && seq == j.cur) || (2 ≤ j.opened && seq == seqAdd j.cur (-1))

/-- Traffic of an instance (R333): handled where it is open, buffered where it is the next, else it cannot arrive. -/
def State.gate (s : State) (job seq : Nat) (i : Instr) (f : State → State) : State :=
  let j := s.job job
  if !j.bound then s
  else if j.accepts seq then f s
  else if seq = seqAdd j.cur 1 then s.modJob job (fun j => { j with buffered := j.buffered ++ [i] })
  else s

/-- Whether a COLL of an instance is still in the engine. -/
def State.collsOf (s : State) (job seq : Nat) : Bool :=
  s.cmds.any fun c => match c.kind with | .coll x => x.job == job && x.inst_ == seq | _ => false

/-- An instance has completed here (R333). -/
def State.instDone (s : State) (job seq : Nat) : Bool :=
  let j := s.job job
  seq != j.cur && !s.collsOf job seq && j.chunks.all (fun c => c.inst_ != seq || c.written)

/-- Count the completed instances: at most two are open. -/
def State.settleJob (s : State) (job : Nat) : State :=
  let one (s : State) : State :=
    let j := s.job job
    let n := seqAdd j.done 1
    if j.accepts n && s.instDone job n then s.modJob job (fun j => { j with done := n }) else s
  one (one s)

/-! ## CINST (R332) -/

/-- The fields of an instance descriptor (R331). -/
structure InstDesc where
  head : List Byte
  job : Nat
  mode : Nat
  nmem : Nat
  rank : Nat
  mlist : Nat
  rdist : Int
  resv : Bool
  deriving DecidableEq, Repr

def instDescOf (bs : List Byte) : InstDesc :=
  { head := bs.take 4, job := field bs 0 1, mode := field bs 1 1, nmem := field bs 2 2, rank := field bs 4 2, mlist := field bs 8 8
    rdist := sgn 64 (field bs 16 8), resv := field bs 6 2 == 0 && field bs 24 40 == 0 }

/-- Row 5 of R332. -/
def InstDesc.ok (d : InstDesc) : Bool :=
  d.mode ≤ 2 && 2 ≤ d.nmem && d.nmem ≤ 512 && d.rank < d.nmem && d.resv && d.rdist % 4 == 0 && (d.mode != 0 || d.rdist == 0)

/-- Row 8. -/
def listOk (devno rank : Nat) (l : List Nat) : Bool := l[rank]? == some devno && l.eraseDups.length == l.length && l.all (· ≤ 511)

/-- Row 9. -/
def Job.agrees (j : Job) (d : InstDesc) (l : List Nat) : Bool :=
  j.opened == 0 || (j.mode == d.mode && j.nmem == d.nmem && j.list == l)

def instDigest (d : InstDesc) (l : List Nat) : BitVec 32 := crcOf (d.head ++ l.flatMap (fun n => leBytes 2 n))

/-- The announcement of a member that an instance waits for. -/
def Job.heard (j : Job) (dev seq : Nat) : Bool := j.announced.any (fun a => a.dev == dev && a.seq == seq)

/-- Whether START may open the next instance now. -/
def State.mayOpen (s : State) (d : InstDesc) (l : List Nat) : Bool :=
  let j := s.job d.job
  (j.opened == 0 || l.all (fun m => m == s.fabric.devno.toNat || j.heard m j.cur)) &&
  (j.opened < 2 || s.instDone d.job (seqAdd j.cur (-1)))

def digestEv : Ev := { Ev.illop with detail := 0x0B }

/-- A fault that ends a context from outside its slices. -/
def State.faultCtx (s : State) (c : Nat) (e : Ev) : State :=
  s.contextFault c { cause := e.cause 0, addr := e.recAddr 0, rep := 0, rcnt := 0, block := 0xFFFFFFFF, hq := 0, pos := 0, peer := e.unit_ }

/-- Open the next instance (R332): its number, announced to every other member; the traffic that was kept for it follows, and the
instance before it may have completed (R333). -/
def State.openInst (s : State) (d : InstDesc) (l : List Nat) : Nat × State :=
  let j := s.job d.job
  let n := seqAdd j.cur 1
  let dig := instDigest d l
  let differs := j.announced.any (fun a => a.digest != dig)
  let s := s.modJob d.job fun j =>
    { j with
      done := if j.opened ≥ 2 then seqAdd n (-2) else j.done
      cur := n, opened := j.opened + 1, chunkCount := 0, flags := 0, mode := d.mode, nmem := d.nmem, rank := d.rank, list := l
      prevRdist := j.rdist, rdist := d.rdist, digest := dig, buffered := []
      announced := j.announced.filter (fun a => a.seq == seqAdd n (-1) || a.seq == n || a.seq == seqAdd n 1)
      flagged := j.flagged.filter (fun f => f.1 == seqAdd n (-1))
      chunks := j.chunks.filter (fun c => c.inst_ == n || c.inst_ == seqAdd n (-1)) }
  let s := { s with agenda := s.agenda ++ j.buffered.map Turn.event }
  let s := (l.filter (fun m => m != s.fabric.devno.toNat)).foldl (fun (s : State) m => s.post m none (.announce d.job n dig)) s
  let s := s.settleJob d.job
  (n, if differs then s.faultCtx j.ctx digestEv else s)

/-- Bytes that a slice loads from virtual memory whose pages have been checked. -/
def State.slBytes (s : State) (b : Block) (sl : Slice) (va n : Nat) : List Byte :=
  (List.range n).map fun i =>
    match s.phys? (s.lrOf b).ctx (va + i) with
    | .ok p => (s.loadBytes b sl p 1).headD 0
    | .error _ => 0

def memberList (bs : List Byte) (n : Nat) : List Nat := (List.range n).map fun i => field bs (2 * i) 2

/-- A range that a slice loads under R226. -/
def State.loadRange (s : State) (c va n : Nat) : Option Ev :=
  evOf (s.segments c [s.permRow c true false false, s.lostRow, fun p m =>
    if !s.mem.frozen.contains (frozenPage p) && s.accPoisoned p m then some Ev.memue else none] va n)

/-- CINST.START's checks in a slice, in the order of R332. -/
def State.cinstCheck (s : State) (b : Block) (sl : Slice) (va : Nat) : Option Ev :=
  let r := s.lrOf b
  let own (e : Ev) : Option Ev := some { e with check := 11 }
  if r.det then own Ev.detx
  else if va % 64 ≠ 0 then own Ev.align
  else
    match s.loadRange r.ctx va 64 with
    | some e => some e
    | none =>
      let d := instDescOf (s.slBytes b sl va 64)
      let j := s.job d.job
      if !(d.job < 64 && j.bound && j.ctx == r.ctx) then own Ev.perm
      else if !d.ok then own Ev.illop
      else if d.mlist % 2 ≠ 0 then own Ev.align
      else
        match s.loadRange r.ctx d.mlist (2 * d.nmem) with
        | some e => some e
        | none =>
          let l := memberList (s.slBytes b sl d.mlist (2 * d.nmem)) d.nmem
          if listOk s.fabric.devno.toNat d.rank l && j.agrees d l then none else own Ev.illop

/-- What CINST.START reads in a slice, as far as its accesses pass R226: the descriptor and the member list. -/
def State.cinstReads (s : State) (b : Block) (sl : Slice) (va : Nat) : List (Nat × Nat) :=
  let r := s.lrOf b
  if r.det || va % 64 ≠ 0 || (s.loadRange r.ctx va 64).isSome then []
  else
    let d := instDescOf (s.slBytes b sl va 64)
    (va, 64) :: if d.mlist % 2 ≠ 0 || (s.loadRange r.ctx d.mlist (2 * d.nmem)).isSome then [] else [(d.mlist, 2 * d.nmem)]

/-- A slice's loads of ranges count in its context's bucket, on-chip bytes aside (R375, log entry 36). -/
def State.rangesCounted (s : State) (c : Nat) (l : List (Nat × Nat)) : State :=
  l.foldl (fun s x => (vaPages x.1 x.2).foldl (fun s a =>
    match s.phys? c a with
    | .ok p => if Pte.tgt p.pte = 5 then s else s.countMoved c (min (2 ^ 14 - a % 2 ^ 14) (x.1 + x.2 - a))
    | .error _ => s) s) s

/-- The descriptor and the member list that a slice names. -/
def State.descOf (s : State) (b : Block) (sl : Slice) (va : Nat) : InstDesc := instDescOf (s.slBytes b sl va 64)
def State.listOf (s : State) (b : Block) (sl : Slice) (va : Nat) : List Nat :=
  memberList (s.slBytes b sl (s.descOf b sl va).mlist (2 * (s.descOf b sl va).nmem)) (s.descOf b sl va).nmem

/-- A slice opens its instance, if it may, or makes again the write of one that it opened before (R301). -/
def cinstOne (d : Opd) (va : Slice → Nat) (b : Block) (s : State) (x : Slice) : State :=
  let rs := s.cinstReads b x (va x)
  let s := (s.publishHeldOf b x).readsAll (s.lrOf b).ctx rs
  let sent := s.rangesCounted (s.lrOf b).ctx rs
  if x.again .c then sent.modSlice b.uid x.num (fun y => { y.replay .c with wait := .made })
  else if s.mayOpen (s.descOf b x (va x)) (s.listOf b x (va x)) then
    let (n, s) := sent.openInst (s.descOf b x (va x)) (s.listOf b x (va x))
    s.modSlice b.uid x.num fun y =>
      { y.sent .c (dstOf d) (.vals (match dstOf d with | some r => [.s r (BitVec.ofNat 64 n)] | none => [])) with wait := .made }
  else s

/-- The slices that have not opened their instance. -/
def cinstTodo (g : Guard) (l : List Slice) : List Slice := l.filter (fun x => x.part_ g != 0 && x.wait != .made)

def cinstTrap (s : State) (g : Guard) (va : Slice → Nat) (b : Block) (l : List Slice) : Option Ev :=
  if l.any (fun x => x.wait == .made) then none
  else evOf (gather ((cinstTodo g l).map fun x => match s.cinstCheck b x (va x) with | some e => Except.error (e.per x g) | none => .ok x))

def cinstFull (g : Guard) (l : List Slice) : Option Ev :=
  firstEv g l fun x => if !x.handling && x.wait != .made && !x.supC.again && x.supC.full then
    some { (Ev.illop.per x g) with detail := 0x07 } else none

/-- CINST.START on the gang: each slice opens an instance when it may, and the gang goes on once all have. -/
def cinstGang (s : State) (g : Guard) (d a : Opd) (b : Block) (l : List Slice) : Res :=
  let va (sl : Slice) : Nat := (svalOf (s.envOf b sl) sl a).toNat
  if (cinstTodo g l).any fun x => s.anyBlocked (s.lrOf b).ctx (s.cinstReads b x (va x)) then .stall s
  else
  match cinstTrap s g va b l with
  | some e => .trap e
  | none =>
    match cinstFull g l with
    | some e => .trap e
    | none =>
      let s' := (cinstTodo g l).foldl (cinstOne d va b) s
      if (s'.takers g b l).all (fun x => x.wait == .made) then .done s' [] else .stall s'

def execCinstStart (g : Guard) (d a : Opd) (s : State) : Out :=
  .next (s.perGang (lenOf [a]) false fun blk l => cinstGang s g d a blk l)

/-- The word that QUERY writes. -/
def Job.word (j : Job) (c : Nat) : Word :=
  if !(j.bound && j.ctx == c) then 0
  else BitVec.ofNat 64 (j.cur * 2 ^ 48 + j.done * 2 ^ 32 + min j.chunkCount 65535 * 2 ^ 16 + 2 ^ 8 + j.mode * 2 ^ 6 + j.flags.toNat)

/-- What QUERY does in a slice: it writes the word and logs it, or writes the logged one again (R301, R347). -/
def queryOne (g : Guard) (d : Opd) (w : Word) (sl : Slice) : Slice :=
  if sl.part_ g = 0 then sl
  else if sl.again .c then sl.replay .c
  else sl.sent .c (dstOf d) (.vals (match dstOf d with | some r => [.s r w] | none => []))

/-- The event that QUERY raises. -/
def queryEv (g : Guard) (det : Bool) (n : Nat) (sl : Slice) : Option Ev :=
  if det then some ({ Ev.detx with check := 11 }.per sl g)
  else if n > 63 then some (Ev.own.per sl g)
  else if !sl.handling && !sl.supC.again && sl.supC.full then some { (Ev.illop.per sl g) with detail := 0x07 }
  else none

/-- CINST.QUERY: of a job that is not bound to the context it reports BOUND = 0 (R332). -/
def execCinstQuery (g : Guard) (d a : Opd) (s : State) : Out :=
  .next (s.perSlice g (lenOf [a]) fun e sl =>
    let n := (svalOf e sl a).toNat
    match queryEv g e.lr.det n sl with
    | some ev => .error ev
    | none => .ok (queryOne g d ((s.job n).word e.lr.ctx) sl))

/-- An announcement arrives (R332). -/
def execInstanceAnnounceReceive (job member seq : Nat) (digest : BitVec 32) (s : State) : Out :=
  .next (
    let j := s.job job
    let s' := s.modJob job fun j =>
      if j.heard member seq then j else { j with announced := { dev := member, seq := seq % 2 ^ 16, digest } :: j.announced }
    if j.bound && j.opened ≠ 0 && digest != j.digest then s'.faultCtx j.ctx digestEv else s')

/-! ## What peers may do here (R329, R401) -/

/-- A page that a fabric peer's request may read or write. -/
def State.peerPage (s : State) (c src : Nat) (w : Bool) (p : Phys) (n : Nat) : Bool :=
  (if w then Pte.w_ p.pte && !Pte.x p.pte else Pte.r p.pte) && !s.lostPage p.pte && Pte.tgt p.pte != 3 && Pte.tgt p.pte != 5 &&
  s.admits .peer src c p.pte p.pa n w

/-- A range of virtual addresses that a peer may read or write in a context. -/
def State.peerRange (s : State) (c src va n : Nat) (w : Bool) : Bool :=
  match s.segments c [fun p m => if s.peerPage c src w p m then none else some Ev.perm] va n with
  | .ok _ => true
  | .error _ => false

/-- A range as addresses of an engine. -/
def vaAddrs (va n : Nat) : List CAddr := (List.range n).map fun i => { scr := false, addr := va + i }

def engineOf (c : Nat) : Owner := { ctx := c, blk := none, share := 0 }

/-- Bytes of a context's memory as an engine reads them, and writes of them. -/
def State.vaRead (s : State) (c va n : Nat) : List Byte :=
  (List.range n).map fun i => match s.phys? c (va + i) with | .ok p => (s.readAt none c p 1).headD 0 | .error _ => 0

def State.vaWrite (s : State) (c va : Nat) (bs : List Byte) : State :=
  ((bs.zipIdx).foldl (fun s b => match s.phys? c (va + b.2) with | .ok p => s.engineWrite c p b.1 | .error _ => s) s).engineOut
    (engineOf c) true (vaAddrs va bs.length)

/-- What an engine's read of a range leaves: the fetches that it asks for, and its requests (R315, R328). -/
def State.vaReads (s : State) (c va n : Nat) : State :=
  (s.readsVa c va n).engineOut (engineOf c) false (vaAddrs va n)

def State.vaPoison (s : State) (c va n : Nat) : Bool :=
  (List.range n).any fun i => match s.phys? c (va + i) with | .ok p => s.accPoisoned p 1 | .error _ => false

/-- What an engine's write of a range must wait for: a page under migration, a span on its way out, or one whose fetch the write
forces (R304, R312). -/
def State.rangeWait (s : State) (c : Nat) (l : List CAddr) : Option State :=
  if s.copyHeld (engineOf c) l then some s
  else match s.copyRoom (engineOf c) l with
    | [] => none
    | n :: ns => some ((n :: ns).foldl State.startFetch s)

/-- Try an event again later. -/
def State.later (s : State) (i : Instr) : State := { s with agenda := s.agenda ++ [.event i] }

/-! ## Chunks (R340 to R344) -/

/-- Bytes of an element in memory. -/
def elemSize (ty : Ty) : Nat := if ty == .bf16 then 2 else 4

def isIntTy (ty : Ty) : Bool := ty == .i32 || ty == .n32

/-- An element pattern widened exactly to F32 (R343). -/
def widen (ty : Ty) (x : LWord) : Nat := if ty == .bf16 then x.toNat % 2 ^ 16 * 2 ^ 16 else x.toNat

def ceilLog2 (n : Nat) : Nat := if n ≤ 1 then 0 else Nat.log2 (n - 1) + 1

/-- e[m] (R341). -/
def expOf (ty : Ty) (ws : List LWord) : Option Int :=
  ws.foldl (fun (acc : Option Int) w =>
    match Fmt.f32.read (widen ty w) with
    | .fin x => some (match acc with | some e => max e (x.log2 + 1) | none => x.log2 + 1)
    | _ => acc) none

def maxExp (l : List (Option Int)) : Option Int :=
  l.foldl (fun acc e => match acc, e with | some a, some b => some (max a b) | none, x => x | x, none => x) none

/-- An integer as it travels: its residues, its size and whether it is inexact (R342). -/
def Piece.ofInt (n : Int) (nx : Bool) : Piece := .res (resOf n) (n % 1021).toNat n.natAbs nx

/-- n of an element (R341), ties to even, and whether it is inexact; E = −∞ gives 0. -/
def stepsOf (nmem : Nat) (e : Option Int) (x : Dy) : Int × Bool :=
  match e with
  | none => (0, false)
  | some e =>
    let y := x.scale (30 - (ceilLog2 nmem : Int) - e)
    let n := toInteger .rne y
    (n, !(Dy.eq (Dy.ofInt n) y))

/-- A contributor converts a float element with the agreed exponent (R341). -/
def Piece.ofFloat (nmem : Nat) (e : Option Int) (bits : Nat) : Piece :=
  match Fmt.f32.read bits with
  | .fin x => let (n, nx) := stepsOf nmem e x; Piece.ofInt n nx
  | .zero _ => Piece.ofInt 0 false
  | _ => .pat (BitVec.ofNat 32 bits)

/-- What a piece holds. -/
def Piece.value : Piece → FV
  | .pat x => Fmt.f32.read x.toNat
  | .res .. => .zero false
def Piece.inexact : Piece → Bool
  | .res _ _ _ nx => nx
  | .pat _ => false
def Piece.mag : Piece → Nat
  | .res _ _ m _ => m
  | .pat _ => 0
def Piece.bits : Piece → Nat
  | .pat x => x.toNat
  | .res .. => 0

/-- The adders' sum of the residues in the four channels, and the check of the fourth (R342). -/
def resSum (ps : List Piece) : Int × Bool :=
  let (w, d) := ps.foldl (fun (a : LWord × Nat) p =>
    match p with | .res w d _ _ => (resJoin a.1 w, (a.2 + d) % 1021) | .pat _ => a) (resOf 0, 0)
  (crt w, crt w % 1021 == (d : Int))

/-- One element of a chunk: main, residual (none where none is written), flags, and whether the check passed. -/
structure ElemOut where
  main : Nat
  res : Option Nat
  flags : Flags
  pass : Bool
  deriving DecidableEq, Repr, Inhabited

/-- RNS on float elements at the owner (R341). -/
def rnsFloat (nmem : Nat) (e : Option Int) (ps : List Piece) : ElemOut :=
  let xs := ps.map Piece.value
  let both := xs.any (fun x => x.isInf && x.isNeg) && xs.any (fun x => x.isInf && !x.isNeg)
  if xs.any FV.isNan || both then
    { main := Fmt.f32.nan, res := some 0, flags := Flags.when_ (xs.any FV.isSnan || both) Flags.nv, pass := true }
  else
    match xs.find? FV.isInf with
    | some i => { main := (Fmt.f32.finish .rne i).1, res := some 0, flags := 0, pass := true }
    | none =>
      let q : Int := 30 - (ceilLog2 nmem : Nat)
      let (sum, pass) := resSum ps
      let x : Dy := match e with | some e => (Dy.ofInt sum).scale (e - q) | none => Dy.zero
      let (ws, f) := Fmt.f32.emit 2 (if x.isZero then .zero false else .fin x)
      { main := ws.getD 0 0, res := some (ws.getD 1 0), flags := f ||| Flags.when_ (ps.any Piece.inexact) Flags.nx, pass }

/-- RNS on integers. -/
def rnsInt (ps : List Piece) : ElemOut :=
  if (ps.map Piece.mag).foldl (· + ·) 0 > resMax then { main := 0x80000000, res := none, flags := Flags.nv, pass := true }
  else let (sum, pass) := resSum ps; { main := wrapTo 32 sum, res := none, flags := 0, pass }

/-- The sum of significands aligned at exponent k, modulo 1021. -/
def alignedSum (k : Int) (xs : List Dy) : Int := xs.foldl (fun a x => a + x.m * 2 ^ (x.e - k).toNat) 0 % 1021

/-- The adder's check of a TwoSum (R343): hi + v against hi′ + e, where both sums are finite. -/
def pairCheck (hi v hi' : Nat) : Bool :=
  let h := Fmt.f32.read hi
  let x := Fmt.f32.read v
  let r := Fmt.f32.read hi'
  let fin (a : FV) : Bool := !a.isNan && !a.isInf
  if fin h && fin x && fin r then
    let e := (h.dy.add x.dy).sub r.dy
    let k := [h.dy.e, x.dy.e, r.dy.e, e.e].foldl min 0
    alignedSum k [h.dy, x.dy] == alignedSum k [r.dy, e]
  else true

/-- FP-pair mode (R343): the steps in member order, each with its check. -/
def fpPair (xs : List Nat) : ElemOut :=
  let nan := snanFlag (xs.map Fmt.f32.read)
  let (hi, lo, f, pass) := xs.tail.foldl (fun (acc : Nat × Nat × Flags × Bool) v =>
    let (h, l, g) := pairAdd acc.1 acc.2.1 v
    (h, l, acc.2.2.1 ||| g, acc.2.2.2 && pairCheck acc.1 v h)) (xs.headD 0, 0, 0, true)
  let (v, g) := Fmt.f32.value [hi, lo]
  let (ws, h) := Fmt.f32.emit 2 (if v.isZero then .zero false else v)
  { main := ws.getD 0 0, res := some (ws.getD 1 0), flags := nan ||| f ||| g ||| h, pass }

def Chunk.sorted (c : Chunk) : List Contribution := sortBy (fun x y => x.rank ≤ y.rank) c.parts

/-- Element i of a chunk. -/
def Chunk.elem (c : Chunk) (mode nmem i : Nat) : ElemOut :=
  let ps := c.sorted
  let w (p : Contribution) : Piece := p.words.getD i (.pat 0)
  if mode = 2 then fpPair (ps.map fun p => Piece.bits (w p))
  else if ps.all (fun p => isIntTy p.ty) then rnsInt (ps.map w)
  else rnsFloat nmem (maxExp (c.exps.map (fun x => x.2))) (ps.map w)

/-- The elements of a chunk; where the check of one fails, it is computed again from the contributions that are held (R342). -/
def Chunk.outs (c : Chunk) (mode nmem : Nat) : List ElemOut :=
  let once (_ : Nat) : List ElemOut := (List.range 1024).map (c.elem mode nmem)
  if (once 0).all (fun o => o.pass) then once 0 else once 1

/-- All contributions, and in RNS mode the exponents of float elements, have arrived. -/
def Chunk.full (c : Chunk) (mode nmem : Nat) : Bool :=
  c.parts.length == nmem && (mode == 2 || c.parts.all (fun p => isIntTy p.ty) || c.exps.length == nmem)

/-- The other members of a job. -/
def State.others (s : State) (j : Job) : List Nat := j.list.filter (fun d => d != s.fabric.devno.toNat)

/-- The flags of a chunk of a module reach an instance here (R344). -/
def Job.note (j : Job) (seq owner : Nat) (y : Word) (f : Flags) : Job :=
  let j := { j with flagged := (seq, owner, y) :: j.flagged }
  if seq = j.cur then { j with flags := j.flags ||| f, chunkCount := min (j.chunkCount + 1) 65535 } else j

/-- Send something to every other member of a job. -/
def State.tell (s : State) (j : Job) (m : Msg) : State := (s.others j).foldl (fun (s : State) d => s.post d none m) s

/-- Write a chunk once it is full (R340), and send its flags to every member before completion to its contributors (R344); or end
the job's contexts on every member when its check fails twice (R342). -/
def State.tryChunk (s : State) (job seq : Nat) (y : Word) : State :=
  let j := s.job job
  match j.chunks.find? (fun c => c.inst_ == seq && c.y == y) with
  | none => s
  | some c =>
    if c.written || !c.full j.mode j.nmem then s
    else
      let out := c.outs j.mode j.nmem
      if out.all (fun o => o.pass) then
        let s := (out.zipIdx).foldl (fun (s : State) o =>
          let a := y.toNat + 4 * o.2
          let s := s.vaWrite j.ctx a (leBytes 4 o.1.main)
          match o.1.res with
          | some r => s.vaWrite j.ctx (wrapTo 64 ((a : Int) + c.rdist)) (leBytes 4 r)
          | none => s) s
        let f := out.foldl (fun (f : Flags) o => f ||| o.flags) 0
        let s := s.modJob job fun j =>
          { j with chunks := j.chunks.map fun x => if x.inst_ == seq && x.y == y then { x with written := true } else x }
        let s := (s.modJob job fun j => j.note seq s.fabric.devno.toNat y f).tell j (.chunkFlags job seq y (some f))
        let s := (c.parts.filterMap fun p => j.list[p.rank]?).foldl (fun (s : State) d =>
          if d = s.fabric.devno.toNat then s else s.post d none (.complete job seq y)) s
        s.settleJob job
      else (s.tell j (.chunkFlags job seq y none)).faultCtx j.ctx Ev.memue

/-- The ranges that a chunk writes: main, and the residual where there is one (R341 to R343). -/
def chunkAddrs (y : Word) (rdist : Int) (res : Bool) : List CAddr :=
  vaAddrs y.toNat 4096 ++ if res then vaAddrs (wrapTo 64 ((y.toNat : Int) + rdist)) 4096 else []

def Job.rdistOf (j : Job) (seq : Nat) : Int := if seq = j.cur then j.rdist else j.prevRdist

/-- Change one chunk of this module, made where it is new. -/
def State.modChunk (s : State) (job seq : Nat) (y : Word) (f : Chunk → Chunk) : State :=
  s.modJob job fun j =>
    let c := (j.chunks.find? (fun c => c.inst_ == seq && c.y == y)).getD
      { inst_ := seq, y, rdist := j.rdistOf seq, exps := [], agreed := false, parts := [], written := false }
    { j with chunks := f c :: j.chunks.filter (fun c => !(c.inst_ == seq && c.y == y)) }

def State.chunk? (s : State) (job seq : Nat) (y : Word) : Option Chunk :=
  (s.job job).chunks.find? (fun c => c.inst_ == seq && c.y == y)

/-- A chunk with a contribution of this type among its own writes the residual: FP-pair mode does, and RNS mode on floats. -/
def State.residual (s : State) (job seq : Nat) (y : Word) (ty : Ty) : Bool :=
  (s.job job).mode == 2 || !isIntTy ty ||
  match s.chunk? job seq y with | some c => !c.parts.all (fun p => isIntTy p.ty) | none => false

/-- What a contribution of this type to a chunk makes this module write. -/
def State.chunkWrites (s : State) (job seq : Nat) (y : Word) (ty : Ty) : List CAddr :=
  chunkAddrs y ((s.job job).rdistOf seq) (s.residual job seq y ty)

/-- A member's exponent has reached the owner. -/
def State.hasExp (s : State) (job seq : Nat) (y : Word) (rank : Nat) : Bool :=
  (s.chunk? job seq y).any fun c => c.exps.any fun x => x.1 == rank

def State.takeExp (s : State) (job seq : Nat) (y : Word) (rank : Nat) (e : Option Int) : State :=
  s.modChunk job seq y fun c => { c with exps := (rank, e) :: c.exps }

/-- A contribution is taken, or is a second one of its member (R340). -/
def State.takePart (s : State) (job seq : Nat) (y : Word) (p : Contribution) : Bool × State :=
  match s.chunk? job seq y with
  | some c => if c.parts.any (fun x => x.rank == p.rank) then (true, s) else (false, s.modChunk job seq y fun c => { c with parts := p :: c.parts })
  | none => (false, s.modChunk job seq y fun c => { c with parts := p :: c.parts })

/-- A member may have this chunk reduced here: main, and for floats the residual, are writable by it. -/
def State.chunkAllowed (s : State) (job seq src : Nat) (y : Word) (ty : Ty) : Bool :=
  let j := s.job job
  s.peerRange j.ctx src y.toNat 4096 true &&
  (isIntTy ty || s.peerRange j.ctx src (wrapTo 64 ((y.toNat : Int) + j.rdistOf seq)) 4096 true)

/-- The patterns of a lane's elements of chunk k (R340). -/
def CollLane.raw (l : CollLane) (ty : Ty) (k : Nat) : List LWord :=
  let e := elemSize ty
  (List.range 1024).map fun i => BitVec.ofNat 32 (field l.bytes (1024 * e * k + e * i) e)

/-- A lane's contribution to chunk k as it travels: patterns in FP-pair mode, residues in RNS mode, floats converted with the
agreed exponent (R341 to R343). -/
def CollLane.part (l : CollLane) (o : Origin) (rank nmem mode : Nat) (ty : Ty) (e : Option Int) (k : Nat) : Contribution :=
  { orig := o, rank, ty
    words := (l.raw ty k).map fun w =>
      if mode = 2 then .pat (BitVec.ofNat 32 (widen ty w))
      else if isIntTy ty then Piece.ofInt (readInt (ty == .i32) 32 w.toNat) false
      else Piece.ofFloat nmem e (widen ty w) }

/-- A lane awaits the exponent of the chunk of its owner at y. -/
def CollLane.awaits (l : CollLane) (owner : Nat) (y : Word) (k : Nat) : Bool :=
  l.peer = owner && l.remote + BitVec.ofNat 64 (4096 * k) = y

/-- This module's contribution to chunk k of a lane: to the chunk here, or to its owner. -/
def State.giveChunk (s : State) (cmd : Nat) (x : CollCmd) (l : CollLane) (e : Option Int) (k : Nat) : Bool × State :=
  let j := s.job x.job
  let self := s.fabric.devno.toNat
  let y := l.remote + BitVec.ofNat 64 (4096 * k)
  let p (t : Nat) : Contribution := l.part ⟨self, t, cmd⟩ j.rank j.nmem x.mode x.ty e k
  if l.peer = self then
    let (dup, s) := s.takePart x.job x.inst_ y (p 0)
    (dup, if dup then s else s.tryChunk x.job x.inst_ y)
  else (false, s.ask cmd l.peer (pageNo y) fun t => .contribution x.job x.inst_ y (p t))

/-- The owner has answered with E, so its request is no longer outstanding (R352): the contributions of a command to that chunk follow (R341). -/
def State.sendDue (s : State) (c : Cmd) (x : CollCmd) (owner : Nat) (y : Word) (e : Option Int) : State :=
  let s := x.lanes.foldl (fun s l => (l.due.filter (l.awaits owner y)).foldl (fun (s : State) k =>
    (s.giveChunk c.id x l e k).2) s) (s.exponentAnswered c.id owner x.job x.inst_ y)
  let x := { x with lanes := x.lanes.map fun l => { l with due := l.due.filter (fun k => !l.awaits owner y k) } }
  { s with cmds := s.cmds.map fun z => if z.id == c.id then { z with kind := .coll x } else z }

/-- The agreed exponent of a chunk has come to the commands here that contribute to it. -/
def State.exponentHere (s : State) (job seq owner : Nat) (y : Word) (e : Option Int) : State :=
  s.cmds.foldl (fun s c => match c.kind with
    | .coll x => if x.sent && x.job == job && x.inst_ == seq then s.sendDue c x owner y e else s
    | _ => s) s

/-- With the last exponent of a chunk here, the agreed one goes back to every contributor (R341). -/
def State.agree (s : State) (job seq : Nat) (y : Word) : State :=
  match s.chunk? job seq y with
  | some c =>
    if c.exps.length = (s.job job).nmem && !c.agreed then
      let e := maxExp (c.exps.map (fun x => x.2))
      let s := (s.modChunk job seq y fun c => { c with agreed := true }).tell (s.job job) (.agreed job seq y e)
      s.exponentHere job seq s.fabric.devno.toNat y e
    else s
  | none => s

/-! ## Requests, each performed once (R337, R352) -/

/-- Answer a request, and keep the answer under its tag. -/
def State.answer (s : State) (o : Origin) (m : Msg) : State :=
  ({ s with fabric := { s.fabric with served := (o.src, o.tag, m) :: s.fabric.served } } : State).post o.src none m

/-- A request of a peer's command: one seen before is answered from the record, and one of a command that was stopped here is not
performed. -/
def State.once (s : State) (o : Origin) (job : Nat) (f : State → State) : State :=
  match s.fabric.served.find? (fun x => x.1 == o.src && x.2.1 == o.tag) with
  | some x => s.post o.src none x.2.2
  | none => if s.fabric.stopped.contains (o.src, o.cmd) then s.answer o (.refuse (some job) o.tag) else f s

/-- Refuse a request: it stops its command (R337). -/
def State.stopPeer (s : State) (o : Origin) (job : Nat) : State :=
  ({ s with fabric := { s.fabric with stopped := (o.src, o.cmd) :: s.fabric.stopped } } : State).answer o (.refuse (some job) o.tag)

def execRnsExponentReceive (o : JobOrigin) (seq : Nat) (y : Word) (rank : Nat) (e : Option Int) (agreed : Bool) (s : State) : Out :=
  .next (s.gate o.job seq (.rnsExponentReceive o seq y rank e agreed) fun s =>
    let j := s.job o.job
    match j.list[rank]? with
    | none => s
    | some m =>
      if agreed then s.exponentHere o.job seq m y e
      else
        s.once o.toOrigin o.job fun s =>
          if y.toNat % 4096 ≠ 0 || !s.chunkAllowed o.job seq m y .f32 then s.stopPeer o.toOrigin o.job
          else
            match s.rangeWait j.ctx (s.chunkWrites o.job seq y .f32) with
            | some s' => s'.later (.rnsExponentReceive o seq y rank e agreed)
            | none =>
              if s.hasExp o.job seq y rank then s.answer o.toOrigin (.duplicate o.job seq y)
              else (((s.takeExp o.job seq y rank e).answer o.toOrigin (.reply (some o.job) o.tag [])).agree o.job seq y).tryChunk o.job seq y)

/-- A contribution reaches its owner (R340). -/
def execChunkContributionArrive (job seq : Nat) (y : Word) (p : Contribution) (s : State) : Out :=
  .next (s.gate job seq (.chunkContributionArrive job seq y p) fun s =>
    let j := s.job job
    match j.list[p.rank]? with
    | none => s
    | some src =>
      s.once p.orig job fun s =>
        if y.toNat % 4096 ≠ 0 || !s.chunkAllowed job seq src y p.ty then s.stopPeer p.orig job
        else
          match s.rangeWait j.ctx (s.chunkWrites job seq y p.ty) with
          | some s' => s'.later (.chunkContributionArrive job seq y p)
          | none =>
            let (dup, s) := s.takePart job seq y p
            if dup then s.answer p.orig (.duplicate job seq y)
            else (s.answer p.orig (.reply (some job) p.orig.tag [])).tryChunk job seq y)

/-- The flags of a chunk reach this module (R344), or its owner's second failure ends the job's context here (R342). -/
def execChunkFlagsReceive (job seq : Nat) (c : ChunkFlags) (s : State) : Out :=
  .next (s.gate job seq (.chunkFlagsReceive job seq c) fun s =>
    match c.flags with
    | none => s.faultCtx (s.job job).ctx Ev.memue
    | some f => if (s.job job).flagged.contains (seq, c.owner, c.y) then s else s.modJob job fun j => j.note seq c.owner c.y f)

/-! ## Landings (R339) -/

/-- The slot, of a resident block or an image, that an MCAST target names: its block, share and offset. A landing of no bytes has
the target that its address names. -/
def State.landingAt (s : State) (c src va n : Nat) : Option (Nat × Nat × Nat) :=
  let ok := match s.segments c [fun p m => if Pte.tgt p.pte = 5 && Pte.w_ p.pte && !Pte.x p.pte && s.admits .peer src c p.pte p.pa m true then
      none else some Ev.perm] va (max n 1) with | .ok _ => true | .error _ => false
  let place (va : Nat) : Option (Nat × Nat × Nat) :=
    match s.phys? c va with
    | .error _ => none
    | .ok p =>
      match s.opmLoc c p.pa with
      | some (.scratch b k o) => some (b, k, o)
      | some _ => none
      | none => match ({ s with blocks := s.images }).opmLoc c p.pa with | some (.scratch b k o) => some (b, k, o) | _ => none
  if !ok then none
  else match place va, place (va + (n - 1)) with
    | some a, some z => if a.1 = z.1 && a.2.1 = z.2.1 && z.2.2 = a.2.2 + (n - 1) then some a else none
    | _, _ => none

/-- The first flit of a landing is accepted: it is numbered on tl2 and counted on P3. -/
def State.beginLanding (s : State) (o : Origin) (job : Nat) (at_ : Nat × Nat × Nat) (n : Nat) : Nat × State :=
  let (id, s) := s.newId
  let (k, s) := s.acceptTl at_.1 at_.2.1 2
  let s := s.modShare at_.1 at_.2.1 (fun sh => sh.issuePath 3 { id, n := 1, returned := false })
  let l : Landing := { id, orig := o, job, block := at_.1, share := at_.2.1, off := at_.2.2, len := n, num := k }
  (id, { s with fabric := { s.fabric with landings := s.fabric.landings ++ [l] } })

/-- The last byte of a landing is written. -/
def State.endLanding (s : State) (l : Landing) (data : List Byte) : State :=
  let s := match s.block? l.block with
    | some b =>
      let s := s.scratchPut b l.share l.off data
      -- a saved block's slot lies in its image
      (match s.slotImage l.block l.share with | some pa => s.areaWrite (pa + l.off) data | none => s)
    | none => s
  let s := s.modShare l.block l.share (fun sh => (sh.returnPath 3 l.id).completeTl 2 l.num)
  { s with fabric := { s.fabric with landings := s.fabric.landings.filter (fun x => x.id != l.id) } }

/-- A landing is accepted, its sender being the master that the tables check (R329); one under way is not begun again. -/
def execMcastLanding (o : JobOrigin) (seq : Nat) (va : Word) (len : Nat) (s : State) : Out :=
  .next (s.gate o.job seq (.mcastLanding o seq va len) fun s =>
    s.once o.toOrigin o.job fun s =>
      if s.fabric.landings.any (fun l => l.orig == o.toOrigin) then s
      else
        match s.landingAt (s.job o.job).ctx o.src va.toNat len with
        | some x => (s.beginLanding o.toOrigin o.job x len).2
        | none => s.stopPeer o.toOrigin o.job)

/-- A landing ends, and its sender learns of it (R338). -/
def execMcastLandingComplete (landing : Nat) (data : List Byte) (s : State) : Out :=
  .next (match s.fabric.landings.find? (fun l => l.id == landing) with
    | some l => if data.length = l.len then (s.endLanding l data).answer l.orig (.reply (some l.job) l.orig.tag []) else s
    | none => s)

/-! ## COLL (R334 to R338) -/

/-- A lane that takes part before it is checked: its slice and position, its peer word, addresses and length. -/
structure CollReq where
  slice : Nat
  lane : Nat
  peer : Nat
  remote : Word
  loc : CAddr
  len : Nat
  deriving DecidableEq, Repr, Inhabited

/-- The rows of R336 in their order; each with the requests that fail it. `slot` is the slot's size, and `skew` tells that LEN or
LBASE of an RSEND is misaligned, which needs no participating lane. -/
def State.collCheck (s : State) (c : Nat) (det : Bool) (slot : Nat) (op : CollOp) (ty : Ty) (mode job : Nat) (form skew : Bool)
    (l : List CollReq) : Option (Ev × List CollReq) :=
  let j := s.job job
  let rs := op == .rsend
  let bad (e : Ev) (n : Nat) (p : CollReq → Bool) : Option (Ev × List CollReq) :=
    if l.any p then some ({ e with check := n }, l.filter p) else none
  if det then some ({ Ev.detx with check := 1 }, l)
  else if !form || j.opened = 0 || (rs && (mode != j.mode || j.mode == 0)) then some ({ Ev.illop with check := 2 }, l)
  else if !(job < 64 && j.bound && j.ctx == c) then some ({ Ev.perm with check := 3 }, l)
  else
    (bad Ev.illop 4 fun x => x.peer ≥ 512) <|>
    (if rs && skew then some ({ Ev.align with check := 5 }, l) else none) <|>
    (bad Ev.align 5 fun x => rs && (x.remote.toNat % 4096 != 0 || x.len % (1024 * elemSize ty) != 0 || x.loc.addr % elemSize ty != 0)) <|>
    (bad { Ev.perm with detail := 0x03 } 6 fun x => x.loc.scr && x.loc.addr + x.len > slot) <|>
    (match l.find? (fun x => s.fabric.lostPeers.contains x.peer) with
      | some x => bad { Ev.peerlost with unit_ := x.peer } 7 fun y => s.fabric.lostPeers.contains y.peer
      | none => none)

/-- The addresses of a lane's local side. -/
def CollLane.addrs (l : CollLane) : List CAddr := (List.range l.len).map fun (k : Nat) => l.loc.add k

/-- A reduction whose elements need an agreed exponent (R341). -/
def CollCmd.agrees (x : CollCmd) : Bool := x.mode == 1 && !isIntTy x.ty

/-- RSEND's chunks of one lane (R340, R341): contributed, or with their exponents sent and due. Answers a status (0, 3 or 4), the
chunks that are due, and the state. -/
def State.contribute (s : State) (cmd : Nat) (x : CollCmd) (l : CollLane) : Nat × List Nat × State :=
  let j := s.job x.job
  let self := s.fabric.devno.toNat
  (List.range (l.len / (1024 * elemSize x.ty))).foldl (fun (acc : Nat × List Nat × State) k =>
    let (st, due, s) := acc
    let y := l.remote + BitVec.ofNat 64 (4096 * k)
    let e := expOf x.ty (l.raw x.ty k)
    if st = 3 then acc
    else if l.peer = self && !s.chunkAllowed x.job x.inst_ self y x.ty then (3, due, s)
    else if !x.agrees then
      let (dup, s) := s.giveChunk cmd x l none k
      (if dup then 4 else st, due, s)
    else if l.peer != self then
      (st, due ++ [k], s.ask cmd l.peer (pageNo y) fun t => .exponent ⟨self, t, cmd⟩ x.job x.inst_ y j.rank e)
    else if s.hasExp x.job x.inst_ y j.rank then (4, due, s)
    else (st, due ++ [k], s.takeExp x.job x.inst_ y j.rank e)) (0, [], s)

/-- The parts of a range of virtual addresses that lie in one virtual page each: their offsets and lengths. -/
def pageParts (va n : Nat) : List (Nat × Nat) :=
  (List.range ((va % 2 ^ 14 + n - 1) / 2 ^ 14 + 1)).map fun k =>
    let lo := k * 2 ^ 14 - va % 2 ^ 14
    (lo, min ((k + 1) * 2 ^ 14 - va % 2 ^ 14) n - lo)

/-- The engine's own side of one lane: what it reads, and what it sends: a request for each virtual page of the peer that it reaches,
by the plane of that page (R328), each on its way until the lane is answered (R352). An MCAST lane is one landing (R339).
Answers the status (0, 1, 3, 4), the lane and the state. -/
def State.collLane (s : State) (o : Owner) (cmd : Nat) (x : CollCmd) (l : CollLane) : Nat × CollLane × State :=
  let self := s.fabric.devno.toNat
  let read := x.op != .get
  if read && l.addrs.any (fun a => (s.copyEv o a false).isSome) then (1, l, s)
  else
    let l := if read then { l with bytes := l.addrs.map (s.copyRead o) } else l
    let s := if read && !l.loc.scr then s.vaReads o.ctx l.loc.addr l.len else s
    let va := l.remote.toNat
    let at_ (k : Nat) : Word := l.remote + BitVec.ofNat 64 k
    let far (m : Origin → Nat × Nat → Msg) (ps : List (Nat × Nat)) : State :=
      ps.foldl (fun (s : State) p => s.ask cmd l.peer (pageNo (at_ p.1)) fun t => m ⟨self, t, cmd⟩ p) s
    match x.op with
    | .send =>
      if l.peer = self then
        if s.peerRange o.ctx self va l.len true then (0, l, s.vaWrite o.ctx va l.bytes) else (3, l, s)
      else (0, l, far (fun z p => .request (.collWrite z x.job x.inst_ (at_ p.1) ((l.bytes.drop p.1).take p.2))) (pageParts va l.len))
    | .get =>
      if l.peer = self then
        if s.peerRange o.ctx self va l.len false then (0, { l with bytes := s.vaRead o.ctx va l.len }, s.vaReads o.ctx va l.len)
        else (3, l, s)
      else (0, l, far (fun z p => .request (.collRead z x.job x.inst_ (at_ p.1) p.2)) (pageParts va l.len))
    | .mcast =>
      if l.peer = self then
        match s.landingAt o.ctx self va l.len with
        | some a =>
          let (id, s) := s.beginLanding ⟨self, 0, cmd⟩ x.job a l.len
          (0, l, match s.fabric.landings.find? (fun z => z.id == id) with | some z => s.endLanding z l.bytes | none => s)
        | none => (3, l, s)
      else
        (0, l, far (fun z p =>
          let bs := (l.bytes.drop p.1).take p.2
          if p.1 = 0 then .landing z x.job x.inst_ l.remote l.len bs else .landingPart z x.job x.inst_ (at_ p.1) bs) (pageParts va l.len))
    | .rsend =>
      let (st, due, s) := s.contribute cmd x l
      (st, { l with due }, s)

/-- Carry a collective out on this side: the lanes in ascending order, up to the first that stops it (R337). -/
def State.collSide (s : State) (o : Owner) (cmd : Nat) (x : CollCmd) : CollCmd × State :=
  let r := x.lanes.foldl (fun (acc : Bool × List CollLane × Nat × Nat × State) l =>
    let (stop, done, st, moved, s) := acc
    if stop then acc
    else
      let (k, l, s) := s.collLane o cmd x l
      if k = 1 then (true, done, k, moved, s)
      else if k = 3 then (true, done, k, if x.op == .get then moved else moved + l.len, s)
      else (false, done ++ [l], if k = 0 then st else k, if x.op == .get then moved else moved + l.len, s)) (false, [], 0, 0, s)
  ({ x with sent := true, lanes := r.2.1, st := r.2.2.1, moved := r.2.2.2.1 }, r.2.2.2.2)

/-- What a collective's engine runs into on local memory now, at the first lane that meets something: a PERM stops it there,
anything else holds it or ends its context. -/
def State.collEv (s : State) (c : Cmd) (x : CollCmd) : Option Ev :=
  let o := s.ownerOf c
  let self := s.fabric.devno.toNat
  x.lanes.findSome? fun l => worst (
    (if x.sent then (if x.op == .get then l.addrs.filterMap fun a => s.copyEv o a true else [])
     else if x.op == .get then
       (if l.peer = self && s.peerRange o.ctx self l.remote.toNat l.len false && s.vaPoison o.ctx l.remote.toNat l.len then [Ev.memue] else [])
     else l.addrs.filterMap fun a => s.copyEv o a false))

/-- What a collective writes on this module in its present stage. -/
def State.collWrites (s : State) (o : Owner) (x : CollCmd) : List CAddr :=
  let self := s.fabric.devno.toNat
  if x.sent then (if x.op == .get then x.lanes.flatMap CollLane.addrs else [])
  else (x.lanes.filter (fun l => l.peer == self)).flatMap fun l =>
    let va := l.remote.toNat
    match x.op with
    | .send => if s.peerRange o.ctx self va l.len true then vaAddrs va l.len else []
    | .rsend =>
      (List.range (l.len / (1024 * elemSize x.ty))).flatMap fun k =>
        s.chunkWrites x.job x.inst_ (l.remote + BitVec.ofNat 64 (4096 * k)) x.ty
    | _ => []

/-- What a collective's lanes name beside their own addresses on this module: what it writes, and what a GET from this module reads. -/
def State.collReaches (s : State) (o : Owner) (x : CollCmd) : List CAddr :=
  let self := s.fabric.devno.toNat
  s.collWrites o x ++
  if x.op == .get && !x.sent then (x.lanes.filter (fun l => l.peer == self)).flatMap fun l =>
    if s.peerRange o.ctx self l.remote.toNat l.len false then vaAddrs l.remote.toNat l.len else []
  else []

/-- The flags of the chunks that a command contributed to at other modules have reached this one (R338, R344). -/
def State.flagsHere (s : State) (x : CollCmd) : Bool :=
  x.op != .rsend || (x.lanes.filter (fun l => l.peer != s.fabric.devno.toNat)).all fun l =>
    (List.range (l.len / (1024 * elemSize x.ty))).all fun k =>
      (s.job x.job).flagged.contains (x.inst_, l.peer, l.remote + BitVec.ofNat 64 (4096 * k))

/-- The chunks that a command contributed to here are written. -/
def State.chunksWritten (s : State) (x : CollCmd) : Bool :=
  x.op != .rsend || (x.lanes.filter (fun l => l.peer == s.fabric.devno.toNat)).all fun l =>
    (List.range (l.len / (1024 * elemSize x.ty))).all fun k =>
      match s.chunk? x.job x.inst_ (l.remote + BitVec.ofNat 64 (4096 * k)) with
      | some c => c.written
      | none => (s.job x.job).cur != x.inst_

/-- Give the bytes that peers returned to the lanes they are for, in lane order. -/
def shareOut (self : Nat) : List CollLane → List Byte → List CollLane
  | [], _ => []
  | l :: ls, bs => if l.peer = self then l :: shareOut self ls bs else { l with bytes := bs.take l.len } :: shareOut self ls (bs.drop l.len)

/-- GET's local writes, lane by lane, up to the first that meets PERM: the bytes written and whether it stopped. -/
def State.getWrites (s : State) (o : Owner) : List CollLane → Nat × Bool × State
  | [] => (0, false, s)
  | l :: ls =>
    if l.addrs.any (fun a => (s.copyEv o a true).isSome) then (0, true, s)
    else
      let s := ((l.addrs.zip l.bytes).foldl (fun (s : State) p => s.copyWrite o p.1 p.2) s).engineOut o true l.addrs
      let (n, stop, s) := s.getWrites o ls
      (n + l.len, stop, s)

/-- A collective can go on: its engine is not stopped, no page holds it, and the cocoons that it writes to have room. -/
def State.collReady (s : State) (c : Cmd) (x : CollCmd) : Bool :=
  !c.hold.isSome && (match s.collEv c x with | some e => e.code == 0x05 | none => true) &&
  !s.copyHeld (s.ownerOf c) (s.collReaches (s.ownerOf c) x ++ x.lanes.flatMap CollLane.addrs)

/-- A lane of a collective is another module's. -/
def State.farLane (s : State) (x : CollCmd) : Bool := x.lanes.any (fun l => l.peer != s.fabric.devno.toNat)

/-- The first stage is over: the command holds what it has read and sent, and what it has given to chunks here may be agreed on. -/
def State.collFirst (s : State) (c : Cmd) (x : CollCmd) : State :=
  let (y, s) := s.collSide (s.ownerOf c) c.id x
  let s : State := { s with cmds := s.cmds.map fun z => if z.id == c.id then { z with kind := .coll y } else z }
  (y.lanes.filter (fun l => l.peer == s.fabric.devno.toNat)).foldl (fun s l =>
    l.due.foldl (fun (s : State) k => s.agree y.job y.inst_ (l.remote + BitVec.ofNat 64 (4096 * k))) s) s

/-- A collective's status and the bytes it moved (R337). -/
def collStatus (x : CollCmd) (r : RemoteResult) (stop : Bool) (n : Nat) : Word :=
  let st := if x.st = 1 || stop then 1 else if x.st = 3 || (match r with | .remote _ => true | _ => false) then 3
    else if x.st = 4 || r == .dup then 4 else 0
  statusWord st (match r with | .remote k => if st = 3 then k else n | _ => n)

/-- The last stage: GET writes here, and the status goes to the slices of the group. -/
def State.collLast (s : State) (c : Cmd) (x : CollCmd) (r : RemoteResult) (data : List Byte) : State :=
  let (n, stop, s) :=
    if x.op == .get then s.getWrites (s.ownerOf c) (shareOut s.fabric.devno.toNat x.lanes data) else (x.moved, false, s)
  (((s.countMoved c.ctx n).endCmd c (collStatus x r stop n) false).settleJob x.job).answered c.id

/-- What a collective still awaits, unless a refusal has stopped it: chunks of this module, exponents that are due, and the flags of
other modules' chunks; and its peers can report only where it has some. -/
def State.collAwaits (s : State) (x : CollCmd) (r : RemoteResult) : Bool :=
  let stopped := match r with | .remote _ => true | _ => x.st = 3 || x.st = 1
  !s.chunksWritten x || (!stopped && (x.lanes.any (fun l => !l.due.isEmpty) || !s.flagsHere x)) || (!s.farLane x && r != .ok)

/-- A collective goes on: first it reads and sends; then, once its peers have answered with `r` and `data`, it completes. -/
def execCollComplete (cmd : Nat) (r : RemoteResult) (data : List Byte) (s : State) : Out :=
  .next (match s.cmds.find? (fun c => c.id == cmd) with
    | none => s
    | some c =>
      match c.kind with
      | .coll x =>
        if !s.collReady c x then s
        else if s.copyRoom (s.ownerOf c) (s.collWrites (s.ownerOf c) x) ≠ [] then
          (s.copyRoom (s.ownerOf c) (s.collWrites (s.ownerOf c) x)).foldl State.startFetch s
        else if !x.sent then s.collFirst c x
        else if s.collAwaits x r then s
        else s.collLast c x r data
      | _ => s)

/-- The slices of a slice's group that have not ended. -/
def State.groupOf (s : State) (b : Block) (x : Slice) : List Slice :=
  let r := s.lrOf b
  b.slices.filter (fun y => !y.ended && r.partOf 1 y.gnum == r.partOf 1 x.gnum)

/-- An event in every gang of a group (R336). -/
def State.raiseGroup (s : State) (b : Block) (l : List Slice) (e : Ev) : State :=
  let cur := s.cur
  { ((l.map (fun x => x.gang)).eraseDups).foldl (fun s g =>
      ({ s with cur := some { block := b.uid, gang := g, only := none } }).raise e) s with cur := cur }

/-- The lanes of a group that take part (R335): requests in ascending position. -/
def collReqs (s : State) (b : Block) (g : Guard) (op : CollOp) (a rb c : Opd) (l : List Slice) : List CollReq :=
  l.flatMap fun sl =>
    let e := s.envOf b sl
    let cw := match c with | .s n => (sl.sr n.toNat, sl.sr (n.toNat + 1)) | _ => (0, 0)
    let len := bitsOf cw.2.toNat 0 40
    (lanes (sl.part_ g)).map fun ln =>
      { slice := sl.num, lane := ln, peer := valOf e sl ln 32 a, remote := BitVec.ofNat 64 (valOf e sl ln 64 rb)
        loc := if op == .mcast then caddrOf cw.1 else (caddrOf cw.1).add ((posOf e sl ln * len : Nat) : Int), len }

/-- Retire every gang of a group at its COLL. -/
def State.retireGroup (old s : State) (b : Block) (l : List Slice) : State :=
  ((l.map (fun x => x.gang)).eraseDups).foldl (fun (s : State) gid =>
    ({ old with cur := some { block := b.uid, gang := gid, only := none } } : State).retire s b.uid
      ((l.filter (fun x => x.gang == gid)).map (fun x => x.num)) [] 1 false true) s

/-- The words of a COLL's operand C. -/
def collPair (c : Opd) (x : Slice) : Word × Word := match c with | .s n => (x.sr n.toNat, x.sr (n.toNat + 1)) | _ => (0, 0)

/-- The reserved bits of C are zero and its base is well formed (R334). -/
def collForm (base ctl : Word) : Bool := bitsOf ctl.toNat 56 8 == 0 && bitsOf ctl.toNat 40 10 == 0 && caddrOk base

/-- The slices of a group stand at one COLL with one C. -/
def collAgree (c : Opd) (l : List Slice) : Bool :=
  l.all fun x => x.pc == (l.headD default).pc && collPair c x == collPair c (l.headD default)

/-- The lanes that an event of R336 names: of the whole group, or those of the requests that failed. -/
def collLanes (g : Guard) (l : List Slice) (n : Nat) (bad : List CollReq) : List (Nat × Mask) :=
  let all := l.map fun x => (x.num, x.part_ g)
  if n ≤ 3 then all
  else all.map fun x => (x.1, (bad.filter (fun y => y.slice == x.1)).foldl (fun m y => m ||| (1#4 <<< y.lane)) 0)

/-- The operation is accepted: what the group holds is published, and it takes a number and its place on tl2. -/
def State.collAccept (s : State) (b : Block) (l : List Slice) : (Nat × Nat) × State :=
  let (id, s1) := l.foldl (fun (s : State) x => s.publishHeldOf b x) s |>.newId
  let (n, s1) := s1.acceptTl b.uid (l.headD default).share 2
  ((id, n), s1)

/-- Every slice of the group has sent the operation. -/
def State.collNote (s : State) (b : Block) (l : List Slice) (d : Opd) (k : Note) : State :=
  l.foldl (fun (s : State) x => s.modSlice b.uid x.num fun y => y.sent .c (dstOf d) k) s

/-- The operation completes at once with a status. -/
def State.collNow (s : State) (b : Block) (l : List Slice) (d : Opd) (w : Word) : State :=
  let r := s.collAccept b l
  let ws : List RegWrite := match dstOf d with | some r => [.s r w] | none => []
  s.retireGroup ((r.2.collNote b l d (.vals ws)).completeTl b.uid (l.headD default).share 2 r.1.2) b l

/-- The operation goes to the collective engine. -/
def State.collSent (s : State) (b : Block) (l : List Slice) (d : Opd) (x : CollCmd) : State :=
  let r := s.collAccept b l
  let cmd := { cmdOf r.2 b (l.headD default) r.1.1 (dstOf d) (.coll x) with
    others := (l.drop 1).map (fun x => x.num), tl := some (2, r.1.2) }
  s.retireGroup (({ r.2 with cmds := r.2.cmds ++ [cmd] } : State).collNote b l d (.cmd r.1.1)) b l

/-- The operation of a group, before it has begun. -/
def State.collCmd (s : State) (op : CollOp) (ty : Ty) (mode job : Nat) (reqs : List CollReq) : CollCmd :=
  { op, ty, mode, job, inst_ := (s.job job).cur, sent := false, st := 0, moved := 0
    lanes := reqs.map fun q => { peer := q.peer, remote := q.remote, loc := q.loc, len := q.len, bytes := [] } }

/-- Perform a COLL once for a group that has assembled (R335, R336). It joins the command log, which may be full (R301, R347). -/
def State.collRun (s : State) (g : Guard) (op : CollOp) (ty : Ty) (mode : Nat) (d a rb c : Opd) (b : Block) (l : List Slice) : State :=
  let r := s.lrOf b
  let first := l.headD default
  if !collAgree c l then s.raiseGroup b l { Ev.own with lanes := collLanes g l 0 [] }
  else
    let (base, ctl) := collPair c first
    let job := bitsOf ctl.toNat 50 6
    let reqs := collReqs s b g op a rb c l
    let skew := bitsOf ctl.toNat 0 40 % (1024 * elemSize ty) != 0 || (caddrOf base).addr % elemSize ty != 0
    match s.collCheck r.ctx r.det r.slotBytes op ty mode job (collForm base ctl) skew reqs with
    | some (e, bad) => s.raiseGroup b l { e with lanes := collLanes g l e.check bad }
    | none =>
      if (dstOf d).isSome && l.any (fun x => !x.handling && x.supC.full) then
        s.raiseGroup b l { Ev.illop with detail := 0x07, lanes := collLanes g l 0 [] }
      else if reqs.any (fun x => !(s.job job).list.contains x.peer) then s.collNow b l d (statusWord 2 0)
      else if reqs = [] || bitsOf ctl.toNat 0 40 = 0 then s.collNow b l d (statusWord 0 0)
      else s.collSent b l d (s.collCmd op ty mode job reqs)

/-- The slices of a gang have arrived at their COLL. -/
def collHeld (l : List Slice) : List Slice :=
  l.map fun x => if x.wait == .coll then x else { x.openRegion (x.repHere .coll) with wait := .coll }

/-- COLL (R335): the slices of the gang arrive and wait; the last of the group performs it. -/
def collGang (s : State) (g : Guard) (op : CollOp) (ty : Ty) (mode : Nat) (d a rb c : Opd) (b : Block) (l : List Slice) : Res :=
  if (s.lrOf b).det then .trap { Ev.detx with check := 1, lanes := l.map fun x => (x.num, x.part_ g) }
  else if l.all (fun x => x.again .c) then
    .done (s.modBlock b.uid fun b => b.putSlices (l.map fun x => x.replay .c)) []
  else
    let s1 := s.modBlock b.uid fun b => b.putSlices (collHeld l)
    match s1.block? b.uid with
    | none => .stall s1
    | some b1 =>
      let group := s1.groupOf b1 (l.headD default)
      if group.all (fun x => x.wait == .coll && !x.again .c) then .stall (s1.collRun g op ty mode d a rb c b1 group) else .stall s1

def execCollSend (g : Guard) (d a b c : Opd) (s : State) : Out :=
  .next (s.perGang 1 false fun blk l => collGang s g .send .none 0 d a b c blk l)
def execCollGet (g : Guard) (d a b c : Opd) (s : State) : Out :=
  .next (s.perGang 1 false fun blk l => collGang s g .get .none 0 d a b c blk l)
def execCollRsend (g : Guard) (ty : Ty) (m : CollMode) (d a b c : Opd) (s : State) : Out :=
  .next (s.perGang 1 false fun blk l => collGang s g .rsend ty (match m with | .rns => 1 | .fppair => 2) d a b c blk l)
def execCollMcast (g : Guard) (d a b c : Opd) (s : State) : Out :=
  .next (s.perGang 1 false fun blk l => collGang s g .mcast .none 0 d a b c blk l)

/-! ## Requests of peers (R329, R266, R281, R283, R352) -/

/-- Where a physical address of a PEER page lands here (R217, R218). -/
def peerPhys (pa : Nat) : Phys := if pa < 2 ^ 39 then ⟨0, pa, 0⟩ else ⟨BitVec.ofNat 64 (2 ^ 5), pa - 2 ^ 41, 0⟩

/-- A window of a table that admits a peer, whatever the context: a physical access names none. -/
def State.peerAdmits (s : State) (src : Nat) (p : Phys) (n : Nat) (w : Bool) : Bool :=
  s.fw.windows.any fun x => s.admits .peer src x.ctx p.pte p.pa n w

/-- The result of one physical request: the bytes of the reply and the state. -/
def State.peerDo (s : State) (p : Phys) : RemoteReq → List Byte × State
  | .read _ _ _ n => ((List.range n).map fun i => s.mem.peek (s.keyOf p i), s)
  | .write _ _ _ d => ([], (d.zipIdx).foldl (fun (s : State) b => { s with mem := s.mem.poke (s.keyOf p b.2) b.1 }) s)
  | .atom _ _ ty op _ b c =>
    let n := ty.width / 8
    let m := leNat ((List.range n).map fun i => s.mem.bankPeek (s.keyOf p i))
    (leBytes n m, put s (leBytes n (atomNew ty op m (b.toNat % 2 ^ ty.width) (c.toNat % 2 ^ ty.width))))
  | .atomc _ _ _ v =>
    let m := leNat ((List.range 8).map fun i => s.mem.bankPeek (s.keyOf p i))
    let (hi, lo, _) := pairAdd (m % 2 ^ 32) (m / 2 ^ 32) v.toNat
    (leBytes 8 m, put s (leBytes 8 (hi + lo * 2 ^ 32)))
  | .atomw _ _ _ e new =>
    let m := (List.range e.length).map fun i => s.mem.bankPeek (s.keyOf p i)
    (m, if m == e then put s new else s)
  | _ => ([], s)
where
  put (s : State) (bs : List Byte) : State :=
    (bs.zipIdx).foldl (fun (s : State) b => { s with mem := s.mem.bankPoke (s.keyOf p b.2) b.1 }) s

/-- A physical request: refused, to be tried at the new home, poisoned, answered from the record, or performed. -/
def State.peerServe (s : State) (src tag pa n : Nat) (w read : Bool) (r : RemoteReq) : State :=
  let p := peerPhys pa
  match s.fabric.served.find? (fun x => x.1 == src && x.2.1 == tag) with
  | some x => s.post src none x.2.2
  | none =>
    if !s.peerAdmits src p n w then s.post src none (.refuse none tag)
    else if s.mem.frozen.contains (frozenPage p) then s.post src none (.retry none tag)
    else if read && s.poisoned p n then s.post src none (.poisoned none tag)
    else
      let (bs, s) := s.peerDo p r
      s.answer ⟨src, tag, 0⟩ (.reply none tag bs)

def execRemoteRequestReceive (r : RemoteReq) (s : State) : Out :=
  .next (match r with
    | .read src tag pa n => s.peerServe src tag pa n false true r
    | .write src tag pa d => s.peerServe src tag pa d.length true false r
    | .atom src tag ty _ pa _ _ => s.peerServe src tag pa (ty.width / 8) true true r
    | .atomc src tag pa _ => s.peerServe src tag pa 8 true true r
    | .atomw src tag pa e _ => s.peerServe src tag pa e.length true true r
    | .collWrite o job seq va d =>
      s.gate job seq (.remoteRequestReceive r) fun s =>
        s.once o job fun s =>
          let c := (s.job job).ctx
          if !s.peerRange c o.src va.toNat d.length true then s.stopPeer o job
          else
            match s.rangeWait c (vaAddrs va.toNat d.length) with
            | some s' => s'.later (.remoteRequestReceive r)
            | none => (s.vaWrite c va.toNat d).answer o (.reply (some job) o.tag [])
    | .collRead o job seq va n =>
      s.gate job seq (.remoteRequestReceive r) fun s =>
        s.once o job fun s =>
          let c := (s.job job).ctx
          if !s.peerRange c o.src va.toNat n false then s.stopPeer o job
          else if s.copyHeld (engineOf c) (vaAddrs va.toNat n) then s.later (.remoteRequestReceive r)
          else if s.vaPoison c va.toNat n then s.answer o (.poisoned (some job) o.tag)
          else (s.vaReads c va.toNat n).answer o (.reply (some job) o.tag (s.vaRead c va.toNat n)))

end Sys2Proof.Machine
end

