-- ==== Sys2Proof/Machine/Launch.lean ====
section
/-! DEFINITION. LAUNCH and EVOP (R370, R371), the hardware queues' host registers (R358), records (R359, R361), the ready pool
and dispatch (R364, R365), collective nodes (R345, R346) and task graphs (R372 to R374). -/

namespace Sys2Proof.Machine

/-! ## LAUNCH and EVOP -/

def launchBad (s : State) (c : Nat) (det neg : Bool) (addr q : Word) : Option Ev :=
  let own (e : Ev) : Option Ev := some { e with check := 11 }
  if neg || q.toNat > 63 then own Ev.illop
  else if addr.toNat % 256 ≠ 0 then own Ev.align
  else if (s.hq q.toNat).bound && (s.hq q.toNat).ctx != c then own Ev.perm
  else if det then own Ev.detx
  else none

/-- LAUNCH appends as HQSUB does (R358, R370): at a queue that is not bound the write is dropped, and the word is open (log entry
11). -/
def sendLaunch (d : Option Nat) : Sender := fun s b sl _ args =>
  let s := s.publishHeldOf b sl
  let q := (args.getD 1 0).toNat
  let note (w : Word) : Note := .vals (match d with | some r => [.s r w] | none => [])
  if !(s.hq q).bound then
    let (w, s) := s.free
    .done s (note w)
  else
    match s.appendEntry q (args.headD 0) none with
    | (some pos, s) => .done s (note (BitVec.ofNat 64 pos))
    | (none, s) => .done s (note (1#64 <<< 56))

def execLaunch (g : Guard) (d a b : Opd) (s : State) : Out :=
  .next (s.perGang (lenOf [a, b]) false fun blk l =>
    let args (sl : Slice) : List Word := [a, b].map (svalOf (s.envOf blk sl) sl)
    s.cmdGang g .c (.launch g d a b) (dstOf d)
      (fun sl => launchBad s (s.lrOf blk).ctx (s.lrOf blk).det (Opd.negSmall b) ((args sl).headD 0) ((args sl).getD 1 0))
      args (sendLaunch (dstOf d)) blk l)

/-- Bits 64w to 64w + 63 of an event vector. -/
def evWord (ev : BitVec 256) (w : Nat) : Word := ev.extractLsb' (64 * w) 64
def evMask (w : Nat) (m : Word) : BitVec 256 := (m.setWidth 256) <<< (64 * w)

def evopBad (det neg : Bool) (w : Word) : Option Ev :=
  if neg || w.toNat > 3 then some Ev.own else if det then some { Ev.detx with check := 11 } else none

/-- EVOP in a slice (R371): a SET is a release at SYS, and waits for what its slice has outstanding at other modules and in switch memory
(R245). -/
def sendEvop (set : Bool) : Sender := fun s b sl _ args =>
  let m := evMask (args.headD 0).toNat (args.getD 1 0)
  let c := (s.lrOf b).ctx
  if set && s.farDue b sl.num false then .waits s
  else
  .done (if set then (s.releaseHeld b sl .sys).setBits c m else s.clearBits c m) .none

/-- EVOP.SET and EVOP.CLR. -/
def evopGang (i : Instr) (set : Bool) (g : Guard) (a b : Opd) (s : State) : State :=
  s.perGang (lenOf [b]) false fun blk l =>
    let args (sl : Slice) : List Word := [a, b].map (svalOf (s.envOf blk sl) sl)
    s.cmdGang g .c i none (fun sl => evopBad (s.lrOf blk).det (Opd.negSmall a) ((args sl).headD 0)) args (sendEvop set) blk l

def execEvopSet (g : Guard) (a b : Opd) (s : State) : Out := .next (evopGang (.evopSet g a b) true g a b s)
def execEvopClr (g : Guard) (a b : Opd) (s : State) : Out := .next (evopGang (.evopClr g a b) false g a b s)

def execEvopTest (g : Guard) (d a b : Opd) (s : State) : Out :=
  .next (s.perSlice g (lenOf [b]) fun e sl =>
    let w := svalOf e sl a
    match evopBad e.lr.det (Opd.negSmall a) w with
    | some ev => .error (ev.per sl g)
    | none => .ok (sl.setS g d (evWord (s.ctx e.lr.ctx).ev w.toNat &&& svalOf e sl b)))

/-! ## The host's queue registers (R358) -/

/-- The host window answers (R398): in recovery writes are ignored. -/
def State.hostOpen (s : State) : Bool := s.fw.bootst != 0xBAD0

def State.hqsub (s : State) (hq : Nat) (addr : Word) : State :=
  if !s.hostOpen || !(s.hq hq).bound then s
    else match s.appendEntry hq addr none with
      | (some _, s') => s'
      | (none, s') => s'.modHq hq fun h => { h with ovf := true }

def execHqsub (hq : Nat) (addr : Word) (s : State) : Out := .next (s.hqsub hq addr)

/-- The launch of a STOPPED queue's head, should it not have started, goes back to its entry. -/
def State.recallHead (s : State) (q : Nat) : State :=
  match (s.hq q).st, (s.hq q).entries with
  | .stopped, e :: _ => s.recall q e.pos
  | _, _ => s

/-- HQCTL 1 (R357, R358): a STOPPED queue runs again, or is idle where it is empty, and its head's record is read anew; HQSTAT's
[47:24] are cleared whatever the state. -/
def State.hqctlRestart (s : State) (hq : Nat) : State :=
  if !s.hostOpen then s else (s.recallHead hq).modHq hq fun h =>
    if h.st == .stopped then
      { h with st := if h.entries.isEmpty then .idle else .running, failPos := 0, failCode := 0
               entries := h.entries.mapIdx fun i e => if i = 0 then { e with checked := false, age := none } else e }
    else { h with failPos := 0, failCode := 0 }

def execHqctlRestart (hq : Nat) (s : State) : Out := .next (s.hqctlRestart hq)

/-- The head entry of a STOPPED queue goes; a graph's node of it is no longer in flight. -/
def State.hqctlRemoveHead (s : State) (hq : Nat) : State :=
    let h := s.hq hq
    match h.entries with
    | e :: rest =>
      if s.hostOpen && h.st == .stopped then
        let s := (s.recall hq e.pos).modHq hq fun h => { h with entries := rest }
        match e.graph with | some (slot, i) => s.modNode slot i (fun n => { n with running := false }) | none => s
      else s
    | [] => s

def execHqctlRemoveHead (hq : Nat) (s : State) : Out := .next (s.hqctlRemoveHead hq)

def State.hqctlClearOvf (s : State) (hq : Nat) : State :=
  if !s.hostOpen then s else s.modHq hq fun h => { h with ovf := false }

/-- What HQSTAT reads (R358). -/
def Hq.stat (h : Hq) : Word :=
  BitVec.ofNat 64 (h.entries.length * 2 ^ 48 + h.failPos % 2 ^ 16 * 2 ^ 32 + h.failCode % 2 ^ 8 * 2 ^ 24 + (if h.ovf then 4 else 0) +
    (match h.st with | .idle => 0 | .running => 1 | .stopped => 2))

def execHqctlClearOvf (hq : Nat) (s : State) : Out := .next (s.hqctlClearOvf hq)

/-! ## Launch records (R359, R361) -/

def recOf (bs : List Byte) : LaunchRec :=
  let lf := field bs 19 1
  { entry := BitVec.ofNat 64 (field bs 0 8), param := BitVec.ofNat 64 (field bs 8 8), ctx := field bs 16 1, prio := field bs 17 1
    hint := field bs 18 1, det := lf % 2 == 1, restart := lf / 2 % 2 == 1, top := field bs 20 1, blklv := field bs 21 1
    sreg := field bs 24 1, sscr := field bs 25 1, sl1 := field bs 26 1, rlive := field bs 27 1, accb := field bs 28 1
    accn := field bs 29 1, ext := (List.range 7).map fun k => field bs (32 + 8 * k) 2
    bind := (List.range 7).map fun k => field bs (34 + 8 * k) 1
    wait := BitVec.ofNat 256 (field bs 128 32), set := BitVec.ofNat 256 (field bs 160 32) }

/-- Reserved fields of a record, and the fields of the levels above T. -/
def recResv (bs : List Byte) : Bool :=
  let t := field bs 20 1
  field bs 19 1 / 4 == 0 && field bs 22 2 == 0 && field bs 30 2 == 0 && field bs 88 40 == 0 && field bs 192 64 == 0 &&
  (List.range 7).all fun k => field bs (35 + 8 * k) 5 == 0 && (k < t || field bs (32 + 8 * k) 3 == 0)

/-- How many instances of each domain the next wider one holds (R411): cores to a quad, a die and the package. -/
def domainOf (d core : Nat) : Nat := if d = 2 then core / 4 else if d = 3 then core / 48 else 0

def LaunchRec.bindOf (r : LaunchRec) (k : Nat) : Nat := r.bind.getD (k - 1) 5

/-- The highest level bound to partition. -/
def LaunchRec.partLevel (r : LaunchRec) : Nat :=
  ((List.range r.top).map (· + 1)).foldl (fun acc k => if r.bindOf k = 0 then k else acc) 1

/-- Room on a core for a launch: free places of its four partitions, slices that its registers admit, and shares. -/
structure Room where
  core : Nat
  parts : List Nat
  regs : Nat
  shares : Nat
  deriving DecidableEq, Repr, Inhabited

/-- An empty core as R411 counts it: slice places, registers, and one share where the accumulator window is not empty. -/
def LaunchRec.roomOf (r : LaunchRec) (core : Nat) : Room :=
  { core, parts := [64, 64, 64, 64], regs := r.sreg * 16384 / (16 * r.live), shares := if r.accn = 0 then 256 else 1 }

/-- Take room for one level-`partLevel` instance on a place, and for the shares it begins. -/
def LaunchRec.take (r : LaunchRec) (rooms : List Room) (place newShares : Nat) : Option (List Room) :=
  let n := r.slicesIn r.partLevel
  match rooms.find? (fun x => x.core == place / 4) with
  | none => none
  | some x =>
    let free := x.parts.getD (place % 4) 0
    if n ≤ free && n ≤ x.regs && newShares ≤ x.shares then
      some (rooms.map fun y => if y.core == x.core then
        { y with parts := y.parts.set (place % 4) (free - n), regs := y.regs - n, shares := y.shares - newShares } else y)
    else none

/-- Shares that one level-k instance holds; the first partition-level instance of a share begins it. -/
def LaunchRec.sharesIn (r : LaunchRec) (k : Nat) : Nat := r.slicesIn k / r.slicesIn r.shareLevel

/-- Place instances of level k one after another on the cores given: the places of their partition-level instances in order.
`fresh` says how many shares the next partition-level instance begins. -/
def LaunchRec.fill (r : LaunchRec) : Nat → List Nat → List Room → Nat → Option (List Nat × List Room)
  | 0, _, _, _ => none
  | k + 1, cores, rooms, fresh =>
    if k + 1 ≤ r.partLevel then
      (cores.flatMap (fun c => (List.range 4).map fun p => 4 * c + p)).findSome? fun pl =>
        (r.take rooms pl (if k + 1 ≥ r.shareLevel then r.sharesIn r.partLevel else fresh)).map fun rs => ([pl], rs)
    else
      let d := r.bindOf (k + 1)
      let sets := if d = 1 then cores.map (fun c => [c])
        else if d ≥ 4 then [cores]
        else ((cores.map (domainOf d)).eraseDups).map fun x => cores.filter (fun c => domainOf d c == x)
      sets.findSome? fun set =>
        (List.range (r.extent (k + 1))).foldl (fun (acc : Option (List Nat × List Room)) i =>
          match acc with
          | none => none
          | some (pls, rs) =>
            -- a share of several partition-level instances begins with its first
            let f := if k + 1 > r.shareLevel then 1 else if k + 1 = r.shareLevel then (if i = 0 then 1 else 0) else (if i = 0 then fresh else 0)
            match r.fill k set rs f with
            | none => none
            | some (q, rs') => some (pls ++ q, rs')) (some ([], rooms))

/-- A place for one instance of level k, if the rooms hold one. -/
def LaunchRec.findPlace (r : LaunchRec) (k : Nat) (rooms : List Room) : Option (List Nat) :=
  (r.fill k (rooms.map (fun x => x.core)) rooms 1).map (fun x => x.1)

/-- R17 and R411, for a record whose fields are in range. -/
def LaunchRec.accepted (r : LaunchRec) : Bool :=
  let ks := (List.range r.top).map (· + 1)
  r.bindOf 1 == 0 && ks.all (fun k => r.bindOf k ≤ 5 && (k == 1 || r.bindOf (k - 1) ≤ r.bindOf k)) && r.bindOf r.blklv ≤ 4 &&
  r.slicesIn r.top ≤ 2 ^ 32 && 1 ≤ r.slots &&
  (r.findPlace r.unitLevel ((List.range Config.cores).map r.roomOf)).isSome

/-- The fields of a record in range (R359, R361). -/
def LaunchRec.inRange (r : LaunchRec) : Bool :=
  2 ≤ r.top && r.top ≤ 7 && 2 ≤ r.blklv && r.blklv ≤ r.top && 1 ≤ r.extent 1 && r.extent 1 ≤ 8 &&
  ((List.range r.top).all fun k => 1 ≤ r.extent (k + 1)) && r.sreg + r.sscr + r.sl1 == 64 && r.accb + r.accn ≤ 64

/-- The cores that the self-test has left enabled (R402). -/
def State.coresOn (s : State) : List Nat := (List.range Config.cores).filter (fun c => !s.fw.coresOff.contains c)

/-- The code of R361 for a record's bytes; 0 where it passes. -/
def State.recCode (s : State) (c : Nat) (bs : List Byte) : Nat :=
  let r := recOf bs
  if r.ctx ≠ c then 2
  else if !recResv bs || !r.inRange || !r.accepted then 3
  else if (r.findPlace r.unitLevel (s.coresOn.map r.roomOf)).isNone then 4
  else 0

/-- The record of an entry: of a graph's node its stored copy, else what stands in memory. -/
def State.recBytes (s : State) (c : Nat) (e : HqEntry) : Option (List Byte) :=
  match e.graph with
  | some (slot, i) => (s.graph? slot).bind fun g => (g.nodes[i]?).map fun n => n.payload
  | none =>
    if e.addr.toNat % 256 ≠ 0 || (s.loadRange c e.addr.toNat 256).isSome then none else some (s.vaRead c e.addr.toNat 256)

/-- What reading the record of an entry reads of memory. -/
def State.recReads (s : State) (c : Nat) (e : HqEntry) : List (Nat × Nat) :=
  if e.graph.isSome || e.addr.toNat % 256 ≠ 0 || (s.loadRange c e.addr.toNat 256).isSome then [] else [(e.addr.toNat, 256)]

/-- The node of an entry, if it is one of a graph. -/
def State.nodeOf (s : State) (e : HqEntry) : Option GNode := e.graph.bind fun x => (s.graph? x.1).bind fun g => g.nodes[x.2]?

/-- Kind of an entry's node: 1 LAUNCH, 2 COPY, 3 RED, 4 COLL. -/
def State.kindOf (s : State) (e : HqEntry) : Nat := match s.nodeOf e with | some n => n.kind | none => 1

/-- Wait mask of a checked entry. -/
def State.waitOf (s : State) (e : HqEntry) : BitVec 256 := match s.nodeOf e with | some n => n.wait | none => e.rcd.wait

/-- The entry at a position: the first, where a node that has failed has come back to the one of a later entry. -/
def State.putEntry (s : State) (q : Nat) (e : HqEntry) : State :=
  s.modHq q fun h => { h with entries := h.entries.set (h.entries.findIdx fun x => x.pos == e.pos) e }

/-- No entry ahead of this one has its position. -/
def Hq.first (h : Hq) (e : HqEntry) : Bool := h.entries.find? (fun x => x.pos == e.pos) == some e

/-- An entry is read and checked (R361). -/
def State.checkEntry (s : State) (hq : Nat) (e : HqEntry) : State :=
  if s.kindOf e ≠ 1 then s.putEntry hq { e with checked := true }
  else
    let s := s.readsAll (s.hq hq).ctx (s.recReads (s.hq hq).ctx e)
    match s.recBytes (s.hq hq).ctx e with
    | none => s.nodeFails hq e.pos 1 e
    | some bs =>
      match s.recCode (s.hq hq).ctx bs with
      | 0 => s.putEntry hq { e with checked := true, rcd := recOf bs }
      | k => s.nodeFails hq e.pos k e

/-- An entry's record can be read and passes R361. -/
def State.passes (s : State) (hq : Nat) (e : HqEntry) : Bool :=
  s.kindOf e != 1 || (match s.recBytes (s.hq hq).ctx e with | none => false | some bs => s.recCode (s.hq hq).ctx bs == 0)

/-- The entry whose record is read next. The nodes of a window enter the pool independently of one another (R364), so that a record is
read as it comes into the window; a record that breaks a rule fails its node only at the head of the queue (R358, R361, R370), where
it is read again (log entry 34). One on a page that holds reads up waits (R283, R304, R352). -/
def State.nextCheck (s : State) (hq : Nat) : Option HqEntry :=
  let h := s.hq hq
  (h.entries.take 64).find? fun e => !e.checked && h.first e && !s.anyBlocked h.ctx (s.recReads h.ctx e) && (h.entries.head?.map (fun x => x.pos) == some e.pos || s.passes hq e)

def execRecordHeadCheck (hq : Nat) (s : State) : Out :=
  .next (
    if (s.hq hq).st != .running then s
    else match s.nextCheck hq with
      | none => s
      | some e => s.checkEntry hq e)

/-! ## The ready pool (R364 to R366) -/

/-- An entry may enter the pool: it is checked, covered, and no collective node stands ahead of it; a collective node is at the
head. -/
def State.mayEnter (s : State) (hq : Nat) (e : HqEntry) : Bool :=
  let h := s.hq hq
  let ahead := (h.entries.take 64).takeWhile (fun x => x.pos != e.pos)
  h.st == .running && e.checked && e.age.isNone && h.first e && (s.ctx h.ctx).ev &&& s.waitOf e == s.waitOf e &&
  !ahead.any (fun x => s.kindOf x == 4) && (s.kindOf e != 4 || ahead.isEmpty)

/-- The node that enters the pool next: what is covered enters at once, and ranks by queue and then by position (R364, R365). -/
def State.firstEntering (s : State) : Option (Nat × Nat) :=
  s.sched.hqs.zipIdx.findSome? fun h => ((h.1.entries.take 64).find? (s.mayEnter h.2)).map fun e => (h.2, e.pos)

/-- A covered node in its queue's window enters the pool. -/
def execNodeEnterPool (hq pos : Nat) (s : State) : Out :=
  .next (
    match ((s.hq hq).entries.take 64).find? (fun e => e.pos == pos) with
    | none => s
    | some e =>
      if s.firstEntering == some (hq, pos) then
        let (n, s) := s.newId
        s.putEntry hq { e with age := some n }
      else s)

/-- A context whose enabled buckets are not all above 0 is descheduled (R375). -/
def Ctx.descheduled (x : Ctx) : Bool := [x.time, x.bytes, x.energy].any fun b => b.cap != 0 && b.level ≤ 0

/-- The FCP dispatches (R398): both firmwares run. -/
def State.fcpOn (s : State) : Bool := s.fw.bootst == 0x600D

/-- Nodes in the pool that may be dispatched: queue, and entry. -/
def State.pool (s : State) : List (Nat × HqEntry) :=
  (s.sched.hqs.zipIdx).flatMap fun h =>
    if h.1.st == .running && !(s.ctx h.1.ctx).descheduled then
      (h.1.entries.filter (fun e => e.age.isSome && !s.launches.any (fun l => l.isAt h.2 e.pos))).map fun e => (h.2, e)
    else []

/-- The stack that a RED node's block names. -/
def State.redStack (s : State) (c : Nat) (n : GNode) : Nat :=
  match s.phys? c (field n.payload 24 8) with | .ok p => stackOf (s.keyOf p 0) | .error _ => 8

/-- What the START of a COLL node comes to (R332, R345): it fails, waits, or opens this instance with these members. -/
inductive StartIs where
  | bad
  | waits
  | opens (d : InstDesc) (l : List Nat)

/-- START of a node: the checks of R332, and the wait. -/
def State.startIs (s : State) (c job idesc : Nat) : StartIs :=
  if idesc % 64 ≠ 0 || (s.loadRange c idesc 64).isSome then .bad
  else
    let d := instDescOf (s.vaRead c idesc 64)
    let j := s.job d.job
    if d.job ≠ job || !(d.job < 64 && j.bound && j.ctx == c) || !d.ok || d.mlist % 2 ≠ 0 || (s.loadRange c d.mlist (2 * d.nmem)).isSome then .bad
    else
      let l := memberList (s.vaRead c d.mlist (2 * d.nmem)) d.nmem
      if !(listOk s.fabric.devno.toNat d.rank l && j.agrees d l) then .bad
      else if s.mayOpen d l then .opens d l else .waits

/-- What dispatching a COLL node reads of memory, as far as its loads pass R226: the descriptor and the member list of a START, the
entries of the others (R345). -/
def State.collReads (s : State) (c : Nat) (n : GNode) : List (Nat × Nat) :=
  let bs := n.payload
  let may (va m : Nat) : List (Nat × Nat) := if (s.loadRange c va m).isSome then [] else [(va, m)]
  if n.kind ≠ 4 then []
  else if field bs 0 1 = 5 then
    if field bs 8 8 % 64 ≠ 0 || (s.loadRange c (field bs 8 8) 64).isSome then []
    else
      let d := instDescOf (s.vaRead c (field bs 8 8) 64)
      (field bs 8 8, 64) :: if d.mlist % 2 ≠ 0 then [] else may d.mlist (2 * d.nmem)
  else if field bs 16 8 % 32 ≠ 0 then [] else may (field bs 16 8) (32 * field bs 4 4)

/-- The reads of an entry's dispatch are held up (R283, R304, R352). -/
def State.dispatchHeld (s : State) (x : Nat × HqEntry) : Bool :=
  match s.nodeOf x.2 with
  | some n => s.anyBlocked (s.hq x.1).ctx (s.collReads (s.hq x.1).ctx n)
  | none => false

/-- The fields that a START's payload keeps (R345): CTY, CMODE, NENT, ETAB and the reserved bytes are 0. -/
def startShape (bs : List Byte) : Bool :=
  field bs 0 1 == 5 && field bs 1 2 == 0 && field bs 4 4 == 0 && field bs 16 48 == 0

/-- A START that waits (R332, R333): it holds its own queue, and no other (R346, R364). -/
def State.startWaits (s : State) (x : Nat × HqEntry) : Bool :=
  match s.nodeOf x.2 with
  | some n => n.kind == 4 && startShape n.payload &&
      (s.dispatchHeld x || match s.startIs (s.hq x.1).ctx (field n.payload 3 1) (field n.payload 8 8) with | .waits => true | _ => false)
  | none => false

/-- Whether x goes before y for the units they share (R365). -/
def State.nodeBefore (s : State) (x y : Nat × HqEntry) : Bool :=
  let old (a b : HqEntry) : Bool := a.age.getD 0 < b.age.getD 0
  if s.kindOf x.2 ≠ s.kindOf y.2 || s.startWaits x then false
  else if s.kindOf y.2 = 1 then y.2.rcd.prio < x.2.rcd.prio || (x.2.rcd.prio == y.2.rcd.prio && old x.2 y.2)
  else if s.kindOf y.2 = 3 then
    (match s.nodeOf x.2, s.nodeOf y.2 with
      | some a, some b => s.redStack (s.hq x.1).ctx a == s.redStack (s.hq y.1).ctx b
      | _, _ => false) && old x.2 y.2
  else old x.2 y.2

/-- A launch is dispatched: its units wait to be placed. Its entry stays in its queue until the first is, with which the launch starts
(R360, R369). -/
def State.dispatchLaunch (s : State) (q : Nat) (e : HqEntry) : State :=
  let (id, s) := s.newId
  let r := e.rcd
  let l : Launch :=
    { id, rcd := r, addr := e.addr, hq := q, pos := e.pos, graph := e.graph, age := e.age.getD 0, waiting := [], nextUnit := 0
      blocksLeft := r.slicesIn r.top / r.slicesIn r.blklv, bars := [], tags := [], oau := [] }
  { s with launches := s.launches ++ [l] }

/-- A node that a command runs: its entry leaves its queue. -/
def State.dispatchCmd (s : State) (q : Nat) (e : HqEntry) (kind : CmdKind) : State :=
  match e.graph with
  | none => s
  | some (slot, i) =>
    let (id, s) := s.newId
    let c := freeCmd id (s.hq q).ctx (some { hq := q, pos := e.pos, slot, idx := i }) none kind
    { s.dropEntry q e.pos with cmds := s.cmds ++ [c] }

/-- A node whose command has nothing to do completes as it is dispatched. -/
def State.dispatchDone (s : State) (q : Nat) (e : HqEntry) : State :=
  match e.graph with
  | none => s
  | some (slot, i) =>
    let c := freeCmd 0 (s.hq q).ctx (some { hq := q, pos := e.pos, slot, idx := i }) none (.skip 0)
    let f := s.nodeFlag c
    ((s.dropEntry q e.pos).writeFlag c.ctx f.1 f.2).nodeEnds c false

/-! ### Collective nodes (R345) -/

/-- Entries of a COLL node. -/
def State.collEntries (s : State) (c etab n : Nat) : List CollReq :=
  (List.range n).map fun k =>
    let bs := s.vaRead c (etab + 32 * k) 32
    { slice := 0, lane := k, peer := field bs 0 2, remote := BitVec.ofNat 64 (field bs 8 8), loc := caddrOf (BitVec.ofNat 64 (field bs 16 8))
      len := field bs 24 8 }

/-- Entries keep their reserved bytes zero, their local addresses well formed and their lengths below 2^40. -/
def State.collEntriesOk (s : State) (c etab n : Nat) : Bool :=
  (List.range n).all fun k =>
    let bs := s.vaRead c (etab + 32 * k) 32
    field bs 2 6 == 0 && caddrOk (BitVec.ofNat 64 (field bs 16 8)) && field bs 24 8 < 2 ^ 40

def ctyOf (n : Nat) : Option Ty :=
  match n with
  | 0 => some .none
  | 5 => some .i32
  | 6 => some .n32
  | 9 => some .f32
  | 0xB => some .bf16
  | _ => none

/-- START of a node. -/
def State.nodeStart (s : State) (q : Nat) (e : HqEntry) (job idesc : Nat) : State :=
  match s.startIs (s.hq q).ctx job idesc with
  | .bad => s.nodeFails q e.pos 5 e
  | .opens d l => ((s.dispatchDone q e).openInst d l).2
  | .waits => s

/-- A COLL node is dispatched (R345, R346). -/
def State.dispatchColl (s : State) (q : Nat) (e : HqEntry) (n : GNode) : State :=
  let c := (s.hq q).ctx
  let bs := n.payload
  let cop := field bs 0 1
  let nent := field bs 4 4
  let etab := field bs 16 8
  let fails := s.nodeFails q e.pos 5 e
  match ctyOf (field bs 1 1) with
  | none => fails
  | some ty =>
    let mode := field bs 2 1
    let rs := cop = 3
    let shape := 1 ≤ cop && cop ≤ 5 && field bs 24 40 == 0 && (rs == (ty != .none)) &&
      (if rs then mode == 1 || (mode == 2 && !isIntTy ty) else mode == 0) &&
      (if cop = 5 then nent == 0 && etab == 0 else 1 ≤ nent && nent ≤ 65535 && etab % 32 == 0 && field bs 8 8 == 0)
    if !shape then fails
    else if cop = 5 then s.nodeStart q e (field bs 3 1) (field bs 8 8)
    else if (s.loadRange c etab (32 * nent)).isSome || !s.collEntriesOk c etab nent then fails
    else
      let reqs := s.collEntries c etab nent
      let op : CollOp := match cop with | 1 => .send | 2 => .get | 3 => .rsend | _ => .mcast
      let job := field bs 3 1
      let j := s.job job
      if (s.collCheck c false 0 op ty mode job true false reqs).isSome then fails
      else if reqs.any (fun x => !j.list.contains x.peer) || reqs.all (fun x => x.len == 0) then s.dispatchDone q e
      else
        s.dispatchCmd q e (.coll
          { op, ty, mode, job, inst_ := j.cur, sent := false, st := 0, moved := 0
            lanes := reqs.map fun r => { peer := r.peer, remote := r.remote, loc := r.loc, len := r.len, bytes := [] } })

/-- The payload of a COPY node is a copy packet of R296 without a flag. -/
def copyNodeOk (bs : List Byte) : Bool :=
  field bs 0 1 == 1 && field bs 2 2 == 0 && field bs 32 8 == 0 && field bs 56 7 == 0 && field bs 40 8 % 8 == 0

/-- A COPY node is dispatched. -/
def State.dispatchCopy (s : State) (q : Nat) (e : HqEntry) (n : GNode) : State :=
  let c := (s.hq q).ctx
  let f := field n.payload 40 8
  if copyNodeOk n.payload && ((s.flagEv c f).filter fun e => e.code != 0x04).isNone then
    match s.packetCmd c n.payload with
    | .error _ => s.nodeFails q e.pos 5 e
    | .ok none => (s.flagWait c f).getD (s.dispatchDone q e)
    | .ok (some k) => s.dispatchCmd q e k
  else s.nodeFails q e.pos 5 e

/-- The eight words of a RED node. -/
def redWords (bs : List Byte) : List Word := (List.range 8).map fun i => BitVec.ofNat 64 (field bs (8 * i) 8)

/-- A RED node is dispatched. -/
def State.dispatchRed (s : State) (q : Nat) (e : HqEntry) (n : GNode) : State :=
  let c := (s.hq q).ctx
  let r := redOf (redWords n.payload)
  if (redCheck (redWords n.payload)).isSome || (s.redRanges c r).isSome then s.nodeFails q e.pos 5 e
  else if r.len = 0 then (s.flagWait c r.faddr.toNat).getD ((s.writeFlag c r.faddr.toNat r.fval).dispatchDone q e)
  else s.dispatchCmd q e (.red r)

/-- A node of the pool is dispatched. -/
def State.dispatch (s : State) (q : Nat) (e : HqEntry) : State :=
  match s.nodeOf e with
  | none => s.dispatchLaunch q e
  | some n =>
    match n.kind with
    | 1 => s.dispatchLaunch q e
    | 2 => s.dispatchCopy q e n
    | 3 => s.dispatchRed q e n
    | _ => (s.readsAll (s.hq q).ctx (s.collReads (s.hq q).ctx n)).dispatchColl q e n

/-- The pool dispatches a node (R365): the first for its units, in a context that is scheduled, once all that are covered are in. -/
def execNodeDispatch (hq pos : Nat) (s : State) : Out :=
  .next (
    match s.pool.find? (fun x => x.1 == hq && x.2.pos == pos) with
    | none => s
    | some x => if !s.fcpOn || s.firstEntering.isSome || s.pool.any (fun y => s.nodeBefore y x) || s.dispatchHeld x then s else s.dispatch hq x.2)

/-! ## Task graphs (R372 to R374) -/

/-- The graph object at an address in a context's memory, if it is readable there: its bytes. -/
def State.graphBytes (s : State) (c addr : Nat) : Option (List Byte) :=
  if (s.loadRange c addr 32).isSome then none
  else
    let n := field (s.vaRead c addr 32) 4 4
    if n = 0 || n > 65535 || (s.loadRange c addr (32 + 96 * n)).isSome then some (s.vaRead c addr 32)
    else some (s.vaRead c addr (32 + 96 * n))

/-- R90's graph header. -/
def graphHead (bs : List Byte) : Bool :=
  let n := field bs 4 4
  field bs 0 4 == 0x46415247 && 1 ≤ n && n ≤ 65535 && field bs 8 2 < 64 && field bs 10 6 == 0 && field bs 16 8 == 32 + 96 * n &&
  field bs 24 8 == 0

/-- The alignment of a node's payload: a launch record's (R359), a parameter block's (R298), a COLL payload's (R345); a packet's
own words (R296) give none. -/
def payloadAlign (kind : Nat) : Nat := if kind = 1 then 256 else if kind = 2 then 1 else 64

/-- Node i of an object: its shape, and the payload's address and length. -/
def nodeShape (bs : List Byte) (i : Nat) : Bool :=
  let o := 32 + 96 * i
  let k := field bs o 1
  1 ≤ k && k ≤ 4 && field bs (o + 1) 1 < 64 && field bs (o + 2) 2 == 0 && field bs (o + 4) 4 == i && field bs (o + 84) 12 == 0 &&
  field bs (o + 80) 4 == (if k = 1 then 256 else 64) && field bs (o + 8) 8 % payloadAlign k == 0

def nodeAt (bs : List Byte) (i : Nat) (payload : List Byte) : GNode :=
  let o := 32 + 96 * i
  { kind := field bs o 1, hq := field bs (o + 1) 1, wait := BitVec.ofNat 256 (field bs (o + 16) 32)
    set := BitVec.ofNat 256 (field bs (o + 48) 32), payload, running := false }

/-- A LAUNCH node agrees with its record (R83). -/
def GNode.agrees (n : GNode) (c : Nat) : Bool :=
  n.kind != 1 || ((recOf n.payload).ctx == c && (recOf n.payload).wait == n.wait && (recOf n.payload).set == n.set)

/-- Bytes of the graph store in use. -/
def State.storeUsed (s : State) : Nat :=
  (s.sched.graphs.flatMap fun g => g.nodes.map fun n => n.payload.length).foldl (· + ·) 0

/-- The least slot that no graph holds. -/
def State.freeGraph (s : State) : Option Nat := (List.range 256).find? fun k => !s.sched.graphs.any (fun g => g.slot == k)

/-- Upload (R372): a status, or the nodes. The context is the lowest in which a graph header that names it, its magic bytes and its
reserved fields as R90 gives them, stands at the address (log entry 12). Where several of R372's conditions hold, the status is that of the first in the order below, which R372 does not
give (log entry 54). -/
def State.upload (s : State) (addr : Nat) : Except Nat (Nat × List GNode) :=
  let found := (List.range 64).filterMap fun c => (s.graphBytes c addr).map fun bs => (c, bs)
  match found.find? (fun x => graphHead x.2 && field x.2 8 2 == x.1) with
  | none => .error (if found.isEmpty then 1 else 2)
  | some (c, bs) =>
    let n := field bs 4 4
    if bs.length < 32 + 96 * n then .error 1
    else if !(List.range n).all (nodeShape bs) then .error 2
    else if (List.range n).any (fun i => (s.loadRange c (field bs (40 + 96 * i) 8) (field bs (112 + 96 * i) 4)).isSome) then .error 1
    else
      let nodes := (List.range n).map fun i => nodeAt bs i (s.vaRead c (field bs (40 + 96 * i) 8) (field bs (112 + 96 * i) 4))
      if !nodes.all (fun x => x.agrees c) then .error 2
      else if !nodes.all (fun x => (s.hq x.hq).bound && (s.hq x.hq).ctx == c) then .error 4
      else if s.storeUsed + (nodes.map fun x => x.payload.length).foldl (· + ·) 0 > 2 ^ 22 || s.freeGraph.isNone then .error 3
      else .ok (c, nodes)

/-- What an upload reads of the contexts in which a graph header that names them stands at the address: each a context and its ranges. -/
def State.uploadReads (s : State) (addr : Nat) : List (Nat × List (Nat × Nat)) :=
  (List.range 64).filterMap fun c =>
    (s.graphBytes c addr).bind fun bs =>
      let n := field bs 4 4
      let load (i : Nat) : Nat × Nat := (field bs (40 + 96 * i) 8, field bs (112 + 96 * i) 4)
      if !(graphHead bs && field bs 8 2 == c) then none
      else if bs.length < 32 + 96 * n || !(List.range n).all (nodeShape bs) then some (c, [(addr, bs.length)])
      else some (c, (addr, bs.length) :: ((List.range n).map load).filter fun x => (s.loadRange c x.1 x.2).isNone)

def State.setGres (s : State) (slot st : Nat) : State := { s with sched := { s.sched with gres := BitVec.ofNat 64 (slot + st * 2 ^ 24) } }

/-- GUP (R372): it waits while what it reads is held up (R283, R304, R352). After an upload that is refused the model lets GRES name slot 0; R372 does not say (log entry 54). -/
def State.graphUpload (s : State) (addr : Word) : State :=
  let rs := s.uploadReads addr.toNat
  if !s.hostOpen then s
  else if rs.any fun x => s.anyBlocked x.1 x.2 then s.later (.graphUpload addr)
  else
    let s := rs.foldl (fun s x => s.readsAll x.1 x.2) s
    match s.upload addr.toNat, s.freeGraph with
    | .ok (c, nodes), some slot =>
      { s.setGres slot 0 with
        sched := { (s.setGres slot 0).sched with graphs := { slot, ctx := c, nodes, kicks := [], kickReg := 0 } :: s.sched.graphs } }
    | .ok _, none => s.setGres 0 3
    | .error k, _ => s.setGres 0 k

def execGraphUpload (addr : Word) (s : State) : Out := .next (s.graphUpload addr)

def Graph.busy (g : Graph) : Bool := g.kicks != [] || g.nodes.any (fun n => n.running)

/-- A graph is freed once no replay of it runs or is pending. -/
def State.graphFree (s : State) (slot : Nat) : State :=
  match s.graph? slot with
    | none => s
    | some g =>
      if !s.hostOpen then s
      else if g.busy then s.later (.graphFree slot)
      else { s with sched := { s.sched with graphs := s.sched.graphs.filter (fun x => x.slot != slot) } }

def execGraphFree (slot : Nat) (s : State) : Out := .next (s.graphFree slot)

/-- The patches of a table (R373), or none where it is malformed. -/
def State.patchTable (s : State) (g : Graph) (table : Nat) : Option (List (Nat × Nat × Word)) :=
  if table = 0 then some []
  else if table % 64 ≠ 0 || (s.loadRange g.ctx table 8).isSome then none
  else
    let n := field (s.vaRead g.ctx table 8) 0 8
    if n > 4096 || (s.loadRange g.ctx table (8 + 16 * n)).isSome then none
    else
      let bs := s.vaRead g.ctx table (8 + 16 * n)
      let l := (List.range n).map fun i => (field bs (8 + 16 * i) 4, field bs (12 + 16 * i) 2, BitVec.ofNat 64 (field bs (16 + 16 * i) 8))
      let ok := (List.range n).all fun i =>
        let node := field bs (8 + 16 * i) 4
        let off := field bs (12 + 16 * i) 2
        match g.nodes[node]? with
        | none => false
        | some x => off % 8 == 0 && off < x.payload.length && field bs (14 + 16 * i) 2 == 0 &&
            (x.kind != 1 || (off != 16 && !(128 ≤ off && off < 192)))
      if ok then some l else none

/-- What a kick reads of memory: its patch table. -/
def State.tableReads (s : State) (c table : Nat) : List (Nat × Nat) :=
  if table = 0 || table % 64 ≠ 0 || (s.loadRange c table 8).isSome then []
  else
    let n := field (s.vaRead c table 8) 0 8
    if n > 4096 || (s.loadRange c table (8 + 16 * n)).isSome then [(table, 8)] else [(table, 8 + 16 * n)]

/-- GKICK (R373, R374): it waits while its patch table is held up (R283, R304, R352). -/
def State.graphKick (s : State) (slot : Nat) (table : Word) : State :=
  match s.graph? slot with
    | none => s
    | some g =>
      if !s.hostOpen then s
      else if g.kicks.length ≥ 4 then s.modGraph slot fun g => { g with kickReg := 0xFE }
      else if s.anyBlocked g.ctx (s.tableReads g.ctx table.toNat) then s.later (.graphKick slot table)
      else
        let s := s.readsAll g.ctx (s.tableReads g.ctx table.toNat)
        match s.patchTable g table.toNat with
        | none => s.modGraph slot fun g => { g with kickReg := 0xFF }
        | some ps => s.modGraph slot fun g => { g with kickReg := 0, kicks := g.kicks ++ [{ patches := ps, applied := false, node := 0 }] }

def execGraphKick (slot : Nat) (table : Word) (s : State) : Out := .next (s.graphKick slot table)

/-- Replace 8 bytes of a payload. -/
def patch8 (bs : List Byte) (off : Nat) (x : Word) : List Byte := bs.take off ++ leBytes 8 x.toNat ++ bs.drop (off + 8)

/-- Append a kick's nodes from index i on: as many as find room. -/
def State.appendNodes (s : State) (slot : Nat) : List (GNode × Nat) → Nat × State
  | [] => (0, s)
  | (n, i) :: rest =>
    match s.appendEntry n.hq 0 (some (slot, i)) with
    | (none, _) => (0, s)
    | (some _, s) =>
      let (k, s) := (s.modNode slot i (fun x => { x with running := true })).appendNodes slot rest
      (k + 1, s)

/-- A replay begins: its patches are applied and the bits that its nodes set are cleared. -/
def State.beginKick (s : State) (g : Graph) (k : Kick) : State :=
  if k.applied then s
  else
    let s := k.patches.foldl (fun (s : State) p => s.modNode g.slot p.1 fun n => { n with payload := patch8 n.payload p.2.1 p.2.2 }) s
    s.clearBits g.ctx (g.nodes.foldl (fun m n => m ||| n.set) 0)

/-- The nodes of a graph. -/
def State.nodesOf (s : State) (slot : Nat) : List GNode := match s.graph? slot with | some g => g.nodes | none => []

/-- A replay appends its nodes in ascending order, as far as the queues have room. -/
def State.feedKick (s : State) (slot : Nat) (k : Kick) (ks : List Kick) : State :=
  let (n, s') := s.appendNodes slot (((s.nodesOf slot).zipIdx).drop k.node)
  if k.node + n ≥ (s.nodesOf slot).length then s'.modGraph slot fun g => { g with kicks := ks }
  else s'.modGraph slot fun g => { g with kicks := { k with applied := true, node := k.node + n } :: ks }

/-- A kick goes on (R374). -/
def execGraphKickProceed (slot : Nat) (s : State) : Out :=
  .next (match s.graph? slot with
    | none => s
    | some g =>
      match g.kicks with
      | [] => s
      | k :: ks => if !k.applied && g.nodes.any (fun n => n.running) then s else (s.beginKick g k).feedKick slot k ks)

end Sys2Proof.Machine
end

