-- ==== Sys2Proof/Machine/Narrow.lean ====
section
/-! DEFINITION. Narrow formats and residue words (R173 to R190). -/

namespace Sys2Proof.Machine

/-- The float format of a narrow type; I8 and I4 have none. -/
def narrowFmt : NTy → Option Fmt
  | .e5m2 => some .e5m2 | .e4m3 => some .e4m3 | .e3m2 => some .e3m2 | .e2m3 => some .e2m3 | .e2m1 => some .e2m1
  | _ => none

/-- Bits of an element (R173). -/
def narrowBits : NTy → Nat
  | .e3m2 | .e2m3 => 6
  | .e2m1 | .i4 => 4
  | _ => 8

/-- Elements of a register (R174). -/
def narrowPer (t : NTy) : Nat := if narrowBits t = 4 then 8 else 4

/-- The grid exponent g (R175). -/
def gridOf : NTy → Nat
  | .e2m1 => 1 | .e2m3 => 3 | .e3m2 => 4 | _ => 0

/-- The datum of a narrow pattern. -/
def narrowRead (t : NTy) (x : Nat) : FV :=
  match narrowFmt t with
  | some f => f.read x
  | none => let n := sgn (narrowBits t) x; if n = 0 then .zero false else .fin (.ofInt n)

/-- n = value · 2^g of an element of the residue path (R175). -/
def narrowInt (t : NTy) (x : Nat) : Int :=
  match narrowRead t x with
  | .fin v => let y := v.scale (gridOf t); if 0 ≤ y.e then y.m * 2 ^ y.e.toNat else y.m / ((2 ^ (-y.e).toNat : Nat) : Int)
  | _ => 0

/-- Element j of packed registers (R174). -/
def packedAt (t : NTy) (regs : List Nat) (j : Nat) : Nat :=
  bitsOf (regs.getD (j / narrowPer t) 0) (j % narrowPer t * narrowBits t) (narrowBits t)

/-- n registers packed from elements (R174). -/
def packInto (t : NTy) (n : Nat) (xs : List Nat) : List Nat :=
  (List.range n).map fun r =>
    (List.range (narrowPer t)).foldl (fun acc k => acc + xs.getD (r * narrowPer t + k) 0 * 2 ^ (k * narrowBits t)) 0

/-- The largest finite value of a target (R173). -/
def narrowMax (t : NTy) : Dy :=
  match narrowFmt t with
  | some f => (f.read f.maxPat).dy
  | none => .ofInt (2 ^ (narrowBits t - 1) - 1)

/-- A signed integer element's bits, or a float element's pattern with its sign. -/
def narrowSigned (t : NTy) (neg : Bool) (pat : Nat) : Nat :=
  match narrowFmt t with
  | some f => f.signed neg pat
  | none => wrapTo (narrowBits t) (if neg then -(pat : Int) else pat)

def narrowMaxPat (t : NTy) : Nat :=
  match narrowFmt t with
  | some f => f.maxPat
  | none => 2 ^ (narrowBits t - 1) - 1

/-! ## fmt (R177 to R179) -/

/-- The values that SETFMT refuses (R178). -/
def fmtBad (x : Word) : Bool :=
  bitsOf x.toNat 16 48 != 0 || bitsOf x.toNat 8 3 ≥ 5 || bitsOf x.toNat 0 4 ≥ 0xA || bitsOf x.toNat 4 4 ≥ 0xA

def execSetfmt (g : Guard) (a : Opd) (s : State) : Out :=
  .next (s.perSlice g (lenOf [a]) fun e sl =>
    let x := svalOf e sl a
    if fmtBad x then .error (Ev.own.per sl g) else .ok { sl with fmt := x.setWidth 16 })

def execGetfmt (g : Guard) (d : Opd) (s : State) : Out :=
  .next (s.perSlice g 1 fun _ sl => .ok (sl.setS g d (sl.fmt.setWidth 64)))

def fmtSat (f : BitVec 16) : Bool := f.getLsbD 11
def fmtRnd (f : BitVec 16) : Rnd := (Rnd.ofCode (bitsOf f.toNat 12 2)).getD .rne

/-! ## Quantisation (R180 to R182) -/

/-- Register base + i of a lane register operand. -/
def regOf (o : Opd) (i : Nat) : Nat :=
  match o with
  | .v n => n.toNat + i
  | _ => i

/-- The eight elements of the wide side in a lane. -/
def wideElems (sl : Slice) (l : Nat) (src : Ty) (a : Opd) : List Nat :=
  (List.range 8).map fun j => (sl.rv (regOf a j) l).toNat % 2 ^ src.width

/-- The scale code of a group whose largest finite magnitude is amax (R181). -/
def scaleCode (t : NTy) (amax : Dy) : Nat :=
  if amax.isZero then 0
  else
    let m := narrowMax t
    let k := amax.log2 - m.log2
    let k := if Dy.lt (m.scale k) amax then k + 1 else k
    (127 + k).toNat

/-- One element of QCVT (R181). -/
def qcvtElem (t : NTy) (src : Ty) (mode : Rnd) (sat : Bool) (amax : Dy) (c : Nat) (x : Nat) : Nat × Flags :=
  match (fmtOf src).read x with
  | .nan _ => (match narrowFmt t with | some f => f.nan | none => 0, Flags.nv)
  | .inf n =>
    match t with
    | .e5m2 => if sat then (narrowSigned t n 0x7B, Flags.nv) else (narrowSigned t n 0x7C, 0)
    | .e4m3 => if sat then (narrowSigned t n 0x7E, Flags.nv) else (0x7F, Flags.nv)
    | _ => (narrowSigned t n (narrowMaxPat t), Flags.nv)
  | .zero n => if amax.isZero then (0, 0) else (narrowSigned t n 0, 0)
  | .fin v =>
    let y := v.scale (127 - c)
    match narrowFmt t with
    | some f => let r := f.round mode y; (r.bits, r.flags)
    | none => let n := toInteger mode y; (wrapTo (narrowBits t) n, Flags.when_ (!(Dy.ofInt n).eq y) Flags.nx)

/-- The largest finite magnitude of a group over the lanes that take part. -/
def groupMax (sl : Slice) (m : Mask) (src : Ty) (a : Opd) : Dy :=
  ((lanes m).flatMap fun l => wideElems sl l src a).foldl (fun acc x =>
    match (fmtOf src).read x with | .fin v => if Dy.lt acc v.abs then v.abs else acc | _ => acc) .zero

/-- QCVT in one lane: the two packed registers and the scale code. -/
def qcvtLane (sl : Slice) (g : Guard) (t : NTy) (src : Ty) (a : Opd) (l : Nat) : List Nat × Flags :=
  let amax := groupMax sl (sl.part_ g) src a
  let c := scaleCode t amax
  let q := (wideElems sl l src a).map (qcvtElem t src (fmtRnd sl.fmt) (fmtSat sl.fmt) amax c)
  (packInto t 2 (q.map (fun x => x.1)) ++ [c], q.foldl (fun f x => f ||| x.2) 0)

def execQcvt (g : Guard) (ty : NTy) (src : Ty) (d a : Opd) (s : State) : Out :=
  .next (s.perSlice g 1 fun _ sl => .ok (sl.setFloats g d 32 fun l => qcvtLane sl g ty src a l))

/-- One element of QDEC (R182). -/
def qdecElem (t : NTy) (dst : Ty) (c x : Nat) : Nat × Flags :=
  let f := fmtOf dst
  if c = 0xFF then (f.nan, Flags.nv)
  else
    match narrowRead t x with
    | .nan s => (f.nan, Flags.when_ s Flags.nv)
    | .fin v => let r := f.round .rne (v.scale ((c : Int) - 127)); (r.bits, r.flags)
    | y => f.finish .rne y

def qdecLane (sl : Slice) (t : NTy) (dst : Ty) (a : Opd) (l : Nat) : List Nat × Flags :=
  let regs := [(sl.rv (regOf a 0) l).toNat, (sl.rv (regOf a 1) l).toNat]
  let c := bitsOf (sl.rv (regOf a 2) l).toNat 0 8
  let q := (List.range 8).map fun j => qdecElem t dst c (packedAt t regs j)
  (q.map (fun x => x.1), q.foldl (fun f x => f ||| x.2) 0)

def execQdec (g : Guard) (ty : NTy) (dst : Ty) (d a : Opd) (s : State) : Out :=
  .next (s.perSlice g 1 fun _ sl => .ok (sl.setFloats g d dst.width fun l => qdecLane sl ty dst a l))

/-! ## Residue instructions (R185 to R188) -/

def rencVal (t : NTy) (a b : Nat) : LWord := resOf (narrowInt t (packedAt t [a] (b % narrowPer t)))

def execRenc (g : Guard) (ty : NTy) (d a b : Opd) (s : State) : Out :=
  .next (s.perSlice g (lenOf [b]) fun e sl => .ok (sl.setInt g d false 32 fun l =>
    (rencVal ty (valOf e sl l 32 a) (valOf e sl l 32 b)).toNat))

/-- The dot product of two packed registers. -/
def packedDot (t : NTy) (a b : Nat) : Int :=
  (List.range (narrowPer t)).foldl (fun acc j => acc + narrowInt t (packedAt t [a] j) * narrowInt t (packedAt t [b] j)) 0

def execRmac (g : Guard) (ty : NTy) (d a b c : Opd) (s : State) : Out :=
  .next (s.perSlice g 1 fun e sl => .ok (sl.setInt g d false 32 fun l =>
    (resAdd (BitVec.ofNat 32 (valOf e sl l 32 c)) (packedDot ty (valOf e sl l 32 a) (valOf e sl l 32 b))).toNat))

/-- RDEC (R188). An exponent beyond ±400 rounds as ±400 does, |Crt| being below 2^31. -/
def rdecVal (dst : Ty) (a b : Nat) : Nat × Flags :=
  let n := crt (BitVec.ofNat 32 a)
  if dst = .f32 then
    let e := max (-400) (min 400 (sgn 32 b))
    if n = 0 then (0, 0) else let r := Fmt.f32.round .rne ⟨n, e⟩; (r.bits, r.flags)
  else (wrapTo 32 n, 0)

def execRdec (g : Guard) (dst : Ty) (d a b : Opd) (s : State) : Out :=
  .next (s.perSlice g (lenOf [b]) fun e sl => .ok (sl.setFloat g d 32 fun l =>
    rdecVal dst (valOf e sl l 32 a) (valOf e sl l 32 b)))

/-! ## Sparsity (R189, R190) -/

/-- The rank of an element's magnitude: 0 for a zero, a NaN above every number. -/
def magnitude (t : NTy) (x : Nat) : Nat :=
  match narrowRead t x with
  | .nan _ => 2 ^ 8
  | .zero _ => 0
  | y => match narrowFmt t with
    | some f => x % 2 ^ (f.width - 1)
    | none => y.dy.m.natAbs

/-- The positions of a 12-group that SPACK keeps: the n of largest magnitude, ties to the lower position. -/
def keptOf (n : Nat) (ms : List Nat) : List Nat :=
  (List.range 12).filter fun i =>
    ((List.range 12).filter (fun j => ms.getD i 0 < ms.getD j 0 || (ms.getD i 0 == ms.getD j 0 && j < i))).length < n

def nzCount : NzOp → Nat
  | .nz3 => 3 | .nz4 => 4 | .nz6 => 6

def spackVal (t : NTy) (n : Nat) (regs : List Nat) : List Nat × Flags :=
  let xs := (List.range 12).map (packedAt t regs)
  let ms := xs.map (magnitude t)
  let ks := keptOf n ms
  (packInto t 2 (ks.map (fun k => xs.getD k 0)) ++ [(ks.zipIdx).foldl (fun acc k => acc + k.1 * 16 ^ k.2) 0],
    Flags.when_ ((ms.filter (fun m => m != 0)).length > n) Flags.nx)

def execSpack (g : Guard) (ty : NTy) (n : NzOp) (d a : Opd) (s : State) : Out :=
  .next (s.perSlice g 1 fun _ sl => .ok (sl.setFloats g d 32 fun l =>
    spackVal ty (nzCount n) ((List.range 3).map fun i => (sl.rv (regOf a i) l).toNat)))

end Sys2Proof.Machine
end

