-- ==== Sys2Proof/Machine/Matrix.lean ====
section
/-! DEFINITION. Accumulator tiles, tile tasks and barrier objects (R192 to R214). -/

namespace Sys2Proof.Machine

/-! ## Operand formats -/

/-- A residue-path format of fmt's AFMT and BFMT codes (R177). -/
def resFmt : Nat → Option NTy
  | 3 => some .e3m2 | 4 => some .e2m3 | 5 => some .e2m1 | 6 => some .i8 | 7 => some .i4
  | _ => none

/-- An FP-path format. -/
def fpFmt : Nat → Option Fmt
  | 1 => some .e5m2 | 2 => some .e4m3 | 8 => some .f16 | 9 => some .bf16
  | _ => none

/-- Bits of an element of a format code. -/
def codeBits : Nat → Nat
  | 3 | 4 => 6
  | 5 | 7 => 4
  | 8 | 9 => 16
  | _ => 8

/-- The largest |n| of a residue format (R175). -/
def maxGrid : NTy → Nat
  | .i8 => 128 | .i4 => 8 | .e2m1 => 12 | .e2m3 => 60 | .e3m2 => 448
  | _ => 0

/-- N of SPARN (R177), 12 when dense. -/
def keptN : Nat → Nat
  | 1 => 6 | 2 => 4 | 3 => 3
  | _ => 12

/-! ## The record (R195) -/

/-- A record's fields from its 64 bytes and the fmt of the push. -/
def taskOf (bs : List Byte) (fmt : Nat) : TaskRec :=
  let u (o n : Nat) : Nat := field bs o n
  { amode := u 1 1, acc := u 2 1, scl := u 3 1 % 2 = 1, obj := bitsOf (u 3 1) 1 3, useobj := bitsOf (u 3 1) 4 1 = 1, k := u 4 4
    aoff := u 8 4, astr := u 12 4, boff := u 16 4, bstr := u 20 4, moff := u 24 4, soff := u 28 4, gbase := u 32 8
    k0 := u 40 4, p0 := u 44 4, h := u 48 2, w := u 50 2, ch := u 52 2, ow := u 54 2, kh := u 56 1, kw := u 57 1
    sh := u 58 1 / 16, sw := u 58 1 % 16, dh := u 59 1 / 16, dw := u 59 1 % 16, ph := u 60 1, pw := u 61 1, seq := u 62 2
    afmt := bitsOf fmt 0 4, bfmt := bitsOf fmt 4 4, sparn := bitsOf fmt 14 2 }

def TaskRec.fp (t : TaskRec) : Bool := (fpFmt t.afmt).isSome
def TaskRec.aBits (t : TaskRec) : Nat := codeBits t.afmt
def TaskRec.bBits (t : TaskRec) : Nat := codeBits t.bfmt

/-- Tiles of a task: one on the residue path, a pair on the FP path (R192); one for the clearing that a deterministic MZERO
leaves among the tasks, whose K is 0. -/
def TaskRec.tiles (t : TaskRec) : List Nat := if t.k ≠ 0 && t.fp then [t.acc, t.acc + 1] else [t.acc]

/-- gA + gB (R193). -/
def TaskRec.grid (t : TaskRec) : Nat :=
  match resFmt t.afmt, resFmt t.bfmt with
  | some a, some b => gridOf a + gridOf b
  | _, _ => 0

/-- Check 1 of R197. A K outside the range of R195, which names no fate for it, fails this check too (log entry 75). -/
def TaskRec.fieldsOk (t : TaskRec) (kind resv : Nat) : Bool :=
  let unfold0 := t.h = 0 && t.w = 0 && t.ch = 0 && t.ow = 0 && t.kh = 0 && t.kw = 0 && t.sh = 0 && t.sw = 0 && t.dh = 0 &&
    t.dw = 0 && t.ph = 0 && t.pw = 0 && t.p0 = 0
  kind = 1 && t.amode ≤ 2 && resv = 0 && 1 ≤ t.k && t.k ≤ 16777215 &&
  (match t.amode with
    | 0 => t.gbase = 0 && t.k0 = 0 && unfold0
    | 1 => t.astr = 0 && t.gbase = 0 && 1 ≤ t.ow && 1 ≤ t.kh && 1 ≤ t.kw && 1 ≤ t.sh && 1 ≤ t.sw && 1 ≤ t.dh && 1 ≤ t.dw
    | _ => unfold0) &&
  (t.sparn ≠ 0 || t.moff = 0) && (t.scl || t.soff = 0) && (t.useobj || t.seq = 0)

/-- Element (y, x) of row i at K position k in the unfold space (R199): none outside the tensor. -/
def TaskRec.unfoldAt (t : TaskRec) (i k : Nat) : Option Nat :=
  let p := t.p0 + i
  let k' := t.k0 + k
  let tap := k' / t.ch
  let y : Int := (p / t.ow * t.sh + tap / t.kw * t.dh : Nat) - (t.ph : Int)
  let x : Int := (p % t.ow * t.sw + tap % t.kw * t.dw : Nat) - (t.pw : Int)
  if 0 ≤ y && y < t.h && 0 ≤ x && x < t.w then some ((y.toNat * t.w + x.toNat) * t.ch + k' % t.ch) else none

/-- Bytes that a run of e elements of w bits takes (R198). -/
def runBytes (e w : Nat) : Nat := (e * w + 7) / 8

/-- The end of the scratchpad bytes that the task can read, offset by offset (check 7). -/
def TaskRec.ends (t : TaskRec) : List Nat :=
  let a := t.aBits
  (match t.amode with
    | 0 =>
      let n := if t.sparn = 0 then t.k else t.k / 12 * keptN t.sparn
      [t.aoff + 15 * t.astr + runBytes n a] ++ (if t.sparn = 0 then [] else [t.moff + 4 * (16 * (t.k / 12))])
    | 1 =>
      -- the last channel that a tap's positions reach
      let last (i tap : Nat) : List Nat :=
        let k := min ((tap + 1) * t.ch) (t.k0 + t.k) - 1 - t.k0
        match t.unfoldAt i k with
        | some e => [t.aoff + runBytes (e + 1) a]
        | none => []
      (List.range 16).flatMap fun i =>
        (List.range ((t.k0 + t.k - 1) / t.ch + 1 - t.k0 / t.ch)).flatMap fun n => last i (t.k0 / t.ch + n)
    | _ => [t.aoff + 64]) ++
  [t.boff + (t.k - 1) * t.bstr + runBytes 16 t.bBits] ++ (if t.scl then [t.soff + 32] else [])

/-- Checks 1 to 7 of R197, in order. -/
def TaskRec.check (t : TaskRec) (kind resv : Nat) (r : LaunchRec) : Option Ev :=
  let bad (e : Ev) (n : Nat) : Option Ev := some { e with check := n }
  let res := (resFmt t.afmt).isSome && (resFmt t.bfmt).isSome
  let fp := (fpFmt t.afmt).isSome && (fpFmt t.bfmt).isSome
  if !t.fieldsOk kind resv then bad Ev.illop 1
  else if !(res || fp) then bad Ev.illop 2
  else if !(t.sparn = 0 || (t.amode = 0 && (res || t.sparn = 1))) || (res && t.scl) then bad Ev.illop 3
  else if (t.amode ≠ 0 && !(t.aBits = 8 || t.aBits = 16)) || (t.sparn ≠ 0 && t.k % 12 ≠ 0) ||
      (t.amode = 1 && t.k0 + t.k > t.kh * t.kw * t.ch) then bad Ev.illop 4
  else if (if fp then t.acc % 2 ≠ 0 || t.acc + 1 ≥ r.accn else t.acc ≥ r.accn) then bad Ev.illop 5
  else if t.aoff % 4 ≠ 0 || t.astr % 4 ≠ 0 || t.boff % 4 ≠ 0 || t.bstr % 4 ≠ 0 || t.moff % 4 ≠ 0 || t.soff % 32 ≠ 0 ||
      (t.amode = 2 && t.gbase % (t.aBits / 8) ≠ 0) then bad Ev.align 6
  else if t.ends.any (fun e => e > r.slotBytes) then bad { Ev.perm with detail := 0x03 } 7
  else none

/-! ## Accumulator state -/

def Share.modTile (sh : Share) (t : Nat) (f : Tile → Tile) : Share := { sh with tiles := sh.tiles.modify t f }
def Share.obj (sh : Share) (k : Nat) : BarObj := sh.objs.getD k .reset
def Share.modObj (sh : Share) (k : Nat) (f : BarObj → BarObj) : Share := { sh with objs := sh.objs.modify k f }

/-- Checks 8 to 10 of R197. -/
def TaskRec.stateCheck (t : TaskRec) (det : Bool) (sl : Nat) (sh : Share) : Option Ev :=
  let x := sh.tile t.acc
  let y := sh.tile (t.acc + 1)
  let pathOk := if t.fp then (x.path == .empty && y.path == .empty) || (x.path == .fphi && y.path == .fplo)
    else x.path == .empty || (x.path == .res && x.g == t.grid)
  let o := sh.obj t.obj
  let objOk := if t.useobj then o.act && o.tile == t.acc && decide (t.seq < o.cnt)
    else !sh.objs.any (fun o => o.act && o.tile == t.acc)
  let mine (z : Tile) : Bool := match z.owner with | some n => n == sl | none => true
  if !pathOk then some { Ev.illop with check := 8 }
  else if !objOk then some { Ev.illop with check := 9 }
  else if det && !t.useobj && !(mine x && (!t.fp || mine y)) then some { Ev.detx with check := 10 }
  else none

/-- Tasks of a share that touch some of these tiles. -/
def State.tasksOn (s : State) (blk share : Nat) (ts : List Nat) : List Task :=
  s.tasks.filter fun u => u.block == blk && u.share == share && u.rcd.tiles.any (fun t => ts.contains t)

/-! ## Barrier objects (R207) -/

def BarObj.filled (o : BarObj) (l : List (Nat × Option Nat)) : Bool := decide (o.cnt ≤ l.length)

/-- Phases that are complete end (R207): every position filled and every task in it applied. -/
def BarObj.advance (done : Nat → Bool) : Nat → BarObj → BarObj
  | 0, o => o
  | n + 1, o =>
    if o.act && o.filled o.cur && o.cur.all (fun p => match p.2 with | some t => done t | none => true) then
      BarObj.advance done n { o with phase := o.phase + 1, total := o.total + 1, cur := o.nxt, nxt := [] }
    else o

/-- Fill a position: in the current phase, or where it is filled there in the next; none where it is filled in both. -/
def BarObj.fill (o : BarObj) (pos : Nat) (t : Option Nat) : Option (BarObj × Nat) :=
  if !o.cur.any (fun p => p.1 == pos) then some ({ o with cur := o.cur ++ [(pos, t)] }, o.total)
  else if !o.nxt.any (fun p => p.1 == pos) then some ({ o with nxt := o.nxt ++ [(pos, t)] }, o.total + 1)
  else none

/-- The objects of a share after tasks have been applied or positions filled. -/
def State.settleObjs (s : State) (blk share : Nat) : State :=
  s.modShare blk share fun sh =>
    { sh with objs := sh.objs.map fun o => o.advance (fun t => !s.tasks.any (fun u => u.id == t)) 2 }

/-- Clearings whose tile's earlier tasks have completed are done (R209, R212). -/
def State.settleZeros : Nat → State → State
  | 0, s => s
  | n + 1, s =>
    match s.tasks.find? fun z =>
        z.rcd.k == 0 && !(s.tasksOn z.block z.share z.rcd.tiles).any (fun u => u.id < z.id) with
    | none => s
    | some z =>
      State.settleZeros n
        { s.modShare z.block z.share (fun sh => sh.modTile z.rcd.acc (fun t => { t with words := [], bound := 0, exc := 0 })) with
          tasks := s.tasks.filter (fun u => u.id != z.id) }

def State.settleTasks (s : State) (blk share : Nat) : State := (s.settleZeros s.tasks.length).settleObjs blk share

/-! ## Pushes (R196, R197, R205) -/

/-- Checks 1 to 7 on a push's scalars. -/
def pushCheck (r : LaunchRec) (ws : List Word) (fmt : Nat) : Option Ev :=
  let bs := scalarBytes ws
  (taskOf bs fmt).check (field bs 0 1) (field bs 3 1 / 32) r

/-- What a push makes of its tile's state (R197). -/
def TaskRec.claim (t : TaskRec) (n : Nat) (sh : Share) : Share :=
  let set (z : Tile) (p : TPath) : Tile := { z with path := p, g := if z.path == .empty then t.grid else z.g, owner := some n }
  let sh := sh.modTile t.acc (fun z => set z (if t.fp then .fphi else .res))
  if t.fp then sh.modTile (t.acc + 1) (fun z => set z .fplo) else sh

/-- A push that waits for room has its tile's state and keeps tiles and object as its checks found them, so that no check fails any more
once commands of its gang have gone (R6). -/
def State.holdRoom (s : State) (b : Block) (sl : Slice) (t : TaskRec) : State :=
  (s.modShare b.uid sl.share (t.claim sl.num)).modSlice b.uid sl.num fun y =>
    { y with wait := .room t.tiles (if t.useobj then some t.obj else none) }

/-- Accept a push (R197): checks 8 to 10, room in the queue and in the object, then the tile's state and the numbers. -/
def sendPush : Sender := fun s b sl id args =>
  let r := s.lrOf b
  let t := taskOf (scalarBytes (args.take 8)) (args.getD 8 0).toNat
  let sh := b.share sl.share
  match t.stateCheck r.det sl.num sh with
  | some e => .bad e
  | none =>
    if (s.tasks.filter (fun u => u.core == sh.core && u.rcd.k != 0)).length ≥ Config.taskQueue then .waits (s.holdRoom b sl t)
    else
      match if t.useobj then (match (sh.obj t.obj).fill t.seq (some id) with | some o => some (some o) | none => none) else some none with
      | none => .waits (s.holdRoom b sl t)
      | some o =>
        let (n, s) := s.acceptTl b.uid sl.share 0
        let s := s.modShare b.uid sl.share fun sh =>
          let sh := t.claim sl.num sh
          match o with | some x => sh.modObj t.obj (fun _ => x.1) | none => sh
        let task : Task :=
          { id, core := sh.core, block := b.uid, share := sl.share, slice := sl.num, at_ := sl.pc, num := n
            phase := match o with | some x => x.2 | none => 0
            rcd := t, running := false, chunks := 0, counts := { sclc := false, metac := 0, ofc := 0, nvc := 0, nxc := 0 }
            hold := none }
        .done { s with tasks := s.tasks ++ [task] } .none

def execQpostTask (g : Guard) (a : Opd) (s : State) : Out :=
  .next (s.perGang 1 false fun b l =>
    s.cmdGang g .m (.qpostTask g a) none (fun sl => pushCheck (s.lrOf b) (eightOf sl a) sl.fmt.toNat)
      (fun sl => eightOf sl a ++ [sl.fmt.setWidth 64]) sendPush b l)

/-! ## Engines (R198 to R205) -/

/-- Where an element of A lies. -/
inductive ASrc where
  | zero
  | scr (off k : Nat)
  | mem (va size : Nat)
  deriving DecidableEq, Repr

/-- A metadata word that is valid (R199): strictly ascending indices within 0..11, zero above. -/
def metaOk (n w : Nat) : Bool :=
  let ix := (List.range n).map fun j => bitsOf w (4 * j) 4
  w < 2 ^ (4 * n) && ix.all (fun i => i ≤ 11) && (List.range (n - 1)).all fun j => ix.getD j 0 < ix.getD (j + 1) 0

/-- The metadata word of group gr of row i. -/
def TaskRec.metaWord (t : TaskRec) (sh : Share) (i gr : Nat) : Nat := leNat (sh.read (t.moff + 4 * (i * (t.k / 12) + gr)) 4)

/-- Element (i, k) of A (R199). -/
def TaskRec.aSrc (t : TaskRec) (sh : Share) (i k : Nat) : ASrc :=
  match t.amode with
  | 0 =>
    if t.sparn = 0 then .scr (t.aoff + i * t.astr) k
    else
      let n := keptN t.sparn
      let w := t.metaWord sh i (k / 12)
      if metaOk n w then
        match (List.range n).find? (fun j => bitsOf w (4 * j) 4 == k % 12) with
        | some j => .scr (t.aoff + i * t.astr) (k / 12 * n + j)
        | none => .zero
      else .zero
  | 1 => match t.unfoldAt i k with | some e => .scr t.aoff e | none => .zero
  | _ =>
    let idx := leNat (sh.read (t.aoff + 4 * i) 4)
    if idx = 0xFFFFFFFF then .zero
    else .mem ((t.gbase + idx * t.astr + (t.k0 + k) * (t.aBits / 8)) % 2 ^ 64) (t.aBits / 8)

/-- Element k of a run of w-bit elements at an offset (R198). -/
def Share.elem (sh : Share) (off k w : Nat) : Nat :=
  let o := off + k * w / 8
  leNat (sh.read o (if k * w % 8 + w ≤ 8 then 1 else 2)) / 2 ^ (k * w % 8) % 2 ^ w

/-- The K positions of the chunk that a task runs next. -/
def Task.chunk (t : Task) : List Nat :=
  let lo := Config.chunkK * t.chunks
  (List.range (min Config.chunkK (t.rcd.k - lo))).map (fun i => lo + i)

/-- The slice that pushed a task. -/
def State.taskSlice (s : State) (t : Task) : Option (Block × Slice) :=
  (s.block? t.block).bind fun b => (b.slice? t.slice).map fun sl => (b, sl)

/-- The gathered accesses of a chunk (R200). -/
def State.gathers (t : Task) (b : Block) : List Acc :=
  (List.range 16).flatMap fun i => t.chunk.filterMap fun k =>
    match t.rcd.aSrc (b.share t.share) i k with
    | .mem va size =>
      some { slice := t.slice, mask := 0, lane := 0, pos := 0, ea := some va, so := none, size, align := size, r := true, w := false }
    | _ => none

/-- Scratchpad bytes that a chunk reads. -/
def Task.reads (t : Task) (sh : Share) : List Nat :=
  let r := t.rcd
  let el (off k w : Nat) : List Nat := (List.range (if k * w % 8 + w ≤ 8 then 1 else 2)).map (fun i => off + k * w / 8 + i)
  let rows := (List.range 16).flatMap fun i => t.chunk.flatMap fun k =>
    (match r.aSrc sh i k with | .scr o e => el o e r.aBits | _ => []) ++
    (if r.sparn ≠ 0 then (List.range 4).map (fun j => r.moff + 4 * (i * (r.k / 12) + k / 12) + j) else [])
  let cols := t.chunk.flatMap fun k => (List.range 16).flatMap fun j => el (r.boff + k * r.bstr) j r.bBits
  rows ++ cols ++ (if r.amode = 2 then (List.range 64).map (fun i => r.aoff + i) else []) ++
    (if r.scl then (List.range 32).map (fun i => r.soff + i) else [])

/-- What the engine runs into in a task's next chunk (R200): an access that fails R226, or poisoned operands. -/
def State.taskEv (s : State) (t : Task) : Option Ev :=
  match s.taskSlice t with
  | none => none
  | some (b, _) =>
    match s.checkAccs b (State.gathers t b) (fun _ => true) with
    | some e => some e
    | none =>
      let pa := scratchPa (s.lrOf b) (b.share t.share) 0
      if (t.reads (b.share t.share)).any (fun o => s.mem.poison.contains (opmKey (pa + o))) then some Ev.memue else none

/-- A slice is halfway through an instruction that acts once: an APPEND whose request is on its way, or a QPOST that has claimed its slot. -/
def Wait.halfway : Wait → Bool
  | .append _ => true
  | .queue .. => true
  | _ => false

/-- A task that meets PERM while its slice's gang is in a handler waits at its chunk until the handler is left (log entry 73): the engine
has met it, not the slice that handles, and only PERM without a handler ends a context (R200). It waits for an APPEND or a QPOST of the
gang too, which a handler would make a second time (R280). -/
def State.taskHeld (s : State) (t : Task) : Bool :=
  match s.taskSlice t, s.taskEv t with
  | some (b, x), some e => e.code = 0x05 && (b.gangSlices x.gang).any (fun y => y.handling || y.wait.halfway)
  | _, _ => false

/-- The value of an element of A. -/
def State.aVal (s : State) (b : Block) (sl : Slice) (t : TaskRec) (sh : Share) (i k : Nat) : Nat :=
  match t.aSrc sh i k with
  | .zero => 0
  | .scr o e => sh.elem o e t.aBits
  | .mem va size =>
    match s.phys? (s.lrOf b).ctx va with
    | .ok p => leNat (s.readAt (some (s.observer b sl)) (s.lrOf b).ctx p size)
    | .error _ => 0

/-- A product on the FP path as F32 bits, with NVC, OFC and NXC (R203). `sc` is the sum of the scale exponents, none where a
code is 0xFF. -/
def fpProduct (fa fb : Fmt) (sc : Option Int) (a b : Nat) : Nat × Nat × Nat × Nat :=
  let x := fa.read a
  let y := fb.read b
  if x.isNan || y.isNan then (Fmt.f32.nan, if x.isSnan || y.isSnan then 1 else 0, 0, 0)
  else
    match sc with
    | none => (Fmt.f32.nan, 0, 0, 0)
    | some e =>
      match (mulX x y).1 with
      | .nan _ => (Fmt.f32.nan, 1, 0, 0)
      | .inf n => (Fmt.f32.signed n 0x7F800000, 0, 0, 0)
      | .zero n => (Fmt.f32.signed n 0, 0, 0, 0)
      | .fin v =>
        let r := Fmt.f32.round .rne (v.scale e)
        if r.flags &&& Flags.nx = 0 then (r.bits, 0, 0, 0)
        else if r.val.isNone then (r.bits, 0, 1, 0) else (r.bits, 0, 0, 1)

/-- An element of an FP pair with the counts made on the way. -/
structure FpElem where
  hi : Nat
  lo : Nat
  nvc : Nat
  ofc : Nat
  nxc : Nat
  deriving DecidableEq, Repr, Inhabited

/-- One product joins an element (R203). -/
def FpElem.step (x : FpElem) (p : Nat × Nat × Nat × Nat) : FpElem :=
  let fin (n : Nat) : Bool := match Fmt.f32.read n with | .nan _ | .inf _ => false | _ => true
  let isInf (n : Nat) : Bool := (Fmt.f32.read n).isInf
  let (hi, lo, f) := pairAdd x.hi x.lo p.1
  let both := fin x.hi && fin p.1
  { hi, lo
    nvc := x.nvc + p.2.1 + (if !both && f &&& Flags.nv ≠ 0 then 1 else 0)
    ofc := x.ofc + p.2.2.1 + (if both && (isInf hi || isInf lo) then 1 else 0)
    nxc := x.nxc + p.2.2.2 }

/-- The scale exponents of row i and column j (R176), none where a code is 0xFF. -/
def TaskRec.scaleOf (t : TaskRec) (sh : Share) (i j : Nat) : Option Int :=
  if t.scl then
    let ca := leNat (sh.read (t.soff + i) 1)
    let cb := leNat (sh.read (t.soff + 16 + j) 1)
    if ca = 0xFF || cb = 0xFF then none else some ((ca : Int) - 127 + ((cb : Int) - 127))
  else some 0

/-- A residue chunk (R202): every word of the tile. -/
def resChunk (nt mt : NTy) (a : Nat → Nat → Nat) (b : Nat → Nat → Nat) (ks : List Nat) (t : Tile) : Tile :=
  (List.range 16).foldl (fun t i =>
    let row := ks.map fun k => (k, narrowInt nt (a i k))
    (List.range 16).foldl (fun t j =>
      let w := row.foldl (fun w x => resAdd w (x.2 * narrowInt mt (b x.1 j))) (t.word (16 * i + j))
      t.setWord (16 * i + j) w) t) t

/-- An FP chunk (R203): both tiles of the pair and the counts. -/
def fpChunk (fa fb : Fmt) (sc : Nat → Nat → Option Int) (a : Nat → Nat → Nat) (b : Nat → Nat → Nat) (ks : List Nat)
    (hi lo : Tile) (c : TaskCounts) : Tile × Tile × TaskCounts :=
  (List.range 16).foldl (fun acc i =>
    let row := ks.map fun k => (k, a i k)
    (List.range 16).foldl (fun (acc : Tile × Tile × TaskCounts) j =>
      let e := 16 * i + j
      let x0 : FpElem := { hi := (acc.1.word e).toNat, lo := (acc.2.1.word e).toNat, nvc := 0, ofc := 0, nxc := 0 }
      let x := row.foldl (fun x p => x.step (fpProduct fa fb (sc i j) p.2 (b p.1 j))) x0
      (acc.1.setWord e (BitVec.ofNat 32 x.hi), acc.2.1.setWord e (BitVec.ofNat 32 x.lo),
        { acc.2.2 with nvc := acc.2.2.nvc + x.nvc, ofc := acc.2.2.ofc + x.ofc, nxc := acc.2.2.nxc + x.nxc })) acc) (hi, lo, c)

/-- Add to a saturating field of EXC (R194). -/
def excAdd (exc lo w n : Nat) : Nat :=
  let old := bitsOf exc lo w
  exc - old * 2 ^ lo + min (old + n) (2 ^ w - 1) * 2 ^ lo

/-- EXC after a task (R194). -/
def excAfter (exc : Word) (c : TaskCounts) (rangec : Nat) : Word :=
  BitVec.ofNat 64 (excAdd (excAdd (excAdd (excAdd (excAdd (excAdd exc.toNat 56 8 (if c.sclc then 1 else 0)) 48 8 c.metac) 40 8 rangec)
    32 8 c.ofc) 16 16 c.nvc) 0 16 c.nxc)

/-- The oldest tasks may run (R205, R206): what the tile and the object of a task ask. -/
def State.eligible (s : State) (t : Task) : Bool :=
  let r := t.rcd
  let mine (u : Task) : Bool := r.useobj && u.rcd.useobj && u.rcd.obj == r.obj && u.rcd.k != 0
  let free := (s.tasksOn t.block t.share r.tiles).all fun u => u.id ≥ t.id || mine u
  match s.block? t.block with
  | none => false
  | some b =>
    let o := (b.share t.share).obj r.obj
    let turn := !r.useobj || (o.total == t.phase && (List.range r.seq).all fun p =>
      match o.cur.find? (fun x => x.1 == p) with
      | some x => (match x.2 with | some u => !s.tasks.any (fun y => y.id == u) | none => true)
      | none => false)
    -- a tile instruction that waits acts before the tasks accepted after it, those of an object too (R209)
    let held := b.slices.any fun sl =>
      sl.share == t.share && (match sl.wait with | .engine tile before => r.tiles.contains tile && decide (before ≤ t.id) | _ => false)
    !t.running && t.hold.isNone && r.k != 0 && free && turn && !held

/-- Matrix engines of a core (R13, R205). -/
def enginesOf : Nat := 4

def execTileTaskStart (core : Nat) (s : State) : Out :=
  .next (if core < Config.cores && (s.tasks.filter (fun t => t.core == core && t.running)).length < enginesOf then
      match s.tasks.find? (fun t => t.core == core && s.eligible t) with
      | some t => { s with tasks := s.tasks.map (fun u => if u.id == t.id then { u with running := true } else u) }
      | none => s
    else s)

/-- A residue tile's bound grows by the products of a chunk (R202, R408). -/
def TaskRec.grown (r : TaskRec) (n bound : Nat) : Nat :=
  match resFmt r.afmt, resFmt r.bfmt with
  | some a, some b => min (2 ^ 63) (bound + n * maxGrid a * maxGrid b)
  | _, _ => bound

/-- A task has completed (R194, R202, R205): its counts join EXC and tl0 advances. -/
def State.taskDone (s : State) (t : Task) : State :=
  let r := t.rcd
  let s := s.modShare t.block t.share fun sh => sh.modTile r.acc fun z =>
    { z with exc := excAfter z.exc t.counts (if !r.fp && z.bound > 2144338943 then 1 else 0) }
  let s := { s with tasks := s.tasks.filter (fun u => u.id != t.id) }
  (s.completeTl t.block t.share 0 t.num).settleTasks t.block t.share

/-- An engine finishes a chunk: its gathered loads leave what loads of the pushing slice leave (R200, R242, R328, R375), the tile words and
the private counts change, and after the last chunk the task completes. -/
def State.chunkDone (s : State) (t : Task) (b : Block) (sl : Slice) : State :=
  let r := t.rcd
  let sh := b.share t.share
  let ks := t.chunk
  let a := s.aVal b sl r sh
  let bv (k j : Nat) : Nat := sh.elem (r.boff + k * r.bstr) j r.bBits
  let badMeta := if r.sparn = 0 then 0
    else ((List.range 16).map fun i => ((ks.filter (fun k => k % 12 = 0)).filter fun k =>
      !metaOk (keptN r.sparn) (r.metaWord sh i (k / 12))).length).foldl (· + ·) 0
  let c := { t.counts with metac := t.counts.metac + badMeta }
  let accs := State.gathers t b
  let s := s.afterLoads b false [sl] accs
  let (s, c) :=
    match resFmt r.afmt, resFmt r.bfmt, fpFmt r.afmt, fpFmt r.bfmt with
    | some na, some nb, _, _ => 
      (s.modShare t.block t.share (fun sh => sh.modTile r.acc fun z =>
        { resChunk na nb a bv ks z with bound := r.grown ks.length z.bound }), c)
    | _, _, some fa, some fb =>
      let sc := r.scaleOf sh
      let bad := r.scl && (List.range 16).any fun i => (sc i i).isNone
      let (hi, lo, c) := fpChunk fa fb sc a bv ks (sh.tile r.acc) (sh.tile (r.acc + 1)) { c with sclc := c.sclc || bad }
      (s.modShare t.block t.share (fun sh => (sh.modTile r.acc (fun _ => hi)).modTile (r.acc + 1) (fun _ => lo)), c)
    | _, _, _, _ => (s, c)
  let t := { t with chunks := t.chunks + 1, counts := c }
  if Config.chunkK * t.chunks ≥ r.k then s.taskDone t
  else { s with tasks := s.tasks.map (fun u => if u.id == t.id then t else u) }

/-- The gathered pages of a task are not under migration nor being evicted. -/
def State.taskFree (s : State) (t : Task) (b : Block) : Bool := !s.held_ (s.lrOf b).ctx (State.gathers t b)

def execTileChunkEnd (task : Nat) (s : State) : Out :=
  .next (match s.tasks.find? (fun t => t.id == task) with
    | none => s
    | some t =>
      match s.taskSlice t with
      | none => s
      | some (b, sl) => if t.running && t.hold.isNone && (s.taskEv t).isNone && s.taskFree t b then s.chunkDone t b sl else s)

/-! ## Tile instructions (R209 to R211) -/

/-- The number from which the tasks of a tile instruction's tiles no longer hold it. -/
def State.tileBefore (s : State) (x : Slice) : Nat := match x.wait with | .engine _ n => n | _ => s.nextId

/-- No task accepted before it is left on a slice's tiles, or the instruction is suppressed. -/
def State.tileReady (s : State) (b : Block) (tiles : Slice → List Nat) (x : Slice) : Bool :=
  x.again .m || (s.tasksOn b.uid x.share (tiles x)).all (fun u => u.id ≥ s.tileBefore x)

/-- What a tile instruction does, slice by slice; a suppressed one changes nothing (R214). -/
def State.tileDone (s : State) (g : Guard) (b : Block) (l : List Slice) (f : State → Block → Slice → State) : State :=
  overSlices s g b l fun s b sl =>
    if sl.again .m then s.modSlice b.uid sl.num (fun x => x.replay .m)
    else (f s b sl).modSlice b.uid sl.num (fun x => x.sent .m none .none)

/-- A slice's tile instruction has issued and waits for tasks. -/
def Slice.tiled (x : Slice) : Bool := match x.wait with | .engine .. => true | _ => false

/-- Another gang's tile instruction, or its push that has no room yet, waits on one of a slice's tiles: one goes after the other. -/
def tileTaken (b : Block) (l : List Slice) (tiles : Slice → List Nat) (x : Slice) : Bool :=
  !x.tiled && b.slices.any fun y => y.share == x.share && !l.any (fun z => z.num == y.num) &&
    (match y.wait with | .engine t _ => (tiles x).contains t | .room ts _ => ts.any (tiles x).contains | _ => false)

/-- A tile instruction on the gang: checked, then held until the tasks accepted onto its tiles before it have completed. As it
issues, `enter` changes what the pushes accepted after it are checked against (R197). -/
def State.tileGang (s : State) (g : Guard) (b : Block) (l : List Slice) (tiles : Slice → List Nat) (check : Slice → Option Ev)
    (enter f : State → Block → Slice → State) : Res :=
  let act := l.filter (fun x => x.part_ g != 0)
  match gangTrap g l check with
  | some e => .trap e
  | none =>
    if act.all (s.tileReady b tiles) && !act.any (tileTaken b l tiles) then .done (s.tileDone g b l f) []
    else if act.any (tileTaken b l tiles) then .stall s
    else
      let new := act.filter fun x => !x.tiled && !x.again .m
      .stall ((new.foldl (fun s x => enter s b x) s).modBlock b.uid fun b' =>
        b'.putSlices (act.map fun x => { x with wait := .engine ((tiles x).headD 0) (s.tileBefore x) }))

def tileOf : Opd → Nat
  | .acc n => n.toNat
  | _ => 0

/-- The words of a tile become 0 and its state its reset values; OWNER is the issuing slice in a deterministic launch. -/
def Tile.cleared (det : Bool) (sl : Nat) : Tile := { Tile.reset with owner := if det then some sl else none }

/-- MZERO at the commit of a deterministic launch: the tile's path changes at once, its words after the tasks before it. -/
def sendMzero : Sender := fun s b sl id args =>
  let t := (args.headD 0).toNat
  let z : Task :=
    { id, core := (b.share sl.share).core, block := b.uid, share := sl.share, slice := sl.num, at_ := sl.pc, num := 0, phase := 0
      rcd := { (default : TaskRec) with acc := t }, running := false, chunks := 0
      counts := { sclc := false, metac := 0, ofc := 0, nvc := 0, nxc := 0 }, hold := none }
  let s := s.modShare b.uid sl.share (fun sh => sh.modTile t (fun x => { x with path := .empty, g := 0, owner := some sl.num }))
  .done (({ s with tasks := s.tasks ++ [z] } : State).settleTasks b.uid sl.share) .none

/-- The path and the owner that a tile instruction gives a tile as it issues (R197). -/
def State.retile (s : State) (b : Block) (sl : Slice) (t : Nat) (x : Tile) : State :=
  s.modShare b.uid sl.share (fun sh => sh.modTile t (fun z => { z with path := x.path, g := x.g, owner := x.owner }))

/-- What a tile instruction writes to a tile: all of it, or what is left where the path was given as it issued. -/
def State.setTile (s : State) (b : Block) (sl : Slice) (t : Nat) (x : Tile) : State :=
  s.modShare b.uid sl.share (fun sh => sh.modTile t (fun z =>
    if sl.tiled then { x with path := z.path, g := z.g, owner := z.owner } else x))

/-- MZERO (R209). -/
def mzeroTile (s : State) (b : Block) (sl : Slice) : Tile := Tile.cleared (s.lrOf b).det sl.num

def mzeroEnter (d : Opd) (s : State) (b : Block) (sl : Slice) : State := s.retile b sl (tileOf d) (mzeroTile s b sl)

def mzeroOne (d : Opd) (s : State) (b : Block) (sl : Slice) : State := s.setTile b sl (tileOf d) (mzeroTile s b sl)

def execMzero (g : Guard) (d : Opd) (s : State) : Out :=
  .next (s.perGang 1 false fun b l =>
    if s.buffers b then
      s.cmdGang g .m (.mzero g d) none (fun _ => none) (fun _ => [BitVec.ofNat 64 (tileOf d)]) sendMzero b l
    else s.tileGang g b l (fun _ => [tileOf d]) (fun _ => none) (mzeroEnter d) (mzeroOne d))

/-- OFMT's type (R177): the format and its size in bytes. -/
def ofmtOf (f : BitVec 16) : Fmt × Nat :=
  match bitsOf f.toNat 8 3 with
  | 0 => (.f32, 4) | 1 => (.f16, 2) | 2 => (.bf16, 2) | 3 => (.e5m2, 1) | _ => (.e4m3, 1)

/-- X of an element (R210). -/
def emitX (path : TPath) (g : Nat) (word lo : LWord) (ca cb : Nat) : XR × Flags :=
  match path with
  | .res =>
    if ca = 0xFF || cb = 0xFF then (.nan false, Flags.nv)
    else
      let n := crt word
      (if n = 0 then .zero false else .fin ⟨n, (ca : Int) - 127 + ((cb : Int) - 127) - g⟩, 0)
  | .fphi => Fmt.f32.value [word.toNat, lo.toNat]
  | _ => (.zero false, 0)

/-- An infinite output (R210): the largest finite value under SAT; in E4M3 its NaN pattern. -/
def emitInf (t : Fmt) (sat neg : Bool) : Nat := if sat then t.signed neg t.maxPat else match t.inf with | some i => t.signed neg i | none => t.nan

/-- RoundNE into OFMT with an infinite result treated as R210 says. -/
def emitRound (t : Fmt) (sat : Bool) : XR → Nat
  | .nan _ => t.nan
  | .inf n => emitInf t sat n
  | .zero n => t.signed n 0
  | .fin x => let r := t.round .rne x; if r.val.isNone then emitInf t sat x.isNeg else r.bits

/-- The two outputs of an element and the flags (R163, R210). -/
def emitOut (t : Fmt) (sat main : Bool) (x : XR) : Nat × Nat × Flags :=
  let (ws, f) := if main then let r := t.finish .rne x; ([r.1, 0], r.2) else t.emit 2 x
  let tops (v : Dy) : Bool := (t.rne v).2.1.isNone
  match x with
  | .inf n => (emitInf t sat n, if sat then emitInf t true n else 0, f)
  | .fin v =>
    if tops v then
      let m := emitInf t sat v.isNeg
      let d := v.sub (t.read m).dy
      (m, if sat && !main then emitRound t true (if d.isZero then .zero false else .fin d) else 0, f)
    else (ws.getD 0 0, ws.getD 1 0, f)
  | _ => (ws.getD 0 0, ws.getD 1 0, f)

/-- Bytes of a 16 × 16 image. -/
def imageBytes (size : Nat) (l : List Nat) : List Byte := l.flatMap fun x => leBytes size x

/-- The main and residual images of a tile and the flags (R210). -/
def emitImages (t : Fmt) (sat main : Bool) (path : TPath) (g : Nat) (hi lo : Tile) (codes : List Byte) : List Nat × List Nat × Flags :=
  let out := (List.range 256).map fun e =>
    let (x, f) := emitX path g (hi.word e) (lo.word e) (codes.getD (e / 16) 0x7F).toNat (codes.getD (16 + e % 16) 0x7F).toNat
    let (m, r, f') := emitOut t sat main x
    (m, r, f ||| f')
  (out.map (fun x => x.1), out.map (fun x => x.2.1), out.foldl (fun f x => f ||| x.2.2) 0)

/-- The two output offsets and the scale-block offset of MEMIT. -/
def memitOffs (sl : Slice) (b c : Opd) : Nat × Nat × Option Nat :=
  let w (o : Opd) : Nat := match o with | .s n => (sl.sr n.toNat).toNat | _ => 0
  (w b % 2 ^ 32, w b / 2 ^ 32, if c.isNone then none else some (w c % 2 ^ 32))

/-- MEMIT's own checks (R192, R210); those on the tile's state, and that on the scale codes, which a tile on the FP path does not
read, are made at its place in the serial phase (R212). A poisoned byte of the scale block raises no MEMUE (log entry 71). -/
def memitCheck (r : LaunchRec) (late main : Bool) (n : Nat) (b c : Opd) (t : Tile) (sl : Slice) : Option Ev :=
  let (m, x, sc) := memitOffs sl b c
  let outs := if main then [m] else [m, x]
  let size := (ofmtOf sl.fmt).2
  if late && (t.path == .fplo || (t.path == .fphi && (n % 2 ≠ 0 || n + 1 ≥ r.accn))) then some Ev.own
  else if outs.any (fun o => o % 64 ≠ 0) || (match sc with | some o => o % 32 != 0 | none => false) then some { Ev.align with check := 11 }
  else if outs.any (fun o => o + 256 * size > r.slotBytes) ||
      (match sc with | some o => late && t.path != .fphi && decide (o + 32 > r.slotBytes) | none => false) then
    some { Ev.perm with check := 2, detail := 0x03 }
  else none

/-- MEMIT (R210): the tile of a slice's share, its pair on the FP path, and what the instruction does. -/
def memitTile (n : Nat) (blk : Block) (sl : Slice) : Tile := (blk.share sl.share).tile n

def memitTiles (n : Nat) (blk : Block) (sl : Slice) : List Nat := if (memitTile n blk sl).path == .fphi then [n, n + 1] else [n]

def memitOne (g : Guard) (main : Bool) (d : Opd) (n : Nat) (b c : Opd) (s : State) (blk : Block) (sl : Slice) : State :=
  let (m, x, sc) := memitOffs sl b c
  let sh := blk.share sl.share
  let hi := sh.tile n
  let (t, size) := ofmtOf sl.fmt
  let codes := match sc with | some o => sh.read o 32 | none => List.replicate 32 0x7F
  let (im, ir, f) := emitImages t (fmtSat sl.fmt) main hi.path hi.g hi (sh.tile (n + 1)) codes
  let s := s.scratchPut blk sl.share m (imageBytes size im)
  let s := if main then s else s.scratchPut blk sl.share x (imageBytes size ir)
  s.modSlice blk.uid sl.num (fun y => (y.setFlags f).setS g d hi.exc)

def execMemit (g : Guard) (main : Bool) (d a b c : Opd) (s : State) : Out :=
  let n := tileOf a
  .next (s.perSerial g 1 fun blk l =>
    s.tileGang g blk l (memitTiles n blk)
      (fun sl => memitCheck (s.lrOf blk) (!s.buffers blk) main n b c (memitTile n blk sl) sl) (fun s _ _ => s) (memitOne g main d n b c))

def pathCode : TPath → Nat
  | .empty => 0 | .res => 1 | .fphi => 2 | .fplo => 3
def pathOfCode : Nat → TPath
  | 1 => .res | 2 => .fphi | 3 => .fplo | _ => .empty

/-- The 1,056-byte image of a tile (R211). -/
def Tile.image (t : Tile) : List Byte :=
  ((List.range 256).flatMap fun i => leBytes 4 (t.word i).toNat) ++ leBytes 8 (t.g * 16 + pathCode t.path) ++ leBytes 8 t.bound ++
  leBytes 8 t.exc.toNat ++ leBytes 8 0

/-- A tile from its image. -/
def tileOfImage (bs : List Byte) (owner : Option Nat) : Tile :=
  { words := (List.range 256).foldl (fun c i => Cells.set 0 c i (BitVec.ofNat 32 (field bs (4 * i) 4))) []
    path := pathOfCode (field bs 1024 8 % 4), g := bitsOf (field bs 1024 8) 4 4, bound := field bs 1032 8
    exc := BitVec.ofNat 64 (field bs 1040 8), owner }

/-- MLOAD's check of the tail (R211). -/
def imageBad (bs : List Byte) (n : Nat) : Bool :=
  let st := field bs 1024 8
  let g := bitsOf st 4 4
  let p := st % 4
  st / 256 != 0 || bitsOf st 2 2 != 0 || field bs 1048 8 != 0 || g > 8 || (g != 0 && p != 1) || (p == 2 && n % 2 == 1) ||
  (p == 3 && n % 2 == 0)

/-- The offset of MSAVE and MLOAD is a multiple of 32 and its bytes lie in the slot. -/
def imageAt (r : LaunchRec) (off : Nat) : Option Ev :=
  if off % 32 ≠ 0 then some { Ev.align with check := 11 }
  else if off + 1056 > r.slotBytes then some { Ev.perm with check := 2, detail := 0x03 }
  else none

/-- The offset of an image that an s register names: its low 32 bits, R211 giving no width (log entry 71). -/
def imageOff (o : Opd) (sl : Slice) : Nat := match o with | .s n => (sl.sr n.toNat).toNat % 2 ^ 32 | _ => 0

/-- MSAVE (R211). -/
def msaveOne (a b : Opd) (s : State) (blk : Block) (sl : Slice) : State :=
  s.scratchPut blk sl.share (imageOff b sl) ((blk.share sl.share).tile (tileOf a)).image

def execMsave (g : Guard) (a b : Opd) (s : State) : Out :=
  .next (s.perSerial g 1 fun blk l =>
    s.tileGang g blk l (fun _ => [tileOf a]) (fun sl => imageAt (s.lrOf blk) (imageOff b sl)) (fun s _ _ => s) (msaveOne a b))

/-- MLOAD's checks (R211). A poisoned byte of the image raises no MEMUE (log entry 71). -/
def mloadCheck (s : State) (d a : Opd) (blk : Block) (sl : Slice) : Option Ev :=
  match imageAt (s.lrOf blk) (imageOff a sl) with
  | some e => some e
  | none =>
    if !s.buffers blk && !sl.tiled && imageBad ((blk.share sl.share).read (imageOff a sl) 1056) (tileOf d) then some Ev.own else none

def mloadTile (a : Opd) (blk : Block) (sl : Slice) : Tile :=
  tileOfImage ((blk.share sl.share).read (imageOff a sl) 1056) (some sl.num)

def mloadEnter (d a : Opd) (s : State) (blk : Block) (sl : Slice) : State := s.retile blk sl (tileOf d) (mloadTile a blk sl)

def mloadOne (d a : Opd) (s : State) (blk : Block) (sl : Slice) : State := s.setTile blk sl (tileOf d) (mloadTile a blk sl)

def execMload (g : Guard) (d a : Opd) (s : State) : Out :=
  .next (s.perSerial g 1 fun blk l => s.tileGang g blk l (fun _ => [tileOf d]) (mloadCheck s d a blk) (mloadEnter d a) (mloadOne d a))

/-! ## MBOBJ (R208) -/

/-- The value of a small constant or an s register. -/
def objVal (s : State) (b : Block) (sl : Slice) (o : Opd) : Nat := (svalOf (s.envOf b sl) sl o).toNat

/-- MBOBJ.INIT's operand check; a tile's path is looked at as the operation is performed. -/
def initBad (s : State) (a b c : Opd) (blk : Block) (sl : Slice) : Bool :=
  let n := objVal s blk sl c
  objVal s blk sl a > 7 || n < 1 || n > 64 ||
  (!b.isNone && (tileOf b ≥ (s.lrOf blk).accn || (!s.buffers blk && ((blk.share sl.share).tile (tileOf b)).path == .fplo)))

/-- The object has a task that is not applied, or a command that has no room yet waits on it or on its tile. -/
def initBusy (s : State) (a b : Opd) (blk : Block) (sl : Slice) : Bool :=
  !sl.again .m && ((s.tasks.any fun t =>
    t.block == blk.uid && t.share == sl.share && t.rcd.useobj && t.rcd.obj == objVal s blk sl a && t.rcd.k != 0) ||
  blk.slices.any fun y => y.share == sl.share &&
    match y.wait with | .room ts o => o == some (objVal s blk sl a) || (!b.isNone && ts.contains (tileOf b)) | _ => false)

def initOne (s0 : State) (a b c : Opd) (s : State) (blk : Block) (sl : Slice) : State :=
  s.modShare blk.uid sl.share (fun sh => sh.modObj (objVal s0 blk sl a) fun o =>
    if b.isNone then { o with act := false }
    else { act := true, tile := tileOf b, cnt := objVal s0 blk sl c, phase := 0, total := 0, cur := [], nxt := [] })

/-- MBOBJ.INIT: waits until the object has no unapplied task. -/
def execMbobjInit (g : Guard) (a b c : Opd) (s : State) : Out :=
  .next (s.perSerial g (lenOf [c]) fun blk l =>
    match firstEv g l fun sl => if initBad s a b c blk sl then some (Ev.own.per sl g) else none with
    | some e => .trap e
    | none =>
      if (l.filter (fun x => x.part_ g != 0)).any (initBusy s a b blk) then .stall s
      else .done (s.tileDone g blk l (initOne s a b c)) [])

/-- MBOBJ.ARRIVE fills its position, or waits, keeping the object as it is, while it is filled in both phases. -/
def sendArrive : Sender := fun s b sl _ args =>
  let k := (args.headD 0).toNat
  let pos := (args.getD 1 0).toNat
  let o := (b.share sl.share).obj k
  if !o.act || pos ≥ o.cnt then .bad Ev.own
  else
    match o.fill pos none with
    | none => .waits (s.modSlice b.uid sl.num fun y => { y with wait := .room [] (some k) })
    | some x => .done ((s.modShare b.uid sl.share (fun sh => sh.modObj k (fun _ => x.1))).settleObjs b.uid sl.share) .none

def execMbobjArrive (g : Guard) (a b : Opd) (s : State) : Out :=
  .next (s.perGang (lenOf [b]) false fun blk l =>
    s.cmdGang g .m (.mbobjArrive g a b) none (fun sl =>
        if objVal s blk sl a > 7 || (!s.buffers blk &&
          (let o := (blk.share sl.share).obj (objVal s blk sl a); !o.act || objVal s blk sl b ≥ o.cnt)) then some Ev.own else none)
      (fun sl => [BitVec.ofNat 64 (objVal s blk sl a), BitVec.ofNat 64 (objVal s blk sl b)]) sendArrive blk l)

/-- Phase p has completed, PHASE and p taken modulo 2^16 (R208): where PHASE lies up to 2^15 phases beyond p (log entry 67). -/
def BarObj.passed (o : BarObj) (p : Nat) : Bool :=
  let d := (o.phase - BitVec.ofNat 16 p).toNat
  1 ≤ d && d ≤ 2 ^ 15

/-- Every position of phase p has been filled (R212). -/
def BarObj.allFilled (o : BarObj) (p : Nat) : Bool :=
  (BitVec.ofNat 16 p == o.phase && o.filled o.cur) || (BitVec.ofNat 16 p == o.phase + 1 && o.filled o.cur && o.filled o.nxt)

/-- The object that a slice's MBOBJ names, whether its check fails, and whether its wait is over. -/
def waitObj (s : State) (a : Opd) (blk : Block) (sl : Slice) : BarObj := (blk.share sl.share).obj (objVal s blk sl a)

/-- ILLOP of MBOBJ.WAIT (R208). It is looked for again whenever a wait is: one whose object has been made inactive meanwhile raises it,
where R208 says nothing of waits under way (log entry 76). -/
def waitBad (s : State) (a : Opd) (blk : Block) (sl : Slice) : Bool :=
  objVal s blk sl a > 7 || (!s.buffers blk && !(waitObj s a blk sl).act)

def waitIsOver (s : State) (a b : Opd) (blk : Block) (sl : Slice) : Bool :=
  sl.again .m || (waitObj s a blk sl).passed (objVal s blk sl b)

/-- MBOBJ.WAIT. In a deterministic launch it holds the serial phase once the phase is filled, and else runs empty quanta. -/
def execMbobjWait (g : Guard) (a b : Opd) (s : State) : Out :=
  .next (s.perSerial g 1 fun blk l =>
    let act := l.filter (fun x => x.part_ g != 0)
    match firstEv g l fun sl => if waitBad s a blk sl then some (Ev.own.per sl g) else none with
    | some e => .trap e
    | none =>
      if act.all (waitIsOver s a b blk) then .done (s.tileDone g blk l fun s _ _ => s) []
      else
        let w (sl : Slice) : Slice := { sl with wait := .mbobj sl.share (objVal s blk sl a) (objVal s blk sl b) }
        let s1 := s.modBlock blk.uid fun b' => b'.putSlices ((act.filter (fun x => !waitIsOver s a b blk x)).map w)
        if (s.lrOf blk).det then
          if act.all (fun x => waitIsOver s a b blk x || (waitObj s a blk x).allFilled (objVal s blk x b)) then
            .stall (s1.modBlock blk.uid fun b' => b'.putSlices (act.map fun x => { w x with qphase := .atSerial }))
          else .stall (s1.emptyQuanta blk (act.map w))
        else .stall s1)

end Sys2Proof.Machine
end

