-- ==== Sys2Proof/Machine/System.lean ====
section
/-! DEFINITION. The system registers (R377 to R380), TRAP, ERET and SLEEP (R385 to R388), words that name no instruction (R57),
faults of the engines and the host's answers (R389 to R391), and TLB invalidation (R220). -/

namespace Sys2Proof.Machine

/-! ## System registers -/

/-- detctl (R379). -/
def detctl (clock : Nat) (det : Bool) : Word := BitVec.ofNat 64 (clock % 2 ^ 48 * 2 ^ 16 + if det then 1 else 0)

/-- tokctl (R379) outside a deterministic launch. -/
def Ctx.tokctl (x : Ctx) : Word :=
  let bit (b : Bucket) (k : Nat) : Nat := if b.cap = 0 then 0 else 2 ^ k
  BitVec.ofNat 64 ((max 0 (min x.time.level (2 ^ 31 - 1))).toNat * 2 ^ 32 + bit x.time 0 + bit x.bytes 1 + bit x.energy 2)

/-- What SYSR reads (R377). -/
def State.sysReg (s : State) (e : Env) (sl : Slice) : SysReg → Word
  | .archid => Config.archid
  | .qlen => sl.qlen.setWidth 64
  | .detctl => detctl sl.clock e.lr.det
  | .tokctl => if e.lr.det then 0 else (s.ctx e.lr.ctx).tokctl
  | .trapvec => sl.trapvec.setWidth 64
  | .trapcause => sl.trapcause
  | .trapaddr => sl.trapaddr.setWidth 64
  | .trapregion => sl.trapregion.setWidth 64

def execSysr (g : Guard) (r : SysReg) (d : Opd) (s : State) : Out :=
  .next (s.perSlice g 1 fun e sl => .ok (sl.setS g d (s.sysReg e sl r)))

/-- SYSW writes qlen or trapvec, a value within the limits of the register's map (R378, R379). -/
def Slice.sysWrite (sl : Slice) (r : SysReg) (x : Word) : Except Ev Slice :=
  match r with
  | .qlen => if 256 ≤ x.toNat && x.toNat ≤ 65536 then .ok { sl with qlen := x.setWidth 17 } else .error Ev.own
  | .trapvec => if x.toNat < 2 ^ 57 && x.toNat % 8 == 0 then .ok { sl with trapvec := x.setWidth 57 } else .error Ev.own
  | _ => .error Ev.own

def execSysw (g : Guard) (r : SysReg) (a : Opd) (s : State) : Out :=
  .next (s.perSlice g (lenOf [a]) fun e sl =>
    match sl.sysWrite r (svalOf e sl a) with
    | .ok y => .ok y
    | .error ev => .error (ev.per sl g))

/-! ## TRAP, ERET and SLEEP -/

/-- The event of TRAP (R385): BKPT, or 0x10 with DETAIL n. -/
def trapEv (n : BitVec 8) : Ev := if n = 0 then Ev.bkpt else { Ev.of 0x10 with detail := n.toNat }

def execTrap (g : Guard) (n : BitVec 8) (s : State) : Out :=
  .next (s.perGang 1 false fun _ l =>
    match firstEv g l fun sl => some ((trapEv n).per sl g) with
    | some e => .trap e
    | none => .done s [])

/-- ERET outside a handler raises OWN; where the REP is a header that is one no longer, the transfer raises BADTGT (R35). -/
def eretTrap (s : State) (c : Nat) (g : Guard) (l : List Slice) : Option Ev :=
  firstEv g l fun sl =>
    if !sl.handling then some (Ev.own.per sl g)
    else if sl.ck.rep.header && s.noHeader c sl.ck.rep.pc then some ({ Ev.badtgt with check := 11 }.per sl g)
    else none

/-- The slices of a gang without a lane that takes part go on, and where that raises an event nothing else happens (R6); the others leave
the handler and re-execute the trapped region. -/
def State.eretDone (s : State) (g : Guard) (b : Block) (l : List Slice) : State :=
  let act := (l.filter (fun x => x.part_ g != 0)).map (fun x => x.num)
  let idle := l.filter (fun x => x.part_ g == 0)
  let s1 := s.retire s b.uid (idle.map (fun x => x.num)) [] 1 false s.whole
  if (s.retireEv b idle 1).isSome then s1
  else
  let s2 := act.foldl (fun s n => s.modSlice b.uid n fun x => { x with handling := false, retired := x.retired + 1 }) s1
  s2.reExecuteAll b.uid (fun x => act.contains x.num)

/-- ERET (R387): it is a transfer to the REP, so that what follows its block is nothing to it (R35). -/
def execEret (g : Guard) (s : State) : Out :=
  .next (match s.issuing with
    | none => s
    | some (b, l) =>
      match eretTrap s (s.lrOf b).ctx g l with
      | some e => s.raise e
      | none => s.eretDone g b l)

def sleepTrap (g : Guard) (a : Opd) (l : List Slice) : Option Ev :=
  firstEv g l fun sl => if Opd.negSmall a then some (Ev.own.per sl g) else none

/-- A slice at its SLEEP: it waits its count, unless it waits already. -/
def asleep (s : State) (g : Guard) (a : Opd) (b : Block) (x : Slice) : Slice :=
  let n : Nat := (svalOf (s.envOf b x) x a).toNat % 2 ^ 32
  if x.part_ g = 0 then x
  else match x.wait with
    | .sleep _ => x
    | _ => { x with wait := .sleep (if n = 0 then 0 else s.cycle + n) }

/-- SLEEP on the gang (R388): each slice waits its count, and the gang goes on once the sleeps of all have expired. -/
def sleepGang (s : State) (g : Guard) (a : Opd) (b : Block) (l : List Slice) : Res :=
  match sleepTrap g a l with
  | some e => .trap e
  | none =>
    let l := l.map (asleep s g a b)
    let s := s.modBlock b.uid fun b => b.putSlices l
    if l.all (fun x => x.part_ g == 0 || x.wait == .sleep 0) then .done s [] else .stall s

def execSleep (g : Guard) (a : Opd) (s : State) : Out := .next (s.perGang (lenOf [a]) false (sleepGang s g a))

/-- A sleep has run out. -/
def execSleepExpiry (blk slice : Nat) (s : State) : Out :=
  .next (s.modSlice blk slice fun x =>
    match x.wait with
    | .sleep u => if u ≤ s.cycle then { x with wait := .sleep 0 } else x
    | _ => x)

/-! ## Words that are no instruction (R57) -/

def execWordNotInstruction (check : Nat) (s : State) : Out :=
  .next (s.raise { Ev.illop with check, at_ := (s.issuing.bind fun x => x.2.head?).map fun x => x.pc })

/-! ## The host's answers to faults (R389, R391) -/

/-- The record that an identifier names: it stands in the ring. -/
def State.record? (s : State) (c id : Nat) : Option Outstanding :=
  (s.ctx c).ring.find? (fun r => r.id == id && r.slot.isSome)

/-- A record is answered: its slot frees. -/
def State.answerRec (s : State) (c id : Nat) : State :=
  (s.setCtx c fun x => { x with ring := x.ring.filter (fun r => r.id != id) }).feedRing c

/-- The slices that a record holds. -/
def Block.heldBy (b : Block) (id : Nat) (trap : Bool) : List Slice := b.slices.filter (fun x => x.stop == .held id trap)

/-- Resume what a record holds: a gang re-executes its region, or goes on after its TRAP; a unit continues. An operation of the
serial phase, whose quantum has committed, is tried again alone (R254, R256). -/
def State.resume (s : State) (o : Outstanding) : State :=
  match o.src with
  | .gang blk _ trap =>
    match s.block? blk with
    | none => s
    | some b =>
      let l := (b.heldBy o.id trap).map (fun x => x.num)
      let again := ((b.heldBy o.id trap).filter (fun x => x.qphase == .running)).map (fun x => x.num)
      let s' := s.modBlock blk fun b => { b with slices := b.slices.map fun x => if l.contains x.num then { x with stop := .none } else x }
      -- what passing the end of a block raises after a TRAP is raised in the gang that goes on
      let gang := ((b.heldBy o.id trap).headD default).gang
      if trap then { ({ s' with cur := some { block := blk, gang, only := none } } : State).retire s' blk l [] 1 false true with cur := s.cur }
      else s'.reExecuteAll blk (fun x => again.contains x.num)
  | .command id => { s with cmds := s.cmds.map fun c => if c.id == id then { c with hold := none } else c }
  | .task id => { s with tasks := s.tasks.map fun t => if t.id == id then { t with hold := none } else t }

def State.pfresResume (s : State) (ctx id : Nat) : State :=
  if !s.hostOpen then s else
    match s.record? ctx id with
    | none => s
    | some o => (s.answerRec ctx id).resume o

def execPfresResume (ctx id : Nat) (s : State) : Out := .next (s.pfresResume ctx id)

/-- The fault record that an outstanding record turns into. -/
def State.failRec (s : State) (o : Outstanding) : FaultRec :=
  let base : FaultRec := { cause := o.cause, addr := o.addr, rep := 0, rcnt := o.rcnt, block := o.block, hq := 0, pos := 0, peer := 0xFFFF }
  match o.src with
  | .gang blk n _ =>
    match (s.block? blk).bind fun b => (b.slice? n).map fun x => (b, x) with
    | some (b, x) => { s.faultRec b x (Ev.of 0) with cause := o.cause }
    | none => base
  | .command id => match s.cmds.find? (fun c => c.id == id) with | some c => { s.cmdRec c (Ev.of 0) with cause := o.cause } | none => base
  | .task id =>
    match s.tasks.find? (fun t => t.id == id) with
    | some t =>
      match (s.block? t.block).bind fun b => (b.slice? t.slice).map fun x => (b, x) with
      | some (b, x) => { s.faultRec b x { Ev.of 0 with at_ := some t.at_ } with cause := o.cause }
      | none => base
    | none => base

def State.pfresFail (s : State) (ctx id : Nat) : State :=
  if !s.hostOpen then s else
    match s.record? ctx id with
    | none => s
    | some o => s.contextFault ctx (s.failRec o)

def execPfresFail (ctx id : Nat) (s : State) : Out := .next (s.pfresFail ctx id)

/-- The fault record is cleared, and the next may be written (R391, R397). -/
def State.faultClear (s : State) (ctx : Nat) : State :=
  if !s.hostOpen then s else s.setCtx ctx fun x => { x with fault := none }

def execFaultClear (ctx : Nat) (s : State) : Out := .next (s.faultClear ctx)

/-- TLBINV: the context's translations are forgotten (R220). -/
def State.tlbinv (s : State) (ctx : Nat) : State :=
  if !s.hostOpen then s else { s with mem := { s.mem with tlb := s.mem.tlb.filter (fun t => t.ctx != ctx) } }

def execTlbinv (ctx : Nat) (s : State) : Out := .next (s.tlbinv ctx)

/-! ## Faults of the engines (R200, R291, R337, R381, R389) -/

/-- A unit stops at a page fault: a record goes to the ring, and the unit holds until it is answered. -/
def State.holdUnit (s : State) (c : Nat) (blk : Option (Block × Slice)) (e : Ev) (source : Nat) (src : FaultSrc) : Nat × State :=
  let id := s.freeRecord
  (id, s.report c
    { id, slot := none, addr := e.addr.getD 0, cause := e.cause 0, source, src
      block := match blk with | some x => x.1.num | none => 0xFFFFFFFF
      place := match blk with | some x => (s.envOf x.1 x.2).core / 48 * 256 + (s.envOf x.1 x.2).core % 48 * 4 + x.2.part | none => 0
      rcnt := match blk with
        | some x => (match x.1.gangSlices x.2.gang with | y :: _ => y.rcnt.toNat | [] => x.2.rcnt.toNat)
        | none => 0 })

/-- Nothing on a plane reaches this module: its link is dead here, or the plane is lost. -/
def State.planeGone (s : State) (k : Nat) : Bool := (s.fabric.ports.getD k .reset).dead || s.fabric.lostPlanes.contains k

/-- What the loss of a peer or a plane makes of an access that is outstanding there (R282, R352, R354). -/
def State.farEv (s : State) (f : Far) (va : Nat) : Option Ev :=
  let at_ (e : Ev) : Option Ev := some { e with addr := some (BitVec.ofNat 64 va) }
  match f with
  | .peer d => if s.fabric.lostPeers.contains d then at_ { Ev.peerlost with unit_ := d } else none
  | .plane k p => if s.planeGone k && p.all s.planeGone then at_ { Ev.swlost with unit_ := k } else none

/-- What such a loss makes of a completion flag that is still to be written; anything else makes the unit wait (log entry 46). -/
def State.flagLost (s : State) (c : Nat) (va : Word) : Option Ev := (s.flagEv c va.toNat).filter fun e => e.code == 0x09 || e.code == 0x0A

/-- What a command's engine runs into, and the source that its record names. -/
def State.cmdEv (s : State) (c : Cmd) : Option Ev × Nat :=
  match c.kind with
  | .copy .. | .tensor .. | .book _ => (s.copyCmdEv c, 1)
  | .coll x => (s.collEv c x, 3)
  | .far place va _ => (s.farEv place va, 0)
  | .scratch ps _ => (ps.findSome? fun p => s.farEv p.1 p.2, 0)
  | .red b => (s.flagLost c.ctx b.faddr, 0)
  | .mcmp _ _ _ a => (s.flagLost c.ctx a.faddr, 0)
  | _ => (none, 0)

/-- PERM at a task's operands (R200): the gang of the slice that pushed it enters its handler where it has one, else the context ends.
While that gang is in a handler, or halfway through an APPEND or a QPOST, the task waits. -/
def State.taskPerm (s : State) (t : Task) (b : Block) (x : Slice) (e : Ev) : State :=
  if x.ended then s.contextFault (s.lrOf b).ctx (s.faultRec b x { e with at_ := some t.at_ })
  else if x.stop != .none || s.taskHeld t then s
  else
    let cur := s.cur
    { ({ s with cur := some { block := t.block, gang := x.gang, only := none } }).raise { e with lanes := [(x.num, 0)], at_ := some t.at_ } with cur := cur }

/-- A command's engine stops at a page fault, or its context ends; PERM is part of its completion. -/
def State.commandEvent (s : State) (c : Cmd) (e : Ev) (source : Nat) : State :=
  if e.code = 0x04 then
    let at_ := (c.block.bind s.block?).bind fun b => (b.slice? c.slice).map fun x => (b, x)
    let (r, s) := s.holdUnit c.ctx at_ e source (.command c.id)
    { s with cmds := s.cmds.map fun z => if z.id == c.id then { z with hold := some r } else z }
  else if e.code = 0x05 then s
  else s.commandFault c e

/-- A task stops at a page fault, its gang takes PERM, or its context ends. -/
def State.taskEvent (s : State) (t : Task) (b : Block) (x : Slice) (e : Ev) : State :=
  if e.code = 0x04 then
    let (r, s) := s.holdUnit (s.lrOf b).ctx (some (b, x)) e 2 (.task t.id)
    { s with tasks := s.tasks.map fun z => if z.id == t.id then { z with hold := some r } else z }
  else if e.code = 0x05 then s.taskPerm t b x e
  else s.contextFault (s.lrOf b).ctx (s.faultRec b x { e with at_ := some t.at_ })

/-- An engine meets an event partway through a command or a task. -/
def execEngineAccessFault (id : Nat) (s : State) : Out :=
  .next (
    match s.cmds.find? (fun c => c.id == id) with
    | some c =>
      if c.hold.isSome then s
      else
        match s.cmdEv c with
        | (none, _) => s
        | (some e, n) => s.commandEvent c e n
    | none =>
      match s.tasks.find? (fun t => t.id == id) with
      | none => s
      | some t =>
        match s.taskSlice t, s.taskEv t with
        | some (b, x), some e => if t.hold.isSome then s else s.taskEvent t b x e
        | _, _ => s)

end Sys2Proof.Machine
end

