-- ==== Sys2Proof/Machine/Placement.lean ====
section
/-! DEFINITION. Placing a launch's units on cores (R13, R17, R221, R366, R367, R396), and the completion of blocks and launches
(R111, R368). -/

namespace Sys2Proof.Machine

/-! ## What a core has left -/

/-- What a resident share takes of its core: its launch's split and tiles, its slot's bytes, its slot in sixteenths of the
scratchpad part (S divides 16; a part of no bytes has its slots all the same), its register bytes and its slice places
(64 · partition + position). -/
structure Tenant where
  core : Nat
  split : Nat × Nat × Nat
  tiles : Nat × Nat
  slot : Nat × Nat
  sixteenths : Nat × Nat
  regs : Nat
  seats : List Nat
  deriving DecidableEq, Repr

/-- Ranges (start, length) that share nothing. -/
def apart (x y : Nat × Nat) : Bool := x.2 == 0 || y.2 == 0 || x.1 + x.2 ≤ y.1 || y.1 + y.2 ≤ x.1

def LaunchRec.split (r : LaunchRec) : Nat × Nat × Nat := (r.sreg, r.sscr, r.sl1)
def LaunchRec.tileRange (r : LaunchRec) : Nat × Nat := (r.accb, r.accn)
def LaunchRec.slotRange (r : LaunchRec) (j : Nat) : Nat × Nat := (j * r.slotBytes, r.slotBytes)
def LaunchRec.slotPart (r : LaunchRec) (j : Nat) : Nat × Nat := (j * (16 / r.slots), 16 / r.slots)

def Block.tenants (b : Block) (r : LaunchRec) : List Tenant :=
  (b.shares.zipIdx).map fun x =>
    let mine := b.slices.filter (fun y => y.share == x.2)
    { core := x.1.core, split := r.split, tiles := r.tileRange, slot := r.slotRange x.1.slot
      sixteenths := r.slotPart x.1.slot, regs := mine.length * 16 * r.live
      seats := mine.map fun y => 64 * y.part + y.pos }

def State.tenants (s : State) : List Tenant := s.blocks.flatMap fun b => b.tenants (s.lrOf b)

def onCore (ts : List Tenant) (core : Nat) : List Tenant := ts.filter (fun t => t.core == core)
def usedSeats (ts : List Tenant) : List Nat := ts.flatMap fun t => t.seats
def usedRegs (ts : List Tenant) : Nat := (ts.map fun t => t.regs).foldl (· + ·) 0

/-- The least slot of a launch that meets no resident slot. -/
def LaunchRec.freeSlot (r : LaunchRec) (ts : List Tenant) : Option Nat :=
  (List.range r.slots).find? fun j => ts.all fun t => apart (r.slotPart j) t.sixteenths

/-- Seats, the lowest free ones, for slices that stand in these partitions. -/
def seatsFor : List Nat → List Nat → Option (List Nat)
  | _, [] => some []
  | used, p :: ps =>
    match ((List.range 64).map fun k => 64 * p + k).find? (fun k => !used.contains k) with
    | none => none
    | some k => (seatsFor (k :: used) ps).map fun l => k :: l

/-- A share on a core (R367): an equal split, free tiles, a free slot, registers and slice places. -/
def LaunchRec.takeIn (r : LaunchRec) (ts : List Tenant) (core : Nat) (parts : List Nat) : Option (Nat × Tenant) :=
  let here := onCore ts core
  let regs := parts.length * 16 * r.live
  if here.all (fun t => t.split == r.split && apart t.tiles r.tileRange) && usedRegs here + regs ≤ r.sreg * 16384 then
    match r.freeSlot here, seatsFor (usedSeats here) parts with
    | some j, some seats =>
      some (j, { core, split := r.split, tiles := r.tileRange, slot := r.slotRange j, sixteenths := r.slotPart j, regs, seats })
    | _, _ => none
  else none

/-- Room on a core as R17's count takes it. -/
def LaunchRec.roomOn (r : LaunchRec) (ts : List Tenant) (core : Nat) : Room :=
  let here := onCore ts core
  let seats := usedSeats here
  let slots := ((List.range r.slots).filter fun j => here.all fun t => apart (r.slotPart j) t.sixteenths).length
  if here.all (fun t => t.split == r.split) then
    { core, parts := (List.range 4).map fun p => 64 - (seats.filter (fun k => k / 64 == p)).length
      regs := (r.sreg * 16384 - usedRegs here) / (16 * r.live)
      shares := if here.any (fun t => !apart t.tiles r.tileRange) then 0 else if r.accn = 0 then slots else min slots 1 }
  else { core, parts := [0, 0, 0, 0], regs := 0, shares := 0 }

/-! ## The next unit of a launch -/

def LaunchRec.units (r : LaunchRec) : Nat := r.slicesIn r.top / r.slicesIn r.unitLevel
def LaunchRec.blocksPerUnit (r : LaunchRec) : Nat := r.slicesIn r.unitLevel / r.slicesIn r.blklv

/-- The waiting unit of the lowest number. -/
def Launch.firstWaiting (l : Launch) : Option WaitUnit :=
  l.waiting.foldl (fun (acc : Option WaitUnit) w => match acc with | none => some w | some v => some (if w.unit < v.unit then w else v)) none

/-- The next unit to place, in ascending order (R367): one that waits again, or the next new one. -/
def Launch.nextPlace (l : Launch) : Option WaitUnit :=
  match l.firstWaiting with
  | some w => some w
  | none =>
    if l.nextUnit < l.rcd.units then
      some { unit := l.nextUnit, saved := [], addr := 0, room := 0
             todo := (List.range l.rcd.blocksPerUnit).map fun i => l.nextUnit * l.rcd.blocksPerUnit + i }
    else none

/-- Places, one for each partition-level part of a unit, keep every bound level in one domain (R17, R18). -/
def LaunchRec.keepsDomains (r : LaunchRec) (places : List Nat) : Bool :=
  let per := r.slicesIn r.partLevel
  places.length == r.slicesIn r.unitLevel / per &&
  ((List.range r.unitLevel).map (· + 1)).all fun k =>
    k ≤ r.partLevel ||
    (let n := r.slicesIn k / per
     let dom (p : Nat) : Nat := if r.bindOf k = 1 then p / 4 else domainOf (r.bindOf k) (p / 4)
     (List.range (places.length / n)).all fun i =>
       let c := (places.drop (i * n)).take n
       c.all fun p => dom p == dom (c.headD 0))

/-! ## Placing blocks -/

/-- A block at launch entry; its shares and slices have no place yet. The slices of a group form one gang (R97). -/
def Block.entry (uid launch num unit gang : Nat) (r : LaunchRec) : Block :=
  let n := r.slicesIn r.blklv
  { uid, launch, num, unit, round := .parallel, noFlush := false
    slices := (List.range n).map fun i => Slice.entry i (num * n + i) (i / r.slicesIn r.shareLevel) 0 0 (gang + i / r.slicesIn 1) r
    shares := (List.range (n / r.slicesIn r.shareLevel)).map fun _ => Share.entry 0 0 r.accn }

/-- A buffered scratchpad store of a share that moves from the on-chip bytes at `old` to those at `new` moves with its slot. -/
def BufEntry.moved (old new n : Nat) (e : BufEntry) : BufEntry :=
  match e with
  | .store x =>
    if x.pte == 0 && opmKey old ≤ x.key && x.key < opmKey old + n then .store { x with key := x.key - opmKey old + opmKey new } else e
  | .command .. => e

/-- Give a block its places: `at_` answers the place of a slice of the launch. Shares are taken in order. -/
def LaunchRec.settle (r : LaunchRec) (at_ : Nat → Nat) (b : Block) (ts : List Tenant) : Option (Block × List Tenant) :=
  (List.range b.shares.length).foldl (fun (acc : Option (Block × List Tenant)) k =>
    match acc with
    | none => none
    | some (b, ts) =>
      let mine := b.slices.filter (fun x => x.share == k)
      let core := at_ ((mine.headD default).gnum) / 4
      match r.takeIn ts core (mine.map fun x => at_ x.gnum % 4) with
      | none => none
      | some (slot, t) =>
        let seat (x : Slice) : Slice :=
          match (mine.zip t.seats).find? (fun p => p.1.num == x.num) with
          | some p => { x with
              part := p.2 / 64, pos := p.2 % 64
              buf := x.buf.map (BufEntry.moved (scratchPa r (b.share k) 0) (scratchPa r { b.share k with core, slot } 0) r.slotBytes) }
          | none => x
        some ({ b with shares := b.shares.modify k (fun sh => { sh with core, slot }), slices := b.slices.map seat }, ts ++ [t]))
    (some (b, ts))

/-- Waits that a saved slice keeps (R388, R393); a QPOST keeps the slot of the ring that it has claimed (log entry 37). -/
def Wait.kept : Wait → Bool
  | .regang | .bar _ | .barWait _ | .coll | .tlwait .. | .waitp .. | .mbobj .. | .sleep _ | .span _ | .queue .. | .fence _ true => true
  | _ => false

/-- A saved slice that goes on where it stood: one that ended or is stopped, that has ended its quantum, or whose gang waits. -/
def Block.stays (b : Block) (x : Slice) : Bool :=
  x.ended || (!x.handling && (x.stop != .none || x.qphase != .running || b.slices.any (fun y => y.gang == x.gang && !y.ended && y.wait.kept)))

/-- A saved block comes back (R393): its sleeps are over, and its other slices re-execute their regions. -/
def State.revive (s : State) (b : Block) : State :=
  let back (x : Slice) : Slice :=
    if b.stays x then (match x.wait with | .sleep _ => { x with wait := .sleep 0 } | _ => x) else { x with handling := false, stop := .none }
  let go := (b.slices.filter (fun x => !b.stays x)).map (fun x => x.num)
  ({ s with blocks := s.blocks ++ [{ b with slices := b.slices.map back }] }).reExecuteAll b.uid (fun x => go.contains x.num)

/-- The number of the launch's slices for which each block of a unit stands, and the blocks in ascending order. -/
def State.unitBlocks (s : State) (l : Launch) (w : WaitUnit) : List Block × Nat :=
  let fresh := w.todo.zipIdx.map fun x =>
    Block.entry (s.nextId + x.2) l.id x.1 w.unit (s.nextId + w.todo.length + x.2 * (l.rcd.slicesIn l.rcd.blklv / l.rcd.slicesIn 1)) l.rcd
  let n := s.nextId + w.todo.length * (1 + l.rcd.slicesIn l.rcd.blklv / l.rcd.slicesIn 1)
  (sortBy (fun x y => x.num ≤ y.num) (fresh ++ w.saved), n)

/-- The cores' task queues have room for the tasks that blocks bring from their images (R205). -/
def State.queuesFit (s : State) (bs : List Block) : Bool :=
  let coreOf (t : Task) : Nat := match bs.find? (fun b => b.uid == t.block) with | some b => (b.share t.share).core | none => t.core
  (bs.flatMap fun b => b.shares.map fun sh => sh.core).all fun c => (s.tasks.filter fun t => coreOf t == c && t.rcd.k != 0).length ≤ Config.taskQueue

/-- All blocks of a unit on the places given, or none. -/
def State.fitUnit (s : State) (l : Launch) (w : WaitUnit) (places : List Nat) : Option (List Block × List Tenant) :=
  let r := l.rcd
  let first := w.unit * r.slicesIn r.unitLevel
  let at_ (gnum : Nat) : Nat := places.getD ((gnum - first) / r.slicesIn r.partLevel) 0
  if r.keepsDomains places && places.all (fun p => s.coresOn.contains (p / 4)) then
    ((s.unitBlocks l w).1.foldl (fun (acc : Option (List Block × List Tenant)) b =>
      match acc with
      | none => none
      | some (bs, ts) => (r.settle at_ b ts).map fun x => (bs ++ [x.1], x.2)) (some ([], s.tenants))).filter fun x => s.queuesFit x.1
  else none

/-- Banks of a core's scratchpad that a slot covers (R239); that offset 0 of the scratchpad lies at bank 0 is the model's choice (log
entry 39). -/
def Tenant.banks (t : Tenant) : List (Nat × Nat) :=
  if t.slot.2 = 0 then [] else ((List.range 16).filter fun k => !apart t.slot (65536 * k, 65536)).map fun k => (t.core, k)

/-- Banks that are not active. -/
def State.asleep (s : State) (l : List (Nat × Nat)) : List (Nat × Nat) :=
  l.filter fun x => s.fw.banks.any fun y => y.1 == x.1 && y.2.1 == x.2 && y.2.2 != .active

/-- Begin the exit of banks from retention (R239). -/
def State.wake (s : State) (l : List (Nat × Nat)) : State :=
  let exit (y : Nat × Nat × BankState) : Nat × Nat × BankState :=
    if l.contains (y.1, y.2.1) && y.2.2 == .retention then (y.1, y.2.1, .exiting) else y
  { s with fw := { s.fw with banks := s.fw.banks.map exit } }

/-- The on-chip bytes that a share takes, without poison. -/
def State.cleanShare (s : State) (t : Tenant) : State :=
  let base := t.core * 2 ^ 22 + 2 ^ 20 + t.slot.1
  let tile := t.core * 2 ^ 22 + 2 ^ 21 + 1024 * t.tiles.1
  { s with mem := { s.mem with poison := s.mem.poison.filter fun k =>
      !((opmKey base ≤ k && k < opmKey base + t.slot.2) || (opmKey tile ≤ k && k < opmKey tile + 1024 * t.tiles.2)) } }

/-- Whether a range of T1 that the hub reads holds poison. -/
def State.areaPoison (s : State) (pa n : Nat) : Bool :=
  s.mem.poison.any fun k => isT1 k && pa ≤ t1Pa false k && t1Pa false k < pa + n

/-- The blocks of a unit start, or go on from their images (R396). With its first unit a launch has started, and its entry leaves its
queue (R357, R360). -/
def State.startUnit (s : State) (l : Launch) (w : WaitUnit) (bs : List Block) (ts : List Tenant) : State :=
  let new := ts.drop s.tenants.length
  let s := if l.unstarted then s.dropEntry l.hq l.pos else s
  let s := new.foldl State.cleanShare { s with nextId := (s.unitBlocks l w).2 }
  let s := s.modLaunch l.id fun x =>
    { x with waiting := x.waiting.filter (fun v => v.unit != w.unit), nextUnit := max x.nextUnit (w.unit + 1) }
  let coreOf (t : Task) : Option Nat := (bs.find? (fun b => b.uid == t.block)).map fun b => (b.share t.share).core
  let moved := s.tasks.filterMap fun t => (coreOf t).map fun c => { t with core := c }
  let s := { s with tasks := s.tasks.filter (fun t => (coreOf t).isNone) ++ moved }
  bs.foldl (fun (s : State) b =>
    if w.saved.any (fun x => x.uid == b.uid) then s.revive b else { s with blocks := s.blocks ++ [b] }) s

/-! ## Pre-emption for room -/

/-- A running unit: its launch and number. -/
def State.runningUnits (s : State) : List (Launch × Nat) :=
  s.launches.flatMap fun l => (((s.blocks.filter (fun b => b.launch == l.id)).map (fun b => b.unit)).eraseDups).map fun u => (l, u)

def State.preempting (s : State) (launch unit : Nat) : Bool := s.sched.preempts.any (fun p => p.launch == launch && p.unit == unit)

/-- A block stops at its next instruction boundary for a save or a flush (R393). -/
def State.halted (s : State) (b : Block) : Bool :=
  s.sched.preempts.any fun p => p.launch == b.launch && p.unit == b.unit && (p.act == .save || p.act == .flush)


/-- The parts of the chrysalis area in use: images, and the room that saves have taken. -/
def State.chrysUsed (s : State) (c : Nat) : List (Nat × Nat) :=
  let ls := s.launches.filter (fun l => l.rcd.ctx == c)
  ls.flatMap (fun l => l.waiting.map fun w => (w.addr, w.room)) ++
  (s.sched.preempts.filter (fun p => ls.any (fun l => l.id == p.launch))).map fun p => (p.addr, p.room)

/-- The lowest free room of n bytes in the chrysalis area. -/
def State.chrysRoom (s : State) (c n : Nat) : Option Nat :=
  let x := s.ctx c
  let used := s.chrysUsed c
  let cands := x.chrysB :: used.map fun u => roundUp (u.1 + u.2) 64
  (cands.filter fun a => x.chrysB ≤ a && a + n ≤ x.chrysB + x.chrysS && used.all (fun u => apart (a, n) u)).foldl
    (fun (acc : Option Nat) a => match acc with | none => some a | some b => some (min a b)) none

/-- The choice for one block (R392); E compares without division. -/
def Block.choice (b : Block) (r : LaunchRec) : PreAct :=
  let live := b.slices.filter (fun x => !x.ended)
  let sum := (live.map fun x => x.retired).foldl (· + ·) 0
  let full := live.length * r.hint * 2 ^ 16
  let above := ((List.range r.top).map (· + 1)).filter (fun k => k > r.blklv)
  let arrived := above.any fun k => b.slices.any fun x => x.ended || (x.arrival k).isSome
  if live = [] || (r.hint ≠ 0 && 8 * sum ≥ 7 * full) then .drain
  else if r.restart && (r.hint = 0 || 8 * sum < full) && !b.noFlush && !arrived then .flush
  else .save

/-- Ask for the pre-emption of a running unit (R392). -/
def State.preemptUnit (s : State) (launch unit : Nat) : State :=
  if s.preempting launch unit then s
  else
    match s.launch? launch with
    | none => s
    | some l =>
      let bs := s.blocks.filter (fun b => b.launch == launch && b.unit == unit)
      let choices := bs.map fun b => b.choice l.rcd
      let room := (bs.map fun b => l.rcd.imageSize b).foldl (· + ·) 0
      let add (p : Preempt) : State := { s with sched := { s.sched with preempts := s.sched.preempts ++ [p] } }
      if bs = [] then s
      else if choices.all (· == .drain) then add { launch, unit, act := .drain, addr := 0, room := 0 }
      else if choices.all (· == .flush) then add { launch, unit, act := .flush, addr := 0, room := 0 }
      else
        match s.chrysRoom l.rcd.ctx room with
        | some a => add { launch, unit, act := .save, addr := a, room }
        | none => add { launch, unit, act := .drain, addr := 0, room := 0 }

/-- The state without the units that pre-emptions have asked for. -/
def State.afterLeaving (s : State) : State := { s with blocks := s.blocks.filter fun b => !s.preempting b.launch b.unit }

/-- Places for the next unit of a launch among the free room. -/
def State.freePlaces (s : State) (l : Launch) : Option (List Nat) :=
  let ts := s.tenants
  l.rcd.findPlace l.rcd.unitLevel (s.coresOn.map (l.rcd.roomOn ts))

/-- Whether x is asked to leave before y (R366): the lowest priority, then the youngest launch, then the highest unit. -/
def leavesFirst (x y : Launch × Nat) : Bool :=
  if x.1.rcd.prio ≠ y.1.rcd.prio then x.1.rcd.prio < y.1.rcd.prio
  else if x.1.age ≠ y.1.age then y.1.age < x.1.age
  else y.2 ≤ x.2

/-- Ask units to leave one at a time, until their room will do. -/
def State.askRoom (s : State) (l : Launch) : State :=
  (sortBy leavesFirst (s.runningUnits.filter (fun x => x.1.rcd.prio < l.rcd.prio))).foldl (fun (s : State) x =>
    if (s.afterLeaving.freePlaces l).isSome then s else s.preemptUnit x.1.id x.2) s

/-! ## The events -/

/-- A launch with a unit to place whose context is scheduled; one that has not started is in a queue that runs (R357). -/
def State.wantsRoom (s : State) (l : Launch) : Bool :=
  l.nextPlace.isSome && !(s.ctx l.rcd.ctx).descheduled && (!l.unstarted || (s.hq l.hq).st == .running)

/-- A launch or a node of higher priority wants room (R366), an older launch of the same priority has room (R365), or a covered node
has yet to enter the pool. -/
def State.higher (s : State) (l : Launch) : Bool :=
  s.firstEntering.isSome ||
  s.launches.any (fun x => s.wantsRoom x &&
    (l.rcd.prio < x.rcd.prio || (l.rcd.prio == x.rcd.prio && x.age < l.age && (s.freePlaces x).isSome))) ||
  s.pool.any (fun x => s.kindOf x.2 == 1 && l.rcd.prio < x.2.rcd.prio)

/-- Banks in retention that a unit would take. -/
def State.dark (s : State) (ts : List Tenant) : List (Nat × Nat) := s.asleep ((ts.drop s.tenants.length).flatMap Tenant.banks)

/-- An image that a unit would come back from is poisoned (R395). -/
def State.badImage (s : State) (w : WaitUnit) : Bool := w.saved != [] && s.areaPoison w.addr w.room

/-- A unit is placed on the places given; where nothing has room others are asked to leave; a bank in retention is left first. -/
def State.placeUnit (s : State) (l : Launch) (w : WaitUnit) (places : List Nat) : State :=
  match s.fitUnit l w places with
  | none => if (s.freePlaces l).isNone then s.askRoom l else s
  | some (bs, ts) =>
    if s.dark ts ≠ [] then s.wake (s.dark ts)
    else if s.badImage w then s.faultCtx l.rcd.ctx { Ev.memue with detail := 0x0D, addr := some (BitVec.ofNat 64 w.addr) }
    else s.startUnit l w bs ts

/-- The FCP places the next unit of a launch on these places, one for each partition-level part. -/
def execBlockPlacement (launch : Nat) (cores : List Nat) (s : State) : Out :=
  .next (match s.launch? launch with
    | none => s
    | some l =>
      match l.nextPlace with
      | none => s
      | some w => if !s.fcpOn || !s.wantsRoom l || s.higher l then s else s.placeUnit l w cores)

/-- A block has completed (R111): its slices have ended and what they issued is done. -/
def State.blockOver (s : State) (b : Block) : Bool :=
  b.slices.all (fun x => x.ended && x.buf.isEmpty) && !s.cmds.any (fun c => c.block == some b.uid) &&
  !s.tasks.any (fun t => t.block == b.uid)

/-- A completed block leaves its cores. -/
def State.reap (s : State) (b : Block) : State :=
  let s := { s.publishAll b.uid with blocks := s.blocks.filter (fun x => x.uid != b.uid) }
  let s := s.modLaunch b.launch fun l => { l with blocksLeft := l.blocksLeft - 1 }
  if s.blocks.any (fun x => x.launch == b.launch && x.unit == b.unit) then s
  else { s with sched := { s.sched with preempts := s.sched.preempts.filter (fun p => !(p.launch == b.launch && p.unit == b.unit)) } }

/-- A launch leaves: its node is no longer in flight, and its set mask reaches ev. -/
def State.endLaunch (s : State) (l : Launch) : State :=
  let s : State := { s with launches := s.launches.filter (fun x => x.id != l.id) }
  let s := match l.graph with | some (slot, i) => s.modNode slot i (fun n => { n with running := false }) | none => s
  s.setBits l.rcd.ctx l.rcd.set

/-- A launch completes (R368). -/
def execLaunchComplete (launch : Nat) (s : State) : Out :=
  .next (match s.launch? launch with
    | none => s
    | some l => if l.blocksLeft ≠ 0 then s else s.endLaunch l)

end Sys2Proof.Machine
end

