-- ==== Sys2Proof/Machine/Preempt.lean ====
section
/-! DEFINITION. Leaving the cores (R392 to R395), the host's PREEMPT (R397) and the token buckets (R375). -/

namespace Sys2Proof.Machine

/-! ## Chrysalis images -/

/-- The 64-byte header of an image (R395). -/
def LaunchRec.imageHeader (r : LaunchRec) (b : Block) (lrec : Word) : List Byte :=
  let os := offsets 64 (r.imageParts b)
  let o (k : Nat) : Nat := os.getD k 0
  [0x43, 0x48, 0x52, 0x59] ++ leBytes 2 1 ++ leBytes 2 b.slices.length ++ leBytes 8 lrec.toNat ++ leBytes 4 b.num ++ leBytes 4 0 ++
  leBytes 8 (r.imageSize b) ++ leBytes 4 (o 1) ++ leBytes 4 (o 2) ++ leBytes 4 (o 3) ++ leBytes 4 (o 4) ++
  leBytes 4 (if r.det then o 5 else 0) ++ leBytes 4 (if b.shares.any (fun sh => sh.bookTag) then o 6 else 0) ++ leBytes 8 0

/-- A task's record as it was pushed (R195). -/
def TaskRec.bytes (t : TaskRec) : List Byte :=
  [1, BitVec.ofNat 8 t.amode, BitVec.ofNat 8 t.acc, BitVec.ofNat 8 ((if t.scl then 1 else 0) + 2 * t.obj + (if t.useobj then 16 else 0))] ++
  ([t.k, t.aoff, t.astr, t.boff, t.bstr, t.moff, t.soff].flatMap (leBytes 4)) ++ leBytes 8 t.gbase ++ leBytes 4 t.k0 ++ leBytes 4 t.p0 ++
  ([t.h, t.w, t.ch, t.ow].flatMap (leBytes 2)) ++
  ([t.kh, t.kw, t.sh * 16 + t.sw, t.dh * 16 + t.dw, t.ph, t.pw].flatMap (leBytes 1)) ++ leBytes 2 t.seq

/-- Bytes with zeros up to n. -/
def padTo (n : Nat) (bs : List Byte) : List Byte := bs ++ List.replicate (n - bs.length) 0

/-- The parts of an image in order (R395), by offset in the image: slots, tiles, tasks and codebooks as they stand. A task's private
counts lie as in an exception word (R194), which the manual does not say; the bytes of the other parts are the KM740's own (log entry
58). -/
def State.imagePart (s : State) (r : LaunchRec) (b : Block) (part at_ n : Nat) : List Byte :=
  let own (o n : Nat) : List Byte := (List.range n).map fun i => Config.imageByte (s.fresh + 1) (o + i)
  let tasks (k : Nat) : List Byte :=
    (s.tasks.filter fun t => t.block == b.uid && t.share == k && t.rcd.k != 0).flatMap fun t =>
      t.rcd.bytes ++ leBytes 4 t.chunks ++ leBytes 12 (excAfter 0 t.counts 0).toNat
  match part with
  | 1 => b.shares.flatMap fun sh => sh.read 0 r.slotBytes
  | 2 => padTo n (b.shares.flatMap fun sh => (List.range r.accn).flatMap fun k => (sh.tile k).image)
  | 3 => (List.range b.shares.length).flatMap fun k => padTo 5120 (tasks k)
  | 6 => (b.shares.filter fun sh => sh.bookTag).flatMap fun sh => Cells.bytes sh.book 0 16384
  | _ => own at_ n

/-- A block's image. -/
def State.writeImage (s : State) (l : Launch) (a : Nat) (b : Block) : State :=
  let ns := l.rcd.imageParts b
  let s := s.areaWrite a (l.rcd.imageHeader b l.addr)
  let s := ((offsets 64 ns).zip ns).zipIdx.foldl (fun (s' : State) x =>
    s'.areaWrite (a + x.1.1) (s.imagePart l.rcd b x.2 x.1.1 x.1.2)) s
  { s with fresh := s.fresh + 1 }

/-- The images of a unit, one after another. -/
def State.writeImages (s : State) (l : Launch) : Nat → List Block → State
  | _, [] => s
  | a, b :: bs => (s.writeImage l a b).writeImages l (roundUp (a + l.rcd.imageSize b) 64) bs

/-! ## Saving and flushing -/

def CmdKind.outlives : CmdKind → Bool
  | .fetch .. | .coll _ | .grant .. => true
  | _ => false

/-- A copy of any block or packet is aimed at a window of these blocks (R293). -/
def State.aimsAt (s : State) (uids : List Nat) (c : Cmd) : Bool :=
  c.kind.copies && (s.cmdMoves c).1.any fun m => !m.dst.scr &&
    (match s.phys? c.ctx m.dst.addr with
    | .ok p => Pte.tgt p.pte = 5 && (match s.opmLoc c.ctx p.pa with | some x => uids.contains x.block | none => false)
    | .error _ => false)

/-- What a unit has issued is settled (R393), and the copies aimed at its windows have ended (R293); an APPEND that still waits is
withdrawn. -/
def State.settled (s : State) (uids : List Nat) : Bool :=
  s.cmds.all fun c => !s.aimsAt uids c && (match c.block with | some b => !uids.contains b || c.kind.outlives | none => true)

/-- APPENDs that wait for their grant are withdrawn: they have not retired, and their slices issue them again on resumption (R393). -/
def State.withdraw (s : State) (uids : List Nat) : State :=
  let out (c : Cmd) : Bool := match c.kind, c.block with | .grant .., some b => uids.contains b | _, _ => false
  { s with
    cmds := s.cmds.filter (fun c => !out c)
    blocks := s.blocks.map fun b =>
      if uids.contains b.uid then
        { b with slices := b.slices.map fun x => match x.wait with | .append _ => { x with wait := .span [] } | _ => x }
      else b }

/-- Poison among the bytes of the slots and tiles that a block holds. -/
def State.blockPoison (s : State) (b : Block) : Bool :=
  (b.tenants (s.lrOf b)).any fun t => (s.cleanShare t).mem.poison.length != s.mem.poison.length

/-- A unit's images are complete: its blocks leave their cores. -/
def State.saveUnit (s : State) (l : Launch) (p : Preempt) (bs : List Block) : State :=
  let uids := bs.map fun b => b.uid
  let bad := bs.any s.blockPoison
  let s := uids.foldl State.publishAll (s.withdraw uids)
  let bs := s.blocks.filter (fun b => uids.contains b.uid)
  let s := (bs.flatMap fun b => b.tenants (s.lrOf b)).foldl State.cleanShare s
  let s := s.writeImages l p.addr bs
  let s : State := if bad then { s with mem := { s.mem with poison := t1Key false p.addr :: s.mem.poison } } else s
  let s : State := { s with
    blocks := s.blocks.filter (fun b => !uids.contains b.uid)
    tasks := s.tasks.map fun t => if uids.contains t.block then { t with running := false, core := Config.cores } else t }
  s.modLaunch l.id fun x => { x with waiting := x.waiting ++ [{ unit := p.unit, saved := bs, todo := [], addr := p.addr, room := p.room }] }

/-- A unit is flushed (R394): what its stores performed stands, and its blocks start anew. -/
def State.flushUnit (s : State) (l : Launch) (p : Preempt) (bs : List Block) : State :=
  let uids := bs.map fun b => b.uid
  let r := l.rcd
  let s := uids.foldl State.publishAll (s.withdraw uids)
  let s : State := { s with
    blocks := s.blocks.filter (fun b => !uids.contains b.uid)
    tasks := s.tasks.filter (fun t => !uids.contains t.block)
    fabric := { s.fabric with landings := s.fabric.landings.filter (fun z => !uids.contains z.block) } }
  let within (x : Barrier) : Bool := x.level ≤ r.blklv && bs.any fun b => x.idx * r.slicesIn x.level / r.slicesIn r.blklv == b.num
  s.modLaunch l.id fun x =>
    { x with bars := x.bars.filter (fun z => !within z)
             waiting := x.waiting ++ [{ unit := p.unit, saved := [], todo := bs.map (fun b => b.num), addr := 0, room := 0 }] }

/-- The blocks of a running unit. -/
def State.unitOf (s : State) (launch unit : Nat) : List Block := s.blocks.filter (fun b => b.launch == launch && b.unit == unit)

/-- The pre-emption that saves or flushes a unit. -/
def State.leaving (s : State) (launch unit : Nat) : Option Preempt :=
  s.sched.preempts.find? (fun p => p.launch == launch && p.unit == unit && (p.act == .save || p.act == .flush))

/-- A pre-emption is over. -/
def State.dropPreempt (s : State) (launch unit : Nat) : State :=
  { s with sched := { s.sched with preempts := s.sched.preempts.filter (fun q => !(q.launch == launch && q.unit == unit)) } }

/-- The work of a unit that is saved or flushed settles, and the unit leaves. -/
def execChrysalisSaveComplete (launch unit : Nat) (s : State) : Out :=
  .next (match s.leaving launch unit, s.launch? launch with
    | some p, some l =>
      let bs := s.unitOf launch unit
      if !s.settled (bs.map fun b => b.uid) then s
      else if p.act == .save then (s.dropPreempt launch unit).saveUnit l p bs
      else (s.dropPreempt launch unit).flushUnit l p bs
    | _, _ => s)

/-- What becomes of a drain that has not ended within its time: a save where there is room, or a drain that goes on (R392). -/
def State.drainLate (s : State) (l : Launch) (launch unit : Nat) (p : Preempt) : Preempt :=
  let n := ((s.unitOf launch unit).map fun b => l.rcd.imageSize b).foldl (· + ·) 0
  if p.launch == launch && p.unit == unit && (p.act == .drain || p.act == .drainFor) then
    match s.chrysRoom l.rcd.ctx n with
    | some a => { p with act := .save, addr := a, room := n }
    | none => { p with act := .drainFor }
  else p

def execDrainTimeout (launch unit : Nat) (s : State) : Out :=
  .next (match s.launch? launch with
    | none => s
    | some l => { s with sched := { s.sched with preempts := s.sched.preempts.map (s.drainLate l launch unit) } })

/-- Every running unit of a context is pre-empted. -/
def State.preemptCtx (s : State) (c : Nat) : State :=
  (s.runningUnits.filter (fun x => x.1.rcd.ctx == c)).foldl (fun (s : State) x => s.preemptUnit x.1.id x.2) s

def execPreempt (ctx : Nat) (s : State) : Out := .next (if s.hostOpen then s.preemptCtx ctx else s)

/-! ## Token buckets (R375) -/

/-- A µs of an enabled bucket: the debit, then the refill up to capacity. -/
def Bucket.tick (b : Bucket) (debit : Nat) : Bucket :=
  if b.cap = 0 then b
  else
    let x := b.level - (debit : Int)
    { b with level := if x < b.cap then min b.cap (x + b.rate) else x }

/-- Cores that hold a block of a context. -/
def State.coresHeld (s : State) (c : Nat) : Nat :=
  (((s.blocks.filter (fun b => (s.lrOf b).ctx == c)).flatMap fun b => b.shares.map fun sh => sh.core).eraseDups).length

/-- A µs of every context's buckets: what its engines have moved is counted here, and its slices' traffic through the caches is
given with the event (log entry 36). -/
def State.tickBuckets (s : State) (bytes energy : List Nat) : State :=
  { s with ctxs := s.ctxs.mapIdx fun c x =>
      { x with time := x.time.tick (s.coresHeld c), bytes := x.bytes.tick (x.moved + bytes.getD c 0)
               energy := x.energy.tick (energy.getD c 0), moved := 0 } }

/-- Contexts that are descheduled leave their cores. -/
def State.leaveCores (s : State) : State :=
  (List.range s.ctxs.length).foldl (fun (s : State) c => if (s.ctx c).descheduled then s.preemptCtx c else s) s

/-- Each µs: debits and refills; the bytes that slices moved and the energy estimates come by context. -/
def execTokenBucketTick (bytes energy : List Nat) (s : State) : Out := .next (s.tickBuckets bytes energy).leaveCores

end Sys2Proof.Machine
end

