-- ==== Sys2Proof/Machine/Det.lean ====
section
/-! DEFINITION. The rounds of a deterministic block (R254 to R256): the end of a quantum, the commit of the private buffers, the
serial phase and the next round. -/

namespace Sys2Proof.Machine

/-! ## The end of a quantum (R255) -/

/-- The s registers from `n` on that an instruction's operand names (R233, R196, R295, R300, R334). -/
def Instr.sRegs (i : Instr) : List Nat :=
  i.uses.flatMap fun u =>
    match u.o with
    | .s n =>
      let k : Nat := match i with
        | .qpostTask .. | .mcmp .. => 8
        | .qpost _ _ a _ => if u.o == a then 8 else 1
        | .stsplit _ _ _ a _ _ => if u.o == a then 2 else 1
        | .ldsplit _ _ _ _ a _ => if u.o == a then 2 else 1
        | .collSend _ _ _ _ c | .collGet _ _ _ _ c | .collMcast _ _ _ _ c | .collRsend _ _ _ _ _ _ c => if u.o == c then 2 else 1
        | _ => 1
      (List.range k).map fun j => n.toNat + j
    | _ => []

/-- The instruction at a slice's pc, if its words decode. -/
def State.instrAt (s : State) (b : Block) (x : Slice) : Option Instr :=
  let r := s.lrOf b
  if x.hword.isNone then none
  else
    match s.fetchWord r.ctx x.pc.toNat with
    | .error _ => none
    | .ok w =>
      let nx := VA.plus x.pc 1
      let next : Option Word := if nx == x.blockEnd then none else some (match s.fetchWord r.ctx nx.toNat with | .ok v => v | .error _ => 0)
      match decodeAt x.live r.accn w next with
      | .ok i => some i
      | .error _ => none

/-- The lane registers that an instruction's operands name, as the scoreboard numbers them (R277). -/
def Instr.vRegs (i : Instr) : List Nat :=
  i.uses.flatMap fun u => match u.o with | .v n => (List.range u.regs).map fun j => 64 + n.toNat + j | _ => []

/-- The commands whose replies the instruction at a slice's pc waits for (R99). -/
def State.waitsFor (s : State) (b : Block) (x : Slice) : List Nat :=
  if x.pend = [] then []
  else match s.instrAt b x with
    | some i => (x.pend.filter (fun p => (Instr.sRegs i ++ Instr.vRegs i).contains p.1)).map (fun p => p.2)
    | none => []

/-- A gang whose quantum is over (R255): its count is reached, a buffer is full, or it waits for the reply to a command that its own
buffer still holds. -/
def State.quantumOver (s : State) (b : Block) (l : List Slice) : Bool :=
  l.any fun x => x.quantum ≥ x.qlenNow || x.buf.length ≥ Config.bufEntries || (s.waitsFor b x).any fun n => (bufCmds x.buf).contains n

def execQuantumEnd (blk gang : Nat) (s : State) : Out :=
  .next (match s.blocks.find? (fun b => b.uid == blk) with
    | none => s
    | some b =>
      let l := b.gangSlices gang
      if (s.lrOf b).det && l.all (fun x => x.qphase == .running && x.stop == .none) && s.quantumOver b l then
        s.modBlock blk fun b => b.putSlices (l.map Slice.endQuantum)
      else s)

/-! ## The commit phase -/

/-- What committing one entry comes to. -/
inductive Committed where
  | done (s : State)
  | waits (s : State) (forced : Bool)
  | bad (s : State) (e : Ev)

/-- The enabled bytes of a store: their keys and values. -/
def storeCells (key : Nat) (d : List (Option Byte)) : List (Nat × Byte) :=
  d.zipIdx.filterMap fun x => x.1.map fun v => (key + x.2, v)

/-- On-chip bytes. -/
def State.opmPoke (s : State) (c : Nat) (ws : List (Nat × Byte)) : State :=
  ws.foldl (fun s w =>
    match s.opmLoc c (w.1 - opmKey 0) with
    | some l => { s.opmWrite l w.2 with mem := { s.mem with poison := s.mem.poison.filter (fun k => k != w.1) } }
    | none => s) s

/-- The memory that a committed store reaches has been lost since the store was made: its peer, or its plane where no partner has taken
over (R326, R354). -/
def State.commitLost (s : State) (pte : Word) : Option Ev :=
  let k := Pte.node pte % 16
  let gone (k : Nat) : Bool := s.fabric.lostPlanes.contains k
  if Pte.tgt pte = 3 && s.fabric.lostPeers.contains (Pte.node pte) then some { Ev.peerlost with unit_ := Pte.node pte }
  else if s.lostPage pte || (Pte.tgt pte = 4 && gone k && (partnerOf pte).all gone) then some { Ev.swlost with unit_ := k }
  else none

/-- Commit a store (R254, R259, R312, R321) where its page lies now (R283), and its place in logical time (R242); one that writes no byte
leaves no tag and no lease (R229). One that has forced the fetch of its span waits until the span is RESIDENT and then writes the copy;
it is not appended before that. -/
def State.commitStore (s : State) (b : Block) (sl : Slice) (x : BufStore) : Committed :=
  let c := (s.lrOf b).ctx
  let key := s.keyNow c x
  let n := x.data.length
  if opmKey 0 ≤ key then
    let s := (s.opmPoke c (storeCells key x.data)).storeTick b sl.num key
    .done (match x.path with | some (k, id) => s.modShare b.uid sl.share (fun sh => sh.returnPath k id) | none => s)
  else
    let p := s.homeOf c x
    if s.taggedOff b p n true then .bad s Ev.detx
    else
    match s.commitLost p.pte with
    | some e => .bad s e
    | none =>
      let empty := !x.data.any Option.isSome
      let mark (s : State) : State :=
        let s := (if empty then s else s.tagAccess b p n true).travels c p (x.data.filter Option.isSome).length true
        s.storeMark b sl p x.data
      if s.blocked p then .waits s x.forced
      else if s.inAbsentSpan p then
        let es := (storeEntries (p.pa % 2 ^ 16) true x.data).map fun e => (spanOf p.pa, e)
        if x.forced || s.lacksRoom es != [] then .waits (s.startFetch (spanOf p.pa)) true
        else .done ((mark s).appendAll es)
      else .done ((mark s).writeBytes b sl none 0 x.nt none p x.data)

/-- A CMAINT of a deterministic launch acts at its place in the commit. -/
def sendCmaint (sc : Scope) (k : MaintKind) : Sender := fun s b sl _ args =>
  .done (s.maintRange b sl sc k (args.headD 0).toNat (args.getD 1 0).toNat) .none

/-- How a buffered command is sent. -/
def senderOf (r : LaunchRec) : Instr → Option Sender
  | .qpostTask .. => some sendPush
  | .mzero .. => some sendMzero
  | .mbobjArrive .. => some sendArrive
  | .cpy _ d _ _ _ => some (sendCpy (dstOf d))
  | .cpyt _ ty cb d _ => some (sendCpyt r ty cb (dstOf d))
  | .cbook _ d _ => some (sendCbook (dstOf d))
  | .qpost _ d _ _ => some (sendQpost (dstOf d))
  | .mred .. => some sendMred
  | .mcmp _ ty rn op _ => some (sendMcmp ty rn op)
  | .spanfet _ d _ _ => some (sendSpanfet (dstOf d))
  | .cmaint _ sc k _ _ => some (sendCmaint sc k)
  | .spanctlCap .. => some (sendSpanctl fun s n v => s.setCap n v.toNat)
  | .spanctlPol .. => some (sendSpanctl State.setPol)
  | .spanctlEvict .. => some (sendSpanctl fun s n _ => s.evictSpan n)
  | _ => none

/-- A command has left the buffer: register writes made now end its slice's wait for them, and a reply that comes later comes under
the number that the command has taken at its commit. -/
def Slice.committed (sl : Slice) (id : Nat) (n : Note) : Slice :=
  match n with
  | .cmd k => { sl with pend := sl.pend.map fun p => if p.2 == id then (p.1, k) else p }
  | .vals ws => { sl.writeAll ws with pend := sl.pend.filter (fun p => p.2 != id) }
  | .none => { sl with pend := sl.pend.filter (fun p => p.2 != id) }

/-- The entry at the head of a slice's buffer belongs to its open region, and not to a handler (R386). -/
def Slice.openEntry (sl : Slice) : Bool := sl.ck.bufLen == 0 && (!sl.handling || sl.trapLen != 0)

/-- A command that commits while its region is open has taken effect, and counts (R214, R256, R301). -/
def Slice.counted (sl : Slice) (i : Instr) (n : Note) : Slice :=
  match if sl.openEntry then Instr.supKind i else none with
  | some (k, logs) => sl.setSup k ((sl.sup k).note logs n)
  | none => sl

/-- Commit one entry of a slice's buffer. A command takes its number, by which units know the order of acceptance, now (R212), and
finds what stands before it in its buffer in memory; one that has forced a fetch is told so by a word behind its arguments. -/
def State.commitEntry (s : State) (b : Block) (sl : Slice) : BufEntry → Committed
  | .store x =>
    match s.commitStore b sl x with
    | .done s' => .done (if x.last && sl.openEntry then s'.modSlice b.uid sl.num fun y => { y with supS := y.supS.perform none } else s')
    | r => r
  | .command i pc _ _ id args f =>
    match senderOf (s.lrOf b) i with
    | none => .done s
    | some send =>
      match send s.newId.2 b { sl with pc, buf := [] } s.newId.1 (args ++ if f then [1] else []) with
      | .done s' n => .done (s'.modSlice b.uid sl.num fun x => (x.committed id n).counted i n)
      | .waits s' => .waits { s with spans := s'.spans } false
      | .forced s' => .waits { s with spans := s'.spans } true
      | .bad e => .bad s { e with at_ := some pc }

/-- An entry whose commit has forced a fetch. -/
def BufEntry.force (e : BufEntry) (forced : Bool) : BufEntry :=
  match e with
  | .store x => .store { x with forced := x.forced || forced }
  | .command i pc am part id args f => .command i pc am part id args (f || forced)

/-- A copy or a base-die command of the block is still out. What such a command of a deterministic launch leaves in memory must be the
same in every run (R25), and R254 has it issue at its place in the commit: the model lets it end there too, before the next entry commits
and before the serial phase (log entry 17). -/
def State.unitsBusy (s : State) (blk : Nat) : Bool :=
  s.cmds.any fun c => c.block == some blk && (c.kind.copies || match c.kind with | .red _ | .mcmp .. => true | _ => false)

/-- Commit a slice's buffer as far as it goes: whether it came to its end. A checkpoint counts the entries that are still there (R384). -/
def State.commitSlice (s : State) (blk num : Nat) : Nat → Bool × State
  | 0 => (true, s)
  | n + 1 =>
    match (s.block? blk).bind fun b => (b.slice? num).map fun x => (b, x) with
    | none => (false, s)
    | some (b, x) =>
      match x.buf with
      | [] => (true, s)
      | e :: rest =>
        if s.unitsBusy blk then (false, s) else
        match s.commitEntry b x e with
        | .waits s' f => (false, s'.modSlice blk num fun y => { y with buf := e.force f :: rest })
        | .bad s' ev => (false, s'.contextFault (s.lrOf b).ctx (s.faultRec b x ev))
        | .done s' => (s'.modSlice blk num fun y => { y with buf := rest, trapLen := y.trapLen - 1, ck := { y.ck with bufLen := y.ck.bufLen - 1 } }).commitSlice blk num n

/-- Commit the buffers of slices in ascending order. -/
def State.commitAll (s : State) (blk : Nat) : List Slice → Bool × State
  | [] => (true, s)
  | x :: xs =>
    match s.commitSlice blk x.num (x.buf.length + 1) with
    | (true, s') => s'.commitAll blk xs
    | r => r

/-- Every live slice has ended its quantum, waits, or stands at a synchronising operation. -/
def Block.roundOver (b : Block) : Bool := b.slices.all fun x => x.ended || (x.qphase != .running && x.stop == .none)

def execDetCommitPhase (blk : Nat) (s : State) : Out :=
  .next (match s.blocks.find? (fun b => b.uid == blk) with
    | none => s
    | some b =>
      if !(s.lrOf b).det || s.halted b || b.round == .serial || !b.roundOver then s
      else
        match (s.modBlock blk fun b => { b with round := .commit }).commitAll blk b.slices with
        | (true, s') => if s'.unitsBusy blk then s' else s'.modBlock blk fun b => { b with round := .serial }
        | (false, s') => s')

/-! ## The serial phase -/

/-- The slice whose synchronising operation is the least that remains. -/
def Block.nextSerial (b : Block) : Option Slice :=
  (b.slices.filter (fun x => !x.ended && x.qphase == .atSerial)).foldl (fun (acc : Option Slice) x =>
    match acc with
    | none => some x
    | some y => some (if x.clock < y.clock || (x.clock == y.clock && x.num < y.num) then x else y)) none

/-- A waiting slice whose wait is over, or an MBOBJ.WAIT whose phase has been filled, has its turn in this phase. -/
def State.comesDue (s : State) (b : Block) (x : Slice) : Bool :=
  !x.ended && x.qphase == .ended &&
  match x.wait with
  | .bar k | .barWait k => s.barOver b x k
  | .mbobj share obj p => ((b.share share).obj obj).passed p || ((b.share share).obj obj).allFilled p
  | .fence vals _ => !s.farDue b x.num vals
  | _ => false

/-- The slices of a gang part by their pcs (R97). -/
def partAll (first : Nat) (l : List Slice) : List Slice × Nat :=
  ((l.map (fun x => x.gang)).eraseDups).foldl (fun (acc : List Slice × Nat) g =>
    let (r, n) := partGang acc.2 (l.filter (fun x => x.gang == g))
    (acc.1 ++ r, n)) ([], first)

/-- The next round: a slice that still waits has run an empty quantum. -/
def Slice.nextRound (x : Slice) : Slice :=
  let x := { x with quantum := 0, qlenNow := x.qlen.toNat }
  if x.wait == .none then { x with qphase := .running } else { x.openRegion (x.repHere x.wait) with qphase := .ended }

def State.newRound (s : State) (b : Block) : State :=
  let (l, n) := partAll s.nextId ((b.slices.filter (fun x => !x.ended)).map Slice.nextRound)
  { s.modBlock b.uid (fun b => { b.putSlices l with round := .parallel }) with nextId := n }

/-- The least operation that remains is performed next; then what has come due; then the next round begins. -/
def execDetSerialPhase (blk : Nat) (s : State) : Out :=
  .next (match s.blocks.find? (fun b => b.uid == blk) with
    | none => s
    | some b =>
      if !(s.lrOf b).det || s.halted b || b.round != .serial || !b.roundOver then s
      else
        match b.nextSerial with
        | some x => { s with agenda := .serial blk x.num :: s.agenda }
        | none =>
          let r := s.lrOf b
          let s1 := (((b.slices.filter (fun x => !x.ended && x.wait == .regang)).map (fun x => r.partOf 1 x.gnum)).eraseDups).foldl
            (fun (s : State) g => s.regangTry blk g) s
          match s1.block? blk with
          | none => s1
          | some b1 =>
            let due := b1.slices.filter (s1.comesDue b1)
            if due = [] then s1.newRound b1
            else s1.modBlock blk fun b => b.putSlices (due.map fun x => { x with qphase := .atSerial }))

end Sys2Proof.Machine
end

