-- ==== Sys2Proof/Machine/Fetch.lean ====
section
/-! DEFINITION. The words that a gang reads in its turn (R39, R57): the word at its pc, an extension word, and the headers that a
transfer, a loop or the end of a block looks at. They are read as other words are: they wait for a page under migration (R283), a span
on its way out (R304) or a plane (R352), ask for the fetches of spans (R315), and leave by a plane where they lie on another module
(R328). -/

namespace Sys2Proof.Machine

/-- The word after the one at a slice's pc, where it lies in the slice's block. -/
def State.nextInBlock (s : State) (c : Nat) (x : Slice) : Option (Except Ev Word) :=
  if VA.plus x.pc 1 == x.blockEnd then none else some (s.fetchWord c (VA.plus x.pc 1).toNat)

/-- A slice's reading of the word at its pc: LIVE and the end of the block are those of the block that the slice is in. -/
def State.decodeIn (s : State) (b : Block) (w : Word) (x : Slice) : Except Nat Instr :=
  decodeAt x.live (s.lrOf b).accn w ((s.nextInBlock (s.lrOf b).ctx x).map fun r => (okOf r).getD 0)

/-- Where an instruction would transfer to in a slice, and the lanes that would go there (R102 to R106). -/
def Instr.aim (e : Env) (sl : Slice) : Instr → Mask × VA
  | .bra g off | .call g _ off => (sl.part_ g, offTarget sl off)
  | .brp g c p off => (brpMask c sl.am (sl.part_ g) (sl.rp p.toNat), offTarget sl off)
  | .brx g a | .ret g a =>
    let x := svalOf e sl a
    (if x.toNat ≥ 2 ^ 57 || x.toNat % 8 ≠ 0 then 0 else sl.part_ g, x.setWidth 57)
  | _ => (0, 0)

/-- The headers of a transfer: its target's, and where the gang diverges the reconvergence header's (R92). -/
def Slice.aimHeads (sl : Slice) (x : Mask × VA) : List VA :=
  let off : BitVec 16 := match sl.hword with | some w => Hdr.rcv w | none => 0
  if x.1 = 0 then [] else x.2 :: if x.1 = sl.am || off = 0 then [] else [VA.plus sl.hdr off.toInt]

/-- The header that the end of a block at `hdr` looks at: that of the innermost level ending there which goes on (R108). -/
def Slice.endHeads (sl : Slice) (hdr : VA) : List VA :=
  ((sl.order.filter fun k => (sl.lpOf k).act && (sl.lpOf k).endh == hdr && (sl.lpOf k).count.toNat > 1).take 1).map fun k => (sl.lpOf k).start

/-- The headers that an instruction looks at in a slice (R92, R95, R107, R387): EmptyMask may need those of every level's end. -/
def Instr.heads (e : Env) (sl : Slice) (i : Instr) : List VA :=
  match i with
  | .loop g l _ off => if sl.part_ g = 0 || (sl.lpOf l.toNat).act then [] else [sl.blockEnd, offTarget sl off]
  | .lbrk g _ | .exit g => if sl.am &&& ~~~ sl.part_ g = 0 then sl.order.map fun k => (sl.lpOf k).endh else []
  | .eret g => if sl.handling && sl.part_ g != 0 && sl.ck.rep.header then [sl.ck.rep.pc] else []
  | _ => sl.aimHeads (Instr.aim e sl i)

/-- The words that a slice reads in its turn. -/
def State.wordsOf (s : State) (b : Block) (x : Slice) : List VA :=
  if x.hword.isSome && x.pc == x.blockEnd then x.endHeads x.hdr
  else
    x.pc :: match s.fetchWord (s.lrOf b).ctx x.pc.toNat with
      | .error _ => []
      | .ok w =>
        if x.hword.isNone then (if Hdr.isHeader w && Hdr.len w = 1 then x.endHeads x.pc else [])
        else
          match s.decodeIn b w x with
          | .error _ => []
          | .ok i =>
            let n : Int := if i.extWord.isSome then 2 else 1
            (if i.extWord.isSome then [VA.plus x.pc 1] else []) ++ Instr.heads (s.envOf b x) x i ++
              if VA.plus x.pc n == x.blockEnd then x.endHeads x.hdr else []

/-- The words that a gang reads in its turn. -/
def State.wordsRead (s : State) (b : Block) (l : List Slice) : List VA := (l.flatMap (s.wordsOf b)).eraseDups

/-- Some of these words cannot be read yet (R283, R304, R352). -/
def State.fetchHeld (s : State) (b : Block) (l : List Slice) : Bool :=
  (s.wordsRead b l).any fun v => s.vaBlocked (s.lrOf b).ctx v.toNat 8

/-- A word is fetched: its translation is remembered (R220), a first read-through may ask for its span (R315), and it comes from another
module by a plane (R328). -/
def State.fetchOne (s : State) (c : Nat) (v : VA) : State :=
  match s.phys? c v.toNat with
  | .error _ => s
  | .ok p => ((s.remember c v.toNat).policyFetch p).sendOut p false

/-- The words of a gang's turn are fetched. -/
def State.fetched (s : State) (b : Block) (l : List Slice) : State :=
  (s.wordsRead b l).foldl (fun s v => s.fetchOne (s.lrOf b).ctx v) s

/-- The handler of a gang cannot be looked at while its page is moved (R283, R304): the gang, which might need it, waits. -/
def State.handlerMoves (s : State) (b : Block) (x : Slice) : Bool :=
  x.trapvec != 0 && !x.handling &&
  match s.phys? (s.lrOf b).ctx x.trapvec.toNat with
  | .ok p => s.mem.frozen.contains (frozenPage p) || s.evicting p
  | .error _ => false

end Sys2Proof.Machine
end

