-- ==== Sys2Proof/Machine/Host.lean ====
section
/-! DEFINITION. What the host and the module's surroundings do: the host window (R358, R397), host accesses (R397), the root
mailbox (R399, R401), page migration (R283), retention and soft errors (R239), and the loss of links, peers and planes (R326, R352
to R355). -/

namespace Sys2Proof.Machine

/-! ## The host window -/

/-- A signed 64-bit value of a bucket register. -/
def signed64 (x : Word) : Int := sgn 64 x.toNat

/-- A base or a size, where it keeps its alignment; otherwise the register keeps its old value. -/
def aligned (n : Nat) (x : Word) (old : Nat) : Nat := if x.toNat % n = 0 then x.toNat else old

/-- One word of an event vector takes a value. -/
def putWord (ev : BitVec 256) (w : Nat) (v : Word) : BitVec 256 :=
  (ev &&& ~~~ ((BitVec.allOnes 64).setWidth 256 <<< (64 * w))) ||| (v.setWidth 256 <<< (64 * w))

/-- A write to one of a context's registers (R397) that names the context's tables, areas and buckets, or to a word of its event
registers (R362), whose place in the window is the model's (log entry 40). -/
def Ctx.hostWrite (x : Ctx) (off : Nat) (v : Word) : Ctx :=
  match off with
  | 0 => { x with ptroot := v &&& 0x007FFFFFFFFFC001#64 }
  | 16 => { x with tenant := v.toNat % 2 ^ 16 }
  | 24 => { x with chrysB := aligned (2 ^ 16) v x.chrysB }
  | 32 => { x with chrysS := aligned (2 ^ 16) v x.chrysS }
  | 40 => { x with spanB := aligned (2 ^ 25) v x.spanB }
  | 48 => { x with spanS := aligned (2 ^ 25) v x.spanS }
  | 56 => { x with scacheB := aligned (2 ^ 25) v x.scacheB }
  | 64 => { x with scacheS := aligned (2 ^ 25) v x.scacheS }
  | 72 => { x with swwinB := aligned (2 ^ 25) v x.swwinB }
  | 80 => { x with swwinS := aligned (2 ^ 25) v x.swwinS }
  | 88 => { x with pfring := aligned (2 ^ 13) v x.pfring }
  | 112 => { x with time := { x.time with cap := signed64 v } }
  | 120 => { x with time := { x.time with rate := signed64 v } }
  | 128 => { x with bytes := { x.bytes with cap := signed64 v } }
  | 136 => { x with bytes := { x.bytes with rate := signed64 v } }
  | 144 => { x with energy := { x.energy with cap := signed64 v } }
  | 152 => { x with energy := { x.energy with rate := signed64 v } }
  | 224 => { x with ev := putWord x.ev 0 v }
  | 232 => { x with ev := putWord x.ev 1 v }
  | 240 => { x with ev := putWord x.ev 2 v }
  | 248 => { x with ev := putWord x.ev 3 v }
  | _ => x

/-- A context's block of the window. -/
def State.ctxRegWrite (s : State) (c off : Nat) (v : Word) : State :=
  match off with
  | 8 => if v = 1 then s.tlbinv c else s
  | 96 =>
    let id := v.toNat % 2 ^ 16
    match v.toNat / 2 ^ 62 with
    | 1 => s.pfresResume c id
    | 2 => s.pfresFail c id
    | _ => s
  | 104 => if v = 1 then s.preemptCtx c else s
  | 160 => s.faultClear c
  | _ => s.setCtx c fun x => x.hostWrite off v

/-- HQBIND (R397). -/
def State.bindQueue (s : State) (q : Nat) (v : Word) : State :=
  s.modHq q fun h => { h with bound := v.getLsbD 8, ctx := v.toNat % 64 }

/-- A job's binding (R330, R397): a job that is bound has sequence number 0 and no open instance. -/
def State.bindJob (s : State) (j : Nat) (v : Word) : State :=
  s.modJob j fun x => { Job.reset with bound := v.getLsbD 8, ctx := v.toNat % 64, announced := x.announced }

/-- A queue's block of the window. -/
def State.queueWrite (s : State) (q off : Nat) (v : Word) : State :=
  match off with
  | 0 => s.hqsub q v
  | 16 => if v = 1 then s.hqctlRestart q else if v = 2 then s.hqctlRemoveHead q else if v = 3 then s.hqctlClearOvf q else s
  | 24 => s.bindQueue q v
  | _ => s

/-- A host write to the window: registers at their offsets; nothing answers in recovery (R398). -/
def State.windowWrite (s : State) (off : Nat) (v : Word) : State :=
  if !s.hostOpen then s
  else if 0x10_0000 ≤ off && off < 0x10_1000 then s.queueWrite ((off - 0x10_0000) / 64) (off % 64) v
  else if off = 0x10_1000 then s.graphUpload v
  else if off = 0x10_1010 then s.graphFree (v.toNat)
  else if 0x10_2000 ≤ off && off < 0x10_2800 && off % 8 == 0 then s.graphKick ((off - 0x10_2000) / 8) v
  else if 0x10_4000 ≤ off && off < 0x10_4200 && off % 8 == 0 then s.bindJob ((off - 0x10_4000) / 8) v
  else if 0x20_0000 ≤ off && off < 0x20_4000 then s.ctxRegWrite ((off - 0x20_0000) / 256) (off % 256) v
  else s

def execHostRegisterWrite (off : Nat) (value : Word) (s : State) : Out := .next (s.windowWrite off value)

/-- The 64 bytes of a fault record (R391). -/
def FaultRec.image (r : FaultRec) : List Byte :=
  leBytes 8 r.cause.toNat ++ leBytes 8 r.addr.toNat ++ leBytes 8 r.rep.toNat ++ leBytes 4 r.rcnt ++ leBytes 4 r.block ++
  leBytes 2 r.hq ++ leBytes 2 r.pos ++ leBytes 2 r.peer ++ List.replicate 26 0

/-- Eight bytes of a context's fault record; zero where no fault stands. -/
def Ctx.faultWord (x : Ctx) (off : Nat) : Word := BitVec.ofNat 64 (match x.fault with | some r => field (FaultRec.image r) off 8 | none => 0)

/-- What a context's register reads (R397). TLBINV reads 1 until the invalidation is done, which here it is at once; that the other
registers read what they hold, and PFRES and PREEMPT zero, is log entry 60. -/
def Ctx.hostRead (x : Ctx) (off : Nat) : Word :=
  let nat (n : Nat) : Word := BitVec.ofNat 64 n
  let int (n : Int) : Word := BitVec.ofInt 64 n
  match off with
  | 0 => x.ptroot
  | 16 => nat x.tenant
  | 24 => nat x.chrysB
  | 32 => nat x.chrysS
  | 40 => nat x.spanB
  | 48 => nat x.spanS
  | 56 => nat x.scacheB
  | 64 => nat x.scacheS
  | 72 => nat x.swwinB
  | 80 => nat x.swwinS
  | 88 => nat x.pfring
  | 112 => int x.time.cap
  | 120 => int x.time.rate
  | 128 => int x.bytes.cap
  | 136 => int x.bytes.rate
  | 144 => int x.energy.cap
  | 152 => int x.energy.rate
  | _ =>
    if off % 8 ≠ 0 then 0
    else if 160 ≤ off && off < 224 then x.faultWord (off - 160)
    else if 224 ≤ off then (x.ev >>> (8 * (off - 224))).setWidth 64
    else 0

/-- A binding as HQBIND and the job bindings lay it out (R397). -/
def bindWord (bound : Bool) (ctx : Nat) : Word := BitVec.ofNat 64 (ctx % 64 + if bound then 256 else 0)

/-- What a host read of the window returns: HQSTAT (R358), the bindings, GRES and the kick registers (R372, R373), the self-test and
BOOTST (R398, R402), and the contexts' registers; in recovery only BOOTST answers. -/
def State.windowRead (s : State) (off : Nat) : Word :=
  if off = 0x10_5008 then s.fw.bootst.setWidth 64
  else if !s.hostOpen then 0
  else if off = 0x10_5000 then s.fw.selftest
  else if 0x10_0000 ≤ off && off < 0x10_1000 then
    let h := s.hq ((off - 0x10_0000) / 64)
    if off % 64 = 8 then Hq.stat h else if off % 64 = 24 then bindWord h.bound h.ctx else 0
  else if off = 0x10_1008 then s.sched.gres
  else if 0x10_2000 ≤ off && off < 0x10_2800 && off % 8 == 0 then
    match s.graph? ((off - 0x10_2000) / 8) with | some g => BitVec.ofNat 64 g.kickReg | none => 0
  else if 0x10_4000 ≤ off && off < 0x10_4200 && off % 8 == 0 then
    let j := s.job ((off - 0x10_4000) / 8)
    bindWord j.bound j.ctx
  else if 0x20_0000 ≤ off && off < 0x20_4000 then (s.ctx ((off - 0x20_0000) / 256)).hostRead (off % 256)
  else 0

/-- A host read has been answered. -/
def State.hostAnswer (s : State) (bs : List Byte) : State := { s with fw := { s.fw with answers := bs :: s.fw.answers } }

/-! ## Host accesses to memory (R229, R397, R401) -/

/-- A range of T1 that the host may access now: inside the 512 GiB, admitted, and, for a write, on no page under migration, which the
copy of the page may still read (R283, log entry 70); never where the link has trained as PCIe 6.0, which has no CXL.mem. -/
def State.hostMay (s : State) (pa n : Nat) (w : Bool) : Bool :=
  !s.fw.pcie6 && pa + n ≤ 2 ^ 39 && s.fw.windows.any (fun x => s.admits .host 0 x.ctx 0#64 pa n w) &&
  !(w && (List.range (n / 2 ^ 14 + 2)).any fun k => pa / 2 ^ 14 + k ≤ (pa + n - 1) / 2 ^ 14 && s.mem.frozen.contains (pa / 2 ^ 14 + k))

/-- Write the enabled bytes of a range of T1. -/
def State.hostPoke (s : State) (pa : Nat) (data : List Byte) (en : List Bool) : State :=
  { s with mem := s.mem.pokeMany (((data.zip en).zipIdx.filter (fun x => x.1.2)).map fun x => (t1Key false (pa + x.2), x.1.1)) }

def execHostMemoryAccess (op : HostOp) (s : State) : Out :=
  .next (match op with
    | .read pa n => if s.hostMay pa n false then s.hostAnswer ((List.range n).map fun i => s.mem.peek (t1Key false (pa + i))) else s
    | .window off => s.hostAnswer (leBytes 8 (s.windowRead off).toNat)
    | .write pa data en => if s.hostMay pa data.length true then s.hostPoke pa data en else s
    | .fetchAdd pa d =>
      let ks := (List.range 8).map fun i => t1Key false (pa + i)
      if pa % 8 = 0 && s.hostMay pa 8 false && s.hostMay pa 8 true && !ks.any (fun k => s.mem.poison.contains k) then
        s.hostPoke pa (leBytes 8 (leNat (ks.map s.mem.peek) + d.toNat)) (List.replicate 8 true)
      else s
    | .hostWrite hpa data =>
      { s with mem := s.mem.pokeMany (data.zipIdx.map fun x => (hostKey (hpa + x.2), x.1)) })

/-! ## The root mailbox (R325, R350, R351, R399, R401) -/

/-- The root firmware runs. -/
def State.rootOn (s : State) : Bool := s.fw.bootst == 0x600D || s.fw.bootst == 0x5EF0

/-- The windows of a context's table at one controller of a target, or at each of them, are replaced (R401). -/
def putTable (l w : List AccWindow) (c : Nat) (t : BitVec 3) (unit : Option Nat) : List AccWindow :=
  (l.flatMap fun (x : AccWindow) =>
    if x.ctx != c || x.tgt != t then [x]
    else match unit, x.unit with
      | none, _ => []
      | some u, none => ((List.range 8).filter fun k => k != u).map fun k => { x with unit := some k }
      | some u, some k => if k = u then [] else [x]) ++
  w.map fun x => { x with ctx := c, tgt := t, unit }

def execRootMailboxCommand (c : MailCmd) (s : State) : Out :=
  .next (if !s.rootOn then s else
    match c with
    | .setQuota t n => { s with fw := { s.fw with quotas := (t, n) :: s.fw.quotas.filter (fun x => x.1 != t) } }
    | .setTable w c t unit => if w.length > 8 then s else { s with fw := { s.fw with windows := putTable s.fw.windows w c t unit } }
    | .assign n => { s with fabric := { s.fabric with devno := n } }
    | .retrain p => s.modPort p fun x => { Port.reset with dead := x.dead }
    | .fromService => { s with fw := { s.fw with refusedCmds := s.fw.refusedCmds + 1 } })

/-! ## Migration, retention and soft errors (R239, R283) -/

/-- What caches hold for a page of a target is published: the copy of the page must hold every atomic performed before (R283). -/
def State.publishPage (s : State) (page : Nat) : State :=
  let seg (v : Nat) : Seg := { pte := BitVec.ofNat 64 (page / 2 ^ 46 * 2 ^ 5 + v), pa := page % 2 ^ 46 * 2 ^ 14, n := 2 ^ 14 }
  let lines := ((s.mem.held.map fun h => lineOf h.key).eraseDups).filter fun l =>
    [0, 2 ^ 9, 2 ^ 10].any fun v => s.segHolds (seg v) l
  { s with mem := lines.foldl (fun m l => m.publishLine none l) s.mem }

/-- A page is frozen at its old home, or its migration is over (R283). -/
def execPageMigrationFreeze (page : Nat) (on : Bool) (s : State) : Out :=
  let rest := s.mem.frozen.filter (fun p => p != page)
  let s := if on then s.publishPage page else s
  .next { s with mem := { s.mem with frozen := if on then page :: rest else rest } }

/-- A scratchpad bank that no resident slot touches. -/
def State.bankIdle (s : State) (core bank : Nat) : Bool := !s.tenants.any fun t => t.banks.contains (core, bank)

def State.setBank (s : State) (core bank : Nat) (st : BankState) : State :=
  let rest := s.fw.banks.filter fun x => !(x.1 == core && x.2.1 == bank)
  { s with fw := { s.fw with banks := if st == .active then rest else (core, bank, st) :: rest } }

/-- The number that stands for a die's L2 where a core's number stands for its scratchpad (R239). -/
def l2Of (die : Nat) : Nat := Config.cores + die
def isL2 (core : Nat) : Bool := Config.cores ≤ core && core < Config.cores + 4

/-- A scratchpad bank that no resident slot touches enters retention, and so does an L2 way that system software has disabled (R239). -/
def execRetentionEntry (core bank : Nat) (s : State) : Out :=
  .next (if isL2 core || (core < Config.cores && bank < 16 && s.bankIdle core bank) then s.setBank core bank .retention else s)

/-- A bank's exit from retention is over, or that of an L2 way, which system software has enabled again. -/
def execRetentionExitDone (core bank : Nat) (s : State) : Out :=
  .next (if s.fw.banks.contains (core, bank, .exiting) || (isL2 core && s.fw.banks.contains (core, bank, .retention)) then
    s.setBank core bank .active else s)

/-- The number under which telemetry counts a site's errors: its scratchpad bank, its memory stack, or its L2 way. -/
def ErrSite.bank : ErrSite → Nat
  | .scratch core off => core * 16 + off / 65536
  | .memory k => 4096 + stackOf k
  | .l2 die way _ => 8192 + 64 * die + way

def State.addPoison (s : State) (base : Nat) : State :=
  let ks := (List.range 8).map fun i => base / 8 * 8 + i
  { s with mem := { s.mem with poison := ks ++ s.mem.poison.filter (fun k => !ks.contains k) } }

/-- One more under a number. -/
def countAt (l : List (Nat × Nat)) (k : Nat) : List (Nat × Nat) :=
  (k, (match l.find? (fun x => x.1 == k) with | some x => x.2 | none => 0) + 1) :: l.filter fun x => x.1 != k

/-- A bit error: a corrected one is counted; an uncorrectable one poisons its word, or is only reported where the bank is idle or the L2
way is in retention (R239, log entry 39). -/
def execMemorySoftError (site : ErrSite) (correctable : Bool) (s : State) : Out :=
  .next (
    if correctable then { s with fw := { s.fw with corrected := countAt s.fw.corrected (ErrSite.bank site) } }
    else
      match site with
      | .scratch core off =>
        if off < 2 ^ 20 && s.tenants.any (fun t => t.core == core && !apart t.slot (off, 1)) then
          s.addPoison (opmKey (core * 2 ^ 22 + 2 ^ 20 + off))
        else { s with fw := { s.fw with reported := countAt s.fw.reported (ErrSite.bank site) } }
      | .memory k => if k < 2 ^ 60 + 2 ^ 41 then s.addPoison k else s
      | .l2 die way k =>
        if s.fw.banks.contains (l2Of die, way, .retention) then
          { s with fw := { s.fw with reported := countAt s.fw.reported (ErrSite.bank site) } }
        else if isCached k && (s.mem.line? (lineOf k)).isSome then s.addPoison k
        else s)

/-! ## Links, peers and planes (R326, R352 to R355) -/

/-- The event that a command has run into ends its context: what a loss does to accesses outstanding. -/
def State.endOutstanding (s : State) (code : Nat) : State :=
  s.cmds.foldl (fun (s : State) c =>
    if s.cmds.any (fun x => x.id == c.id) then
      match (s.cmdEv c).1 with
      | some e => if e.code = code then s.commandFault c e else s
      | none => s
    else s) s

/-- A link is dead (R351, R352): it stays down until it is retrained, what it carried is re-sent by another, and what only its plane
serves is lost to this module. -/
def State.linkDies (s : State) (p : Nat) : State :=
  if s.live p then ((s.modPort p fun x => { x with up := false, dead := true }).resend p).endOutstanding 0x09 else s

/-- The epoch of a device, as this module knows it. -/
def State.epochOf (s : State) (dev : Nat) : Nat := match s.fabric.epochs.find? (fun x => x.1 == dev) with | some x => x.2 | none => 0

/-- A notice that is new here is kept and goes out on every live link (R353). -/
def State.flood (s : State) (dev epoch : Nat) : State :=
  if s.fabric.notices.contains (dev, epoch) then s
  else
    s.livePorts.foldl (fun (s : State) p => (s.put { port := some p, dst := 0, page := none, msg := .notice dev epoch }).carry p 3)
      { s with fabric := { s.fabric with notices := (dev, epoch) :: s.fabric.notices } }

/-- The remote address at which a command works with a peer. -/
def CmdKind.at? (k : CmdKind) (dev : Nat) : Option Word :=
  match k with
  | .coll x => (x.lanes.find? fun l => l.peer == dev).map fun l => l.remote
  | _ => none

/-- A peer is declared lost (R354). -/
def State.losePeer (s : State) (dev epoch : Nat) : State :=
  if s.fabric.lostPeers.contains dev || dev = s.fabric.devno.toNat then s
  else
    let s := s.flood dev epoch
    let s := { s with fabric := { s.fabric with lostPeers := dev :: s.fabric.lostPeers } }
    let e : Ev := { Ev.peerlost with unit_ := dev }
    let s := s.cmds.foldl (fun (s : State) c =>
      if s.cmds.any (fun x => x.id == c.id) then
        match c.kind.at? dev with
        | some a => s.commandFault c { e with addr := some a }
        | none => s
      else s) s
    let s := s.endOutstanding 0x0A
    let jobs := s.fabric.jobs.filter fun j => j.bound && j.opened != 0 && j.list.contains dev
    ((jobs.map fun j => j.ctx).eraseDups).foldl (fun (s : State) c => s.faultCtx c e) s

/-- What the loss of plane k makes of an allocation (R326). -/
def Alloc.after (a : Alloc) (k : Nat) : Alloc :=
  match a.partner with
  | some p => if a.plane = k then { a with plane := p, partner := none } else if p = k then { a with partner := none } else a
  | none => if a.plane = k then { a with lost := true } else a

/-- A plane is declared lost (R326): the allocator changes the entries of its allocations, and its banks and their data are
gone. -/
def State.losePlane (s : State) (k : Nat) : State :=
  if s.fabric.lostPlanes.contains k then s
  else
    let old (t : TlbEntry) : Bool := s.fabric.allocs.any fun a => a.after k != a && a.ctx == t.ctx && a.base ≤ t.base && t.base < a.base + a.size
    let s : State := { s with
      mem := { s.mem with
        ram := s.mem.ram.filter (fun x => !(switchKey k 0 ≤ x.1 && x.1 < switchKey (k + 1) 0)), tlb := s.mem.tlb.filter (fun t => !old t) }
      fabric := { s.fabric with lostPlanes := k :: s.fabric.lostPlanes, allocs := s.fabric.allocs.map fun a => a.after k } }
    s.endOutstanding 0x09

def execPlaneFailureAnnouncement (plane : Nat) (s : State) : Out := .next (s.losePlane plane)

/-- The modules that this one knows of: itself, those with an epoch, and the members of its jobs; less those lost. -/
def State.known (s : State) : List Nat :=
  ((s.fabric.devno.toNat :: s.fabric.epochs.map (fun x => x.1) ++ (s.fabric.jobs.filter (fun j => j.bound)).flatMap fun j => j.list).eraseDups).filter
    fun d => !s.fabric.lostPeers.contains d

/-- The planes of which every module not declared lost has reported its link's death are lost (R355). -/
def State.settlePlanes (s : State) : State :=
  (List.range 16).foldl (fun (s : State) k => if s.known.all (fun d => s.fabric.linkReports.contains (d, k)) then s.losePlane k else s) s

/-- A report that the link of a module to a plane has died (R353, R355). -/
def execLinkDeathReport (reporter plane : Nat) (s : State) : Out :=
  .next (
    let rest := s.fabric.linkReports.filter fun x => x != (reporter, plane)
    let s := { s with fabric := { s.fabric with linkReports := (reporter, plane) :: rest } }
    (if (List.range 16).all (fun k => s.fabric.linkReports.contains (reporter, k)) then s.losePeer reporter (s.epochOf reporter) else s).settlePlanes)

/-- A death notice (R353): a new one is forwarded, and a peer of that epoch or an earlier one is lost. -/
def execDeathNotice (dev epoch : Nat) (s : State) : Out :=
  .next (
    if s.fabric.notices.contains (dev, epoch) then s
    else
      let s := s.flood dev epoch
      if s.epochOf dev ≤ epoch then (s.losePeer dev epoch).settlePlanes else s)

/-- System software re-admits a peer with a new epoch (R354); the reports of its links are forgotten. -/
def execPeerReadmission (dev epoch : Nat) (s : State) : Out :=
  .next (
    if s.fabric.lostPeers.contains dev then
      { s with fabric := { s.fabric with
          lostPeers := s.fabric.lostPeers.filter (fun d => d != dev), linkReports := s.fabric.linkReports.filter (fun x => x.1 != dev)
          epochs := (dev, epoch) :: s.fabric.epochs.filter (fun x => x.1 != dev) } }
    else s)

end Sys2Proof.Machine
end

