-- ==== Sys2Proof/Machine/Links.lean ====
section
/-! DEFINITION. The links of a module: flits, their acceptance and replay, key slots and liveness (R348 to R351). -/

namespace Sys2Proof.Machine

/-- HEARTBEAT (R351). -/
def execHeartbeatTimer (port : Nat) (s : State) : Out := .next (s.sendNow port 2 3 [])

/-- No accepted flit for 10 µs (R351). -/
def execLinkSilenceTimeout (port : Nat) (s : State) : Out := .next (s.linkDies port)

/-! ## Acceptance (R349) -/

/-- A flit passes its CRC and its tag, and names a slot that the receiver keeps. -/
def Port.passes (p : Port) (f : Flit) : Bool :=
  let k := p.rxSlot f.slot
  1 ≤ f.kind && f.kind ≤ 5 && f.resv == 0 && f.vc < 4 && f.payload.length == 216 && (k.st == .active || k.st == .ready) &&
  f.crc == Flit.sum f && f.tag == Config.gcmTag k.key k.salt f.ctr (Flit.head f) f.payload

/-- Flits before the one that the far end expects next are acknowledged. -/
def ackTo (ack : BitVec 12) (l : List Kept) : List Kept := l.filter fun x => (x.seq - ack).toNat < 2048

/-- A draining slot is done once its MARKER is acknowledged and nothing sent in it awaits replay (R350). -/
def Port.drained (p : Port) : Port :=
  let done (b : Bool) (p : Port) : Port :=
    if (p.txSlot b).st == .draining && !p.unacked.any (fun x => x.slot == b) then p.setTx b .reset else p
  done true (done false p)

/-- Replay of flits, each in its slot, with a fresh invocation (R349). -/
def State.replayFlits (s : State) (p : Nat) (l : List Kept) : State :=
  l.foldl (fun (s : State) x =>
    let (f, y) := (s.fabric.ports.getD p .reset).seal x
    (s.modPort p fun _ => y).putFlit p f) s

/-- Flits that have waited for room among the 512 leave, oldest first. -/
def State.sendWaiting (s : State) (p : Nat) : State :=
  let w := (s.fabric.ports.getD p .reset).waiting
  w.foldl (fun (s : State) x => s.sendNow p x.1 x.2.1 x.2.2) (s.modPort p fun y => { y with waiting := [] })

/-- The receiver's slots after a flit (R350): a slot is in use from its first flit, and a MARKER retires it. -/
def Port.slotsAfter (p : Port) (f : Flit) : Port :=
  let p := p.setRx f.slot { p.rxSlot f.slot with st := .active, ctr := f.ctr.toNat + 1 }
  if f.kind = 3 then
    let o := p.rxSlot (!f.slot)
    (p.setRx f.slot .reset).setRx (!f.slot) (if o.st == .ready then { o with st := .active, ctr := 0 } else o)
  else p

/-- A flit is accepted: its slot, its number, what it acknowledges, and the replay that a NAK asks for. -/
def State.acceptFlit (s : State) (port : Nat) (f : Flit) : State :=
  let s := s.modPort port fun p =>
    ({ p.slotsAfter f with
        expect := p.expect + 1, refusals := p.refusals.filter (fun x => x.1 != f.seq), unacked := ackTo f.ack p.unacked }).drained
  let s := if f.nak then s.replayFlits port (s.fabric.ports.getD port .reset).unacked else s
  s.sendWaiting port

/-- How often a flit has been refused, with this time. -/
def Port.refused (p : Port) (q : BitVec 12) : Nat := (match p.refusals.find? (fun x => x.1 == q) with | some x => x.2 | none => 0) + 1

/-- A flit is refused: the eighth refusal of one flit takes the link down, any other is answered with a NAK, which a flit that
leaves carries. -/
def State.refuseFlit (s : State) (port : Nat) (q : BitVec 12) : State :=
  let n := (s.fabric.ports.getD port .reset).refused q
  if n ≥ 8 then s.linkDies port
  else
    (s.modPort port fun p => { p with nak := true, refusals := (q, n) :: p.refusals.filter (fun x => x.1 != q) }).sendNow port 5 3 []

def execFlitReceive (port : Nat) (f : Flit) (s : State) : Out :=
  .next (
    let p := s.fabric.ports.getD port .reset
    if !p.up then s
    else if p.passes f && f.seq == p.expect then s.acceptFlit port f else s.refuseFlit port f.seq)

/-! ## Key slots (R350) -/

def execKeyInstall (port : Nat) (tx slot : Bool) (key : List Byte) (salt : BitVec 32) (limit : Nat) (s : State) : Out :=
  .next (
    let p := s.fabric.ports.getD port .reset
    let k := if tx then p.txSlot slot else p.rxSlot slot
    let new : KeySlot := { st := .ready, key, salt, limit, ctr := 0, marker := none }
    if !s.rootOn || k.st != .empty || key.length ≠ 32 || limit > 2 ^ 36 then s
    else s.modPort port fun p => if tx then p.setTx slot new else p.setRx slot new)

/-- The slots of a direction as training completes: slot 0 where it is READY, else slot 1, becomes ACTIVE; none where a slot is in use
or none is READY. A link that has died needs fresh keys in both slots (R351). -/
def activate (dead : Bool) (l : List KeySlot) : Option (List KeySlot) :=
  let st (i : Nat) : SlotState := (l.getD i .reset).st
  let go (i : Nat) : List KeySlot := l.modify i fun k => { k with st := .active, ctr := 0 }
  if (activeOf l).isSome || (dead && !(st 0 == .ready && st 1 == .ready)) then none
  else if st 0 == .ready then some (go 0) else if st 1 == .ready then some (go 1) else none

/-- Training completes: the link is up, and what waited in the hub for a plane may leave. -/
def execLinkTrainingComplete (port : Nat) (s : State) : Out :=
  .next (
    let p := s.fabric.ports.getD port .reset
    match activate p.dead p.tx, activate p.dead p.rx with
    | some t, some r =>
      if p.up then s
      else (s.modPort port fun _ => { Port.reset with up := true, tx := t, rx := r }).repost
    | _, _ => s)

/-- A MARKER goes in the slot in use, and the other slot takes over. -/
def State.switchSlot (s : State) (port : Nat) (b : Bool) : State :=
  let n := (s.fabric.ports.getD port .reset).sendSeq.toNat
  (s.sendFlit port b 3 3 []).modPort port fun y =>
    (y.setTx b { y.txSlot b with st := .draining, marker := some n }).setTx (!b) { y.txSlot (!b) with st := .active, ctr := 0 }

/-- The counter of the slot in use has reached T: the other slot takes over, or the link goes down. -/
def execKeySwitchover (port : Nat) (s : State) : Out :=
  .next (
    let p := s.fabric.ports.getD port .reset
    match activeOf p.tx with
    | none => s
    | some b =>
      if !p.up || (p.txSlot b).ctr < (p.txSlot b).limit then s
      else if (p.txSlot (!b)).st != .ready then s.linkDies port
      else if p.unacked.length ≥ 512 then s
      else s.switchSlot port b)

/-- A draining slot's counter has passed T + 2^16. -/
def execDrainingSlotLimit (port : Nat) (s : State) : Out :=
  .next (
    let p := s.fabric.ports.getD port .reset
    if p.tx.any (fun k => k.st == .draining && k.ctr > k.limit + 2 ^ 16) then s.linkDies port else s)

end Sys2Proof.Machine
end

