-- ==== Sys2Proof/Machine/Firmware.lean ====
section
/-! DEFINITION. Boot, the service firmware, self-test, attestation, the loss of power and the clock (R398 to R403). -/

namespace Sys2Proof.Machine

/-- An image's signature and its security version pass (R398). -/
def Image.passes (i : Image) (counter : Nat) : Bool := Config.lmsVerify i.body && counter ≤ i.security

/-- Banks that the self-test runs over on a core: sixteen of the pool, the register file of each of the four partitions, and that of
the accumulators (log entry 43). -/
def testBanks : Nat := 16 + 4 + 1

/-- The March C- test (R402): rows repaired, cores disabled, the summary word. -/
def Firmware.selfTest (f : Firmware) : Firmware :=
  let all := (List.range Config.cores).flatMap fun c => (List.range testBanks).map fun b => (c, b, Config.failingRows c b)
  let off := ((all.filter (fun x => x.2.2 > 16)).map (fun x => x.1)).eraseDups
  let fixed := all.filter fun x => !off.contains x.1 && x.2.2 != 0
  let rows := (fixed.map (fun x => x.2.2)).foldl (· + ·) 0
  { f with coresOff := off, repair := fixed.map fun x => (x.1 * testBanks + x.2.1, x.2.2)
           selftest := BitVec.ofNat 64 (rows % 2 ^ 16 * 2 ^ 48 + off.length % 2 ^ 8 * 2 ^ 40 + 1) }

/-- The service firmware starts, or is refused. -/
def Firmware.startService (f : Firmware) (i : Image) : Firmware :=
  let f := { f with svcMeas := Config.sha256 i.body }
  if Image.passes i f.rollSvc then { f.selfTest with bootst := 0x600D } else { f with bootst := 0x5EF0 }

/-- Boot (R398). -/
def Firmware.boot (f : Firmware) : Firmware :=
  let r := Config.flashRoot
  if Image.passes r f.rollRoot then
    { f with rootMeas := Config.sha256 r.body, security := r.security }.startService Config.flashService
  else { f with bootst := 0xBAD0 }

/-- What lies outside this module keeps its bytes: host memory, peers and switches. -/
def State.outside (s : State) : List Host.Cell := s.mem.ram.filter fun x => 2 * 2 ^ 60 ≤ x.1 && x.1 < 5 * 2 ^ 60

/-- The module as a reset leaves it: the anti-rollback storage and what lies outside stand, and the host link has trained one way or
the other (R397). -/
def State.afterReset (s : State) (leaf : Nat) : State :=
  { State.reset with
    cycle := s.cycle, fresh := s.fresh + 1, nextId := s.nextId
    mem := { Memory.reset with ram := s.outside }
    fw := { State.reset.fw with rollRoot := s.fw.rollRoot, rollSvc := s.fw.rollSvc, leaf, pcie6 := Config.pcie6 s.fresh } }

def execModuleReset (s : State) : Out :=
  let s := s.afterReset s.fw.leaf
  .next { s with fw := s.fw.boot }

/-- A new service image comes through the root mailbox (R398). -/
def execServiceImageDelivery (img : Image) (s : State) : Out :=
  .next (if s.fw.bootst = 0x5EF0 then { s with fw := s.fw.startService img } else s)

/-- What the identity key signs. -/
def Report.text (r : Report) : List Byte :=
  leBytes 8 r.archid.toNat ++ r.rootMeas ++ r.svcMeas ++ leBytes 8 r.security ++ leBytes 8 r.selftest.toNat ++ r.nonce ++
  leBytes 1 (match r.status with | .ok => 0 | .exhausted => 1 | .svcRefused => 2)

/-- Attestation (R400): the leaf counter advances before a signature leaves. -/
def execAttestationRequest (nonce : List Byte) (s : State) : Out :=
  .next (
    if !s.rootOn || nonce.length ≠ 32 then s
    else
      let f := s.fw
      let spent : Bool := f.leaf ≥ 2 ^ 20
      let r : Report :=
        { archid := Config.archid, rootMeas := f.rootMeas, svcMeas := f.svcMeas, security := f.security, selftest := f.selftest, nonce
          status := if spent then .exhausted else if f.bootst = 0x5EF0 then .svcRefused else .ok, signature := [] }
      let r := if spent then r else { r with signature := Config.lmsSign f.leaf r.text }
      { s with fw := { f with leaf := if spent then f.leaf else f.leaf + 1, reports := f.reports ++ [r] } })

/-- Power is lost (R400): after a leaf counter that has advanced for a signature that never left, that leaf is skipped. -/
def execPowerLoss (leafAdvanced : Bool) (s : State) : Out :=
  .next (s.afterReset (if leafAdvanced then s.fw.leaf + 1 else s.fw.leaf))

/-- The clock (R403): a step down at the limit, a step up where there is headroom. -/
def execClockThrottle (watts : Nat) (s : State) : Out :=
  .next (
    let f := s.fw.clockMHz
    if s.fw.bootst ≠ 0x600D then s
    else { s with fw := { s.fw with clockMHz := if watts ≥ 1600 then (if f > 75 then f - 75 else f) else min 2250 (f + 75) } })

end Sys2Proof.Machine
end

