-- ==== Sys2Proof/Machine/Agenda.lean ====
section
/-! DEFINITION. Who acts next: the gangs that are ready (R99), and the events that the units beside the slices have at hand. -/

namespace Sys2Proof.Machine

/-! ## Ready gangs -/

/-- A slice that may issue. -/
def Slice.mayIssue (sl : Slice) : Bool := sl.stop == .none && sl.qphase == .running && !sl.ended

/-- The gangs of a block. -/
def Block.gangs (b : Block) : List Nat := ((b.slices.filter (fun x => !x.ended)).map (fun x => x.gang)).eraseDups

/-- Every gang of the machine: its partition, its block, its number and its slices. -/
def State.gangs (s : State) : List (Nat × Block × Nat × List Slice) :=
  s.blocks.flatMap fun b => b.gangs.filterMap fun g =>
    match b.gangSlices g with
    | [] => none
    | x :: xs => some ((b.share x.share).core * 4 + x.part, b, g, x :: xs)

/-- The lowest place of a gang's slices in their partition, and their lowest logical clock. -/
def lowPlace (l : List Slice) : Nat := (l.map (fun z => z.pos)).foldl min 64
def lowClock (l : List Slice) : Nat := (l.map (fun z => z.clock)).foldl min (2 ^ 64)

/-- The first of some gangs by an order. -/
def firstBy {α : Type} (before : α → α → Bool) : List α → Option α
  | [] => none
  | x :: l => some (l.foldl (fun y z => if before z y then z else y) x)

/-- The gang that R99 takes of the ready gangs of a partition whose last issue was at place `last`: of the highest priority, and
there a deterministic gang whose logical clock is the lowest, of any launch, else the next in round robin. R99 does not say
how gangs of different launches compare (log entry 53): the clocks of several deterministic launches are compared as those of
one; the deterministic gang of the lowest clock goes before normal gangs where no normal gang's clock is lower, as R19 asks,
and otherwise takes part in the round robin with them. -/
def State.choose (s : State) (last : Nat) (l : List (Block × Nat × List Slice)) : Option (Block × Nat × List Slice) :=
  let top := (l.map fun x => (s.lrOf x.1).prio).foldl max 0
  let l := l.filter fun x => (s.lrOf x.1).prio == top
  let robin (x y : Block × Nat × List Slice) : Bool := (lowPlace x.2.2 + 63 - last) % 64 < (lowPlace y.2.2 + 63 - last) % 64
  let clock (x y : Block × Nat × List Slice) : Bool :=
    lowClock x.2.2 < lowClock y.2.2 || (lowClock x.2.2 == lowClock y.2.2 && lowPlace x.2.2 < lowPlace y.2.2)
  let normal := l.filter fun x => !(s.lrOf x.1).det
  match firstBy clock (l.filter fun x => (s.lrOf x.1).det) with
  | none => firstBy robin normal
  | some d => if normal.all fun x => lowClock d.2.2 ≤ lowClock x.2.2 then some d else firstBy robin (d :: normal)

/-- An APPEND that has its grant. -/
def State.granted (s : State) (cmd : Nat) : Bool :=
  !s.cmds.any fun c => c.id == cmd && (match c.kind with | .grant .. => true | _ => false)

/-- What a slice waits for is there, or is looked for again as it issues (R98, R99, R335, R388). -/
def State.waitOver (s : State) (b : Block) (x : Slice) : Bool :=
  match x.wait with
  | .regang => false
  | .bar k | .barWait k => s.barOver b x k
  | .coll => x.again .c || (s.groupOf b x).all (fun y => y.wait == .coll)
  | .tlwait share tl n => n ≤ ((b.share share).timeline tl).done
  | .waitp share path n => (b.share share).path path ≤ n
  | .sleep u => u == 0
  | .append cmd => s.granted cmd
  | .fence vals _ => !s.farDue b x.num vals
  -- a span that came and has left again is asked for again as the slice issues (R312)
  | .span ns | .queue _ _ _ ns => ns.all fun n => (s.span n).st == .resident || (s.span n).st == .absent
  | _ => true

/-- A gang is ready (R99): its slices may issue, wait for nothing, no register that the instruction names is awaited, and the words of
its turn can be read. A block that a save has stopped issues nothing more, but for an APPEND already granted. -/
def State.ready (s : State) (b : Block) (l : List Slice) : Bool :=
  l.all (fun x => x.mayIssue && s.waitOver b x && (s.waitsFor b x).isEmpty && !s.handlerMoves b x) &&
  (!s.halted b || l.any (fun x => match x.wait with | .append _ => true | _ => false)) && !s.fetchHeld b l

/-- The ready gangs of a partition, and the one of them that it takes (R99). Where no gang of a partition has issued yet, its round robin
begins as if place 63 had issued last (log entry 53). -/
def State.readyOn (s : State) (part : Nat) : List (Block × Nat × List Slice) :=
  ((s.gangs.filter (fun x => x.1 == part)).filter (fun x => s.ready x.2.1 x.2.2.2)).map fun x => x.2
def State.chosen (s : State) (part : Nat) : Option (Block × Nat × List Slice) :=
  s.choose (Cells.get 63 s.lastIssue part) (s.readyOn part)

/-- A gang of a block is the one that its partition takes. -/
def State.mayTurn (s : State) (b : Block) (gang : Nat) : Bool :=
  match b.gangSlices gang with
  | [] => false
  | x :: _ => (s.chosen ((b.share x.share).core * 4 + x.part)).any fun y => y.1.uid == b.uid && y.2.1 == gang

/-- The gang that issues next: of the first partition, cyclically from the one that issued last, with a ready gang. -/
def State.nextGang (s : State) : Option (Nat × Nat × Nat) :=
  let r := s.gangs.filter (fun x => s.ready x.2.1 x.2.2.2)
  let dist (p : Nat) : Nat := (p + 768 - s.lastPart % 768 + 767) % 768
  match r.foldl (fun (acc : Option Nat) x => match acc with
      | none => some x.1
      | some p => some (if dist x.1 < dist p then x.1 else p)) none with
  | none => none
  | some p => (s.chosen p).map fun y => (p, y.1.uid, y.2.1)

/-! ## Events at hand -/

/-- What a command's unit does next. A collective that has sent to other modules waits for what they answer (R338),
and nothing answers a request that waits for a plane (R352). -/
def State.cmdEvent (s : State) (c : Cmd) : Option Instr :=
  let stops (e : Option Ev) : Bool := match e with | some e => e.code != 0x05 | none => false
  if stops (s.cmdEv c).1 then some (.engineAccessFault c.id)
  else if s.stranded c.id then none
  else
  match c.kind with
  | .scratch .. => some (.scratchLoadReturn c.id)
  | .copy .. | .tensor .. | .book _ => some (.copyComplete c.id)
  | .red _ => some (.mredComplete c.id)
  | .mcmp .. => some (.mcmpComplete c.id)
  | .skip _ | .far .. => some (.skipperReply c.id)
  | .grant .. | .granted _ => some (.appendGrant c.id)
  | .fetch spans _ => some (.spanFetchArrival (spans.headD 0))
  | .coll x => if x.sent && s.farLane x then none else some (.collComplete c.id .ok [])

/-- What a deterministic block does next as a whole. -/
def State.detEvents (s : State) (b : Block) : List Instr :=
  if !(s.lrOf b).det || s.halted b then []
  else
    ((b.gangs.filter fun g => (b.gangSlices g).all Slice.mayIssue && s.quantumOver b (b.gangSlices g)).map fun g => Instr.quantumEnd b.uid g) ++
    (if !b.roundOver then [] else if b.round == .serial then [.detSerialPhase b.uid] else [.detCommitPhase b.uid])

/-- What the FCP does next for a queue: a record to check, nodes that may enter the pool. -/
def State.queueEvents (s : State) (q : Nat) (h : Hq) : List Instr :=
  if h.st != .running then []
  else
    (if (s.nextCheck q).isSome then [.recordHeadCheck q] else []) ++
    ((h.entries.take 64).filter (fun e => e.checked && e.age.isNone && (s.ctx h.ctx).ev &&& s.waitOf e == s.waitOf e)).map fun e =>
      Instr.nodeEnterPool q e.pos

/-- What the FCP does next for a launch. -/
def State.launchEvents (s : State) (l : Launch) : List Instr :=
  if l.blocksLeft = 0 then [.launchComplete l.id]
  else if s.fcpOn && s.wantsRoom l then [.blockPlacement l.id ((s.freePlaces l).getD [])] else []

/-- What pre-emptions come to. -/
def preemptEvents (p : Preempt) : List Instr :=
  match p.act with
  | .save | .flush => [.chrysalisSaveComplete p.launch p.unit]
  | .drainFor => [.drainTimeout p.launch p.unit]
  | .drain => []

/-- What a port's key slots come to. -/
def portEvents (i : Nat) (p : Port) : List Instr :=
  if !p.up then []
  else
    (match activeOf p.tx with | some b => if (p.txSlot b).limit ≤ (p.txSlot b).ctr then [.keySwitchover i] else [] | none => []) ++
    (if p.tx.any (fun k => k.st == .draining && k.ctr > k.limit + 2 ^ 16) then [.drainingSlotLimit i] else [])

/-- The events that the module's own units have at hand; those of its surroundings and of its clocks are not among them. -/
def State.events (s : State) : List Instr :=
  s.blocks.flatMap s.detEvents ++
  s.blocks.flatMap (fun b => b.slices.filterMap fun x =>
    match x.wait with | .sleep u => if u ≠ 0 && u ≤ s.cycle then some (.sleepExpiry b.uid x.num) else none | _ => none) ++
  s.cmds.filterMap s.cmdEvent ++
  ((s.tasks.filter (fun t => !t.running && t.core < Config.cores)).map (fun t => t.core)).eraseDups.map Instr.tileTaskStart ++
  (s.tasks.filter (fun t => t.running && t.hold.isNone && !s.taskHeld t)).map (fun t => if (s.taskEv t).isSome then .engineAccessFault t.id else .tileChunkEnd t.id) ++
  s.spans.flatMap (fun p => match p.st with
    | .fetching => if (s.freeFrame p.num).isSome then [.spanFetchArrival p.num] else (s.victims p.num).map Instr.spanReplacement
    | .evicting => [.spanEvictionComplete p.num]
    | _ => []) ++
  s.sched.userQs.flatMap (fun u => [.queuePacketPickup u.id, .queuePacketComplete u.id]) ++
  s.sched.hqs.zipIdx.flatMap (fun x => s.queueEvents x.2 x.1) ++
  (if s.fcpOn then s.pool.map (fun x => Instr.nodeDispatch x.1 x.2.pos) else []) ++
  (s.sched.graphs.filter (fun g => g.kicks != [])).map (fun g => Instr.graphKickProceed g.slot) ++
  s.launches.flatMap s.launchEvents ++
  s.sched.preempts.flatMap preemptEvents ++
  (s.fw.banks.filter (fun x => x.2.2 == .exiting)).map (fun x => Instr.retentionExitDone x.1 x.2.1) ++
  s.fabric.ports.zipIdx.flatMap (fun x => portEvents x.2 x.1)

/-- The event that is next: boot first, then those at hand in turn. -/
def State.event? (s : State) : Option Instr :=
  if s.fw.bootst = 0 then some .moduleReset
  else let l := s.events; l[s.cycle / 2 % l.length]?

end Sys2Proof.Machine
end

