-- ==== Sys2Proof/Machine/Dispatch.lean ====
section
/-! DEFINITION. Which meaning each instruction has: one arm per constructor, each a direct call. -/

namespace Sys2Proof.Machine

def exec (i : Instr) (s : State) : Host.Outcome State Fault Refusal :=
  match i with
  | .nop g => Sys2Proof.Machine.execNop g s
  | .bra g off => Sys2Proof.Machine.execBra g off s
  | .brp g c p off => Sys2Proof.Machine.execBrp g c p off s
  | .brx g a => Sys2Proof.Machine.execBrx g a s
  | .call g d off => Sys2Proof.Machine.execCall g d off s
  | .ret g a => Sys2Proof.Machine.execRet g a s
  | .loop g l a off => Sys2Proof.Machine.execLoop g l a off s
  | .lbrk g l => Sys2Proof.Machine.execLbrk g l s
  | .regang g => Sys2Proof.Machine.execRegang g s
  | .yield g => Sys2Proof.Machine.execYield g s
  | .exit g => Sys2Proof.Machine.execExit g s
  | .vote g op d a => Sys2Proof.Machine.execVote g op d a s
  | .iadd g ty sat op d a b c => Sys2Proof.Machine.execIadd g ty sat op d a b c s
  | .imul g ty sat op d a b => Sys2Proof.Machine.execImul g ty sat op d a b s
  | .imad g ty sat op d a b c => Sys2Proof.Machine.execImad g ty sat op d a b c s
  | .iminmax g ty op d a b => Sys2Proof.Machine.execIminmax g ty op d a b s
  | .logic g ty tt d a b c => Sys2Proof.Machine.execLogic g ty tt d a b c s
  | .shift g ty op d a b c => Sys2Proof.Machine.execShift g ty op d a b c s
  | .bits g ty op d a => Sys2Proof.Machine.execBits g ty op d a s
  | .bfx g ty op d a b c => Sys2Proof.Machine.execBfx g ty op d a b c s
  | .icmp g ty c d a b => Sys2Proof.Machine.execIcmp g ty c d a b s
  | .sel g ty d a b c => Sys2Proof.Machine.execSel g ty d a b c s
  | .mov g ty d a => Sys2Proof.Machine.execMov g ty d a s
  | .lea g k d a b c => Sys2Proof.Machine.execLea g k d a b c s
  | .hashCrc32c g ty d a b => Sys2Proof.Machine.execHashCrc32c g ty d a b s
  | .hashMix64 g ty d a b => Sys2Proof.Machine.execHashMix64 g ty d a b s
  | .partRadix g ty d a c => Sys2Proof.Machine.execPartRadix g ty d a c s
  | .partRange g ty d a b c => Sys2Proof.Machine.execPartRange g ty d a b c s
  | .lane g ty gang op d a b => Sys2Proof.Machine.execLane g ty gang op d a b s
  | .pred g op d a b => Sys2Proof.Machine.execPred g op d a b s
  | .fadd g ty r diff d a b => Sys2Proof.Machine.execFadd g ty r diff d a b s
  | .fmul g ty r d a b => Sys2Proof.Machine.execFmul g ty r d a b s
  | .ffma g ty r op d a b c => Sys2Proof.Machine.execFfma g ty r op d a b c s
  | .fminmax g ty op d a b => Sys2Proof.Machine.execFminmax g ty op d a b s
  | .fcmp g ty c d a b => Sys2Proof.Machine.execFcmp g ty c d a b s
  | .fclass g ty d a => Sys2Proof.Machine.execFclass g ty d a s
  | .fapx g ty fn d a => Sys2Proof.Machine.execFapx g ty fn d a s
  | .fcvt g ty r src d a => Sys2Proof.Machine.execFcvt g ty r src d a s
  | .fadd2 g ty d a b => Sys2Proof.Machine.execFadd2 g ty d a b s
  | .fmul2 g ty d a b => Sys2Proof.Machine.execFmul2 g ty d a b s
  | .ffma3 g ty d a b c => Sys2Proof.Machine.execFfma3 g ty d a b c s
  | .xadd g ty wd wa wb d a b => Sys2Proof.Machine.execXadd g ty wd wa wb d a b s
  | .xadds g ty wd wa d a b => Sys2Proof.Machine.execXadds g ty wd wa d a b s
  | .xmuls g ty wd wa d a b => Sys2Proof.Machine.execXmuls g ty wd wa d a b s
  | .xrenorm g ty wd wa d a => Sys2Proof.Machine.execXrenorm g ty wd wa d a s
  | .xcomp g ty wa d a => Sys2Proof.Machine.execXcomp g ty wa d a s
  | .xcmp g ty c wa wb d a b => Sys2Proof.Machine.execXcmp g ty c wa wb d a b s
  | .xcvt g ty wd wa src d a => Sys2Proof.Machine.execXcvt g ty wd wa src d a s
  | .setfmt g a => Sys2Proof.Machine.execSetfmt g a s
  | .getfmt g d => Sys2Proof.Machine.execGetfmt g d s
  | .qcvt g ty src d a => Sys2Proof.Machine.execQcvt g ty src d a s
  | .qdec g ty dst d a => Sys2Proof.Machine.execQdec g ty dst d a s
  | .renc g ty d a b => Sys2Proof.Machine.execRenc g ty d a b s
  | .rmac g ty d a b c => Sys2Proof.Machine.execRmac g ty d a b c s
  | .rdec g dst d a b => Sys2Proof.Machine.execRdec g dst d a b s
  | .spack g ty n d a => Sys2Proof.Machine.execSpack g ty n d a s
  | .ld g ty sc k d a b c => Sys2Proof.Machine.execLd g ty sc k d a b c s
  | .scratchLoadReturn cmd => Sys2Proof.Machine.execScratchLoadReturn cmd s
  | .st g ty sc k a b c => Sys2Proof.Machine.execSt g ty sc k a b c s
  | .lds g ty d a b => Sys2Proof.Machine.execLds g ty d a b s
  | .sts g ty a b c => Sys2Proof.Machine.execSts g ty a b c s
  | .ldw g ty sc g4 d a b c => Sys2Proof.Machine.execLdw g ty sc g4 d a b c s
  | .stw g ty sc g4 a b c => Sys2Proof.Machine.execStw g ty sc g4 a b c s
  | .stsplit g ty sc a b c => Sys2Proof.Machine.execStsplit g ty sc a b c s
  | .ldsplit g ty sc d a b => Sys2Proof.Machine.execLdsplit g ty sc d a b s
  | .pref g k a b => Sys2Proof.Machine.execPref g k a b s
  | .cmaint g sc k a b => Sys2Proof.Machine.execCmaint g sc k a b s
  | .waitp g path a => Sys2Proof.Machine.execWaitp g path a s
  | .xlat g d a => Sys2Proof.Machine.execXlat g d a s
  | .heldStoreEviction line => Sys2Proof.Machine.execHeldStoreEviction line s
  | .fence g sc k => Sys2Proof.Machine.execFence g sc k s
  | .bar g lv => Sys2Proof.Machine.execBar g lv s
  | .barArrive g lv => Sys2Proof.Machine.execBarArrive g lv s
  | .barWait g lv => Sys2Proof.Machine.execBarWait g lv s
  | .barArrivedrop g lv => Sys2Proof.Machine.execBarArrivedrop g lv s
  | .tlwait g t b => Sys2Proof.Machine.execTlwait g t b s
  | .tlread g t d b => Sys2Proof.Machine.execTlread g t d b s
  | .qend g => Sys2Proof.Machine.execQend g s
  | .dsync g => Sys2Proof.Machine.execDsync g s
  | .quantumEnd blk gang => Sys2Proof.Machine.execQuantumEnd blk gang s
  | .detCommitPhase blk => Sys2Proof.Machine.execDetCommitPhase blk s
  | .detSerialPhase blk => Sys2Proof.Machine.execDetSerialPhase blk s
  | .atom g ty op sc d a b c => Sys2Proof.Machine.execAtom g ty op sc d a b c s
  | .redm g ty op sc a b => Sys2Proof.Machine.execRedm g ty op sc a b s
  | .atomc g sc d a b => Sys2Proof.Machine.execAtomc g sc d a b s
  | .atomw g ty n sc d a b c => Sys2Proof.Machine.execAtomw g ty n sc d a b c s
  | .append g d a b => Sys2Proof.Machine.execAppend g d a b s
  | .appendGrant cmd => Sys2Proof.Machine.execAppendGrant cmd s
  | .skopEnq g d a b => Sys2Proof.Machine.execSkopEnq g d a b s
  | .skopChase g d a b c => Sys2Proof.Machine.execSkopChase g d a b c s
  | .skipperReply cmd => Sys2Proof.Machine.execSkipperReply cmd s
  | .mzero g d => Sys2Proof.Machine.execMzero g d s
  | .memit g main d a b c => Sys2Proof.Machine.execMemit g main d a b c s
  | .msave g a b => Sys2Proof.Machine.execMsave g a b s
  | .mload g d a => Sys2Proof.Machine.execMload g d a s
  | .mbobjInit g a b c => Sys2Proof.Machine.execMbobjInit g a b c s
  | .mbobjArrive g a b => Sys2Proof.Machine.execMbobjArrive g a b s
  | .mbobjWait g a b => Sys2Proof.Machine.execMbobjWait g a b s
  | .qpostTask g a => Sys2Proof.Machine.execQpostTask g a s
  | .tileTaskStart core => Sys2Proof.Machine.execTileTaskStart core s
  | .tileChunkEnd task => Sys2Proof.Machine.execTileChunkEnd task s
  | .cpy g d a b c => Sys2Proof.Machine.execCpy g d a b c s
  | .cpyt g ty cb d a => Sys2Proof.Machine.execCpyt g ty cb d a s
  | .cbook g d a => Sys2Proof.Machine.execCbook g d a s
  | .copyComplete cmd => Sys2Proof.Machine.execCopyComplete cmd s
  | .qpost g d a b => Sys2Proof.Machine.execQpost g d a b s
  | .queuePacketPickup uq => Sys2Proof.Machine.execQueuePacketPickup uq s
  | .queuePacketComplete uq => Sys2Proof.Machine.execQueuePacketComplete uq s
  | .mred g a => Sys2Proof.Machine.execMred g a s
  | .mredComplete cmd => Sys2Proof.Machine.execMredComplete cmd s
  | .mcmp g ty r op a => Sys2Proof.Machine.execMcmp g ty r op a s
  | .mcmpComplete cmd => Sys2Proof.Machine.execMcmpComplete cmd s
  | .spanctlCap g a b => Sys2Proof.Machine.execSpanctlCap g a b s
  | .spanctlPol g a b => Sys2Proof.Machine.execSpanctlPol g a b s
  | .spanctlEvict g a => Sys2Proof.Machine.execSpanctlEvict g a s
  | .spanq g d a => Sys2Proof.Machine.execSpanq g d a s
  | .spanfet g d a b => Sys2Proof.Machine.execSpanfet g d a b s
  | .spanFetchArrival span => Sys2Proof.Machine.execSpanFetchArrival span s
  | .spanReplacement span => Sys2Proof.Machine.execSpanReplacement span s
  | .spanEvictionComplete span => Sys2Proof.Machine.execSpanEvictionComplete span s
  | .salloc g dup d a b => Sys2Proof.Machine.execSalloc g dup d a b s
  | .sfree g d a => Sys2Proof.Machine.execSfree g d a s
  | .collSend g d a b c => Sys2Proof.Machine.execCollSend g d a b c s
  | .collGet g d a b c => Sys2Proof.Machine.execCollGet g d a b c s
  | .collRsend g ty m d a b c => Sys2Proof.Machine.execCollRsend g ty m d a b c s
  | .collMcast g d a b c => Sys2Proof.Machine.execCollMcast g d a b c s
  | .collComplete cmd r data => Sys2Proof.Machine.execCollComplete cmd r data s
  | .cinstStart g d a => Sys2Proof.Machine.execCinstStart g d a s
  | .cinstQuery g d a => Sys2Proof.Machine.execCinstQuery g d a s
  | .instanceAnnounceReceive job member seq digest => Sys2Proof.Machine.execInstanceAnnounceReceive job member seq digest s
  | .remoteRequestReceive r => Sys2Proof.Machine.execRemoteRequestReceive r s
  | .rnsExponentReceive o seq y rank e agreed => Sys2Proof.Machine.execRnsExponentReceive o seq y rank e agreed s
  | .chunkContributionArrive job seq y c => Sys2Proof.Machine.execChunkContributionArrive job seq y c s
  | .chunkFlagsReceive job seq f => Sys2Proof.Machine.execChunkFlagsReceive job seq f s
  | .mcastLanding o seq va len => Sys2Proof.Machine.execMcastLanding o seq va len s
  | .mcastLandingComplete landing data => Sys2Proof.Machine.execMcastLandingComplete landing data s
  | .launch g d a b => Sys2Proof.Machine.execLaunch g d a b s
  | .evopSet g a b => Sys2Proof.Machine.execEvopSet g a b s
  | .evopClr g a b => Sys2Proof.Machine.execEvopClr g a b s
  | .evopTest g d a b => Sys2Proof.Machine.execEvopTest g d a b s
  | .sysr g r d => Sys2Proof.Machine.execSysr g r d s
  | .sysw g r a => Sys2Proof.Machine.execSysw g r a s
  | .trap g n => Sys2Proof.Machine.execTrap g n s
  | .eret g => Sys2Proof.Machine.execEret g s
  | .sleep g a => Sys2Proof.Machine.execSleep g a s
  | .sleepExpiry blk slice => Sys2Proof.Machine.execSleepExpiry blk slice s
  | .hqsub hq addr => Sys2Proof.Machine.execHqsub hq addr s
  | .hqctlRestart hq => Sys2Proof.Machine.execHqctlRestart hq s
  | .hqctlRemoveHead hq => Sys2Proof.Machine.execHqctlRemoveHead hq s
  | .hqctlClearOvf hq => Sys2Proof.Machine.execHqctlClearOvf hq s
  | .recordHeadCheck hq => Sys2Proof.Machine.execRecordHeadCheck hq s
  | .nodeEnterPool hq pos => Sys2Proof.Machine.execNodeEnterPool hq pos s
  | .nodeDispatch hq pos => Sys2Proof.Machine.execNodeDispatch hq pos s
  | .blockPlacement launch cores => Sys2Proof.Machine.execBlockPlacement launch cores s
  | .chrysalisSaveComplete launch unit => Sys2Proof.Machine.execChrysalisSaveComplete launch unit s
  | .drainTimeout launch unit => Sys2Proof.Machine.execDrainTimeout launch unit s
  | .launchComplete launch => Sys2Proof.Machine.execLaunchComplete launch s
  | .graphUpload addr => Sys2Proof.Machine.execGraphUpload addr s
  | .graphFree slot => Sys2Proof.Machine.execGraphFree slot s
  | .graphKick slot table => Sys2Proof.Machine.execGraphKick slot table s
  | .graphKickProceed slot => Sys2Proof.Machine.execGraphKickProceed slot s
  | .pfresResume ctx id => Sys2Proof.Machine.execPfresResume ctx id s
  | .pfresFail ctx id => Sys2Proof.Machine.execPfresFail ctx id s
  | .preempt ctx => Sys2Proof.Machine.execPreempt ctx s
  | .tlbinv ctx => Sys2Proof.Machine.execTlbinv ctx s
  | .faultClear ctx => Sys2Proof.Machine.execFaultClear ctx s
  | .hostRegisterWrite off value => Sys2Proof.Machine.execHostRegisterWrite off value s
  | .tokenBucketTick bytes energy => Sys2Proof.Machine.execTokenBucketTick bytes energy s
  | .retentionExitDone core bank => Sys2Proof.Machine.execRetentionExitDone core bank s
  | .flitReceive port f => Sys2Proof.Machine.execFlitReceive port f s
  | .heartbeatTimer port => Sys2Proof.Machine.execHeartbeatTimer port s
  | .linkSilenceTimeout port => Sys2Proof.Machine.execLinkSilenceTimeout port s
  | .keyInstall port tx slot key salt limit => Sys2Proof.Machine.execKeyInstall port tx slot key salt limit s
  | .linkTrainingComplete port => Sys2Proof.Machine.execLinkTrainingComplete port s
  | .keySwitchover port => Sys2Proof.Machine.execKeySwitchover port s
  | .drainingSlotLimit port => Sys2Proof.Machine.execDrainingSlotLimit port s
  | .linkDeathReport reporter plane => Sys2Proof.Machine.execLinkDeathReport reporter plane s
  | .deathNotice dev epoch => Sys2Proof.Machine.execDeathNotice dev epoch s
  | .moduleReset => Sys2Proof.Machine.execModuleReset s
  | .serviceImageDelivery img => Sys2Proof.Machine.execServiceImageDelivery img s
  | .attestationRequest nonce => Sys2Proof.Machine.execAttestationRequest nonce s
  | .clockThrottle watts => Sys2Proof.Machine.execClockThrottle watts s
  | .wordNotInstruction check => Sys2Proof.Machine.execWordNotInstruction check s
  | .hostMemoryAccess op => Sys2Proof.Machine.execHostMemoryAccess op s
  | .rootMailboxCommand c => Sys2Proof.Machine.execRootMailboxCommand c s
  | .powerLoss leafAdvanced => Sys2Proof.Machine.execPowerLoss leafAdvanced s
  | .pageMigrationFreeze page on => Sys2Proof.Machine.execPageMigrationFreeze page on s
  | .retentionEntry core bank => Sys2Proof.Machine.execRetentionEntry core bank s
  | .memorySoftError site correctable => Sys2Proof.Machine.execMemorySoftError site correctable s
  | .peerReadmission dev epoch => Sys2Proof.Machine.execPeerReadmission dev epoch s
  | .planeFailureAnnouncement plane => Sys2Proof.Machine.execPlaneFailureAnnouncement plane s
  | .engineAccessFault cmd => Sys2Proof.Machine.execEngineAccessFault cmd s

end Sys2Proof.Machine
end

