-- ==== Sys2Proof/Machine/Issue.lean ====
section
/-! DEFINITION. What a gang does when it has its turn: it consumes a block header (R33 to R38) or executes the instruction at
its pc, after the checks of R57. -/

namespace Sys2Proof.Machine

/-- Consume the header at the gang's pc: check 2 of R57, LIVE (R36), a new region where IDEM is 1 (R38) but for a header that is the
REP (R384), and the end of a block of one word. A word that is no header is reported at itself under check 1: so R35 says of
fall-through and launch entry, and the model of a PEND entry that resumes and of a loop's exit (log entry 51). -/
def State.enterBlock (s : State) (b : Block) (l : List Slice) (pc : VA) (w : Word) : State :=
  if !Hdr.isHeader w then s.raise { Ev.badtgt with check := 1, at_ := some pc }
  else if !Hdr.ok w (s.lrOf b).rlive then s.raise { Ev.illop with check := 2, at_ := some pc }
  else
    let enter (x : Slice) : Except Ev Slice :=
      let x := if Hdr.idem w && !x.atRep then x.openRegion { addr := pc, pc, hdr := pc, hword := none, wait := .none, header := true } else x
      let x := { x with hdr := pc, hword := some w, pc := VA.plus pc 1, atRep := false }.trimLive (Hdr.live w)
      if Hdr.len w = 1 then x.passEnd (s.noHeader (s.lrOf b).ctx) x.pc x.order else .ok x
    match gather (l.map enter) with
    | .error e => s.raise { e with at_ := some pc }
    | .ok r =>
      let (r, n) := partGang s.nextId r
      { s.modBlock b.uid (fun b => b.putSlices r) with nextId := n }

/-- Instructions after which a block is not flushed (R392). -/
def Instr.pins : Instr → Bool
  | .atom .. | .redm .. | .atomc .. | .atomw .. | .append .. | .skopEnq .. | .skopChase .. | .qpostTask .. | .qpost ..
  | .collSend .. | .collGet .. | .collRsend .. | .collMcast .. | .cinstStart .. | .cinstQuery .. | .launch .. | .evopSet .. | .evopClr ..
  | .salloc .. | .sfree .. => true
  | _ => false

/-- Note that a block has retired such an instruction since `old`. -/
def State.pinned (old s : State) (i : Instr) (uid : Nat) : State :=
  let count (s : State) : Nat := match s.block? uid with | some b => (b.slices.map (fun x => x.retired)).foldl (· + ·) 0 | none => 0
  if Instr.pins i && count s ≠ count old then s.modBlock uid fun b => { b with noFlush := true } else s

/-- Execute an instruction in its block. -/
def State.runInstr (s : State) (b : Block) (i : Instr) : Out :=
  match exec i s with
  | .next s' => .next (s.pinned s' i b.uid)
  | r => r

/-- The slices that refuse the word at the gang's pc, each with the check of R57 that fails. -/
def State.refusing (s : State) (b : Block) (l : List Slice) (w : Word) : List (Slice × Nat) :=
  l.filterMap fun y => match s.decodeIn b w y with | .error n => some (y, n) | .ok _ => none

/-- Execute the instruction at the gang's pc. Slices of one gang may stand in different blocks: the first check that fails in any
of them decides. -/
def State.runWord (s : State) (b : Block) (l : List Slice) (x : Slice) (w : Word) : Out :=
  match s.decodeIn b w x, s.refusing b l w with
  | .error n, [] => exec (.wordNotInstruction n) s
  | _, (y, n) :: rest =>
    let k := rest.foldl (fun m z => min m z.2) n
    let hits := ((y, n) :: rest).filter (fun z => z.2 == k)
    if hits.length == l.length then exec (.wordNotInstruction k) s
    else .next (s.raise { Ev.illop with check := k, at_ := some x.pc, lanes := hits.map fun z => (z.1.num, z.1.am) })
  | .ok i, [] =>
    match i.extWord, s.nextInBlock (s.lrOf b).ctx x with
    | some _, some (.error e) => .next (s.raise { e with at_ := some x.pc })
    | _, _ =>
      if !i.own && l.any (fun y => y.part_ i.guard != 0) then
        .next (s.raise { Ev.own with lanes := l.map fun y => (y.num, y.part_ i.guard) })
      else s.runInstr b i

/-- Why a slice cannot arrive at a header where it stands: a launch entry that is no multiple of 8 (R39, R360), or that is not
canonical (R216). -/
def State.entryEv (s : State) (b : Block) (x : Slice) : Option Ev :=
  let e := (s.lrOf b).entry
  if x.hword.isSome then none
  else if x.pc.toNat % 8 ≠ 0 then some { Ev.badtgt with check := 1 }
  else if e.toNat ≥ 2 ^ 57 && x.retired == 0 && x.hdr == x.pc && x.pc == e.setWidth 57 then
    some { Ev.pagef with detail := 0x01, addr := some e }
  else none

/-- Slices of one gang at one word, at which some arrive and into which others run on inside their block: what the word is to the
first comes before what it is to the others (R34, R35, R57). -/
def State.mixedEv (s : State) (b : Block) (l : List Slice) (w : Word) : Ev :=
  let of_ (p : Slice → Bool) : List (Nat × Mask) := (l.filter p).map fun y => (y.num, y.am)
  if !Hdr.isHeader w then { Ev.badtgt with check := 1, lanes := of_ fun y => y.hword.isNone }
  else if !Hdr.ok w (s.lrOf b).rlive then { Ev.illop with check := 2, lanes := of_ fun y => y.hword.isNone }
  else { Ev.illop with check := 3, lanes := of_ fun y => y.hword.isSome }

/-- The turn of a gang, or of one slice of it in the serial phase. A header and a back edge take no issue cycle (R35, R108): only an
instruction counts as the partition's last issue (R99). -/
def State.runGang (s : State) (blk gang : Nat) (only : Option Nat) : Out :=
  let s := { s with cur := some { block := blk, gang, only } }
  match s.issuing with
  | none => .next s
  | some (b, l) =>
    match l with
    | [] => .next s
    | x :: _ =>
      let c := (s.lrOf b).ctx
      let s := s.remember c x.pc.toNat
      let s := { s with lastPart := (b.share x.share).core * 4 + x.part }
      if s.fetchHeld b l then .next s
      else if x.hword.isSome && x.pc == x.blockEnd then
        let s := s.fetched b l
        match gather (l.map fun y => y.passEnd (s.noHeader c) y.pc y.order) with
        | .error e => .next (s.raise { e with at_ := some x.hdr })
        | .ok r =>
          let (r, n) := partGang s.nextId r
          .next { s.modBlock b.uid (fun b => b.putSlices r) with nextId := n }
      else
        match (match s.entryEv b x with | some e => Except.error e | none => s.fetchWord c x.pc.toNat) with
        | .error e => .next (s.raise { e with at_ := some x.pc })
        | .ok w =>
          let s := s.fetched b l
          if l.all (fun y => y.hword.isNone) then .next (s.enterBlock b l x.pc w)
          else if l.any (fun y => y.hword.isNone) then .next (s.raise { s.mixedEv b l w with at_ := some x.pc })
          else (s.markIssued b l).runWord b l x w

/-- The turn that the agenda names: a gang issues only where its partition takes it of its ready gangs (R99). -/
def State.runTurn (s : State) : Turn → Out
  | .gang blk gang =>
    match s.blocks.find? (fun b => b.uid == blk) with
    | some b => if s.mayTurn b gang then s.runGang blk gang none else .next s
    | none => .next s
  | .serial blk sl =>
    match (s.blocks.find? (fun b => b.uid == blk)).bind (fun b => b.slice? sl) with
    | some x => if x.stop == .none && !x.ended && x.qphase == .atSerial then s.runGang blk x.gang (some sl) else .next s
    | none => .next s
  | .event i => exec i { s with cur := none }

/-- What goes on beside the agenda: a block that has completed leaves; else, in turn, an event that a unit has at hand or a ready gang;
else time passes. -/
def State.onward (s : State) : Out :=
  match s.blocks.find? s.blockOver with
  | some b => .next (s.reap b)
  | none =>
    match (if s.cycle % 2 = 0 then s.event? else none), s.nextGang with
    | some i, _ => s.runTurn (.event i)
    | none, some (_, blk, gang) => s.runTurn (.gang blk gang)
    | none, none => match s.event? with | some i => s.runTurn (.event i) | none => .next s

/-- One step: the head of the agenda, or what goes on beside it. An event of the agenda has one step of four: one that must wait is put
off, and what it waits for goes on (log entry 53). -/
def State.tick (s : State) : Out :=
  let s := { s with cycle := s.cycle + 1, fresh := s.fresh + 1 }
  match s.agenda with
  | .event i :: rest => if s.cycle % 4 = 1 then { s with agenda := rest }.runTurn (.event i) else s.onward
  | t :: rest => { s with agenda := rest }.runTurn t
  | [] => s.onward

end Sys2Proof.Machine
end

