-- ==== Sys2Proof/Laws/Encode.lean ====
section
/-! SUPPORT. The encoder against the decoder: fields, codes and operands are read back. -/

namespace Sys2Proof

/-- The number of two bit strings in a row. -/
theorem append_toNat {n m : Nat} (x : BitVec n) (y : BitVec m) : (x ++ y).toNat = x.toNat * 2 ^ m + y.toNat := by
  rw [BitVec.toNat_append, ← Nat.shiftLeft_add_eq_or_of_lt y.isLt, Nat.shiftLeft_eq]

/-- A word as the number of its fields (R27). -/
theorem Parts.toWord_toNat (p : Parts) : p.toWord.toNat =
    (((((((p.opc.toNat * 2 ^ 4 + p.ty.toNat) * 2 ^ 4 + p.mod.toNat) * 2 ^ 4 + p.pg.toNat) * 2 ^ 9 + p.d.toNat) * 2 ^ 9 +
      p.a.toNat) * 2 ^ 9 + p.b.toNat) * 2 ^ 9 + p.c.toNat) * 2 ^ 9 + p.sub.toNat := by
  have h : p.toWord.toNat = (p.opc ++ p.ty ++ p.mod ++ p.pg ++ p.d ++ p.a ++ p.b ++ p.c ++ p.sub).toNat := rfl
  rw [h]; simp only [append_toNat]

/-- The fields of a word are those it was made of. -/
theorem Parts.ofWord_toWord (p : Parts) : Parts.ofWord p.toWord = p := by
  have h := p.toWord_toNat
  obtain ⟨opc, ty, mod, pg, d, a, b, c, sub⟩ := p
  simp only [Parts.ofWord, Parts.mk.injEq]
  simp only at h
  refine ⟨?_, ?_, ?_, ?_, ?_, ?_, ?_, ?_, ?_⟩ <;>
    (apply BitVec.eq_of_toNat_eq; rw [BitVec.extractLsb'_toNat, Nat.shiftRight_eq_div_pow, h]; omega)

/-- A word is made of its fields. -/
theorem Parts.toWord_ofWord (w : Word) : (Parts.ofWord w).toWord = w := by
  apply BitVec.eq_of_toNat_eq
  rw [Parts.toWord_toNat]
  simp only [Parts.ofWord, BitVec.extractLsb'_toNat, Nat.shiftRight_eq_div_pow]
  omega

@[simp] theorem Ty.ofCode_code (t : Ty) : Ty.ofCode t.code.toNat = some t := by cases t <;> rfl
@[simp] theorem NTy.ofCode_code (t : NTy) : NTy.ofCode t.code.toNat = some t := by cases t <;> rfl
@[simp] theorem Guard.ofCode_code (g : Guard) : Guard.ofCode g.code = g := by
  obtain ⟨n, p⟩ := g
  revert n p; decide

/-- Only the specifier 0x1FE reads the following word. -/
theorem Opd.ofSpec_word (n : BitVec 9) (x : Word) (h : n.toNat ≠ 0x1FE) : Opd.ofSpec n x = Opd.ofSpec n 0 := by
  unfold Opd.ofSpec
  simp only [h, if_false]

/-- The operand that a specifier names (R30). -/
theorem Opd.ofSpec_spec (o : Opd) (x : Word) (h : o.cls ≠ .bad) (hx : ∀ w, o = .ext w → w = x) :
    Opd.ofSpec o.spec x = some o := by
  have key (n : BitVec 9) (h0 : n.toNat ≠ 0x1FE) (h1 : Opd.ofSpec n 0 = some o) : Opd.ofSpec n x = some o := by
    rw [Opd.ofSpec_word n x h0, h1]
  cases o with
  | v n => exact key _ (by clear key h hx; revert n; decide) (by clear key h hx; revert n; decide)
  | s n => exact key _ (by clear key h hx; revert n; decide) (by clear key h hx; revert n; decide)
  | p n => exact key _ (by clear key h hx; revert n; decide) (by clear key h hx; revert n; decide)
  | q n => exact key _ (by clear key h hx; revert n; decide) (by clear key h hx; revert n; decide)
  | acc n => exact key _ (by clear key h hx; revert n; decide) (by clear key h hx; revert n; decide)
  | fmt => rfl
  | flg => rfl
  | tl n => exact key _ (by clear key h hx; revert n; decide) (by clear key h hx; revert n; decide)
  | ident n => exact key _ (by clear key h hx; revert n; decide) (by clear key hx; revert n; decide)
  | small n => exact key _ (by clear key h hx; revert n; decide) (by clear key h hx; revert n; decide)
  | ext w => rw [hx w rfl]; rfl
  | none => rfl

/-- The one extension word is the one that is found (R32). -/
theorem extWord_of_mem (l : List Use) (h : (l.filter (fun u => u.o.isExt)).length ≤ 1) {u : Use} (hu : u ∈ l) {w : Word}
    (hw : u.o = .ext w) : l.findSome? (fun u => u.o.word?) = some w := by
  induction l with
  | nil => cases hu
  | cons a l ih =>
    rcases List.mem_cons.mp hu with rfl | hu
    · simp [hw, Opd.word?]
    · have ha : a.o.isExt = false := by
        by_contra ha
        have hp : 0 < (l.filter (fun u => u.o.isExt)).length :=
          List.length_pos_of_mem (List.mem_filter.mpr ⟨hu, by simp [hw, Opd.isExt]⟩)
        rw [List.filter_cons, if_pos (by simpa using ha), List.length_cons] at h
        omega
      have hn : a.o.word? = none := by cases ho : a.o <;> simp_all [Opd.isExt, Opd.word?]
      rw [List.findSome?_cons, hn]
      exact ih (by simpa [List.filter_cons, ha] using h) hu

/-- Each operand of a well-formed instruction is read back, whatever words follow. -/
theorem Instr.opd_round {live accn : Nat} {i : Instr} (more : List Word) (h : i.check live accn = none) {u : Use} (hu : u ∈ i.uses) :
    Opd.ofSpec u.o.spec ((i.extWord.toList ++ more).head?.getD 0) = some u.o := by
  unfold Instr.check at h
  split_ifs at h with h8 h9 h10
  simp only [Bool.not_eq_true', Bool.not_eq_false, List.all_eq_true, Bool.and_eq_true, bne_iff_ne, ne_eq] at h8
  simp only [Bool.or_eq_true, decide_eq_true_eq, not_or, not_lt] at h10
  refine Opd.ofSpec_spec _ _ (h8 u hu).2 fun w hw => ?_
  rw [Instr.extWord, extWord_of_mem _ h10.1 hu hw]; rfl

/-- An instruction's operands have classes that its fields accept (check 8 of R57). -/
theorem Instr.opd_accepted {live accn : Nat} {i : Instr} (h : i.check live accn = none) {u : Use} (hu : u ∈ i.uses) :
    u.accept.contains u.o.cls = true := by
  unfold Instr.check at h
  split_ifs at h with h8 h9 h10
  simp only [Bool.not_eq_true', Bool.not_eq_false, List.all_eq_true, Bool.and_eq_true] at h8
  exact (h8 u hu).1

/-! ## Codes -/

@[simp] theorem Rnd.ofCode_code (x : Rnd) : Rnd.ofCode (f4 x.code).toNat = some x := by cases x <;> rfl
@[simp] theorem Cnd.ofCode_code (x : Cnd) : Cnd.ofCode (f4 x.code).toNat = some x := by cases x <;> rfl
@[simp] theorem BrCond.ofCode_code (x : BrCond) : BrCond.ofCode (f4 x.code).toNat = some x := by cases x <;> rfl
@[simp] theorem AtomOp.ofCode_code (x : AtomOp) : AtomOp.ofCode (f4 x.code).toNat = some x := by cases x <;> rfl
@[simp] theorem RedOp.ofCode_code (x : RedOp) : RedOp.ofCode (f4 x.code).toNat = some x := by cases x <;> rfl
@[simp] theorem AwN.ofCode_code (x : AwN) : AwN.ofCode (f4 x.code).toNat = some x := by cases x <;> rfl
@[simp] theorem CollMode.ofCode_code (x : CollMode) : CollMode.ofCode (f4 x.code).toNat = some x := by cases x <;> rfl
@[simp] theorem VoteOp.ofCode_code (x : VoteOp) : VoteOp.ofCode (f9 x.code).toNat = some x := by cases x <;> rfl
@[simp] theorem AddOp.ofCode_code (x : AddOp) : AddOp.ofCode (f9 x.code).toNat = some x := by cases x <;> rfl
@[simp] theorem MulOp.ofCode_code (x : MulOp) : MulOp.ofCode (f9 x.code).toNat = some x := by cases x <;> rfl
@[simp] theorem MinMax.ofCode_code (x : MinMax) : MinMax.ofCode (f9 x.code).toNat = some x := by cases x <;> rfl
@[simp] theorem ShiftOp.ofCode_code (x : ShiftOp) : ShiftOp.ofCode (f9 x.code).toNat = some x := by cases x <;> rfl
@[simp] theorem BitsOp.ofCode_code (x : BitsOp) : BitsOp.ofCode (f9 x.code).toNat = some x := by cases x <;> rfl
@[simp] theorem BfxOp.ofCode_code (x : BfxOp) : BfxOp.ofCode (f9 x.code).toNat = some x := by cases x <;> rfl
@[simp] theorem LeaK.ofCode_code (x : LeaK) : LeaK.ofCode (f9 x.code).toNat = some x := by cases x <;> rfl
@[simp] theorem LaneOp.ofCode_code (x : LaneOp) : LaneOp.ofCode (f9 x.code).toNat = some x := by cases x <;> rfl
@[simp] theorem PredOp.ofCode_code (x : PredOp) : PredOp.ofCode (f9 x.code).toNat = some x := by cases x <;> rfl
@[simp] theorem FmaOp.ofCode_code (x : FmaOp) : FmaOp.ofCode (f9 x.code).toNat = some x := by cases x <;> rfl
@[simp] theorem FMinMax.ofCode_code (x : FMinMax) : FMinMax.ofCode (f9 x.code).toNat = some x := by cases x <;> rfl
@[simp] theorem FapxFn.ofCode_code (x : FapxFn) : FapxFn.ofCode (f9 x.code).toNat = some x := by cases x <;> rfl
@[simp] theorem NzOp.ofCode_code (x : NzOp) : NzOp.ofCode (f9 x.code).toNat = some x := by cases x <;> rfl
@[simp] theorem MemKind.ofCode_code (x : MemKind) : MemKind.ofCode (f9 x.code).toNat = some x := by cases x <;> rfl
@[simp] theorem PrefKind.ofCode_code (x : PrefKind) : PrefKind.ofCode (f9 x.code).toNat = some x := by cases x <;> rfl
@[simp] theorem MaintKind.ofCode_code (x : MaintKind) : MaintKind.ofCode (f9 x.code).toNat = some x := by cases x <;> rfl
@[simp] theorem FenceKind.ofCode_code (x : FenceKind) : FenceKind.ofCode (f9 x.code).toNat = some x := by cases x <;> rfl
@[simp] theorem McmpOp.ofCode_code (x : McmpOp) : McmpOp.ofCode (f9 x.code).toNat = some x := by cases x <;> rfl
@[simp] theorem SysReg.ofCode_code (x : SysReg) : SysReg.ofCode (f9 x.code).toNat = some x := by cases x <;> rfl
@[simp] theorem Scope.ofCode_code4 (x : Scope) : Scope.ofCode (f4 x.code).toNat = some x := by
  cases x with
  | lvl k => revert k; decide
  | _ => rfl
@[simp] theorem Scope.ofCode_code9 (x : Scope) : Scope.ofCode (f9 x.code).toNat = some x := by
  cases x with
  | lvl k => revert k; decide
  | _ => rfl
@[simp] theorem Ty.ofCode_0 : Ty.ofCode 0 = some .none := rfl
@[simp] theorem Ty.ofCode_6 : Ty.ofCode 6 = some .n32 := rfl
@[simp] theorem Ty.ofCode_8 : Ty.ofCode 8 = some .n64 := rfl
@[simp] theorem Ty.ofCode_9 : Ty.ofCode 9 = some .f32 := rfl
@[simp] theorem Ty.ofCode_13 : Ty.ofCode 13 = some .b64 := rfl
/-- A narrow code is a code of the general table too. -/
@[simp] theorem Ty.ofCode_narrow {α : Type} (x : NTy) (y : Option α) : (Ty.ofCode x.code.toNat).bind (fun _ => y) = y := by
  cases x <;> rfl
@[simp] theorem Ty.ofCode_sub (x : Ty) : Ty.ofCode (0#5 ++ x.code).toNat = some x := by cases x <;> rfl
@[simp] theorem f4_bit1 (b : Bool) : ((f4 (bit1 b)).toNat == 1) = b := by cases b <;> rfl
@[simp] theorem f9_bit1 (b : Bool) : ((f9 (bit1 b)).toNat == 1) = b := by cases b <;> rfl
@[simp] theorem f9_one_bit1 (b : Bool) : ((f9 (1 + bit1 b)).toNat == 2) = b := by cases b <;> rfl

@[simp] theorem f9_path (x : Fin 6) : (f9 x.val).toNat = x.val := by revert x; decide

@[simp] theorem join27 (x : BitVec 27) : (x.extractLsb' 18 9 ++ x.extractLsb' 9 9 ++ x.extractLsb' 0 9 : BitVec 27) = x := by
  apply BitVec.eq_of_toNat_eq
  rw [append_toNat, append_toNat]
  simp only [BitVec.extractLsb'_toNat, Nat.shiftRight_eq_div_pow]
  omega
@[simp] theorem join18 (x : BitVec 18) : (x.extractLsb' 9 9 ++ x.extractLsb' 0 9 : BitVec 18) = x := by
  apply BitVec.eq_of_toNat_eq
  rw [append_toNat]
  simp only [BitVec.extractLsb'_toNat, Nat.shiftRight_eq_div_pow]
  omega
@[simp] theorem low2 (x : BitVec 2) : BitVec.extractLsb' 0 2 (0#2 ++ x : BitVec 4) = x := by revert x; decide
@[simp] theorem low3 (x : BitVec 3) : BitVec.extractLsb' 0 3 (0#1 ++ x : BitVec 4) = x := by revert x; decide
@[simp] theorem low8 (x : BitVec 8) : BitVec.extractLsb' 0 8 (0#1 ++ x : BitVec 9) = x := by revert x; decide

@[simp] theorem counts_d3 (x y z : Wc) : Wc.ofCode ((f9 (x.code + 4 * y.code + 16 * z.code)).toNat % 4) = some x := by
  cases x <;> cases y <;> cases z <;> rfl
@[simp] theorem counts_a3 (x y z : Wc) : Wc.ofCode ((f9 (x.code + 4 * y.code + 16 * z.code)).toNat / 4 % 4) = some y := by
  cases x <;> cases y <;> cases z <;> rfl
@[simp] theorem counts_b3 (x y z : Wc) : Wc.ofCode ((f9 (x.code + 4 * y.code + 16 * z.code)).toNat / 16 % 4) = some z := by
  cases x <;> cases y <;> cases z <;> rfl
@[simp] theorem counts_d2 (x y : Wc) : Wc.ofCode ((f9 (x.code + 4 * y.code)).toNat % 4) = some x := by
  cases x <;> cases y <;> rfl
@[simp] theorem counts_a2 (x y : Wc) : Wc.ofCode ((f9 (x.code + 4 * y.code)).toNat / 4 % 4) = some y := by
  cases x <;> cases y <;> rfl
@[simp] theorem counts_a1 (y : Wc) : Wc.ofCode ((f9 (4 * y.code)).toNat / 4 % 4) = some y := by cases y <;> rfl
@[simp] theorem counts_ab_a (y z : Wc) : Wc.ofCode ((f9 (4 * y.code + 16 * z.code)).toNat / 4 % 4) = some y := by
  cases y <;> cases z <;> rfl
@[simp] theorem counts_ab_b (y z : Wc) : Wc.ofCode ((f9 (4 * y.code + 16 * z.code)).toNat / 16 % 4) = some z := by
  cases y <;> cases z <;> rfl
@[simp] theorem counts_ty_d (x y : Wc) (t : Ty) : Wc.ofCode ((f9 (x.code + 4 * y.code + 16 * t.code.toNat)).toNat % 4) = some x := by
  cases x <;> cases y <;> cases t <;> rfl
@[simp] theorem counts_ty_a (x y : Wc) (t : Ty) :
    Wc.ofCode ((f9 (x.code + 4 * y.code + 16 * t.code.toNat)).toNat / 4 % 4) = some y := by
  cases x <;> cases y <;> cases t <;> rfl
@[simp] theorem counts_ty_t (x y : Wc) (t : Ty) :
    Ty.ofCode ((f9 (x.code + 4 * y.code + 16 * t.code.toNat)).toNat / 16) = some t := by
  cases x <;> cases y <;> cases t <;> rfl

end Sys2Proof
end

