-- ==== Sys2Proof/Laws/PerInstr.lean ====
section
/-! SUPPORT. Statements made for every instruction, one lemma a constructor. RoundTrip: a well-formed instruction's words decode
to it, whatever follows them (R27 to R57); an event has no words. -/

set_option Elab.async false

namespace Sys2Proof.Laws.RoundTrip

/-- The words of a well-formed instruction decode to it. -/
def Statement (i : Instr) : Prop :=
  ∀ live accn more, i.wf live accn = true →
    ∃ w rest, encode i = w :: rest ∧ decodeAt live accn w (rest ++ more).head? = .ok i

/-- Where the fields build the instruction from operands read back, its words decode to it. -/
theorem of_build {i : Instr} {p : Parts} (hp : i.parts = some p)
    (hb : ∀ rd, (∀ u ∈ i.uses, rd u.o.spec = some u.o) → (∀ o, o.cls ≠ .bad → o.isExt = false → rd o.spec = some o) →
      (∀ u ∈ i.uses, u.accept.contains u.o.cls = true) → p.build rd = some i) : Statement i := by
  intro live accn more hw
  refine ⟨p.toWord, i.extWord.toList, by simp [encode, hp], ?_⟩
  simp only [Instr.wf, hp, Bool.and_eq_true, beq_iff_eq] at hw
  obtain ⟨⟨hc, hk⟩, -⟩ := hw
  have hb := hb (fun n => Opd.ofSpec n ((i.extWord.toList ++ more).head?.getD 0)) (fun u hu => Instr.opd_round more hk hu)
    (fun o h0 h1 => Opd.ofSpec_spec o _ h0 fun w hw => by simp [hw, Opd.isExt] at h1) (fun u hu => Instr.opd_accepted hk hu)
  simp only [decodeAt, Parts.ofWord_toWord, hc, hb, hp, hk, ne_eq, not_true_eq_false, if_false]
  cases i.extWord <;> rfl

/-- An event is no well-formed instruction. -/
theorem of_event {i : Instr} (h : i.parts = none) : Statement i := by
  intro live accn more hw
  simp [Instr.wf, h] at hw

theorem nop (g : Guard) : Statement (.nop g) :=
  of_build rfl fun rd _ _ _ => by
    simp [Parts.build, Parts.buildControl, Parts.bare]

theorem bra (g : Guard) (off : BitVec 27) : Statement (.bra g off) :=
  of_build rfl fun rd _ _ _ => by
    simp [Parts.build, Parts.buildControl, Parts.bare, Parts.setOff, Parts.off27]

theorem brp (g : Guard) (c : BrCond) (p : BitVec 3) (off : BitVec 27) : Statement (.brp g c p off) :=
  of_build rfl fun rd _ h0 _ => by
    simp [Parts.build, Parts.buildControl, Parts.bare, Parts.setD, Parts.setOff, Parts.off27, h0 (.p p) nofun rfl]

theorem brx (g : Guard) (a : Opd) : Statement (.brx g a) :=
  of_build rfl fun rd h _ _ => by
    simp only [Instr.uses, List.mem_cons, List.not_mem_nil, or_false, forall_eq] at h
    simp [Parts.build, Parts.buildControl, Parts.bare, Parts.setA, h]

theorem call (g : Guard) (d : Opd) (off : BitVec 27) : Statement (.call g d off) :=
  of_build rfl fun rd h _ _ => by
    simp only [Instr.uses, List.mem_cons, List.not_mem_nil, or_false, forall_eq] at h
    simp [Parts.build, Parts.buildControl, Parts.bare, Parts.setD, Parts.setOff, Parts.off27, h]

theorem ret (g : Guard) (a : Opd) : Statement (.ret g a) :=
  of_build rfl fun rd h _ _ => by
    simp only [Instr.uses, List.mem_cons, List.not_mem_nil, or_false, forall_eq] at h
    simp [Parts.build, Parts.buildControl, Parts.bare, Parts.setA, h]

theorem loop (g : Guard) (l : BitVec 2) (a : Opd) (off : BitVec 18) : Statement (.loop g l a off) :=
  of_build rfl fun rd h _ _ => by
    simp only [Instr.uses, List.mem_cons, List.not_mem_nil, or_false, forall_eq] at h
    simp [Parts.build, Parts.buildControl, Parts.bare, Parts.setA, Parts.off18, h]

theorem lbrk (g : Guard) (l : BitVec 2) : Statement (.lbrk g l) :=
  of_build rfl fun rd _ _ _ => by
    simp [Parts.build, Parts.buildControl, Parts.bare]

theorem regang (g : Guard) : Statement (.regang g) :=
  of_build rfl fun rd _ _ _ => by
    simp [Parts.build, Parts.buildControl, Parts.bare]

theorem yield (g : Guard) : Statement (.yield g) :=
  of_build rfl fun rd _ _ _ => by
    simp [Parts.build, Parts.buildControl, Parts.bare]

theorem exit (g : Guard) : Statement (.exit g) :=
  of_build rfl fun rd _ _ _ => by
    simp [Parts.build, Parts.buildControl, Parts.bare]

theorem vote (g : Guard) (op : VoteOp) (d a : Opd) : Statement (.vote g op d a) :=
  of_build rfl fun rd h _ _ => by
    simp only [Instr.uses, List.mem_cons, List.not_mem_nil, or_false, forall_eq_or_imp, forall_eq] at h
    simp [Parts.build, Parts.buildControl, Parts.bare, Parts.setD, Parts.setA, h]

theorem iadd (g : Guard) (ty : Ty) (sat : Bool) (op : AddOp) (d a b c : Opd) : Statement (.iadd g ty sat op d a b c) :=
  of_build rfl fun rd h _ _ => by
    simp only [Instr.uses, List.mem_cons, List.not_mem_nil, or_false, forall_eq_or_imp, forall_eq] at h
    simp [Parts.build, Parts.buildInteger, Parts.bare, Parts.setD, Parts.setA, Parts.setB, Parts.setC, h]

theorem imul (g : Guard) (ty : Ty) (sat : Bool) (op : MulOp) (d a b : Opd) : Statement (.imul g ty sat op d a b) :=
  of_build rfl fun rd h _ _ => by
    simp only [Instr.uses, List.mem_cons, List.not_mem_nil, or_false, forall_eq_or_imp, forall_eq] at h
    simp [Parts.build, Parts.buildInteger, Parts.bare, Parts.setD, Parts.setA, Parts.setB, h]

theorem imad (g : Guard) (ty : Ty) (sat : Bool) (op : MulOp) (d a b c : Opd) : Statement (.imad g ty sat op d a b c) :=
  of_build rfl fun rd h _ _ => by
    simp only [Instr.uses, List.mem_cons, List.not_mem_nil, or_false, forall_eq_or_imp, forall_eq] at h
    simp [Parts.build, Parts.buildInteger, Parts.bare, Parts.setD, Parts.setA, Parts.setB, Parts.setC, h]

theorem iminmax (g : Guard) (ty : Ty) (op : MinMax) (d a b : Opd) : Statement (.iminmax g ty op d a b) :=
  of_build rfl fun rd h _ _ => by
    simp only [Instr.uses, List.mem_cons, List.not_mem_nil, or_false, forall_eq_or_imp, forall_eq] at h
    simp [Parts.build, Parts.buildInteger, Parts.bare, Parts.setD, Parts.setA, Parts.setB, h]

theorem logic (g : Guard) (ty : Ty) (tt : BitVec 8) (d a b c : Opd) : Statement (.logic g ty tt d a b c) :=
  of_build rfl fun rd h _ _ => by
    simp only [Instr.uses, List.mem_cons, List.not_mem_nil, or_false, forall_eq_or_imp, forall_eq] at h
    simp [Parts.build, Parts.buildInteger, Parts.bare, Parts.setD, Parts.setA, Parts.setB, Parts.setC, h]

theorem shift (g : Guard) (ty : Ty) (op : ShiftOp) (d a b c : Opd) : Statement (.shift g ty op d a b c) :=
  of_build rfl fun rd h _ _ => by
    simp only [Instr.uses, List.mem_cons, List.not_mem_nil, or_false, forall_eq_or_imp, forall_eq] at h
    simp [Parts.build, Parts.buildInteger, Parts.bare, Parts.setD, Parts.setA, Parts.setB, Parts.setC, h]

theorem bits (g : Guard) (ty : Ty) (op : BitsOp) (d a : Opd) : Statement (.bits g ty op d a) :=
  of_build rfl fun rd h _ _ => by
    simp only [Instr.uses, List.mem_cons, List.not_mem_nil, or_false, forall_eq_or_imp, forall_eq] at h
    simp [Parts.build, Parts.buildInteger, Parts.bare, Parts.setD, Parts.setA, h]

theorem bfx (g : Guard) (ty : Ty) (op : BfxOp) (d a b c : Opd) : Statement (.bfx g ty op d a b c) :=
  of_build rfl fun rd h _ _ => by
    simp only [Instr.uses, List.mem_cons, List.not_mem_nil, or_false, forall_eq_or_imp, forall_eq] at h
    simp [Parts.build, Parts.buildInteger, Parts.bare, Parts.setD, Parts.setA, Parts.setB, Parts.setC, h]

theorem icmp (g : Guard) (ty : Ty) (c : Cnd) (d a b : Opd) : Statement (.icmp g ty c d a b) :=
  of_build rfl fun rd h _ _ => by
    simp only [Instr.uses, List.mem_cons, List.not_mem_nil, or_false, forall_eq_or_imp, forall_eq] at h
    simp [Parts.build, Parts.buildInteger, Parts.bare, Parts.setD, Parts.setA, Parts.setB, h]

theorem sel (g : Guard) (ty : Ty) (d a b c : Opd) : Statement (.sel g ty d a b c) :=
  of_build rfl fun rd h _ _ => by
    simp only [Instr.uses, List.mem_cons, List.not_mem_nil, or_false, forall_eq_or_imp, forall_eq] at h
    simp [Parts.build, Parts.buildInteger, Parts.bare, Parts.setD, Parts.setA, Parts.setB, Parts.setC, h]

theorem mov (g : Guard) (ty : Ty) (d a : Opd) : Statement (.mov g ty d a) :=
  of_build rfl fun rd h _ _ => by
    have h : rd d.spec = some d ∧ rd a.spec = some a := by cases ty <;> simpa [Instr.uses] using h
    simp [Parts.build, Parts.buildInteger, Parts.bare, Parts.setD, Parts.setA, h]

theorem lea (g : Guard) (k : LeaK) (d a b c : Opd) : Statement (.lea g k d a b c) :=
  of_build rfl fun rd h _ _ => by
    simp only [Instr.uses, List.mem_cons, List.not_mem_nil, or_false, forall_eq_or_imp, forall_eq] at h
    simp [Parts.build, Parts.buildInteger, Parts.bare, Parts.setD, Parts.setA, Parts.setB, Parts.setC, h]

theorem hashCrc32c (g : Guard) (ty : Ty) (d a b : Opd) : Statement (.hashCrc32c g ty d a b) :=
  of_build rfl fun rd h _ _ => by
    simp only [Instr.uses, List.mem_cons, List.not_mem_nil, or_false, forall_eq_or_imp, forall_eq] at h
    simp [Parts.build, Parts.buildInteger, Parts.bare, Parts.setD, Parts.setA, Parts.setB, h]

theorem hashMix64 (g : Guard) (ty : Ty) (d a b : Opd) : Statement (.hashMix64 g ty d a b) :=
  of_build rfl fun rd h _ _ => by
    simp only [Instr.uses, List.mem_cons, List.not_mem_nil, or_false, forall_eq_or_imp, forall_eq] at h
    simp [Parts.build, Parts.buildInteger, Parts.bare, Parts.setD, Parts.setA, Parts.setB, h]

theorem partRadix (g : Guard) (ty : Ty) (d a c : Opd) : Statement (.partRadix g ty d a c) :=
  of_build rfl fun rd h _ _ => by
    simp only [Instr.uses, List.mem_cons, List.not_mem_nil, or_false, forall_eq_or_imp, forall_eq] at h
    simp [Parts.build, Parts.buildInteger, Parts.bare, Parts.setD, Parts.setA, Parts.setC, h]

theorem partRange (g : Guard) (ty : Ty) (d a b c : Opd) : Statement (.partRange g ty d a b c) :=
  of_build rfl fun rd h _ _ => by
    simp only [Instr.uses, List.mem_cons, List.not_mem_nil, or_false, forall_eq_or_imp, forall_eq] at h
    simp [Parts.build, Parts.buildInteger, Parts.bare, Parts.setD, Parts.setA, Parts.setB, Parts.setC, h]

theorem lane (g : Guard) (ty : Ty) (gang : Bool) (op : LaneOp) (d a b : Opd) : Statement (.lane g ty gang op d a b) :=
  of_build rfl fun rd h _ _ => by
    simp only [Instr.uses, List.mem_cons, List.not_mem_nil, or_false, forall_eq_or_imp, forall_eq] at h
    simp [Parts.build, Parts.buildInteger, Parts.bare, Parts.setD, Parts.setA, Parts.setB, h]

theorem pred (g : Guard) (op : PredOp) (d a b : Opd) : Statement (.pred g op d a b) :=
  of_build rfl fun rd h _ _ => by
    simp only [Instr.uses, List.mem_cons, List.not_mem_nil, or_false, forall_eq_or_imp, forall_eq] at h
    simp [Parts.build, Parts.buildInteger, Parts.bare, Parts.setD, Parts.setA, Parts.setB, h]

theorem fadd (g : Guard) (ty : Ty) (r : Rnd) (diff : Bool) (d a b : Opd) : Statement (.fadd g ty r diff d a b) :=
  of_build rfl fun rd h _ _ => by
    simp only [Instr.uses, List.mem_cons, List.not_mem_nil, or_false, forall_eq_or_imp, forall_eq] at h
    simp [Parts.build, Parts.buildFloat, Parts.bare, Parts.setD, Parts.setA, Parts.setB, h]

theorem fmul (g : Guard) (ty : Ty) (r : Rnd) (d a b : Opd) : Statement (.fmul g ty r d a b) :=
  of_build rfl fun rd h _ _ => by
    simp only [Instr.uses, List.mem_cons, List.not_mem_nil, or_false, forall_eq_or_imp, forall_eq] at h
    simp [Parts.build, Parts.buildFloat, Parts.bare, Parts.setD, Parts.setA, Parts.setB, h]

theorem ffma (g : Guard) (ty : Ty) (r : Rnd) (op : FmaOp) (d a b c : Opd) : Statement (.ffma g ty r op d a b c) :=
  of_build rfl fun rd h _ _ => by
    simp only [Instr.uses, List.mem_cons, List.not_mem_nil, or_false, forall_eq_or_imp, forall_eq] at h
    simp [Parts.build, Parts.buildFloat, Parts.bare, Parts.setD, Parts.setA, Parts.setB, Parts.setC, h]

theorem fminmax (g : Guard) (ty : Ty) (op : FMinMax) (d a b : Opd) : Statement (.fminmax g ty op d a b) :=
  of_build rfl fun rd h _ _ => by
    simp only [Instr.uses, List.mem_cons, List.not_mem_nil, or_false, forall_eq_or_imp, forall_eq] at h
    simp [Parts.build, Parts.buildFloat, Parts.bare, Parts.setD, Parts.setA, Parts.setB, h]

theorem fcmp (g : Guard) (ty : Ty) (c : Cnd) (d a b : Opd) : Statement (.fcmp g ty c d a b) :=
  of_build rfl fun rd h _ _ => by
    simp only [Instr.uses, List.mem_cons, List.not_mem_nil, or_false, forall_eq_or_imp, forall_eq] at h
    simp [Parts.build, Parts.buildFloat, Parts.bare, Parts.setD, Parts.setA, Parts.setB, h]

theorem fclass (g : Guard) (ty : Ty) (d a : Opd) : Statement (.fclass g ty d a) :=
  of_build rfl fun rd h _ _ => by
    simp only [Instr.uses, List.mem_cons, List.not_mem_nil, or_false, forall_eq_or_imp, forall_eq] at h
    simp [Parts.build, Parts.buildFloat, Parts.bare, Parts.setD, Parts.setA, h]

theorem fapx (g : Guard) (ty : Ty) (fn : FapxFn) (d a : Opd) : Statement (.fapx g ty fn d a) :=
  of_build rfl fun rd h _ _ => by
    simp only [Instr.uses, List.mem_cons, List.not_mem_nil, or_false, forall_eq_or_imp, forall_eq] at h
    simp [Parts.build, Parts.buildFloat, Parts.bare, Parts.setD, Parts.setA, h]

theorem fcvt (g : Guard) (ty : Ty) (r : Rnd) (src : Ty) (d a : Opd) : Statement (.fcvt g ty r src d a) :=
  of_build rfl fun rd h _ _ => by
    simp only [Instr.uses, List.mem_cons, List.not_mem_nil, or_false, forall_eq_or_imp, forall_eq] at h
    simp [Parts.build, Parts.buildFloat, Parts.bare, Parts.setD, Parts.setA, h]

theorem fadd2 (g : Guard) (ty : Ty) (d a b : Opd) : Statement (.fadd2 g ty d a b) :=
  of_build rfl fun rd h _ _ => by
    simp only [Instr.uses, List.mem_cons, List.not_mem_nil, or_false, forall_eq_or_imp, forall_eq] at h
    simp [Parts.build, Parts.buildFloat, Parts.bare, Parts.setD, Parts.setA, Parts.setB, h]

theorem fmul2 (g : Guard) (ty : Ty) (d a b : Opd) : Statement (.fmul2 g ty d a b) :=
  of_build rfl fun rd h _ _ => by
    simp only [Instr.uses, List.mem_cons, List.not_mem_nil, or_false, forall_eq_or_imp, forall_eq] at h
    simp [Parts.build, Parts.buildFloat, Parts.bare, Parts.setD, Parts.setA, Parts.setB, h]

theorem ffma3 (g : Guard) (ty : Ty) (d a b c : Opd) : Statement (.ffma3 g ty d a b c) :=
  of_build rfl fun rd h _ _ => by
    simp only [Instr.uses, List.mem_cons, List.not_mem_nil, or_false, forall_eq_or_imp, forall_eq] at h
    simp [Parts.build, Parts.buildFloat, Parts.bare, Parts.setD, Parts.setA, Parts.setB, Parts.setC, h]

theorem xadd (g : Guard) (ty : Ty) (wd wa wb : Wc) (d a b : Opd) : Statement (.xadd g ty wd wa wb d a b) :=
  of_build rfl fun rd h _ _ => by
    simp only [Instr.uses, List.mem_cons, List.not_mem_nil, or_false, forall_eq_or_imp, forall_eq] at h
    simp [Parts.build, Parts.buildNarrow, Parts.bare, Parts.setD, Parts.setA, Parts.setB, h]

theorem xadds (g : Guard) (ty : Ty) (wd wa : Wc) (d a b : Opd) : Statement (.xadds g ty wd wa d a b) :=
  of_build rfl fun rd h _ _ => by
    simp only [Instr.uses, List.mem_cons, List.not_mem_nil, or_false, forall_eq_or_imp, forall_eq] at h
    simp [Parts.build, Parts.buildNarrow, Parts.bare, Parts.setD, Parts.setA, Parts.setB, h]

theorem xmuls (g : Guard) (ty : Ty) (wd wa : Wc) (d a b : Opd) : Statement (.xmuls g ty wd wa d a b) :=
  of_build rfl fun rd h _ _ => by
    simp only [Instr.uses, List.mem_cons, List.not_mem_nil, or_false, forall_eq_or_imp, forall_eq] at h
    simp [Parts.build, Parts.buildNarrow, Parts.bare, Parts.setD, Parts.setA, Parts.setB, h]

theorem xrenorm (g : Guard) (ty : Ty) (wd wa : Wc) (d a : Opd) : Statement (.xrenorm g ty wd wa d a) :=
  of_build rfl fun rd h _ _ => by
    simp only [Instr.uses, List.mem_cons, List.not_mem_nil, or_false, forall_eq_or_imp, forall_eq] at h
    simp [Parts.build, Parts.buildNarrow, Parts.bare, Parts.setD, Parts.setA, h]

theorem xcomp (g : Guard) (ty : Ty) (wa : Wc) (d a : Opd) : Statement (.xcomp g ty wa d a) :=
  of_build rfl fun rd h _ _ => by
    simp only [Instr.uses, List.mem_cons, List.not_mem_nil, or_false, forall_eq_or_imp, forall_eq] at h
    simp [Parts.build, Parts.buildNarrow, Parts.bare, Parts.setD, Parts.setA, h]

theorem xcmp (g : Guard) (ty : Ty) (c : Cnd) (wa wb : Wc) (d a b : Opd) : Statement (.xcmp g ty c wa wb d a b) :=
  of_build rfl fun rd h _ _ => by
    simp only [Instr.uses, List.mem_cons, List.not_mem_nil, or_false, forall_eq_or_imp, forall_eq] at h
    simp [Parts.build, Parts.buildNarrow, Parts.bare, Parts.setD, Parts.setA, Parts.setB, h]

theorem xcvt (g : Guard) (ty : Ty) (wd wa : Wc) (src : Ty) (d a : Opd) : Statement (.xcvt g ty wd wa src d a) :=
  of_build rfl fun rd h _ _ => by
    simp only [Instr.uses, List.mem_cons, List.not_mem_nil, or_false, forall_eq_or_imp, forall_eq] at h
    simp [Parts.build, Parts.buildNarrow, Parts.bare, Parts.setD, Parts.setA, h]

theorem setfmt (g : Guard) (a : Opd) : Statement (.setfmt g a) :=
  of_build rfl fun rd h _ _ => by
    simp only [Instr.uses, List.mem_cons, List.not_mem_nil, or_false, forall_eq] at h
    simp [Parts.build, Parts.buildNarrow, Parts.bare, Parts.setD, Parts.setA, h]

theorem getfmt (g : Guard) (d : Opd) : Statement (.getfmt g d) :=
  of_build rfl fun rd h _ _ => by
    simp only [Instr.uses, List.mem_cons, List.not_mem_nil, or_false, forall_eq] at h
    simp [Parts.build, Parts.buildNarrow, Parts.bare, Parts.setD, Parts.setA, h]

theorem qcvt (g : Guard) (ty : NTy) (src : Ty) (d a : Opd) : Statement (.qcvt g ty src d a) :=
  of_build rfl fun rd h _ _ => by
    simp only [Instr.uses, List.mem_cons, List.not_mem_nil, or_false, forall_eq_or_imp, forall_eq] at h
    simp [Parts.build, Parts.buildNarrow, Parts.bare, Parts.setD, Parts.setA, h]

theorem qdec (g : Guard) (ty : NTy) (dst : Ty) (d a : Opd) : Statement (.qdec g ty dst d a) :=
  of_build rfl fun rd h _ _ => by
    simp only [Instr.uses, List.mem_cons, List.not_mem_nil, or_false, forall_eq_or_imp, forall_eq] at h
    simp [Parts.build, Parts.buildNarrow, Parts.bare, Parts.setD, Parts.setA, h]

theorem renc (g : Guard) (ty : NTy) (d a b : Opd) : Statement (.renc g ty d a b) :=
  of_build rfl fun rd h _ _ => by
    simp only [Instr.uses, List.mem_cons, List.not_mem_nil, or_false, forall_eq_or_imp, forall_eq] at h
    simp [Parts.build, Parts.buildNarrow, Parts.bare, Parts.setD, Parts.setA, Parts.setB, h]

theorem rmac (g : Guard) (ty : NTy) (d a b c : Opd) : Statement (.rmac g ty d a b c) :=
  of_build rfl fun rd h _ _ => by
    simp only [Instr.uses, List.mem_cons, List.not_mem_nil, or_false, forall_eq_or_imp, forall_eq] at h
    simp [Parts.build, Parts.buildNarrow, Parts.bare, Parts.setD, Parts.setA, Parts.setB, Parts.setC, h]

theorem rdec (g : Guard) (dst : Ty) (d a b : Opd) : Statement (.rdec g dst d a b) :=
  of_build rfl fun rd h _ _ => by
    simp only [Instr.uses, List.mem_cons, List.not_mem_nil, or_false, forall_eq_or_imp, forall_eq] at h
    simp [Parts.build, Parts.buildNarrow, Parts.bare, Parts.setD, Parts.setA, Parts.setB, h]

theorem spack (g : Guard) (ty : NTy) (n : NzOp) (d a : Opd) : Statement (.spack g ty n d a) :=
  of_build rfl fun rd h _ _ => by
    simp only [Instr.uses, List.mem_cons, List.not_mem_nil, or_false, forall_eq_or_imp, forall_eq] at h
    simp [Parts.build, Parts.buildNarrow, Parts.bare, Parts.setD, Parts.setA, h]

theorem ld (g : Guard) (ty : Ty) (sc : Scope) (k : MemKind) (d a b c : Opd) : Statement (.ld g ty sc k d a b c) :=
  of_build rfl fun rd h _ _ => by
    simp only [Instr.uses, List.mem_cons, List.not_mem_nil, or_false, forall_eq_or_imp, forall_eq] at h
    simp [Parts.build, Parts.buildMemory, Parts.bare, Parts.setD, Parts.setA, Parts.setB, Parts.setC, h]

theorem scratchLoadReturn (cmd : Nat) : Statement (.scratchLoadReturn cmd) := of_event rfl

theorem st (g : Guard) (ty : Ty) (sc : Scope) (k : MemKind) (a b c : Opd) : Statement (.st g ty sc k a b c) :=
  of_build rfl fun rd h _ _ => by
    simp only [Instr.uses, List.mem_cons, List.not_mem_nil, or_false, forall_eq_or_imp, forall_eq] at h
    simp [Parts.build, Parts.buildMemory, Parts.bare, Parts.setA, Parts.setB, Parts.setC, h]

theorem lds (g : Guard) (ty : Ty) (d a b : Opd) : Statement (.lds g ty d a b) :=
  of_build rfl fun rd h _ _ => by
    simp only [Instr.uses, List.mem_cons, List.not_mem_nil, or_false, forall_eq_or_imp, forall_eq] at h
    simp [Parts.build, Parts.buildMemory, Parts.bare, Parts.setD, Parts.setA, Parts.setB, h]

theorem sts (g : Guard) (ty : Ty) (a b c : Opd) : Statement (.sts g ty a b c) :=
  of_build rfl fun rd h _ _ => by
    simp only [Instr.uses, List.mem_cons, List.not_mem_nil, or_false, forall_eq_or_imp, forall_eq] at h
    simp [Parts.build, Parts.buildMemory, Parts.bare, Parts.setA, Parts.setB, Parts.setC, h]

theorem ldw (g : Guard) (ty : Ty) (sc : Scope) (g4 : Bool) (d a b c : Opd) : Statement (.ldw g ty sc g4 d a b c) :=
  of_build rfl fun rd h _ _ => by
    simp only [Instr.uses, List.mem_cons, List.not_mem_nil, or_false, forall_eq_or_imp, forall_eq] at h
    simp [Parts.build, Parts.buildMemory, Parts.bare, Parts.setD, Parts.setA, Parts.setB, Parts.setC, h]

theorem stw (g : Guard) (ty : Ty) (sc : Scope) (g4 : Bool) (a b c : Opd) : Statement (.stw g ty sc g4 a b c) :=
  of_build rfl fun rd h _ _ => by
    simp only [Instr.uses, List.mem_cons, List.not_mem_nil, or_false, forall_eq_or_imp, forall_eq] at h
    simp [Parts.build, Parts.buildMemory, Parts.bare, Parts.setA, Parts.setB, Parts.setC, h]

theorem stsplit (g : Guard) (ty : Ty) (sc : Scope) (a b c : Opd) : Statement (.stsplit g ty sc a b c) :=
  of_build rfl fun rd h _ _ => by
    simp only [Instr.uses, List.mem_cons, List.not_mem_nil, or_false, forall_eq_or_imp, forall_eq] at h
    simp [Parts.build, Parts.buildMemory, Parts.bare, Parts.setA, Parts.setB, Parts.setC, h]

theorem ldsplit (g : Guard) (ty : Ty) (sc : Scope) (d a b : Opd) : Statement (.ldsplit g ty sc d a b) :=
  of_build rfl fun rd h _ _ => by
    simp only [Instr.uses, List.mem_cons, List.not_mem_nil, or_false, forall_eq_or_imp, forall_eq] at h
    simp [Parts.build, Parts.buildMemory, Parts.bare, Parts.setD, Parts.setA, Parts.setB, h]

theorem pref (g : Guard) (k : PrefKind) (a b : Opd) : Statement (.pref g k a b) :=
  of_build rfl fun rd h _ _ => by
    simp only [Instr.uses, List.mem_cons, List.not_mem_nil, or_false, forall_eq_or_imp, forall_eq] at h
    simp [Parts.build, Parts.buildMemory, Parts.bare, Parts.setA, Parts.setB, h]

theorem cmaint (g : Guard) (sc : Scope) (k : MaintKind) (a b : Opd) : Statement (.cmaint g sc k a b) :=
  of_build rfl fun rd h _ _ => by
    simp only [Instr.uses, List.mem_cons, List.not_mem_nil, or_false, forall_eq_or_imp, forall_eq] at h
    simp [Parts.build, Parts.buildMemory, Parts.bare, Parts.setA, Parts.setB, h]

theorem waitp (g : Guard) (path : Fin 6) (a : Opd) : Statement (.waitp g path a) :=
  of_build rfl fun rd h _ _ => by
    simp only [Instr.uses, List.mem_cons, List.not_mem_nil, or_false, forall_eq] at h
    simp [Parts.build, Parts.buildMemory, Parts.bare, Parts.setA, h]

theorem xlat (g : Guard) (d a : Opd) : Statement (.xlat g d a) :=
  of_build rfl fun rd h _ _ => by
    simp only [Instr.uses, List.mem_cons, List.not_mem_nil, or_false, forall_eq_or_imp, forall_eq] at h
    simp [Parts.build, Parts.buildMemory, Parts.bare, Parts.setD, Parts.setA, h]

theorem heldStoreEviction (line : Nat) : Statement (.heldStoreEviction line) := of_event rfl

theorem fence (g : Guard) (sc : Scope) (k : FenceKind) : Statement (.fence g sc k) :=
  of_build rfl fun rd _ _ _ => by
    simp [Parts.build, Parts.buildSync, Parts.bare]

theorem bar (g : Guard) (lv : BitVec 3) : Statement (.bar g lv) :=
  of_build rfl fun rd _ _ _ => by
    simp [Parts.build, Parts.buildSync, Parts.bare]

theorem barArrive (g : Guard) (lv : BitVec 3) : Statement (.barArrive g lv) :=
  of_build rfl fun rd _ _ _ => by
    simp [Parts.build, Parts.buildSync, Parts.bare]

theorem barWait (g : Guard) (lv : BitVec 3) : Statement (.barWait g lv) :=
  of_build rfl fun rd _ _ _ => by
    simp [Parts.build, Parts.buildSync, Parts.bare]

theorem barArrivedrop (g : Guard) (lv : BitVec 3) : Statement (.barArrivedrop g lv) :=
  of_build rfl fun rd _ _ _ => by
    simp [Parts.build, Parts.buildSync, Parts.bare]

theorem tlwait (g : Guard) (t : BitVec 3) (b : Opd) : Statement (.tlwait g t b) :=
  of_build rfl fun rd h h0 _ => by
    simp only [Instr.uses, List.mem_cons, List.not_mem_nil, or_false, forall_eq] at h
    simp [Parts.build, Parts.buildSync, Parts.bare, Parts.setA, Parts.setB, h0 (.tl t) nofun rfl, h]

theorem tlread (g : Guard) (t : BitVec 3) (d b : Opd) : Statement (.tlread g t d b) :=
  of_build rfl fun rd h h0 _ => by
    simp only [Instr.uses, List.mem_cons, List.not_mem_nil, or_false, forall_eq_or_imp, forall_eq] at h
    simp [Parts.build, Parts.buildSync, Parts.bare, Parts.setD, Parts.setA, Parts.setB, h0 (.tl t) nofun rfl, h]

theorem qend (g : Guard) : Statement (.qend g) :=
  of_build rfl fun rd _ _ _ => by
    simp [Parts.build, Parts.buildSync, Parts.bare]

theorem dsync (g : Guard) : Statement (.dsync g) :=
  of_build rfl fun rd _ _ _ => by
    simp [Parts.build, Parts.buildSync, Parts.bare]

theorem quantumEnd (blk gang : Nat) : Statement (.quantumEnd blk gang) := of_event rfl

theorem detCommitPhase (blk : Nat) : Statement (.detCommitPhase blk) := of_event rfl

theorem detSerialPhase (blk : Nat) : Statement (.detSerialPhase blk) := of_event rfl

theorem atom (g : Guard) (ty : Ty) (op : AtomOp) (sc : Scope) (d a b c : Opd) : Statement (.atom g ty op sc d a b c) :=
  of_build rfl fun rd h _ _ => by
    simp only [Instr.uses, List.mem_cons, List.not_mem_nil, or_false, forall_eq_or_imp, forall_eq] at h
    simp [Parts.build, Parts.buildSync, Parts.bare, Parts.setD, Parts.setA, Parts.setB, Parts.setC, h]

theorem redm (g : Guard) (ty : Ty) (op : RedOp) (sc : Scope) (a b : Opd) : Statement (.redm g ty op sc a b) :=
  of_build rfl fun rd h _ _ => by
    simp only [Instr.uses, List.mem_cons, List.not_mem_nil, or_false, forall_eq_or_imp, forall_eq] at h
    simp [Parts.build, Parts.buildSync, Parts.bare, Parts.setA, Parts.setB, h]

theorem atomc (g : Guard) (sc : Scope) (d a b : Opd) : Statement (.atomc g sc d a b) :=
  of_build rfl fun rd h _ _ => by
    simp only [Instr.uses, List.mem_cons, List.not_mem_nil, or_false, forall_eq_or_imp, forall_eq] at h
    simp [Parts.build, Parts.buildSync, Parts.bare, Parts.setD, Parts.setA, Parts.setB, h]

theorem atomw (g : Guard) (ty : Ty) (n : AwN) (sc : Scope) (d a b c : Opd) : Statement (.atomw g ty n sc d a b c) :=
  of_build rfl fun rd h _ _ => by
    simp only [Instr.uses, List.mem_cons, List.not_mem_nil, or_false, forall_eq_or_imp, forall_eq] at h
    simp [Parts.build, Parts.buildSync, Parts.bare, Parts.setD, Parts.setA, Parts.setB, Parts.setC, h]

theorem append (g : Guard) (d a b : Opd) : Statement (.append g d a b) :=
  of_build rfl fun rd h _ _ => by
    simp only [Instr.uses, List.mem_cons, List.not_mem_nil, or_false, forall_eq_or_imp, forall_eq] at h
    simp [Parts.build, Parts.buildSync, Parts.bare, Parts.setD, Parts.setA, Parts.setB, h]

theorem appendGrant (cmd : Nat) : Statement (.appendGrant cmd) := of_event rfl

theorem skopEnq (g : Guard) (d a b : Opd) : Statement (.skopEnq g d a b) :=
  of_build rfl fun rd h _ _ => by
    simp only [Instr.uses, List.mem_cons, List.not_mem_nil, or_false, forall_eq_or_imp, forall_eq] at h
    simp [Parts.build, Parts.buildSync, Parts.bare, Parts.setD, Parts.setA, Parts.setB, h]

theorem skopChase (g : Guard) (d a b c : Opd) : Statement (.skopChase g d a b c) :=
  of_build rfl fun rd h _ _ => by
    simp only [Instr.uses, List.mem_cons, List.not_mem_nil, or_false, forall_eq_or_imp, forall_eq] at h
    simp [Parts.build, Parts.buildSync, Parts.bare, Parts.setD, Parts.setA, Parts.setB, Parts.setC, h]

theorem skipperReply (cmd : Nat) : Statement (.skipperReply cmd) := of_event rfl

theorem mzero (g : Guard) (d : Opd) : Statement (.mzero g d) :=
  of_build rfl fun rd h _ _ => by
    simp only [Instr.uses, List.mem_cons, List.not_mem_nil, or_false, forall_eq] at h
    simp [Parts.build, Parts.buildMatrix, Parts.bare, Parts.setD, h]

theorem memit (g : Guard) (main : Bool) (d a b c : Opd) : Statement (.memit g main d a b c) :=
  of_build rfl fun rd h _ _ => by
    simp only [Instr.uses, List.mem_cons, List.not_mem_nil, or_false, forall_eq_or_imp, forall_eq] at h
    simp [Parts.build, Parts.buildMatrix, Parts.bare, Parts.setD, Parts.setA, Parts.setB, Parts.setC, h]

theorem msave (g : Guard) (a b : Opd) : Statement (.msave g a b) :=
  of_build rfl fun rd h _ _ => by
    simp only [Instr.uses, List.mem_cons, List.not_mem_nil, or_false, forall_eq_or_imp, forall_eq] at h
    simp [Parts.build, Parts.buildMatrix, Parts.bare, Parts.setA, Parts.setB, h]

theorem mload (g : Guard) (d a : Opd) : Statement (.mload g d a) :=
  of_build rfl fun rd h _ _ => by
    simp only [Instr.uses, List.mem_cons, List.not_mem_nil, or_false, forall_eq_or_imp, forall_eq] at h
    simp [Parts.build, Parts.buildMatrix, Parts.bare, Parts.setD, Parts.setA, h]

theorem mbobjInit (g : Guard) (a b c : Opd) : Statement (.mbobjInit g a b c) :=
  of_build rfl fun rd h _ _ => by
    simp only [Instr.uses, List.mem_cons, List.not_mem_nil, or_false, forall_eq_or_imp, forall_eq] at h
    simp [Parts.build, Parts.buildMatrix, Parts.bare, Parts.setA, Parts.setB, Parts.setC, h]

theorem mbobjArrive (g : Guard) (a b : Opd) : Statement (.mbobjArrive g a b) :=
  of_build rfl fun rd h _ _ => by
    simp only [Instr.uses, List.mem_cons, List.not_mem_nil, or_false, forall_eq_or_imp, forall_eq] at h
    simp [Parts.build, Parts.buildMatrix, Parts.bare, Parts.setA, Parts.setB, h]

theorem mbobjWait (g : Guard) (a b : Opd) : Statement (.mbobjWait g a b) :=
  of_build rfl fun rd h _ _ => by
    simp only [Instr.uses, List.mem_cons, List.not_mem_nil, or_false, forall_eq_or_imp, forall_eq] at h
    simp [Parts.build, Parts.buildMatrix, Parts.bare, Parts.setA, Parts.setB, h]

theorem qpostTask (g : Guard) (a : Opd) : Statement (.qpostTask g a) :=
  of_build rfl fun rd h h0 _ => by
    simp only [Instr.uses, List.mem_cons, List.not_mem_nil, or_false, forall_eq] at h
    simp [Parts.build, Parts.buildMatrix, Parts.bare, Parts.setD, Parts.setA, h0 (.q 0#3) nofun rfl, h]

theorem tileTaskStart (core : Nat) : Statement (.tileTaskStart core) := of_event rfl

theorem tileChunkEnd (task : Nat) : Statement (.tileChunkEnd task) := of_event rfl

theorem cpy (g : Guard) (d a b c : Opd) : Statement (.cpy g d a b c) :=
  of_build rfl fun rd h _ _ => by
    simp only [Instr.uses, List.mem_cons, List.not_mem_nil, or_false, forall_eq_or_imp, forall_eq] at h
    simp [Parts.build, Parts.buildMatrix, Parts.bare, Parts.setD, Parts.setA, Parts.setB, Parts.setC, h]

theorem cpyt (g : Guard) (ty : Ty) (cb : Bool) (d a : Opd) : Statement (.cpyt g ty cb d a) :=
  of_build rfl fun rd h _ _ => by
    simp only [Instr.uses, List.mem_cons, List.not_mem_nil, or_false, forall_eq_or_imp, forall_eq] at h
    simp [Parts.build, Parts.buildMatrix, Parts.bare, Parts.setD, Parts.setA, h]

theorem cbook (g : Guard) (d a : Opd) : Statement (.cbook g d a) :=
  of_build rfl fun rd h _ _ => by
    simp only [Instr.uses, List.mem_cons, List.not_mem_nil, or_false, forall_eq_or_imp, forall_eq] at h
    simp [Parts.build, Parts.buildMatrix, Parts.bare, Parts.setD, Parts.setA, h]

theorem copyComplete (cmd : Nat) : Statement (.copyComplete cmd) := of_event rfl

theorem qpost (g : Guard) (d a b : Opd) : Statement (.qpost g d a b) :=
  of_build rfl fun rd h _ ha => by
    simp only [Instr.uses, List.mem_cons, List.not_mem_nil, or_false, forall_eq_or_imp, forall_eq] at h
    simp only [Instr.uses, List.mem_cons, List.not_mem_nil, or_false, forall_eq_or_imp, forall_eq] at ha
    simp only [Parts.build, Parts.buildMatrix, Parts.bare, Parts.setD, Parts.setA, Parts.setB]
    cases d <;> simp_all [Opd.cls]

theorem queuePacketPickup (uq : Nat) : Statement (.queuePacketPickup uq) := of_event rfl

theorem queuePacketComplete (uq : Nat) : Statement (.queuePacketComplete uq) := of_event rfl

theorem mred (g : Guard) (a : Opd) : Statement (.mred g a) :=
  of_build rfl fun rd h _ _ => by
    simp only [Instr.uses, List.mem_cons, List.not_mem_nil, or_false, forall_eq] at h
    simp [Parts.build, Parts.buildMatrix, Parts.bare, Parts.setA, h]

theorem mredComplete (cmd : Nat) : Statement (.mredComplete cmd) := of_event rfl

theorem mcmp (g : Guard) (ty : Ty) (r : Rnd) (op : McmpOp) (a : Opd) : Statement (.mcmp g ty r op a) :=
  of_build rfl fun rd h _ _ => by
    simp only [Instr.uses, List.mem_cons, List.not_mem_nil, or_false, forall_eq] at h
    simp [Parts.build, Parts.buildMatrix, Parts.bare, Parts.setA, h]

theorem mcmpComplete (cmd : Nat) : Statement (.mcmpComplete cmd) := of_event rfl

theorem spanctlCap (g : Guard) (a b : Opd) : Statement (.spanctlCap g a b) :=
  of_build rfl fun rd h _ _ => by
    simp only [Instr.uses, List.mem_cons, List.not_mem_nil, or_false, forall_eq_or_imp, forall_eq] at h
    simp [Parts.build, Parts.buildSystem, Parts.bare, Parts.setA, Parts.setB, h]

theorem spanctlPol (g : Guard) (a b : Opd) : Statement (.spanctlPol g a b) :=
  of_build rfl fun rd h _ _ => by
    simp only [Instr.uses, List.mem_cons, List.not_mem_nil, or_false, forall_eq_or_imp, forall_eq] at h
    simp [Parts.build, Parts.buildSystem, Parts.bare, Parts.setA, Parts.setB, h]

theorem spanctlEvict (g : Guard) (a : Opd) : Statement (.spanctlEvict g a) :=
  of_build rfl fun rd h _ _ => by
    simp only [Instr.uses, List.mem_cons, List.not_mem_nil, or_false, forall_eq] at h
    simp [Parts.build, Parts.buildSystem, Parts.bare, Parts.setA, h]

theorem spanq (g : Guard) (d a : Opd) : Statement (.spanq g d a) :=
  of_build rfl fun rd h _ _ => by
    simp only [Instr.uses, List.mem_cons, List.not_mem_nil, or_false, forall_eq_or_imp, forall_eq] at h
    simp [Parts.build, Parts.buildSystem, Parts.bare, Parts.setD, Parts.setA, h]

theorem spanfet (g : Guard) (d a b : Opd) : Statement (.spanfet g d a b) :=
  of_build rfl fun rd h _ _ => by
    simp only [Instr.uses, List.mem_cons, List.not_mem_nil, or_false, forall_eq_or_imp, forall_eq] at h
    simp [Parts.build, Parts.buildSystem, Parts.bare, Parts.setD, Parts.setA, Parts.setB, h]

theorem spanFetchArrival (span : Nat) : Statement (.spanFetchArrival span) := of_event rfl

theorem spanReplacement (span : Nat) : Statement (.spanReplacement span) := of_event rfl

theorem spanEvictionComplete (span : Nat) : Statement (.spanEvictionComplete span) := of_event rfl

theorem salloc (g : Guard) (dup : Bool) (d a b : Opd) : Statement (.salloc g dup d a b) :=
  of_build rfl fun rd h _ _ => by
    simp only [Instr.uses, List.mem_cons, List.not_mem_nil, or_false, forall_eq_or_imp, forall_eq] at h
    simp [Parts.build, Parts.buildSystem, Parts.bare, Parts.setD, Parts.setA, Parts.setB, h]

theorem sfree (g : Guard) (d a : Opd) : Statement (.sfree g d a) :=
  of_build rfl fun rd h _ _ => by
    simp only [Instr.uses, List.mem_cons, List.not_mem_nil, or_false, forall_eq_or_imp, forall_eq] at h
    simp [Parts.build, Parts.buildSystem, Parts.bare, Parts.setD, Parts.setA, h]

theorem collSend (g : Guard) (d a b c : Opd) : Statement (.collSend g d a b c) :=
  of_build rfl fun rd h _ _ => by
    simp only [Instr.uses, List.mem_cons, List.not_mem_nil, or_false, forall_eq_or_imp, forall_eq] at h
    simp [Parts.build, Parts.buildSystem, Parts.bare, Parts.setD, Parts.setA, Parts.setB, Parts.setC, h]

theorem collGet (g : Guard) (d a b c : Opd) : Statement (.collGet g d a b c) :=
  of_build rfl fun rd h _ _ => by
    simp only [Instr.uses, List.mem_cons, List.not_mem_nil, or_false, forall_eq_or_imp, forall_eq] at h
    simp [Parts.build, Parts.buildSystem, Parts.bare, Parts.setD, Parts.setA, Parts.setB, Parts.setC, h]

theorem collRsend (g : Guard) (ty : Ty) (m : CollMode) (d a b c : Opd) : Statement (.collRsend g ty m d a b c) :=
  of_build rfl fun rd h _ _ => by
    simp only [Instr.uses, List.mem_cons, List.not_mem_nil, or_false, forall_eq_or_imp, forall_eq] at h
    simp [Parts.build, Parts.buildSystem, Parts.bare, Parts.setD, Parts.setA, Parts.setB, Parts.setC, h]

theorem collMcast (g : Guard) (d a b c : Opd) : Statement (.collMcast g d a b c) :=
  of_build rfl fun rd h _ _ => by
    simp only [Instr.uses, List.mem_cons, List.not_mem_nil, or_false, forall_eq_or_imp, forall_eq] at h
    simp [Parts.build, Parts.buildSystem, Parts.bare, Parts.setD, Parts.setA, Parts.setB, Parts.setC, h]

theorem collComplete (cmd : Nat) (r : RemoteResult) (data : List Byte) : Statement (.collComplete cmd r data) := of_event rfl

theorem cinstStart (g : Guard) (d a : Opd) : Statement (.cinstStart g d a) :=
  of_build rfl fun rd h _ _ => by
    simp only [Instr.uses, List.mem_cons, List.not_mem_nil, or_false, forall_eq_or_imp, forall_eq] at h
    simp [Parts.build, Parts.buildSystem, Parts.bare, Parts.setD, Parts.setA, h]

theorem cinstQuery (g : Guard) (d a : Opd) : Statement (.cinstQuery g d a) :=
  of_build rfl fun rd h _ _ => by
    simp only [Instr.uses, List.mem_cons, List.not_mem_nil, or_false, forall_eq_or_imp, forall_eq] at h
    simp [Parts.build, Parts.buildSystem, Parts.bare, Parts.setD, Parts.setA, h]

theorem instanceAnnounceReceive (job member seq : Nat) (digest : BitVec 32) : Statement (.instanceAnnounceReceive job member seq digest) := of_event rfl

theorem remoteRequestReceive (r : RemoteReq) : Statement (.remoteRequestReceive r) := of_event rfl

theorem rnsExponentReceive (o : JobOrigin) (seq : Nat) (y : Word) (rank : Nat) (e : Option Int) (agreed : Bool) : Statement (.rnsExponentReceive o seq y rank e agreed) := of_event rfl

theorem chunkContributionArrive (job seq : Nat) (y : Word) (c : Contribution) : Statement (.chunkContributionArrive job seq y c) := of_event rfl

theorem chunkFlagsReceive (job seq : Nat) (f : ChunkFlags) : Statement (.chunkFlagsReceive job seq f) := of_event rfl

theorem mcastLanding (o : JobOrigin) (seq : Nat) (va : Word) (len : Nat) : Statement (.mcastLanding o seq va len) := of_event rfl

theorem mcastLandingComplete (landing : Nat) (data : List Byte) : Statement (.mcastLandingComplete landing data) := of_event rfl

theorem launch (g : Guard) (d a b : Opd) : Statement (.launch g d a b) :=
  of_build rfl fun rd h _ _ => by
    simp only [Instr.uses, List.mem_cons, List.not_mem_nil, or_false, forall_eq_or_imp, forall_eq] at h
    simp [Parts.build, Parts.buildSystem, Parts.bare, Parts.setD, Parts.setA, Parts.setB, h]

theorem evopSet (g : Guard) (a b : Opd) : Statement (.evopSet g a b) :=
  of_build rfl fun rd h _ _ => by
    simp only [Instr.uses, List.mem_cons, List.not_mem_nil, or_false, forall_eq_or_imp, forall_eq] at h
    simp [Parts.build, Parts.buildSystem, Parts.bare, Parts.setA, Parts.setB, h]

theorem evopClr (g : Guard) (a b : Opd) : Statement (.evopClr g a b) :=
  of_build rfl fun rd h _ _ => by
    simp only [Instr.uses, List.mem_cons, List.not_mem_nil, or_false, forall_eq_or_imp, forall_eq] at h
    simp [Parts.build, Parts.buildSystem, Parts.bare, Parts.setA, Parts.setB, h]

theorem evopTest (g : Guard) (d a b : Opd) : Statement (.evopTest g d a b) :=
  of_build rfl fun rd h _ _ => by
    simp only [Instr.uses, List.mem_cons, List.not_mem_nil, or_false, forall_eq_or_imp, forall_eq] at h
    simp [Parts.build, Parts.buildSystem, Parts.bare, Parts.setD, Parts.setA, Parts.setB, h]

theorem sysr (g : Guard) (r : SysReg) (d : Opd) : Statement (.sysr g r d) :=
  of_build rfl fun rd h _ _ => by
    simp only [Instr.uses, List.mem_cons, List.not_mem_nil, or_false, forall_eq] at h
    simp [Parts.build, Parts.buildSystem, Parts.bare, Parts.setD, h]

theorem sysw (g : Guard) (r : SysReg) (a : Opd) : Statement (.sysw g r a) :=
  of_build rfl fun rd h _ _ => by
    simp only [Instr.uses, List.mem_cons, List.not_mem_nil, or_false, forall_eq] at h
    simp [Parts.build, Parts.buildSystem, Parts.bare, Parts.setA, h]

theorem trap (g : Guard) (n : BitVec 8) : Statement (.trap g n) :=
  of_build rfl fun rd _ _ _ => by
    simp [Parts.build, Parts.buildSystem, Parts.bare]

theorem eret (g : Guard) : Statement (.eret g) :=
  of_build rfl fun rd _ _ _ => by
    simp [Parts.build, Parts.buildSystem, Parts.bare]

theorem sleep (g : Guard) (a : Opd) : Statement (.sleep g a) :=
  of_build rfl fun rd h _ _ => by
    simp only [Instr.uses, List.mem_cons, List.not_mem_nil, or_false, forall_eq] at h
    simp [Parts.build, Parts.buildSystem, Parts.bare, Parts.setA, h]

theorem sleepExpiry (blk slice : Nat) : Statement (.sleepExpiry blk slice) := of_event rfl

theorem hqsub (hq : Nat) (addr : Word) : Statement (.hqsub hq addr) := of_event rfl

theorem hqctlRestart (hq : Nat) : Statement (.hqctlRestart hq) := of_event rfl

theorem hqctlRemoveHead (hq : Nat) : Statement (.hqctlRemoveHead hq) := of_event rfl

theorem hqctlClearOvf (hq : Nat) : Statement (.hqctlClearOvf hq) := of_event rfl

theorem recordHeadCheck (hq : Nat) : Statement (.recordHeadCheck hq) := of_event rfl

theorem nodeEnterPool (hq pos : Nat) : Statement (.nodeEnterPool hq pos) := of_event rfl

theorem nodeDispatch (hq pos : Nat) : Statement (.nodeDispatch hq pos) := of_event rfl

theorem blockPlacement (launch : Nat) (cores : List Nat) : Statement (.blockPlacement launch cores) := of_event rfl

theorem chrysalisSaveComplete (launch unit : Nat) : Statement (.chrysalisSaveComplete launch unit) := of_event rfl

theorem drainTimeout (launch unit : Nat) : Statement (.drainTimeout launch unit) := of_event rfl

theorem launchComplete (launch : Nat) : Statement (.launchComplete launch) := of_event rfl

theorem graphUpload (addr : Word) : Statement (.graphUpload addr) := of_event rfl

theorem graphFree (slot : Nat) : Statement (.graphFree slot) := of_event rfl

theorem graphKick (slot : Nat) (table : Word) : Statement (.graphKick slot table) := of_event rfl

theorem graphKickProceed (slot : Nat) : Statement (.graphKickProceed slot) := of_event rfl

theorem pfresResume (ctx id : Nat) : Statement (.pfresResume ctx id) := of_event rfl

theorem pfresFail (ctx id : Nat) : Statement (.pfresFail ctx id) := of_event rfl

theorem preempt (ctx : Nat) : Statement (.preempt ctx) := of_event rfl

theorem tlbinv (ctx : Nat) : Statement (.tlbinv ctx) := of_event rfl

theorem faultClear (ctx : Nat) : Statement (.faultClear ctx) := of_event rfl

theorem hostRegisterWrite (off : Nat) (value : Word) : Statement (.hostRegisterWrite off value) := of_event rfl

theorem tokenBucketTick (bytes energy : List Nat) : Statement (.tokenBucketTick bytes energy) := of_event rfl

theorem retentionExitDone (core bank : Nat) : Statement (.retentionExitDone core bank) := of_event rfl

theorem flitReceive (port : Nat) (f : Flit) : Statement (.flitReceive port f) := of_event rfl

theorem heartbeatTimer (port : Nat) : Statement (.heartbeatTimer port) := of_event rfl

theorem linkSilenceTimeout (port : Nat) : Statement (.linkSilenceTimeout port) := of_event rfl

theorem keyInstall (port : Nat) (tx slot : Bool) (key : List Byte) (salt : BitVec 32) (limit : Nat) : Statement (.keyInstall port tx slot key salt limit) := of_event rfl

theorem linkTrainingComplete (port : Nat) : Statement (.linkTrainingComplete port) := of_event rfl

theorem keySwitchover (port : Nat) : Statement (.keySwitchover port) := of_event rfl

theorem drainingSlotLimit (port : Nat) : Statement (.drainingSlotLimit port) := of_event rfl

theorem linkDeathReport (reporter plane : Nat) : Statement (.linkDeathReport reporter plane) := of_event rfl

theorem deathNotice (dev epoch : Nat) : Statement (.deathNotice dev epoch) := of_event rfl

theorem moduleReset : Statement .moduleReset := of_event rfl

theorem serviceImageDelivery (img : Image) : Statement (.serviceImageDelivery img) := of_event rfl

theorem attestationRequest (nonce : List Byte) : Statement (.attestationRequest nonce) := of_event rfl

theorem clockThrottle (watts : Nat) : Statement (.clockThrottle watts) := of_event rfl

theorem wordNotInstruction (check : Nat) : Statement (.wordNotInstruction check) := of_event rfl

theorem hostMemoryAccess (op : HostOp) : Statement (.hostMemoryAccess op) := of_event rfl

theorem rootMailboxCommand (c : MailCmd) : Statement (.rootMailboxCommand c) := of_event rfl

theorem powerLoss (leafAdvanced : Bool) : Statement (.powerLoss leafAdvanced) := of_event rfl

theorem pageMigrationFreeze (page : Nat) (on : Bool) : Statement (.pageMigrationFreeze page on) := of_event rfl

theorem retentionEntry (core bank : Nat) : Statement (.retentionEntry core bank) := of_event rfl

theorem memorySoftError (site : ErrSite) (correctable : Bool) : Statement (.memorySoftError site correctable) := of_event rfl

theorem peerReadmission (dev epoch : Nat) : Statement (.peerReadmission dev epoch) := of_event rfl

theorem planeFailureAnnouncement (plane : Nat) : Statement (.planeFailureAnnouncement plane) := of_event rfl

theorem engineAccessFault (cmd : Nat) : Statement (.engineAccessFault cmd) := of_event rfl

end Sys2Proof.Laws.RoundTrip
end

