-- ==== Sys2Proof/Safety.lean ====
section
/-! DEFINITION. The terms that claims use: an instruction that goes on to the next word of its block, the state it leaves, and
what a well-kept state is. -/

namespace Sys2Proof.Machine

/-! ## An instruction that goes on -/

/-- A slice that has retired an instruction of n words inside its block (R97, R256). -/
def Slice.passed (sl : Slice) (n : Nat) : Slice := { sl.tick with wait := .none, pc := VA.plus sl.pc n }

/-- A slice n words before a place inside its block. -/
def Slice.inside (sl : Slice) (n : Nat) : Bool := sl.hword.isSome && VA.plus sl.pc n != sl.blockEnd

/-- The gang that issues is whole, of a launch that is not deterministic, and its block numbers each slice once. -/
def State.plain (s : State) : Bool :=
  match s.issuing with
  | none => false
  | some (b, l) => s.whole && !(s.lrOf b).det && (b.slices.map (fun x => x.num)).Nodup && l != []

/-- The gang that issues stands at one pc, n words before a place inside its block. -/
def State.goes (s : State) (n : Nat) : Bool :=
  s.plain &&
  match s.issuing with
  | none => false
  | some (_, l) => l.all (fun x => x.inside n && some x.pc == (l.head?.map fun y => y.pc))

/-- A gang of one launch mode or the other stands as `goes` asks; in a deterministic launch it issues in the parallel phase (R254). -/
def State.runs (s : State) (n : Nat) : Bool :=
  match s.issuing with
  | none => false
  | some (b, l) =>
    s.whole && (b.slices.map (fun x => x.num)).Nodup && l != [] && l.all (fun x => x.inside n && some x.pc == (l.head?.map fun y => y.pc))

/-- Slices that have retired an instruction (R255): in a deterministic launch the quanta of a gang end together, as soon as one of its
slices has reached its count, has filled its buffer or has ended. -/
def rested (det : Bool) (l : List Slice) : List Slice :=
  if det && l.any (fun x => x.ended || x.quantum ≥ x.qlenNow || x.buf.length ≥ Config.bufEntries) then l.map Slice.endQuantum else l

/-- The state in which the slices l of block b have each become f of what they were, and the instruction of n words has retired. -/
def State.after (s : State) (b : Block) (l : List Slice) (n : Nat) (f : Slice → Slice) : State :=
  s.modBlock b.uid fun y => y.putSlices (rested (s.lrOf b).det (l.map fun x => (f x).passed n))

/-- A slice of the gang as it stands in a state. -/
def State.now (t : State) (b : Block) (x : Slice) : Slice := ((t.block? b.uid).bind fun y => y.slice? x.num).getD x

/-- The state in which the effect t of an instruction of n words on the slices l of block b has retired. -/
def State.goOn (t : State) (b : Block) (l : List Slice) (n : Nat) : State :=
  t.modBlock b.uid fun y => y.putSlices (rested (t.lrOf b).det (l.map fun x => (t.now b x).passed n))

/-- f in the slices with a lane that takes part (R29). -/
def Slice.when (sl : Slice) (g : Guard) (f : Slice → Slice) : Slice := if sl.part_ g = 0 then sl else f sl

/-- A slice after an instruction of n words that tells whether it has set its own pc: it retires there, or n words on, past the end of its
block where those were the last (R35, R108). `bad` tells of a back edge's target that it is no header. -/
def went (bad : VA → Bool) (n : Nat) (r : Slice × Bool) : Except Ev Slice :=
  if r.1.ended || r.2 then .ok { r.1.tick with wait := .none } else ({ r.1.tick with wait := .none } : Slice).advance bad n

/-- The state in which slices have been put back and the gang has parted by pc (R97). -/
def State.parted (s : State) (b : Block) (l : List Slice) : State :=
  { s.modBlock b.uid (fun y => y.putSlices (partGang s.nextId l).1) with nextId := (partGang s.nextId l).2 }

/-- Whether a computation gives a value, and that value. -/
def isOk {ε α : Type} : Except ε α → Bool
  | .ok _ => true
  | .error _ => false

def okOr {ε α : Type} (d : α) : Except ε α → α
  | .ok x => x
  | .error _ => d

/-- No slice's command was refused, and each of these has gone. -/
def allWent (b : Block) (l : List Slice) : Except (Slice × Ev) State → Bool
  | .ok t => t.allSent b.uid l
  | .error _ => false

/-- i, of n words and guarded by g, makes each slice that takes part f of what it was, changes nothing else, and goes on: in a normal
launch, and in the parallel phase of a deterministic one. -/
def Completes (g : Guard) (n : Nat) (i : Instr) (f : Env → Slice → Slice) : Prop :=
  ∀ (s : State) (b : Block) (l : List Slice), s.issuing = some (b, l) → s.runs n = true →
    exec i s = .next (s.after b l n fun x => x.when g (f (s.envOf b x)))

/-- Wherever `ok` holds, i, of n words, makes the state f of what it was and goes on. -/
def Performs (n : Nat) (i : Instr) (ok : State → Block → List Slice → Bool) (f : State → Block → List Slice → State) : Prop :=
  ∀ (s : State) (b : Block) (l : List Slice), s.issuing = some (b, l) → s.goes n = true → ok s b l = true →
    exec i s = .next ((f s b l).goOn b l n)

/-- The same in the parallel phase of a deterministic launch (R254). -/
def PerformsInRounds (n : Nat) (i : Instr) (ok : State → Block → List Slice → Bool) (f : State → Block → List Slice → State) : Prop :=
  ∀ (s : State) (b : Block) (l : List Slice), s.issuing = some (b, l) → s.runs n = true → (s.lrOf b).det = true → ok s b l = true →
    exec i s = .next ((f s b l).goOn b l n)

/-- Wherever `ok` holds, i, of n words, takes each slice of the gang where f says, true telling that f has set the pc; a slice that f
leaves at the end of its block passes it, wherever that raises nothing. -/
def Moves (n : Nat) (i : Instr) (ok : State → Block → Slice → Bool) (f : State → Block → Slice → Slice × Bool) : Prop :=
  ∀ (s : State) (b : Block) (l : List Slice), s.issuing = some (b, l) → s.plain = true →
    let bad : VA → Bool := s.noHeader (s.lrOf b).ctx
    (∀ x ∈ l, ok s b x = true ∧ isOk (went bad n (f s b x)) = true) →
    exec i s = .next (s.parted b (l.map fun x => okOr x (went bad n (f s b x))))

/-- The slices of a gang with a lane that takes part. -/
def acting (g : Guard) (l : List Slice) : List Slice := l.filter fun x => x.part_ g != 0

/-- The slices of a gang whose command has yet to go. -/
def toSend (g : Guard) (l : List Slice) : List Slice := l.filter fun x => x.part_ g != 0 && x.wait != .made

/-- Wherever its check and its log let them and every sender has room, i, of n words, sends the commands of the gang's slices and goes
on. -/
def Sends (n : Nat) (i : Instr) (g : Guard) (k : SupKind) (d : Option Nat) (check : State → Block → Slice → Option Ev)
    (args : State → Block → Slice → List Word) (send : LaunchRec → Sender) : Prop :=
  Performs n i
    (fun s b l => (gangTrap g (toSend g l) (check s b)).isNone && (cmdLogFull g k d (toSend g l)).isNone &&
      allWent b (toSend g l) (s.sendAll k d (args s b) (send (s.lrOf b)) b.uid (toSend g l)))
    (fun s b l => okOr s (s.sendAll k d (args s b) (send (s.lrOf b)) b.uid (toSend g l)))

/-- Wherever its check passes and neither an earlier task nor another gang's tile instruction holds its tiles, i, of n words, does f in
the gang's slices in turn. -/
def WorksOnTiles (n : Nat) (i : Instr) (g : Guard) (tiles : Block → Slice → List Nat) (check : State → Block → Slice → Option Ev)
    (f : State → Block → Slice → State) : Prop :=
  Performs n i
    (fun s b l => (gangTrap g l (check s b)).isNone && (acting g l).all (s.tileReady b (tiles b)) &&
      !(acting g l).any (tileTaken b l (tiles b)))
    (fun s b l => s.tileDone g b l f)

/-- Accesses that pass every check of R226 and need not wait for a page or a span. -/
def State.unblocked (s : State) (b : Block) (accs : List Acc) : Bool :=
  (s.checkAccs b accs fun _ => true).isNone && !s.held_ (s.lrOf b).ctx accs

/-- Stores for which the cocoons that they reach have room (R312). -/
def State.roomFor (s : State) (b : Block) (l : List (Slice × Phys × List (Option Byte))) : Bool :=
  (s.wants b (s.unmade l)).isEmpty

/-- The state after the stores of a gang, which count as bytes that its context has moved (R375). -/
def State.storedAll (s : State) (b : Block) (sc : Scope) (nt : Bool) (l : List (Slice × Phys × List (Option Byte))) : State :=
  (s.stored b sc nt (s.unmade l)).countStores b l

/-- The state with the translations of accesses remembered. -/
def State.mapped (s : State) (b : Block) (accs : List Acc) : State := s.rememberAll (s.lrOf b).ctx accs

/-- What an instruction that goes on keeps of a slice: its number, its place and that it has not ended. -/
def Slice.keeps (y x : Slice) : Prop :=
  y.num = x.num ∧ y.ended = x.ended ∧ y.pc = x.pc ∧ y.hdr = x.hdr ∧ y.hword = x.hword

/-! ## A well-kept state -/

/-- The switch allocations of one context share no address (R323). -/
def State.allocsApart (s : State) : Prop :=
  (∀ a ∈ s.fabric.allocs, 0 < a.size) ∧
  s.fabric.allocs.Pairwise fun x y => x.ctx = y.ctx → x.base + x.size ≤ y.base ∨ y.base + y.size ≤ x.base

/-- An entry of a cocoon has the size that its operation asks for (R307). -/
def CocoonEntry.sound (e : CocoonEntry) : Prop := e.sz ≤ 3 ∧ (e.op = 0xA ∨ e.op = 0xB → e.sz = 2)

/-- Memory in canonical form: addresses strictly rising, no entry that an unlisted address would read as; what a stack holds apart
is listed for T1 bytes that differ from what every load sees. -/
def Memory.wf (m : Memory) : Bool :=
  Cells.wf 0 m.ram && Cells.sorted 0 m.bank && m.bank.all (fun c => isCached c.1 && c.2 != m.peek c.1)

end Sys2Proof.Machine
end

