-- ==== Sys2Proof/Certificates/Slice0/Obligations.lean ====
section
/-! DEFINITION. The statements made of the model, from the numbered rules of spec/. -/

open Sys2Proof Sys2Proof.Machine

/-! ## Encoding -/

/-- Words that the manual writes out decode to the instructions it says they are (R100, R102, R107, R109, R170, R230, R272,
R300, R323, R387). -/
def Obligations.ManualWordsDecode : Prop :=
  decodeTableWord 64 0x00001FFFFFFFFE00 = some (.nop ⟨false, 0⟩) ∧
  decodeTableWord 64 0x00013FFFFFFFFE00 = some (.nop ⟨true, 1⟩) ∧
  decodeTableWord 64 0x0C001FFEA0000200 = some (.loop ⟨false, 0⟩ 0 (.small 20) 1) ∧
  decodeTableWord 64 0x0E003FFFFFFFFE00 = some (.lbrk ⟨false, 1⟩ 0) ∧
  decodeTableWord 64 0x0400143000000800 = some (.brp ⟨false, 0⟩ .per 3 4) ∧
  decodeTableWord 64 0x6B2814100013FE00 = some (.xcmp ⟨false, 0⟩ .f32 .gt .w2 .w2 (.p 1) (.v 0) (.v 4)) ∧
  decodeTableWord 64 0x812400382007FE01 = some (.ld ⟨false, 0⟩ .f32 (.lvl 2) .sync (.v 3) (.s 4) (.v 1) .none) ∧
  decodeTableWord 64 0xB32000482007FE08 = some (.atomc ⟨false, 0⟩ .pkg (.v 4) (.s 4) (.v 1)) ∧
  decodeTableWord 64 0xDB201FF847FFFE03 = some (.mcmp ⟨false, 0⟩ .f32 .rne .vfma (.s 8)) ∧
  decodeTableWord 64 0xE60010682417FE01 = some (.salloc ⟨false, 0⟩ true (.s 6) (.s 4) (.s 5)) ∧
  decodeTableWord 64 0xFA001FFFFFFFFE00 = some (.eret ⟨false, 0⟩)

/-- Every well-formed instruction's words decode to it, whatever words follow them (R27 to R57). -/
def Obligations.EncodedInstructionDecodes : Prop := ∀ i : Instr, Laws.RoundTrip.Statement i

/-- A word that decodes is the first word of the instruction it decodes to: no instruction has two words, and no bit of a word goes
unread (R27, R28). -/
def Obligations.DecodedInstructionEncodes : Prop :=
  ∀ (live accn : Nat) (w : Word) (next : Option Word) (i : Instr), decodeAt live accn w next = .ok i →
    (encode i).head? = some w ∧ i.check live accn = none

/-- A word whose OPC is unassigned is no instruction, whatever its other bits: the check that fails is the opcode's (R54, R57). A word
that fails a check of R57 raises ILLOP with that check at the gang's pc: wherever a gang issues, that is the whole effect of the word. -/
def Obligations.UnassignedOpcodesRaise : Prop :=
  (∀ (live accn : Nat) (w : Word) (next : Option Word),
    (w.extractLsb' 57 7).toNat ∈ [0x0C, 0x0D, 0x0E, 0x0F, 0x2B, 0x2C, 0x2D, 0x2E, 0x2F, 0x37, 0x4C, 0x4D, 0x4E, 0x4F, 0x56, 0x57,
      0x5E, 0x5F, 0x65, 0x66, 0x67, 0x6E, 0x6F, 0x77] →
    decodeAt live accn w next = .error 3 ∧
    ∀ (s : State) (b : Block) (l : List Slice) (x : Slice), s.issuing = some (b, l) → l.head? = some x → x.live = live →
      (s.lrOf b).accn = accn → s.runWord b l x w = .next (s.raise { Ev.illop with check := 3, at_ := some x.pc })) ∧
  (∀ (n : Nat) (s : State) (b : Block) (l : List Slice) (x : Slice), s.issuing = some (b, l) → l.head? = some x →
    exec (.wordNotInstruction n) s = .next (s.raise { Ev.illop with check := n, at_ := some x.pc }))

/-! ## Control -/

/-- NOP has the words that its rule writes out, changes only the pc, and with PG = 0b1000 fails check 7 (R100). -/
def Obligations.NopChangesOnlyThePc : Prop :=
  decodeTableWord 64 0x00001FFFFFFFFE00 = some (.nop ⟨false, 0⟩) ∧
  decodeTableWord 64 0x00003FFFFFFFFE00 = some (.nop ⟨false, 1⟩) ∧
  decodeTableWord 64 0x00013FFFFFFFFE00 = some (.nop ⟨true, 1⟩) ∧
  (∀ g, Completes g 1 (.nop g) fun _ x => x) ∧
  (∀ live accn next, decodeAt live accn (0x00011FFFFFFFFE00 : Word) next = .error 7)

/-- YIELD notes the gang as its partition's last issue where a lane takes part, and goes on; VOTE writes its predicate or scalar
from the lanes that take part (R110, R112). -/
def Obligations.YieldAndVoteComplete : Prop :=
  (∀ g, Performs 1 (.yield g) (fun _ _ _ => true) fun s b l => if l.any (fun x => x.part_ g != 0) then s.markIssued b l else s) ∧
  (∀ g n a, Completes g 1 (.vote g .any (.p n) a) fun _ x => x.setPred g (.p n) fun _ => x.part_ g &&& predOf x a != 0) ∧
  (∀ g n a, Completes g 1 (.vote g .all (.p n) a) fun _ x =>
    x.setPred g (.p n) fun _ => x.part_ g &&& predOf x a == x.part_ g) ∧
  (∀ g n a, Completes g 1 (.vote g .ballot (.s n) a) fun _ x => x.ws n.toNat ((x.part_ g &&& predOf x a).setWidth 64)) ∧
  (∀ g n a, Completes g 1 (.vote g .uni (.p n) (.v a)) fun _ x =>
    x.setPred g (.p n) fun _ => (lanes (x.part_ g)).all fun j => (lanes (x.part_ g)).all fun k => x.rv a.toNat j == x.rv a.toNat k)

/-- BRA, BRP, BRX, CALL and RET transfer the lanes that they choose to the header they name, wherever Transfer raises nothing; a
slice that transfers no lane goes on, past the end of its block where the instruction is its last word (R35, R101 to R106, R108). -/
def Obligations.BranchesTransfer : Prop :=
  let jump (g : Guard) (n : Nat) (i : Instr) (t : Slice → Mask) (target : State → Block → Slice → VA) (f : Slice → Slice)
      (ok : State → Block → Slice → Bool) : Prop :=
    Moves n i
      (fun s b x => x.part_ g = 0 ||
        (ok s b x && isOk (s.transfer (s.lrOf b).ctx (f x) (t x) (target s b x) (VA.plus x.pc n))))
      (fun s b x => if x.part_ g = 0 then (x, false) else
        okOr (x, false) (s.transfer (s.lrOf b).ctx (f x) (t x) (target s b x) (VA.plus x.pc n)))
  let address (a : Opd) (s : State) (b : Block) (x : Slice) : Bool :=
    (svalOf (s.envOf b x) x a).toNat < 2 ^ 57 && (svalOf (s.envOf b x) x a).toNat % 8 == 0
  (∀ g off, jump g 1 (.bra g off) (fun x => x.part_ g) (fun _ _ x => VA.plus x.pc off.toInt) id fun _ _ _ => true) ∧
  (∀ g p off, jump g 1 (.brp g .per p off) (fun x => x.part_ g &&& x.rp p.toNat) (fun _ _ x => VA.plus x.pc off.toInt) id
    fun _ _ _ => true) ∧
  (∀ g p off, jump g 1 (.brp g .any p off) (fun x => if x.part_ g &&& x.rp p.toNat = 0 then 0 else x.am)
    (fun _ _ x => VA.plus x.pc off.toInt) id fun _ _ _ => true) ∧
  (∀ g p off, jump g 1 (.brp g .all p off) (fun x => if x.part_ g &&& x.rp p.toNat = x.part_ g then x.am else 0)
    (fun _ _ x => VA.plus x.pc off.toInt) id fun _ _ _ => true) ∧
  (∀ g a, jump g (lenOf [a]) (.brx g a) (fun x => x.part_ g) (fun s b x => (svalOf (s.envOf b x) x a).setWidth 57) id (address a)) ∧
  (∀ g d off, jump g 1 (.call g d off) (fun x => x.part_ g) (fun _ _ x => VA.plus x.pc off.toInt)
    (fun x => x.setS g d ((VA.plus x.pc 1).setWidth 64)) fun _ _ _ => true) ∧
  (∀ g n, jump g 1 (.ret g (.s n)) (fun x => x.part_ g) (fun s b x => (svalOf (s.envOf b x) x (.s n)).setWidth 57) id
    (address (.s n)))

/-- Transfer (R92, R93, R96): no lane, every lane, or a divergence that pushes a JOIN and a PEND entry; the checks come in the
order target, RCV target, depth of the stack. Arrive (R94) parks the running lanes and runs the waiting ones, or joins them, or goes to
the header; it looks only above the depth of the innermost active loop. -/
def Obligations.TransferSplitsTheLanes : Prop :=
  (∀ (s : State) (c : Nat) (x : Slice) (t : Mask) (target next : VA),
     let off : BitVec 16 := match x.hword with | some w => Hdr.rcv w | none => 0
     let rh : VA := if off = 0 then 0 else VA.plus x.hdr off.toInt
     (t = 0 → s.transfer c x t target next = .ok (x, false)) ∧
     (∀ w, t ≠ 0 → s.fetchWord c target.toNat = .ok w → Hdr.isHeader w = false →
       ∃ e, s.transfer c x t target next = .error e ∧ e.code = 0x02 ∧ e.lanes = [(x.num, t)]) ∧
     (∀ w, t ≠ 0 → s.fetchWord c target.toNat = .ok w → Hdr.isHeader w = true →
       (t = x.am → s.transfer c x t target next = .ok (x.arrive target, true)) ∧
       (∀ v, t ≠ x.am → off ≠ 0 → s.fetchWord c rh.toNat = .ok v → Hdr.isHeader v = false →
         ∃ e, s.transfer c x t target next = .error e ∧ e.code = 0x02) ∧
       (t ≠ x.am → (off = 0 ∨ ∃ v, s.fetchWord c rh.toNat = .ok v ∧ Hdr.isHeader v = true) →
         (x.rs.length + 2 > 32 → ∃ e, s.transfer c x t target next = .error e ∧ e.code = 0x01 ∧ e.detail = 0x04) ∧
         (x.rs.length + 2 ≤ 32 → s.transfer c x t target next =
           .ok (({ x with
             rs := { pend := true, mask := x.am &&& ~~~ t, hdr := next, fmt := x.fmt } ::
               { pend := false, mask := x.am, hdr := rh, fmt := x.fmt } :: x.rs
             am := t } : Slice).arrive target, true))))) ∧
  (∀ (x : Slice) (h : VA),
     x.arrive h =
       match x.rs with
       | e :: f :: rest =>
         if x.rs.length > x.floor_ + 1 ∧ e.pend = true ∧ f.pend = false ∧ f.hdr ≠ 0 ∧ f.hdr = h then
           ({ x with rs := f :: rest, am := e.mask, fmt := e.fmt } : Slice).arrive e.hdr
         else if x.rs.length > x.floor_ ∧ e.pend = false ∧ e.hdr ≠ 0 ∧ e.hdr = h then
           ({ x with rs := f :: rest, am := e.mask, fmt := e.fmt } : Slice).arrive h
         else { x with pc := h, hword := none }
       | [e] =>
         if 1 > x.floor_ ∧ e.pend = false ∧ e.hdr ≠ 0 ∧ e.hdr = h then
           ({ x with rs := [], am := e.mask, fmt := e.fmt } : Slice).arrive h
         else { x with pc := h, hword := none }
       | [] => { x with pc := h, hword := none })

/-- LOOP checks, then skips a loop of no iterations or starts one (R107). At the end of an iteration (R108) a stack that is too deep
raises ILLOP; a further iteration arrives at START, where that is a header still (R35); the last one ends the level, takes BRK back and
goes on outward; a level that does not end with this block is passed over. A LOOP that is the last word of an active level's end block
arrives where R107 sends it and ends no iteration of that level: that R107's arrival is a taken transfer in R108's sense is log entry 47
(DEDUCED). -/
def Obligations.LoopsStartAndEnd : Prop :=
  (∀ (g : Guard) (k : BitVec 2) (a : Opd) (off : BitVec 18),
     let count (s : State) (b : Block) (x : Slice) : BitVec 32 := (svalOf (s.envOf b x) x a).setWidth 32
     let en (x : Slice) : VA := VA.plus x.pc off.toInt
     Moves (lenOf [a]) (.loop g k a off)
       (fun s b x => x.part_ g = 0 ||
         (!(x.lpOf k.toNat).act && !(en x < x.blockEnd) &&
           isOk (s.header (s.lrOf b).ctx x.blockEnd) && isOk (s.header (s.lrOf b).ctx (en x)) &&
           Hdr.loopb (okOr 0 (s.header (s.lrOf b).ctx x.blockEnd))))
       (fun s b x =>
         if x.part_ g = 0 then (x, false)
         else if count s b x = 0 then (x.arrive (VA.plus (en x) (Hdr.len (okOr 0 (s.fetchWord (s.lrOf b).ctx (en x).toNat)))), true)
         else
           (({ x with
             lp := x.lp.set k.toNat { act := true, start := x.blockEnd, endh := en x, count := count s b x, brk := 0, depth := x.rs.length }
             order := k.toNat :: x.order.filter (fun j => j != k.toNat) } : Slice).arrive x.blockEnd, true))) ∧
  ((∀ (x : Slice) (bad : VA → Bool) (next : VA) (k : Nat) (ks : List Nat), (x.lpOf k).act = true → (x.lpOf k).endh = x.hdr →
     (x.lpOf k).count ≠ 0 →
     (x.rs.length > (x.lpOf k).depth → ∃ e, x.passEnd bad next (k :: ks) = .error e ∧ e.code = 0x01) ∧
     (x.rs.length ≤ (x.lpOf k).depth → (x.lpOf k).count ≠ 1 →
       (bad (x.lpOf k).start = false → x.passEnd bad next (k :: ks) =
         .ok ((x.setLp k { x.lpOf k with count := (x.lpOf k).count - 1 }).arrive (x.lpOf k).start)) ∧
       (bad (x.lpOf k).start = true → ∃ e, x.passEnd bad next (k :: ks) = .error e ∧ e.code = 0x02)) ∧
     (x.rs.length ≤ (x.lpOf k).depth → (x.lpOf k).count = 1 → x.passEnd bad next (k :: ks) =
       ({ (x.setLp k { x.lpOf k with count := 0 }).endLoop k with am := x.am ||| (x.lpOf k).brk } : Slice).passEnd bad next ks)) ∧
   (∀ (x : Slice) (bad : VA → Bool) (next : VA) (k : Nat) (ks : List Nat), (x.lpOf k).act = false ∨ (x.lpOf k).endh ≠ x.hdr →
     x.passEnd bad next (k :: ks) = x.passEnd bad next ks) ∧
   (∀ (x : Slice) (bad : VA → Bool) (next : VA), x.passEnd bad next [] = .ok (x.arrive next)) ∧
   -- an instruction that ends its block passes the end there
   (∀ (g : Guard) (s : State) (b : Block) (l : List Slice), s.issuing = some (b, l) → s.plain = true →
     let bad : VA → Bool := s.noHeader (s.lrOf b).ctx
     (∀ x ∈ l, x.hword.isSome = true ∧ VA.plus x.pc 1 = x.blockEnd ∧
       isOk (({ x.tick with wait := .none } : Slice).passEnd bad (VA.plus x.pc 1) x.order) = true) →
     exec (.nop g) s = .next (s.parted b (l.map fun x =>
       okOr x (({ x.tick with wait := .none } : Slice).passEnd bad (VA.plus x.pc 1) x.order)))))

/-- LBRK takes its lanes out of the loop, EXIT out of the slice (R109, R111); a slice left without a lane goes where EmptyMask says,
one that keeps lanes goes on, past the end of its block where the instruction is its last word, and slices that end leave their barriers
(R95, R249). -/
def Obligations.LanesLeaveLoopsAndSlices : Prop :=
  let leave (i : Instr) (ok : Slice → Bool) (f : Slice → Slice) (g : Guard) : Prop :=
    ∀ (s : State) (b : Block) (l : List Slice), s.issuing = some (b, l) → s.plain = true →
      let out (x : Slice) : Except Ev Slice := went (s.noHeader (s.lrOf b).ctx) 1
        (if x.part_ g = 0 then (x, false) else if (f x).am = 0 then ((f x).emptyMask (s.loopExit (s.lrOf b).ctx), true) else (f x, false))
      (∀ x ∈ l, (x.part_ g = 0 ∨ ok x = true) ∧ isOk (out x) = true) →
      exec i s = .next (s.settleEnded (s.parted b (l.map fun x => okOr x (out x))) b.uid)
  (∀ g (k : BitVec 2), leave (.lbrk g k) (fun x => (x.lpOf k.toNat).act)
    (fun x =>
      (x.setLp k.toNat { x.lpOf k.toNat with brk := (x.lpOf k.toNat).brk ||| x.part_ g }).dropLanes (x.part_ g)
        (x.lpOf k.toNat).depth (x.order.takeWhile (fun j => j != k.toNat))) g) ∧
  (∀ g, leave (.exit g) (fun _ => true)
    (fun x => ({ x with xm := x.xm ||| x.part_ g } : Slice).dropLanes (x.part_ g) 0 [0, 1, 2, 3]) g)

/-- REGANG (R98): the gang with which the last live slices of a group arrive releases them all, those of other gangs that wait at their
REGANG among them, and the slices released from one address form one gang; otherwise its slices wait, each at the region that opens
there. -/
def Obligations.RegangWaitsAndReleases : Prop :=
  ∀ (g : Guard) (s : State) (b : Block) (l : List Slice), s.issuing = some (b, l) → s.goes 1 = true →
    (∀ x ∈ l, x.part_ g ≠ 0 ∧ x.wait ≠ .regang) →
    (∀ x ∈ l, ∀ y ∈ l, (s.lrOf b).partOf 1 x.gnum = (s.lrOf b).partOf 1 y.gnum) →
    let live (z : Slice) : Prop := z ∈ b.slices ∧ z.ended = false ∧ ∀ x ∈ l, (s.lrOf b).partOf 1 z.gnum = (s.lrOf b).partOf 1 x.gnum
    ((∀ z, live z → z ∈ l ∨ (z.wait = .regang ∧ z.inside 1 = true)) →
      ∃ t, exec (.regang g) s = .next t ∧
        (∀ z, live z → (t.now b z).pc = VA.plus z.pc 1 ∧ (t.now b z).wait = .none ∧ (t.now b z).v = z.v ∧ (t.now b z).s = z.s) ∧
        ∀ y z, live y → live z → ((t.now b y).gang = (t.now b z).gang ↔ y.pc = z.pc)) ∧
    ((∃ z ∈ b.slices, z.ended = false ∧ z ∉ l ∧ z.wait ≠ .regang ∧
        ∀ x ∈ l, (s.lrOf b).partOf 1 z.gnum = (s.lrOf b).partOf 1 x.gnum) →
      exec (.regang g) s = .next (({ s with nextId := s.nextId + 1 } : State).modBlock b.uid fun y => y.putSlices (l.map fun x =>
        { x.openRegion (x.repHere .regang) with wait := .regang, qphase := .running })))

/-! ## Integer, lane and float -/

/-- The integer instructions and MOV write what their rules say to D, in the lanes that take part, and go on (R115 to R126), in a normal
launch and in the quanta of a deterministic one (R254, R255). -/
def Obligations.IntegerInstructionsComplete : Prop :=
  (let put (g : Guard) (n : Nat) (i : Instr) (d : Opd) (signed : Bool) (w : Nat) (f : Env → Slice → Nat → Nat) : Prop :=
     Completes g n i fun e x => x.setInt g d signed w (f e x)
   (∀ g ty sat op d a b c, put g (lenOf [a, b, c]) (.iadd g ty sat op d a b c) d ty.isSigned ty.width fun e x k =>
     iaddVal ty sat op (tvalOf e x k ty a) (tvalOf e x k ty b) (tvalOf e x k ty c)) ∧
   (∀ g ty sat op d a b, put g (lenOf [a, b]) (.imul g ty sat op d a b) d ty.isSigned (mulWidth ty op) fun e x k =>
     imulVal ty sat op (tvalOf e x k ty a) (tvalOf e x k ty b) 0) ∧
   (∀ g ty sat op d a b c, put g (lenOf [a, b, c]) (.imad g ty sat op d a b c) d ty.isSigned (mulWidth ty op) fun e x k =>
     imulVal ty sat op (tvalOf e x k ty a) (tvalOf e x k ty b) (imadC e x k ty op c)) ∧
   (∀ g ty op d a b, put g (lenOf [a, b]) (.iminmax g ty op d a b) d ty.isSigned ty.width fun e x k =>
     let lt := readInt ty.isSigned ty.width (tvalOf e x k ty a) < readInt ty.isSigned ty.width (tvalOf e x k ty b)
     if (op = .min ∧ lt) ∨ (op = .max ∧ ¬ lt) then tvalOf e x k ty a else tvalOf e x k ty b) ∧
   (∀ g ty tt d a b c, put g (lenOf [a, b, c]) (.logic g ty tt d a b c) d false ty.width fun e x k =>
     logicVal ty.width tt (tvalOf e x k ty a) (tvalOf e x k ty b) (tvalOf e x k ty c)) ∧
   (∀ g ty op d a b c, put g (lenOf [a, b, c]) (.shift g ty op d a b c) d ty.isSigned ty.width fun e x k =>
     shiftVal ty.width op (tvalOf e x k ty a) (valOf e x k 32 b) (tvalOf e x k ty c)) ∧
   (∀ g ty op d a, put g (lenOf [a]) (.bits g ty op d a) d false
     (match op with | .brev | .bswap => ty.width | _ => 32) fun e x k => bitsVal ty.width op (tvalOf e x k ty a)) ∧
   (∀ g ty op d a b c, put g (lenOf [a, b, c]) (.bfx g ty op d a b c) d ty.isSigned ty.width fun e x k =>
     bfxVal ty op (tvalOf e x k ty a) (tvalOf e x k ty b) (valOf e x k 32 c)) ∧
   (∀ g ty cnd d a b, Completes g (lenOf [a, b]) (.icmp g ty cnd d a b) fun e x => x.setPred g d fun k =>
     icmpVal ty cnd (tvalOf e x k ty a) (tvalOf e x k ty b)) ∧
   (∀ g ty d a b c, put g (lenOf [a, b]) (.sel g ty d a b c) d false ty.width fun e x k =>
     if (predOf x c).getLsbD k then tvalOf e x k ty a else tvalOf e x k ty b) ∧
   (∀ g k d a b c, put g (lenOf [a, b, c]) (.lea g k d a b c) d false 64 fun e x j =>
     wrapTo 64 ((valOf e x j 64 a : Int) + offsetOf e x j b * (leaFactor k : Int) + sgn 64 (valOf e x j 64 c)))) ∧
  ((∀ g d a, Completes g (lenOf [a]) (.mov g .b32 d a) fun e x => x.setInt g d false 32 fun k => valOf e x k 32 a) ∧
   (∀ g d a, Completes g (lenOf [a]) (.mov g .b64 d a) fun e x => x.setInt g d false 64 fun k => valOf e x k 64 a) ∧
   (∀ g n, Completes g 1 (.mov g .none (.s n) .flg) fun _ x => x.ws n.toNat ((x.flg ||| x.shadow).setWidth 64)) ∧
   (∀ g n, Completes g 1 (.mov g .none .flg (.s n)) fun _ x => { x with flg := (x.sr n.toNat).setWidth 6, shadow := 0 }))

/-- A register write reaches the lanes that take part and the registers of its destination, and nothing else of the slice; p0 reads
all ones and discards what is written (R29, R30, R115). -/
def Obligations.RegisterWritesKeepTheRest : Prop :=
  let span (w : Nat) : Nat := if w ≤ 32 then 1 else if w ≤ 64 then 2 else 4
  (∀ (x : Slice) (g : Guard) (n : BitVec 8) (sg : Bool) (w : Nat) (f : Nat → Nat),
    x.setInt g (.v n) sg w f = { x with v := (x.setInt g (.v n) sg w f).v } ∧
    (∀ r j, j < 4 → ((x.part_ g).getLsbD j = false ∨ r < n.toNat ∨ n.toNat + span w ≤ r) →
      (x.setInt g (.v n) sg w f).rv r j = x.rv r j) ∧
    (∀ j, (x.part_ g).getLsbD j = true →
      (w ≤ 32 → (x.setInt g (.v n) sg w f).rv n.toNat j = BitVec.ofNat 32 (extend sg w 32 (f j))) ∧
      (32 < w → (x.setInt g (.v n) sg w f).rv n.toNat j = BitVec.ofNat 32 (f j) ∧
        (x.setInt g (.v n) sg w f).rv (n.toNat + 1) j = BitVec.ofNat 32 (f j / 2 ^ 32)))) ∧
  (∀ (x : Slice) (g : Guard) (n : BitVec 6) (sg : Bool) (w : Nat) (f : Nat → Nat),
    (x.part_ g = 0 → x.setInt g (.s n) sg w f = x) ∧
    x.setInt g (.s n) sg w f = { x with s := (x.setInt g (.s n) sg w f).s } ∧
    (∀ k, k ≠ n.toNat → (x.setInt g (.s n) sg w f).sr k = x.sr k) ∧
    (x.part_ g ≠ 0 → (x.setInt g (.s n) sg w f).sr n.toNat = BitVec.ofNat 64 (extend sg w 64 (f 0)))) ∧
  (∀ (x : Slice) (g : Guard) (f : Nat → Bool), x.rp 0 = 0xF ∧ x.setPred g (.p 0) f = x) ∧
  (∀ (x : Slice) (g : Guard) (n : BitVec 3) (f : Nat → Bool),
    x.setPred g (.p n) f = { x with p := (x.setPred g (.p n) f).p } ∧
    (∀ k, k ≠ n.toNat → (x.setPred g (.p n) f).rp k = x.rp k) ∧
    (n ≠ 0 → ∀ j, ((x.setPred g (.p n) f).rp n.toNat).getLsbD j =
      if (x.part_ g).getLsbD j then f j else (x.rp n.toNat).getLsbD j)) ∧
  (∀ (x : Slice) (g : Guard) (n : BitVec 8) (w : Nat) (f : Nat → Nat × Flags), w ≤ 32 →
    ((x.setFloat g (.v n) w f).p = x.p ∧ (x.setFloat g (.v n) w f).s = x.s ∧ (x.setFloat g (.v n) w f).pc = x.pc) ∧
    (∀ r j, j < 4 → ((x.part_ g).getLsbD j = false ∨ r ≠ n.toNat) → (x.setFloat g (.v n) w f).rv r j = x.rv r j) ∧
    ∀ k, (x.setFloat g (.v n) w f).flg.getLsbD k || (x.setFloat g (.v n) w f).shadow.getLsbD k =
      (x.flg.getLsbD k || x.shadow.getLsbD k || (lanes (x.part_ g)).any fun j => (f j).2.getLsbD k))

/-- What the integer rules compute, said of bit vectors: sums, differences and products wrap or clamp, CARRY and BORROW count what
leaves the word, the smaller and the larger and comparisons follow the type's sign, LOGIC looks each bit up, shifts by the width or more
leave zero or the sign, and a funnel joins two words (R116 to R120, R123). -/
def Obligations.IntegerValues : Prop :=
  ∀ (ty : Ty) (a b c n : Nat), ty.isInt = true ∨ ty = .b32 ∨ ty = .b64 →
    let w := ty.width
    a < 2 ^ w → b < 2 ^ w → c < 2 ^ w →
    let x := BitVec.ofNat w a
    let y := BitVec.ofNat w b
    let z := BitVec.ofNat w c
    (BitVec.ofNat w (iaddVal ty false .sum a b c) = x + y + z ∧ BitVec.ofNat w (iaddVal ty false .diff a b c) = x - y - z ∧
      iaddVal ty false .carry a b c * 2 ^ w + (x + y + z).toNat = a + b + c ∧
      a + iaddVal ty false .borrow a b c * 2 ^ w = b + c + (x - y - z).toNat) ∧
    (let int (v : BitVec w) : Int := if ty.isSigned then v.toInt else v.toNat
     let clamped (n : Nat) (i : Int) : Prop := n < 2 ^ w ∧ int (BitVec.ofNat w n) =
       (if ty.isSigned then max (-2 ^ (w - 1)) (min (2 ^ (w - 1) - 1) i) else max 0 (min (2 ^ w - 1) i))
     clamped (iaddVal ty true .sum a b c) (int x + int y + int z) ∧ clamped (iaddVal ty true .diff a b c) (int x - int y - int z) ∧
     clamped (imulVal ty true .low a b 0) (int x * int y) ∧ clamped (imulVal ty true .low a b (int z)) (int x * int y + int z) ∧
     int (BitVec.ofNat w (minMaxVal ty .min a b)) = min (int x) (int y) ∧ int (BitVec.ofNat w (minMaxVal ty .max a b)) = max (int x) (int y)) ∧
    (BitVec.ofNat w (imulVal ty false .low a b 0) = x * y ∧
      (ty.isSigned = false → imulVal ty false .wide a b 0 = a * b ∧ imulVal ty false .hi a b 0 = a * b / 2 ^ w) ∧
      (ty.isSigned = true → BitVec.ofNat (2 * w) (imulVal ty false .wide a b 0) = BitVec.ofInt (2 * w) (x.toInt * y.toInt))) ∧
    (∀ (tt : BitVec 8) j, j < w → (logicVal w tt a b c).testBit j =
      tt.getLsbD (4 * (a.testBit j).toNat + 2 * (b.testBit j).toNat + (c.testBit j).toNat)) ∧
    (shiftVal w .shl a n c = (x <<< n).toNat ∧ shiftVal w .shr a n c = (x >>> n).toNat ∧
      shiftVal w .sar a n c = (x.sshiftRight n).toNat ∧ shiftVal w .rol a n c = (x.rotateLeft (n % w)).toNat ∧
      shiftVal w .ror a n c = (x.rotateRight (n % w)).toNat ∧
      shiftVal w .fshl a n c = ((x ++ z) <<< (n % w)).toNat / 2 ^ w ∧
      shiftVal w .fshr a n c = ((z ++ x) >>> (n % w)).toNat % 2 ^ w) ∧
    (icmpVal ty .eq a b = (x == y) ∧ icmpVal ty .lt a b = (if ty.isSigned then x.slt y else x.ult y) ∧
      icmpVal ty .le a b = (if ty.isSigned then x.sle y else x.ule y))

/-- The hash, partition, lane and predicate instructions write what their rules say and go on (R127 to R136); PART.RANGE wherever
its table lies in the slot, aligned. The low 32 bits of its base give the table's offset, and poison in the table raises nothing, by the
model's choice (log entry 57). That a 64-bit TY makes D of HASH and PART a pair, and which operands of LANE are scalars, rests on the
model's reading of R32 and R115 (log entry 62, DEDUCED). -/
def Obligations.LaneInstructionsComplete : Prop :=
  (∀ g ty d a b, Completes g (lenOf [a, b]) (.hashCrc32c g ty d a b) fun e x => x.setInt g d false ty.width fun k =>
    crc32c (valOf e x k 32 a) (leBytes (ty.width / 8) (tvalOf e x k ty b))) ∧
  (∀ g d a b, Completes g (lenOf [a, b]) (.hashMix64 g .n64 d a b) fun e x => x.setInt g d false 64 fun k =>
    mix64 (valOf e x k 64 a) (valOf e x k 64 b)) ∧
  (∀ g d a b, Completes g (lenOf [a, b]) (.hashMix64 g .n32 d a b) fun e x => x.setInt g d false 32 fun k =>
    mix64 (valOf e x k 64 a) (valOf e x k 64 b) / 2 ^ 32) ∧
  (∀ g ty d a c, Completes g (lenOf [a, c]) (.partRadix g ty d a c) fun e x => x.setInt g d false ty.width fun k =>
    radixVal ty (tvalOf e x k ty a) (valOf e x k 32 c)) ∧
  (∀ (g : Guard) (ty : Ty) (d a b c : Opd) (s : State) (blk : Block) (l : List Slice), s.issuing = some (blk, l) →
    s.runs (lenOf [a, b, c]) = true →
    (∀ x ∈ l, isOk (rangeSlice s blk g ty d a b c (s.envOf blk x) x) = true) →
    exec (.partRange g ty d a b c) s = .next (s.after blk l (lenOf [a, b, c]) fun x =>
      x.when g fun x => okOr x (rangeSlice s blk g ty d a b c (s.envOf blk x) x))) ∧
  (∀ (g : Guard) (ty : Ty) (gang : Bool) (op : LaneOp) (d a b : Opd) (s : State) (blk : Block) (l : List Slice),
    s.issuing = some (blk, l) → s.runs (lenOf [a, b]) = true →
    exec (.lane g ty gang op d a b) s = .next (s.after blk l (lenOf [a, b]) fun x =>
      x.when g fun x => laneSlice (s.envOf blk) g ty gang op d a b l (s.envOf blk x) x)) ∧
  (∀ g op d a b, Completes g (lenOf [a]) (.pred g op d a b) fun e x => x.setPred g d fun k =>
    predVal op ((predOf x a).getLsbD k) ((predOf x b).getLsbD k) (valOf e x k (if op = .pload then 32 else 64) a) k)

/-- The float instructions write their results, in the lanes that take part, and set the flags that those lanes raise (R140 to
R158), in a normal launch and in the quanta of a deterministic one (R254, R255). -/
def Obligations.FloatInstructionsComplete : Prop :=
  let rd (ty : Ty) (e : Env) (x : Slice) (k : Nat) (o : Opd) : FV := (fmtOf ty).read (tvalOf e x k ty o)
  (∀ g ty r diff d a b, Completes g (lenOf [a, b]) (.fadd g ty r diff d a b) fun e x => x.setFloat g d ty.width fun k =>
    faddVal ty r diff (tvalOf e x k ty a) (tvalOf e x k ty b)) ∧
  (∀ g ty r d a b, Completes g (lenOf [a, b]) (.fmul g ty r d a b) fun e x => x.setFloat g d ty.width fun k =>
    (fmtOf ty).mul r (tvalOf e x k ty a) (tvalOf e x k ty b)) ∧
  (∀ g ty r op d a b c, Completes g (lenOf [a, b, c]) (.ffma g ty r op d a b c) fun e x => x.setFloat g d ty.width fun k =>
    (fmtOf ty).fma r op (tvalOf e x k ty a) (tvalOf e x k ty b) (tvalOf e x k ty c)) ∧
  (∀ g ty op d a b, Completes g (lenOf [a, b]) (.fminmax g ty op d a b) fun e x => x.setFloat g d ty.width fun k =>
    (fmtOf ty).minMax (op == .max || op == .maxnum) (op == .minnum || op == .maxnum) (tvalOf e x k ty a) (tvalOf e x k ty b)) ∧
  (∀ g ty c d a b, Completes g (lenOf [a, b]) (.fcmp g ty c d a b) fun e x =>
    (x.setPred g d fun k => cmpX c (rd ty e x k a) (rd ty e x k b)).setFlags
      ((lanes (x.part_ g)).foldl (fun acc k => acc ||| cmpFlags c (rd ty e x k a) (rd ty e x k b)) 0)) ∧
  (∀ g ty d a, Completes g (lenOf [a]) (.fclass g ty d a) fun e x => x.setInt g d false 32 fun k =>
    fclassVal (fmtOf ty) (tvalOf e x k ty a)) ∧
  (∀ g ty fn d a, Completes g (lenOf [a]) (.fapx g ty fn d a) fun e x => x.setFloat g d ty.width fun k =>
    fapxVal ty fn (tvalOf e x k ty a)) ∧
  (∀ g ty r src d a, Completes g (lenOf [a]) (.fcvt g ty r src d a) fun e x => x.setFloat g d ty.width fun k =>
    fcvtVal ty r src (tvalOf e x k src a)) ∧
  (∀ g ty d a b, Completes g (lenOf [a, b]) (.fadd2 g ty d a b) fun e x => x.setFloats g d ty.width fun k =>
    transformVal ty 2 (addX .rne (rd ty e x k a) (rd ty e x k b))) ∧
  (∀ g ty d a b, Completes g (lenOf [a, b]) (.fmul2 g ty d a b) fun e x => x.setFloats g d ty.width fun k =>
    transformVal ty 2 (mulX (rd ty e x k a) (rd ty e x k b))) ∧
  (∀ g ty d a b c, Completes g (lenOf [a, b, c]) (.ffma3 g ty d a b c) fun e x => x.setFloats g d ty.width fun k =>
    transformVal ty 3 (fmaX .rne (rd ty e x k a) (rd ty e x k b) (rd ty e x k c)))

/-- The expansion instructions write the greedy expansion of their exact results, the narrow and residue instructions their packed
words and residues (R165 to R190); SETFMT wherever the value is one it accepts. -/
def Obligations.ExpansionAndNarrowComplete : Prop :=
  (∀ g ty wd wa wb d a b, Completes g (lenOf [a, b]) (.xadd g ty wd wa wb d a b) fun e x => x.setFloats g d ty.width fun k =>
    xaddVal ty wd.num (expWords e x k ty wa.num a) (expWords e x k ty wb.num b)) ∧
  (∀ g ty wd wa d a b, Completes g (lenOf [a, b]) (.xadds g ty wd wa d a b) fun e x => x.setFloats g d ty.width fun k =>
    xaddVal ty wd.num (expWords e x k ty wa.num a) [tvalOf e x k ty b]) ∧
  (∀ g ty wd wa d a b, Completes g (lenOf [a, b]) (.xmuls g ty wd wa d a b) fun e x => x.setFloats g d ty.width fun k =>
    xmulsVal ty wd.num (expWords e x k ty wa.num a) (tvalOf e x k ty b)) ∧
  (∀ g ty wd wa d a, Completes g (lenOf [a]) (.xrenorm g ty wd wa d a) fun e x => x.setFloats g d ty.width fun k =>
    xrenormVal ty ty wd.num (expWords e x k ty wa.num a)) ∧
  (∀ g ty wa d a, Completes g (lenOf [a]) (.xcomp g ty wa d a) fun e x => x.setFloat g d ty.width fun k =>
    xcompVal ty (expWords e x k ty wa.num a)) ∧
  (∀ g ty c wa wb d a b, Completes g (lenOf [a, b]) (.xcmp g ty c wa wb d a b) fun e x => x.setCompare g d fun k =>
    xcmpVal ty c (expWords e x k ty wa.num a) (expWords e x k ty wb.num b)) ∧
  (∀ g ty wd wa src d a, Completes g (lenOf [a]) (.xcvt g ty wd wa src d a) fun e x => x.setFloats g d ty.width fun k =>
    xrenormVal ty src wd.num (expWords e x k src wa.num a)) ∧
  (∀ (g : Guard) (a : Opd) (s : State) (b : Block) (l : List Slice), s.issuing = some (b, l) → s.goes (lenOf [a]) = true →
    (∀ x ∈ l, x.part_ g = 0 ∨ fmtBad (svalOf (s.envOf b x) x a) = false) →
    exec (.setfmt g a) s = .next (s.after b l (lenOf [a]) fun x =>
      x.when g fun x => { x with fmt := (svalOf (s.envOf b x) x a).setWidth 16 })) ∧
  (∀ g n, Completes g 1 (.getfmt g (.s n)) fun _ x => x.ws n.toNat (x.fmt.setWidth 64)) ∧
  (∀ g ty src d a, Completes g 1 (.qcvt g ty src d a) fun _ x => x.setFloats g d 32 (qcvtLane x g ty src a)) ∧
  (∀ g ty dst d a, Completes g 1 (.qdec g ty dst d a) fun _ x => x.setFloats g d dst.width (qdecLane x ty dst a)) ∧
  (∀ g ty d a b, Completes g (lenOf [b]) (.renc g ty d a b) fun e x => x.setInt g d false 32 fun k =>
    (rencVal ty (valOf e x k 32 a) (valOf e x k 32 b)).toNat) ∧
  (∀ g ty d a b c, Completes g 1 (.rmac g ty d a b c) fun e x => x.setInt g d false 32 fun k =>
    (resAdd (BitVec.ofNat 32 (valOf e x k 32 c)) (packedDot ty (valOf e x k 32 a) (valOf e x k 32 b))).toNat) ∧
  (∀ g dst d a b, Completes g (lenOf [b]) (.rdec g dst d a b) fun e x => x.setFloat g d 32 fun k =>
    rdecVal dst (valOf e x k 32 a) (valOf e x k 32 b)) ∧
  (∀ g ty n d a, Completes g 1 (.spack g ty n d a) fun _ x => x.setFloats g d 32 fun k =>
    spackVal ty (nzCount n) ((List.range 3).map fun i => (x.rv (regOf a i) k).toNat))

/-! ## Memory -/

/-- LD, LDW, LDSPLIT and LDS read their bytes and write them to their registers; a load to scratchpad leaves on its path (R230 to
R233). In the quanta of a deterministic launch they do the same, but for an acquiring LD, which is synchronising (R254, R255). -/
def Obligations.LoadsComplete : Prop :=
  let both (n : Nat) (i : Instr) (ok : State → Block → List Slice → Bool) (f : State → Block → List Slice → State) : Prop :=
    Performs n i ok f ∧ PerformsInRounds n i ok f
  (∀ g ty sc k d a b c, k ≠ .sync → PerformsInRounds (lenOf [a, b, c]) (.ld g ty sc k d a b c)
    (fun s blk l => !d.isNone && s.unblocked blk (loadAccs s blk l g (ty.width / 8) d a b c))
    (fun s blk l => s.loaded blk l (loadAccs s blk l g (ty.width / 8) d a b c) false (k == .nt) (putLoad d ty.isSigned ty.width))) ∧
  (∀ g ty sc k d a b c, Performs (lenOf [a, b, c]) (.ld g ty sc k d a b c)
    (fun s blk l => !d.isNone && s.unblocked blk (loadAccs s blk l g (ty.width / 8) d a b c))
    (fun s blk l => s.loaded blk l (loadAccs s blk l g (ty.width / 8) d a b c) (k == .sync) (k == .nt) (putLoad d ty.isSigned ty.width))) ∧
  (∀ g ty sc k a b c, Performs (lenOf [a, b, c]) (.ld g ty sc k .none a b c)
    (fun s blk l => s.unblocked blk (loadAccs s blk l g (ty.width / 8) .none a b c) &&
      !s.pathFull blk l (loadAccs s blk l g (ty.width / 8) .none a b c))
    (fun s blk l => s.loadsSent blk l (loadAccs s blk l g (ty.width / 8) .none a b c) (k == .sync) (k == .nt))) ∧
  (∀ g ty sc g4 d a b c, both (lenOf [a, b, c]) (.ldw g ty sc g4 d a b c)
    (fun s blk l => !d.isNone && s.unblocked blk (loadAccs s blk l g (wideBytes ty g4) d a b c))
    (fun s blk l => s.loaded blk l (loadAccs s blk l g (wideBytes ty g4) d a b c) false false (putLoad d false (8 * wideBytes ty g4)))) ∧
  (∀ g ty sc g4 a b c, both (lenOf [a, b, c]) (.ldw g ty sc g4 .none a b c)
    (fun s blk l => s.unblocked blk (loadAccs s blk l g (wideBytes ty g4) .none a b c) &&
      !s.pathFull blk l (loadAccs s blk l g (wideBytes ty g4) .none a b c))
    (fun s blk l => s.loadsSent blk l (loadAccs s blk l g (wideBytes ty g4) .none a b c) false false)) ∧
  (∀ g ty sc d a b, both (lenOf [b]) (.ldsplit g ty sc d a b)
    (fun s blk l => (splitBad g a l).isNone && s.unblocked blk (ldsplitAccs s blk l g (ty.width / 8) a b))
    (fun s blk l => s.loaded blk l (ldsplitAccs s blk l g (ty.width / 8) a b) false false (putSplit d (ty.width / 8)))) ∧
  (∀ g ty d a b, both (lenOf [a, b]) (.lds g ty d a b)
    (fun s blk l => (s.checkAccs blk (ldsAccs s blk l g (ty.width / 8) d a b) fun _ => true).isNone)
    (fun s blk l => s.ldsDone blk l (ldsAccs s blk l g (ty.width / 8) d a b) (ty.width / 8) (putLoad d ty.isSigned ty.width)))

/-- ST, STW, STSPLIT and STS write their bytes where their accesses land, in order of position (R227, R230 to R233). In the quanta of a
deterministic launch they enter their slices' private buffers instead (R254), but for an ST.REL, which is synchronising (R255). -/
def Obligations.StoresComplete : Prop :=
  (∀ g ty sc k a b c, k ≠ .sync → PerformsInRounds (lenOf [a, b, c]) (.st g ty sc k a b c)
    (fun s blk l => s.unblocked blk (stAccs s blk l g ty a b))
    (fun s blk l => let x := stAccs s blk l g ty a b
      (s.mapped blk x).bufferStores blk (k == .nt) ((s.mapped blk x).storesOf blk l x (stData s blk l ty c)))) ∧
  (∀ g ty sc g4 a b c, PerformsInRounds (lenOf [a, b]) (.stw g ty sc g4 a b c)
    (fun s blk l => s.unblocked blk (stwAccs s blk l g (wideBytes ty g4) a))
    (fun s blk l => let x := stwAccs s blk l g (wideBytes ty g4) a
      (s.mapped blk x).bufferStores blk false ((s.mapped blk x).storesOf blk l x (stwData s blk l (wideBytes ty g4) b c)))) ∧
  (∀ g ty sc a b c, PerformsInRounds (lenOf [b]) (.stsplit g ty sc a b c)
    (fun s blk l => (splitBad g a l).isNone && s.unblocked blk (stsplitAccs s blk l g (ty.width / 8) a b))
    (fun s blk l => let x := stsplitAccs s blk l g (ty.width / 8) a b
      (s.mapped blk x).bufferStores blk false ((s.mapped blk x).splitStores blk l (ty.width / 8) c x))) ∧
  (∀ g ty a b c, PerformsInRounds (lenOf [a, b, c]) (.sts g ty a b c)
    (fun s blk l => (s.checkAccs blk (stsAccs s blk l g (ty.width / 8) a b) fun _ => true).isNone)
    (fun s blk l => s.stsDone blk l ty c (stsAccs s blk l g (ty.width / 8) a b))) ∧
  -- a store in a buffer is what its slice loads, and changes nothing that another sees (R254)
  (∀ (s : State) (b : Block) (x : Slice) (p : Phys) (nt : Bool) (d : List (Option Byte)), (s.bufferStores b nt [(x, p, d)]).mem = s.mem) ∧
  (∀ g ty sc k a b c, Performs (lenOf [a, b, c]) (.st g ty sc k a b c)
    (fun s blk l => let x := stAccs s blk l g ty a b
      s.unblocked blk x && !stWaits s blk sc k x && (s.mapped blk x).roomFor blk ((s.mapped blk x).storesOf blk l x (stData s blk l ty c)))
    (fun s blk l => let x := stAccs s blk l g ty a b
      (s.mapped blk x).storedAll blk sc (k == .nt) ((s.mapped blk x).storesOf blk l x (stData s blk l ty c)))) ∧
  (∀ g ty sc g4 a b c, Performs (lenOf [a, b]) (.stw g ty sc g4 a b c)
    (fun s blk l => let x := stwAccs s blk l g (wideBytes ty g4) a
      s.unblocked blk x && (s.mapped blk x).roomFor blk ((s.mapped blk x).storesOf blk l x (stwData s blk l (wideBytes ty g4) b c)))
    (fun s blk l => let x := stwAccs s blk l g (wideBytes ty g4) a
      (s.mapped blk x).storedAll blk sc false ((s.mapped blk x).storesOf blk l x (stwData s blk l (wideBytes ty g4) b c)))) ∧
  (∀ g ty sc a b c, Performs (lenOf [b]) (.stsplit g ty sc a b c)
    (fun s blk l => let x := stsplitAccs s blk l g (ty.width / 8) a b
      (splitBad g a l).isNone && s.unblocked blk x && (s.mapped blk x).roomFor blk ((s.mapped blk x).splitStores blk l (ty.width / 8) c x))
    (fun s blk l => let x := stsplitAccs s blk l g (ty.width / 8) a b
      (s.mapped blk x).storedAll blk sc false ((s.mapped blk x).splitStores blk l (ty.width / 8) c x))) ∧
  (∀ g ty a b c, Performs (lenOf [a, b, c]) (.sts g ty a b c)
    (fun s blk l => (s.checkAccs blk (stsAccs s blk l g (ty.width / 8) a b) fun _ => true).isNone)
    (fun s blk l => s.stsDone blk l ty c (stsAccs s blk l g (ty.width / 8) a b)))

/-- PREF, CMAINT, WAITP and XLAT, the return of a load to scratchpad and the eviction of a line do what R234 to R238 and R244 say. That
CMAINT's write-backs and discards happen whole as it issues is the model's reading, since R235 lets them complete at any time before a
FENCE that waits for them (log entry 25, DEDUCED). -/
def Obligations.CacheAndPathOperationsComplete : Prop :=
  (∀ g k a b, Performs (lenOf [a, b]) (.pref g k a b) (fun _ _ _ => true)
    (fun s blk l => (prefAccs s blk l g a b).foldl (fun t x => t.prefOne k (t.physOf (s.lrOf blk).ctx x)) s)) ∧
  (∀ g sc k a b, Performs (lenOf [b]) (.cmaint g sc k a b)
    (fun s blk l => l.all fun x => x.part_ g == 0 || isOk (cmaintSegs s blk k a b x))
    (fun s blk l => cmaintDone s blk l g sc k a b)) ∧
  (∀ g (path : Fin 6) a, Performs (lenOf [a]) (.waitp g path a)
    (fun s blk l => l.all fun x => x.part_ g == 0 ||
      decide ((blk.share x.share).path path.val ≤ (svalOf (s.envOf blk x) x a).toNat % 2 ^ 16))
    (fun s _ _ => s)) ∧
  (∀ g d a (s : State) (b : Block) (l : List Slice), s.issuing = some (b, l) → s.goes (lenOf [a]) = true →
    exec (.xlat g d a) s = .next (s.after b l (lenOf [a]) fun x =>
      x.when g fun x => x.setS g d (s.xlatWord (s.lrOf b).ctx (svalOf (s.envOf b x) x a).toNat false))) ∧
  (∀ (s : State) (c : Cmd) (ps : List (Far × Nat)) (ws : List (Nat × List Byte)) (blk k : Nat), s.cmds.find? (fun x => x.id == c.id) = some c →
    c.kind = .scratch ps ws → c.block = some blk → c.path = some k →
    exec (.scratchLoadReturn c.id) s = .next
      (let t := s.modShare blk c.share (fun sh => (ws.foldl (fun sh w => sh.write w.1 w.2) sh).returnPath k c.id)
       ({ t with
         cmds := s.cmds.filter fun x => x.id != c.id
         mem := { t.mem with poison := s.mem.poison.filter fun z => !(t.landKeys blk c.share ws).contains z } } : State).answered c.id)) ∧
  (∀ (s : State) (line : Nat), exec (.heldStoreEviction line) s = .next { s with mem := (s.mem.publishLine none line).evict line })

/-- A global access is where A and B put it, and a load writes the bytes found there to its lane's register and nothing else (R224,
R225, R230): stated of 32-bit loads to lane registers that are no acquire. -/
def Obligations.LoadWritesWhatItReads : Prop :=
  ∀ (g : Guard) (ty : Ty) (sc : Scope) (k : MemKind) (r : BitVec 8) (a b : Opd) (s : State) (blk : Block) (l : List Slice),
    ty.width = 32 → k ≠ .sync → s.issuing = some (blk, l) → s.goes (lenOf [a, b]) = true →
    s.unblocked blk (loadAccs s blk l g 4 (.v r) a b .none) = true →
    ∃ t, exec (.ld g ty sc k (.v r) a b .none) s = .next t ∧
      (∀ x ∈ l, ∀ j ∈ lanes (x.part_ g),
        let e := s.envOf blk x
        let ea := wrapTo 64 ((valOf e x j 64 a : Int) + offsetOf e x j b)
        ∃ p, s.phys? (s.lrOf blk).ctx ea = .ok p ∧
          (t.now blk x).rv r.toNat j = BitVec.ofNat 32 (leNat (s.loadBytes blk x p 4))) ∧
      -- and nothing else of the registers or of memory
      (∀ x ∈ l, ∀ n j, j < 4 → (n ≠ r.toNat ∨ j ∉ lanes (x.part_ g)) → (t.now blk x).rv n j = x.rv n j) ∧
      (∀ x ∈ l, (t.now blk x).s = x.s ∧ (t.now blk x).p = x.p ∧ (t.now blk x).flg = x.flg ∧ (t.now blk x).fmt = x.fmt) ∧
      ∀ o key, t.mem.readAs o key = s.mem.readAs o key

/-- A store changes the bytes that its accesses reach, those of a DUP2 page on both planes, and no other byte of memory but what the
slices themselves still held there, which a wider store publishes (R225, R227, R244, R266); every register stays. -/
def Obligations.StoresKeepOtherBytes : Prop :=
  let keeps (i : Instr) (n : Nat) (ok : State → Block → List Slice → Bool)
      (stores : State → Block → List Slice → List (Slice × Phys × List (Option Byte))) : Prop :=
    ∀ (s : State) (b : Block) (l : List Slice), s.issuing = some (b, l) → s.goes n = true → ok s b l = true →
      s.roomFor b (stores s b l) = true →
      ∃ t, exec i s = .next t ∧
        (∀ o key, (∀ x ∈ stores s b l, ∀ k < x.2.2.length, s.keyOf x.2.1 k ≠ key ∧
            ∀ q, partnerOf x.2.1.pte = some q → switchKey q (x.2.1.pa + k) ≠ key) →
          (∀ h ∈ s.mem.held, h.key = key → h.block = b.uid → ∀ x ∈ l, h.slice ≠ x.num) →
          t.mem.readAs o key = s.mem.readAs o key) ∧
        ∀ x ∈ l, (t.now b x).v = x.v ∧ (t.now b x).s = x.s ∧ (t.now b x).p = x.p ∧ (t.now b x).flg = x.flg ∧ (t.now b x).fmt = x.fmt
  (∀ g ty sc k a b c, keeps (.st g ty sc k a b c) (lenOf [a, b, c])
    (fun s blk l => s.unblocked blk (stAccs s blk l g ty a b) && !stWaits s blk sc k (stAccs s blk l g ty a b))
    fun s blk l => (s.mapped blk (stAccs s blk l g ty a b)).storesOf blk l (stAccs s blk l g ty a b) (stData s blk l ty c)) ∧
  (∀ g ty sc g4 a b c, keeps (.stw g ty sc g4 a b c) (lenOf [a, b]) (fun s blk l => s.unblocked blk (stwAccs s blk l g (wideBytes ty g4) a))
    fun s blk l => (s.mapped blk (stwAccs s blk l g (wideBytes ty g4) a)).storesOf blk l (stwAccs s blk l g (wideBytes ty g4) a)
      (stwData s blk l (wideBytes ty g4) b c)) ∧
  (∀ g ty sc a b c, keeps (.stsplit g ty sc a b c) (lenOf [b])
    (fun s blk l => (splitBad g a l).isNone && s.unblocked blk (stsplitAccs s blk l g (ty.width / 8) a b))
    fun s blk l => (s.mapped blk (stsplitAccs s blk l g (ty.width / 8) a b)).splitStores blk l (ty.width / 8) c
      (stsplitAccs s blk l g (ty.width / 8) a b))

/-- The checks of R226 row by row: the first row that fails in any lane decides, at its lowest failing position, with the failing
lanes of each slice; and an instruction whose accesses fail takes that event and does nothing. The table of R226 has five rows: that
DETX (R223, R259) and MEMUE (R281) come after them, as rows 6 and 7, is the model's choice (log entry 61). -/
def Obligations.FirstFailingRowDecides : Prop :=
  (∀ (s : State) (b : Block) (accs : List Acc) (ok : Phys → Bool) (k : Nat) (a : Acc) (e : Ev), k ∈ [1, 2, 3, 4, 5, 6, 7] →
    (∀ j ∈ [1, 2, 3, 4, 5, 6, 7], j < k → ∀ x ∈ accs, s.rowFails b ok j x = none) →
    accs.find? (fun x => (s.rowFails b ok k x).isSome) = some a → s.rowFails b ok k a = some e →
    s.checkAccs b accs ok = some { e with lanes := lanesOfAccs (accs.filter fun x => (s.rowFails b ok k x).isSome) } ∧
    (k = 1 → e.code = 0x03) ∧ (k = 2 → e.code = 0x05 ∧ e.detail = 0x03) ∧ (k = 3 → e.code = 0x04) ∧ (k = 4 → e.code = 0x05) ∧
    (k = 5 → e.code = 0x09 ∨ e.code = 0x0A) ∧ (k = 6 → e.code = 0x07) ∧ (k = 7 → e.code = 0x08)) ∧
  (∀ (s : State) (blk : Block) (l : List Slice) (e : Ev), s.issuing = some (blk, l) → s.plain = true →
    (∀ g ty sc k d a b c, s.checkAccs blk (loadAccs s blk l g (ty.width / 8) d a b c) (fun _ => true) = some e →
      exec (.ld g ty sc k d a b c) s = .next (s.raise e)) ∧
    (∀ g ty sc k a b c, s.checkAccs blk (stAccs s blk l g ty a b) (fun _ => true) = some e →
      exec (.st g ty sc k a b c) s = .next (s.raise e)) ∧
    (∀ g ty sc g4 d a b c, s.checkAccs blk (loadAccs s blk l g (wideBytes ty g4) d a b c) (fun _ => true) = some e →
      exec (.ldw g ty sc g4 d a b c) s = .next (s.raise e)) ∧
    (∀ g ty sc g4 a b c, s.checkAccs blk (stwAccs s blk l g (wideBytes ty g4) a) (fun _ => true) = some e →
      exec (.stw g ty sc g4 a b c) s = .next (s.raise e)) ∧
    (∀ g ty sc d a b, splitBad g a l = none → s.checkAccs blk (ldsplitAccs s blk l g (ty.width / 8) a b) (fun _ => true) = some e →
      exec (.ldsplit g ty sc d a b) s = .next (s.raise e)) ∧
    (∀ g ty sc a b c, splitBad g a l = none → s.checkAccs blk (stsplitAccs s blk l g (ty.width / 8) a b) (fun _ => true) = some e →
      exec (.stsplit g ty sc a b c) s = .next (s.raise e)) ∧
    -- an atomic may not reach an OPM window (R266)
    (∀ g ty op sc d a b c, s.checkAccs blk (atomAccs s blk l g ty d a b c) (fun p => Pte.tgt p.pte != 5) = some e →
      exec (.atom g ty op sc d a b c) s = .next (s.raise e)) ∧
    (∀ g ty op sc a b, s.checkAccs blk (atomAccs s blk l g ty .none a b .none) (fun p => Pte.tgt p.pte != 5) = some e →
      exec (.redm g ty op sc a b) s = .next (s.raise e)) ∧
    (∀ g sc d a b, s.checkAccs blk (atomcAccs s blk l g d a b) (fun p => Pte.tgt p.pte != 5) = some e →
      exec (.atomc g sc d a b) s = .next (s.raise e)) ∧
    (∀ g ty n sc d a b c, s.checkAccs blk (atomwAccs s blk l g (atomwSize ty n) d a) (fun p => Pte.tgt p.pte != 5) = some e →
      exec (.atomw g ty n sc d a b c) s = .next (s.raise e)) ∧
    (∀ g ty d a b, s.checkAccs blk (ldsAccs s blk l g (ty.width / 8) d a b) (fun _ => true) = some e →
      exec (.lds g ty d a b) s = .next (s.raise e)) ∧
    (∀ g ty a b c, s.checkAccs blk (stsAccs s blk l g (ty.width / 8) a b) (fun _ => true) = some e →
      exec (.sts g ty a b c) s = .next (s.raise e)))

/-- What every load sees and what lies at the stack differ only where a cache holds the line: a store is seen at once, a clean
brings it to the stack, an invalidation brings back what the stack holds (R228, R235, R297). A line lies dirty in one cache, and what
another cache writes there brings what it held to the stack (log entry 25). CMAINT brings a store that is held within its scope to the
stack, and leaves a line that is dirty outside its scope as it is (R235, R261). -/
def Obligations.CacheAndStackBytes : Prop :=
  (∀ (m : Memory) (c : CachePlace) (key : Nat) (x : Byte), (m.pokeAt c key x).peek key = x) ∧
  (∀ (m : Memory) (c : CachePlace) (key k : Nat) (x : Byte), k ≠ key →
    (m.pokeAt c key x).peek k = m.peek k ∧ (isCached key = false → (m.pokeAt c key x).bankPeek k = m.bankPeek k)) ∧
  (∀ (m : Memory) (c : CachePlace) (key k : Nat) (x : Byte), isCached key = true →
    (m.pokeAt c key x).bankPeek k = if m.dirtyBeside c (lineOf key) = true ∧ lineOf k = lineOf key then m.peek k else m.bankPeek k) ∧
  (∀ (m : Memory) (c : CachePlace) (key : Nat) (x : Byte), isCached key = true →
    ((m.pokeAt c key x).clean (lineOf key)).bankPeek key = x ∧ ((m.pokeAt c key x).clean (lineOf key)).peek key = x) ∧
  (∀ (m : Memory) (h : HeldByte) (r : LaunchRec) (sc : Scope) (core : Nat), m.held = [h] → isCached h.key = true →
    scopeCovers r sc core h.place = true →
    let n := m.maintain r sc core .clean (lineOf h.key)
    n.bankPeek h.key = h.val ∧ n.peek h.key = h.val ∧ n.held = []) ∧
  (∀ (m : Memory) (x : Line) (r : LaunchRec) (sc : Scope) (core : Nat) (k : MaintKind), m.line? x.line = some x → x.dirty = true →
    scopeCovers r sc core x.place = false → (∀ h ∈ m.held, lineOf h.key ≠ x.line) → m.maintain r sc core k x.line = m) ∧
  (∀ (m : Memory) (key : Nat), m.wf = true → (m.inval (lineOf key)).peek key = m.bankPeek key) ∧
  (∀ (m : Memory) (key : Nat) (x : Byte), (m.bankPoke key x).bankPeek key = x) ∧
  (∀ (m : Memory) (key : Nat) (x : Byte), isCached key = true → (m.line? (lineOf key)).isSome = true →
    (m.bankPoke key x).peek key = m.peek key)

/-- A held store is seen by the slices inside its scope and by no other until it is published; a store or a release of a wider scope
publishes it (R243, R244). -/
def Obligations.HeldStoresAreSeenInTheirScope : Prop :=
  (∀ (m : Memory) (h : HeldByte) (o : Observer), h.sees o = true → (m.hold h).readAs (some o) h.key = h.val) ∧
  (∀ (m : Memory) (h : HeldByte) (o : Observer),
    (∀ x ∈ m.held, ¬ (x.key = h.key ∧ x.block = h.block ∧ x.slice = h.slice ∧ x.level = h.level)) →
    h.sees o = false → (m.hold h).readAs (some o) h.key = m.readAs (some o) h.key) ∧
  (∀ (m : Memory) (h : HeldByte), (m.hold h).readAs none h.key = m.readAs none h.key) ∧
  (∀ (m : Memory) (p : HeldByte → Bool), (m.publish p).held.all (fun h => !p h) = true) ∧
  (∀ (m : Memory) (h : HeldByte) (rest : List HeldByte) (p : HeldByte → Bool), m.held = h :: rest → p h = true →
    (m.publish p).readAs none h.key = h.val) ∧
  (∀ (s : State) (b : Block) (x : Slice) (sc : Scope), ∀ h ∈ (s.releaseHeld b x sc).mem.held,
    ¬ (h.block = b.uid ∧ h.slice = x.num ∧ h.level < publishTo (s.lrOf b) sc))

/-! ## Synchronisation -/

/-- FENCE and DSYNC publish what their slices hold in narrower scopes (R246, R258); BAR and its three other forms go on once the slices
that take part have arrived and, where they wait, their phase is over; what an arrival and the end of a phase do to a barrier, and
what a BAR that may not arrive raises (R248 to R250). -/
def Obligations.SynchronisationCompletes : Prop :=
  ((∀ g sc k, Performs 1 (.fence g sc k) (fun s b l => (fenceWaits s g b l (k != .acq)).isEmpty) fun s b l =>
     if k = .acq then s else overSlices s g b l fun s b x => s.releaseHeld b x sc) ∧
   (∀ g, Performs 1 (.dsync g) (fun s b l => (fenceWaits s g b l true).isEmpty) fun s b l =>
     overSlices s g b l fun t b x => t.releaseHeld b x (.lvl (BitVec.ofNat 3 (s.lrOf b).blklv)))) ∧
  (let arrives (i : Instr) (g : Guard) (lv : BitVec 3) (form : BarForm) : Prop :=
     Performs 1 i
       (fun s b l => let k := barLevel (s.lrOf b) lv
         (firstEv g l (barBad (s.lrOf b) g k form)).isNone &&
           barDone (barMet s g k (form == .arriveDrop) (form == .full) b l) g k (form == .full) b l)
       (fun s b l => barMet s g (barLevel (s.lrOf b) lv) (form == .arriveDrop) (form == .full) b l)
   (∀ g lv, arrives (.bar g lv) g lv .full) ∧ (∀ g lv, arrives (.barArrive g lv) g lv .arrive) ∧
   (∀ g lv, arrives (.barArrivedrop g lv) g lv .arriveDrop) ∧
   (∀ g lv, Performs 1 (.barWait g lv)
     (fun s b l => let k := barLevel (s.lrOf b) lv
       (firstEv g l (barBad (s.lrOf b) g k .wait)).isNone && l.all fun x => x.part_ g == 0 || s.barOver b x k)
     (fun s _ _ => s))) ∧
  ((∀ x : Barrier, x.exp ≠ 0 → x.arr = x.exp →
     x.complete = { x with exp := x.exp - x.ndrop, arr := 0, ndrop := 0, phase := x.phase + 1 }) ∧
   (∀ x : Barrier, x.exp = 0 ∨ x.arr ≠ x.exp → x.complete = x) ∧
   (∀ (l : Launch) (k idx : Nat), l.bars = [] →
     l.bar k idx = { level := k, idx, exp := l.rcd.slicesIn k, arr := 0, ndrop := 0, phase := 0 }) ∧
   (∀ (s : State) (b : Block) (lr : Launch) (x : Slice) (k : Nat) (drop full : Bool), s.launch? b.launch = some lr → x.wait ≠ .bar k → x.wait ≠ .made →
     x.arrival k ≠ some (s.barOf b x k).phase →
     (s.barArrive k drop full b x).barOf b x k =
       { s.barOf b x k with
         arr := (s.barOf b x k).arr + 1, ndrop := (s.barOf b x k).ndrop + (if drop then 1 else 0) }) ∧
   (∀ (r : LaunchRec) (g : Guard) (k : Nat) (f : BarForm) (x : Slice),
     (k > r.top → ∃ e, barBad r g k f x = some e ∧ e.code = 0x01) ∧
     (k ≤ r.top → r.bind.getD (k - 1) 5 ≠ 5 → x.wait ≠ .bar k → x.wait ≠ .made → x.dropped k = true → ∃ e, barBad r g k f x = some e ∧ e.code = 0x01) ∧
     (k ≤ r.top → r.bind.getD (k - 1) 5 ≠ 5 → x.wait ≠ .bar k → x.dropped k = false → x.arrival k ≠ none → r.det = true → k > r.blklv →
       ∃ e, barBad r g k f x = some e ∧ e.code = 0x07)))

/-- QEND has the word that its rule writes out; in a deterministic launch it ends the slice's quantum, and in a normal launch it
retires without effect (R257). -/
def Obligations.QendEndsTheQuantum : Prop :=
  decodeTableWord 64 0xA8001FFFFFFFFE00 = some (.qend ⟨false, 0⟩) ∧
  (∀ g, Performs 1 (.qend g) (fun _ _ _ => true) fun s _ _ => s) ∧
  (∀ (g : Guard) (s : State) (b : Block) (l : List Slice), s.issuing = some (b, l) → s.whole = true → (s.lrOf b).det = true →
    (b.slices.map (fun x => x.num)).Nodup → (∀ x ∈ l, x.part_ g ≠ 0 ∧ x.inside 1 = true ∧ some x.pc = l.head?.map fun y => y.pc) →
    ∃ t, exec (.qend g) s = .next t ∧ ∀ x ∈ l,
      (t.now b x).qphase = .ended ∧ (t.now b x).quantum = 0 ∧ (t.now b x).pc = VA.plus x.pc 1 ∧ (t.now b x).clock = x.clock + 1)

/-- TLWAIT goes on once its counter has reached its threshold; TLREAD writes the counter, or with the constant 1 the operations
accepted (R252, R253). -/
def Obligations.TimelinesComplete : Prop :=
  (∀ g (t : BitVec 3) c, Performs (lenOf [c]) (.tlwait g t c)
    (fun s b l => !Opd.negSmall c && l.all fun x => x.part_ g == 0 ||
      decide ((svalOf (s.envOf b x) x c).toNat ≤ ((b.share x.share).timeline t.toNat).done))
    (fun s _ _ => s)) ∧
  (∀ g (t : BitVec 3) d (s : State) (b : Block) (l : List Slice), s.issuing = some (b, l) → s.goes 1 = true →
    exec (.tlread g t d .none) s = .next (s.after b l 1 fun x =>
      x.when g fun x => x.setS g d (BitVec.ofNat 64 ((b.share x.share).timeline t.toNat).done))) ∧
  (∀ g (t : BitVec 3) d (s : State) (b : Block) (l : List Slice), s.issuing = some (b, l) → s.goes 1 = true →
    exec (.tlread g t d (.small 17)) s = .next (s.after b l 1 fun x =>
      x.when g fun x => x.setS g d (BitVec.ofNat 64 ((b.share x.share).timeline t.toNat).accepted))) ∧
  -- a completion that runs ahead of a gap is counted once the gap is closed (R251)
  (∀ (x : Timeline), x.early = [] → x.complete (x.done + 1) = { x with done := x.done + 1 }) ∧
  (∀ (x : Timeline), x.early = [] → (x.complete (x.done + 2)).done = x.done ∧
    ((x.complete (x.done + 2)).complete (x.done + 1)).done = x.done + 2)

/-! ## Atomics -/

/-- ATOM, REDM, ATOMC and ATOMW perform their accesses in order of position and write the old values where D asks for them (R266 to
R273). -/
def Obligations.AtomicsComplete : Prop :=
  let performs (i : Instr) (n : Nat) (g : Guard) (sc : Scope) (at_ : State → Block → Scope) (k : Atomic)
      (accs : State → Block → List Slice → List Acc) : Prop :=
    Performs n i
      (fun s b l => (s.atomicEv g b l sc k (accs s b l)).isNone && !s.held_ (s.lrOf b).ctx (atomicTodo l (accs s b l)) &&
        !s.q1Full (s.lrOf b).ctx l (atomicTodo l (accs s b l)) && (s.atomicWants b l k (atomicTodo l (accs s b l))).isEmpty)
      (fun s b l => s.atomicDone g b l (at_ s b) k (accs s b l))
  (∀ g ty op sc d a b c, performs (.atom g ty op sc d a b c) (lenOf [a, b, c]) g sc (fun _ _ => sc) (atomForm ty op d b c)
    fun s blk l => atomAccs s blk l g ty d a b c) ∧
  (∀ g ty op sc a b, performs (.redm g ty op sc a b) (lenOf [a, b]) g sc (fun _ _ => sc) (redmForm ty op b)
    fun s blk l => atomAccs s blk l g ty .none a b .none) ∧
  (∀ g sc d a b, performs (.atomc g sc d a b) (lenOf [a, b]) g sc (fun s blk => atomcScope (s.lrOf blk) sc) (atomcForm d b)
    fun s blk l => atomcAccs s blk l g d a b) ∧
  (∀ g ty n sc d a b c, performs (.atomw g ty n sc d a b c) (lenOf [a]) g sc (fun _ _ => sc) (atomwForm (atomwSize ty n) d b c)
    fun s blk l => atomwAccs s blk l g (atomwSize ty n) d a)

/-- What one access of an atomic does to an ordinary page of a stack at PKG: the old value is what every load sees once the stores
held on the line are published, and the new one takes its place; a compare that fails writes nothing (R268, R270, R273). -/
def Obligations.AtomicReadsAndWritesOnce : Prop :=
  (∀ (s : State) (b : Block) (x : Slice) (p : Phys) (size : Nat) (f : Nat → Option Nat), Pte.tgt p.pte = 0 → Pte.ms p.pte = false →
    Pte.sl p.pte = true → (s.lrOf b).det = false → s.awaited x = [] → (∀ h ∈ s.mem.held, ∀ i < size, lineOf h.key ≠ lineOf (p.pa + i)) →
    let old := leNat ((List.range size).map fun i => s.mem.peek (p.pa + i))
    (s.atomicOne b x .pkg p size f).1 = old ∧
    (f old = none → ∀ k, (s.atomicOne b x .pkg p size f).2.mem.peek k = s.mem.peek k) ∧
    (∀ new, f old = some new → (∀ h ∈ s.mem.held, h.block = b.uid → h.slice ≠ x.num) →
      (∀ i < size, (s.atomicOne b x .pkg p size f).2.mem.peek (p.pa + i) = ((leBytes size new)[i]?).getD 0) ∧
      ∀ k, (k < p.pa ∨ p.pa + size ≤ k) → (s.atomicOne b x .pkg p size f).2.mem.peek k = s.mem.peek k)) ∧
  (∀ (ty : Ty) (m b c : Nat), ty ≠ .f32 →
    atomNew ty .add m b c = (m + b) % 2 ^ ty.width ∧ atomNew ty .xchg m b c = b ∧
    atomNew ty .cas m b c = (if m = b then c else m) ∧
    (atomNew ty .min m b c = m ∨ atomNew ty .min m b c = b) ∧
    readInt ty.isSigned ty.width (atomNew ty .min m b c) ≤ readInt ty.isSigned ty.width m ∧
    readInt ty.isSigned ty.width (atomNew ty .min m b c) ≤ readInt ty.isSigned ty.width b ∧
    readInt ty.isSigned ty.width m ≤ readInt ty.isSigned ty.width (atomNew ty .max m b c) ∧
    readInt ty.isSigned ty.width b ≤ readInt ty.isSigned ty.width (atomNew ty .max m b c))

/-- APPEND goes on at once where every count of a slice is 0, the slice's lanes then reading 0xFFFF_FFFF, and otherwise once its
grant has been made; the OAU grants a request that it may, and that no earlier one it may grant waits before, in one fetch-and-add on
the counter where its page now lies (R275, R276, R283). A grant gives each lane the counter as the lanes before it have left it, and leaves the sum, all modulo 2^32 (R275). -/
def Obligations.AppendsComplete : Prop :=
  ((∀ g d a b, Performs (lenOf [a, b]) (.append g d a b)
     (fun s blk l => (appendEv s g d a b blk l).isNone && !s.held_ (s.lrOf blk).ctx (atomicTodo l (appendReads s blk l g d a b)) &&
       appendReady s (appendSent s g d a b blk l) g d b blk l)
     (fun s blk l => appendDone s (appendSent s g d a b blk l) g d b blk l)) ∧
   (∀ (s : State) (counts : List (Nat × Nat)) (x : Slice), s.appendAt true counts x = .vals (counts.map fun c => (c.1, 0xFFFFFFFF))) ∧
   (∀ (s : State) (c : Cmd) (b : Block) (uid va : Nat) (p : Phys) (counts : List (Nat × Nat)),
     s.cmds.find? (fun x => x.id == c.id) = some c → c.kind = .grant va counts → c.block = some uid → s.block? uid = some b →
     s.phys? c.ctx va = .ok p → s.grantReady p = true → s.mayGrant b (s.logKey p 0) = true → s.askedBefore c.id (s.logKey p 0) = false →
     (∀ i < 4, s.keyOf p 0 + i ∉ s.mem.poison) →
     exec (.appendGrant c.id) s = .next
       (let key := s.keyOf p 0
        let m := s.mem.publishLine none (lineOf key)
        let r := grantVals (leNat ((List.range 4).map fun i => m.peek (key + i))) counts
        ({ s with
          mem := m.pokeMany ((leBytes 4 r.2).mapIdx fun i x => (key + i, x))
          cmds := s.cmds.map fun x => if x.id == c.id then { x with kind := .granted r.1 } else x } : State).storeTick b c.slice
          (s.logKey p 0)))) ∧
  (∀ (m : Nat) (counts : List (Nat × Nat)), m < 2 ^ 32 →
     (grantVals m counts).2 = (m + (counts.map fun c => c.2).sum) % 2 ^ 32 ∧
     (grantVals m counts).1.map (fun v => v.1) = counts.map (fun c => c.1) ∧
     ∀ (n : Nat) (v : Nat × Nat), (grantVals m counts).1[n]? = some v → v.2 = (m + ((counts.take n).map fun c => c.2).sum) % 2 ^ 32)

/-- SKOP.ENQ and SKOP.CHASE are performed by the skipper, and their reply reaches its register from the head of q1, where the register
still awaits it (R36, R277 to R279). That the skipper performs an operation at once when it is accepted, its reply coming later, is the
model's reading (DEDUCED, log entry 20): R279 gives that it is indivisible and what it replies. -/
def Obligations.SkipperOperationsComplete : Prop :=
  (∀ g d a b, Performs (lenOf [a, b]) (.skopEnq g d a b)
    (fun s blk l => (skopEv s g a 16 true (fun _ => false) blk l).isNone && !skopWaits s g a 16 true blk l &&
      isOk (skopRun s g d a 16 true (enqOp blk b) blk l))
    (fun s blk l => skopReplays (okOr s (skopRun s g d a 16 true (enqOp blk b) blk l)) g blk l)) ∧
  (∀ g d a b c, Performs (lenOf [a, b]) (.skopChase g d a b c)
    (fun s blk l => (skopEv s g a 8 false (fun x => chaseBad (chaseWord s blk c x)) blk l).isNone && !skopWaits s g a 8 false blk l &&
      isOk (skopRun s g d a 8 false (chaseOp blk b c) blk l))
    (fun s blk l => skopReplays (okOr s (skopRun s g d a 8 false (chaseOp blk b c) blk l)) g blk l)) ∧
  -- a reply at the head of q1: of an operation of this module's skippers, or of an atomic that a peer's has performed
  (∀ (s : State) (c : Cmd) (b : Block) (x : Slice) (uid t n : Nat), s.cmds.find? (fun y => y.id == c.id) = some c →
    c.block = some uid → c.tl = some (t, n) → s.block? uid = some b → b.slice? c.slice = some x → x.q1.head? = some c.id →
    let comes (ws : List RegWrite) (log : Bool) : Prop :=
      exec (.skipperReply c.id) s = .next (
        ({ ((s.modSlice uid c.slice fun y =>
            { (y.writeAll (y.awaitedWrites c.id ws)) with
              q1 := y.q1.filter (fun k => k != c.id), pend := y.pend.filter (fun p => p.2 != c.id)
              supA := if log then y.supA.reply c.id ws else y.supA }).modShare uid c.share
            fun sh => sh.completeTl t n) with
          cmds := s.cmds.filter fun y => y.id != c.id } : State).answered c.id)
    (∀ reply, c.kind = .skip reply → comes (match c.dst with | some r => [.s r reply] | none => []) true) ∧
    (∀ place va ws, c.kind = .far place va ws → comes ws false)) ∧
  -- a pointer that is not a multiple of 8, or that reaches past the page, ends ENQ before any write
  (∀ (s : State) (p : SkPage) (desc n head tail : Nat), s.skRead p desc = .ok head → s.skRead p (desc + 8) = .ok tail →
    (n % 8 ≠ 0 → s.skopEnq p desc n = .ok (skReply tail 4, s)) ∧
    (n % 8 = 0 → n + 8 > p.leaf.size → s.skopEnq p desc n = .ok (skReply tail 3, s)) ∧
    (n % 8 = 0 → n + 8 ≤ p.leaf.size → tail = 0 →
      s.skopEnq p desc n = .ok (skReply 0 0, ((s.skWrite p n 0).skWrite p desc n).skWrite p (desc + 8) n))) ∧
  (∀ (s : State) (p : SkPage) (koff key hops : Nat), 0 < hops → s.skopWalk p koff key hops 0 = .ok (0, 1)) ∧
  (∀ (s : State) (p : SkPage) (koff key x : Nat), s.skopWalk p koff key 0 x = .ok (x, 2)) ∧
  -- a node that matches ends the walk before its NEXT is read
  (∀ (s : State) (p : SkPage) (koff key hops x : Nat), x ≠ 0 → p.status x (koff + 8) = 0 → s.skRead p (x + koff) = .ok key →
    s.skopWalk p koff key (hops + 1) x = .ok (x, 0))

/-! ## The matrix side -/

/-- MZERO, MEMIT, MSAVE and MLOAD act on their tiles once the tasks before them have completed (R209 to R211). -/
def Obligations.TileInstructionsComplete : Prop :=
  (∀ g d, WorksOnTiles 1 (.mzero g d) g (fun _ _ => [tileOf d]) (fun _ _ _ => none) (mzeroOne d)) ∧
  (∀ g main d a b c, WorksOnTiles 1 (.memit g main d a b c) g (memitTiles (tileOf a))
    (fun s blk x => memitCheck (s.lrOf blk) true main (tileOf a) b c (memitTile (tileOf a) blk x) x) (memitOne g main d (tileOf a) b c)) ∧
  (∀ g a b, WorksOnTiles 1 (.msave g a b) g (fun _ _ => [tileOf a]) (fun s blk x => imageAt (s.lrOf blk) (imageOff b x)) (msaveOne a b)) ∧
  (∀ g d a, WorksOnTiles 1 (.mload g d a) g (fun _ _ => [tileOf d]) (fun s blk x => mloadCheck s d a blk x) (mloadOne d a))

/-- MBOBJ.INIT, ARRIVE and WAIT act on barrier objects, QPOST pushes a tile task, and the engines start tasks and end their chunks
(R196, R197, R205, R207, R208). Which phases a WAIT takes as completed modulo 2^16 is the model's choice (log entry 67). -/
def Obligations.TasksAndObjectsComplete : Prop :=
  (∀ g a b c, Performs (lenOf [c]) (.mbobjInit g a b c)
    (fun s blk l => (acting g l).all fun x => !initBad s a b c blk x && !initBusy s a b blk x)
    (fun s blk l => s.tileDone g blk l (initOne s a b c))) ∧
  (∀ g a b, Performs 1 (.mbobjWait g a b)
    (fun s blk l => (acting g l).all fun x => !waitBad s a blk x && waitIsOver s a b blk x)
    (fun s blk l => s.tileDone g blk l fun s _ _ => s)) ∧
  (∀ g a b, Sends (lenOf [b]) (.mbobjArrive g a b) g .m none
    (fun s blk x => if objVal s blk x a > 7 ||
      (let o := (blk.share x.share).obj (objVal s blk x a); !o.act || objVal s blk x b ≥ o.cnt) then some Ev.own else none)
    (fun s blk x => [BitVec.ofNat 64 (objVal s blk x a), BitVec.ofNat 64 (objVal s blk x b)]) (fun _ => sendArrive)) ∧
  (∀ g a, Sends 1 (.qpostTask g a) g .m none (fun s b x => pushCheck (s.lrOf b) (eightOf x a) x.fmt.toNat)
    (fun _ _ x => eightOf x a ++ [x.fmt.setWidth 64]) (fun _ => sendPush)) ∧
  (∀ (s : State) (core : Nat) (t : Task), core < Config.cores → (s.tasks.filter fun t => t.core == core && t.running).length < 4 →
    s.tasks.find? (fun t => t.core == core && s.eligible t) = some t →
    exec (.tileTaskStart core) s =
      .next { s with tasks := s.tasks.map fun u => if u.id == t.id then { u with running := true } else u }) ∧
  (∀ (s : State) (t : Task) (b : Block) (x : Slice), s.tasks.find? (fun u => u.id == t.id) = some t → s.taskSlice t = some (b, x) →
    t.running = true → t.hold = none → s.taskEv t = none → s.taskFree t b = true →
    exec (.tileChunkEnd t.id) s = .next (s.chunkDone t b x))

/-- A push that passes its checks becomes a task with the next number of tl0 and claims its tiles, and through an object the position
that it fills; one that the queue or the object has no room for waits; one that the tile's or the object's state refuses raises the
event (R197, R205, R207). -/
def Obligations.PushesAreAcceptedOrRefused : Prop :=
  ∀ (s : State) (b : Block) (x : Slice) (id : Nat) (args : List Word),
    let t := taskOf (scalarBytes (args.take 8)) (args.getD 8 0).toNat
    (∀ e, t.stateCheck (s.lrOf b).det x.num (b.share x.share) = some e → sendPush s b x id args = .bad e) ∧
    (t.stateCheck (s.lrOf b).det x.num (b.share x.share) = none →
      (s.tasks.filter fun u => u.core == (b.share x.share).core && u.rcd.k != 0).length ≥ Config.taskQueue →
      sendPush s b x id args = .waits s) ∧
    (t.stateCheck (s.lrOf b).det x.num (b.share x.share) = none →
      (s.tasks.filter fun u => u.core == (b.share x.share).core && u.rcd.k != 0).length < Config.taskQueue → t.useobj = false →
      ∃ s' u, sendPush s b x id args = .done s' .none ∧ s'.tasks = s.tasks ++ [u] ∧ u.id = id ∧ u.rcd = t ∧ u.slice = x.num ∧
        u.running = false ∧ u.chunks = 0 ∧ s'.mem = s.mem ∧
        (s.block? b.uid = some b → x.share < b.shares.length → 0 < (b.share x.share).tls.length →
          u.num = ((b.share x.share).timeline 0).accepted + 1 ∧
          ∃ c, s'.block? b.uid = some c ∧ ((c.share x.share).timeline 0).accepted = u.num ∧
            (t.acc < (b.share x.share).tiles.length →
              (c.share x.share).tile t.acc = { (b.share x.share).tile t.acc with
                path := if t.fp then .fphi else .res
                g := if ((b.share x.share).tile t.acc).path = .empty then t.grid else ((b.share x.share).tile t.acc).g
                owner := some x.num }) ∧
            (t.fp = true → t.acc + 1 < (b.share x.share).tiles.length →
              ((c.share x.share).tile (t.acc + 1)).path = .fplo ∧ ((c.share x.share).tile (t.acc + 1)).owner = some x.num) ∧
            ∀ k, k ≠ t.acc → (t.fp = true → k ≠ t.acc + 1) → (c.share x.share).tile k = (b.share x.share).tile k)) ∧
    (t.stateCheck (s.lrOf b).det x.num (b.share x.share) = none →
      (s.tasks.filter fun u => u.core == (b.share x.share).core && u.rcd.k != 0).length < Config.taskQueue → t.useobj = true →
      (((b.share x.share).obj t.obj).fill t.seq (some id) = none → sendPush s b x id args = .waits s) ∧
      ∀ o, ((b.share x.share).obj t.obj).fill t.seq (some id) = some o →
        ∃ s' u, sendPush s b x id args = .done s' .none ∧ s'.tasks = s.tasks ++ [u] ∧ u.id = id ∧ u.rcd = t ∧ u.phase = o.2) ∧
    (t.fp = true → (b.share x.share).tile t.acc = Tile.reset → (b.share x.share).tile (t.acc + 1) = { Tile.reset with path := .res } →
      ∃ e, sendPush s b x id args = .bad e ∧ e.code = 0x01 ∧ e.check = 8)

/-- Residue words hold integers exactly: the three channels determine any n of the range that R187 gives, and a product added in each
channel is added to the integer (R184, R187, R202).
A tile that MSAVE's image holds comes back from it as it was, owner apart (R211). -/
def Obligations.ResiduesAndImagesAreExact : Prop :=
  ((∀ n : Int, -2144338943 ≤ n → n ≤ 2144338943 → crt (resOf n) = n) ∧
   (∀ a n : Int, resAdd (resOf a) n = resOf (a + n))) ∧
  (∀ (t : Tile) (o : Option Nat), t.g < 16 → t.bound < 2 ^ 64 →
     (tileOfImage t.image o).path = t.path ∧ (tileOfImage t.image o).g = t.g ∧ (tileOfImage t.image o).bound = t.bound ∧
     (tileOfImage t.image o).exc = t.exc ∧ (tileOfImage t.image o).owner = o ∧
     ∀ i < 256, (tileOfImage t.image o).word i = t.word i)

/-! ## Asynchronous copies, memory-side compute and user-mode queues -/

/-- CPY, CPYT, CBOOK, MCMP and MRED are checked and sent to their engines; QPOST claims a slot in its ring and writes its packet there
once the slot is free (R287 to R290, R294, R295, R298 to R300). That a QPOST looks at its whole ring as it issues is the model's reading
(log entry 69), and that a poisoned descriptor of CPYT raises nothing its choice (log entry 71). -/
def Obligations.AsyncCommandsAreSent : Prop :=
  (∀ g d a b c, Sends (lenOf [a, b, c]) (.cpy g d a b c) g .c (dstOf d) (fun s blk x => cpyCheck (s.lrOf blk) (argsOf [a, b, c] s blk x))
    (argsOf [a, b, c]) (fun _ => sendCpy (dstOf d))) ∧
  (∀ g ty cb d a, Sends (lenOf [a]) (.cpyt g ty cb d a) g .c (dstOf d) (cpytTrap ty cb a) (cpytDesc a)
    (fun r => sendCpyt r ty cb (dstOf d))) ∧
  (∀ g d a, Sends (lenOf [a]) (.cbook g d a) g .c (dstOf d) (fun s blk x => cbookCheck (s.lrOf blk) (argsOf [a] s blk x)) (argsOf [a])
    (fun _ => sendCbook (dstOf d))) ∧
  (∀ g ty r op a, Sends 1 (.mcmp g ty r op a) g .c none (fun s blk x => mcmpTrap s blk ty op (eightOf x a)) (fun _ _ x => eightOf x a)
    (fun _ => sendMcmp ty r op)) ∧
  (∀ g a, Performs (lenOf [a]) (.mred g a)
    (fun s blk l => let x := mredAccs s blk l g a
      let t := s.afterLoads blk false l x
      s.unblocked blk x && (gangTrap g (toSend g l) (mredTrap t blk x)).isNone &&
        allWent blk (toSend g l) (t.sendAll .c none (mredWords t blk x) sendMred blk.uid (toSend g l)))
    (fun s blk l => let x := mredAccs s blk l g a
      let t := s.afterLoads blk false l x
      okOr t (t.sendAll .c none (mredWords t blk x) sendMred blk.uid (toSend g l)))) ∧
  (∀ g d a b, Performs (lenOf [b]) (.qpost g d a b)
    (fun s blk l => !postHeld s g b blk l && (postEv s g a b blk l).isNone && !postWaits s g b blk l &&
      (postAbsent s g b blk l).isEmpty &&
      (let t := postClaim (postReads s g b blk l) g b blk l
       (t.takers g blk l).all (postFree t b blk) && isOk (postWrite t d a blk (t.takers g blk l))))
    (fun s blk l => let t := postClaim (postReads s g b blk l) g b blk l
      okOr t (postWrite t d a blk (t.takers g blk l))))

/-- What goes to the copy engine: a copy of no bytes completes at once with the status 0; any other takes the next number of tl1; one
that writes the slot takes a place on P2, and waits for it (R238, R286, R287, R292).
A copy within the slot whose ranges do not meet leaves each source byte at its destination, in whatever order it moves them and
whatever it reads them from (R287). -/
def Obligations.CopiesAreNumberedAndMove : Prop :=
  (∀ (s : State) (b : Block) (x : Slice) (id : Nat) (d : Option Nat) (dst src len : Word),
     let goes (path : Option Nat) : Prop :=
       (len = 0 → sendCpy d s b x id [dst, src, len] =
         .done ((s.publishHeldOf b x).instantCmd b x id 1 path) (.vals (match d with | some r => [.s r 0] | none => []))) ∧
       (len ≠ 0 → sendCpy d s b x id [dst, src, len] =
         .done ((s.publishHeldOf b x).launchCmd b x id 1 path d (.copy dst src len.toNat)) (.cmd id))
     ((caddrOf dst).scr = false → goes none) ∧
     ((caddrOf dst).scr = true → (b.share x.share).path 2 < 65535 → goes (some 2)) ∧
     ((caddrOf dst).scr = true → (b.share x.share).path 2 ≥ 65535 →
       sendCpy d s b x id [dst, src, len] = .waits (s.publishHeldOf b x)) ∧
     -- nothing that the slice still held in a narrower scope stays held (R244)
     ∀ h ∈ (s.publishHeldOf b x).mem.held, ¬ (h.block = b.uid ∧ h.slice = x.num)) ∧
  (∀ (s : State) (b : Block) (c share n : Nat) (draw : Nat → Word) (ms : List Move) (ov : CAddr → Bool), s.blocks.find? (fun x => x.uid == b.uid) = some b →
     share < b.shares.length → (∀ m ∈ ms, m.dst.scr = true ∧ ∃ a : CAddr, m.src = .from_ a ∧ a.scr = true ∧ ∀ k ∈ ms, k.dst.addr ≠ a.addr) →
     (ms.map fun m => m.dst.addr).Nodup →
     let o : Owner := { ctx := c, blk := some b, share }
     ∀ m ∈ ms, ∀ a, m.src = .from_ a → (s.runMoves o s ov draw n ms).copyRead o m.dst = s.copyRead o a)

/-- Copies, reductions, base-die arithmetic and queue packets complete as R291 to R293, R296, R299 and R300 say. -/
def Obligations.AsyncCommandsComplete : Prop :=
  (∀ (s : State) (c : Cmd), s.cmds.find? (fun x => x.id == c.id) = some c → c.kind.copies = true → s.copyWaits c = false →
    s.copySpans c = [] → exec (.copyComplete c.id) s = .next (s.copyDone c)) ∧
  (∀ (s : State) (c : Cmd) (b : RedBlock), s.cmds.find? (fun x => x.id == c.id) = some c → c.kind = .red b → c.hold = none →
    s.unitFree c.ctx b.faddr.toNat (b.dst :: b.srcs) (b.len * redSize b.fmt) = true →
    s.engineRoom c.ctx (flagStore b.faddr.toNat) = [] → s.unitDetx c b.dst b.srcs (b.len * redSize b.fmt) b.faddr.toNat = false →
    exec (.mredComplete c.id) s = .next ((s.unitTag c b.dst b.srcs (b.len * redSize b.fmt) b.faddr.toNat).unitDone c b.dst b.srcs (redSize b.fmt) b.len
      b.faddr b.fval (redElem b.op b.fmt))) ∧
  (∀ (s : State) (c : Cmd) (ty : Ty) (r : Rnd) (op : McmpOp) (a : McmpArgs), s.cmds.find? (fun x => x.id == c.id) = some c →
    c.kind = .mcmp ty r op a → c.hold = none →
    s.unitFree c.ctx a.faddr.toNat (a.dst :: mcmpSrcs op a) (a.n * (ty.width / 8)) = true →
    s.engineRoom c.ctx (flagStore a.faddr.toNat) = [] → s.unitDetx c a.dst (mcmpSrcs op a) (a.n * (ty.width / 8)) a.faddr.toNat = false →
    exec (.mcmpComplete c.id) s = .next ((s.unitTag c a.dst (mcmpSrcs op a) (a.n * (ty.width / 8)) a.faddr.toNat).unitDone c a.dst (mcmpSrcs op a)
      (ty.width / 8) a.n a.faddr a.fval (mcmpElem ty r op a.fill))) ∧
  (∀ (s : State) (u : UserQueue) (k : Nat) (bs : List Byte), s.sched.userQs.find? (fun x => x.id == u.id) = some u →
    s.uqBlocked u = false → s.uqEv u = none → (s.uqPolls u).uqSlot u = some (k, bs) → (s.uqPolls u).anyBlocked u.ctx (packetBlock bs) = false →
    exec (.queuePacketPickup u.id) s = .next (((s.uqPolls u).readsAll u.ctx (packetBlock bs)).pickUp u k bs)) ∧
  (∀ (s : State) (u : UserQueue) (p : Packet) (rest : List Packet) (nslot ring : Nat),
    s.sched.userQs.find? (fun x => x.id == u.id) = some u → u.inFlight = p :: rest → p.cmd = none →
    s.ctxRead u.ctx (u.header + 136) 4 = some nslot → s.ctxRead u.ctx (u.header + 144) 8 = some ring →
    s.engineHeld u.ctx (p.stores u nslot ring) = false → s.engineRoom u.ctx (p.stores u nslot ring) = [] →
    (s.flagEv u.ctx p.faddr).bind Ev.fatal = none →
    (s.wordsEv u p nslot ring = none → exec (.queuePacketComplete u.id) s = .next (s.packetDone u p nslot ring)) ∧
    ∀ e, s.wordsEv u p nslot ring = some e → exec (.queuePacketComplete u.id) s = .next (s.queueFault u e))

/-! ## Spans and the switch allocator -/

/-- SPANCTL, SPANQ and SPANFET act on the span that A names, and the span cache's own events move spans through their states (R304,
R313 to R319). SPANQ completes in the quanta of a deterministic launch too, where its word has STATE and COUNT zero (R318). That a SPANQ
keeps its word in its slice's log is the model's reading (log entry 72); R305 gives a span cache its base and size, and its division
into frames of 64 KiB and which copy lies in which is the model's choice (log entry 30). -/
def Obligations.SpanInstructionsComplete : Prop :=
  let ctl (n : Nat) (i : Instr) (g : Guard) (a : Opd) (bad : Env → Slice → Bool) (f : State → Block → Slice → Nat → State) : Prop :=
    Performs n i
      (fun s b l => (s.spanTrap b g false true a l).isNone && (acting g l).all fun x => !bad (s.envOf b x) x)
      (fun s b l => overSlices s g b l fun t b x => f t b x (t.spanAt b x a))
  (∀ g a b, ctl (lenOf [a, b]) (.spanctlCap g a b) g a (capBad b) (capOne b)) ∧
  (∀ g a b, ctl (lenOf [a, b]) (.spanctlPol g a b) g a (polBad b) (polOne b)) ∧
  (∀ g a, ctl (lenOf [a]) (.spanctlEvict g a) g a (fun _ _ => false) evictOne) ∧
  (∀ (g : Guard) (d a : Opd) (s : State) (b : Block) (l : List Slice), s.issuing = some (b, l) → s.runs (lenOf [a]) = true →
    s.spanTrap b g true false a l = none →
    let det := (s.lrOf b).det
    exec (.spanq g d a) s = .next (s.after b l (lenOf [a]) fun x =>
      x.when g fun x => x.queried det (putWrites d false 64 0 ((s.spanSeen b x (s.spanAt b x a)).word det).toNat))) ∧
  (∀ (p : Span) (det : Bool), p.cap ≤ 256 → p.cocoon.length ≤ 256 →
    let w := p.word det
    w.extractLsb' 23 9 = BitVec.ofNat 9 p.cap ∧ w.extractLsb' 14 9 = (if det then 0 else BitVec.ofNat 9 p.cocoon.length) ∧
    w.extractLsb' 4 4 = p.pol ∧ w.extractLsb' 0 2 = (if det then 0 else BitVec.ofNat 2 p.st.code) ∧
    w.extractLsb' 32 32 = 0 ∧ w.extractLsb' 8 6 = 0 ∧ w.extractLsb' 2 2 = 0) ∧
  (∀ g d a b,
    let at_ (s : State) (blk : Block) (x : Slice) : Nat := (svalOf (s.envOf blk x) x a).toNat
    let len (s : State) (blk : Block) (x : Slice) : Nat := (svalOf (s.envOf blk x) x b).toNat
    let sent (s : State) (blk : Block) (l : List Slice) : Except (Slice × Ev) State :=
      s.sendAll .c (dstOf d) (argsOf [a, b] s blk) (sendSpanfet (dstOf d)) blk.uid (toSend g l)
    Performs (lenOf [a, b]) (.spanfet g d a b)
      (fun s blk l => (gangTrap g l fun x => fetchLong (Opd.negSmall b) (at_ s blk x) (len s blk x)).isNone &&
        (gangTrap g (toSend g l) fun x => evOf (s.fetchPages (s.lrOf blk).ctx (at_ s blk x) (len s blk x))).isNone &&
        (cmdLogFull g .c (dstOf d) (toSend g l)).isNone && allWent blk (toSend g l) (sent s blk l))
      (fun s blk l => okOr s (sent s blk l))) ∧
  (∀ (s : State) (n f : Nat), (s.span n).st = .fetching → s.freeFrame n = some f →
    exec (.spanFetchArrival n) s = .next (s.spanArrives (s.span n) f) ∧
    -- a frame of a context's span cache, and of no other span (R305)
    (∃ x ∈ s.ctxs, x.hasFrame f = true) ∧ ∀ p ∈ s.spans, p.frame ≠ some f) ∧
  (∀ (s : State) (n : Nat), (s.span n).st = .resident → (s.span n).pin = false → s.spanWanted n = false →
    exec (.spanReplacement n) s = .next (s.setSpan { s.span n with st := .evicting })) ∧
  (∀ (s : State) (n : Nat), (s.span n).st = .evicting → exec (.spanEvictionComplete n) s = .next (s.spanLeaves (s.span n)))

/-- A span's T1 copy is its T2 bytes with the cocoon's entries applied one after another, and a cocoon's entries stand in ascending
SEQ; an evicted span's copy goes back to T2 (R307, R313, R314); compaction keeps what a cocoon does to its span (R310). -/
def Obligations.SpansCarryTheirBytes : Prop :=
  ((∀ (s : State) (n f k : Nat) (b : Cells Byte), s.mem.wf = true → k < 2 ^ 16 → n < 2 ^ 25 → f + 2 ^ 16 ≤ 2 ^ 39 →
     (∀ e ∈ (s.span n).cocoon, e.off + e.bytes ≤ 2 ^ 16) → Cells.wf 0 b = true →
     (∀ i, i < 2 ^ 16 → Cells.get 0 b i = s.mem.peek (t2Key (n * 2 ^ 16 + i))) →
     (s.spanArrives (s.span n) f).mem.peek (t1Key false (f + k)) =
       Cells.get 0 ((s.span n).cocoon.foldl (fun c e => e.apply c) b) k) ∧
   (∀ (p : Span) (e : CocoonEntry), p.cocoon.Pairwise (fun x y => x.seq < y.seq) → (∀ x ∈ p.cocoon, x.seq < p.seq) →
     (p.append e).cocoon.Pairwise (fun x y => x.seq < y.seq) ∧ ∀ x ∈ (p.append e).cocoon, x.seq < (p.append e).seq) ∧
   (∀ (s : State) (n f k : Nat) (e : CocoonEntry), s.mem.wf = true → (s.span n).st = .fetching → (s.span n).cocoon = [e] → e.op = 1 →
     e.off + 2 ^ e.sz ≤ 2 ^ 16 → e.sz ≤ 3 → k < 2 ^ e.sz → n < 2 ^ 25 → f + 2 ^ 16 ≤ 2 ^ 39 →
     (s.spanArrives (s.span n) f).mem.peek (t1Key false (f + e.off + k)) = e.data.extractLsb' (8 * k) 8) ∧
   (∀ (s : State) (p : Span) (f k : Nat), s.mem.wf = true → p.frame = some f → f + 2 ^ 16 ≤ 2 ^ 39 → k < 2 ^ 16 → p.num < 2 ^ 25 →
     (∀ h ∈ s.mem.held, t1Off f h.key = none) →
     (s.spanLeaves p).mem.peek (t2Key (p.num * 2 ^ 16 + k)) = s.mem.peek (t1Key false (f + k)))) ∧
  (∀ (fp : Bool) (i j : CocoonEntry), i.sound → j.sound →
     let same := i.op = j.op ∧ i.off = j.off ∧ i.sz = j.sz
     (j.op = 1 → j.covers i = true → compactPair fp i j = some none) ∧
     (i.op = 1 → i.covers j = true → ¬ (j.op = 1 ∧ j.covers i = true) →
       ∃ x, compactPair fp i j = some (some { i with data := x, seq := j.seq, det := j.det })) ∧
     (same → i.op ∈ [2, 3, 4, 5, 6, 7, 8, 0xA, 0xB] → ∃ x, compactPair fp i j = some (some { j with data := x })) ∧
     (same → i.op = 9 → compactPair fp i j = if fp && !i.det && !j.det then
       some (some { j with data := BitVec.ofNat 64 (Fmt.f32.add .rne (i.data.toNat % 2 ^ 32) (j.data.toNat % 2 ^ 32)).1 }) else none) ∧
     (i.op = 0xC → j.op = 0xC → compactPair fp i j = none) ∧
     -- whatever a pair becomes, but for a sum of two FADDs, it does to every byte what the two did
     (∀ r, compactPair fp i j = some r → ¬ (i.op = 9 ∧ j.op = 9) → ∀ (b : Cells Byte) (k : Nat),
       Cells.get 0 (j.apply (i.apply b)) k = Cells.get 0 ((r.getD j).apply b) k)) ∧
  -- so does a whole compaction, which leaves nothing that it could still join
  (∀ (p : Span), (∀ e ∈ p.cocoon, e.sound) →
     p.compact.cocoon.length ≤ p.cocoon.length ∧ p.compact.compact = p.compact ∧
     (p.fpmerge = false ∨ (∀ e ∈ p.cocoon, e.op ≠ 9) → ∀ (b : Cells Byte) (k : Nat),
       Cells.get 0 (p.compact.cocoon.foldl (fun c e => e.apply c) b) k = Cells.get 0 (p.cocoon.foldl (fun c e => e.apply c) b) k))

/-- SALLOC and SFREE go to the allocator at once and answer what R323 and R324 say; an allocation's bytes are zero on each of its planes,
and a free makes every address of it unmapped and leaves the other allocations as they are (R322, R324). That QUOTA is looked at before the other statuses is log entry 31. -/
def Obligations.SwitchAllocationsComplete : Prop :=
  (∀ g dup d a b, Sends (lenOf [a, b]) (.salloc g dup d a b) g .c (dstOf d)
    (fun s blk x => sallocBad false dup (svalOf (s.envOf blk x) x a) (svalOf (s.envOf blk x) x b)) (argsOf [a, b])
    (fun _ => sendSalloc dup (dstOf d))) ∧
  (∀ g d a, Sends (lenOf [a]) (.sfree g d a) g .c (dstOf d) (fun _ _ _ => none) (argsOf [a]) (fun _ => sendSfree (dstOf d))) ∧
  (∀ (s : State) (c : Nat) (dup : Bool) (size : Nat) (pl : Word),
    s.tenantBytes (s.ctx c).tenant + (if dup then 2 * switchSize size else switchSize size) > s.quota (s.ctx c).tenant →
    s.salloc c dup size pl = (1, s)) ∧
  (∀ (s : State) (c : Nat) (dup : Bool) (size : Nat) (pl : Word) (a : Alloc),
    (s.salloc c dup size pl).2.fabric.allocs = s.fabric.allocs ++ [a] →
    (s.salloc c dup size pl).1 = BitVec.ofNat 64 a.base ∧ a.ctx = c ∧ a.size = switchSize size ∧ a.partner.isSome = dup ∧ a.lost = false ∧
    ∀ q ∈ a.plane :: a.partner.toList, ∀ k < a.size,
      (s.salloc c dup size pl).2.mem.peek (switchKey q (a.pa + k)) = 0 ∧
      switchKey q (a.pa + k) ∉ (s.salloc c dup size pl).2.mem.poison) ∧
  (∀ (s : State) (c base : Nat), (∀ a ∈ s.fabric.allocs, ¬ (a.ctx = c ∧ a.base = base)) → s.sfree c base = (5, s)) ∧
  (∀ (s : State) (a : Alloc), s.allocsApart → a ∈ s.fabric.allocs → (s.sfree a.ctx a.base).1 = 0 ∧
    (s.sfree a.ctx a.base).2.fabric.allocs = s.fabric.allocs.filter (fun x => x != a) ∧
    ∀ va, va < 2 ^ 57 → (s.ctx a.ctx).inWindow va = true → a.base ≤ va → va < a.base + a.size →
      (s.sfree a.ctx a.base).2.walk a.ctx va = .error .invalid) ∧
  -- the allocations of a context share no address, from reset on and whatever is allocated and freed
  State.reset.allocsApart ∧
  (∀ (s : State) (c : Nat) (dup : Bool) (size : Nat) (pl : Word), 0 < size → s.allocsApart → (s.salloc c dup size pl).2.allocsApart) ∧
  (∀ (s : State) (c base : Nat), s.allocsApart → (s.sfree c base).2.allocsApart)

/-! ## Collectives -/

/-- COLL waits for its group; the last slice to arrive performs it once, at once or through the collective engine, wherever R336
raises nothing and no slice's log is full (R301, R335, R336, R337, R347). Slices that stand at different addresses or hold different
values of C raise ILLOP in every gang of the group (R335), and the first row of R336 that fails does in the same way. CINST.START opens its instances and QUERY writes the job's word, or what its log holds of it (R332,
R347). A collective that its engine carries out reads and sends first, and writes its status last (R337); an RSEND whose chunks'
flags have not reached this module does not complete (R338, R344). -/
def Obligations.CollectivesComplete : Prop :=
  let coll (g : Guard) (i : Instr) (op : CollOp) (ty : Ty) (mode : Nat) (d a rb c : Opd) : Prop :=
    (∀ (s : State) (b : Block) (l : List Slice), s.issuing = some (b, l) → (s.lrOf b).det = true →
      exec i s = .next (s.raise { Ev.detx with check := 1, lanes := l.map fun x => (x.num, x.part_ g) })) ∧
    ∀ (s t : State) (b b' : Block) (l : List Slice), s.issuing = some (b, l) → (s.lrOf b).det = false →
      s.retireEv b l 1 = none → l.all (fun x => x.again .c) = false → t = s.modBlock b.uid (fun y => y.putSlices (collHeld l)) → t.block? b.uid = some b' →
      let group := t.groupOf b' (l.headD default)
      let w := collPair c (group.headD default)
      let reqs := collReqs t b' g op a rb c group
      let job := bitsOf w.2.toNat 50 6
      let skew := bitsOf w.2.toNat 0 40 % (1024 * elemSize ty) != 0 || (caddrOf w.1).addr % elemSize ty != 0
      (group.all (fun x => x.wait == .coll && !x.again .c) = false → exec i s = .next t) ∧
      let checked := t.collCheck (t.lrOf b').ctx (t.lrOf b').det (t.lrOf b').slotBytes op ty mode job (collForm w.1 w.2) skew reqs
      (group.all (fun x => x.wait == .coll && !x.again .c) = true → collAgree c group = false →
        exec i s = .next (t.raiseGroup b' group { Ev.own with lanes := collLanes g group 0 [] })) ∧
      (group.all (fun x => x.wait == .coll && !x.again .c) = true → collAgree c group = true → ∀ e bad, checked = some (e, bad) →
        exec i s = .next (t.raiseGroup b' group { e with lanes := collLanes g group e.check bad })) ∧
      (group.all (fun x => x.wait == .coll && !x.again .c) = true → collAgree c group = true → checked = none →
        let full := (dstOf d).isSome && group.any fun x => !x.handling && x.supC.full
        (full = true → exec i s = .next (t.raiseGroup b' group { Ev.illop with detail := 0x07, lanes := collLanes g group 0 [] })) ∧
        (full = false → reqs.any (fun x => !(t.job job).list.contains x.peer) = true →
          exec i s = .next (t.collNow b' group d (statusWord 2 0))) ∧
        (full = false → reqs.any (fun x => !(t.job job).list.contains x.peer) = false →
          (reqs = [] ∨ bitsOf w.2.toNat 0 40 = 0 → exec i s = .next (t.collNow b' group d (statusWord 0 0))) ∧
          (reqs ≠ [] → bitsOf w.2.toNat 0 40 ≠ 0 → exec i s = .next (t.collSent b' group d (t.collCmd op ty mode job reqs)))))
  -- the rows of R336, each with its event and its number
  (∀ (s : State) (c : Nat) (det : Bool) (slot : Nat) (op : CollOp) (ty : Ty) (mode job : Nat) (form skew : Bool) (l : List CollReq),
    let j := s.job job
    let rs := op == .rsend
    let rows : List (Bool × Nat × Nat) :=
      [(det, Ev.detx.code, 1), (!form || j.opened == 0 || (rs && (mode != j.mode || j.mode == 0)), Ev.illop.code, 2),
       (!(job < 64 && j.bound && j.ctx == c), Ev.perm.code, 3), (l.any (fun x => 512 ≤ x.peer), Ev.illop.code, 4),
       (rs && (skew || l.any fun x => x.remote.toNat % 4096 != 0 || x.len % (1024 * elemSize ty) != 0 || x.loc.addr % elemSize ty != 0),
         Ev.align.code, 5),
       (l.any (fun x => x.loc.scr && slot < x.loc.addr + x.len), Ev.perm.code, 6),
       (l.any (fun x => s.fabric.lostPeers.contains x.peer), Ev.peerlost.code, 7)]
    (s.collCheck c det slot op ty mode job form skew l).map (fun x => (x.1.code, x.1.check)) =
      (rows.find? fun r => r.1).map fun r => (r.2.1, r.2.2)) ∧
  (∀ g d a b c, coll g (.collSend g d a b c) .send .none 0 d a b c) ∧
  (∀ g d a b c, coll g (.collGet g d a b c) .get .none 0 d a b c) ∧
  (∀ g ty d a b c, coll g (.collRsend g ty .rns d a b c) .rsend ty 1 d a b c) ∧
  (∀ g ty d a b c, coll g (.collRsend g ty .fppair d a b c) .rsend ty 2 d a b c) ∧
  (∀ g d a b c, coll g (.collMcast g d a b c) .mcast .none 0 d a b c) ∧
  (∀ g d a, Performs (lenOf [a]) (.cinstStart g d a)
    (fun s b l =>
      let va (x : Slice) : Nat := (svalOf (s.envOf b x) x a).toNat
      !(cinstTodo g l).any (fun x => s.anyBlocked (s.lrOf b).ctx (s.cinstReads b x (va x))) &&
      (cinstTrap s g va b l).isNone && (cinstFull g l).isNone &&
      (((cinstTodo g l).foldl (cinstOne d va b) s).takers g b l).all (fun x => x.wait == .made))
    (fun s b l => (cinstTodo g l).foldl (cinstOne d (fun x => (svalOf (s.envOf b x) x a).toNat) b) s)) ∧
  (∀ (g : Guard) (d a : Opd) (s : State) (b : Block) (l : List Slice), s.issuing = some (b, l) → s.goes (lenOf [a]) = true →
    (∀ x ∈ l, (svalOf (s.envOf b x) x a).toNat ≤ 63 ∧ (x.handling = true ∨ x.supC.again = true ∨ x.supC.full = false)) →
    exec (.cinstQuery g d a) s = .next (s.after b l (lenOf [a]) fun x => x.when g fun x =>
      if x.again .c then x.replay .c
      else x.sent .c (dstOf d) (.vals (match dstOf d with
        | some r => [.s r ((s.job (svalOf (s.envOf b x) x a).toNat).word (s.lrOf b).ctx)]
        | none => [])))) ∧
  (∀ (s : State) (c : Cmd) (x : CollCmd) (r : RemoteResult) (data : List Byte),
    s.cmds.find? (fun y => y.id == c.id) = some c → c.kind = .coll x → s.collReady c x = true →
    s.copyRoom (s.ownerOf c) (s.collWrites (s.ownerOf c) x) = [] →
    (x.sent = false → exec (.collComplete c.id r data) s = .next (s.collFirst c x)) ∧
    (x.sent = true → s.collAwaits x r = false → exec (.collComplete c.id r data) s = .next (s.collLast c x r data)) ∧
    (x.sent = true → x.st ≠ 1 → x.st ≠ 3 → (∀ n, r ≠ .remote n) → s.flagsHere x = false →
      exec (.collComplete c.id r data) s = .next s))

/-- What other modules send has its effect where its instance is open, is kept where its instance is the next, and is answered where
this module may not serve it (R329, R332, R333, R339 to R344).
A request is performed once, and the same request again is answered from the record: of a peer's physical requests, where a window
admits them, no page is frozen and no byte that they read is poisoned; others are answered by name (R266, R281, R283, R401). That the
record is kept by source and tag is log entry 33. What the digest covers, how an announcement is compared, and that exponents and
contributions are acknowledged is the model's reading (log entry 32). -/
def Obligations.CollectiveTrafficIsHandled : Prop :=
  let seen (s : State) (o : Origin) : Option (Nat × Nat × Msg) := s.fabric.served.find? fun x => x.1 == o.src && x.2.1 == o.tag
  let fresh (s : State) (o : Origin) : Prop := seen s o = none ∧ (o.src, o.cmd) ∉ s.fabric.stopped
  (let gated (job seq : Nat) (i : Instr) (ok : State → Prop) (f : State → State) : Prop :=
     ∀ s : State, (s.job job).bound = true →
       ((s.job job).accepts seq = true → ok s → exec i s = .next (f s)) ∧
       ((s.job job).accepts seq = false → seq = seqAdd (s.job job).cur 1 →
         exec i s = .next (s.modJob job fun j => { j with buffered := j.buffered ++ [i] }))
   let room (s : State) (job : Nat) (l : List CAddr) : Prop := s.rangeWait (s.job job).ctx l = none
   (∀ (s : State) (job m seq : Nat) (d : BitVec 32), (s.job job).heard m seq = false →
      let t := s.modJob job fun j => { j with announced := { dev := m, seq := seq % 2 ^ 16, digest := d } :: j.announced }
      ((s.job job).bound = false ∨ (s.job job).opened = 0 ∨ d = (s.job job).digest →
        exec (.instanceAnnounceReceive job m seq d) s = .next t) ∧
      ((s.job job).bound = true → (s.job job).opened ≠ 0 → d ≠ (s.job job).digest →
        exec (.instanceAnnounceReceive job m seq d) s = .next (t.faultCtx (s.job job).ctx digestEv))) ∧
   (∀ o job seq y rank m e, gated job seq (.rnsExponentReceive ⟨o, job⟩ seq y rank e false)
     (fun s => fresh s o ∧ y.toNat % 4096 = 0 ∧ (s.job job).list[rank]? = some m ∧ s.chunkAllowed job seq m y .f32 = true ∧
       s.hasExp job seq y rank = false ∧ room s job (s.chunkWrites job seq y .f32))
     (fun s => (((s.takeExp job seq y rank e).answer o (.reply (some job) o.tag [])).agree job seq y).tryChunk job seq y)) ∧
   (∀ o job seq y rank m e, gated job seq (.rnsExponentReceive ⟨o, job⟩ seq y rank e true) (fun s => (s.job job).list[rank]? = some m)
     (fun s => s.exponentHere job seq m y e)) ∧
   (∀ job seq y (p : Contribution) m, gated job seq (.chunkContributionArrive job seq y p)
     (fun s => fresh s p.orig ∧ y.toNat % 4096 = 0 ∧ (s.job job).list[p.rank]? = some m ∧ s.chunkAllowed job seq m y p.ty = true ∧
       room s job (s.chunkWrites job seq y p.ty))
     (fun s => if (s.takePart job seq y p).1 then (s.takePart job seq y p).2.answer p.orig (.duplicate job seq y)
       else ((s.takePart job seq y p).2.answer p.orig (.reply (some job) p.orig.tag [])).tryChunk job seq y)) ∧
   (∀ job seq owner y f, gated job seq (.chunkFlagsReceive job seq ⟨owner, y, some f⟩)
     (fun s => (seq, owner, y) ∉ (s.job job).flagged) (fun s => s.modJob job fun j => j.note seq owner y f)) ∧
   (∀ job seq owner y, gated job seq (.chunkFlagsReceive job seq ⟨owner, y, none⟩) (fun _ => True)
     (fun s => s.faultCtx (s.job job).ctx Ev.memue)) ∧
   (∀ o job seq (va : Word) n p, gated job seq (.mcastLanding ⟨o, job⟩ seq va n)
     (fun s => fresh s o ∧ (∀ l ∈ s.fabric.landings, l.orig ≠ o) ∧ s.landingAt (s.job job).ctx o.src va.toNat n = some p)
     (fun s => (s.beginLanding o job p n).2)) ∧
   (∀ (s : State) (l : Landing) (data : List Byte), s.fabric.landings.find? (fun x => x.id == l.id) = some l → data.length = l.len →
     exec (.mcastLandingComplete l.id data) s = .next ((s.endLanding l data).answer l.orig (.reply (some l.job) l.orig.tag []))) ∧
   (∀ o job seq (va : Word) d, gated job seq (.remoteRequestReceive (.collWrite o job seq va d))
     (fun s => fresh s o ∧ s.peerRange (s.job job).ctx o.src va.toNat d.length true = true ∧ room s job (vaAddrs va.toNat d.length))
     (fun s => (s.vaWrite (s.job job).ctx va.toNat d).answer o (.reply (some job) o.tag []))) ∧
   (∀ o job seq (va : Word) n, gated job seq (.remoteRequestReceive (.collRead o job seq va n))
     (fun s => fresh s o ∧ s.peerRange (s.job job).ctx o.src va.toNat n false = true ∧
       s.copyHeld (engineOf (s.job job).ctx) (vaAddrs va.toNat n) = false ∧ s.vaPoison (s.job job).ctx va.toNat n = false)
     (fun s => (s.vaReads (s.job job).ctx va.toNat n).answer o (.reply (some job) o.tag (s.vaRead (s.job job).ctx va.toNat n)))) ∧
   -- what a peer may not have is refused, and stops its command here
   (∀ o job seq (va : Word) d, gated job seq (.remoteRequestReceive (.collWrite o job seq va d))
     (fun s => fresh s o ∧ s.peerRange (s.job job).ctx o.src va.toNat d.length true = false)
     (fun s => ({ s with fabric := { s.fabric with stopped := (o.src, o.cmd) :: s.fabric.stopped } } : State).answer o
       (.refuse (some job) o.tag))) ∧
   (∀ o job seq (va : Word) d, gated job seq (.remoteRequestReceive (.collWrite o job seq va d))
     (fun s => seen s o = none ∧ (o.src, o.cmd) ∈ s.fabric.stopped) (fun s => s.answer o (.refuse (some job) o.tag))) ∧
   (∀ o job seq (va : Word) d m, gated job seq (.remoteRequestReceive (.collWrite o job seq va d))
     (fun s => seen s o = some (o.src, o.tag, m)) (fun s => s.post o.src none m))) ∧
  (∀ (s : State) (r : RemoteReq) (src tag pa n : Nat) (w read : Bool),
     ((∃ k, r = .read src tag pa k ∧ n = k ∧ w = false ∧ read = true) ∨
      (∃ d, r = .write src tag pa d ∧ n = d.length ∧ w = true ∧ read = false) ∨
      (∃ ty op a c, r = .atom src tag ty op pa a c ∧ n = ty.width / 8 ∧ w = true ∧ read = true) ∨
      (∃ v, r = .atomc src tag pa v ∧ n = 8 ∧ w = true ∧ read = true) ∨
      (∃ e v, r = .atomw src tag pa e v ∧ n = e.length ∧ w = true ∧ read = true)) →
     let o : Origin := ⟨src, tag, 0⟩
     let p := peerPhys pa
     (∀ m, seen s o = some (src, tag, m) → exec (.remoteRequestReceive r) s = .next (s.post src none m)) ∧
     (seen s o = none →
       (s.peerAdmits src p n w = false → exec (.remoteRequestReceive r) s = .next (s.post src none (.refuse none tag))) ∧
       (s.peerAdmits src p n w = true →
         (frozenPage p ∈ s.mem.frozen → exec (.remoteRequestReceive r) s = .next (s.post src none (.retry none tag))) ∧
         (frozenPage p ∉ s.mem.frozen →
           (read = true → s.poisoned p n = true →
             exec (.remoteRequestReceive r) s = .next (s.post src none (.poisoned none tag))) ∧
           (read = false ∨ s.poisoned p n = false →
             exec (.remoteRequestReceive r) s = .next ((s.peerDo p r).2.answer o (.reply none tag (s.peerDo p r).1)))))) ∧
     -- an answer is recorded, and changes no memory
     ∀ (t : State) (m : Msg), (t.answer o m).mem = t.mem ∧ (t.answer o m).fabric.served = (src, tag, m) :: t.fabric.served)

/-! ## The system instructions and exceptions -/

/-- LAUNCH, EVOP, SYSR, SYSW, TRAP, ERET and SLEEP do what their rules say (R370, R371, R377 to R379, R385, R387, R388). That a LAUNCH at
a queue bound to no context is dropped, its word being open, is the model's choice (log entry 11, DESIGN CHOICE), and so is that the cycles
of a SLEEP are the model's steps (log entry 14, DESIGN CHOICE). -/
def Obligations.SystemInstructionsComplete : Prop :=
  (∀ g d a b, Sends (lenOf [a, b]) (.launch g d a b) g .c (dstOf d)
    (fun s blk x => launchBad s (s.lrOf blk).ctx (s.lrOf blk).det (Opd.negSmall b) (svalOf (s.envOf blk x) x a) (svalOf (s.envOf blk x) x b))
    (argsOf [a, b]) (fun _ => sendLaunch (dstOf d))) ∧
  (∀ g a b, Sends (lenOf [b]) (.evopSet g a b) g .c none
    (fun s blk x => evopBad (s.lrOf blk).det (Opd.negSmall a) (svalOf (s.envOf blk x) x a)) (argsOf [a, b]) (fun _ => sendEvop true)) ∧
  (∀ g a b, Sends (lenOf [b]) (.evopClr g a b) g .c none
    (fun s blk x => evopBad (s.lrOf blk).det (Opd.negSmall a) (svalOf (s.envOf blk x) x a)) (argsOf [a, b]) (fun _ => sendEvop false)) ∧
  (∀ (g : Guard) (d a b : Opd) (s : State) (blk : Block) (l : List Slice), s.issuing = some (blk, l) → s.goes (lenOf [b]) = true →
    (∀ x ∈ l, evopBad false (Opd.negSmall a) (svalOf (s.envOf blk x) x a) = none) →
    exec (.evopTest g d a b) s = .next (s.after blk l (lenOf [b]) fun x => x.when g fun x =>
      x.setS g d (evWord (s.ctx (s.lrOf blk).ctx).ev (svalOf (s.envOf blk x) x a).toNat &&& svalOf (s.envOf blk x) x b))) ∧
  (∀ (g : Guard) (r : SysReg) (d : Opd) (s : State) (b : Block) (l : List Slice), s.issuing = some (b, l) → s.goes 1 = true →
    exec (.sysr g r d) s = .next (s.after b l 1 fun x => x.when g fun x => x.setS g d (s.sysReg (s.envOf b x) x r))) ∧
  (∀ (g : Guard) (a : Opd) (s : State) (b : Block) (l : List Slice), s.issuing = some (b, l) → s.goes (lenOf [a]) = true →
    ((∀ x ∈ l, 256 ≤ (svalOf (s.envOf b x) x a).toNat ∧ (svalOf (s.envOf b x) x a).toNat ≤ 65536) →
      exec (.sysw g .qlen a) s = .next (s.after b l (lenOf [a]) fun x => x.when g fun x =>
        { x with qlen := (svalOf (s.envOf b x) x a).setWidth 17 })) ∧
    ((∀ x ∈ l, (svalOf (s.envOf b x) x a).toNat < 2 ^ 57 ∧ (svalOf (s.envOf b x) x a).toNat % 8 = 0) →
      exec (.sysw g .trapvec a) s = .next (s.after b l (lenOf [a]) fun x => x.when g fun x =>
        { x with trapvec := (svalOf (s.envOf b x) x a).setWidth 57 }))) ∧
  (∀ (g : Guard) (n : BitVec 8) (s : State) (b : Block) (l : List Slice), s.issuing = some (b, l) → acting g l ≠ [] →
    exec (.trap g n) s = .next (s.raise { trapEv n with lanes := (acting g l).map fun x => (x.num, x.part_ g) })) ∧
  (∀ (g : Guard) (s : State) (b : Block) (l : List Slice), s.issuing = some (b, l) → (∀ x ∈ l, x.handling = true) →
    (∀ x ∈ l, x.part_ g ≠ 0 → x.ck.rep.header = true → s.noHeader (s.lrOf b).ctx x.ck.rep.pc = false) →
    exec (.eret g) s = .next (s.eretDone g b l)) ∧
  (∀ (g : Guard) (a : Opd) (s : State) (b : Block) (l : List Slice), s.issuing = some (b, l) → s.goes (lenOf [a]) = true →
    Opd.negSmall a = false →
    ((∀ x ∈ l, x.part_ g = 0 ∨ x.wait = .sleep 0 ∨ (svalOf (s.envOf b x) x a).toNat % 2 ^ 32 = 0 ∧ ∀ u, x.wait ≠ .sleep u) →
      exec (.sleep g a) s = .next (s.after b l (lenOf [a]) id)) ∧
    ((∃ x ∈ l, x.part_ g ≠ 0 ∧ (∀ u, x.wait ≠ .sleep u) ∧ (svalOf (s.envOf b x) x a).toNat % 2 ^ 32 ≠ 0) →
      exec (.sleep g a) s = .next (s.modBlock b.uid fun y => y.putSlices (l.map (asleep s g a b))))) ∧
  (∀ (s : State) (b : Block) (x : Slice) (u : Nat), s.block? b.uid = some b → b.slice? x.num = some x → x.wait = .sleep u →
    u ≤ s.cycle → ∃ t, exec (.sleepExpiry b.uid x.num) s = .next t ∧
      ∃ c, t.block? b.uid = some c ∧ c.slice? x.num = some { x with wait := .sleep 0 })

/-- An event that a gang raises takes the route of R381: a handler entry that saves the event and the region in its registers (R380,
R386), a stop with a record in the fault ring (R389), or the end of the context (R390, R391).
ERET (R387) leaves the handler and goes back to the checkpoint of the trapped region (R384). That the reporting slice decides for
its gang which route is taken is log entry 24; while a handler's header cannot be read the event comes again in the gang's next turn
(R283, R304, R352). -/
def Obligations.ExceptionsAreTakenAndLeft : Prop :=
  (∀ (s : State) (e : Ev) (b : Block) (l : List Slice) (r : Slice), s.issuing = some (b, l) → e.reporter l = some r →
     let c := (s.lrOf b).ctx
     let recoverable := e.code = 0x05 ∨ e.code = 0x06 ∨ e.code = 0x10
     ((∃ x ∈ l, x.handling = true) → s.raise e = s.contextFault c (s.faultRec b r { e with detail := 0x0C })) ∧
     ((∀ x ∈ l, x.handling = false) →
       (e.code = 0x04 → s.raise e = s.stopGang b l r e false) ∧
       (recoverable → r.trapvec ≠ 0 → (∃ x ∈ l, s.vaBlocked c x.trapvec.toNat 8 = true) → s.raise e = s.markIssued b l) ∧
       (recoverable → r.trapvec ≠ 0 → (b.slices.map (fun x => x.num)).Nodup → (∀ x ∈ l, s.vaBlocked c x.trapvec.toNat 8 = false) →
         ((∀ x ∈ l, ∃ w, s.fetchWord c x.trapvec.toNat = .ok w ∧ Hdr.isHeader w = true) →
           (s.raise e).mem = s.mem ∧ (s.raise e).ctxs = s.ctxs ∧
           ((∀ x ∈ l, x.trapvec = r.trapvec ∧ x.ended = false) → ∀ x ∈ l, ((s.raise e).now b x).gang = x.gang) ∧
           (∀ x ∈ l, ∀ y ∈ l, x.ended = false → y.ended = false → x.trapvec ≠ y.trapvec →
             ((s.raise e).now b x).gang ≠ ((s.raise e).now b y).gang) ∧
           ∀ x ∈ l, (s.raise e).now b x =
             { x with
               trapcause := BitVec.ofNat 64 (e.code + e.detail * 2 ^ 8 + e.check * 2 ^ 16 + (e.lanesOf x).toNat * 2 ^ 24)
               trapaddr := e.at_.getD x.pc, trapregion := x.ck.rep.addr, handling := true, trapLen := x.buf.length, am := x.ck.am &&& ~~~ x.xm
               pc := x.trapvec, hword := none, wait := .none, qphase := .running, atRep := false
               gang := ((s.raise e).now b x).gang }) ∧
         (∀ x, l.find? (fun y => (okOf (s.header c y.trapvec)).isNone) = some x →
           s.raise e = s.contextFault c (s.faultRec b x { Ev.badtgt with detail := 0x06, lanes := [(x.num, x.am)] }))) ∧
       (r.trapvec = 0 → (e.code = 0x05 → s.raise e = s.contextFault c (s.faultRec b r e)) ∧
         (e.code = 0x06 ∨ e.code = 0x10 → s.raise e = s.stopGang b l r e true)) ∧
       (e.code ≠ 0x04 → ¬ recoverable → s.raise e = s.contextFault c (s.faultRec b r e)))) ∧
  (∀ (g : Guard) (s : State) (b : Block) (x : Slice), s.issuing = some (b, [x]) → b.slices = [x] → x.handling = true →
     x.part_ g ≠ 0 → (x.ck.rep.header = true → s.noHeader (s.lrOf b).ctx x.ck.rep.pc = false) →
     ∃ t, exec (.eret g) s = .next t ∧ t.mem = s.mem ∧ (t.now b x).atRep = x.ck.rep.header ∧
       (t.now b x).handling = false ∧ (t.now b x).pc = x.ck.rep.pc ∧ (t.now b x).hdr = x.ck.rep.hdr ∧
       (t.now b x).hword = x.ck.rep.hword ∧ (t.now b x).wait = x.ck.rep.wait ∧ (t.now b x).am = x.ck.am ∧ (t.now b x).xm = x.ck.xm ∧
       (t.now b x).rs = x.ck.rs ∧ (t.now b x).lp = x.ck.lp ∧ (t.now b x).order = x.ck.order ∧ (t.now b x).fmt = x.ck.fmt ∧
       (t.now b x).clock = x.ck.clock ∧ (t.now b x).v = (match x.ck.rep.hword with | some w => (x.trimLive (Hdr.live w)).v | none => x.v) ∧
       (t.now b x).s = x.s ∧ (t.now b x).p = x.p ∧
       (t.now b x).trapvec = x.trapvec ∧ (t.now b x).trapcause = x.trapcause)

/-- What a stop leaves (R389): the gang's slices are held, a record of the ring names the event, and its 32 bytes stand in the ring's
slot; what the end of a context leaves (R390, R391): its queues stopped with code 6, its ring empty, and its first fault record. -/
def Obligations.FaultRecordsAreKept : Prop :=
  (∀ (s : State) (b : Block) (l : List Slice) (r : Slice) (e : Ev) (trap : Bool), s.issuing = some (b, l) →
    (b.slices.map (fun x => x.num)).Nodup → (s.lrOf b).ctx < s.ctxs.length →
    let t := s.stopGang b l r e trap
    let c := (s.lrOf b).ctx
    ∃ o : Outstanding, (t.ctx c).ring = (s.ctx c).ring ++ [o] ∧ (∀ y ∈ s.ctxs, ∀ q ∈ y.ring, q.id ≠ o.id) ∧
      (∀ x ∈ l, t.now b x = { x with stop := .held o.id trap }) ∧
      o.cause = e.cause (e.lanesOf r) ∧ o.addr = e.addr.getD (r.pc.setWidth 64) ∧ o.block = b.num ∧ o.source = 0 ∧
      ∀ k i, o.slot = some k → i < 32 →
        t.mem.peek (hostKey ((s.ctx c).pfring + 32 * k + i)) = (Outstanding.image o).getD i 0) ∧
  (∀ (s : State) (c : Nat) (r : FaultRec), c < s.ctxs.length →
    let t := s.contextFault c r
    (t.ctx c).fault = some ((s.ctx c).fault.getD r) ∧ (t.ctx c).ring = [] ∧
    (∀ b ∈ t.blocks, b ∈ s.blocks ∧ ∀ l ∈ s.launches, l.rcd.ctx = c → l.id ≠ b.launch) ∧ (∀ l ∈ t.launches, l.rcd.ctx ≠ c) ∧ (∀ k ∈ t.cmds, k.ctx ≠ c) ∧
    (∀ q, q < t.sched.hqs.length → (s.hq q).bound = true → (s.hq q).ctx = c → (t.hq q).st = .stopped ∧ (t.hq q).failCode = 6))

/-! ## The scheduler and the host -/

/-- A deterministic block runs in rounds (R254, R255): a quantum that is over ends; when all have ended the buffers are committed; then
the synchronising operation of the least clock and number is performed, until none is left and the next round begins. That the serial
phase waits for the block's copies and base-die commands is the model's reading of R25 (log entry 17). -/
def Obligations.DeterministicRoundsComplete : Prop :=
  ∀ (s : State) (b : Block), s.blocks.find? (fun x => x.uid == b.uid) = some b → (s.lrOf b).det = true →
    (∀ g, (∀ x ∈ b.gangSlices g, x.qphase = .running ∧ x.stop = .none) → s.quantumOver b (b.gangSlices g) = true →
      exec (.quantumEnd b.uid g) s = .next (s.modBlock b.uid fun y => y.putSlices ((b.gangSlices g).map fun x => x.endQuantum))) ∧
    (s.halted b = false → b.roundOver = true →
      (b.round ≠ .serial → (∀ x ∈ b.slices, x.buf = []) → s.unitsBusy b.uid = false →
        exec (.detCommitPhase b.uid) s = .next (s.modBlock b.uid fun y => { y with round := .serial })) ∧
      (b.round ≠ .serial → ∀ t, (s.modBlock b.uid fun y => { y with round := .commit }).commitAll b.uid b.slices = (true, t) →
        exec (.detCommitPhase b.uid) s =
          .next (if t.unitsBusy b.uid then t else t.modBlock b.uid fun y => { y with round := .serial })) ∧
      (b.round = .serial →
        (∀ x, b.nextSerial = some x →
          exec (.detSerialPhase b.uid) s = .next { s with agenda := .serial b.uid x.num :: s.agenda } ∧
          x ∈ b.slices ∧ x.ended = false ∧ x.qphase = .atSerial ∧
          ∀ y ∈ b.slices, y.ended = false → y.qphase = .atSerial → x.clock < y.clock ∨ (x.clock = y.clock ∧ x.num ≤ y.num)) ∧
        (b.nextSerial = none → (∀ x ∈ b.slices, x.wait = .none) →
          exec (.detSerialPhase b.uid) s = .next (s.newRound b))))

/-- The queues' registers and the records of their entries; a write to a queue that is not bound changes nothing (R357 to R361, R364,
R369). That a queue is full, too, where an entry or a
running command still holds its next position is the model's choice (log entry 68). -/
def Obligations.QueueOperationsComplete : Prop :=
  ∀ (s : State) (q : Nat), s.hostOpen = true →
    ((s.hq q).bound = false → ∀ addr, exec (.hqsub q addr) s = .next s) ∧
    ((s.hq q).bound = true → ∀ addr,
      let full := (s.hq q).entries.length ≥ 1024 || s.posTaken q (s.hq q).next
      (full = false → exec (.hqsub q addr) s = .next (s.modHq q fun h =>
        { h with
          entries := h.entries ++ [{ pos := (s.hq q).next, addr, graph := none, checked := false, rcd := default, age := none }]
          next := (h.next + 1) % 1024, st := if h.st = .idle then .running else h.st })) ∧
      (full = true → exec (.hqsub q addr) s = .next (s.modHq q fun h => { h with ovf := true }))) ∧
    (∃ t, exec (.hqctlRestart q) s = .next t ∧ (q < s.sched.hqs.length →
      (t.hq q).failCode = 0 ∧ (t.hq q).failPos = 0 ∧ (t.hq q).st ≠ .stopped ∧
      ((s.hq q).st = .stopped → ((t.hq q).st = .idle ↔ (s.hq q).entries = [])) ∧
      (t.hq q).entries.map (fun e => (e.pos, e.addr, e.graph)) = (s.hq q).entries.map (fun e => (e.pos, e.addr, e.graph)) ∧
      ((s.hq q).st = .stopped → ∀ e, (t.hq q).entries.head? = some e → e.checked = false ∧ e.age = none) ∧
      ((s.hq q).st ≠ .stopped → (t.hq q).st = (s.hq q).st ∧ (t.hq q).entries = (s.hq q).entries))) ∧
    (∀ e rest, (s.hq q).st = .stopped → (s.hq q).entries = e :: rest → q < s.sched.hqs.length →
      ∃ t, exec (.hqctlRemoveHead q) s = .next t ∧ (t.hq q).entries = rest ∧ (t.hq q).st = .stopped ∧
        -- nothing of it is left to start (R360, R369)
        ∀ l ∈ t.launches, l.isAt q e.pos = false) ∧
    exec (.hqctlClearOvf q) s = .next (s.modHq q fun h => { h with ovf := false }) ∧
    ((s.hq q).st = .running → ∀ e, s.nextCheck q = some e →
      exec (.recordHeadCheck q) s = .next (s.checkEntry q e) ∧
      let u := s.readsAll (s.hq q).ctx (s.recReads (s.hq q).ctx e)
      (s.kindOf e = 1 → ∀ bs, u.recBytes (s.hq q).ctx e = some bs →
        (u.recCode (s.hq q).ctx bs = 0 → s.checkEntry q e = u.putEntry q { e with checked := true, rcd := recOf bs }) ∧
        (u.recCode (s.hq q).ctx bs ≠ 0 → s.checkEntry q e = u.nodeFails q e.pos (u.recCode (s.hq q).ctx bs) e))) ∧
    (∀ e, ((s.hq q).entries.take 64).find? (fun x => x.pos == e.pos) = some e → s.firstEntering = some (q, e.pos) →
      exec (.nodeEnterPool q e.pos) s = .next (({ s with nextId := s.nextId + 1 } : State).putEntry q { e with age := some s.nextId }))

/-- A node of the pool that none goes before is dispatched: a launch's units wait to be placed, a command goes to its unit (R345, R364,
R365); a unit that fits starts, with the first of them its launch (R360), whose entry leaves its queue then, and a unit for which
nothing has room asks others to leave (R366, R367, R396). A bank in retention that a unit would take begins its exit, and the unit is
placed once that is over (R239): that placing waits for it is log entry 39 (DEDUCED). That a launch's entry stays in its queue from the
dispatch on until the first unit of the launch is placed is the model's choice (log entry 34, DESIGN CHOICE). -/
def Obligations.NodesAndUnitsComplete : Prop :=
  (∀ (s : State) (q : Nat) (e : HqEntry), s.pool.find? (fun x => x.1 == q && x.2.pos == e.pos) = some (q, e) → s.fcpOn = true →
    s.firstEntering = none → (∀ y ∈ s.pool, s.nodeBefore y (q, e) = false) → s.dispatchHeld (q, e) = false →
    exec (.nodeDispatch q e.pos) s = .next (s.dispatch q e) ∧
    (s.kindOf e = 1 → ∃ l : Launch, (s.dispatch q e).launches = s.launches ++ [l] ∧ l.rcd = e.rcd ∧ l.hq = q ∧ l.pos = e.pos ∧
      l.nextUnit = 0 ∧ l.waiting = [] ∧ l.blocksLeft = e.rcd.slicesIn e.rcd.top / e.rcd.slicesIn e.rcd.blklv ∧
      l.unstarted = true ∧ (s.dispatch q e).sched = s.sched) ∧
    (∀ n, s.nodeOf e = some n → n.kind = 2 → copyNodeOk n.payload = true →
      ((s.flagEv (s.hq q).ctx (field n.payload 40 8)).filter fun e => e.code != 0x04) = none → ∀ k,
      s.packetCmd (s.hq q).ctx n.payload = .ok (some k) → s.dispatch q e = s.dispatchCmd q e k)) ∧
  (∀ (s : State) (l : Launch) (w : WaitUnit) (places : List Nat), s.launch? l.id = some l → l.nextPlace = some w → s.fcpOn = true →
    s.wantsRoom l = true → s.higher l = false →
    (∀ bs ts, s.fitUnit l w places = some (bs, ts) →
      (s.dark ts = [] → s.badImage w = false → exec (.blockPlacement l.id places) s = .next (s.startUnit l w bs ts)) ∧
      (s.dark ts ≠ [] → exec (.blockPlacement l.id places) s = .next (s.wake (s.dark ts)))) ∧
    (s.fitUnit l w places = none → s.freePlaces l = none → exec (.blockPlacement l.id places) s = .next (s.askRoom l))) ∧
  (∀ (s : State) (l : Launch) (w : WaitUnit) (bs : List Block) (ts : List Tenant), l.hq < s.sched.hqs.length →
    ((s.startUnit l w bs ts).hq l.hq).entries =
      if l.unstarted then (s.hq l.hq).entries.eraseP fun z => z.pos == l.pos else (s.hq l.hq).entries) ∧
  (∀ (s : State) (l : Launch), s.launch? l.id = some l → l.blocksLeft = 0 →
    exec (.launchComplete l.id) s = .next (s.endLaunch l) ∧
    ((s.endLaunch l).ctx l.rcd.ctx).ev = (s.ctx l.rcd.ctx).ev ||| (if l.rcd.ctx < s.ctxs.length then l.rcd.set else 0) ∧
    ∀ x ∈ (s.endLaunch l).launches, x.id ≠ l.id)

/-- Units that leave their cores: the images of a save are written and kept, a flushed unit starts anew, a late drain becomes a save
where there is room (R392 to R396); PREEMPT asks every running unit of its context (R397); buckets refill each microsecond (R375). That a block whose slices have all
ended is drained is the model's reading: R392's table does not name it (log entry 35). -/
def Obligations.PreemptionsComplete : Prop :=
  (∀ (s : State) (p : Preempt) (l : Launch), s.leaving p.launch p.unit = some p → s.launch? p.launch = some l →
    s.settled ((s.unitOf p.launch p.unit).map fun b => b.uid) = true →
    (p.act = .save → exec (.chrysalisSaveComplete p.launch p.unit) s =
      .next ((s.dropPreempt p.launch p.unit).saveUnit l p (s.unitOf p.launch p.unit))) ∧
    (p.act = .flush → exec (.chrysalisSaveComplete p.launch p.unit) s =
      .next ((s.dropPreempt p.launch p.unit).flushUnit l p (s.unitOf p.launch p.unit)))) ∧
  (∀ (s : State) (l : Launch) (u : Nat), s.launch? l.id = some l →
    exec (.drainTimeout l.id u) s = .next { s with sched := { s.sched with preempts := s.sched.preempts.map (s.drainLate l l.id u) } }) ∧
  (∀ (s : State) (c : Nat), s.hostOpen = true → exec (.preempt c) s = .next (s.preemptCtx c)) ∧
  (∀ (s : State) (by_ en : List Nat), exec (.tokenBucketTick by_ en) s = .next (s.tickBuckets by_ en).leaveCores) ∧
  (∀ (b : Bucket) (d : Nat), 0 < b.cap →
    ((b.tick d).level ≤ b.cap ∨ (b.tick d).level = b.level - d) ∧
    (b.level - d < b.cap → (b.tick d).level = min b.cap (b.level - d + b.rate))) ∧
  (∀ (b : Block) (r : LaunchRec), (b.choice r = .flush → r.restart = true ∧ b.noFlush = false) ∧
    ((∀ x ∈ b.slices, x.ended = true) → b.choice r = .drain))

/-- Graphs are uploaded, kicked, replayed and freed as R372 to R374 say; GRES and GKICK tell how it went. That GRES names slot 0 after an
upload that is refused is the model's choice (log entry 54), and that a kick's patch table is read and kept when the kick is written
is its reading (log entry 34). Which context an upload reads in is its choice too (log entry 12). -/
def Obligations.GraphOperationsComplete : Prop :=
  (∀ (s : State) (addr : Word), s.hostOpen = true →
    let u := (s.uploadReads addr.toNat).foldl (fun (s : State) x => s.readsAll x.1 x.2) s
    ((s.uploadReads addr.toNat).any fun x => s.anyBlocked x.1 x.2) = false →
    (∀ c nodes slot, u.upload addr.toNat = .ok (c, nodes) → u.freeGraph = some slot → ∃ t, exec (.graphUpload addr) s = .next t ∧
      t.sched.gres = BitVec.ofNat 64 slot ∧
      t.sched.graphs = { slot, ctx := c, nodes, kicks := [], kickReg := 0 } :: s.sched.graphs) ∧
    (∀ k, u.upload addr.toNat = .error k → exec (.graphUpload addr) s = .next (u.setGres 0 k))) ∧
  (∀ (s : State) (g : Graph), s.hostOpen = true → s.graph? g.slot = some g →
    (g.busy = false → ∃ t, exec (.graphFree g.slot) s = .next t ∧ t.graph? g.slot = none ∧ ∀ x ∈ t.sched.graphs, x ∈ s.sched.graphs) ∧
    (g.busy = true → exec (.graphFree g.slot) s = .next (s.later (.graphFree g.slot))) ∧
    (∀ table : Word,
      (4 ≤ g.kicks.length → exec (.graphKick g.slot table) s = .next (s.modGraph g.slot fun g => { g with kickReg := 0xFE })) ∧
      let u := s.readsAll g.ctx (s.tableReads g.ctx table.toNat)
      (g.kicks.length < 4 → s.anyBlocked g.ctx (s.tableReads g.ctx table.toNat) = false → u.patchTable g table.toNat = none →
        exec (.graphKick g.slot table) s = .next (u.modGraph g.slot fun g => { g with kickReg := 0xFF })) ∧
      (g.kicks.length < 4 → s.anyBlocked g.ctx (s.tableReads g.ctx table.toNat) = false → ∀ ps, u.patchTable g table.toNat = some ps →
        exec (.graphKick g.slot table) s = .next (u.modGraph g.slot fun g =>
          { g with kickReg := 0, kicks := g.kicks ++ [{ patches := ps, applied := false, node := 0 }] })))) ∧
  (∀ (s : State) (g : Graph) (k : Kick) (ks : List Kick), s.graph? g.slot = some g → g.kicks = k :: ks →
    (k.applied = true ∨ ∀ n ∈ g.nodes, n.running = false) →
    exec (.graphKickProceed g.slot) s = .next ((s.beginKick g k).feedKick g.slot k ks))

/-- The host's answers to faults, its invalidation of translations, and its registers (R220, R389, R391, R397): each has the effect of
the register that it names; in recovery none has any (R398). That TLBINV reads as 0, and a context's fault words where it has no record,
is the model's choice (log entry 60). -/
def Obligations.HostRegistersComplete : Prop :=
  (∀ (s : State) (c id : Nat) (o : Outstanding), s.hostOpen = true → s.record? c id = some o →
    exec (.pfresResume c id) s = .next ((s.answerRec c id).resume o) ∧
    exec (.pfresFail c id) s = .next (s.contextFault c (s.failRec o))) ∧
  (∀ (s : State) (c : Nat), s.hostOpen = true →
    exec (.faultClear c) s = .next (s.setCtx c fun x => { x with fault := none }) ∧
    ∃ t, exec (.tlbinv c) s = .next t ∧ t.mem.tlb = s.mem.tlb.filter (fun x => x.ctx != c) ∧ t.mem.ram = s.mem.ram ∧ t.blocks = s.blocks) ∧
  (∀ (s : State) (off q c k : Nat) (v : Word), s.hostOpen = true → q < 64 → c < 64 → k < 256 →
    (off = 0x10_0000 + 64 * q → exec (.hostRegisterWrite off v) s = .next (s.hqsub q v)) ∧
    (off = 0x10_0000 + 64 * q + 16 → exec (.hostRegisterWrite off v) s = .next
      (if v = 1 then s.hqctlRestart q else if v = 2 then s.hqctlRemoveHead q else if v = 3 then s.hqctlClearOvf q else s)) ∧
    (off = 0x10_0000 + 64 * q + 24 → exec (.hostRegisterWrite off v) s =
      .next (s.modHq q fun h => { h with bound := v.getLsbD 8, ctx := v.toNat % 64 })) ∧
    (off = 0x10_1000 → exec (.hostRegisterWrite off v) s = .next (s.graphUpload v)) ∧
    (off = 0x10_1010 → exec (.hostRegisterWrite off v) s = .next (s.graphFree v.toNat)) ∧
    (off = 0x10_2000 + 8 * k → exec (.hostRegisterWrite off v) s = .next (s.graphKick k v)) ∧
    (off = 0x10_4000 + 8 * q → exec (.hostRegisterWrite off v) s = .next (s.bindJob q v)) ∧
    (off = 0x20_0000 + 256 * c → exec (.hostRegisterWrite off v) s =
      .next (s.setCtx c fun x => { x with ptroot := v &&& 0x007FFFFFFFFFC001 })) ∧
    (off = 0x20_0000 + 256 * c + 8 → exec (.hostRegisterWrite off v) s = .next (if v = 1 then s.tlbinv c else s)) ∧
    (off = 0x20_0000 + 256 * c + 88 → v.toNat % 2 ^ 13 = 0 → exec (.hostRegisterWrite off v) s =
      .next (s.setCtx c fun x => { x with pfring := v.toNat })) ∧
    (off = 0x20_0000 + 256 * c + 96 → exec (.hostRegisterWrite off v) s = .next
      (if v.toNat / 2 ^ 62 = 1 then s.pfresResume c (v.toNat % 2 ^ 16)
       else if v.toNat / 2 ^ 62 = 2 then s.pfresFail c (v.toNat % 2 ^ 16) else s)) ∧
    (off = 0x20_0000 + 256 * c + 104 → exec (.hostRegisterWrite off v) s = .next (if v = 1 then s.preemptCtx c else s)) ∧
    (off = 0x20_0000 + 256 * c + 160 → exec (.hostRegisterWrite off v) s = .next (s.faultClear c))) ∧
  (∀ (s : State) (off : Nat) (v : Word), s.hostOpen = false → exec (.hostRegisterWrite off v) s = .next s) ∧
  (∀ (s : State) (off : Nat), exec (.hostMemoryAccess (.window off)) s = .next (s.hostAnswer (leBytes 8 (s.windowRead off).toNat))) ∧
  (∀ (s : State) (q c k : Nat), q < 64 → c < 64 → k < 8 → s.windowRead 0x10_5008 = s.fw.bootst.setWidth 64 ∧
    (∀ off, off ≠ 0x10_5008 → s.hostOpen = false → s.windowRead off = 0) ∧
    (s.hostOpen = true → s.windowRead (0x10_0000 + 64 * q + 8) = Hq.stat (s.hq q) ∧ s.windowRead 0x10_1008 = s.sched.gres ∧
      s.windowRead (0x20_0000 + 256 * c + 8) = 0 ∧
      s.windowRead (0x20_0000 + 256 * c + 160 + 8 * k) = match (s.ctx c).fault with
        | some r => BitVec.ofNat 64 (field (FaultRec.image r) (8 * k) 8)
        | none => 0))

/-! ## The module and its surroundings -/

/-- Migration, retention and soft errors (R239, R283), and the faults that engines meet (R200, R291, R389).
The host's memory accesses reach the bytes that a window admits, all or none (R229, R397, R401). That an uncorrected error poisons the
aligned 8 bytes around it, and that errors are counted by ErrSite.bank, is the model's reading (log entry 39), and so is that the host
may read a page under migration (log entry 70). That the host's range lies where an SL = 0 page would put it is the model's reading too
(log entry 28, DEDUCED); that a host's write or fetch-and-add needs a window and no page under migration is its choice (log entry 40,
DESIGN CHOICE). -/
def Obligations.MemoryEventsAndHostAccesses : Prop :=
  ((∀ (s : State) (p : Nat), ∃ t u, exec (.pageMigrationFreeze p true) s = .next t ∧ p ∈ t.mem.frozen ∧
     t.mem.ram = (s.publishPage p).mem.ram ∧
     -- nothing on the page stays held, so that its copy holds every atomic performed before
     (∀ h ∈ t.mem.held, ∀ v ∈ [0, 2 ^ 9, 2 ^ 10],
       s.segHolds { pte := BitVec.ofNat 64 (p / 2 ^ 46 * 2 ^ 5 + v), pa := p % 2 ^ 46 * 2 ^ 14, n := 2 ^ 14 } (lineOf h.key) = false) ∧
     exec (.pageMigrationFreeze p false) s = .next u ∧ p ∉ u.mem.frozen ∧ u.mem.ram = s.mem.ram) ∧
   (∀ (s : State) (c b : Nat), c < Config.cores → b < 16 → s.bankIdle c b = true →
     exec (.retentionEntry c b) s = .next (s.setBank c b .retention)) ∧
   (∀ (s : State) (c b : Nat), (c, b, BankState.exiting) ∈ s.fw.banks → exec (.retentionExitDone c b) s = .next (s.setBank c b .active)) ∧
   (∀ (s : State) (site : ErrSite), ∃ t, exec (.memorySoftError site true) s = .next t ∧ t.mem = s.mem ∧ t.blocks = s.blocks ∧
     ∃ n, t.fw.corrected.head? = some (ErrSite.bank site, n + 1)) ∧
   (∀ (s : State) (core off : Nat), (∀ t ∈ s.tenants, t.core = core → apart t.slot (off, 1) = true) →
     ∃ t n, exec (.memorySoftError (.scratch core off) false) s = .next t ∧ t.mem = s.mem ∧
       t.fw.reported.head? = some (ErrSite.bank (.scratch core off), n + 1)) ∧
   -- an L2 way: in retention it only reports, otherwise the word that it holds is poisoned
   (∀ (s : State) (die way k : Nat),
     ((l2Of die, way, BankState.retention) ∈ s.fw.banks → ∃ t n, exec (.memorySoftError (.l2 die way k) false) s = .next t ∧
       t.mem = s.mem ∧ t.fw.reported.head? = some (ErrSite.bank (.l2 die way k), n + 1)) ∧
     ((l2Of die, way, BankState.retention) ∉ s.fw.banks → isCached k = true → (s.mem.line? (lineOf k)).isSome = true →
       ∃ t, exec (.memorySoftError (.l2 die way k) false) s = .next t ∧ t.mem.ram = s.mem.ram ∧
         ∀ j, j ∈ t.mem.poison ↔ j / 8 = k / 8 ∨ j ∈ s.mem.poison)) ∧
   (∀ (s : State) (die way : Nat), die < 4 → exec (.retentionEntry (l2Of die) way) s = .next (s.setBank (l2Of die) way .retention)) ∧
   (∀ (s : State) (k : Nat), k < 2 ^ 60 + 2 ^ 41 → ∃ t, exec (.memorySoftError (.memory k) false) s = .next t ∧
     t.mem.ram = s.mem.ram ∧ ∀ j, j ∈ t.mem.poison ↔ j / 8 = k / 8 ∨ j ∈ s.mem.poison) ∧
   (∀ (s : State) (c : Cmd) (e : Ev) (n : Nat), s.cmds.find? (fun x => x.id == c.id) = some c → c.hold = none →
     s.cmdEv c = (some e, n) → exec (.engineAccessFault c.id) s = .next (s.commandEvent c e n)) ∧
   (∀ (s : State) (t : Task) (b : Block) (x : Slice) (e : Ev), s.cmds.find? (fun x => x.id == t.id) = none →
     s.tasks.find? (fun z => z.id == t.id) = some t → t.hold = none → s.taskSlice t = some (b, x) → s.taskEv t = some e →
     exec (.engineAccessFault t.id) s = .next (s.taskEvent t b x e))) ∧
  ((∀ (s : State) (pa n : Nat), exec (.hostMemoryAccess (.read pa n)) s = .next (if s.hostMay pa n false then
      s.hostAnswer ((List.range n).map fun i => s.mem.peek (t1Key false (pa + i))) else s) ∧
    (s.fw.pcie6 = true → s.hostMay pa n false = false ∧ s.hostMay pa n true = false)) ∧
   (∀ (s : State) (pa : Nat) (data : List Byte) (en : List Bool), data.length = en.length →
     (s.hostMay pa data.length true = false → exec (.hostMemoryAccess (.write pa data en)) s = .next s) ∧
     (s.hostMay pa data.length true = true → ∃ t, exec (.hostMemoryAccess (.write pa data en)) s = .next t ∧
       ∀ k, (k < data.length → en.getD k false = true → t.mem.peek (t1Key false (pa + k)) = data.getD k 0) ∧
         (k < data.length → en.getD k false = false → t.mem.peek (t1Key false (pa + k)) = s.mem.peek (t1Key false (pa + k))))) ∧
   (∀ (s : State) (pa : Nat) (d : Word), pa % 8 = 0 → s.hostMay pa 8 false = true → s.hostMay pa 8 true = true →
     (∀ k, k < 8 → t1Key false (pa + k) ∉ s.mem.poison) → ∃ t, exec (.hostMemoryAccess (.fetchAdd pa d)) s = .next t ∧
       ∀ k, k < 8 → t.mem.peek (t1Key false (pa + k)) =
         BitVec.ofNat 8 ((leNat ((List.range 8).map fun i => s.mem.peek (t1Key false (pa + i))) + d.toNat) % 2 ^ 64 / 2 ^ (8 * k))) ∧
   (∀ (s : State) (hpa : Nat) (data : List Byte), ∃ t, exec (.hostMemoryAccess (.hostWrite hpa data)) s = .next t ∧
     ∀ k, k < data.length → t.mem.peek (hostKey (hpa + k)) = data.getD k 0))

/-- A link's flits, keys and timers (R348 to R351): a flit that passes is accepted in its order and acknowledged, another is refused;
keys are installed in empty slots, taken up by training, switched at their limit and dropped after it.
Lost links, peers and planes (R326, R352 to R355): what they end, whom they tell, and how a peer comes back. Which modules R355 counts
(s.known) and what becomes of a notice of an older epoch is the model's reading (log entry 44); the text of a heartbeat is its choice
(log entry 45). -/
def Obligations.LinksAndLossesComplete : Prop :=
  (∀ (s : State) (n : Nat), n < s.fabric.ports.length →
     let p := s.fabric.ports.getD n .reset
     (∀ f, p.up = true → p.passes f = true → f.seq = p.expect →
       exec (.flitReceive n f) s = .next (s.acceptFlit n f) ∧
       ((s.acceptFlit n f).fabric.ports.getD n .reset).expect = p.expect + 1 ∧
       ∀ x ∈ ((s.acceptFlit n f).fabric.ports.getD n .reset).refusals, x.1 ≠ f.seq) ∧
     (∀ f, p.up = true → (p.passes f = false ∨ f.seq ≠ p.expect) →
       exec (.flitReceive n f) s = .next (s.refuseFlit n f.seq) ∧
       (8 ≤ p.refused f.seq → s.refuseFlit n f.seq = s.linkDies n) ∧
       (p.refused f.seq < 8 → ((s.refuseFlit n f.seq).fabric.ports.getD n .reset).refused f.seq = p.refused f.seq + 1)) ∧
     (p.up = true → ((s.linkDies n).fabric.ports.getD n .reset).up = false ∧ ((s.linkDies n).fabric.ports.getD n .reset).dead = true) ∧
     exec (.heartbeatTimer n) s = .next (s.sendNow n 2 3 []) ∧
     exec (.linkSilenceTimeout n) s = .next (s.linkDies n) ∧
     (∀ (tx slot : Bool) (key : List Byte) (salt : BitVec 32) (limit : Nat), s.rootOn = true → key.length = 32 → limit ≤ 2 ^ 36 →
       (if tx then p.txSlot slot else p.rxSlot slot).st = .empty →
       exec (.keyInstall n tx slot key salt limit) s = .next (s.modPort n fun p =>
         let new : KeySlot := { st := .ready, key, salt, limit, ctr := 0, marker := none }
         if tx then p.setTx slot new else p.setRx slot new)) ∧
     (∀ t r, p.up = false → activate p.dead p.tx = some t → activate p.dead p.rx = some r →
       exec (.linkTrainingComplete n) s = .next (s.modPort n fun _ => { Port.reset with up := true, tx := t, rx := r }).repost) ∧
     (p.dead = true → (∃ k ∈ p.tx.take 2, k.st ≠ .ready) → exec (.linkTrainingComplete n) s = .next s) ∧
     (∀ b, p.up = true → activeOf p.tx = some b → (p.txSlot b).limit ≤ (p.txSlot b).ctr →
       ((p.txSlot (!b)).st = .ready → p.unacked.length < 512 → exec (.keySwitchover n) s = .next (s.switchSlot n b)) ∧
       ((p.txSlot (!b)).st ≠ .ready → exec (.keySwitchover n) s = .next (s.linkDies n))) ∧
     ((∃ k ∈ p.tx, k.st = .draining ∧ k.limit + 2 ^ 16 < k.ctr) → exec (.drainingSlotLimit n) s = .next (s.linkDies n))) ∧
  ((∀ (s : State) (d e : Nat), (d, e) ∉ s.fabric.notices → s.epochOf d ≤ e → d ∉ s.fabric.lostPeers → d ≠ s.fabric.devno.toNat →
     ∃ t, exec (.deathNotice d e) s = .next t ∧ d ∈ t.fabric.lostPeers ∧ (d, e) ∈ t.fabric.notices ∧
       ∀ q ∈ s.livePorts, { port := some q, dst := 0, page := none, msg := .notice d e } ∈ t.fabric.outbox) ∧
   (∀ (s : State) (d e : Nat), (d, e) ∈ s.fabric.notices → exec (.deathNotice d e) s = .next s) ∧
   (∀ (s : State) (d e : Nat), d ∈ s.fabric.lostPeers → ∃ t, exec (.peerReadmission d e) s = .next t ∧
     d ∉ t.fabric.lostPeers ∧ t.epochOf d = e ∧ ∀ k, (d, k) ∉ t.fabric.linkReports) ∧
   (∀ (s : State) (k : Nat), exec (.planeFailureAnnouncement k) s = .next (s.losePlane k) ∧
     k ∈ (s.losePlane k).fabric.lostPlanes) ∧
   (∀ (s : State) (d k : Nat), (∃ j, j < 16 ∧ j ≠ k ∧ (d, j) ∉ s.fabric.linkReports) →
     (∀ j, j < 16 → ∃ x ∈ s.known, (x ≠ d ∨ j ≠ k) ∧ (x, j) ∉ s.fabric.linkReports) →
     exec (.linkDeathReport d k) s = .next { s with fabric := { s.fabric with
       linkReports := (d, k) :: s.fabric.linkReports.filter (fun x => x != (d, k)) } }) ∧
   (∀ (s : State) (d k : Nat), (∀ j, j < 16 → j = k ∨ (d, j) ∈ s.fabric.linkReports) → d ∉ s.fabric.lostPeers →
     d ≠ s.fabric.devno.toNat → ∃ t, exec (.linkDeathReport d k) s = .next t ∧ d ∈ t.fabric.lostPeers))

/-- Boot, service images, attestation, power and the clock (R398 to R403), and the root mailbox (R325, R401). That the rollback values
stand over a reset and a loss of power is the model's reading (log entry 43); so is that the root firmware assigns the device number
through the mailbox (log entry 40), and that a table may be set for one controller (log entry 66). -/
def Obligations.FirmwareOperationsComplete : Prop :=
  (∀ s : State, ∃ t, exec .moduleReset s = .next t ∧ t.blocks = [] ∧ t.launches = [] ∧ t.fabric = State.reset.fabric ∧
    t.ctxs = State.reset.ctxs ∧ t.fw.rollRoot = s.fw.rollRoot ∧ t.fw.rollSvc = s.fw.rollSvc ∧ t.fw.leaf = s.fw.leaf ∧
    (t.fw.bootst = 0xBAD0 ↔ Image.passes Config.flashRoot s.fw.rollRoot = false) ∧
    (t.fw.bootst = 0x600D ↔ Image.passes Config.flashRoot s.fw.rollRoot = true ∧ Image.passes Config.flashService s.fw.rollSvc = true)) ∧
  (∀ (s : State) (i : Image), s.fw.bootst = 0x5EF0 → ∃ t, exec (.serviceImageDelivery i) s = .next t ∧
    t.fw.svcMeas = Config.sha256 i.body ∧ (t.fw.bootst = 0x600D ↔ Image.passes i s.fw.rollSvc = true) ∧
    (Image.passes i s.fw.rollSvc = false → t.fw.bootst = 0x5EF0)) ∧
  (∀ (s : State) (nonce : List Byte), s.rootOn = true → nonce.length = 32 → ∃ t r, exec (.attestationRequest nonce) s = .next t ∧
    t.fw.reports = s.fw.reports ++ [r] ∧ r.nonce = nonce ∧ r.rootMeas = s.fw.rootMeas ∧ r.svcMeas = s.fw.svcMeas ∧
    (s.fw.leaf < 2 ^ 20 → t.fw.leaf = s.fw.leaf + 1 ∧ r.signature = Config.lmsSign s.fw.leaf r.text) ∧
    (2 ^ 20 ≤ s.fw.leaf → t.fw.leaf = s.fw.leaf ∧ r.status = .exhausted ∧ r.signature = [])) ∧
  (∀ (s : State) (a : Bool), ∃ t, exec (.powerLoss a) s = .next t ∧ t.fw.leaf = (if a then s.fw.leaf + 1 else s.fw.leaf) ∧
    t.blocks = [] ∧ t.fw.bootst = State.reset.fw.bootst ∧ t.fw.rollRoot = s.fw.rollRoot) ∧
  (∀ (s : State) (w : Nat), s.fw.bootst = 0x600D → ∃ t, exec (.clockThrottle w) s = .next t ∧
    (1600 ≤ w → t.fw.clockMHz ≤ s.fw.clockMHz) ∧ (1600 ≤ w → 75 < s.fw.clockMHz → t.fw.clockMHz = s.fw.clockMHz - 75) ∧
    (w < 1600 → t.fw.clockMHz = min 2250 (s.fw.clockMHz + 75))) ∧
  (∀ (s : State), s.rootOn = true →
    (∀ t n, ∃ u, exec (.rootMailboxCommand (.setQuota t n)) s = .next u ∧ u.quota t = n) ∧
    (∀ w c k i, w.length ≤ 8 → ∃ u, exec (.rootMailboxCommand (.setTable w c k i)) s = .next u ∧
      (i = none → u.fw.windows = s.fw.windows.filter (fun x => !(x.ctx == c && x.tgt == k)) ++
        w.map fun x => { x with ctx := c, tgt := k, unit := none }) ∧
      (∀ x ∈ w, { x with ctx := c, tgt := k, unit := i } ∈ u.fw.windows) ∧
      (∀ x ∈ s.fw.windows, x.ctx ≠ c ∨ x.tgt ≠ k ∨ (x.unit ≠ none ∧ i ≠ none ∧ x.unit ≠ i) → x ∈ u.fw.windows) ∧
      ∀ x ∈ u.fw.windows, x.ctx = c → x.tgt = k → (x.unit = i ∨ i = none) → ∃ y ∈ w, x = { y with ctx := c, tgt := k, unit := i }) ∧
    (∀ n, ∃ u, exec (.rootMailboxCommand (.assign n)) s = .next u ∧ u.fabric.devno = n ∧ u.fabric.ports = s.fabric.ports) ∧
    (∀ p, exec (.rootMailboxCommand (.retrain p)) s = .next (s.modPort p fun x => { Port.reset with dead := x.dead })) ∧
    (∃ u, exec (.rootMailboxCommand .fromService) s = .next u ∧ u.fw.refusedCmds = s.fw.refusedCmds + 1 ∧ u.fabric = s.fabric)) ∧
  (∀ (s : State) (c : MailCmd), s.rootOn = false → exec (.rootMailboxCommand c) s = .next s)

/-! ## The machine as a whole -/

/-- The machine after reset (R91, R193, R207, R230, R236, R247, R251, R294, R322, R330, R348, R357, R362, R398): nothing runs, every unit is
idle, and memory is in its canonical form; a slice, a share and its tiles at launch entry hold what their rules say. Where the manual
gives no value the model's is zero: in lane registers, s1 to s63 and p1 to p7 (DESIGN CHOICE, log entry 1), in memory that nothing has
written (log entry 2), and in a context's host window and the bindings (log entry 7). -/
def Obligations.ResetLeavesEveryUnitIdle : Prop :=
  let s := State.reset
  core.reset = s ∧ s.mem.wf = true ∧ s.blocks = [] ∧ s.launches = [] ∧ s.cmds = [] ∧ s.tasks = [] ∧ s.spans = [] ∧ s.agenda = [] ∧
  s.mem.ram = [] ∧ s.mem.held = [] ∧ s.mem.tlb = [] ∧ s.mem.poison = [] ∧ s.mem.frozen = [] ∧
  s.ctxs.length = 64 ∧ (∀ x ∈ s.ctxs, x.ptroot = 0 ∧ x.ev = 0 ∧ x.fault = none ∧ x.ring = []) ∧
  s.sched.hqs.length = 64 ∧ (∀ h ∈ s.sched.hqs, h.bound = false ∧ h.st = .idle ∧ h.entries = [] ∧ h.ovf = false) ∧
  s.fabric.jobs.length = 64 ∧ (∀ j ∈ s.fabric.jobs, j.bound = false ∧ j.opened = 0) ∧
  s.fabric.ports.length = 16 ∧ (∀ p ∈ s.fabric.ports, p.up = false) ∧ s.fabric.allocs = [] ∧ s.fw.bootst = 0 ∧
  (∀ num gnum share part pos gang r, let x := Slice.entry num gnum share part pos gang r
    x.am = 0xF ∧ x.xm = 0 ∧ x.rs = [] ∧ x.order = [] ∧ x.pc = r.entry.setWidth 57 ∧ x.sr 0 = r.param ∧ (∀ k, 0 < k → x.sr k = 0) ∧
    (∀ k j, x.rv k j = 0) ∧ x.rp 0 = 0xF ∧ (∀ k, 0 < k → x.rp k = 0) ∧ x.flg = 0 ∧ x.fmt = 0 ∧ x.clock = 0 ∧ x.qlen = 4096 ∧
    x.trapvec = 0 ∧ x.handling = false ∧ x.rcnt = 0 ∧ (∀ k, (x.lpOf k).act = false)) ∧
  (∀ core slot accn, let h := Share.entry core slot accn
    h.bookTag = false ∧ (∀ k, (h.obj k).act = false ∧ (h.timeline k).accepted = 0 ∧ (h.timeline k).done = 0 ∧ h.path k = 0) ∧
    h.tiles.length = accn ∧ ∀ k, (h.tile k).path = .empty ∧ (h.tile k).g = 0 ∧ (h.tile k).bound = 0 ∧ (h.tile k).exc = 0 ∧
      (h.tile k).owner = none ∧ ∀ i, (h.tile k).word i = 0)

/-- A step (R33 to R39, R57, R99): a gang that has the turn and that its partition takes of its ready gangs, its block's header consumed
and words of its block ahead, runs the instruction that its word decodes to, owned by the manual's table; around it the model keeps the
gang's place in the order of issue, the remembered translations, what reading the words of its turn leaves (R315, R328) and the note that
R392 needs. That a word is
what memory holds as it issues, with no instruction cache, is the model's choice (log entry 29: unsafe for programs that write code, R38),
and so is that a step is one cycle (log entry 14). Slices of one gang may stand in different blocks at one word: each reads it
under the LIVE and the end of its own block, and the first check of R57 that fails in any of them decides. -/
def Obligations.StepRunsTheDecodedInstruction : Prop :=
  ∀ (s t : State) (blk gang : Nat) (rest : List Turn) (b : Block) (x : Slice) (l : List Slice) (w : Word) (i : Instr),
    s.agenda = .gang blk gang :: rest → t = { s with cycle := s.cycle + 1, fresh := s.fresh + 1, agenda := rest } →
    s.blocks.find? (fun y => y.uid == blk) = some b → b.gangSlices gang = x :: l → t.mayTurn b gang = true →
    (∀ y ∈ x :: l, y.hword.isSome = true) → x.pc ≠ x.blockEnd →
    let c := (s.lrOf b).ctx
    let f := { ({ t with cur := some { block := blk, gang, only := none } } : State).remember c x.pc.toNat with
      lastPart := (b.share x.share).core * 4 + x.part }
    f.fetchWord c x.pc.toNat = .ok w → f.fetchHeld b (x :: l) = false →
    let u := (f.fetched b (x :: l)).markIssued b (x :: l)
    let next (y : Slice) : Option (Except Ev Word) :=
      if VA.plus y.pc 1 = y.blockEnd then none else some (u.fetchWord c (VA.plus y.pc 1).toNat)
    let reads (y : Slice) : Except Nat Instr := decodeAt y.live (s.lrOf b).accn w ((next y).map (okOr 0))
    (reads x = .ok i → (∀ y ∈ l, ∃ j, reads y = .ok j) →
      (i.extWord ≠ none → ∀ e, next x ≠ some (.error e)) →
      (i.own = true ∨ ∀ y ∈ x :: l, y.part_ i.guard = 0) →
      step s = match exec i u with | .next n => .next (u.pinned n i b.uid) | r => r) ∧
    (reads x = .ok i → (∀ y ∈ l, ∃ j, reads y = .ok j) → i.extWord = none → i.own = false →
      (∃ y ∈ x :: l, y.part_ i.guard ≠ 0) →
      step s = .next (u.raise { Ev.own with lanes := (x :: l).map fun y => (y.num, y.part_ i.guard) })) ∧
    (∀ n, (∀ y ∈ x :: l, reads y = .error n) → step s = exec (.wordNotInstruction n) u) ∧
    (∀ n, (∃ y ∈ x :: l, reads y = .error n) → (∃ y ∈ x :: l, reads y ≠ .error n) →
      (∀ y ∈ x :: l, ∀ m, reads y = .error m → n ≤ m) →
      step s = .next (u.raise { Ev.illop with
        check := n, at_ := some x.pc
        lanes := ((x :: l).filter fun y => match reads y with | .error m => m == n | .ok _ => false).map fun y => (y.num, y.am) })) ∧
    ∀ n, exec (.wordNotInstruction n) u = .next (u.raise { Ev.illop with check := n, at_ := some x.pc })

/-- No step stops: whatever the state, the machine goes on (R57, R381: what a program does wrong is an event with a route). -/
def Obligations.EveryStepGoesOn : Prop := ∀ s : State, ∃ t, step s = .next t

/-- Memory keeps its canonical form in every step. -/
def Obligations.MemoryStaysCanonical : Prop :=
  ∀ s t : State, s.mem.wf = true → step s = .next t → t.mem.wf = true
end

