-- ==== Sys2Proof/Laws/Retire.lean ====
section
/-! SUPPORT. What the shared operations of Machine/Ops.lean do: retirement inside a block. -/

namespace Sys2Proof.Machine

/-! ## Gathering -/

theorem gather_ok {α : Type} (l : List α) : gather (l.map Except.ok) = .ok l := by
  have h1 : (l.map (Except.ok (ε := Ev))).filterMap evOf = [] := by
    induction l with
    | nil => rfl
    | cons a l ih => simp [evOf]
  have h2 : (l.map (Except.ok (ε := Ev))).filterMap okOf = l := by
    induction l with
    | nil => rfl
    | cons a l ih => simp [okOf, List.filterMap_map, Function.comp_def]
  simp only [gather, h1, h2, List.foldl_nil]

/-- Slices that each succeed are all kept. -/
theorem gather_map_ok {α β : Type} (l : List α) (f : α → Except Ev β) (g : α → β) (h : ∀ x ∈ l, f x = .ok (g x)) :
    gather (l.map f) = .ok (l.map g) := by
  rw [List.map_congr_left (g := fun x => Except.ok (g x)) h, ← gather_ok (l.map g), List.map_map]; rfl

/-! ## Parting -/

/-- Slices at one pc stay together. -/
theorem partGang_same (first : Nat) (l : List Slice) (pc : VA) (h : ∀ x ∈ l, x.pc = pc) : partGang first l = (l, first) := by
  have hp : (((l.filter (fun x => !x.ended)).map (fun x => x.pc)).eraseDups).length ≤ 1 := by
    have : ∀ m : List VA, (∀ v ∈ m, v = pc) → m.eraseDups.length ≤ 1 := by
      intro m hm
      cases m with
      | nil => simp
      | cons v m =>
        rw [List.eraseDups_cons]
        have : m.filter (fun b => !(b == v)) = [] := by
          rw [List.filter_eq_nil_iff]
          intro w hw
          have h1 := hm v (by simp)
          have h2 := hm w (by simp [hw])
          simp [h1, h2]
        simp [this]
    refine this _ fun v hv => ?_
    obtain ⟨x, hx, rfl⟩ := List.mem_map.mp hv
    exact h x (List.mem_filter.mp hx).1
  simp only [partGang, hp, if_true]

/-! ## Putting slices back -/

theorem putSlices_nums (b : Block) (l : List Slice) : (b.putSlices l).slices.map (fun x => x.num) = b.slices.map (fun x => x.num) := by
  simp only [Block.putSlices, List.map_map]
  refine List.map_congr_left fun x _ => ?_
  simp only [Function.comp_apply]
  cases h : l.find? (fun y => y.num == x.num) with
  | none => rfl
  | some y => simpa using (List.find?_some h)

/-- The slice that a list of slices with different numbers holds under a number. -/
theorem find_num {l : List Slice} (hn : (l.map (fun x => x.num)).Nodup) {y : Slice} (hy : y ∈ l) :
    l.find? (fun x => x.num == y.num) = some y := by
  induction l with
  | nil => cases hy
  | cons a l ih =>
    rw [List.map_cons, List.nodup_cons] at hn
    rcases List.mem_cons.mp hy with rfl | hy
    · simp
    · have ha : (a.num == y.num) = false := by
        by_contra hc
        rw [Bool.not_eq_false, beq_iff_eq] at hc
        exact hn.1 (hc ▸ List.mem_map_of_mem hy)
      rw [List.find?_cons, ha]
      exact ih hn.2 hy

/-- Putting back twice, the second time all that was put the first time, is putting back once. -/
theorem putSlices_twice (b : Block) (l m : List Slice) (h : l.map (fun x => x.num) = m.map (fun x => x.num)) :
    (b.putSlices l).putSlices m = b.putSlices m := by
  simp only [Block.putSlices, List.map_map, Block.mk.injEq, true_and, and_true]
  refine List.map_congr_left fun x _ => ?_
  simp only [Function.comp_apply]
  have hnum : ((l.find? (fun y => y.num == x.num)).getD x).num = x.num := by
    cases h : l.find? (fun y => y.num == x.num) with
    | none => rfl
    | some y => simpa using (List.find?_some h)
  rw [hnum]
  cases hm : m.find? (fun y => y.num == x.num) with
  | some y => rfl
  | none =>
    have : l.find? (fun y => y.num == x.num) = none := by
      rw [List.find?_eq_none] at hm ⊢
      intro y hy
      have : y.num ∈ m.map (fun x => x.num) := h ▸ List.mem_map_of_mem hy
      obtain ⟨z, hz, e⟩ := List.mem_map.mp this
      have := hm z hz
      simpa [← e] using this
    rw [this]; rfl

/-- A block whose slices that p chooses have each been put back as f of what they were. -/
theorem putSlices_map (b : Block) (p : Slice → Bool) (f : Slice → Slice) (hn : (b.slices.map (fun x => x.num)).Nodup)
    (hf : ∀ x ∈ b.slices.filter p, (f x).num = x.num) :
    (b.putSlices ((b.slices.filter p).map f)).slices = b.slices.map fun x => if p x then f x else x := by
  have hsub : ((b.slices.filter p).map (fun x => x.num)).Nodup := hn.sublist ((List.filter_sublist).map _)
  have hl : (((b.slices.filter p).map f).map (fun x => x.num)) = (b.slices.filter p).map (fun x => x.num) := by
    rw [List.map_map]; exact List.map_congr_left fun x hx => hf x hx
  refine List.map_congr_left fun x hx => ?_
  by_cases hp : p x = true
  · have hm : x ∈ b.slices.filter p := List.mem_filter.mpr ⟨hx, hp⟩
    have := find_num (l := (b.slices.filter p).map f) (hl ▸ hsub) (List.mem_map_of_mem hm)
    rw [hf x hm] at this
    rw [this, if_pos hp]; rfl
  · have : ((b.slices.filter p).map f).find? (fun y => y.num == x.num) = none := by
      rw [List.find?_eq_none]
      intro y hy he
      obtain ⟨z, hz, rfl⟩ := List.mem_map.mp hy
      have hz' := List.mem_filter.mp hz
      rw [beq_iff_eq, hf z hz] at he
      have := List.inj_on_of_nodup_map hn hz'.1 hx he
      exact hp (this ▸ hz'.2)
    rw [this, if_neg hp]; rfl

/-! ## A resident block -/

/-- A block is resident. -/
def State.holds (s : State) (b : Block) : Prop := s.blocks.find? (fun x => x.uid == b.uid) = some b

theorem issuing_holds {s : State} {b : Block} {l : List Slice} (h : s.issuing = some (b, l)) : s.holds b := by
  unfold State.issuing at h
  split at h
  · cases h
  · split at h
    · cases h
    · next c _ b' hb =>
      simp only [Option.some.injEq, Prod.mk.injEq] at h
      obtain ⟨rfl, -⟩ := h
      have := List.find?_some hb
      rw [beq_iff_eq] at this
      rw [State.holds, this]; exact hb

theorem holds_any {s : State} {b : Block} (h : s.holds b) : s.blocks.any (fun x => x.uid == b.uid) = true :=
  List.any_eq_true.mpr ⟨b, List.mem_of_find?_eq_some h, by simp⟩

/-- A change of a resident block changes nothing else. -/
theorem modBlock_resident {s : State} {b : Block} (h : s.holds b) (f : Block → Block) :
    s.modBlock b.uid f = { s with blocks := s.blocks.map fun x => if x.uid == b.uid then f x else x } := by
  simp only [State.modBlock, holds_any h, if_true]

theorem block?_modBlock {s : State} {b : Block} (h : s.holds b) (f : Block → Block) (hf : ∀ x : Block, (f x).uid = x.uid) :
    (s.modBlock b.uid f).holds (f b) := by
  rw [modBlock_resident h, State.holds, hf]
  simp only
  have hfun : ((fun x : Block => x.uid == b.uid) ∘ fun x => if x.uid == b.uid then f x else x) = fun x => x.uid == b.uid := by
    funext x
    simp only [Function.comp_apply]
    by_cases hx : (x.uid == b.uid) = true
    · rw [if_pos hx, hf]
    · rw [if_neg hx]
  rw [List.find?_map, hfun, h]
  simp

theorem holds_block? {s : State} {b : Block} (h : s.holds b) : s.block? b.uid = some b := by
  unfold State.holds at h
  simp only [State.block?, h]

theorem lrOf_modBlock {s : State} {b : Block} (h : s.holds b) (f : Block → Block) (x : Block) :
    (s.modBlock b.uid f).lrOf x = s.lrOf x := by rw [modBlock_resident h]; rfl

theorem modBlock_modBlock {s : State} {b : Block} (h : s.holds b) (f g : Block → Block) (hf : ∀ x : Block, (f x).uid = x.uid) :
    (s.modBlock b.uid f).modBlock b.uid g = s.modBlock b.uid (fun x => g (f x)) := by
  have h' := block?_modBlock h f hf
  have h2 := modBlock_resident h' g
  rw [hf b] at h2
  rw [h2, modBlock_resident h, modBlock_resident h]
  simp only [List.map_map]
  congr 1
  refine List.map_congr_left fun x _ => ?_
  simp only [Function.comp_apply]
  by_cases hx : (x.uid == b.uid) = true
  · simp only [hx, if_true, hf]
  · simp only [hx, if_false, Bool.false_eq_true]

theorem nums_map {l : List Slice} {h : Slice → Slice} (hk : ∀ x ∈ l, (h x).num = x.num) :
    (l.map h).map (fun x => x.num) = l.map (fun x => x.num) := by
  rw [List.map_map]; exact List.map_congr_left fun x hx => hk x hx

/-- A slice of the gang as it stands in a state that holds its block. -/
theorem now_eq {t : State} {b b' : Block} {x y : Slice} (hb : t.holds b') (hu : b'.uid = b.uid)
    (hn : (b'.slices.map (fun x => x.num)).Nodup) (hy : y ∈ b'.slices) (hxy : y.num = x.num) : t.now b x = y := by
  have := find_num hn hy
  rw [hxy] at this
  simp only [State.now, ← hu, holds_block? hb, Option.bind_some, Block.slice?, this, Option.getD_some]

/-! ## Retirement inside a block -/

/-- A slice that stands inside its block retires to the word n words ahead. -/
theorem retire_slice {x : Slice} {n : Nat} (bad : VA → Bool) (he : x.ended = false) (hi : x.inside n = true) :
    x.retire bad false n = .ok (x.passed n) := by
  simp only [Slice.inside, Bool.and_eq_true, bne_iff_ne, ne_eq] at hi
  have hc : ¬ (x.hword.isSome && VA.plus x.pc n == x.blockEnd) = true := by simp [hi.2]
  have hm : ¬ (x.ended || false) = true := by simp [he]
  rw [Slice.retire, if_neg hm]
  exact if_neg hc

/-- Retirement of slices at one pc inside a block of a launch that is not deterministic. -/
theorem retire_inside (old : State) {s : State} {b : Block} (hb : s.holds b) (hd : (s.lrOf b).det = false) {nums : List Nat}
    {n : Nat} {qend : Bool} {pc : VA} {part : Bool}
    (hl : ∀ x ∈ b.slices.filter (fun x => nums.contains x.num), x.ended = false ∧ x.inside n = true ∧ x.pc = pc) :
    State.retire old s b.uid nums [] n qend part =
      s.modBlock b.uid (fun y => y.putSlices ((b.slices.filter (fun x => nums.contains x.num)).map fun x => x.passed n)) := by
  have hg (bad : VA → Bool) : gather ((b.slices.filter (fun x => nums.contains x.num)).map fun x =>
      x.retire bad (([] : List Nat).contains x.num) n) =
      .ok ((b.slices.filter (fun x => nums.contains x.num)).map fun x => x.passed n) := by
    refine gather_map_ok _ _ _ fun x hx => ?_
    obtain ⟨h1, h2, -⟩ := hl x hx
    exact retire_slice _ h1 h2
  have hp : partGang s.nextId ((b.slices.filter (fun x => nums.contains x.num)).map fun x => x.passed n) =
      ((b.slices.filter (fun x => nums.contains x.num)).map fun x => x.passed n, s.nextId) := by
    refine partGang_same _ _ (VA.plus pc n) fun y hy => ?_
    obtain ⟨x, hx, rfl⟩ := List.mem_map.mp hy
    rw [← (hl x hx).2.2]; rfl
  have hs : (if part = true then partGang s.nextId ((b.slices.filter (fun x => nums.contains x.num)).map fun x => x.passed n)
      else ((b.slices.filter (fun x => nums.contains x.num)).map (fun x => x.passed n), s.nextId)) =
      ((b.slices.filter (fun x => nums.contains x.num)).map (fun x => x.passed n), s.nextId) := by
    cases part
    · rfl
    · exact hp
  simp only [State.retire, holds_block? hb, hg, hd, Bool.false_and, Bool.false_eq_true, if_false, hs]
  rw [modBlock_resident hb]

/-- The issuing gang of a state in which an instruction of n words goes on. -/
theorem goes_spec {s : State} {b : Block} {l : List Slice} {n : Nat} (hi : s.issuing = some (b, l)) (hg : s.goes n = true) :
    s.whole = true ∧ (s.lrOf b).det = false ∧ (b.slices.map (fun x => x.num)).Nodup ∧
    (∃ p : Slice → Bool, l = b.slices.filter p ∧ ∀ x, p x = true → x.ended = false) ∧
    ∃ pc, ∀ x ∈ l, x.inside n = true ∧ x.pc = pc := by
  simp only [State.goes, State.plain, hi, Bool.and_eq_true, decide_eq_true_eq, Bool.not_eq_true', bne_iff_ne, ne_eq,
    List.all_eq_true, beq_iff_eq] at hg
  obtain ⟨⟨⟨⟨hw, hd⟩, hn⟩, hl⟩, ha⟩ := hg
  refine ⟨hw, hd, hn, ?_, ?_⟩
  · unfold State.issuing at hi
    unfold State.whole at hw
    split at hi
    · cases hi
    · next c hc =>
      rw [hc] at hw
      simp only [Option.isNone_iff_eq_none] at hw
      split at hi
      · cases hi
      · simp only [Option.some.injEq, Prod.mk.injEq] at hi
        obtain ⟨rfl, rfl⟩ := hi
        refine ⟨fun x => x.gang == c.gang && !x.ended, ?_, ?_⟩
        · rw [hw]; simp [Block.gangSlices]
        · intro x hx
          simp only [Bool.and_eq_true, Bool.not_eq_true'] at hx
          exact hx.2
  · cases l with
    | nil => exact absurd rfl hl
    | cons x l =>
      refine ⟨x.pc, fun y hy => ⟨(ha y hy).1, ?_⟩⟩
      simpa using (ha y hy).2

theorem keeps_inside {y x : Slice} (h : y.keeps x) (n : Nat) : y.inside n = x.inside n := by
  obtain ⟨-, -, h3, h4, h5⟩ := h
  simp only [Slice.inside, Slice.blockEnd, h3, h4, h5]

/-- In a normal launch no quantum ends. -/
theorem rested_normal (l : List Slice) : rested false l = l := by simp [rested]

/-- An effect t that keeps the gang's slices in their places goes on to the next word. -/
theorem complete_goOn {s : State} {b : Block} {l : List Slice} {n : Nat} (qend : Bool) (hi : s.issuing = some (b, l))
    (hg : s.goes n = true) {t : State} {b' : Block} (hb : t.holds b') (hu : b'.uid = b.uid) (hla : b'.launch = b.launch)
    (hlr : t.lrOf b' = s.lrOf b)
    (h : Slice → Slice) (hk : ∀ x ∈ b.slices, (h x).keeps x) (hsl : b'.slices = b.slices.map h) :
    s.complete n qend (.done t []) = t.goOn b l n := by
  obtain ⟨hw, hd, hn, ⟨p, hl, hp⟩, pc, ha⟩ := goes_spec hi hg
  have hmem : ∀ x ∈ l, x ∈ b.slices := fun x hx => by rw [hl] at hx; exact (List.mem_filter.mp hx).1
  have hf : b'.slices.filter (fun x => (l.map (fun x => x.num)).contains x.num) = l.map h := by
    rw [hsl, List.filter_map]
    have : b.slices.filter ((fun x => (l.map (fun x => x.num)).contains x.num) ∘ h) = l := by
      conv_rhs => rw [hl]
      refine List.filter_congr fun x hx => ?_
      simp only [Function.comp_apply, (hk x hx).1]
      rw [Bool.eq_iff_iff, List.contains_iff_mem]
      constructor
      · intro hm
        obtain ⟨z, hz, e⟩ := List.mem_map.mp hm
        have : z = x := List.inj_on_of_nodup_map hn (hmem z hz) hx e
        rw [hl] at hz
        exact this ▸ (List.mem_filter.mp hz).2
      · intro hpx
        exact List.mem_map_of_mem (hl ▸ List.mem_filter.mpr ⟨hx, hpx⟩)
    rw [this]
  have hnow : ∀ x ∈ l, t.now b x = h x := fun x hx =>
    now_eq hb hu (by rw [hsl, nums_map fun x hx => (hk x hx).1]; exact hn) (hsl ▸ List.mem_map_of_mem (hmem x hx)) (hk x (hmem x hx)).1
  simp only [State.complete, hi, hw]
  have := retire_inside s hb (hlr ▸ hd) (nums := l.map (fun x => x.num)) (n := n) (qend := qend) (pc := pc) (part := true) (by
    rw [hf]
    intro y hy
    obtain ⟨x, hx, rfl⟩ := List.mem_map.mp hy
    have hkx := hk x (hmem x hx)
    refine ⟨?_, ?_, ?_⟩
    · rw [hkx.2.1]; rw [hl] at hx; exact hp x (List.mem_filter.mp hx).2
    · rw [keeps_inside hkx]; exact (ha x hx).1
    · rw [hkx.2.2.1]; exact (ha x hx).2)
  rw [hf, List.map_map, hu] at this
  have hd' : (t.lrOf b).det = false := by
    rw [← hd, ← hlr]; simp only [State.lrOf, hla]
  rw [this, State.goOn, hd', rested_normal]
  congr 1
  funext y
  congr 1
  exact List.map_congr_left fun x hx => by rw [hnow x hx]; rfl

/-- An instruction on the registers of each slice goes on to the next word of its block. -/
theorem perSlice_goes {s : State} {b : Block} {l : List Slice} {n : Nat} {g : Guard} {f : Env → Slice → Except Ev Slice}
    (h : Slice → Slice) (hi : s.issuing = some (b, l)) (hg : s.goes n = true)
    (hf : ∀ x ∈ l, x.part_ g ≠ 0 → f (s.envOf b x) x = .ok (h x)) (hk : ∀ x ∈ l, (h x).keeps x) :
    s.perSlice g n f = s.after b l n (fun x => x.when g h) := by
  have hh := issuing_holds hi
  obtain ⟨-, hdet, hn, ⟨p, hl, hp⟩, -⟩ := goes_spec hi hg
  have hk' : ∀ x ∈ l, (x.when g h).keeps x := by
    intro x hx
    unfold Slice.when
    split
    · exact ⟨rfl, rfl, rfl, rfl, rfl⟩
    · exact hk x hx
  have hga : gather (l.map fun x => if x.part_ g = 0 then Except.ok (x, false) else
      (f (s.envOf b x) x).map fun y => (y, false)) = .ok (l.map fun x => (x.when g h, false)) := by
    refine gather_map_ok _ _ _ fun x hx => ?_
    unfold Slice.when
    split
    · rfl
    · next hp => rw [hf x hx hp]; rfl
  simp only [State.perSlice, hi, eachSlice, eachMove, hga, List.map_map, Function.comp_def]
  rw [show (List.map (fun x => x.1.num) (List.filter (fun x => x.2) (l.map fun x => (x.when g h, false)))) = [] by
    rw [List.filter_eq_nil_iff.mpr (by simp)]; rfl]
  have hd := block?_modBlock hh (fun b => b.putSlices (l.map fun x => x.when g h)) fun _ => rfl
  rw [complete_goOn false hi hg hd rfl rfl (lrOf_modBlock hh _ _) (fun x => if p x then x.when g h else x)
    (fun x hx => by
      by_cases hpx : p x = true
      · rw [if_pos hpx]; exact hk' x (hl ▸ List.mem_filter.mpr ⟨hx, hpx⟩)
      · rw [if_neg hpx]; exact ⟨rfl, rfl, rfl, rfl, rfl⟩)
    (by rw [hl] at hk' ⊢; exact putSlices_map b p _ hn fun x hx => (hk' x hx).1)]
  rw [State.goOn, modBlock_modBlock hh (fun b => b.putSlices (l.map fun x => x.when g h)) _ fun _ => rfl, State.after, lrOf_modBlock hh, hdet,
    rested_normal, rested_normal]
  congr 1
  funext y
  have hnow : ∀ x ∈ l, (s.modBlock b.uid fun b => b.putSlices (l.map fun x => x.when g h)).now b x = x.when g h := by
    intro x hx
    have hsub : ((l.map fun x => x.when g h).map (fun x => x.num)).Nodup := by
      rw [nums_map fun x hx => (hk' x hx).1, hl]
      exact hn.sublist ((List.filter_sublist).map _)
    have := find_num hsub (List.mem_map_of_mem (f := fun x => x.when g h) hx)
    rw [(hk' x hx).1] at this
    refine now_eq hd rfl (by rw [putSlices_nums]; exact hn) (List.mem_map.mpr ⟨x, ?_, by rw [this]; rfl⟩) (hk' x hx).1
    rw [hl] at hx; exact (List.mem_filter.mp hx).1
  rw [List.map_congr_left (f := fun x => ((s.modBlock b.uid fun b => b.putSlices (l.map fun x => x.when g h)).now b x).passed n)
    (g := fun x => (x.when g h).passed n) fun x hx => by rw [hnow x hx]]
  exact putSlices_twice y _ _ (by
    rw [List.map_map, List.map_map]
    exact List.map_congr_left fun x _ => rfl)

end Sys2Proof.Machine
end

