-- ==== Sys2Proof/Laws/Keeps.lean ====
section
/-! SUPPORT. What an instruction's effect keeps of its gang: a relation between the states before and after that every shared
operation on memory, shares, tags, spans and commands satisfies, and that lets the instruction go on. -/

namespace Sys2Proof.Machine

theorem Slice.keeps_refl (x : Slice) : x.keeps x := ⟨rfl, rfl, rfl, rfl, rfl⟩

theorem Slice.keeps_trans {x y z : Slice} (h : z.keeps y) (k : y.keeps x) : z.keeps x :=
  ⟨h.1.trans k.1, h.2.1.trans k.2.1, h.2.2.1.trans k.2.2.1, h.2.2.2.1.trans k.2.2.2.1, h.2.2.2.2.trans k.2.2.2.2⟩

/-- From s to t the resident block `uid` stays, its slices where they are, and every launch keeps its record. -/
def State.Keeps (s t : State) (uid : Nat) : Prop :=
  (∀ k, (t.launch? k).map (fun l => l.rcd) = (s.launch? k).map (fun l => l.rcd)) ∧
  ∀ b, s.holds b → b.uid = uid → ∃ b' h, t.holds b' ∧ b'.uid = uid ∧ b'.launch = b.launch ∧
    (∀ x ∈ b.slices, Slice.keeps (h x) x) ∧ b'.slices = b.slices.map h

namespace Keeps

theorem refl (s : State) (uid : Nat) : s.Keeps s uid :=
  ⟨fun _ => rfl, fun b hb hu => ⟨b, id, hb, hu, rfl, fun x _ => x.keeps_refl, by simp⟩⟩

theorem trans {s t u : State} {uid : Nat} (h : s.Keeps t uid) (k : t.Keeps u uid) : s.Keeps u uid := by
  refine ⟨fun n => (k.1 n).trans (h.1 n), fun b hb hu => ?_⟩
  obtain ⟨b1, f, hb1, hu1, hl1, hf, hs1⟩ := h.2 b hb hu
  obtain ⟨b2, g, hb2, hu2, hl2, hg, hs2⟩ := k.2 b1 hb1 hu1
  refine ⟨b2, g ∘ f, hb2, hu2, hl2.trans hl1, fun x hx => ?_, by rw [hs2, hs1, List.map_map]⟩
  exact Slice.keeps_trans (hg (f x) (hs1 ▸ List.mem_map_of_mem hx)) (hf x hx)

/-- A change outside blocks and launches. -/
theorem same {s t : State} (uid : Nat) (hb : t.blocks = s.blocks) (hl : t.launches = s.launches) : s.Keeps t uid := by
  refine ⟨fun n => by simp only [State.launch?, hl], fun b h hu => ⟨b, id, ?_, hu, rfl, fun x _ => x.keeps_refl, by simp⟩⟩
  rw [State.holds, hb]; exact h

theorem newId (s : State) (uid : Nat) : s.Keeps s.newId.2 uid := same uid rfl rfl

/-- A step followed by a change outside blocks and launches. -/
theorem andSame {s t u : State} {uid : Nat} (h : s.Keeps t uid) (hb : u.blocks = t.blocks) (hl : u.launches = t.launches) :
    s.Keeps u uid := trans h (same uid hb hl)

theorem modBlock_holds {s : State} {b : Block} {uid : Nat} (h : s.holds b) (f : Block → Block) (hf : ∀ x, (f x).uid = x.uid) :
    (s.modBlock uid f).holds (if b.uid = uid then f b else b) := by
  by_cases hu : b.uid = uid
  · subst hu; rw [if_pos rfl]; exact block?_modBlock h f hf
  · rw [if_neg hu]
    unfold State.modBlock
    split
    · unfold State.holds at h ⊢
      simp only
      have hfun : ((fun x : Block => x.uid == b.uid) ∘ fun x => if x.uid == uid then f x else x) = fun x => x.uid == b.uid := by
        funext x
        simp only [Function.comp_apply]
        split
        · rw [hf]
        · rfl
      rw [List.find?_map, hfun, h]
      simp [hu]
    · exact h

theorem launch_find (l : List Launch) (g : Launch → Launch) (hi : ∀ x, (g x).id = x.id) (hr : ∀ x, (g x).rcd = x.rcd) (k : Nat) :
    ((l.map g).find? (fun x => x.id == k)).map (fun x => x.rcd) = (l.find? (fun x => x.id == k)).map (fun x => x.rcd) := by
  rw [List.find?_map]
  have : ((fun x : Launch => x.id == k) ∘ g) = fun x => x.id == k := by funext x; simp [hi]
  rw [this]
  cases l.find? (fun x => x.id == k) <;> simp [hr]

/-- A change of a block that keeps its slices in their places. -/
theorem modBlock (s : State) (uid uid' : Nat) (f : Block → Block) (hu : ∀ x, (f x).uid = x.uid) (hl : ∀ x, (f x).launch = x.launch)
    (hs : ∀ x : Block, ∃ h : Slice → Slice, (∀ y ∈ x.slices, Slice.keeps (h y) y) ∧ (f x).slices = x.slices.map h) :
    s.Keeps (s.modBlock uid' f) uid := by
  refine ⟨fun k => ?_, fun b hb hb' => ?_⟩
  · unfold State.modBlock
    simp only
    split
    · rfl
    · unfold State.launch?; exact launch_find s.launches _ (by intro x; rfl) (by intro x; rfl) k
  · have := modBlock_holds (uid := uid') hb f hu
    by_cases h : b.uid = uid'
    · rw [if_pos h] at this
      obtain ⟨g, hg, he⟩ := hs b
      exact ⟨f b, g, this, (hu b).trans hb', hl b, hg, he⟩
    · rw [if_neg h] at this
      exact ⟨b, id, this, hb', rfl, fun x _ => x.keeps_refl, by simp⟩

theorem modSlice (s : State) (uid uid' n : Nat) (f : Slice → Slice) (hf : ∀ x, (f x).keeps x) :
    s.Keeps (s.modSlice uid' n f) uid := by
  refine modBlock s uid uid' _ (fun _ => rfl) (fun _ => rfl) fun x =>
    ⟨fun y => if y.num == n then f y else y, fun y _ => ?_, rfl⟩
  simp only; split
  · exact hf y
  · exact y.keeps_refl

theorem modShare (s : State) (uid uid' n : Nat) (f : Share → Share) : s.Keeps (s.modShare uid' n f) uid :=
  modBlock s uid uid' _ (fun _ => rfl) (fun _ => rfl) fun x => ⟨id, fun y _ => y.keeps_refl, by simp [Block.modShare]⟩

theorem modLaunch (s : State) (uid k : Nat) (f : Launch → Launch) (hi : ∀ x, (f x).id = x.id) (hr : ∀ x, (f x).rcd = x.rcd) :
    s.Keeps (s.modLaunch k f) uid := by
  refine ⟨fun n => ?_, fun b hb hu => ⟨b, id, hb, hu, rfl, fun x _ => x.keeps_refl, by simp⟩⟩
  exact launch_find s.launches _ (fun x => by split <;> simp [hi]) (fun x => by split <;> simp [hr]) n

theorem foldl {α : Type} {f : State → α → State} {uid : Nat} (hf : ∀ (s : State) x, s.Keeps (f s x) uid) (l : List α) (s : State) :
    s.Keeps (l.foldl f s) uid := by
  induction l generalizing s with
  | nil => exact refl s uid
  | cons x l ih => exact trans (hf s x) (ih (f s x))

/-- An effect that keeps the gang's slices in their places goes on to the next word of the block. -/
theorem complete {s t : State} {b : Block} {l : List Slice} {n : Nat} (qend : Bool) (hi : s.issuing = some (b, l))
    (hg : s.goes n = true) (h : s.Keeps t b.uid) : s.complete n qend (.done t []) = t.goOn b l n := by
  obtain ⟨b', f, hb', hu, hl, hf, hs⟩ := h.2 b (issuing_holds hi) rfl
  refine complete_goOn qend hi hg hb' hu hl ?_ f hf hs
  have := h.1 b.launch
  unfold State.lrOf
  rw [hl]
  revert this
  cases t.launch? b.launch <;> cases s.launch? b.launch <;> simp

theorem perGang {s t : State} {b : Block} {l : List Slice} {n : Nat} {qend : Bool} {f : Block → List Slice → Res}
    (hi : s.issuing = some (b, l)) (hg : s.goes n = true) (hf : f b l = .done t []) (h : s.Keeps t b.uid) :
    s.perGang n qend f = t.goOn b l n := by
  simp only [State.perGang, hi, hf, complete qend hi hg h]

theorem perSerial {s t : State} {b : Block} {l : List Slice} {n : Nat} {g : Guard} {f : Block → List Slice → Res}
    (hi : s.issuing = some (b, l)) (hg : s.goes n = true) (hf : f b l = .done t []) (h : s.Keeps t b.uid) :
    s.perSerial g n f = t.goOn b l n := by
  obtain ⟨-, hd, -⟩ := goes_spec hi hg
  simp only [State.perSerial, hi, hd, Bool.false_and, Bool.false_eq_true, if_false, hf, complete true hi hg h]

theorem perKind {s t : State} {b : Block} {l : List Slice} {n : Nat} {g : Guard} {sync : Bool} {f : Block → List Slice → Res}
    (hi : s.issuing = some (b, l)) (hg : s.goes n = true) (hf : f b l = .done t []) (h : s.Keeps t b.uid) :
    s.perKind sync g n f = t.goOn b l n := by
  unfold State.perKind
  split
  · exact perSerial hi hg hf h
  · exact perGang hi hg hf h

end Keeps

end Sys2Proof.Machine
end

