-- ==== Sys2Proof/Laws/Effects.lean ====
section
/-! SUPPORT. The shared operations on registers and memory keep a gang's slices in their places. -/

namespace Sys2Proof.Machine

/-! ## Registers -/

namespace Slice

theorem keeps_wv (x : Slice) (r l : Nat) (w : LWord) : (x.wv r l w).keeps x := ⟨rfl, rfl, rfl, rfl, rfl⟩
theorem keeps_ws (x : Slice) (r : Nat) (w : Word) : (x.ws r w).keeps x := ⟨rfl, rfl, rfl, rfl, rfl⟩
theorem keeps_wp (x : Slice) (r : Nat) (m : Mask) : (x.wp r m).keeps x := by
  unfold Slice.wp; split <;> exact ⟨rfl, rfl, rfl, rfl, rfl⟩

theorem keeps_putLane (x : Slice) (r l : Nat) (sg : Bool) (w v : Nat) : (x.putLane r l sg w v).keeps x := by
  unfold Slice.putLane
  split
  · exact keeps_wv ..
  · split
    · exact keeps_trans (keeps_wv ..) (keeps_wv ..)
    · exact keeps_trans (keeps_wv ..) (keeps_trans (keeps_wv ..) (keeps_trans (keeps_wv ..) (keeps_wv ..)))

theorem keeps_foldl {α : Type} {f : Slice → α → Slice} (hf : ∀ (x : Slice) a, (f x a).keeps x) (l : List α) (x : Slice) :
    (l.foldl f x).keeps x := by
  induction l generalizing x with
  | nil => exact x.keeps_refl
  | cons a l ih => exact keeps_trans (ih (f x a)) (hf x a)

theorem keeps_overLanes (x : Slice) (m : Mask) {f : Nat → Slice → Slice} (hf : ∀ l (y : Slice), (f l y).keeps y) :
    (x.overLanes m f).keeps x := keeps_foldl (fun y l => hf l y) _ x

theorem keeps_setInt (x : Slice) (g : Guard) (d : Opd) (sg : Bool) (w : Nat) (f : Nat → Nat) : (x.setInt g d sg w f).keeps x := by
  unfold Slice.setInt
  cases d <;> simp only
  case v n => exact keeps_overLanes _ _ fun _ _ => keeps_putLane ..
  case s n => split; exacts [x.keeps_refl, keeps_ws ..]
  all_goals exact x.keeps_refl

theorem keeps_setPred (x : Slice) (g : Guard) (d : Opd) (f : Nat → Bool) : (x.setPred g d f).keeps x := by
  unfold Slice.setPred
  cases d <;> simp only
  case p n => exact keeps_wp ..
  all_goals exact x.keeps_refl

theorem keeps_setS (x : Slice) (g : Guard) (d : Opd) (w : Word) : (x.setS g d w).keeps x := by
  unfold Slice.setS
  cases d <;> simp only
  case s n => split; exacts [x.keeps_refl, keeps_ws ..]
  all_goals exact x.keeps_refl

theorem keeps_apply (w : RegWrite) (x : Slice) : (w.apply x).keeps x := by
  cases w
  · exact keeps_wv ..
  · exact keeps_ws ..

theorem keeps_putLoad (d : Opd) (sg : Bool) (w : Nat) (a : Acc) (v : Nat) (x : Slice) : (putLoad d sg w a v x).keeps x := by
  unfold putLoad
  cases d <;> simp only
  case v n => exact keeps_putLane ..
  case s n => exact keeps_ws ..
  all_goals exact x.keeps_refl

theorem keeps_putSplit (d : Opd) (n : Nat) (a : Acc) (v : Nat) (x : Slice) : (putSplit d n a v x).keeps x := by
  unfold putSplit
  cases d <;> simp only
  case v n => split <;> exact keeps_putLane ..
  all_goals exact x.keeps_refl

end Slice

/-! ## Memory -/

namespace Keeps

theorem remember (s : State) (c va uid : Nat) : s.Keeps (s.remember c va) uid := by
  unfold State.remember
  split
  · split
    · exact refl s uid
    · exact same uid rfl rfl
  · exact refl s uid

theorem rememberAll (s : State) (c uid : Nat) (l : List Acc) : s.Keeps (s.rememberAll c l) uid := by
  refine foldl (fun s a => ?_) l s
  cases a.ea
  · exact refl s uid
  · exact remember ..

theorem tagAccess (s : State) (b : Block) (p : Phys) (n : Nat) (w : Bool) (uid : Nat) : s.Keeps (s.tagAccess b p n w) uid := by
  unfold State.tagAccess
  split
  · exact refl s uid
  · exact foldl (fun s l => modLaunch s uid _ _ (by intro x; rfl) (by intro x; rfl)) _ s

theorem setSpan (s : State) (p : Span) (uid : Nat) : s.Keeps (s.setSpan p) uid := same uid rfl rfl

theorem startFetch (s : State) (n uid : Nat) : s.Keeps (s.startFetch n) uid := by
  unfold State.startFetch
  simp only
  split
  · exact setSpan ..
  · exact setSpan ..
  · exact refl s uid

theorem policyFetch (s : State) (p : Phys) (uid : Nat) : s.Keeps (s.policyFetch p) uid := by
  unfold State.policyFetch
  split
  · simp only; split
    · exact startFetch ..
    · exact refl s uid
  · exact refl s uid

theorem sendFlit (s : State) (p : Nat) (slot : Bool) (kind vc : Nat) (text : List Byte) (uid : Nat) :
    s.Keeps (s.sendFlit p slot kind vc text) uid := by
  unfold State.sendFlit
  simp only
  split
  · exact refl s uid
  · split <;> exact same uid rfl rfl

theorem carry (s : State) (p vc uid : Nat) : s.Keeps (s.carry p vc) uid := by
  unfold State.carry
  refine trans (t := s.stepTag) (same uid rfl rfl) (foldl (fun s t => ?_) _ _)
  unfold State.sendNow
  split
  · exact sendFlit ..
  · exact refl s uid

theorem travels (s : State) (c : Nat) (p : Phys) (n : Nat) (w : Bool) (uid : Nat) : s.Keeps (s.travels c p n w) uid := by
  unfold State.travels
  refine trans (t := s.sendOut p w) ?_ ?_
  · unfold State.sendOut
    split
    · exact foldl (fun s k => carry ..) _ s
    · exact refl s uid
  · simp only
    split
    · exact refl _ uid
    · exact same uid rfl rfl

theorem loadTick (s : State) (b : Block) (n key uid : Nat) : s.Keeps (s.loadTick b n key) uid := by
  unfold State.loadTick
  simp only
  exact trans (same uid rfl rfl) (modSlice _ uid _ _ _ fun x => ⟨rfl, rfl, rfl, rfl, rfl⟩)

theorem storeTick (s : State) (b : Block) (n key uid : Nat) : s.Keeps (s.storeTick b n key) uid := by
  unfold State.storeTick
  simp only
  exact trans (same uid rfl rfl) (modSlice _ uid _ _ _ fun x => ⟨rfl, rfl, rfl, rfl, rfl⟩)

theorem loadMark (s : State) (b : Block) (sl : Slice) (p : Phys) (nt : Bool) (uid : Nat) : s.Keeps (s.loadMark b sl p nt) uid := by
  unfold State.loadMark
  split
  · exact trans (same uid rfl rfl) (loadTick ..)
  · exact refl s uid

theorem afterLoads (s : State) (b : Block) (nt : Bool) (l : List Slice) (accs : List Acc) (uid : Nat) :
    s.Keeps (s.afterLoads b nt l accs) uid := by
  unfold State.afterLoads
  exact trans (rememberAll ..) (foldl (fun s a => trans (trans (trans (loadMark ..) (tagAccess ..)) (travels ..)) (policyFetch ..)) _ _)

theorem beforeLoads (s : State) (b : Block) (acq : Bool) (l : List Slice) (accs : List Acc) (uid : Nat) :
    s.Keeps (s.beforeLoads b acq l accs) uid := by
  unfold State.beforeLoads
  split
  · refine foldl (fun s a => ?_) _ s
    exact same uid rfl rfl
  · exact refl s uid

theorem loaded (s : State) (b : Block) (l : List Slice) (accs : List Acc) (acq nt : Bool) (put : Acc → Nat → Slice → Slice)
    (hp : ∀ a v (x : Slice), (put a v x).keeps x) (uid : Nat) : s.Keeps (s.loaded b l accs acq nt put) uid := by
  unfold State.loaded
  simp only
  exact trans (trans (beforeLoads ..) (afterLoads ..)) (foldl (fun s v => modSlice _ _ _ _ _ fun x => hp ..) _ _)

theorem onWay (s : State) (cmd : Nat) (ps : List Phys) (uid : Nat) : s.Keeps (s.onWay cmd ps) uid :=
  foldl (fun (s : State) x => (same uid (by rfl) (by rfl) : s.Keeps _ uid)) _ s

theorem releaseHeld (s : State) (b : Block) (sl : Slice) (sc : Scope) (uid : Nat) : s.Keeps (s.releaseHeld b sl sc) uid :=
  same uid rfl rfl

theorem stsOne (s : State) (b : Block) (sl : Slice) (so : Nat) (d : List Byte) (uid : Nat) : s.Keeps (s.stsOne b sl so d) uid := by
  unfold State.stsOne
  simp only
  split
  · exact modSlice _ _ _ _ _ fun x => ⟨rfl, rfl, rfl, rfl, rfl⟩
  · exact trans (trans (trans (releaseHeld ..) (modShare ..)) (same uid rfl rfl)) (storeTick ..)

theorem issueScratch (s : State) (b : Block) (sl : Slice) (vals : List (Acc × Nat × List Byte)) (uid : Nat) :
    s.Keeps (s.issueScratch b sl vals) uid := by
  have hk : ∀ (s : State) (n : Nat) (f : Slice → Slice), (∀ x, (f x).keeps x) → s.Keeps (s.modSlice b.uid n f) uid :=
    fun s n f hf => modSlice s uid b.uid n f hf
  unfold State.issueScratch
  simp only
  split
  · exact foldl (fun s v => stsOne ..) _ s
  split
  · refine foldl (fun s v => ?_) _ s
    exact trans (trans (newId s uid) (modShare ..)) (hk _ _ _ fun x => ⟨rfl, rfl, rfl, rfl, rfl⟩)
  · split
    · exact hk _ _ _ fun x => ⟨rfl, rfl, rfl, rfl, rfl⟩
    · refine trans (t := if sl.handling then s else s.modSlice b.uid sl.num fun x => { x with supC := x.supC.perform none }) ?_ ?_
      rotate_left
      · refine foldl (fun s v => ?_) _ _
        exact andSame (trans (trans (newId s uid) (modShare ..)) (onWay ..)) rfl rfl
      split
      · exact refl s uid
      · exact hk _ _ _ fun x => ⟨rfl, rfl, rfl, rfl, rfl⟩

theorem loadsSent (s : State) (b : Block) (l : List Slice) (accs : List Acc) (acq nt : Bool) (uid : Nat) :
    s.Keeps (s.loadsSent b l accs acq nt) uid := by
  unfold State.loadsSent
  simp only
  refine trans (trans (beforeLoads ..) (afterLoads ..)) (foldl (fun s v => ?_) _ _)
  split
  · exact refl ..
  · exact issueScratch ..

/-! ## Stores -/

theorem appendAll (s : State) (es : List (Nat × CocoonEntry)) (uid : Nat) : s.Keeps (s.appendAll es) uid :=
  foldl (fun _ _ => setSpan ..) es s

theorem opmWrite (s : State) (l : OpmLoc) (x : Byte) (uid : Nat) : s.Keeps (s.opmWrite l x) uid := by
  cases l with
  | reg blk sl r ln i =>
    refine modSlice s uid _ _ _ fun y => ?_
    split
    · exact Slice.keeps_wv ..
    · exact y.keeps_refl
  | scratch blk sh off => exact modShare ..
  | tile blk sh t w i => exact modShare ..

theorem mirror (s : State) (p : Phys) (i : Nat) (x : Byte) (uid : Nat) : s.Keeps (s.mirror p i x) uid := by
  unfold State.mirror
  split
  · exact same uid rfl rfl
  · exact refl s uid

theorem writeByte (s : State) (b : Block) (sl : Slice) (hold : Option Nat) (seq : Nat) (nt : Bool) (c : Option CachePlace) (p : Phys)
    (i : Nat) (x : Byte) (uid : Nat) : s.Keeps (s.writeByte b sl hold seq nt c p i x) uid := by
  unfold State.writeByte
  refine trans (mirror s p i x uid) ?_
  simp only
  split
  · split
    · exact trans (opmWrite ..) (same uid rfl rfl)
    · exact refl _ uid
  · split
    · exact same uid rfl rfl
    · split
      · exact same uid rfl rfl
      · exact same uid rfl rfl

theorem writeBytes (s : State) (b : Block) (sl : Slice) (hold : Option Nat) (seq : Nat) (nt : Bool) (c : Option CachePlace) (p : Phys)
    (d : List (Option Byte)) (uid : Nat) : s.Keeps (s.writeBytes b sl hold seq nt c p d) uid := by
  refine foldl (fun s x => ?_) _ s
  split
  · exact writeByte ..
  · exact refl s uid

theorem storeMark (s : State) (b : Block) (sl : Slice) (p : Phys) (d : List (Option Byte)) (uid : Nat) :
    s.Keeps (s.storeMark b sl p d) uid := by
  unfold State.storeMark
  split
  · exact trans (same uid rfl rfl) (storeTick ..)
  · exact refl s uid

theorem storeOne (s : State) (b : Block) (sc : Scope) (nt : Bool) (c : Option CachePlace) (seq : Nat)
    (x : Slice × Phys × List (Option Byte)) (uid : Nat) : s.Keeps (s.storeOne b sc nt c seq x) uid := by
  unfold State.storeOne
  simp only
  generalize (if s.inAbsentSpan x.2.1 = true then Scope.fab else scopeOn x.2.1 sc) = sc'
  refine trans ?_ (storeMark ..)
  split
  · exact trans (trans (trans (releaseHeld ..) (tagAccess ..)) (travels ..)) (appendAll ..)
  · exact trans (trans (trans (releaseHeld ..) (tagAccess ..)) (travels ..)) (writeBytes ..)

theorem stored (s : State) (b : Block) (sc : Scope) (nt : Bool) (l : List (Slice × Phys × List (Option Byte)))
    (c : Option CachePlace) (uid : Nat) : s.Keeps (s.stored b sc nt l c) uid :=
  trans (same uid rfl rfl) (foldl (fun _ _ => storeOne ..) l _)

theorem ldsDone (s : State) (b : Block) (l : List Slice) (accs : List Acc) (n : Nat) (put : Acc → Nat → Slice → Slice)
    (hp : ∀ a v (x : Slice), (put a v x).keeps x) (uid : Nat) : s.Keeps (s.ldsDone b l accs n put) uid :=
  foldl (fun _ _ => trans (loadTick ..) (modSlice _ _ _ _ _ fun _ => hp ..)) accs s

theorem stsDone (s : State) (b : Block) (l : List Slice) (ty : Ty) (c : Opd) (accs : List Acc) (uid : Nat) :
    s.Keeps (s.stsDone b l ty c accs) uid := foldl (fun _ _ => stsOne ..) accs s

theorem overSlices {f : State → Block → Slice → State} {uid : Nat} (hf : ∀ (s : State) b x, s.Keeps (f s b x) uid) (s : State)
    (g : Guard) (b : Block) (l : List Slice) : s.Keeps (overSlices s g b l f) uid := by
  refine foldl (fun s x => ?_) _ s
  split
  · split
    · exact hf ..
    · exact refl ..
  · exact refl ..

end Keeps

end Sys2Proof.Machine
end

