-- ==== Sys2Proof/Laws/Memory.lean ====
section
/-! SUPPORT. Sparse arrays and memory: a read after a write, a write elsewhere, and the canonical form that every operation on memory
keeps. -/

namespace Sys2Proof.Machine

namespace Cells

variable {α : Type}

theorem find?_put_same (l : Cells α) (k : Nat) (x : α) : find? (put l k x) k = some x := by
  induction l with
  | nil => simp [put, find?]
  | cons c l ih =>
    unfold put
    split
    · simp [find?]
    · split
      · simp [find?]
      · next h _ => simp [find?, h, ih]

theorem find?_put_other (l : Cells α) {k n : Nat} (x : α) (h : n ≠ k) : find? (put l k x) n = find? l n := by
  induction l with
  | nil => simp [put, find?, Ne.symm h]
  | cons c l ih =>
    unfold put
    split
    · next e => simp [find?, Ne.symm h, e]
    · split
      · simp [find?, Ne.symm h]
      · simp [find?, ih]

theorem find?_filter (l : Cells α) (p : Nat → Bool) (n : Nat) (h : p n = true) : find? (l.filter fun c => p c.1) n = find? l n := by
  induction l with
  | nil => rfl
  | cons c l ih =>
    simp only [List.filter_cons]
    split
    · simp [find?, ih]
    · next hc =>
      have : c.1 ≠ n := fun e => hc (e ▸ h)
      simp [find?, this, ih]

theorem find?_filter_none (l : Cells α) (p : Nat → Bool) (n : Nat) (h : p n = false) : find? (l.filter fun c => p c.1) n = none := by
  induction l with
  | nil => rfl
  | cons c l ih =>
    simp only [List.filter_cons]
    split
    · next hc =>
      have : c.1 ≠ n := fun e => by simp [e, h] at hc
      simp [find?, this, ih]
    · exact ih

theorem find?_del_same (l : Cells α) (k : Nat) : find? (del l k) k = none := find?_filter_none l (fun n => n != k) k (by simp)

theorem find?_del_other (l : Cells α) {k n : Nat} (h : n ≠ k) : find? (del l k) n = find? l n := find?_filter l (fun n => n != k) n (by simpa using h)

variable [DecidableEq α]

theorem get_set_same (d : α) (l : Cells α) (k : Nat) (x : α) : get d (set d l k x) k = x := by
  unfold set
  split
  · next h => simp [get, find?_del_same, h]
  · simp [get, find?_put_same]

theorem get_set_other (d : α) (l : Cells α) {k n : Nat} (x : α) (h : n ≠ k) : get d (set d l k x) n = get d l n := by
  unfold set
  split
  · simp [get, find?_del_other l h]
  · simp [get, find?_put_other l x h]

theorem get_set (d : α) (l : Cells α) (k n : Nat) (x : α) : get d (set d l k x) n = if n = k then x else get d l n := by
  split
  · next h => rw [h, get_set_same]
  · next h => exact get_set_other d l x h

/-! ## The canonical form -/

omit [DecidableEq α] in
theorem sorted_mono {l : Cells α} {a b : Nat} (h : a ≤ b) (hs : sorted b l = true) : sorted a l = true := by
  cases l with
  | nil => rfl
  | cons c l =>
    simp only [sorted, Bool.and_eq_true, decide_eq_true_eq] at hs ⊢
    exact ⟨h.trans hs.1, hs.2⟩

omit [DecidableEq α] in
theorem sorted_filter {l : Cells α} {b : Nat} (p : Nat × α → Bool) (hs : sorted b l = true) : sorted b (l.filter p) = true := by
  induction l generalizing b with
  | nil => rfl
  | cons c l ih =>
    simp only [sorted, Bool.and_eq_true, decide_eq_true_eq] at hs
    simp only [List.filter_cons]
    split
    · simp only [sorted, Bool.and_eq_true, decide_eq_true_eq]; exact ⟨hs.1, ih hs.2⟩
    · exact sorted_mono (Nat.le_succ_of_le hs.1) (ih hs.2)

omit [DecidableEq α] in
theorem sorted_put {l : Cells α} {b k : Nat} (x : α) (hb : b ≤ k) (hs : sorted b l = true) : sorted b (put l k x) = true := by
  induction l generalizing b with
  | nil => simp [put, sorted, hb]
  | cons c l ih =>
    simp only [sorted, Bool.and_eq_true, decide_eq_true_eq] at hs
    unfold put
    split
    · next e => subst e; simp [sorted, hs]
    · split
      · next h => simp [sorted, hb, hs.2]; omega
      · next h1 h2 =>
        simp only [sorted, Bool.and_eq_true, decide_eq_true_eq]
        exact ⟨hs.1, ih (by omega) hs.2⟩

omit [DecidableEq α] in
theorem mem_put {l : Cells α} {k : Nat} {x : α} {c : Nat × α} (h : c ∈ put l k x) : c = (k, x) ∨ c ∈ l := by
  induction l with
  | nil => simpa [put] using h
  | cons d l ih =>
    unfold put at h
    split at h
    · rcases List.mem_cons.mp h with h | h
      · exact .inl h
      · exact .inr (List.mem_cons_of_mem _ h)
    · split at h
      · rcases List.mem_cons.mp h with h | h
        · exact .inl h
        · exact .inr h
      · rcases List.mem_cons.mp h with h | h
        · exact .inr (h ▸ List.mem_cons_self ..)
        · rcases ih h with h | h
          · exact .inl h
          · exact .inr (List.mem_cons_of_mem _ h)

theorem wf_iff (d : α) (l : Cells α) : wf d l = true ↔ sorted 0 l = true ∧ ∀ c ∈ l, c.2 ≠ d := by simp [wf]

theorem wf_filter {d : α} {l : Cells α} (p : Nat × α → Bool) (h : wf d l = true) : wf d (l.filter p) = true := by
  rw [wf_iff] at h ⊢
  exact ⟨sorted_filter p h.1, fun c hc => h.2 c (List.mem_filter.mp hc).1⟩

theorem wf_set {d : α} {l : Cells α} (k : Nat) (x : α) (h : wf d l = true) : wf d (set d l k x) = true := by
  unfold set
  split
  · exact wf_filter _ h
  · next hx =>
    rw [wf_iff] at h ⊢
    refine ⟨sorted_put x (Nat.zero_le _) h.1, fun c hc => ?_⟩
    rcases mem_put hc with rfl | hc
    · exact hx
    · exact h.2 c hc

theorem wf_putBytes {l : Cells Byte} (k : Nat) (bs : List Byte) (h : wf 0 l = true) : wf 0 (putBytes l k bs) = true := by
  induction bs generalizing l k with
  | nil => exact h
  | cons b bs ih => exact ih _ (wf_set k b h)

omit [DecidableEq α] in
theorem find?_some_mem {l : Cells α} {k : Nat} {x : α} (h : find? l k = some x) : (k, x) ∈ l := by
  induction l with
  | nil => cases h
  | cons c l ih =>
    unfold find? at h
    split at h
    · next e => cases h; subst e; exact List.mem_cons_self ..
    · exact List.mem_cons_of_mem _ (ih h)

omit [DecidableEq α] in
theorem sorted_le {l : Cells α} {b : Nat} (hs : sorted b l = true) {c : Nat × α} (hc : c ∈ l) : b ≤ c.1 := by
  induction l generalizing b with
  | nil => cases hc
  | cons d l ih =>
    simp only [sorted, Bool.and_eq_true, decide_eq_true_eq] at hs
    rcases List.mem_cons.mp hc with rfl | hc
    · exact hs.1
    · exact Nat.le_of_succ_le (hs.1.trans (Nat.le_of_succ_le (ih hs.2 hc)) |> fun h => by have := ih hs.2 hc; omega)

omit [DecidableEq α] in
theorem find?_of_mem {l : Cells α} {b : Nat} (hs : sorted b l = true) {c : Nat × α} (hc : c ∈ l) : find? l c.1 = some c.2 := by
  induction l generalizing b with
  | nil => cases hc
  | cons d l ih =>
    simp only [sorted, Bool.and_eq_true, decide_eq_true_eq] at hs
    rcases List.mem_cons.mp hc with rfl | hc
    · simp [find?]
    · have := sorted_le hs.2 hc
      have hne : d.1 ≠ c.1 := by omega
      simp only [find?, if_neg hne]
      exact ih hs.2 hc

end Cells

/-! ## Memory -/

namespace Memory

theorem wf_iff (m : Memory) : m.wf = true ↔
    Cells.wf 0 m.ram = true ∧ Cells.sorted 0 m.bank = true ∧ ∀ c ∈ m.bank, isCached c.1 = true ∧ c.2 ≠ m.peek c.1 := by
  simp [Memory.wf, and_assoc]

/-- Fields that the canonical form does not mention may change. -/
theorem wf_same {m n : Memory} (hr : n.ram = m.ram) (hb : n.bank = m.bank) (h : m.wf = true) : n.wf = true := by
  rw [wf_iff] at h ⊢
  simp only [Memory.peek, hr, hb] at h ⊢
  exact h

/-- A write off the T1 map, or of a byte that no stack holds apart. -/
theorem wf_setRam {m n : Memory} {k : Nat} {x : Byte} (hr : n.ram = Cells.set 0 m.ram k x) (hb : n.bank = Cells.del m.bank k)
    (h : m.wf = true) : n.wf = true := by
  rw [wf_iff] at h ⊢
  rw [hr, hb]
  refine ⟨Cells.wf_set k x h.1, Cells.sorted_filter _ h.2.1, fun c hc => ?_⟩
  obtain ⟨hc, hk⟩ := List.mem_filter.mp hc
  refine ⟨(h.2.2 c hc).1, ?_⟩
  rw [Memory.peek, hr, Cells.get_set_other _ _ _ (by simpa using hk)]
  exact (h.2.2 c hc).2

theorem wf_through {m : Memory} (k : Nat) (x : Byte) (h : m.wf = true) : (m.through k x).wf = true := wf_setRam rfl rfl h

theorem wf_setLine {m : Memory} (x : Line) (h : m.wf = true) : (m.setLine x).wf = true := wf_same rfl rfl h

theorem wf_setBank {m : Memory} {k : Nat} (x : Byte) (hk : isCached k = true) (h : m.wf = true) : (m.setBank k x).wf = true := by
  rw [wf_iff] at h ⊢
  unfold Memory.setBank
  simp only
  refine ⟨h.1, ?_, ?_⟩
  · split
    · exact Cells.sorted_filter _ h.2.1
    · exact Cells.sorted_put _ (Nat.zero_le _) h.2.1
  · intro c hc
    split at hc
    · exact h.2.2 c (List.mem_filter.mp hc).1
    · next hx =>
      rcases Cells.mem_put hc with rfl | hc
      · exact ⟨hk, fun e => hx e.symm⟩
      · exact h.2.2 c hc

theorem wf_bankPoke {m : Memory} (k : Nat) (x : Byte) (h : m.wf = true) : (m.bankPoke k x).wf = true := by
  unfold Memory.bankPoke
  split
  · next hk =>
    simp only [Bool.and_eq_true] at hk
    exact wf_setBank x hk.1 h
  · exact wf_through k x h

theorem wf_bankFilter {m n : Memory} (p : Nat × Byte → Bool) (hr : n.ram = m.ram) (hb : n.bank = m.bank.filter p) (h : m.wf = true) :
    n.wf = true := by
  rw [wf_iff] at h ⊢
  rw [hb]
  refine ⟨hr ▸ h.1, Cells.sorted_filter _ h.2.1, fun c hc => ?_⟩
  have := h.2.2 c (List.mem_filter.mp hc).1
  simpa only [Memory.peek, hr] using this

theorem wf_clean {m : Memory} (l : Nat) (h : m.wf = true) : (m.clean l).wf = true := by
  unfold Memory.clean
  split
  · split
    · exact wf_bankFilter (m := m) (fun c => lineOf c.1 != l) rfl rfl h
    · exact h
  · exact h

theorem wf_take {m : Memory} (c : CachePlace) (l : Nat) (h : m.wf = true) : (m.take c l).wf = true := by
  unfold Memory.take
  split
  · exact wf_clean l h
  · exact h

theorem wf_pokeAt {m : Memory} (c : CachePlace) (k : Nat) (x : Byte) (h : m.wf = true) : (m.pokeAt c k x).wf = true := by
  unfold Memory.pokeAt
  simp only
  split
  · next hk => exact wf_setBank _ hk (wf_setLine _ (wf_same rfl rfl (wf_through k x (wf_take c _ h))))
  · exact wf_same rfl rfl (wf_through k x h)

theorem wf_poke {m : Memory} (k : Nat) (x : Byte) (h : m.wf = true) : (m.poke k x).wf = true := wf_pokeAt .home k x h

theorem wf_foldl {α : Type} {f : Memory → α → Memory} (hf : ∀ m a, Memory.wf m = true → (f m a).wf = true) (l : List α) (m : Memory)
    (h : m.wf = true) : (l.foldl f m).wf = true := by
  induction l generalizing m with
  | nil => exact h
  | cons a l ih => exact ih _ (hf m a h)

theorem wf_foldr {α : Type} {f : α → Memory → Memory} (hf : ∀ m a, Memory.wf m = true → (f a m).wf = true) (l : List α) (m : Memory)
    (h : m.wf = true) : (l.foldr f m).wf = true := by
  induction l with
  | nil => exact h
  | cons a l ih => exact hf _ a ih

/-- Writing a list of bytes. -/
theorem ramFold_wf (l : List (Nat × Byte)) (r : Cells Byte) (h : Cells.wf 0 r = true) :
    Cells.wf 0 (l.foldl (fun r c => Cells.set 0 r c.1 c.2) r) = true := by
  induction l generalizing r with
  | nil => exact h
  | cons c l ih => exact ih _ (Cells.wf_set _ _ h)

theorem ramFold_other (l : List (Nat × Byte)) (r : Cells Byte) (k : Nat) (hk : ∀ c ∈ l, c.1 ≠ k) :
    Cells.get 0 (l.foldl (fun r c => Cells.set 0 r c.1 c.2) r) k = Cells.get 0 r k := by
  induction l generalizing r with
  | nil => rfl
  | cons c l ih =>
    rw [List.foldl_cons, ih _ fun d hd => hk d (List.mem_cons_of_mem _ hd)]
    exact Cells.get_set_other _ _ _ fun e => hk c (List.mem_cons_self ..) e.symm

theorem wf_inval {m : Memory} (l : Nat) (h : m.wf = true) : (m.inval l).wf = true := by
  rw [wf_iff] at h ⊢
  unfold Memory.inval
  simp only
  refine ⟨ramFold_wf _ _ h.1, Cells.sorted_filter _ h.2.1, fun c hc => ?_⟩
  obtain ⟨hc, hl⟩ := List.mem_filter.mp hc
  refine ⟨(h.2.2 c hc).1, ?_⟩
  rw [Memory.peek]
  simp only
  rw [ramFold_other _ _ _ fun d hd e => ?_]
  · exact (h.2.2 c hc).2
  · have := (List.mem_filter.mp hd).2
    rw [e] at this
    simp_all

theorem wf_evict {m : Memory} (l : Nat) (h : m.wf = true) : (m.evict l).wf = true := wf_inval l (wf_clean l h)

theorem wf_touch {m : Memory} (k : Nat) (h : m.wf = true) : (m.touch k).wf = true := by
  unfold Memory.touch
  split
  · exact wf_setLine _ h
  · exact h

theorem wf_store {m : Memory} (nt : Bool) (c : CachePlace) (k : Nat) (x : Byte) (h : m.wf = true) : (m.store nt c k x).wf = true := by
  unfold Memory.store
  split
  · exact wf_same rfl rfl (wf_through k x h)
  · exact wf_pokeAt c k x h

theorem wf_hold {m : Memory} (x : HeldByte) (h : m.wf = true) : (m.hold x).wf = true := wf_same rfl rfl h

theorem wf_publish {m : Memory} (p : HeldByte → Bool) (h : m.wf = true) : (m.publish p).wf = true := by
  unfold Memory.publish
  refine wf_foldr (fun n x hn => ?_) _ _ (wf_same rfl rfl h)
  split
  · exact wf_store _ _ _ _ hn
  · exact wf_same rfl rfl hn

theorem wf_publishLine {m : Memory} (o : Option Observer) (l : Nat) (h : m.wf = true) : (m.publishLine o l).wf = true :=
  wf_foldl (fun _ _ hn => wf_publish _ hn) _ _ h

theorem wf_loadTime {m : Memory} (k ts : Nat) (h : m.wf = true) : (m.loadTime k ts).1.wf = true := wf_same rfl rfl h

theorem wf_storeTime {m : Memory} (k ts : Nat) (h : m.wf = true) : (m.storeTime k ts).1.wf = true := wf_same rfl rfl h

theorem wf_pokeMany {m : Memory} (ws : List (Nat × Byte)) (h : m.wf = true) : (m.pokeMany ws).wf = true :=
  wf_foldl (fun _ _ hn => wf_poke _ _ hn) _ _ h

/-- A change of bytes that no cache holds. -/
theorem wf_ramOnly {m n : Memory} (hb : n.bank = m.bank) (hr : Cells.wf 0 n.ram = true)
    (hk : ∀ k, isCached k = true → n.peek k = m.peek k) (h : m.wf = true) : n.wf = true := by
  rw [wf_iff] at h ⊢
  rw [hb]
  exact ⟨hr, h.2.1, fun c hc => ⟨(h.2.2 c hc).1, by rw [hk _ (h.2.2 c hc).1]; exact (h.2.2 c hc).2⟩⟩

theorem isCached_ge {k : Nat} (h : 2 * 2 ^ 60 ≤ k) : isCached k = false := by simpa [isCached] using h

theorem peek_filter {m n : Memory} {a w k : Nat} (hr : n.ram = m.ram.filter fun c => !(a ≤ c.1 && c.1 < a + w))
    (hk : isCached k = true) (ha : 2 * 2 ^ 60 ≤ a) : n.peek k = m.peek k := by
  have : k < a := by
    have : k < 2 * 2 ^ 60 := by simpa [isCached] using hk
    omega
  rw [Memory.peek, Memory.peek, hr, Cells.get, Cells.get]
  rw [Cells.find?_filter m.ram (fun n => !(a ≤ n && n < a + w)) k (by simp; omega)]

theorem wf_zeroRange {m : Memory} {k : Nat} (n : Nat) (hk : 2 * 2 ^ 60 ≤ k) (h : m.wf = true) : (m.zeroRange k n).wf = true := by
  have hw := (wf_iff m).mp h
  exact wf_ramOnly (m := m) rfl (Cells.wf_filter _ hw.1) (fun j hj => peek_filter rfl hj hk) h

theorem putFold_wf (l : List (Nat × Byte)) (g : Nat → Nat) (r : Cells Byte) (hl : ∀ c ∈ l, c.2 ≠ 0) (h : Cells.wf 0 r = true) :
    Cells.wf 0 (l.foldl (fun r c => Cells.put r (g c.1) c.2) r) = true := by
  induction l generalizing r with
  | nil => exact h
  | cons c l ih =>
    refine ih _ (fun d hd => hl d (List.mem_cons_of_mem _ hd)) ?_
    have := Cells.wf_set (d := (0 : Byte)) (g c.1) c.2 h
    rwa [Cells.set, if_neg (hl c (List.mem_cons_self ..))] at this

theorem putFold_other (l : List (Nat × Byte)) (g : Nat → Nat) (r : Cells Byte) (k : Nat) (hk : ∀ c ∈ l, g c.1 ≠ k) :
    Cells.find? (l.foldl (fun r c => Cells.put r (g c.1) c.2) r) k = Cells.find? r k := by
  induction l generalizing r with
  | nil => rfl
  | cons c l ih =>
    rw [List.foldl_cons, ih _ fun d hd => hk d (List.mem_cons_of_mem _ hd)]
    exact Cells.find?_put_other _ _ fun e => hk c (List.mem_cons_self ..) e.symm

/-- A span or a frame whose bytes are replaced, none of them listed as zero. -/
theorem wf_setFrame {m : Memory} (off : Nat → Option Nat) (key : Nat → Nat) {b : Cells Byte} (z : List Nat) (hb : ∀ c ∈ b, c.2 ≠ 0)
    (h : m.wf = true) : (m.setFrame off key b z).wf = true := by
  rw [wf_iff] at h ⊢
  refine ⟨putFold_wf b key _ hb (Cells.wf_filter _ h.1), Cells.sorted_filter _ h.2.1, fun c hc => ?_⟩
  obtain ⟨hc, hp⟩ := List.mem_filter.mp hc
  simp only [Bool.and_eq_true, bne_iff_ne, ne_eq] at hp
  exact ⟨(h.2.2 c hc).1, hp.2⟩

theorem frameBytes_ne {m : Memory} (off : Nat → Option Nat) (h : m.wf = true) : ∀ c ∈ m.frameBytes off, c.2 ≠ 0 := by
  have hr := ((Cells.wf_iff _ _).mp ((wf_iff m).mp h).1).2
  have key (l : List (Nat × Byte)) (b : Cells Byte) (hl : ∀ c ∈ l, c.2 ≠ 0) (hb : ∀ c ∈ b, c.2 ≠ 0) :
      ∀ c ∈ l.foldl (fun b c => Cells.put b c.1 c.2) b, c.2 ≠ 0 := by
    induction l generalizing b with
    | nil => exact hb
    | cons x l ih =>
      refine ih _ (fun c hc => hl c (List.mem_cons_of_mem _ hc)) fun c hc => ?_
      rcases Cells.mem_put hc with rfl | hc
      · exact hl x (List.mem_cons_self ..)
      · exact hb c hc
  refine key _ _ (fun c hc => ?_) fun c hc => by cases hc
  obtain ⟨d, hd, he⟩ := List.mem_filterMap.mp hc
  obtain ⟨o, -, rfl⟩ := Option.map_eq_some_iff.mp he
  exact hr d hd

theorem putBytes_other (l : Cells Byte) (k : Nat) (bs : List Byte) (j : Nat) (h : j < k) :
    Cells.get 0 (Cells.putBytes l k bs) j = Cells.get 0 l j := by
  induction bs generalizing l k with
  | nil => rfl
  | cons b bs ih =>
    rw [Cells.putBytes, ih _ _ (by omega)]
    exact Cells.get_set_other _ _ _ (by omega)

theorem reset_wf : Memory.reset.wf = true := rfl

end Memory

end Sys2Proof.Machine
end

