-- ==== Sys2Proof/Laws/State.lean ====
section
/-! SUPPORT. What each named update of the state, a slice, a block or memory does to every field: one lemma per field per update. -/

namespace Sys2Proof.Machine

@[simp] theorem State.modBlock_cycle (s : State) (u : Nat) (f : Block → Block) :
    (s.modBlock u f).cycle = s.cycle := by unfold State.modBlock; split <;> rfl
@[simp] theorem State.modBlock_fresh (s : State) (u : Nat) (f : Block → Block) :
    (s.modBlock u f).fresh = s.fresh := by unfold State.modBlock; split <;> rfl
@[simp] theorem State.modBlock_nextId (s : State) (u : Nat) (f : Block → Block) :
    (s.modBlock u f).nextId = s.nextId := by unfold State.modBlock; split <;> rfl
@[simp] theorem State.modBlock_cur (s : State) (u : Nat) (f : Block → Block) :
    (s.modBlock u f).cur = s.cur := by unfold State.modBlock; split <;> rfl
@[simp] theorem State.modBlock_agenda (s : State) (u : Nat) (f : Block → Block) :
    (s.modBlock u f).agenda = s.agenda := by unfold State.modBlock; split <;> rfl
@[simp] theorem State.modBlock_lastPart (s : State) (u : Nat) (f : Block → Block) :
    (s.modBlock u f).lastPart = s.lastPart := by unfold State.modBlock; split <;> rfl
@[simp] theorem State.modBlock_lastIssue (s : State) (u : Nat) (f : Block → Block) :
    (s.modBlock u f).lastIssue = s.lastIssue := by unfold State.modBlock; split <;> rfl
@[simp] theorem State.modBlock_mem (s : State) (u : Nat) (f : Block → Block) :
    (s.modBlock u f).mem = s.mem := by unfold State.modBlock; split <;> rfl
@[simp] theorem State.modBlock_ctxs (s : State) (u : Nat) (f : Block → Block) :
    (s.modBlock u f).ctxs = s.ctxs := by unfold State.modBlock; split <;> rfl
@[simp] theorem State.modBlock_cmds (s : State) (u : Nat) (f : Block → Block) :
    (s.modBlock u f).cmds = s.cmds := by unfold State.modBlock; split <;> rfl
@[simp] theorem State.modBlock_tasks (s : State) (u : Nat) (f : Block → Block) :
    (s.modBlock u f).tasks = s.tasks := by unfold State.modBlock; split <;> rfl
@[simp] theorem State.modBlock_spans (s : State) (u : Nat) (f : Block → Block) :
    (s.modBlock u f).spans = s.spans := by unfold State.modBlock; split <;> rfl
@[simp] theorem State.modBlock_sched (s : State) (u : Nat) (f : Block → Block) :
    (s.modBlock u f).sched = s.sched := by unfold State.modBlock; split <;> rfl
@[simp] theorem State.modBlock_fabric (s : State) (u : Nat) (f : Block → Block) :
    (s.modBlock u f).fabric = s.fabric := by unfold State.modBlock; split <;> rfl
@[simp] theorem State.modBlock_fw (s : State) (u : Nat) (f : Block → Block) :
    (s.modBlock u f).fw = s.fw := by unfold State.modBlock; split <;> rfl
@[simp] theorem State.modSlice_cycle (s : State) (u n : Nat) (f : Slice → Slice) :
    (s.modSlice u n f).cycle = s.cycle := by simp [State.modSlice]
@[simp] theorem State.modSlice_fresh (s : State) (u n : Nat) (f : Slice → Slice) :
    (s.modSlice u n f).fresh = s.fresh := by simp [State.modSlice]
@[simp] theorem State.modSlice_nextId (s : State) (u n : Nat) (f : Slice → Slice) :
    (s.modSlice u n f).nextId = s.nextId := by simp [State.modSlice]
@[simp] theorem State.modSlice_cur (s : State) (u n : Nat) (f : Slice → Slice) :
    (s.modSlice u n f).cur = s.cur := by simp [State.modSlice]
@[simp] theorem State.modSlice_agenda (s : State) (u n : Nat) (f : Slice → Slice) :
    (s.modSlice u n f).agenda = s.agenda := by simp [State.modSlice]
@[simp] theorem State.modSlice_lastPart (s : State) (u n : Nat) (f : Slice → Slice) :
    (s.modSlice u n f).lastPart = s.lastPart := by simp [State.modSlice]
@[simp] theorem State.modSlice_lastIssue (s : State) (u n : Nat) (f : Slice → Slice) :
    (s.modSlice u n f).lastIssue = s.lastIssue := by simp [State.modSlice]
@[simp] theorem State.modSlice_mem (s : State) (u n : Nat) (f : Slice → Slice) :
    (s.modSlice u n f).mem = s.mem := by simp [State.modSlice]
@[simp] theorem State.modSlice_ctxs (s : State) (u n : Nat) (f : Slice → Slice) :
    (s.modSlice u n f).ctxs = s.ctxs := by simp [State.modSlice]
@[simp] theorem State.modSlice_cmds (s : State) (u n : Nat) (f : Slice → Slice) :
    (s.modSlice u n f).cmds = s.cmds := by simp [State.modSlice]
@[simp] theorem State.modSlice_tasks (s : State) (u n : Nat) (f : Slice → Slice) :
    (s.modSlice u n f).tasks = s.tasks := by simp [State.modSlice]
@[simp] theorem State.modSlice_spans (s : State) (u n : Nat) (f : Slice → Slice) :
    (s.modSlice u n f).spans = s.spans := by simp [State.modSlice]
@[simp] theorem State.modSlice_sched (s : State) (u n : Nat) (f : Slice → Slice) :
    (s.modSlice u n f).sched = s.sched := by simp [State.modSlice]
@[simp] theorem State.modSlice_fabric (s : State) (u n : Nat) (f : Slice → Slice) :
    (s.modSlice u n f).fabric = s.fabric := by simp [State.modSlice]
@[simp] theorem State.modSlice_fw (s : State) (u n : Nat) (f : Slice → Slice) :
    (s.modSlice u n f).fw = s.fw := by simp [State.modSlice]
@[simp] theorem State.modShare_cycle (s : State) (u n : Nat) (f : Share → Share) :
    (s.modShare u n f).cycle = s.cycle := by simp [State.modShare]
@[simp] theorem State.modShare_fresh (s : State) (u n : Nat) (f : Share → Share) :
    (s.modShare u n f).fresh = s.fresh := by simp [State.modShare]
@[simp] theorem State.modShare_nextId (s : State) (u n : Nat) (f : Share → Share) :
    (s.modShare u n f).nextId = s.nextId := by simp [State.modShare]
@[simp] theorem State.modShare_cur (s : State) (u n : Nat) (f : Share → Share) :
    (s.modShare u n f).cur = s.cur := by simp [State.modShare]
@[simp] theorem State.modShare_agenda (s : State) (u n : Nat) (f : Share → Share) :
    (s.modShare u n f).agenda = s.agenda := by simp [State.modShare]
@[simp] theorem State.modShare_lastPart (s : State) (u n : Nat) (f : Share → Share) :
    (s.modShare u n f).lastPart = s.lastPart := by simp [State.modShare]
@[simp] theorem State.modShare_lastIssue (s : State) (u n : Nat) (f : Share → Share) :
    (s.modShare u n f).lastIssue = s.lastIssue := by simp [State.modShare]
@[simp] theorem State.modShare_mem (s : State) (u n : Nat) (f : Share → Share) :
    (s.modShare u n f).mem = s.mem := by simp [State.modShare]
@[simp] theorem State.modShare_ctxs (s : State) (u n : Nat) (f : Share → Share) :
    (s.modShare u n f).ctxs = s.ctxs := by simp [State.modShare]
@[simp] theorem State.modShare_cmds (s : State) (u n : Nat) (f : Share → Share) :
    (s.modShare u n f).cmds = s.cmds := by simp [State.modShare]
@[simp] theorem State.modShare_tasks (s : State) (u n : Nat) (f : Share → Share) :
    (s.modShare u n f).tasks = s.tasks := by simp [State.modShare]
@[simp] theorem State.modShare_spans (s : State) (u n : Nat) (f : Share → Share) :
    (s.modShare u n f).spans = s.spans := by simp [State.modShare]
@[simp] theorem State.modShare_sched (s : State) (u n : Nat) (f : Share → Share) :
    (s.modShare u n f).sched = s.sched := by simp [State.modShare]
@[simp] theorem State.modShare_fabric (s : State) (u n : Nat) (f : Share → Share) :
    (s.modShare u n f).fabric = s.fabric := by simp [State.modShare]
@[simp] theorem State.modShare_fw (s : State) (u n : Nat) (f : Share → Share) :
    (s.modShare u n f).fw = s.fw := by simp [State.modShare]
@[simp] theorem State.modLaunch_cycle (s : State) (k : Nat) (f : Launch → Launch) :
    (s.modLaunch k f).cycle = s.cycle := rfl
@[simp] theorem State.modLaunch_fresh (s : State) (k : Nat) (f : Launch → Launch) :
    (s.modLaunch k f).fresh = s.fresh := rfl
@[simp] theorem State.modLaunch_nextId (s : State) (k : Nat) (f : Launch → Launch) :
    (s.modLaunch k f).nextId = s.nextId := rfl
@[simp] theorem State.modLaunch_cur (s : State) (k : Nat) (f : Launch → Launch) :
    (s.modLaunch k f).cur = s.cur := rfl
@[simp] theorem State.modLaunch_agenda (s : State) (k : Nat) (f : Launch → Launch) :
    (s.modLaunch k f).agenda = s.agenda := rfl
@[simp] theorem State.modLaunch_lastPart (s : State) (k : Nat) (f : Launch → Launch) :
    (s.modLaunch k f).lastPart = s.lastPart := rfl
@[simp] theorem State.modLaunch_lastIssue (s : State) (k : Nat) (f : Launch → Launch) :
    (s.modLaunch k f).lastIssue = s.lastIssue := rfl
@[simp] theorem State.modLaunch_mem (s : State) (k : Nat) (f : Launch → Launch) :
    (s.modLaunch k f).mem = s.mem := rfl
@[simp] theorem State.modLaunch_ctxs (s : State) (k : Nat) (f : Launch → Launch) :
    (s.modLaunch k f).ctxs = s.ctxs := rfl
@[simp] theorem State.modLaunch_blocks (s : State) (k : Nat) (f : Launch → Launch) :
    (s.modLaunch k f).blocks = s.blocks := rfl
@[simp] theorem State.modLaunch_launches (s : State) (k : Nat) (f : Launch → Launch) :
    (s.modLaunch k f).launches = s.launches.map fun l => if l.id == k then f l else l := rfl
@[simp] theorem State.modLaunch_cmds (s : State) (k : Nat) (f : Launch → Launch) :
    (s.modLaunch k f).cmds = s.cmds := rfl
@[simp] theorem State.modLaunch_tasks (s : State) (k : Nat) (f : Launch → Launch) :
    (s.modLaunch k f).tasks = s.tasks := rfl
@[simp] theorem State.modLaunch_spans (s : State) (k : Nat) (f : Launch → Launch) :
    (s.modLaunch k f).spans = s.spans := rfl
@[simp] theorem State.modLaunch_sched (s : State) (k : Nat) (f : Launch → Launch) :
    (s.modLaunch k f).sched = s.sched := rfl
@[simp] theorem State.modLaunch_fabric (s : State) (k : Nat) (f : Launch → Launch) :
    (s.modLaunch k f).fabric = s.fabric := rfl
@[simp] theorem State.modLaunch_fw (s : State) (k : Nat) (f : Launch → Launch) :
    (s.modLaunch k f).fw = s.fw := rfl
@[simp] theorem State.newId_cycle (s : State) :
    s.newId.2.cycle = s.cycle := rfl
@[simp] theorem State.newId_fresh (s : State) :
    s.newId.2.fresh = s.fresh := rfl
@[simp] theorem State.newId_nextId (s : State) :
    s.newId.2.nextId = s.nextId + 1 := rfl
@[simp] theorem State.newId_cur (s : State) :
    s.newId.2.cur = s.cur := rfl
@[simp] theorem State.newId_agenda (s : State) :
    s.newId.2.agenda = s.agenda := rfl
@[simp] theorem State.newId_lastPart (s : State) :
    s.newId.2.lastPart = s.lastPart := rfl
@[simp] theorem State.newId_lastIssue (s : State) :
    s.newId.2.lastIssue = s.lastIssue := rfl
@[simp] theorem State.newId_mem (s : State) :
    s.newId.2.mem = s.mem := rfl
@[simp] theorem State.newId_ctxs (s : State) :
    s.newId.2.ctxs = s.ctxs := rfl
@[simp] theorem State.newId_blocks (s : State) :
    s.newId.2.blocks = s.blocks := rfl
@[simp] theorem State.newId_launches (s : State) :
    s.newId.2.launches = s.launches := rfl
@[simp] theorem State.newId_cmds (s : State) :
    s.newId.2.cmds = s.cmds := rfl
@[simp] theorem State.newId_tasks (s : State) :
    s.newId.2.tasks = s.tasks := rfl
@[simp] theorem State.newId_spans (s : State) :
    s.newId.2.spans = s.spans := rfl
@[simp] theorem State.newId_sched (s : State) :
    s.newId.2.sched = s.sched := rfl
@[simp] theorem State.newId_fabric (s : State) :
    s.newId.2.fabric = s.fabric := rfl
@[simp] theorem State.newId_fw (s : State) :
    s.newId.2.fw = s.fw := rfl
@[simp] theorem State.free_cycle (s : State) :
    s.free.2.cycle = s.cycle := rfl
@[simp] theorem State.free_fresh (s : State) :
    s.free.2.fresh = s.fresh + 1 := rfl
@[simp] theorem State.free_nextId (s : State) :
    s.free.2.nextId = s.nextId := rfl
@[simp] theorem State.free_cur (s : State) :
    s.free.2.cur = s.cur := rfl
@[simp] theorem State.free_agenda (s : State) :
    s.free.2.agenda = s.agenda := rfl
@[simp] theorem State.free_lastPart (s : State) :
    s.free.2.lastPart = s.lastPart := rfl
@[simp] theorem State.free_lastIssue (s : State) :
    s.free.2.lastIssue = s.lastIssue := rfl
@[simp] theorem State.free_mem (s : State) :
    s.free.2.mem = s.mem := rfl
@[simp] theorem State.free_ctxs (s : State) :
    s.free.2.ctxs = s.ctxs := rfl
@[simp] theorem State.free_blocks (s : State) :
    s.free.2.blocks = s.blocks := rfl
@[simp] theorem State.free_launches (s : State) :
    s.free.2.launches = s.launches := rfl
@[simp] theorem State.free_cmds (s : State) :
    s.free.2.cmds = s.cmds := rfl
@[simp] theorem State.free_tasks (s : State) :
    s.free.2.tasks = s.tasks := rfl
@[simp] theorem State.free_spans (s : State) :
    s.free.2.spans = s.spans := rfl
@[simp] theorem State.free_sched (s : State) :
    s.free.2.sched = s.sched := rfl
@[simp] theorem State.free_fabric (s : State) :
    s.free.2.fabric = s.fabric := rfl
@[simp] theorem State.free_fw (s : State) :
    s.free.2.fw = s.fw := rfl
@[simp] theorem State.setCtx_cycle (s : State) (c : Nat) (f : Ctx → Ctx) :
    (s.setCtx c f).cycle = s.cycle := rfl
@[simp] theorem State.setCtx_fresh (s : State) (c : Nat) (f : Ctx → Ctx) :
    (s.setCtx c f).fresh = s.fresh := rfl
@[simp] theorem State.setCtx_nextId (s : State) (c : Nat) (f : Ctx → Ctx) :
    (s.setCtx c f).nextId = s.nextId := rfl
@[simp] theorem State.setCtx_cur (s : State) (c : Nat) (f : Ctx → Ctx) :
    (s.setCtx c f).cur = s.cur := rfl
@[simp] theorem State.setCtx_agenda (s : State) (c : Nat) (f : Ctx → Ctx) :
    (s.setCtx c f).agenda = s.agenda := rfl
@[simp] theorem State.setCtx_lastPart (s : State) (c : Nat) (f : Ctx → Ctx) :
    (s.setCtx c f).lastPart = s.lastPart := rfl
@[simp] theorem State.setCtx_lastIssue (s : State) (c : Nat) (f : Ctx → Ctx) :
    (s.setCtx c f).lastIssue = s.lastIssue := rfl
@[simp] theorem State.setCtx_mem (s : State) (c : Nat) (f : Ctx → Ctx) :
    (s.setCtx c f).mem = s.mem := rfl
@[simp] theorem State.setCtx_ctxs (s : State) (c : Nat) (f : Ctx → Ctx) :
    (s.setCtx c f).ctxs = s.ctxs.modify c f := rfl
@[simp] theorem State.setCtx_blocks (s : State) (c : Nat) (f : Ctx → Ctx) :
    (s.setCtx c f).blocks = s.blocks := rfl
@[simp] theorem State.setCtx_launches (s : State) (c : Nat) (f : Ctx → Ctx) :
    (s.setCtx c f).launches = s.launches := rfl
@[simp] theorem State.setCtx_cmds (s : State) (c : Nat) (f : Ctx → Ctx) :
    (s.setCtx c f).cmds = s.cmds := rfl
@[simp] theorem State.setCtx_tasks (s : State) (c : Nat) (f : Ctx → Ctx) :
    (s.setCtx c f).tasks = s.tasks := rfl
@[simp] theorem State.setCtx_spans (s : State) (c : Nat) (f : Ctx → Ctx) :
    (s.setCtx c f).spans = s.spans := rfl
@[simp] theorem State.setCtx_sched (s : State) (c : Nat) (f : Ctx → Ctx) :
    (s.setCtx c f).sched = s.sched := rfl
@[simp] theorem State.setCtx_fabric (s : State) (c : Nat) (f : Ctx → Ctx) :
    (s.setCtx c f).fabric = s.fabric := rfl
@[simp] theorem State.setCtx_fw (s : State) (c : Nat) (f : Ctx → Ctx) :
    (s.setCtx c f).fw = s.fw := rfl
@[simp] theorem State.setSpan_cycle (s : State) (p : Span) :
    (s.setSpan p).cycle = s.cycle := rfl
@[simp] theorem State.setSpan_fresh (s : State) (p : Span) :
    (s.setSpan p).fresh = s.fresh := rfl
@[simp] theorem State.setSpan_nextId (s : State) (p : Span) :
    (s.setSpan p).nextId = s.nextId := rfl
@[simp] theorem State.setSpan_cur (s : State) (p : Span) :
    (s.setSpan p).cur = s.cur := rfl
@[simp] theorem State.setSpan_agenda (s : State) (p : Span) :
    (s.setSpan p).agenda = s.agenda := rfl
@[simp] theorem State.setSpan_lastPart (s : State) (p : Span) :
    (s.setSpan p).lastPart = s.lastPart := rfl
@[simp] theorem State.setSpan_lastIssue (s : State) (p : Span) :
    (s.setSpan p).lastIssue = s.lastIssue := rfl
@[simp] theorem State.setSpan_mem (s : State) (p : Span) :
    (s.setSpan p).mem = s.mem := rfl
@[simp] theorem State.setSpan_ctxs (s : State) (p : Span) :
    (s.setSpan p).ctxs = s.ctxs := rfl
@[simp] theorem State.setSpan_blocks (s : State) (p : Span) :
    (s.setSpan p).blocks = s.blocks := rfl
@[simp] theorem State.setSpan_launches (s : State) (p : Span) :
    (s.setSpan p).launches = s.launches := rfl
@[simp] theorem State.setSpan_cmds (s : State) (p : Span) :
    (s.setSpan p).cmds = s.cmds := rfl
@[simp] theorem State.setSpan_tasks (s : State) (p : Span) :
    (s.setSpan p).tasks = s.tasks := rfl
@[simp] theorem State.setSpan_sched (s : State) (p : Span) :
    (s.setSpan p).sched = s.sched := rfl
@[simp] theorem State.setSpan_fabric (s : State) (p : Span) :
    (s.setSpan p).fabric = s.fabric := rfl
@[simp] theorem State.setSpan_fw (s : State) (p : Span) :
    (s.setSpan p).fw = s.fw := rfl
@[simp] theorem State.modHq_cycle (s : State) (q : Nat) (f : Hq → Hq) :
    (s.modHq q f).cycle = s.cycle := rfl
@[simp] theorem State.modHq_fresh (s : State) (q : Nat) (f : Hq → Hq) :
    (s.modHq q f).fresh = s.fresh := rfl
@[simp] theorem State.modHq_nextId (s : State) (q : Nat) (f : Hq → Hq) :
    (s.modHq q f).nextId = s.nextId := rfl
@[simp] theorem State.modHq_cur (s : State) (q : Nat) (f : Hq → Hq) :
    (s.modHq q f).cur = s.cur := rfl
@[simp] theorem State.modHq_agenda (s : State) (q : Nat) (f : Hq → Hq) :
    (s.modHq q f).agenda = s.agenda := rfl
@[simp] theorem State.modHq_lastPart (s : State) (q : Nat) (f : Hq → Hq) :
    (s.modHq q f).lastPart = s.lastPart := rfl
@[simp] theorem State.modHq_lastIssue (s : State) (q : Nat) (f : Hq → Hq) :
    (s.modHq q f).lastIssue = s.lastIssue := rfl
@[simp] theorem State.modHq_mem (s : State) (q : Nat) (f : Hq → Hq) :
    (s.modHq q f).mem = s.mem := rfl
@[simp] theorem State.modHq_ctxs (s : State) (q : Nat) (f : Hq → Hq) :
    (s.modHq q f).ctxs = s.ctxs := rfl
@[simp] theorem State.modHq_blocks (s : State) (q : Nat) (f : Hq → Hq) :
    (s.modHq q f).blocks = s.blocks := rfl
@[simp] theorem State.modHq_launches (s : State) (q : Nat) (f : Hq → Hq) :
    (s.modHq q f).launches = s.launches := rfl
@[simp] theorem State.modHq_cmds (s : State) (q : Nat) (f : Hq → Hq) :
    (s.modHq q f).cmds = s.cmds := rfl
@[simp] theorem State.modHq_tasks (s : State) (q : Nat) (f : Hq → Hq) :
    (s.modHq q f).tasks = s.tasks := rfl
@[simp] theorem State.modHq_spans (s : State) (q : Nat) (f : Hq → Hq) :
    (s.modHq q f).spans = s.spans := rfl
@[simp] theorem State.modHq_sched (s : State) (q : Nat) (f : Hq → Hq) :
    (s.modHq q f).sched = { s.sched with hqs := s.sched.hqs.modify q f } := rfl
@[simp] theorem State.modHq_fabric (s : State) (q : Nat) (f : Hq → Hq) :
    (s.modHq q f).fabric = s.fabric := rfl
@[simp] theorem State.modHq_fw (s : State) (q : Nat) (f : Hq → Hq) :
    (s.modHq q f).fw = s.fw := rfl
@[simp] theorem State.modJob_cycle (s : State) (j : Nat) (f : Job → Job) :
    (s.modJob j f).cycle = s.cycle := rfl
@[simp] theorem State.modJob_fresh (s : State) (j : Nat) (f : Job → Job) :
    (s.modJob j f).fresh = s.fresh := rfl
@[simp] theorem State.modJob_nextId (s : State) (j : Nat) (f : Job → Job) :
    (s.modJob j f).nextId = s.nextId := rfl
@[simp] theorem State.modJob_cur (s : State) (j : Nat) (f : Job → Job) :
    (s.modJob j f).cur = s.cur := rfl
@[simp] theorem State.modJob_agenda (s : State) (j : Nat) (f : Job → Job) :
    (s.modJob j f).agenda = s.agenda := rfl
@[simp] theorem State.modJob_lastPart (s : State) (j : Nat) (f : Job → Job) :
    (s.modJob j f).lastPart = s.lastPart := rfl
@[simp] theorem State.modJob_lastIssue (s : State) (j : Nat) (f : Job → Job) :
    (s.modJob j f).lastIssue = s.lastIssue := rfl
@[simp] theorem State.modJob_mem (s : State) (j : Nat) (f : Job → Job) :
    (s.modJob j f).mem = s.mem := rfl
@[simp] theorem State.modJob_ctxs (s : State) (j : Nat) (f : Job → Job) :
    (s.modJob j f).ctxs = s.ctxs := rfl
@[simp] theorem State.modJob_blocks (s : State) (j : Nat) (f : Job → Job) :
    (s.modJob j f).blocks = s.blocks := rfl
@[simp] theorem State.modJob_launches (s : State) (j : Nat) (f : Job → Job) :
    (s.modJob j f).launches = s.launches := rfl
@[simp] theorem State.modJob_cmds (s : State) (j : Nat) (f : Job → Job) :
    (s.modJob j f).cmds = s.cmds := rfl
@[simp] theorem State.modJob_tasks (s : State) (j : Nat) (f : Job → Job) :
    (s.modJob j f).tasks = s.tasks := rfl
@[simp] theorem State.modJob_spans (s : State) (j : Nat) (f : Job → Job) :
    (s.modJob j f).spans = s.spans := rfl
@[simp] theorem State.modJob_sched (s : State) (j : Nat) (f : Job → Job) :
    (s.modJob j f).sched = s.sched := rfl
@[simp] theorem State.modJob_fabric (s : State) (j : Nat) (f : Job → Job) :
    (s.modJob j f).fabric = { s.fabric with jobs := s.fabric.jobs.modify j f } := rfl
@[simp] theorem State.modJob_fw (s : State) (j : Nat) (f : Job → Job) :
    (s.modJob j f).fw = s.fw := rfl
@[simp] theorem State.put_cycle (s : State) (x : Post) :
    (s.put x).cycle = s.cycle := rfl
@[simp] theorem State.put_fresh (s : State) (x : Post) :
    (s.put x).fresh = s.fresh := rfl
@[simp] theorem State.put_nextId (s : State) (x : Post) :
    (s.put x).nextId = s.nextId := rfl
@[simp] theorem State.put_cur (s : State) (x : Post) :
    (s.put x).cur = s.cur := rfl
@[simp] theorem State.put_agenda (s : State) (x : Post) :
    (s.put x).agenda = s.agenda := rfl
@[simp] theorem State.put_lastPart (s : State) (x : Post) :
    (s.put x).lastPart = s.lastPart := rfl
@[simp] theorem State.put_lastIssue (s : State) (x : Post) :
    (s.put x).lastIssue = s.lastIssue := rfl
@[simp] theorem State.put_mem (s : State) (x : Post) :
    (s.put x).mem = s.mem := rfl
@[simp] theorem State.put_ctxs (s : State) (x : Post) :
    (s.put x).ctxs = s.ctxs := rfl
@[simp] theorem State.put_blocks (s : State) (x : Post) :
    (s.put x).blocks = s.blocks := rfl
@[simp] theorem State.put_launches (s : State) (x : Post) :
    (s.put x).launches = s.launches := rfl
@[simp] theorem State.put_cmds (s : State) (x : Post) :
    (s.put x).cmds = s.cmds := rfl
@[simp] theorem State.put_tasks (s : State) (x : Post) :
    (s.put x).tasks = s.tasks := rfl
@[simp] theorem State.put_spans (s : State) (x : Post) :
    (s.put x).spans = s.spans := rfl
@[simp] theorem State.put_sched (s : State) (x : Post) :
    (s.put x).sched = s.sched := rfl
@[simp] theorem State.put_fabric (s : State) (x : Post) :
    (s.put x).fabric = { s.fabric with outbox := s.fabric.outbox ++ [x] } := rfl
@[simp] theorem State.put_fw (s : State) (x : Post) :
    (s.put x).fw = s.fw := rfl
@[simp] theorem State.stepTag_cycle (s : State) :
    s.stepTag.cycle = s.cycle := rfl
@[simp] theorem State.stepTag_fresh (s : State) :
    s.stepTag.fresh = s.fresh := rfl
@[simp] theorem State.stepTag_nextId (s : State) :
    s.stepTag.nextId = s.nextId := rfl
@[simp] theorem State.stepTag_cur (s : State) :
    s.stepTag.cur = s.cur := rfl
@[simp] theorem State.stepTag_agenda (s : State) :
    s.stepTag.agenda = s.agenda := rfl
@[simp] theorem State.stepTag_lastPart (s : State) :
    s.stepTag.lastPart = s.lastPart := rfl
@[simp] theorem State.stepTag_lastIssue (s : State) :
    s.stepTag.lastIssue = s.lastIssue := rfl
@[simp] theorem State.stepTag_mem (s : State) :
    s.stepTag.mem = s.mem := rfl
@[simp] theorem State.stepTag_ctxs (s : State) :
    s.stepTag.ctxs = s.ctxs := rfl
@[simp] theorem State.stepTag_blocks (s : State) :
    s.stepTag.blocks = s.blocks := rfl
@[simp] theorem State.stepTag_launches (s : State) :
    s.stepTag.launches = s.launches := rfl
@[simp] theorem State.stepTag_cmds (s : State) :
    s.stepTag.cmds = s.cmds := rfl
@[simp] theorem State.stepTag_tasks (s : State) :
    s.stepTag.tasks = s.tasks := rfl
@[simp] theorem State.stepTag_spans (s : State) :
    s.stepTag.spans = s.spans := rfl
@[simp] theorem State.stepTag_sched (s : State) :
    s.stepTag.sched = s.sched := rfl
@[simp] theorem State.stepTag_fabric (s : State) :
    s.stepTag.fabric = { s.fabric with nextTag := s.fabric.nextTag + 1 } := rfl
@[simp] theorem State.stepTag_fw (s : State) :
    s.stepTag.fw = s.fw := rfl
@[simp] theorem State.modPort_cycle (s : State) (p : Nat) (f : Port → Port) :
    (s.modPort p f).cycle = s.cycle := rfl
@[simp] theorem State.modPort_fresh (s : State) (p : Nat) (f : Port → Port) :
    (s.modPort p f).fresh = s.fresh := rfl
@[simp] theorem State.modPort_nextId (s : State) (p : Nat) (f : Port → Port) :
    (s.modPort p f).nextId = s.nextId := rfl
@[simp] theorem State.modPort_cur (s : State) (p : Nat) (f : Port → Port) :
    (s.modPort p f).cur = s.cur := rfl
@[simp] theorem State.modPort_agenda (s : State) (p : Nat) (f : Port → Port) :
    (s.modPort p f).agenda = s.agenda := rfl
@[simp] theorem State.modPort_lastPart (s : State) (p : Nat) (f : Port → Port) :
    (s.modPort p f).lastPart = s.lastPart := rfl
@[simp] theorem State.modPort_lastIssue (s : State) (p : Nat) (f : Port → Port) :
    (s.modPort p f).lastIssue = s.lastIssue := rfl
@[simp] theorem State.modPort_mem (s : State) (p : Nat) (f : Port → Port) :
    (s.modPort p f).mem = s.mem := rfl
@[simp] theorem State.modPort_ctxs (s : State) (p : Nat) (f : Port → Port) :
    (s.modPort p f).ctxs = s.ctxs := rfl
@[simp] theorem State.modPort_blocks (s : State) (p : Nat) (f : Port → Port) :
    (s.modPort p f).blocks = s.blocks := rfl
@[simp] theorem State.modPort_launches (s : State) (p : Nat) (f : Port → Port) :
    (s.modPort p f).launches = s.launches := rfl
@[simp] theorem State.modPort_cmds (s : State) (p : Nat) (f : Port → Port) :
    (s.modPort p f).cmds = s.cmds := rfl
@[simp] theorem State.modPort_tasks (s : State) (p : Nat) (f : Port → Port) :
    (s.modPort p f).tasks = s.tasks := rfl
@[simp] theorem State.modPort_spans (s : State) (p : Nat) (f : Port → Port) :
    (s.modPort p f).spans = s.spans := rfl
@[simp] theorem State.modPort_sched (s : State) (p : Nat) (f : Port → Port) :
    (s.modPort p f).sched = s.sched := rfl
@[simp] theorem State.modPort_fabric (s : State) (p : Nat) (f : Port → Port) :
    (s.modPort p f).fabric = { s.fabric with ports := s.fabric.ports.modify p f } := rfl
@[simp] theorem State.modPort_fw (s : State) (p : Nat) (f : Port → Port) :
    (s.modPort p f).fw = s.fw := rfl
@[simp] theorem State.hostAnswer_cycle (s : State) (bs : List Byte) :
    (s.hostAnswer bs).cycle = s.cycle := rfl
@[simp] theorem State.hostAnswer_fresh (s : State) (bs : List Byte) :
    (s.hostAnswer bs).fresh = s.fresh := rfl
@[simp] theorem State.hostAnswer_nextId (s : State) (bs : List Byte) :
    (s.hostAnswer bs).nextId = s.nextId := rfl
@[simp] theorem State.hostAnswer_cur (s : State) (bs : List Byte) :
    (s.hostAnswer bs).cur = s.cur := rfl
@[simp] theorem State.hostAnswer_agenda (s : State) (bs : List Byte) :
    (s.hostAnswer bs).agenda = s.agenda := rfl
@[simp] theorem State.hostAnswer_lastPart (s : State) (bs : List Byte) :
    (s.hostAnswer bs).lastPart = s.lastPart := rfl
@[simp] theorem State.hostAnswer_lastIssue (s : State) (bs : List Byte) :
    (s.hostAnswer bs).lastIssue = s.lastIssue := rfl
@[simp] theorem State.hostAnswer_mem (s : State) (bs : List Byte) :
    (s.hostAnswer bs).mem = s.mem := rfl
@[simp] theorem State.hostAnswer_ctxs (s : State) (bs : List Byte) :
    (s.hostAnswer bs).ctxs = s.ctxs := rfl
@[simp] theorem State.hostAnswer_blocks (s : State) (bs : List Byte) :
    (s.hostAnswer bs).blocks = s.blocks := rfl
@[simp] theorem State.hostAnswer_launches (s : State) (bs : List Byte) :
    (s.hostAnswer bs).launches = s.launches := rfl
@[simp] theorem State.hostAnswer_cmds (s : State) (bs : List Byte) :
    (s.hostAnswer bs).cmds = s.cmds := rfl
@[simp] theorem State.hostAnswer_tasks (s : State) (bs : List Byte) :
    (s.hostAnswer bs).tasks = s.tasks := rfl
@[simp] theorem State.hostAnswer_spans (s : State) (bs : List Byte) :
    (s.hostAnswer bs).spans = s.spans := rfl
@[simp] theorem State.hostAnswer_sched (s : State) (bs : List Byte) :
    (s.hostAnswer bs).sched = s.sched := rfl
@[simp] theorem State.hostAnswer_fabric (s : State) (bs : List Byte) :
    (s.hostAnswer bs).fabric = s.fabric := rfl
@[simp] theorem State.hostAnswer_fw (s : State) (bs : List Byte) :
    (s.hostAnswer bs).fw = { s.fw with answers := bs :: s.fw.answers } := rfl
@[simp] theorem State.later_cycle (s : State) (i : Instr) :
    (s.later i).cycle = s.cycle := rfl
@[simp] theorem State.later_fresh (s : State) (i : Instr) :
    (s.later i).fresh = s.fresh := rfl
@[simp] theorem State.later_nextId (s : State) (i : Instr) :
    (s.later i).nextId = s.nextId := rfl
@[simp] theorem State.later_cur (s : State) (i : Instr) :
    (s.later i).cur = s.cur := rfl
@[simp] theorem State.later_agenda (s : State) (i : Instr) :
    (s.later i).agenda = s.agenda ++ [.event i] := rfl
@[simp] theorem State.later_lastPart (s : State) (i : Instr) :
    (s.later i).lastPart = s.lastPart := rfl
@[simp] theorem State.later_lastIssue (s : State) (i : Instr) :
    (s.later i).lastIssue = s.lastIssue := rfl
@[simp] theorem State.later_mem (s : State) (i : Instr) :
    (s.later i).mem = s.mem := rfl
@[simp] theorem State.later_ctxs (s : State) (i : Instr) :
    (s.later i).ctxs = s.ctxs := rfl
@[simp] theorem State.later_blocks (s : State) (i : Instr) :
    (s.later i).blocks = s.blocks := rfl
@[simp] theorem State.later_launches (s : State) (i : Instr) :
    (s.later i).launches = s.launches := rfl
@[simp] theorem State.later_cmds (s : State) (i : Instr) :
    (s.later i).cmds = s.cmds := rfl
@[simp] theorem State.later_tasks (s : State) (i : Instr) :
    (s.later i).tasks = s.tasks := rfl
@[simp] theorem State.later_spans (s : State) (i : Instr) :
    (s.later i).spans = s.spans := rfl
@[simp] theorem State.later_sched (s : State) (i : Instr) :
    (s.later i).sched = s.sched := rfl
@[simp] theorem State.later_fabric (s : State) (i : Instr) :
    (s.later i).fabric = s.fabric := rfl
@[simp] theorem State.later_fw (s : State) (i : Instr) :
    (s.later i).fw = s.fw := rfl
@[simp] theorem State.publishAll_cycle (s : State) (u : Nat) :
    (s.publishAll u).cycle = s.cycle := rfl
@[simp] theorem State.publishAll_fresh (s : State) (u : Nat) :
    (s.publishAll u).fresh = s.fresh := rfl
@[simp] theorem State.publishAll_nextId (s : State) (u : Nat) :
    (s.publishAll u).nextId = s.nextId := rfl
@[simp] theorem State.publishAll_cur (s : State) (u : Nat) :
    (s.publishAll u).cur = s.cur := rfl
@[simp] theorem State.publishAll_agenda (s : State) (u : Nat) :
    (s.publishAll u).agenda = s.agenda := rfl
@[simp] theorem State.publishAll_lastPart (s : State) (u : Nat) :
    (s.publishAll u).lastPart = s.lastPart := rfl
@[simp] theorem State.publishAll_lastIssue (s : State) (u : Nat) :
    (s.publishAll u).lastIssue = s.lastIssue := rfl
@[simp] theorem State.publishAll_mem (s : State) (u : Nat) :
    (s.publishAll u).mem = s.mem.publish fun h => h.block == u := rfl
@[simp] theorem State.publishAll_ctxs (s : State) (u : Nat) :
    (s.publishAll u).ctxs = s.ctxs := rfl
@[simp] theorem State.publishAll_blocks (s : State) (u : Nat) :
    (s.publishAll u).blocks = s.blocks := rfl
@[simp] theorem State.publishAll_launches (s : State) (u : Nat) :
    (s.publishAll u).launches = s.launches := rfl
@[simp] theorem State.publishAll_cmds (s : State) (u : Nat) :
    (s.publishAll u).cmds = s.cmds := rfl
@[simp] theorem State.publishAll_tasks (s : State) (u : Nat) :
    (s.publishAll u).tasks = s.tasks := rfl
@[simp] theorem State.publishAll_spans (s : State) (u : Nat) :
    (s.publishAll u).spans = s.spans := rfl
@[simp] theorem State.publishAll_sched (s : State) (u : Nat) :
    (s.publishAll u).sched = s.sched := rfl
@[simp] theorem State.publishAll_fabric (s : State) (u : Nat) :
    (s.publishAll u).fabric = s.fabric := rfl
@[simp] theorem State.publishAll_fw (s : State) (u : Nat) :
    (s.publishAll u).fw = s.fw := rfl
@[simp] theorem Slice.trimLive_num (x : Slice) (n : Nat) :
    (x.trimLive n).num = x.num := rfl
@[simp] theorem Slice.trimLive_gnum (x : Slice) (n : Nat) :
    (x.trimLive n).gnum = x.gnum := rfl
@[simp] theorem Slice.trimLive_share (x : Slice) (n : Nat) :
    (x.trimLive n).share = x.share := rfl
@[simp] theorem Slice.trimLive_part (x : Slice) (n : Nat) :
    (x.trimLive n).part = x.part := rfl
@[simp] theorem Slice.trimLive_pos (x : Slice) (n : Nat) :
    (x.trimLive n).pos = x.pos := rfl
@[simp] theorem Slice.trimLive_ended (x : Slice) (n : Nat) :
    (x.trimLive n).ended = x.ended := rfl
@[simp] theorem Slice.trimLive_gang (x : Slice) (n : Nat) :
    (x.trimLive n).gang = x.gang := rfl
@[simp] theorem Slice.trimLive_pc (x : Slice) (n : Nat) :
    (x.trimLive n).pc = x.pc := rfl
@[simp] theorem Slice.trimLive_hdr (x : Slice) (n : Nat) :
    (x.trimLive n).hdr = x.hdr := rfl
@[simp] theorem Slice.trimLive_hword (x : Slice) (n : Nat) :
    (x.trimLive n).hword = x.hword := rfl
@[simp] theorem Slice.trimLive_atRep (x : Slice) (n : Nat) :
    (x.trimLive n).atRep = x.atRep := rfl
@[simp] theorem Slice.trimLive_am (x : Slice) (n : Nat) :
    (x.trimLive n).am = x.am := rfl
@[simp] theorem Slice.trimLive_xm (x : Slice) (n : Nat) :
    (x.trimLive n).xm = x.xm := rfl
@[simp] theorem Slice.trimLive_rs (x : Slice) (n : Nat) :
    (x.trimLive n).rs = x.rs := rfl
@[simp] theorem Slice.trimLive_lp (x : Slice) (n : Nat) :
    (x.trimLive n).lp = x.lp := rfl
@[simp] theorem Slice.trimLive_order (x : Slice) (n : Nat) :
    (x.trimLive n).order = x.order := rfl
@[simp] theorem Slice.trimLive_v (x : Slice) (n : Nat) :
    (x.trimLive n).v = x.v.filter fun c => c.1 < 4 * n := rfl
@[simp] theorem Slice.trimLive_s (x : Slice) (n : Nat) :
    (x.trimLive n).s = x.s := rfl
@[simp] theorem Slice.trimLive_p (x : Slice) (n : Nat) :
    (x.trimLive n).p = x.p := rfl
@[simp] theorem Slice.trimLive_fmt (x : Slice) (n : Nat) :
    (x.trimLive n).fmt = x.fmt := rfl
@[simp] theorem Slice.trimLive_flg (x : Slice) (n : Nat) :
    (x.trimLive n).flg = x.flg := rfl
@[simp] theorem Slice.trimLive_shadow (x : Slice) (n : Nat) :
    (x.trimLive n).shadow = x.shadow := rfl
@[simp] theorem Slice.trimLive_qlen (x : Slice) (n : Nat) :
    (x.trimLive n).qlen = x.qlen := rfl
@[simp] theorem Slice.trimLive_trapvec (x : Slice) (n : Nat) :
    (x.trimLive n).trapvec = x.trapvec := rfl
@[simp] theorem Slice.trimLive_trapcause (x : Slice) (n : Nat) :
    (x.trimLive n).trapcause = x.trapcause := rfl
@[simp] theorem Slice.trimLive_trapaddr (x : Slice) (n : Nat) :
    (x.trimLive n).trapaddr = x.trapaddr := rfl
@[simp] theorem Slice.trimLive_trapregion (x : Slice) (n : Nat) :
    (x.trimLive n).trapregion = x.trapregion := rfl
@[simp] theorem Slice.trimLive_handling (x : Slice) (n : Nat) :
    (x.trimLive n).handling = x.handling := rfl
@[simp] theorem Slice.trimLive_trapLen (x : Slice) (n : Nat) :
    (x.trimLive n).trapLen = x.trapLen := rfl
@[simp] theorem Slice.trimLive_rcnt (x : Slice) (n : Nat) :
    (x.trimLive n).rcnt = x.rcnt := rfl
@[simp] theorem Slice.trimLive_ck (x : Slice) (n : Nat) :
    (x.trimLive n).ck = x.ck := rfl
@[simp] theorem Slice.trimLive_supM (x : Slice) (n : Nat) :
    (x.trimLive n).supM = x.supM := rfl
@[simp] theorem Slice.trimLive_supA (x : Slice) (n : Nat) :
    (x.trimLive n).supA = x.supA := rfl
@[simp] theorem Slice.trimLive_supC (x : Slice) (n : Nat) :
    (x.trimLive n).supC = x.supC := rfl
@[simp] theorem Slice.trimLive_supS (x : Slice) (n : Nat) :
    (x.trimLive n).supS = x.supS := rfl
@[simp] theorem Slice.trimLive_clock (x : Slice) (n : Nat) :
    (x.trimLive n).clock = x.clock := rfl
@[simp] theorem Slice.trimLive_retired (x : Slice) (n : Nat) :
    (x.trimLive n).retired = x.retired := rfl
@[simp] theorem Slice.trimLive_quantum (x : Slice) (n : Nat) :
    (x.trimLive n).quantum = x.quantum := rfl
@[simp] theorem Slice.trimLive_qlenNow (x : Slice) (n : Nat) :
    (x.trimLive n).qlenNow = x.qlenNow := rfl
@[simp] theorem Slice.trimLive_qphase (x : Slice) (n : Nat) :
    (x.trimLive n).qphase = x.qphase := rfl
@[simp] theorem Slice.trimLive_wait (x : Slice) (n : Nat) :
    (x.trimLive n).wait = x.wait := rfl
@[simp] theorem Slice.trimLive_stop (x : Slice) (n : Nat) :
    (x.trimLive n).stop = x.stop := rfl
@[simp] theorem Slice.trimLive_arrp (x : Slice) (n : Nat) :
    (x.trimLive n).arrp = x.arrp := rfl
@[simp] theorem Slice.trimLive_drop (x : Slice) (n : Nat) :
    (x.trimLive n).drop = x.drop := rfl
@[simp] theorem Slice.trimLive_pend (x : Slice) (n : Nat) :
    (x.trimLive n).pend = x.pend.filter fun p => p.1 < 64 + n := rfl
@[simp] theorem Slice.trimLive_q1 (x : Slice) (n : Nat) :
    (x.trimLive n).q1 = x.q1 := rfl
@[simp] theorem Slice.trimLive_buf (x : Slice) (n : Nat) :
    (x.trimLive n).buf = x.buf := rfl
@[simp] theorem Slice.trimLive_ts (x : Slice) (n : Nat) :
    (x.trimLive n).ts = x.ts := rfl
@[simp] theorem Slice.wv_num (x : Slice) (r l : Nat) (w : LWord) :
    (x.wv r l w).num = x.num := rfl
@[simp] theorem Slice.wv_gnum (x : Slice) (r l : Nat) (w : LWord) :
    (x.wv r l w).gnum = x.gnum := rfl
@[simp] theorem Slice.wv_share (x : Slice) (r l : Nat) (w : LWord) :
    (x.wv r l w).share = x.share := rfl
@[simp] theorem Slice.wv_part (x : Slice) (r l : Nat) (w : LWord) :
    (x.wv r l w).part = x.part := rfl
@[simp] theorem Slice.wv_pos (x : Slice) (r l : Nat) (w : LWord) :
    (x.wv r l w).pos = x.pos := rfl
@[simp] theorem Slice.wv_ended (x : Slice) (r l : Nat) (w : LWord) :
    (x.wv r l w).ended = x.ended := rfl
@[simp] theorem Slice.wv_gang (x : Slice) (r l : Nat) (w : LWord) :
    (x.wv r l w).gang = x.gang := rfl
@[simp] theorem Slice.wv_pc (x : Slice) (r l : Nat) (w : LWord) :
    (x.wv r l w).pc = x.pc := rfl
@[simp] theorem Slice.wv_hdr (x : Slice) (r l : Nat) (w : LWord) :
    (x.wv r l w).hdr = x.hdr := rfl
@[simp] theorem Slice.wv_hword (x : Slice) (r l : Nat) (w : LWord) :
    (x.wv r l w).hword = x.hword := rfl
@[simp] theorem Slice.wv_atRep (x : Slice) (r l : Nat) (w : LWord) :
    (x.wv r l w).atRep = x.atRep := rfl
@[simp] theorem Slice.wv_am (x : Slice) (r l : Nat) (w : LWord) :
    (x.wv r l w).am = x.am := rfl
@[simp] theorem Slice.wv_xm (x : Slice) (r l : Nat) (w : LWord) :
    (x.wv r l w).xm = x.xm := rfl
@[simp] theorem Slice.wv_rs (x : Slice) (r l : Nat) (w : LWord) :
    (x.wv r l w).rs = x.rs := rfl
@[simp] theorem Slice.wv_lp (x : Slice) (r l : Nat) (w : LWord) :
    (x.wv r l w).lp = x.lp := rfl
@[simp] theorem Slice.wv_order (x : Slice) (r l : Nat) (w : LWord) :
    (x.wv r l w).order = x.order := rfl
@[simp] theorem Slice.wv_v (x : Slice) (r l : Nat) (w : LWord) :
    (x.wv r l w).v = Cells.set 0 x.v (4 * r + l) w := rfl
@[simp] theorem Slice.wv_s (x : Slice) (r l : Nat) (w : LWord) :
    (x.wv r l w).s = x.s := rfl
@[simp] theorem Slice.wv_p (x : Slice) (r l : Nat) (w : LWord) :
    (x.wv r l w).p = x.p := rfl
@[simp] theorem Slice.wv_fmt (x : Slice) (r l : Nat) (w : LWord) :
    (x.wv r l w).fmt = x.fmt := rfl
@[simp] theorem Slice.wv_flg (x : Slice) (r l : Nat) (w : LWord) :
    (x.wv r l w).flg = x.flg := rfl
@[simp] theorem Slice.wv_shadow (x : Slice) (r l : Nat) (w : LWord) :
    (x.wv r l w).shadow = x.shadow := rfl
@[simp] theorem Slice.wv_qlen (x : Slice) (r l : Nat) (w : LWord) :
    (x.wv r l w).qlen = x.qlen := rfl
@[simp] theorem Slice.wv_trapvec (x : Slice) (r l : Nat) (w : LWord) :
    (x.wv r l w).trapvec = x.trapvec := rfl
@[simp] theorem Slice.wv_trapcause (x : Slice) (r l : Nat) (w : LWord) :
    (x.wv r l w).trapcause = x.trapcause := rfl
@[simp] theorem Slice.wv_trapaddr (x : Slice) (r l : Nat) (w : LWord) :
    (x.wv r l w).trapaddr = x.trapaddr := rfl
@[simp] theorem Slice.wv_trapregion (x : Slice) (r l : Nat) (w : LWord) :
    (x.wv r l w).trapregion = x.trapregion := rfl
@[simp] theorem Slice.wv_handling (x : Slice) (r l : Nat) (w : LWord) :
    (x.wv r l w).handling = x.handling := rfl
@[simp] theorem Slice.wv_trapLen (x : Slice) (r l : Nat) (w : LWord) :
    (x.wv r l w).trapLen = x.trapLen := rfl
@[simp] theorem Slice.wv_rcnt (x : Slice) (r l : Nat) (w : LWord) :
    (x.wv r l w).rcnt = x.rcnt := rfl
@[simp] theorem Slice.wv_ck (x : Slice) (r l : Nat) (w : LWord) :
    (x.wv r l w).ck = x.ck := rfl
@[simp] theorem Slice.wv_supM (x : Slice) (r l : Nat) (w : LWord) :
    (x.wv r l w).supM = x.supM := rfl
@[simp] theorem Slice.wv_supA (x : Slice) (r l : Nat) (w : LWord) :
    (x.wv r l w).supA = x.supA := rfl
@[simp] theorem Slice.wv_supC (x : Slice) (r l : Nat) (w : LWord) :
    (x.wv r l w).supC = x.supC := rfl
@[simp] theorem Slice.wv_supS (x : Slice) (r l : Nat) (w : LWord) :
    (x.wv r l w).supS = x.supS := rfl
@[simp] theorem Slice.wv_clock (x : Slice) (r l : Nat) (w : LWord) :
    (x.wv r l w).clock = x.clock := rfl
@[simp] theorem Slice.wv_retired (x : Slice) (r l : Nat) (w : LWord) :
    (x.wv r l w).retired = x.retired := rfl
@[simp] theorem Slice.wv_quantum (x : Slice) (r l : Nat) (w : LWord) :
    (x.wv r l w).quantum = x.quantum := rfl
@[simp] theorem Slice.wv_qlenNow (x : Slice) (r l : Nat) (w : LWord) :
    (x.wv r l w).qlenNow = x.qlenNow := rfl
@[simp] theorem Slice.wv_qphase (x : Slice) (r l : Nat) (w : LWord) :
    (x.wv r l w).qphase = x.qphase := rfl
@[simp] theorem Slice.wv_wait (x : Slice) (r l : Nat) (w : LWord) :
    (x.wv r l w).wait = x.wait := rfl
@[simp] theorem Slice.wv_stop (x : Slice) (r l : Nat) (w : LWord) :
    (x.wv r l w).stop = x.stop := rfl
@[simp] theorem Slice.wv_arrp (x : Slice) (r l : Nat) (w : LWord) :
    (x.wv r l w).arrp = x.arrp := rfl
@[simp] theorem Slice.wv_drop (x : Slice) (r l : Nat) (w : LWord) :
    (x.wv r l w).drop = x.drop := rfl
@[simp] theorem Slice.wv_pend (x : Slice) (r l : Nat) (w : LWord) :
    (x.wv r l w).pend = x.pend := rfl
@[simp] theorem Slice.wv_q1 (x : Slice) (r l : Nat) (w : LWord) :
    (x.wv r l w).q1 = x.q1 := rfl
@[simp] theorem Slice.wv_buf (x : Slice) (r l : Nat) (w : LWord) :
    (x.wv r l w).buf = x.buf := rfl
@[simp] theorem Slice.wv_ts (x : Slice) (r l : Nat) (w : LWord) :
    (x.wv r l w).ts = x.ts := rfl
@[simp] theorem Slice.ws_num (x : Slice) (r : Nat) (w : Word) :
    (x.ws r w).num = x.num := rfl
@[simp] theorem Slice.ws_gnum (x : Slice) (r : Nat) (w : Word) :
    (x.ws r w).gnum = x.gnum := rfl
@[simp] theorem Slice.ws_share (x : Slice) (r : Nat) (w : Word) :
    (x.ws r w).share = x.share := rfl
@[simp] theorem Slice.ws_part (x : Slice) (r : Nat) (w : Word) :
    (x.ws r w).part = x.part := rfl
@[simp] theorem Slice.ws_pos (x : Slice) (r : Nat) (w : Word) :
    (x.ws r w).pos = x.pos := rfl
@[simp] theorem Slice.ws_ended (x : Slice) (r : Nat) (w : Word) :
    (x.ws r w).ended = x.ended := rfl
@[simp] theorem Slice.ws_gang (x : Slice) (r : Nat) (w : Word) :
    (x.ws r w).gang = x.gang := rfl
@[simp] theorem Slice.ws_pc (x : Slice) (r : Nat) (w : Word) :
    (x.ws r w).pc = x.pc := rfl
@[simp] theorem Slice.ws_hdr (x : Slice) (r : Nat) (w : Word) :
    (x.ws r w).hdr = x.hdr := rfl
@[simp] theorem Slice.ws_hword (x : Slice) (r : Nat) (w : Word) :
    (x.ws r w).hword = x.hword := rfl
@[simp] theorem Slice.ws_atRep (x : Slice) (r : Nat) (w : Word) :
    (x.ws r w).atRep = x.atRep := rfl
@[simp] theorem Slice.ws_am (x : Slice) (r : Nat) (w : Word) :
    (x.ws r w).am = x.am := rfl
@[simp] theorem Slice.ws_xm (x : Slice) (r : Nat) (w : Word) :
    (x.ws r w).xm = x.xm := rfl
@[simp] theorem Slice.ws_rs (x : Slice) (r : Nat) (w : Word) :
    (x.ws r w).rs = x.rs := rfl
@[simp] theorem Slice.ws_lp (x : Slice) (r : Nat) (w : Word) :
    (x.ws r w).lp = x.lp := rfl
@[simp] theorem Slice.ws_order (x : Slice) (r : Nat) (w : Word) :
    (x.ws r w).order = x.order := rfl
@[simp] theorem Slice.ws_v (x : Slice) (r : Nat) (w : Word) :
    (x.ws r w).v = x.v := rfl
@[simp] theorem Slice.ws_s (x : Slice) (r : Nat) (w : Word) :
    (x.ws r w).s = Cells.set 0 x.s r w := rfl
@[simp] theorem Slice.ws_p (x : Slice) (r : Nat) (w : Word) :
    (x.ws r w).p = x.p := rfl
@[simp] theorem Slice.ws_fmt (x : Slice) (r : Nat) (w : Word) :
    (x.ws r w).fmt = x.fmt := rfl
@[simp] theorem Slice.ws_flg (x : Slice) (r : Nat) (w : Word) :
    (x.ws r w).flg = x.flg := rfl
@[simp] theorem Slice.ws_shadow (x : Slice) (r : Nat) (w : Word) :
    (x.ws r w).shadow = x.shadow := rfl
@[simp] theorem Slice.ws_qlen (x : Slice) (r : Nat) (w : Word) :
    (x.ws r w).qlen = x.qlen := rfl
@[simp] theorem Slice.ws_trapvec (x : Slice) (r : Nat) (w : Word) :
    (x.ws r w).trapvec = x.trapvec := rfl
@[simp] theorem Slice.ws_trapcause (x : Slice) (r : Nat) (w : Word) :
    (x.ws r w).trapcause = x.trapcause := rfl
@[simp] theorem Slice.ws_trapaddr (x : Slice) (r : Nat) (w : Word) :
    (x.ws r w).trapaddr = x.trapaddr := rfl
@[simp] theorem Slice.ws_trapregion (x : Slice) (r : Nat) (w : Word) :
    (x.ws r w).trapregion = x.trapregion := rfl
@[simp] theorem Slice.ws_handling (x : Slice) (r : Nat) (w : Word) :
    (x.ws r w).handling = x.handling := rfl
@[simp] theorem Slice.ws_trapLen (x : Slice) (r : Nat) (w : Word) :
    (x.ws r w).trapLen = x.trapLen := rfl
@[simp] theorem Slice.ws_rcnt (x : Slice) (r : Nat) (w : Word) :
    (x.ws r w).rcnt = x.rcnt := rfl
@[simp] theorem Slice.ws_ck (x : Slice) (r : Nat) (w : Word) :
    (x.ws r w).ck = x.ck := rfl
@[simp] theorem Slice.ws_supM (x : Slice) (r : Nat) (w : Word) :
    (x.ws r w).supM = x.supM := rfl
@[simp] theorem Slice.ws_supA (x : Slice) (r : Nat) (w : Word) :
    (x.ws r w).supA = x.supA := rfl
@[simp] theorem Slice.ws_supC (x : Slice) (r : Nat) (w : Word) :
    (x.ws r w).supC = x.supC := rfl
@[simp] theorem Slice.ws_supS (x : Slice) (r : Nat) (w : Word) :
    (x.ws r w).supS = x.supS := rfl
@[simp] theorem Slice.ws_clock (x : Slice) (r : Nat) (w : Word) :
    (x.ws r w).clock = x.clock := rfl
@[simp] theorem Slice.ws_retired (x : Slice) (r : Nat) (w : Word) :
    (x.ws r w).retired = x.retired := rfl
@[simp] theorem Slice.ws_quantum (x : Slice) (r : Nat) (w : Word) :
    (x.ws r w).quantum = x.quantum := rfl
@[simp] theorem Slice.ws_qlenNow (x : Slice) (r : Nat) (w : Word) :
    (x.ws r w).qlenNow = x.qlenNow := rfl
@[simp] theorem Slice.ws_qphase (x : Slice) (r : Nat) (w : Word) :
    (x.ws r w).qphase = x.qphase := rfl
@[simp] theorem Slice.ws_wait (x : Slice) (r : Nat) (w : Word) :
    (x.ws r w).wait = x.wait := rfl
@[simp] theorem Slice.ws_stop (x : Slice) (r : Nat) (w : Word) :
    (x.ws r w).stop = x.stop := rfl
@[simp] theorem Slice.ws_arrp (x : Slice) (r : Nat) (w : Word) :
    (x.ws r w).arrp = x.arrp := rfl
@[simp] theorem Slice.ws_drop (x : Slice) (r : Nat) (w : Word) :
    (x.ws r w).drop = x.drop := rfl
@[simp] theorem Slice.ws_pend (x : Slice) (r : Nat) (w : Word) :
    (x.ws r w).pend = x.pend := rfl
@[simp] theorem Slice.ws_q1 (x : Slice) (r : Nat) (w : Word) :
    (x.ws r w).q1 = x.q1 := rfl
@[simp] theorem Slice.ws_buf (x : Slice) (r : Nat) (w : Word) :
    (x.ws r w).buf = x.buf := rfl
@[simp] theorem Slice.ws_ts (x : Slice) (r : Nat) (w : Word) :
    (x.ws r w).ts = x.ts := rfl
@[simp] theorem Slice.wp_num (x : Slice) (r : Nat) (m : Mask) :
    (x.wp r m).num = x.num := by unfold Slice.wp; split <;> rfl
@[simp] theorem Slice.wp_gnum (x : Slice) (r : Nat) (m : Mask) :
    (x.wp r m).gnum = x.gnum := by unfold Slice.wp; split <;> rfl
@[simp] theorem Slice.wp_share (x : Slice) (r : Nat) (m : Mask) :
    (x.wp r m).share = x.share := by unfold Slice.wp; split <;> rfl
@[simp] theorem Slice.wp_part (x : Slice) (r : Nat) (m : Mask) :
    (x.wp r m).part = x.part := by unfold Slice.wp; split <;> rfl
@[simp] theorem Slice.wp_pos (x : Slice) (r : Nat) (m : Mask) :
    (x.wp r m).pos = x.pos := by unfold Slice.wp; split <;> rfl
@[simp] theorem Slice.wp_ended (x : Slice) (r : Nat) (m : Mask) :
    (x.wp r m).ended = x.ended := by unfold Slice.wp; split <;> rfl
@[simp] theorem Slice.wp_gang (x : Slice) (r : Nat) (m : Mask) :
    (x.wp r m).gang = x.gang := by unfold Slice.wp; split <;> rfl
@[simp] theorem Slice.wp_pc (x : Slice) (r : Nat) (m : Mask) :
    (x.wp r m).pc = x.pc := by unfold Slice.wp; split <;> rfl
@[simp] theorem Slice.wp_hdr (x : Slice) (r : Nat) (m : Mask) :
    (x.wp r m).hdr = x.hdr := by unfold Slice.wp; split <;> rfl
@[simp] theorem Slice.wp_hword (x : Slice) (r : Nat) (m : Mask) :
    (x.wp r m).hword = x.hword := by unfold Slice.wp; split <;> rfl
@[simp] theorem Slice.wp_atRep (x : Slice) (r : Nat) (m : Mask) :
    (x.wp r m).atRep = x.atRep := by unfold Slice.wp; split <;> rfl
@[simp] theorem Slice.wp_am (x : Slice) (r : Nat) (m : Mask) :
    (x.wp r m).am = x.am := by unfold Slice.wp; split <;> rfl
@[simp] theorem Slice.wp_xm (x : Slice) (r : Nat) (m : Mask) :
    (x.wp r m).xm = x.xm := by unfold Slice.wp; split <;> rfl
@[simp] theorem Slice.wp_rs (x : Slice) (r : Nat) (m : Mask) :
    (x.wp r m).rs = x.rs := by unfold Slice.wp; split <;> rfl
@[simp] theorem Slice.wp_lp (x : Slice) (r : Nat) (m : Mask) :
    (x.wp r m).lp = x.lp := by unfold Slice.wp; split <;> rfl
@[simp] theorem Slice.wp_order (x : Slice) (r : Nat) (m : Mask) :
    (x.wp r m).order = x.order := by unfold Slice.wp; split <;> rfl
@[simp] theorem Slice.wp_v (x : Slice) (r : Nat) (m : Mask) :
    (x.wp r m).v = x.v := by unfold Slice.wp; split <;> rfl
@[simp] theorem Slice.wp_s (x : Slice) (r : Nat) (m : Mask) :
    (x.wp r m).s = x.s := by unfold Slice.wp; split <;> rfl
@[simp] theorem Slice.wp_fmt (x : Slice) (r : Nat) (m : Mask) :
    (x.wp r m).fmt = x.fmt := by unfold Slice.wp; split <;> rfl
@[simp] theorem Slice.wp_flg (x : Slice) (r : Nat) (m : Mask) :
    (x.wp r m).flg = x.flg := by unfold Slice.wp; split <;> rfl
@[simp] theorem Slice.wp_shadow (x : Slice) (r : Nat) (m : Mask) :
    (x.wp r m).shadow = x.shadow := by unfold Slice.wp; split <;> rfl
@[simp] theorem Slice.wp_qlen (x : Slice) (r : Nat) (m : Mask) :
    (x.wp r m).qlen = x.qlen := by unfold Slice.wp; split <;> rfl
@[simp] theorem Slice.wp_trapvec (x : Slice) (r : Nat) (m : Mask) :
    (x.wp r m).trapvec = x.trapvec := by unfold Slice.wp; split <;> rfl
@[simp] theorem Slice.wp_trapcause (x : Slice) (r : Nat) (m : Mask) :
    (x.wp r m).trapcause = x.trapcause := by unfold Slice.wp; split <;> rfl
@[simp] theorem Slice.wp_trapaddr (x : Slice) (r : Nat) (m : Mask) :
    (x.wp r m).trapaddr = x.trapaddr := by unfold Slice.wp; split <;> rfl
@[simp] theorem Slice.wp_trapregion (x : Slice) (r : Nat) (m : Mask) :
    (x.wp r m).trapregion = x.trapregion := by unfold Slice.wp; split <;> rfl
@[simp] theorem Slice.wp_handling (x : Slice) (r : Nat) (m : Mask) :
    (x.wp r m).handling = x.handling := by unfold Slice.wp; split <;> rfl
@[simp] theorem Slice.wp_trapLen (x : Slice) (r : Nat) (m : Mask) :
    (x.wp r m).trapLen = x.trapLen := by unfold Slice.wp; split <;> rfl
@[simp] theorem Slice.wp_rcnt (x : Slice) (r : Nat) (m : Mask) :
    (x.wp r m).rcnt = x.rcnt := by unfold Slice.wp; split <;> rfl
@[simp] theorem Slice.wp_ck (x : Slice) (r : Nat) (m : Mask) :
    (x.wp r m).ck = x.ck := by unfold Slice.wp; split <;> rfl
@[simp] theorem Slice.wp_supM (x : Slice) (r : Nat) (m : Mask) :
    (x.wp r m).supM = x.supM := by unfold Slice.wp; split <;> rfl
@[simp] theorem Slice.wp_supA (x : Slice) (r : Nat) (m : Mask) :
    (x.wp r m).supA = x.supA := by unfold Slice.wp; split <;> rfl
@[simp] theorem Slice.wp_supC (x : Slice) (r : Nat) (m : Mask) :
    (x.wp r m).supC = x.supC := by unfold Slice.wp; split <;> rfl
@[simp] theorem Slice.wp_supS (x : Slice) (r : Nat) (m : Mask) :
    (x.wp r m).supS = x.supS := by unfold Slice.wp; split <;> rfl
@[simp] theorem Slice.wp_clock (x : Slice) (r : Nat) (m : Mask) :
    (x.wp r m).clock = x.clock := by unfold Slice.wp; split <;> rfl
@[simp] theorem Slice.wp_retired (x : Slice) (r : Nat) (m : Mask) :
    (x.wp r m).retired = x.retired := by unfold Slice.wp; split <;> rfl
@[simp] theorem Slice.wp_quantum (x : Slice) (r : Nat) (m : Mask) :
    (x.wp r m).quantum = x.quantum := by unfold Slice.wp; split <;> rfl
@[simp] theorem Slice.wp_qlenNow (x : Slice) (r : Nat) (m : Mask) :
    (x.wp r m).qlenNow = x.qlenNow := by unfold Slice.wp; split <;> rfl
@[simp] theorem Slice.wp_qphase (x : Slice) (r : Nat) (m : Mask) :
    (x.wp r m).qphase = x.qphase := by unfold Slice.wp; split <;> rfl
@[simp] theorem Slice.wp_wait (x : Slice) (r : Nat) (m : Mask) :
    (x.wp r m).wait = x.wait := by unfold Slice.wp; split <;> rfl
@[simp] theorem Slice.wp_stop (x : Slice) (r : Nat) (m : Mask) :
    (x.wp r m).stop = x.stop := by unfold Slice.wp; split <;> rfl
@[simp] theorem Slice.wp_arrp (x : Slice) (r : Nat) (m : Mask) :
    (x.wp r m).arrp = x.arrp := by unfold Slice.wp; split <;> rfl
@[simp] theorem Slice.wp_drop (x : Slice) (r : Nat) (m : Mask) :
    (x.wp r m).drop = x.drop := by unfold Slice.wp; split <;> rfl
@[simp] theorem Slice.wp_pend (x : Slice) (r : Nat) (m : Mask) :
    (x.wp r m).pend = x.pend := by unfold Slice.wp; split <;> rfl
@[simp] theorem Slice.wp_q1 (x : Slice) (r : Nat) (m : Mask) :
    (x.wp r m).q1 = x.q1 := by unfold Slice.wp; split <;> rfl
@[simp] theorem Slice.wp_buf (x : Slice) (r : Nat) (m : Mask) :
    (x.wp r m).buf = x.buf := by unfold Slice.wp; split <;> rfl
@[simp] theorem Slice.wp_ts (x : Slice) (r : Nat) (m : Mask) :
    (x.wp r m).ts = x.ts := by unfold Slice.wp; split <;> rfl
@[simp] theorem Slice.setLp_num (x : Slice) (k : Nat) (r : LoopReg) :
    (x.setLp k r).num = x.num := rfl
@[simp] theorem Slice.setLp_gnum (x : Slice) (k : Nat) (r : LoopReg) :
    (x.setLp k r).gnum = x.gnum := rfl
@[simp] theorem Slice.setLp_share (x : Slice) (k : Nat) (r : LoopReg) :
    (x.setLp k r).share = x.share := rfl
@[simp] theorem Slice.setLp_part (x : Slice) (k : Nat) (r : LoopReg) :
    (x.setLp k r).part = x.part := rfl
@[simp] theorem Slice.setLp_pos (x : Slice) (k : Nat) (r : LoopReg) :
    (x.setLp k r).pos = x.pos := rfl
@[simp] theorem Slice.setLp_ended (x : Slice) (k : Nat) (r : LoopReg) :
    (x.setLp k r).ended = x.ended := rfl
@[simp] theorem Slice.setLp_gang (x : Slice) (k : Nat) (r : LoopReg) :
    (x.setLp k r).gang = x.gang := rfl
@[simp] theorem Slice.setLp_pc (x : Slice) (k : Nat) (r : LoopReg) :
    (x.setLp k r).pc = x.pc := rfl
@[simp] theorem Slice.setLp_hdr (x : Slice) (k : Nat) (r : LoopReg) :
    (x.setLp k r).hdr = x.hdr := rfl
@[simp] theorem Slice.setLp_hword (x : Slice) (k : Nat) (r : LoopReg) :
    (x.setLp k r).hword = x.hword := rfl
@[simp] theorem Slice.setLp_atRep (x : Slice) (k : Nat) (r : LoopReg) :
    (x.setLp k r).atRep = x.atRep := rfl
@[simp] theorem Slice.setLp_am (x : Slice) (k : Nat) (r : LoopReg) :
    (x.setLp k r).am = x.am := rfl
@[simp] theorem Slice.setLp_xm (x : Slice) (k : Nat) (r : LoopReg) :
    (x.setLp k r).xm = x.xm := rfl
@[simp] theorem Slice.setLp_rs (x : Slice) (k : Nat) (r : LoopReg) :
    (x.setLp k r).rs = x.rs := rfl
@[simp] theorem Slice.setLp_lp (x : Slice) (k : Nat) (r : LoopReg) :
    (x.setLp k r).lp = x.lp.set k r := rfl
@[simp] theorem Slice.setLp_order (x : Slice) (k : Nat) (r : LoopReg) :
    (x.setLp k r).order = x.order := rfl
@[simp] theorem Slice.setLp_v (x : Slice) (k : Nat) (r : LoopReg) :
    (x.setLp k r).v = x.v := rfl
@[simp] theorem Slice.setLp_s (x : Slice) (k : Nat) (r : LoopReg) :
    (x.setLp k r).s = x.s := rfl
@[simp] theorem Slice.setLp_p (x : Slice) (k : Nat) (r : LoopReg) :
    (x.setLp k r).p = x.p := rfl
@[simp] theorem Slice.setLp_fmt (x : Slice) (k : Nat) (r : LoopReg) :
    (x.setLp k r).fmt = x.fmt := rfl
@[simp] theorem Slice.setLp_flg (x : Slice) (k : Nat) (r : LoopReg) :
    (x.setLp k r).flg = x.flg := rfl
@[simp] theorem Slice.setLp_shadow (x : Slice) (k : Nat) (r : LoopReg) :
    (x.setLp k r).shadow = x.shadow := rfl
@[simp] theorem Slice.setLp_qlen (x : Slice) (k : Nat) (r : LoopReg) :
    (x.setLp k r).qlen = x.qlen := rfl
@[simp] theorem Slice.setLp_trapvec (x : Slice) (k : Nat) (r : LoopReg) :
    (x.setLp k r).trapvec = x.trapvec := rfl
@[simp] theorem Slice.setLp_trapcause (x : Slice) (k : Nat) (r : LoopReg) :
    (x.setLp k r).trapcause = x.trapcause := rfl
@[simp] theorem Slice.setLp_trapaddr (x : Slice) (k : Nat) (r : LoopReg) :
    (x.setLp k r).trapaddr = x.trapaddr := rfl
@[simp] theorem Slice.setLp_trapregion (x : Slice) (k : Nat) (r : LoopReg) :
    (x.setLp k r).trapregion = x.trapregion := rfl
@[simp] theorem Slice.setLp_handling (x : Slice) (k : Nat) (r : LoopReg) :
    (x.setLp k r).handling = x.handling := rfl
@[simp] theorem Slice.setLp_trapLen (x : Slice) (k : Nat) (r : LoopReg) :
    (x.setLp k r).trapLen = x.trapLen := rfl
@[simp] theorem Slice.setLp_rcnt (x : Slice) (k : Nat) (r : LoopReg) :
    (x.setLp k r).rcnt = x.rcnt := rfl
@[simp] theorem Slice.setLp_ck (x : Slice) (k : Nat) (r : LoopReg) :
    (x.setLp k r).ck = x.ck := rfl
@[simp] theorem Slice.setLp_supM (x : Slice) (k : Nat) (r : LoopReg) :
    (x.setLp k r).supM = x.supM := rfl
@[simp] theorem Slice.setLp_supA (x : Slice) (k : Nat) (r : LoopReg) :
    (x.setLp k r).supA = x.supA := rfl
@[simp] theorem Slice.setLp_supC (x : Slice) (k : Nat) (r : LoopReg) :
    (x.setLp k r).supC = x.supC := rfl
@[simp] theorem Slice.setLp_supS (x : Slice) (k : Nat) (r : LoopReg) :
    (x.setLp k r).supS = x.supS := rfl
@[simp] theorem Slice.setLp_clock (x : Slice) (k : Nat) (r : LoopReg) :
    (x.setLp k r).clock = x.clock := rfl
@[simp] theorem Slice.setLp_retired (x : Slice) (k : Nat) (r : LoopReg) :
    (x.setLp k r).retired = x.retired := rfl
@[simp] theorem Slice.setLp_quantum (x : Slice) (k : Nat) (r : LoopReg) :
    (x.setLp k r).quantum = x.quantum := rfl
@[simp] theorem Slice.setLp_qlenNow (x : Slice) (k : Nat) (r : LoopReg) :
    (x.setLp k r).qlenNow = x.qlenNow := rfl
@[simp] theorem Slice.setLp_qphase (x : Slice) (k : Nat) (r : LoopReg) :
    (x.setLp k r).qphase = x.qphase := rfl
@[simp] theorem Slice.setLp_wait (x : Slice) (k : Nat) (r : LoopReg) :
    (x.setLp k r).wait = x.wait := rfl
@[simp] theorem Slice.setLp_stop (x : Slice) (k : Nat) (r : LoopReg) :
    (x.setLp k r).stop = x.stop := rfl
@[simp] theorem Slice.setLp_arrp (x : Slice) (k : Nat) (r : LoopReg) :
    (x.setLp k r).arrp = x.arrp := rfl
@[simp] theorem Slice.setLp_drop (x : Slice) (k : Nat) (r : LoopReg) :
    (x.setLp k r).drop = x.drop := rfl
@[simp] theorem Slice.setLp_pend (x : Slice) (k : Nat) (r : LoopReg) :
    (x.setLp k r).pend = x.pend := rfl
@[simp] theorem Slice.setLp_q1 (x : Slice) (k : Nat) (r : LoopReg) :
    (x.setLp k r).q1 = x.q1 := rfl
@[simp] theorem Slice.setLp_buf (x : Slice) (k : Nat) (r : LoopReg) :
    (x.setLp k r).buf = x.buf := rfl
@[simp] theorem Slice.setLp_ts (x : Slice) (k : Nat) (r : LoopReg) :
    (x.setLp k r).ts = x.ts := rfl
@[simp] theorem Slice.setFlags_num (x : Slice) (f : Flags) :
    (x.setFlags f).num = x.num := rfl
@[simp] theorem Slice.setFlags_gnum (x : Slice) (f : Flags) :
    (x.setFlags f).gnum = x.gnum := rfl
@[simp] theorem Slice.setFlags_share (x : Slice) (f : Flags) :
    (x.setFlags f).share = x.share := rfl
@[simp] theorem Slice.setFlags_part (x : Slice) (f : Flags) :
    (x.setFlags f).part = x.part := rfl
@[simp] theorem Slice.setFlags_pos (x : Slice) (f : Flags) :
    (x.setFlags f).pos = x.pos := rfl
@[simp] theorem Slice.setFlags_ended (x : Slice) (f : Flags) :
    (x.setFlags f).ended = x.ended := rfl
@[simp] theorem Slice.setFlags_gang (x : Slice) (f : Flags) :
    (x.setFlags f).gang = x.gang := rfl
@[simp] theorem Slice.setFlags_pc (x : Slice) (f : Flags) :
    (x.setFlags f).pc = x.pc := rfl
@[simp] theorem Slice.setFlags_hdr (x : Slice) (f : Flags) :
    (x.setFlags f).hdr = x.hdr := rfl
@[simp] theorem Slice.setFlags_hword (x : Slice) (f : Flags) :
    (x.setFlags f).hword = x.hword := rfl
@[simp] theorem Slice.setFlags_atRep (x : Slice) (f : Flags) :
    (x.setFlags f).atRep = x.atRep := rfl
@[simp] theorem Slice.setFlags_am (x : Slice) (f : Flags) :
    (x.setFlags f).am = x.am := rfl
@[simp] theorem Slice.setFlags_xm (x : Slice) (f : Flags) :
    (x.setFlags f).xm = x.xm := rfl
@[simp] theorem Slice.setFlags_rs (x : Slice) (f : Flags) :
    (x.setFlags f).rs = x.rs := rfl
@[simp] theorem Slice.setFlags_lp (x : Slice) (f : Flags) :
    (x.setFlags f).lp = x.lp := rfl
@[simp] theorem Slice.setFlags_order (x : Slice) (f : Flags) :
    (x.setFlags f).order = x.order := rfl
@[simp] theorem Slice.setFlags_v (x : Slice) (f : Flags) :
    (x.setFlags f).v = x.v := rfl
@[simp] theorem Slice.setFlags_s (x : Slice) (f : Flags) :
    (x.setFlags f).s = x.s := rfl
@[simp] theorem Slice.setFlags_p (x : Slice) (f : Flags) :
    (x.setFlags f).p = x.p := rfl
@[simp] theorem Slice.setFlags_fmt (x : Slice) (f : Flags) :
    (x.setFlags f).fmt = x.fmt := rfl
@[simp] theorem Slice.setFlags_flg (x : Slice) (f : Flags) :
    (x.setFlags f).flg = x.flg := rfl
@[simp] theorem Slice.setFlags_shadow (x : Slice) (f : Flags) :
    (x.setFlags f).shadow = x.shadow ||| f := rfl
@[simp] theorem Slice.setFlags_qlen (x : Slice) (f : Flags) :
    (x.setFlags f).qlen = x.qlen := rfl
@[simp] theorem Slice.setFlags_trapvec (x : Slice) (f : Flags) :
    (x.setFlags f).trapvec = x.trapvec := rfl
@[simp] theorem Slice.setFlags_trapcause (x : Slice) (f : Flags) :
    (x.setFlags f).trapcause = x.trapcause := rfl
@[simp] theorem Slice.setFlags_trapaddr (x : Slice) (f : Flags) :
    (x.setFlags f).trapaddr = x.trapaddr := rfl
@[simp] theorem Slice.setFlags_trapregion (x : Slice) (f : Flags) :
    (x.setFlags f).trapregion = x.trapregion := rfl
@[simp] theorem Slice.setFlags_handling (x : Slice) (f : Flags) :
    (x.setFlags f).handling = x.handling := rfl
@[simp] theorem Slice.setFlags_trapLen (x : Slice) (f : Flags) :
    (x.setFlags f).trapLen = x.trapLen := rfl
@[simp] theorem Slice.setFlags_rcnt (x : Slice) (f : Flags) :
    (x.setFlags f).rcnt = x.rcnt := rfl
@[simp] theorem Slice.setFlags_ck (x : Slice) (f : Flags) :
    (x.setFlags f).ck = x.ck := rfl
@[simp] theorem Slice.setFlags_supM (x : Slice) (f : Flags) :
    (x.setFlags f).supM = x.supM := rfl
@[simp] theorem Slice.setFlags_supA (x : Slice) (f : Flags) :
    (x.setFlags f).supA = x.supA := rfl
@[simp] theorem Slice.setFlags_supC (x : Slice) (f : Flags) :
    (x.setFlags f).supC = x.supC := rfl
@[simp] theorem Slice.setFlags_supS (x : Slice) (f : Flags) :
    (x.setFlags f).supS = x.supS := rfl
@[simp] theorem Slice.setFlags_clock (x : Slice) (f : Flags) :
    (x.setFlags f).clock = x.clock := rfl
@[simp] theorem Slice.setFlags_retired (x : Slice) (f : Flags) :
    (x.setFlags f).retired = x.retired := rfl
@[simp] theorem Slice.setFlags_quantum (x : Slice) (f : Flags) :
    (x.setFlags f).quantum = x.quantum := rfl
@[simp] theorem Slice.setFlags_qlenNow (x : Slice) (f : Flags) :
    (x.setFlags f).qlenNow = x.qlenNow := rfl
@[simp] theorem Slice.setFlags_qphase (x : Slice) (f : Flags) :
    (x.setFlags f).qphase = x.qphase := rfl
@[simp] theorem Slice.setFlags_wait (x : Slice) (f : Flags) :
    (x.setFlags f).wait = x.wait := rfl
@[simp] theorem Slice.setFlags_stop (x : Slice) (f : Flags) :
    (x.setFlags f).stop = x.stop := rfl
@[simp] theorem Slice.setFlags_arrp (x : Slice) (f : Flags) :
    (x.setFlags f).arrp = x.arrp := rfl
@[simp] theorem Slice.setFlags_drop (x : Slice) (f : Flags) :
    (x.setFlags f).drop = x.drop := rfl
@[simp] theorem Slice.setFlags_pend (x : Slice) (f : Flags) :
    (x.setFlags f).pend = x.pend := rfl
@[simp] theorem Slice.setFlags_q1 (x : Slice) (f : Flags) :
    (x.setFlags f).q1 = x.q1 := rfl
@[simp] theorem Slice.setFlags_buf (x : Slice) (f : Flags) :
    (x.setFlags f).buf = x.buf := rfl
@[simp] theorem Slice.setFlags_ts (x : Slice) (f : Flags) :
    (x.setFlags f).ts = x.ts := rfl
@[simp] theorem Slice.writeFlg_num (x : Slice) (w : Word) :
    (x.writeFlg w).num = x.num := rfl
@[simp] theorem Slice.writeFlg_gnum (x : Slice) (w : Word) :
    (x.writeFlg w).gnum = x.gnum := rfl
@[simp] theorem Slice.writeFlg_share (x : Slice) (w : Word) :
    (x.writeFlg w).share = x.share := rfl
@[simp] theorem Slice.writeFlg_part (x : Slice) (w : Word) :
    (x.writeFlg w).part = x.part := rfl
@[simp] theorem Slice.writeFlg_pos (x : Slice) (w : Word) :
    (x.writeFlg w).pos = x.pos := rfl
@[simp] theorem Slice.writeFlg_ended (x : Slice) (w : Word) :
    (x.writeFlg w).ended = x.ended := rfl
@[simp] theorem Slice.writeFlg_gang (x : Slice) (w : Word) :
    (x.writeFlg w).gang = x.gang := rfl
@[simp] theorem Slice.writeFlg_pc (x : Slice) (w : Word) :
    (x.writeFlg w).pc = x.pc := rfl
@[simp] theorem Slice.writeFlg_hdr (x : Slice) (w : Word) :
    (x.writeFlg w).hdr = x.hdr := rfl
@[simp] theorem Slice.writeFlg_hword (x : Slice) (w : Word) :
    (x.writeFlg w).hword = x.hword := rfl
@[simp] theorem Slice.writeFlg_atRep (x : Slice) (w : Word) :
    (x.writeFlg w).atRep = x.atRep := rfl
@[simp] theorem Slice.writeFlg_am (x : Slice) (w : Word) :
    (x.writeFlg w).am = x.am := rfl
@[simp] theorem Slice.writeFlg_xm (x : Slice) (w : Word) :
    (x.writeFlg w).xm = x.xm := rfl
@[simp] theorem Slice.writeFlg_rs (x : Slice) (w : Word) :
    (x.writeFlg w).rs = x.rs := rfl
@[simp] theorem Slice.writeFlg_lp (x : Slice) (w : Word) :
    (x.writeFlg w).lp = x.lp := rfl
@[simp] theorem Slice.writeFlg_order (x : Slice) (w : Word) :
    (x.writeFlg w).order = x.order := rfl
@[simp] theorem Slice.writeFlg_v (x : Slice) (w : Word) :
    (x.writeFlg w).v = x.v := rfl
@[simp] theorem Slice.writeFlg_s (x : Slice) (w : Word) :
    (x.writeFlg w).s = x.s := rfl
@[simp] theorem Slice.writeFlg_p (x : Slice) (w : Word) :
    (x.writeFlg w).p = x.p := rfl
@[simp] theorem Slice.writeFlg_fmt (x : Slice) (w : Word) :
    (x.writeFlg w).fmt = x.fmt := rfl
@[simp] theorem Slice.writeFlg_flg (x : Slice) (w : Word) :
    (x.writeFlg w).flg = w.setWidth 6 := rfl
@[simp] theorem Slice.writeFlg_shadow (x : Slice) (w : Word) :
    (x.writeFlg w).shadow = 0 := rfl
@[simp] theorem Slice.writeFlg_qlen (x : Slice) (w : Word) :
    (x.writeFlg w).qlen = x.qlen := rfl
@[simp] theorem Slice.writeFlg_trapvec (x : Slice) (w : Word) :
    (x.writeFlg w).trapvec = x.trapvec := rfl
@[simp] theorem Slice.writeFlg_trapcause (x : Slice) (w : Word) :
    (x.writeFlg w).trapcause = x.trapcause := rfl
@[simp] theorem Slice.writeFlg_trapaddr (x : Slice) (w : Word) :
    (x.writeFlg w).trapaddr = x.trapaddr := rfl
@[simp] theorem Slice.writeFlg_trapregion (x : Slice) (w : Word) :
    (x.writeFlg w).trapregion = x.trapregion := rfl
@[simp] theorem Slice.writeFlg_handling (x : Slice) (w : Word) :
    (x.writeFlg w).handling = x.handling := rfl
@[simp] theorem Slice.writeFlg_trapLen (x : Slice) (w : Word) :
    (x.writeFlg w).trapLen = x.trapLen := rfl
@[simp] theorem Slice.writeFlg_rcnt (x : Slice) (w : Word) :
    (x.writeFlg w).rcnt = x.rcnt := rfl
@[simp] theorem Slice.writeFlg_ck (x : Slice) (w : Word) :
    (x.writeFlg w).ck = x.ck := rfl
@[simp] theorem Slice.writeFlg_supM (x : Slice) (w : Word) :
    (x.writeFlg w).supM = x.supM := rfl
@[simp] theorem Slice.writeFlg_supA (x : Slice) (w : Word) :
    (x.writeFlg w).supA = x.supA := rfl
@[simp] theorem Slice.writeFlg_supC (x : Slice) (w : Word) :
    (x.writeFlg w).supC = x.supC := rfl
@[simp] theorem Slice.writeFlg_supS (x : Slice) (w : Word) :
    (x.writeFlg w).supS = x.supS := rfl
@[simp] theorem Slice.writeFlg_clock (x : Slice) (w : Word) :
    (x.writeFlg w).clock = x.clock := rfl
@[simp] theorem Slice.writeFlg_retired (x : Slice) (w : Word) :
    (x.writeFlg w).retired = x.retired := rfl
@[simp] theorem Slice.writeFlg_quantum (x : Slice) (w : Word) :
    (x.writeFlg w).quantum = x.quantum := rfl
@[simp] theorem Slice.writeFlg_qlenNow (x : Slice) (w : Word) :
    (x.writeFlg w).qlenNow = x.qlenNow := rfl
@[simp] theorem Slice.writeFlg_qphase (x : Slice) (w : Word) :
    (x.writeFlg w).qphase = x.qphase := rfl
@[simp] theorem Slice.writeFlg_wait (x : Slice) (w : Word) :
    (x.writeFlg w).wait = x.wait := rfl
@[simp] theorem Slice.writeFlg_stop (x : Slice) (w : Word) :
    (x.writeFlg w).stop = x.stop := rfl
@[simp] theorem Slice.writeFlg_arrp (x : Slice) (w : Word) :
    (x.writeFlg w).arrp = x.arrp := rfl
@[simp] theorem Slice.writeFlg_drop (x : Slice) (w : Word) :
    (x.writeFlg w).drop = x.drop := rfl
@[simp] theorem Slice.writeFlg_pend (x : Slice) (w : Word) :
    (x.writeFlg w).pend = x.pend := rfl
@[simp] theorem Slice.writeFlg_q1 (x : Slice) (w : Word) :
    (x.writeFlg w).q1 = x.q1 := rfl
@[simp] theorem Slice.writeFlg_buf (x : Slice) (w : Word) :
    (x.writeFlg w).buf = x.buf := rfl
@[simp] theorem Slice.writeFlg_ts (x : Slice) (w : Word) :
    (x.writeFlg w).ts = x.ts := rfl
@[simp] theorem Slice.commitFlags_num (x : Slice) :
    x.commitFlags.num = x.num := rfl
@[simp] theorem Slice.commitFlags_gnum (x : Slice) :
    x.commitFlags.gnum = x.gnum := rfl
@[simp] theorem Slice.commitFlags_share (x : Slice) :
    x.commitFlags.share = x.share := rfl
@[simp] theorem Slice.commitFlags_part (x : Slice) :
    x.commitFlags.part = x.part := rfl
@[simp] theorem Slice.commitFlags_pos (x : Slice) :
    x.commitFlags.pos = x.pos := rfl
@[simp] theorem Slice.commitFlags_ended (x : Slice) :
    x.commitFlags.ended = x.ended := rfl
@[simp] theorem Slice.commitFlags_gang (x : Slice) :
    x.commitFlags.gang = x.gang := rfl
@[simp] theorem Slice.commitFlags_pc (x : Slice) :
    x.commitFlags.pc = x.pc := rfl
@[simp] theorem Slice.commitFlags_hdr (x : Slice) :
    x.commitFlags.hdr = x.hdr := rfl
@[simp] theorem Slice.commitFlags_hword (x : Slice) :
    x.commitFlags.hword = x.hword := rfl
@[simp] theorem Slice.commitFlags_atRep (x : Slice) :
    x.commitFlags.atRep = x.atRep := rfl
@[simp] theorem Slice.commitFlags_am (x : Slice) :
    x.commitFlags.am = x.am := rfl
@[simp] theorem Slice.commitFlags_xm (x : Slice) :
    x.commitFlags.xm = x.xm := rfl
@[simp] theorem Slice.commitFlags_rs (x : Slice) :
    x.commitFlags.rs = x.rs := rfl
@[simp] theorem Slice.commitFlags_lp (x : Slice) :
    x.commitFlags.lp = x.lp := rfl
@[simp] theorem Slice.commitFlags_order (x : Slice) :
    x.commitFlags.order = x.order := rfl
@[simp] theorem Slice.commitFlags_v (x : Slice) :
    x.commitFlags.v = x.v := rfl
@[simp] theorem Slice.commitFlags_s (x : Slice) :
    x.commitFlags.s = x.s := rfl
@[simp] theorem Slice.commitFlags_p (x : Slice) :
    x.commitFlags.p = x.p := rfl
@[simp] theorem Slice.commitFlags_fmt (x : Slice) :
    x.commitFlags.fmt = x.fmt := rfl
@[simp] theorem Slice.commitFlags_flg (x : Slice) :
    x.commitFlags.flg = x.flg ||| x.shadow := rfl
@[simp] theorem Slice.commitFlags_shadow (x : Slice) :
    x.commitFlags.shadow = 0 := rfl
@[simp] theorem Slice.commitFlags_qlen (x : Slice) :
    x.commitFlags.qlen = x.qlen := rfl
@[simp] theorem Slice.commitFlags_trapvec (x : Slice) :
    x.commitFlags.trapvec = x.trapvec := rfl
@[simp] theorem Slice.commitFlags_trapcause (x : Slice) :
    x.commitFlags.trapcause = x.trapcause := rfl
@[simp] theorem Slice.commitFlags_trapaddr (x : Slice) :
    x.commitFlags.trapaddr = x.trapaddr := rfl
@[simp] theorem Slice.commitFlags_trapregion (x : Slice) :
    x.commitFlags.trapregion = x.trapregion := rfl
@[simp] theorem Slice.commitFlags_handling (x : Slice) :
    x.commitFlags.handling = x.handling := rfl
@[simp] theorem Slice.commitFlags_trapLen (x : Slice) :
    x.commitFlags.trapLen = x.trapLen := rfl
@[simp] theorem Slice.commitFlags_rcnt (x : Slice) :
    x.commitFlags.rcnt = x.rcnt := rfl
@[simp] theorem Slice.commitFlags_ck (x : Slice) :
    x.commitFlags.ck = x.ck := rfl
@[simp] theorem Slice.commitFlags_supM (x : Slice) :
    x.commitFlags.supM = x.supM := rfl
@[simp] theorem Slice.commitFlags_supA (x : Slice) :
    x.commitFlags.supA = x.supA := rfl
@[simp] theorem Slice.commitFlags_supC (x : Slice) :
    x.commitFlags.supC = x.supC := rfl
@[simp] theorem Slice.commitFlags_supS (x : Slice) :
    x.commitFlags.supS = x.supS := rfl
@[simp] theorem Slice.commitFlags_clock (x : Slice) :
    x.commitFlags.clock = x.clock := rfl
@[simp] theorem Slice.commitFlags_retired (x : Slice) :
    x.commitFlags.retired = x.retired := rfl
@[simp] theorem Slice.commitFlags_quantum (x : Slice) :
    x.commitFlags.quantum = x.quantum := rfl
@[simp] theorem Slice.commitFlags_qlenNow (x : Slice) :
    x.commitFlags.qlenNow = x.qlenNow := rfl
@[simp] theorem Slice.commitFlags_qphase (x : Slice) :
    x.commitFlags.qphase = x.qphase := rfl
@[simp] theorem Slice.commitFlags_wait (x : Slice) :
    x.commitFlags.wait = x.wait := rfl
@[simp] theorem Slice.commitFlags_stop (x : Slice) :
    x.commitFlags.stop = x.stop := rfl
@[simp] theorem Slice.commitFlags_arrp (x : Slice) :
    x.commitFlags.arrp = x.arrp := rfl
@[simp] theorem Slice.commitFlags_drop (x : Slice) :
    x.commitFlags.drop = x.drop := rfl
@[simp] theorem Slice.commitFlags_pend (x : Slice) :
    x.commitFlags.pend = x.pend := rfl
@[simp] theorem Slice.commitFlags_q1 (x : Slice) :
    x.commitFlags.q1 = x.q1 := rfl
@[simp] theorem Slice.commitFlags_buf (x : Slice) :
    x.commitFlags.buf = x.buf := rfl
@[simp] theorem Slice.commitFlags_ts (x : Slice) :
    x.commitFlags.ts = x.ts := rfl
@[simp] theorem Slice.tick_num (x : Slice) :
    x.tick.num = x.num := rfl
@[simp] theorem Slice.tick_gnum (x : Slice) :
    x.tick.gnum = x.gnum := rfl
@[simp] theorem Slice.tick_share (x : Slice) :
    x.tick.share = x.share := rfl
@[simp] theorem Slice.tick_part (x : Slice) :
    x.tick.part = x.part := rfl
@[simp] theorem Slice.tick_pos (x : Slice) :
    x.tick.pos = x.pos := rfl
@[simp] theorem Slice.tick_ended (x : Slice) :
    x.tick.ended = x.ended := rfl
@[simp] theorem Slice.tick_gang (x : Slice) :
    x.tick.gang = x.gang := rfl
@[simp] theorem Slice.tick_pc (x : Slice) :
    x.tick.pc = x.pc := rfl
@[simp] theorem Slice.tick_hdr (x : Slice) :
    x.tick.hdr = x.hdr := rfl
@[simp] theorem Slice.tick_hword (x : Slice) :
    x.tick.hword = x.hword := rfl
@[simp] theorem Slice.tick_atRep (x : Slice) :
    x.tick.atRep = x.atRep := rfl
@[simp] theorem Slice.tick_am (x : Slice) :
    x.tick.am = x.am := rfl
@[simp] theorem Slice.tick_xm (x : Slice) :
    x.tick.xm = x.xm := rfl
@[simp] theorem Slice.tick_rs (x : Slice) :
    x.tick.rs = x.rs := rfl
@[simp] theorem Slice.tick_lp (x : Slice) :
    x.tick.lp = x.lp := rfl
@[simp] theorem Slice.tick_order (x : Slice) :
    x.tick.order = x.order := rfl
@[simp] theorem Slice.tick_v (x : Slice) :
    x.tick.v = x.v := rfl
@[simp] theorem Slice.tick_s (x : Slice) :
    x.tick.s = x.s := rfl
@[simp] theorem Slice.tick_p (x : Slice) :
    x.tick.p = x.p := rfl
@[simp] theorem Slice.tick_fmt (x : Slice) :
    x.tick.fmt = x.fmt := rfl
@[simp] theorem Slice.tick_flg (x : Slice) :
    x.tick.flg = x.flg := rfl
@[simp] theorem Slice.tick_shadow (x : Slice) :
    x.tick.shadow = x.shadow := rfl
@[simp] theorem Slice.tick_qlen (x : Slice) :
    x.tick.qlen = x.qlen := rfl
@[simp] theorem Slice.tick_trapvec (x : Slice) :
    x.tick.trapvec = x.trapvec := rfl
@[simp] theorem Slice.tick_trapcause (x : Slice) :
    x.tick.trapcause = x.trapcause := rfl
@[simp] theorem Slice.tick_trapaddr (x : Slice) :
    x.tick.trapaddr = x.trapaddr := rfl
@[simp] theorem Slice.tick_trapregion (x : Slice) :
    x.tick.trapregion = x.trapregion := rfl
@[simp] theorem Slice.tick_handling (x : Slice) :
    x.tick.handling = x.handling := rfl
@[simp] theorem Slice.tick_trapLen (x : Slice) :
    x.tick.trapLen = x.trapLen := rfl
@[simp] theorem Slice.tick_rcnt (x : Slice) :
    x.tick.rcnt = x.rcnt := rfl
@[simp] theorem Slice.tick_ck (x : Slice) :
    x.tick.ck = x.ck := rfl
@[simp] theorem Slice.tick_supM (x : Slice) :
    x.tick.supM = x.supM := rfl
@[simp] theorem Slice.tick_supA (x : Slice) :
    x.tick.supA = x.supA := rfl
@[simp] theorem Slice.tick_supC (x : Slice) :
    x.tick.supC = x.supC := rfl
@[simp] theorem Slice.tick_supS (x : Slice) :
    x.tick.supS = x.supS := rfl
@[simp] theorem Slice.tick_clock (x : Slice) :
    x.tick.clock = x.clock + 1 := rfl
@[simp] theorem Slice.tick_retired (x : Slice) :
    x.tick.retired = x.retired + 1 := rfl
@[simp] theorem Slice.tick_quantum (x : Slice) :
    x.tick.quantum = x.quantum + 1 := rfl
@[simp] theorem Slice.tick_qlenNow (x : Slice) :
    x.tick.qlenNow = x.qlenNow := rfl
@[simp] theorem Slice.tick_qphase (x : Slice) :
    x.tick.qphase = x.qphase := rfl
@[simp] theorem Slice.tick_wait (x : Slice) :
    x.tick.wait = x.wait := rfl
@[simp] theorem Slice.tick_stop (x : Slice) :
    x.tick.stop = x.stop := rfl
@[simp] theorem Slice.tick_arrp (x : Slice) :
    x.tick.arrp = x.arrp := rfl
@[simp] theorem Slice.tick_drop (x : Slice) :
    x.tick.drop = x.drop := rfl
@[simp] theorem Slice.tick_pend (x : Slice) :
    x.tick.pend = x.pend := rfl
@[simp] theorem Slice.tick_q1 (x : Slice) :
    x.tick.q1 = x.q1 := rfl
@[simp] theorem Slice.tick_buf (x : Slice) :
    x.tick.buf = x.buf := rfl
@[simp] theorem Slice.tick_ts (x : Slice) :
    x.tick.ts = x.ts := rfl
@[simp] theorem Slice.passed_num (x : Slice) (n : Nat) :
    (x.passed n).num = x.num := rfl
@[simp] theorem Slice.passed_gnum (x : Slice) (n : Nat) :
    (x.passed n).gnum = x.gnum := rfl
@[simp] theorem Slice.passed_share (x : Slice) (n : Nat) :
    (x.passed n).share = x.share := rfl
@[simp] theorem Slice.passed_part (x : Slice) (n : Nat) :
    (x.passed n).part = x.part := rfl
@[simp] theorem Slice.passed_pos (x : Slice) (n : Nat) :
    (x.passed n).pos = x.pos := rfl
@[simp] theorem Slice.passed_ended (x : Slice) (n : Nat) :
    (x.passed n).ended = x.ended := rfl
@[simp] theorem Slice.passed_gang (x : Slice) (n : Nat) :
    (x.passed n).gang = x.gang := rfl
@[simp] theorem Slice.passed_pc (x : Slice) (n : Nat) :
    (x.passed n).pc = VA.plus x.pc n := rfl
@[simp] theorem Slice.passed_hdr (x : Slice) (n : Nat) :
    (x.passed n).hdr = x.hdr := rfl
@[simp] theorem Slice.passed_hword (x : Slice) (n : Nat) :
    (x.passed n).hword = x.hword := rfl
@[simp] theorem Slice.passed_atRep (x : Slice) (n : Nat) :
    (x.passed n).atRep = x.atRep := rfl
@[simp] theorem Slice.passed_am (x : Slice) (n : Nat) :
    (x.passed n).am = x.am := rfl
@[simp] theorem Slice.passed_xm (x : Slice) (n : Nat) :
    (x.passed n).xm = x.xm := rfl
@[simp] theorem Slice.passed_rs (x : Slice) (n : Nat) :
    (x.passed n).rs = x.rs := rfl
@[simp] theorem Slice.passed_lp (x : Slice) (n : Nat) :
    (x.passed n).lp = x.lp := rfl
@[simp] theorem Slice.passed_order (x : Slice) (n : Nat) :
    (x.passed n).order = x.order := rfl
@[simp] theorem Slice.passed_v (x : Slice) (n : Nat) :
    (x.passed n).v = x.v := rfl
@[simp] theorem Slice.passed_s (x : Slice) (n : Nat) :
    (x.passed n).s = x.s := rfl
@[simp] theorem Slice.passed_p (x : Slice) (n : Nat) :
    (x.passed n).p = x.p := rfl
@[simp] theorem Slice.passed_fmt (x : Slice) (n : Nat) :
    (x.passed n).fmt = x.fmt := rfl
@[simp] theorem Slice.passed_flg (x : Slice) (n : Nat) :
    (x.passed n).flg = x.flg := rfl
@[simp] theorem Slice.passed_shadow (x : Slice) (n : Nat) :
    (x.passed n).shadow = x.shadow := rfl
@[simp] theorem Slice.passed_qlen (x : Slice) (n : Nat) :
    (x.passed n).qlen = x.qlen := rfl
@[simp] theorem Slice.passed_trapvec (x : Slice) (n : Nat) :
    (x.passed n).trapvec = x.trapvec := rfl
@[simp] theorem Slice.passed_trapcause (x : Slice) (n : Nat) :
    (x.passed n).trapcause = x.trapcause := rfl
@[simp] theorem Slice.passed_trapaddr (x : Slice) (n : Nat) :
    (x.passed n).trapaddr = x.trapaddr := rfl
@[simp] theorem Slice.passed_trapregion (x : Slice) (n : Nat) :
    (x.passed n).trapregion = x.trapregion := rfl
@[simp] theorem Slice.passed_handling (x : Slice) (n : Nat) :
    (x.passed n).handling = x.handling := rfl
@[simp] theorem Slice.passed_trapLen (x : Slice) (n : Nat) :
    (x.passed n).trapLen = x.trapLen := rfl
@[simp] theorem Slice.passed_rcnt (x : Slice) (n : Nat) :
    (x.passed n).rcnt = x.rcnt := rfl
@[simp] theorem Slice.passed_ck (x : Slice) (n : Nat) :
    (x.passed n).ck = x.ck := rfl
@[simp] theorem Slice.passed_supM (x : Slice) (n : Nat) :
    (x.passed n).supM = x.supM := rfl
@[simp] theorem Slice.passed_supA (x : Slice) (n : Nat) :
    (x.passed n).supA = x.supA := rfl
@[simp] theorem Slice.passed_supC (x : Slice) (n : Nat) :
    (x.passed n).supC = x.supC := rfl
@[simp] theorem Slice.passed_supS (x : Slice) (n : Nat) :
    (x.passed n).supS = x.supS := rfl
@[simp] theorem Slice.passed_clock (x : Slice) (n : Nat) :
    (x.passed n).clock = x.clock + 1 := rfl
@[simp] theorem Slice.passed_retired (x : Slice) (n : Nat) :
    (x.passed n).retired = x.retired + 1 := rfl
@[simp] theorem Slice.passed_quantum (x : Slice) (n : Nat) :
    (x.passed n).quantum = x.quantum + 1 := rfl
@[simp] theorem Slice.passed_qlenNow (x : Slice) (n : Nat) :
    (x.passed n).qlenNow = x.qlenNow := rfl
@[simp] theorem Slice.passed_qphase (x : Slice) (n : Nat) :
    (x.passed n).qphase = x.qphase := rfl
@[simp] theorem Slice.passed_wait (x : Slice) (n : Nat) :
    (x.passed n).wait = .none := rfl
@[simp] theorem Slice.passed_stop (x : Slice) (n : Nat) :
    (x.passed n).stop = x.stop := rfl
@[simp] theorem Slice.passed_arrp (x : Slice) (n : Nat) :
    (x.passed n).arrp = x.arrp := rfl
@[simp] theorem Slice.passed_drop (x : Slice) (n : Nat) :
    (x.passed n).drop = x.drop := rfl
@[simp] theorem Slice.passed_pend (x : Slice) (n : Nat) :
    (x.passed n).pend = x.pend := rfl
@[simp] theorem Slice.passed_q1 (x : Slice) (n : Nat) :
    (x.passed n).q1 = x.q1 := rfl
@[simp] theorem Slice.passed_buf (x : Slice) (n : Nat) :
    (x.passed n).buf = x.buf := rfl
@[simp] theorem Slice.passed_ts (x : Slice) (n : Nat) :
    (x.passed n).ts = x.ts := rfl
@[simp] theorem Block.modSlice_uid (b : Block) (n : Nat) (f : Slice → Slice) :
    (b.modSlice n f).uid = b.uid := rfl
@[simp] theorem Block.modSlice_launch (b : Block) (n : Nat) (f : Slice → Slice) :
    (b.modSlice n f).launch = b.launch := rfl
@[simp] theorem Block.modSlice_num (b : Block) (n : Nat) (f : Slice → Slice) :
    (b.modSlice n f).num = b.num := rfl
@[simp] theorem Block.modSlice_unit (b : Block) (n : Nat) (f : Slice → Slice) :
    (b.modSlice n f).unit = b.unit := rfl
@[simp] theorem Block.modSlice_round (b : Block) (n : Nat) (f : Slice → Slice) :
    (b.modSlice n f).round = b.round := rfl
@[simp] theorem Block.modSlice_slices (b : Block) (n : Nat) (f : Slice → Slice) :
    (b.modSlice n f).slices = b.slices.map fun x => if x.num == n then f x else x := rfl
@[simp] theorem Block.modSlice_shares (b : Block) (n : Nat) (f : Slice → Slice) :
    (b.modSlice n f).shares = b.shares := rfl
@[simp] theorem Block.modSlice_noFlush (b : Block) (n : Nat) (f : Slice → Slice) :
    (b.modSlice n f).noFlush = b.noFlush := rfl
@[simp] theorem Block.modShare_uid (b : Block) (n : Nat) (f : Share → Share) :
    (b.modShare n f).uid = b.uid := rfl
@[simp] theorem Block.modShare_launch (b : Block) (n : Nat) (f : Share → Share) :
    (b.modShare n f).launch = b.launch := rfl
@[simp] theorem Block.modShare_num (b : Block) (n : Nat) (f : Share → Share) :
    (b.modShare n f).num = b.num := rfl
@[simp] theorem Block.modShare_unit (b : Block) (n : Nat) (f : Share → Share) :
    (b.modShare n f).unit = b.unit := rfl
@[simp] theorem Block.modShare_round (b : Block) (n : Nat) (f : Share → Share) :
    (b.modShare n f).round = b.round := rfl
@[simp] theorem Block.modShare_slices (b : Block) (n : Nat) (f : Share → Share) :
    (b.modShare n f).slices = b.slices := rfl
@[simp] theorem Block.modShare_shares (b : Block) (n : Nat) (f : Share → Share) :
    (b.modShare n f).shares = b.shares.modify n f := rfl
@[simp] theorem Block.modShare_noFlush (b : Block) (n : Nat) (f : Share → Share) :
    (b.modShare n f).noFlush = b.noFlush := rfl
@[simp] theorem Block.putSlices_uid (b : Block) (l : List Slice) :
    (b.putSlices l).uid = b.uid := rfl
@[simp] theorem Block.putSlices_launch (b : Block) (l : List Slice) :
    (b.putSlices l).launch = b.launch := rfl
@[simp] theorem Block.putSlices_num (b : Block) (l : List Slice) :
    (b.putSlices l).num = b.num := rfl
@[simp] theorem Block.putSlices_unit (b : Block) (l : List Slice) :
    (b.putSlices l).unit = b.unit := rfl
@[simp] theorem Block.putSlices_round (b : Block) (l : List Slice) :
    (b.putSlices l).round = b.round := rfl
@[simp] theorem Block.putSlices_shares (b : Block) (l : List Slice) :
    (b.putSlices l).shares = b.shares := rfl
@[simp] theorem Block.putSlices_noFlush (b : Block) (l : List Slice) :
    (b.putSlices l).noFlush = b.noFlush := rfl
@[simp] theorem Memory.hold_ram (m : Memory) (h : HeldByte) :
    (m.hold h).ram = m.ram := rfl
@[simp] theorem Memory.hold_bank (m : Memory) (h : HeldByte) :
    (m.hold h).bank = m.bank := rfl
@[simp] theorem Memory.hold_lines (m : Memory) (h : HeldByte) :
    (m.hold h).lines = m.lines := rfl
@[simp] theorem Memory.hold_times (m : Memory) (h : HeldByte) :
    (m.hold h).times = m.times := rfl
@[simp] theorem Memory.hold_tlb (m : Memory) (h : HeldByte) :
    (m.hold h).tlb = m.tlb := rfl
@[simp] theorem Memory.hold_poison (m : Memory) (h : HeldByte) :
    (m.hold h).poison = m.poison := rfl
@[simp] theorem Memory.hold_frozen (m : Memory) (h : HeldByte) :
    (m.hold h).frozen = m.frozen := rfl
@[simp] theorem Memory.setLine_ram (m : Memory) (x : Line) :
    (m.setLine x).ram = m.ram := rfl
@[simp] theorem Memory.setLine_bank (m : Memory) (x : Line) :
    (m.setLine x).bank = m.bank := rfl
@[simp] theorem Memory.setLine_times (m : Memory) (x : Line) :
    (m.setLine x).times = m.times := rfl
@[simp] theorem Memory.setLine_held (m : Memory) (x : Line) :
    (m.setLine x).held = m.held := rfl
@[simp] theorem Memory.setLine_tlb (m : Memory) (x : Line) :
    (m.setLine x).tlb = m.tlb := rfl
@[simp] theorem Memory.setLine_poison (m : Memory) (x : Line) :
    (m.setLine x).poison = m.poison := rfl
@[simp] theorem Memory.setLine_frozen (m : Memory) (x : Line) :
    (m.setLine x).frozen = m.frozen := rfl
@[simp] theorem Memory.through_lines (m : Memory) (k : Nat) (x : Byte) :
    (m.through k x).lines = m.lines := rfl
@[simp] theorem Memory.through_times (m : Memory) (k : Nat) (x : Byte) :
    (m.through k x).times = m.times := rfl
@[simp] theorem Memory.through_tlb (m : Memory) (k : Nat) (x : Byte) :
    (m.through k x).tlb = m.tlb := rfl
@[simp] theorem Memory.through_frozen (m : Memory) (k : Nat) (x : Byte) :
    (m.through k x).frozen = m.frozen := rfl

end Sys2Proof.Machine
end

