-- ==== Sys2Proof/Tests/Slice0.lean ====
section
/-! SUPPORT. Tests: words of the spec's encodings decode to what they stand for, ill-formed words are refused check by check,
single steps, and a witness for the hypotheses of every statement. -/

set_option Elab.async false

namespace Sys2Proof.Tests

open Sys2Proof Sys2Proof.Machine

/-! ## Decoding: words built field by field from R27 and R44 to R53 -/

/-- A word from its fields (R27): OPC, TY, MOD, PG, D, A, B, C, SUB. -/
def word (opc ty mod pg d a b c sub : Nat) : Nat :=
  opc * 2 ^ 57 + ty * 2 ^ 53 + mod * 2 ^ 49 + pg * 2 ^ 45 + d * 2 ^ 36 + a * 2 ^ 27 + b * 2 ^ 18 + c * 2 ^ 9 + sub

/-- The guard p0. -/
def g : Guard := ⟨false, 0⟩

/-- A word is read as an instruction. -/
def reads (w : Nat) (i : Instr) : Bool := decodeTableWord 64 w == some i

theorem test_decode_control :
    (reads (word 0 0 0 0 0x1FF 0x1FF 0x1FF 0x1FF 0) (.nop g) &&
    reads (word 1 0 0 0 0x1FF 0 0 5 0) (.bra g 5) &&
    reads (word 2 0 2 0 0x143 0x1FF 0x1FF 0x1FD 0) (.brp g .all 3 (-3)) &&
    reads (word 3 0 0 0 0x1FF 0x107 0x1FF 0x1FF 0) (.brx g (.s 7)) &&
    reads (word 4 0 0 0 0x103 0 0 9 0) (.call g (.s 3) 9) &&
    reads (word 5 0 0 0 0x1FF 0x103 0x1FF 0x1FF 0) (.ret g (.s 3)) &&
    reads (word 6 0 3 0 0x1FF 0x108 1 2 0) (.loop g 3 (.s 8) 514) &&
    reads (word 7 0 2 0 0x1FF 0x1FF 0x1FF 0x1FF 0) (.lbrk g 2) &&
    reads (word 8 0 0 0 0x1FF 0x1FF 0x1FF 0x1FF 0) (.regang g) &&
    reads (word 9 0 0 0 0x1FF 0x1FF 0x1FF 0x1FF 0) (.yield g) &&
    reads (word 0xA 0 0 0 0x1FF 0x1FF 0x1FF 0x1FF 0) (.exit g) &&
    reads (word 0xB 0 0 0 0x142 0x141 0x1FF 0x1FF 2) (.vote g .all (.p 2) (.p 1))) = true := by decide +kernel

theorem test_decode_integer :
    (reads (word 0x10 5 1 0 1 2 3 0x1FF 1) (.iadd g .i32 true .diff (.v 1) (.v 2) (.v 3) .none) &&
    reads (word 0x11 6 0 0 1 2 3 0x1FF 1) (.imul g .n32 false .hi (.v 1) (.v 2) (.v 3)) &&
    reads (word 0x12 6 0 0 1 2 3 4 0) (.imad g .n32 false .low (.v 1) (.v 2) (.v 3) (.v 4)) &&
    reads (word 0x13 1 0 0 1 2 3 0x1FF 2) (.iminmax g .i8 .max (.v 1) (.v 2) (.v 3)) &&
    reads (word 0x14 0xC 0 0 1 2 3 4 0x96) (.logic g .b32 0x96 (.v 1) (.v 2) (.v 3) (.v 4)) &&
    reads (word 0x15 0xC 0 0 1 2 3 4 6) (.shift g .b32 .fshl (.v 1) (.v 2) (.v 3) (.v 4)) &&
    reads (word 0x16 0xC 0 0 1 2 0x1FF 0x1FF 2) (.bits g .b32 .clz (.v 1) (.v 2)) &&
    reads (word 0x17 5 0 0 1 2 0x1FF 4 1) (.bfx g .i32 .ext (.v 1) (.v 2) .none (.v 4)) &&
    reads (word 0x18 8 4 0 0x141 2 4 0x1FF 0) (.icmp g .n64 .gt (.p 1) (.v 2) (.v 4)) &&
    reads (word 0x19 0xC 0 0 1 2 3 0x142 0) (.sel g .b32 (.v 1) (.v 2) (.v 3) (.p 2)) &&
    reads (word 0x1A 0xC 0 0 0x101 0x1A5 0x1FF 0x1FF 0) (.mov g .b32 (.s 1) (.ident 5)) &&
    reads (word 0x1A 0 0 0 0x191 0x104 0x1FF 0x1FF 0) (.mov g .none .flg (.s 4)) &&
    reads (word 0x1B 8 0 0 2 4 6 0x1FF 3) (.lea g .m8 (.v 2) (.v 4) (.v 6) .none)) = true := by decide +kernel

theorem test_decode_lane :
    (reads (word 0x1C 6 0 0 1 2 3 0x1FF 1) (.hashCrc32c g .n32 (.v 1) (.v 2) (.v 3)) &&
    reads (word 0x1C 8 0 0 2 4 6 0x1FF 2) (.hashMix64 g .n64 (.v 2) (.v 4) (.v 6)) &&
    reads (word 0x1D 6 0 0 1 2 0x1FF 4 1) (.partRadix g .n32 (.v 1) (.v 2) (.v 4)) &&
    reads (word 0x1D 9 0 0 1 2 0x103 0x104 2) (.partRange g .f32 (.v 1) (.v 2) (.s 3) (.s 4)) &&
    reads (word 0x1E 6 1 0 1 2 0x1FF 0x1FF 0x10) (.lane g .n32 true .redadd (.v 1) (.v 2) .none) &&
    reads (word 0x1F 0 0 0 0x141 0x142 0x143 0x1FF 3) (.pred g .pxor (.p 1) (.p 2) (.p 3))) = true := by decide +kernel

theorem test_decode_float :
    (reads (word 0x20 9 3 0 1 2 3 0x1FF 1) (.fadd g .f32 .rdn true (.v 1) (.v 2) (.v 3)) &&
    reads (word 0x21 0xA 1 0 1 2 3 0x1FF 0) (.fmul g .f16 .rtz (.v 1) (.v 2) (.v 3)) &&
    reads (word 0x22 0xB 0 0 1 2 3 4 3) (.ffma g .bf16 .rne .nms (.v 1) (.v 2) (.v 3) (.v 4)) &&
    reads (word 0x23 9 0 0 1 2 3 0x1FF 4) (.fminmax g .f32 .maxnum (.v 1) (.v 2) (.v 3)) &&
    reads (word 0x24 9 7 0 0x141 2 3 0x1FF 0) (.fcmp g .f32 .uno (.p 1) (.v 2) (.v 3)) &&
    reads (word 0x25 9 0 0 1 2 0x1FF 0x1FF 0) (.fclass g .f32 (.v 1) (.v 2)) &&
    reads (word 0x26 9 0 0 1 2 0x1FF 0x1FF 2) (.fapx g .f32 .rsq (.v 1) (.v 2)) &&
    reads (word 0x27 5 2 0 1 2 0x1FF 0x1FF 9) (.fcvt g .i32 .rup .f32 (.v 1) (.v 2)) &&
    reads (word 0x28 9 0 0 4 0 1 0x1FF 0) (.fadd2 g .f32 (.v 4) (.v 0) (.v 1)) &&
    reads (word 0x29 9 0 0 4 0 1 0x1FF 0) (.fmul2 g .f32 (.v 4) (.v 0) (.v 1)) &&
    reads (word 0x2A 9 0 0 4 0 1 2 0) (.ffma3 g .f32 (.v 4) (.v 0) (.v 1) (.v 2))) = true := by decide +kernel

theorem test_decode_expansion :
    (reads (word 0x30 9 0 0 4 8 0xC 0x1FF 9) (.xadd g .f32 .w3 .w4 .w2 (.v 4) (.v 8) (.v 12)) &&
    reads (word 0x31 9 0 0 4 8 0xC 0x1FF 5) (.xadds g .f32 .w3 .w3 (.v 4) (.v 8) (.v 12)) &&
    reads (word 0x32 9 0 0 4 8 0xC 0x1FF 0) (.xmuls g .f32 .w2 .w2 (.v 4) (.v 8) (.v 12)) &&
    reads (word 0x33 9 0 0 4 8 0x1FF 0x1FF 9) (.xrenorm g .f32 .w3 .w4 (.v 4) (.v 8)) &&
    reads (word 0x34 9 0 0 4 8 0x1FF 0x1FF 8) (.xcomp g .f32 .w4 (.v 4) (.v 8)) &&
    reads (word 0x35 9 2 0 0x141 4 8 0x1FF 0x14) (.xcmp g .f32 .lt .w3 .w3 (.p 1) (.v 4) (.v 8)) &&
    reads (word 0x36 9 0 0 4 8 0x1FF 0x1FF 0xA0) (.xcvt g .f32 .w2 .w2 .f16 (.v 4) (.v 8))) = true := by decide +kernel

theorem test_decode_narrow :
    (reads (word 0x38 0 0 0 0x190 0x104 0x1FF 0x1FF 0) (.setfmt g (.s 4)) &&
    reads (word 0x39 0 0 0 0x104 0x190 0x1FF 0x1FF 0) (.getfmt g (.s 4)) &&
    reads (word 0x3A 2 0 0 4 8 0x1FF 0x1FF 9) (.qcvt g .e4m3 .f32 (.v 4) (.v 8)) &&
    reads (word 0x3B 5 0 0 8 4 0x1FF 0x1FF 0xA) (.qdec g .e2m1 .f16 (.v 8) (.v 4)) &&
    reads (word 0x3C 5 0 0 2 0 0x1D5 0x1FF 0) (.renc g .e2m1 (.v 2) (.v 0) (.small 21)) &&
    reads (word 0x3E 6 0 0 3 0 1 2 0) (.rmac g .i8 (.v 3) (.v 0) (.v 1) (.v 2)) &&
    reads (word 0x3D 0 0 0 4 8 9 0x1FF 9) (.rdec g .f32 (.v 4) (.v 8) (.v 9)) &&
    reads (word 0x3F 1 0 0 4 8 0x1FF 0x1FF 4) (.spack g .e5m2 .nz4 (.v 4) (.v 8))) = true := by decide +kernel

theorem test_decode_memory :
    (reads (word 0x40 9 2 0 3 0x104 1 0x1FF 1) (.ld g .f32 (.lvl 2) .sync (.v 3) (.s 4) (.v 1) .none) &&
    reads (word 0x41 6 8 0 0x1FF 0x104 1 3 0) (.st g .n32 .pkg .plain (.s 4) (.v 1) (.v 3)) &&
    reads (word 0x42 1 0 0 3 0x104 1 0x1FF 0) (.lds g .i8 (.v 3) (.s 4) (.v 1)) &&
    reads (word 0x43 2 0 0 0x1FF 0x104 1 3 0) (.sts g .n8 (.s 4) (.v 1) (.v 3)) &&
    reads (word 0x44 0xC 0xA 0 4 0x104 0x1FF 0x1FF 2) (.ldw g .b32 .sys true (.v 4) (.s 4) .none .none) &&
    reads (word 0x45 0xC 9 0 0x1FF 0x104 0x1FF 4 1) (.stw g .b32 .fab false (.s 4) .none (.v 4)) &&
    reads (word 0x46 9 0 0 0x1FF 0x104 1 2 0) (.stsplit g .f32 (.lvl 0) (.s 4) (.v 1) (.v 2)) &&
    reads (word 0x47 9 0 0 2 0x104 1 0x1FF 0) (.ldsplit g .f32 (.lvl 0) (.v 2) (.s 4) (.v 1)) &&
    reads (word 0x48 0 0 0 0x1FF 0x104 1 0x1FF 2) (.pref g .inl2 (.s 4) (.v 1)) &&
    reads (word 0x49 0 1 0 0x1FF 0x104 0x105 0x1FF 3) (.cmaint g (.lvl 1) .clinv (.s 4) (.s 5)) &&
    reads (word 0x4A 0 0 0 0x1FF 0x104 0x1FF 0x1FF 5) (.waitp g 5 (.s 4)) &&
    reads (word 0x4B 0 0 0 0x102 0x104 0x1FF 0x1FF 0) (.xlat g (.s 2) (.s 4))) = true := by decide +kernel

theorem test_decode_synchronisation :
    (reads (word 0x50 0 8 0 0x1FF 0x1FF 0x1FF 0x1FF 2) (.fence g .pkg .rel) &&
    reads (word 0x51 0 3 0 0x1FF 0x1FF 0x1FF 0x1FF 0) (.bar g 3) &&
    reads (word 0x51 0 3 0 0x1FF 0x1FF 0x1FF 0x1FF 1) (.barArrive g 3) &&
    reads (word 0x51 0 3 0 0x1FF 0x1FF 0x1FF 0x1FF 2) (.barWait g 3) &&
    reads (word 0x51 0 0 0 0x1FF 0x1FF 0x1FF 0x1FF 3) (.barArrivedrop g 0) &&
    reads (word 0x52 0 0 0 0x1FF 0x199 0x104 0x1FF 0) (.tlwait g 1 (.s 4)) &&
    reads (word 0x53 0 0 0 0x104 0x19A 0x1FF 0x1FF 0) (.tlread g 2 (.s 4) .none) &&
    reads (word 0x54 0 0 0 0x1FF 0x1FF 0x1FF 0x1FF 0) (.qend g) &&
    reads (word 0x55 0 0 0 0x1FF 0x1FF 0x1FF 0x1FF 0) (.dsync g)) = true := by decide +kernel

theorem test_decode_atomic :
    (reads (word 0x58 6 7 0 1 2 4 6 8) (.atom g .n32 .cas .pkg (.v 1) (.v 2) (.v 4) (.v 6)) &&
    reads (word 0x5C 9 0 0 0x1FF 2 4 0x1FF 0xA) (.redm g .f32 .add .sys (.v 2) (.v 4)) &&
    reads (word 0x59 9 0 0 4 0x104 1 0x1FF 8) (.atomc g .pkg (.v 4) (.s 4) (.v 1)) &&
    reads (word 0x5A 0xC 1 0 8 2 0x10 0x18 3) (.atomw g .b32 .w2 (.lvl 3) (.v 8) (.v 2) (.v 16) (.v 24)) &&
    reads (word 0x5B 6 0 0 1 0x104 2 0x1FF 0) (.append g (.v 1) (.s 4) (.v 2)) &&
    reads (word 0x5D 0xD 0 0 0x104 0x106 0x108 0x1FF 0) (.skopEnq g (.s 4) (.s 6) (.s 8)) &&
    reads (word 0x5D 0xD 1 0 0x104 0x106 0x108 0x10A 0) (.skopChase g (.s 4) (.s 6) (.s 8) (.s 10))) = true := by decide +kernel

theorem test_decode_matrix :
    (reads (word 0x60 0 0 0 0x153 0x1FF 0x1FF 0x1FF 0) (.mzero g (.acc 3)) &&
    reads (word 0x61 0 0 0 0x102 0x154 0x104 0x1FF 1) (.memit g true (.s 2) (.acc 4) (.s 4) .none) &&
    reads (word 0x62 0 0 0 0x1FF 0x153 0x104 0x1FF 0) (.msave g (.acc 3) (.s 4)) &&
    reads (word 0x63 0 0 0 0x153 0x104 0x1FF 0x1FF 0) (.mload g (.acc 3) (.s 4)) &&
    reads (word 0x64 0 0 0 0x1FF 0x1D3 0x154 0x1D8 1) (.mbobjInit g (.small 19) (.acc 4) (.small 24)) &&
    reads (word 0x64 0 0 0 0x1FF 0x104 0x106 0x1FF 2) (.mbobjArrive g (.s 4) (.s 6)) &&
    reads (word 0x64 0 0 0 0x1FF 0x104 0x106 0x1FF 3) (.mbobjWait g (.s 4) (.s 6))) = true := by decide +kernel

theorem test_decode_asynchronous :
    (reads (word 0x68 0 0 0 0x104 0x106 0x108 0x10A 0) (.cpy g (.s 4) (.s 6) (.s 8) (.s 10)) &&
    reads (word 0x69 2 0 0 0x104 0x106 0x1FF 0x1FF 1) (.cpyt g .n8 true (.s 4) (.s 6)) &&
    reads (word 0x6A 0 0 0 0x104 0x106 0x1FF 0x1FF 0) (.cbook g (.s 4) (.s 6)) &&
    reads (word 0x6B 0 0 0 0x104 0x106 0x108 0x1FF 0) (.qpost g (.s 4) (.s 6) (.s 8)) &&
    reads (word 0x6B 0 0 0 0x148 0x108 0x1FF 0x1FF 0) (.qpostTask g (.s 8)) &&
    reads (word 0x6C 0 0 0 0x1FF 0x108 0x1FF 0x1FF 0) (.mred g (.s 8)) &&
    reads (word 0x6D 9 0 0 0x1FF 0x108 0x1FF 0x1FF 3) (.mcmp g .f32 .rne .vfma (.s 8))) = true := by decide +kernel

theorem test_decode_span :
    (reads (word 0x70 0 0 0 0x1FF 0x104 0x106 0x1FF 1) (.spanctlCap g (.s 4) (.s 6)) &&
    reads (word 0x70 0 0 0 0x1FF 0x104 0x106 0x1FF 2) (.spanctlPol g (.s 4) (.s 6)) &&
    reads (word 0x70 0 0 0 0x1FF 0x104 0x1FF 0x1FF 3) (.spanctlEvict g (.s 4)) &&
    reads (word 0x71 0 0 0 0x104 0x106 0x1FF 0x1FF 0) (.spanq g (.s 4) (.s 6)) &&
    reads (word 0x72 0 0 0 0x104 0x106 0x108 0x1FF 0) (.spanfet g (.s 4) (.s 6) (.s 8)) &&
    reads (word 0x73 0 0 0 0x104 0x106 0x108 0x1FF 1) (.salloc g true (.s 4) (.s 6) (.s 8)) &&
    reads (word 0x74 0 0 0 0x104 0x106 0x1FF 0x1FF 0) (.sfree g (.s 4) (.s 6))) = true := by decide +kernel

theorem test_decode_collective :
    (reads (word 0x75 0 0 0 0x104 2 4 0x108 1) (.collSend g (.s 4) (.v 2) (.v 4) (.s 8)) &&
    reads (word 0x75 0 0 0 0x104 2 4 0x108 2) (.collGet g (.s 4) (.v 2) (.v 4) (.s 8)) &&
    reads (word 0x75 9 2 0 0x104 2 4 0x108 3) (.collRsend g .f32 .fppair (.s 4) (.v 2) (.v 4) (.s 8)) &&
    reads (word 0x75 0 0 0 0x104 2 4 0x108 4) (.collMcast g (.s 4) (.v 2) (.v 4) (.s 8)) &&
    reads (word 0x76 0 0 0 0x104 0x106 0x1FF 0x1FF 1) (.cinstStart g (.s 4) (.s 6)) &&
    reads (word 0x76 0 0 0 0x104 0x106 0x1FF 0x1FF 2) (.cinstQuery g (.s 4) (.s 6))) = true := by decide +kernel

theorem test_decode_system :
    (reads (word 0x78 0 0 0 0x104 0x106 0x108 0x1FF 0) (.launch g (.s 4) (.s 6) (.s 8)) &&
    reads (word 0x79 0 0 0 0x1FF 0x106 0x108 0x1FF 1) (.evopSet g (.s 6) (.s 8)) &&
    reads (word 0x79 0 0 0 0x1FF 0x106 0x108 0x1FF 2) (.evopClr g (.s 6) (.s 8)) &&
    reads (word 0x79 0 0 0 0x104 0x106 0x108 0x1FF 3) (.evopTest g (.s 4) (.s 6) (.s 8)) &&
    reads (word 0x7A 0 0 0 0x104 0x1FF 0x1FF 0x1FF 0x12) (.sysr g .trapaddr (.s 4)) &&
    reads (word 0x7B 0 0 0 0x1FF 0x104 0x1FF 0x1FF 0x10) (.sysw g .trapvec (.s 4)) &&
    reads (word 0x7C 0 0 0 0x1FF 0x1FF 0x1FF 0x1FF 0x2A) (.trap g 42) &&
    reads (word 0x7D 0 0 0 0x1FF 0x1FF 0x1FF 0x1FF 0) (.eret g) &&
    reads (word 0x7E 0 0 0 0x1FF 0x104 0x1FF 0x1FF 0) (.sleep g (.s 4))) = true := by decide +kernel

/-! ## Ill-formed words and instructions -/

/-- The check of R57 that a word fails. -/
def fails (w : Nat) : Option Nat := match decodeAt 200 8 (BitVec.ofNat 64 w) none with | .error n => some n | .ok _ => none

/-- One word that fails each check of R57 from 3 to 10: an unassigned opcode; a float type of IADD; a MOD that BRP lacks and a pairing
that R42 refuses; a SUB that IADD lacks; PG 0b1000; a predicate for IADD's A and an unused field that is not 0x1FF; an odd pair, a lane
register at LIVE and a tile past the window; two extension words, and one past the block's end. -/
theorem test_checks :
    (fails (word 0x0C 0 0 0 0x1FF 0x1FF 0x1FF 0x1FF 0) == some 3 && fails (word 0x10 9 0 0 1 2 3 0x1FF 0) == some 4 &&
     fails (word 2 0 7 0 0x143 0x1FF 0x1FF 0x1FD 0) == some 5 && fails (word 0x10 5 0 0 1 2 3 0x1FF 0x1F) == some 6 &&
     fails (word 0 0 0 8 0x1FF 0x1FF 0x1FF 0x1FF 0) == some 7 && fails (word 0x10 5 0 0 1 0x141 3 0x1FF 0) == some 8 &&
     fails (word 0x11 6 0 0 1 2 3 4 0) == some 8 && fails (word 0x10 7 0 0 1 2 4 0x1FF 0) == some 9 &&
     fails (word 0x10 5 0 0 1 2 200 0x1FF 0) == some 9 && fails (word 0x60 0 0 0 0x158 0x1FF 0x1FF 0x1FF 0) == some 9 &&
     fails (word 0x10 5 0 0 1 0x1FE 0x1FE 0x1FF 0) == some 10 && fails (word 0x10 5 0 0 1 0x1FE 3 0x1FF 0) == some 10) = true := by decide +kernel

/-- Check 10 on the extension word's upper bits (R32). -/
theorem test_extension :
    ((decodeAt 256 64 (BitVec.ofNat 64 (word 0x10 5 0 0 1 0x1FE 3 0x1FF 0)) (some 0xFFFFFFFF80000000)).isOk &&
     !(decodeAt 256 64 (BitVec.ofNat 64 (word 0x10 5 0 0 1 0x1FE 3 0x1FF 0)) (some 0xFFFFFFFF00000000)).isOk) = true := by decide +kernel

/-- One ill-formed term for each rule of `Instr.own` (check 11), in its order. -/
theorem test_own :
    ([.loop g 0 (.small 15) 1, .iadd g .i32 true .carry (.v 1) (.v 2) (.v 3) .none, .imul g .n64 false .wide (.s 1) (.s 2) (.s 3),
      .imul g .n32 true .hi (.v 1) (.v 2) (.v 3), .imad g .n64 false .wide (.s 1) (.s 2) (.s 3) (.s 4), .imad g .n32 true .hi (.v 1) (.v 2) (.v 3) (.v 4),
      .lane g .f32 false .redand (.v 1) (.v 2) .none, .lane g .b32 false .redadd (.v 1) (.v 2) .none,
      .fcvt g .i32 .rne .i32 (.v 1) (.v 2), .fcvt g .i32 .rne .n64 (.v 1) (.v 2), .fcvt g .f32 .rne .i8 (.v 1) (.v 2),
      .xcvt g .f32 .w2 .w2 .f32 (.v 4) (.v 8), .ldw g .b64 .pkg true (.v 4) (.s 4) .none .none, .stw g .b64 .pkg true (.s 4) .none (.v 4),
      .stsplit g .n32 .pkg (.s 3) (.v 1) (.v 2), .ldsplit g .n32 .pkg (.v 2) (.s 3) (.v 1), .cmaint g .pkg .clean (.s 4) (.small 15),
      .waitp g 0 (.small 15), .tlwait g 1 (.small 15), .tlread g 1 (.s 4) (.small 18), .atom g .f32 .xor .pkg (.v 1) (.v 2) (.v 4) .none,
      .redm g .f32 .and .pkg (.v 2) (.v 4), .atomw g .b64 .w3 .pkg (.v 8) (.v 2) (.v 16) (.v 24), .append g (.v 1) (.s 4) (.small 15),
      .mbobjInit g (.small 24) .none (.small 17), .mbobjInit g (.small 16) .none (.small 16), .mbobjArrive g (.small 15) (.s 4),
      .mbobjWait g (.small 16) (.small 15), .qpostTask g (.s 7), .qpost g (.s 2) (.s 7) (.s 4), .mcmp g .f32 .rne .vadd (.s 7), .mcmp g .i32 .rtz .vadd (.s 8),
      .cpy g (.s 2) (.s 4) (.s 6) (.small 15), .spanfet g (.s 2) (.s 4) (.small 15), .salloc g false (.s 2) (.s 4) (.small 15),
      .collSend g (.s 2) (.v 2) (.v 4) (.s 7), .collGet g (.s 2) (.v 2) (.v 4) (.s 7), .collMcast g (.s 2) (.v 2) (.v 4) (.s 7),
      .collRsend g .f32 .rns (.s 2) (.v 2) (.v 4) (.s 7), .collRsend g .i32 .fppair (.s 2) (.v 2) (.v 4) (.s 8), .cinstQuery g (.s 2) (.small 15),
      .launch g (.s 2) (.s 4) (.small 15), .evopSet g (.small 20) (.s 4), .evopClr g (.small 15) (.s 4), .evopTest g (.s 2) (.small 20) (.s 4),
      .sysw g .trapcause (.s 4), .sleep g (.small 15)].all fun i : Instr => !i.own) = true := by decide +kernel

/-! ## A small state -/

/-- A placed instruction's block, gang and slice, about to issue. -/
def here : State := { State.reset.place 0 with cur := some { block := 2, gang := 3, only := none } }

/-- The state with its slices made f of what they are. -/
def onSlices (s : State) (f : Slice → Slice) : State := s.modBlock 2 fun b => { b with slices := b.slices.map f }

/-- Scalar registers set. -/
def sregs (l : List (Nat × Word)) (x : Slice) : Slice := l.foldl (fun x r => x.ws r.1 r.2) x

/-- A state whose slice has these scalar registers. -/
def withS (l : List (Nat × Word)) : State := onSlices here (sregs l)

/-- Words laid from the one after the block's header. -/
def coded (l : List Word) : State :=
  { here with mem := { here.mem with
      ram := (l.zip (List.range l.length)).foldl (fun r x => Place.put8 r (Place.code + 8 + 8 * x.2) x.1.toNat) here.mem.ram } }

/-- What the hypotheses of a statement on an instruction of n words say of a state. -/
def meets (s : State) (n : Nat) (ok : State → Block → List Slice → Bool) : Bool :=
  match s.issuing with
  | some (b, l) => s.goes n && ok s b l
  | none => false

/-- The same in the parallel phase of a deterministic launch. -/
def meetsDet (s : State) (n : Nat) (ok : State → Block → List Slice → Bool) : Bool :=
  let t := s.modLaunch 1 fun l => { l with rcd := { l.rcd with det := true } }
  match t.issuing with
  | some (b, l) => t.runs n && (t.lrOf b).det && ok t b l
  | none => false

/-- The same for commands that go to an engine. -/
def sends (s : State) (n : Nat) (k : SupKind) (d : Option Nat) (check : State → Block → Slice → Option Ev)
    (args : State → Block → Slice → List Word) (send : LaunchRec → Sender) : Bool :=
  meets s n fun s b l => (gangTrap g (toSend g l) (check s b)).isNone && (cmdLogFull g k d (toSend g l)).isNone && toSend g l != [] &&
    allWent b (toSend g l) (s.sendAll k d (args s b) (send (s.lrOf b)) b.uid (toSend g l))

/-- The same for instructions on tiles. -/
def onTiles (s : State) (tiles : Block → Slice → List Nat) (check : State → Block → Slice → Option Ev) : Bool :=
  meets s 1 fun s b l => (gangTrap g l (check s b)).isNone && (acting g l).all (s.tileReady b (tiles b)) &&
    !(acting g l).any (tileTaken b l (tiles b))

/-! ## Single steps, with the manual's worked values -/

/-- The placed slice after an instruction, its registers set by f. -/
def after (f : Slice → Slice) (i : Instr) : Slice :=
  match exec i (onSlices here f) with
  | .next t => ((t.block? 2).bind fun b => b.slice? 0).getD default
  | _ => default

/-- Lane registers from a number on, the same in every lane. -/
def vregs (r : Nat) (l : List LWord) (x : Slice) : Slice :=
  l.zipIdx.foldl (fun x w => (List.range 4).foldl (fun x j => x.wv (r + w.2) j w.1) x) x

/-- An instruction leaves these words in lane 0 from a register on and these flags in the region's shadow. -/
def leaves (f : Slice → Slice) (i : Instr) (r : Nat) (l : List LWord) (fl : Flags) : Bool :=
  let x := after f i
  (List.range l.length).map (fun k => x.rv (r + k) 0) == l && x.shadow == fl && x.pc == BitVec.ofNat 57 (Place.code + 8 + 8 * i.length)

/-- R118: SHIFT.I8.SHL of 0x41 by 1. -/
theorem test_shift : leaves (vregs 2 [0x41, 1]) (.shift g .i8 .shl (.v 1) (.v 2) (.v 3) .none) 1 [0xFFFFFF82] 0 = true := by decide +kernel

/-- R115, R116: a sum wraps, and clamps to I16's limits; the carry of three operands. -/
theorem test_iadd :
    (leaves (vregs 2 [0x7FFF, 1]) (.iadd g .i16 false .sum (.v 1) (.v 2) (.v 3) .none) 1 [0xFFFF8000] 0 &&
     leaves (vregs 2 [0x8000, 1]) (.iadd g .i16 true .diff (.v 1) (.v 2) (.v 3) .none) 1 [0xFFFF8000] 0 &&
     leaves (vregs 2 [0xFFFFFFFF, 0xFFFFFFFF, 0xFFFFFFFF]) (.iadd g .n32 false .carry (.v 1) (.v 2) (.v 3) (.v 4)) 1 [2] 0) = true := by decide +kernel

/-- R117: the high and the whole product of −2 and 3. -/
theorem test_imul :
    (leaves (vregs 2 [0xFFFFFFFE, 3]) (.imul g .i32 false .hi (.v 1) (.v 2) (.v 3)) 1 [0xFFFFFFFF] 0 &&
     leaves (vregs 2 [0xFFFFFFFE, 3]) (.imul g .i32 false .wide (.v 4) (.v 2) (.v 3)) 4 [0xFFFFFFFA, 0xFFFFFFFF] 0) = true := by decide +kernel

/-- R119: bit 4a + 2b + c of the table; 0xE8 is the majority. -/
theorem test_logic :
    leaves (vregs 2 [0xFF00FF00, 0xF0F0F0F0, 0xCCCCCCCC]) (.logic g .b32 0xE8 (.v 1) (.v 2) (.v 3) (.v 4)) 1 [0xFCC0FCC0] 0 = true := by decide +kernel

/-- R123: signed order, and a predicate of the lanes that take part. -/
theorem test_icmp :
    ((after (vregs 2 [0xFF, 1]) (.icmp g .i8 .lt (.p 1) (.v 2) (.v 3))).rp 1 == 0xF && (after (vregs 2 [0xFF, 1]) (.icmp g .n8 .lt (.p 1) (.v 2) (.v 3))).rp 1 == 0 &&
     (after (fun x => { vregs 2 [0, 1] x with p := [(1, 0xA), (2, 0x5)] }) (.icmp ⟨false, 2⟩ .n8 .lt (.p 1) (.v 2) (.v 3))).rp 1 == 0xF) = true := by decide +kernel

/-- The check value of CRC-32C: of the digits 1 to 9, the final inversion undone, eight digits and then one (R127). -/
theorem test_hash :
    (let crc : Nat := crc32c (crc32c 0xFFFFFFFF ((List.range 8).map fun i => BitVec.ofNat 8 (0x31 + i))) [0x39]
     crc == 0xE3069283 ^^^ 0xFFFFFFFF) = true := by decide +kernel

/-- The manual's reduction tree and scan (R133 to R135). -/
theorem test_lane :
    (let f (x : Slice) : Slice := (((x.wv 0 0 0x4B800000).wv 0 1 0x3F800000).wv 0 2 0x3F800000).wv 0 3 0xCB800000
     leaves f (.lane g .f32 false .redadd (.v 1) (.v 0) .none) 1 [0x3F800000] Flags.nx &&
     (List.range 4).map (fun j => (after f (.lane g .f32 false .scanadd (.v 2) (.v 0) .none)).rv 2 j) == [0x4B800000, 0x4B800000, 0x4B800000, 0x3F800000]) = true := by
  decide +kernel

/-- The manual's corner values of the float group (R154 to R156). -/
theorem test_fadd2 :
    (leaves (vregs 0 [0x6800, 0x3C00]) (.fadd2 g .f16 (.v 4) (.v 0) (.v 1)) 4 [0x6800, 0x3C00] 0 &&
     leaves (vregs 0 [0x7BFF, 0x4C00]) (.fadd2 g .f16 (.v 4) (.v 0) (.v 1)) 4 [0x7C00, 0] (Flags.of ||| Flags.nx ||| Flags.el)) = true := by decide +kernel

theorem test_fmul2 :
    (leaves (vregs 0 [0x3F800001, 0x3F800001]) (.fmul2 g .f32 (.v 4) (.v 0) (.v 1)) 4 [0x3F800002, 0x28800000] 0 &&
     leaves (vregs 0 [0x21800001, 0x21800001]) (.fmul2 g .f32 (.v 4) (.v 0) (.v 1)) 4 [0x03800002, 0] (Flags.uf ||| Flags.nx ||| Flags.el)) = true := by decide +kernel

theorem test_ffma3 :
    (leaves (vregs 0 [0x3F800001, 0x3F800001, 0xBF800000]) (.ffma3 g .f32 (.v 8) (.v 0) (.v 1) (.v 2)) 8 [0x34800000, 0x28800000, 0] 0 &&
     leaves (vregs 0 [0x3F800001, 0x3F800001, 0x9B800000]) (.ffma3 g .f32 (.v 8) (.v 0) (.v 1) (.v 2)) 8 [0x3F800002, 0x28800000, 0x9B800000] 0) = true := by decide +kernel

theorem test_ffma :
    leaves (vregs 0 [0x3F800001, 0x3F800001, 0x9B800000]) (.ffma g .f32 .rne .ma (.v 8) (.v 0) (.v 1) (.v 2)) 8 [0x3F800002] Flags.nx = true := by decide +kernel

theorem test_fcvt :
    (leaves (vregs 0 [0x477FF000]) (.fcvt g .f16 .rne .f32 (.v 8) (.v 0)) 8 [0x7C00] (Flags.of ||| Flags.nx) &&
     leaves (vregs 0 [0x477FF000]) (.fcvt g .f16 .rtz .f32 (.v 8) (.v 0)) 8 [0x7BFF] Flags.nx &&
     leaves (vregs 0 [0x3F808000]) (.fcvt g .bf16 .rne .f32 (.v 8) (.v 0)) 8 [0x3F80] Flags.nx &&
     leaves (vregs 0 [0x4F000000]) (.fcvt g .i32 .rtz .f32 (.v 8) (.v 0)) 8 [0x7FFFFFFF] Flags.nv &&
     leaves (vregs 0 [0xBF000000]) (.fcvt g .n32 .rne .f32 (.v 8) (.v 0)) 8 [0] Flags.nx &&
     leaves (vregs 0 [0xBF800000]) (.fcvt g .n32 .rne .f32 (.v 8) (.v 0)) 8 [0] Flags.nv) = true := by decide +kernel

/-- The manual's corner values of the expansion group (R165 to R171). -/
theorem test_xadd :
    (leaves (vregs 0 [0x3F800000, 0x30800000, 0, 0, 0xBF800000, 0x21800000]) (.xadd g .f32 .w2 .w2 .w2 (.v 8) (.v 0) (.v 4)) 8 [0x30800000, 0x21800000] 0 &&
     leaves (vregs 0 [0x80000000, 0x80000000, 0, 0, 0x80000000, 0x80000000]) (.xadd g .f32 .w2 .w2 .w2 (.v 8) (.v 0) (.v 4)) 8 [0x80000000, 0] 0) = true := by decide +kernel

theorem test_xrenorm :
    (leaves (vregs 0 [0x3F800000, 0x33800000, 0x21800000]) (.xrenorm g .f32 .w3 .w3 (.v 8) (.v 0)) 8 [0x3F800001, 0xB3800000, 0x21800000] 0 &&
     leaves (vregs 0 [0x7F800000, 0xFF800000]) (.xrenorm g .f32 .w2 .w2 (.v 8) (.v 0)) 8 [0x7FC00000, 0x7FC00000] Flags.nv) = true := by decide +kernel

theorem test_xcomp :
    (leaves (vregs 0 [0x3F800000, 0x33800000, 0x21800000]) (.xcomp g .f32 .w3 (.v 8) (.v 0)) 8 [0x3F800001] Flags.nx &&
     leaves (vregs 0 [0x3F800000, 0x33800000]) (.xcomp g .f32 .w2 (.v 8) (.v 0)) 8 [0x3F800000] Flags.nx) = true := by decide +kernel

theorem test_expansion_rest :
    (leaves (vregs 0 [0x7BFF, 0x4800, 0x4800]) (.xadds g .f16 .w2 .w2 (.v 8) (.v 0) (.v 2)) 8 [0x7C00, 0] (Flags.of ||| Flags.nx ||| Flags.el) &&
     leaves (vregs 0 [0x0D800000, 0x00000200, 0x2B800000]) (.xmuls g .f32 .w2 .w2 (.v 8) (.v 0) (.v 2)) 8 [0x00000200, 0] (Flags.uf ||| Flags.nx ||| Flags.el) &&
     leaves (vregs 0 [0x3F800800, 0x30800000]) (.xcvt g .f16 .w2 .w2 .f32 (.v 8) (.v 0)) 8 [0x3C00, 0x0C00] (Flags.nx ||| Flags.el) &&
     (after (vregs 0 [0x3F800000, 0x21800000, 0, 0, 0x3F800000, 0x21000000]) (.xcmp g .f32 .gt .w2 .w2 (.p 1) (.v 0) (.v 4))).rp 1 == 0xF) = true := by decide +kernel

/-- The manual's quantisation group (R180), element 3 being 0. -/
theorem test_qcvt :
    (let x := after (vregs 8 [0x447A0000, 0x3C23D70A, 0xC0400000]) (.qcvt g .e4m3 .f32 (.v 4) (.v 8))
     x.rv 4 0 == 0x00B40178 && x.rv 6 0 == 0x81 && x.shadow == (Flags.nx ||| Flags.uf)) = true := by decide +kernel

theorem test_qdec :
    leaves (vregs 4 [0x00B40178, 0, 0x81]) (.qdec g .e4m3 .f32 (.v 8) (.v 4)) 8 [0x44800000, 0x3C000000, 0xC0400000, 0] 0 = true := by decide +kernel

/-- The manual's residue word of 11,405, and its two chunks (R184, R340). -/
theorem test_residues : (resOf 11405 == 0x2624948D && crt 0x3101A004 == 201326596 && crt 0x2601C018 == 134217752) = true := by decide +kernel

/-- The manual's walk: a leaf of level 1, and the stack of its address (R216, R219). -/
theorem test_walk :
    (let s := { here with mem := { here.mem with
        ram := Place.put8 (Place.put8 (Place.put8 [] (0x40000 + 8 * 36) 0x44001) (0x44000 + 8 * 0x345) 0x48001) (0x48000 + 8 * 0x33C) 0x12_0200_000F } }
     let t := s.setCtx 0 fun c => { c with ptroot := 0x40001 }
     (t.phys? 0 0x00123456789ABCDE).toOption == some ⟨0x12_0200_000F, 0x12_029A_BCDE, 0x00123456789ABCDE / 2 ^ 14⟩ && stackOf (t1Key false 0x12_029A_BCDE) == 3) = true := by decide +kernel

/-- The manual's cocoon (R306 to R310): six appends, the last of which compacts. -/
theorem test_cocoon :
    (let e (op off : Nat) (d : Word) : CocoonEntry := { data := d, seq := 0, det := false, sz := 2, op, off }
     let p := [e 1 0x100 5, e 2 0x100 3, e 9 0x200 0x3F800000, e 9 0x200 0x3F800000, e 2 0x104 1, e 1 0x104 9].foldl Span.append
       { Span.fresh 0 with cap := 8 }
     p.cocoon.map (fun x => (x.seq, x.op, x.off, x.data)) ==
       [(2, 1, 0x100, 8), (3, 9, 0x200, 0x3F800000), (4, 9, 0x200, 0x3F800000), (6, 1, 0x104, 9)]) = true := by decide +kernel

/-- R33's header. -/
theorem test_header :
    (let w : Word := 0xFE03040000000040
     Hdr.isHeader w && Hdr.len w == 6 && Hdr.live w == 8 && Hdr.idem w && !Hdr.loopb w && Hdr.rcv w == 0 && Hdr.ok w 8 && !Hdr.ok w 7) = true := by decide +kernel

/-! ## Witnesses: encoding and control -/

/-- A header of n words with this RCV, its LOOPB bit set or not (R33). -/
def hdrWord (n rcv : Nat) (loopb : Bool) : Word :=
  BitVec.ofNat 64 (0x7F * 2 ^ 57 + n * 2 ^ 47 + rcv * 2 ^ 23 + (if loopb then 2 ^ 5 else 0))

def anAdd (o : Opd) : Instr := .iadd g .i32 true .diff (.v 255) (.v 2) o .none

/-- EncodedInstructionDecodes: with one word and with two, at the last register of the file. -/
theorem test_witness_wellformed : ((anAdd (.v 3)).wf 256 64 && (anAdd (.ext 0xFFFFFFFF)).wf 256 64) = true := by decide +kernel

/-- DecodedInstructionEncodes. -/
theorem test_witness_decoded :
    (decodeAt 256 64 (BitVec.ofNat 64 (word 0x10 5 1 0 1 2 3 0x1FF 1)) none).toOption = some (.iadd g .i32 true .diff (.v 1) (.v 2) (.v 3) .none) := by
  decide +kernel

/-- UnassignedOpcodesRaise: the first and the last of the opcodes, and a slice that issues. -/
theorem test_witness_unassigned :
    ((BitVec.ofNat 64 (word 0x0C 0 0 0 0 0 0 0 0)).extractLsb' 57 7 == 0x0C && (BitVec.ofNat 64 (word 0x77 0 0 0 0 0 0 0 0)).extractLsb' 57 7 == 0x77 &&
      meets here 1 fun s b l => (l.head?.map fun x => x.live) == some 256 && (s.lrOf b).accn == 64) = true := by decide +kernel

/-- NopChangesOnlyThePc and every statement made with Completes, at one word and at two, in both launch modes. -/
theorem test_witness_completes :
    (meets here 1 (fun s _ _ => s.runs 1) && meets here 2 (fun s _ _ => s.runs 2) && meetsDet here 1 (fun _ _ _ => true) &&
      meetsDet here 2 fun _ _ _ => true) = true := by decide +kernel

/-- A header two words on, and none after it. -/
def branching : State := coded [0, 0, hdrWord 1 0 false]

/-- BranchesTransfer: no lane, and every lane to a header. -/
theorem test_witness_branches :
    (meets branching 1 (fun s b l => l.all fun x =>
      isOk (s.transfer (s.lrOf b).ctx x (x.part_ g) (VA.plus x.pc 2) (VA.plus x.pc 1)) && isOk (s.transfer 0 x 0 0 0)) &&
    meets (onSlices branching (sregs [(7, BitVec.ofNat 64 (Place.code + 24))])) 1 (fun s b l => l.all fun x =>
      let a := svalOf (s.envOf b x) x (.s 7)
      a.toNat < 2 ^ 57 && a.toNat % 8 == 0 && isOk (s.transfer (s.lrOf b).ctx x (x.part_ g) (a.setWidth 57) (VA.plus x.pc 1)))) = true := by
  decide +kernel

/-- BranchesTransfer and LanesLeaveLoopsAndSlices in the last word of a block: every lane transferred and some of them, no lane, and a
slice that leaves no lane and one that goes on. -/
theorem test_witness_last_word :
    (let s := onSlices (coded [0, hdrWord 1 0 false]) fun x => { x with hword := some (hdrWord 2 0 false), hdr := VA.plus x.pc (-1) }
     match s.issuing with
     | none => false
     | some (b, l) =>
       let bad : VA → Bool := s.noHeader (s.lrOf b).ctx
       s.plain && l.all fun x => VA.plus x.pc 1 == x.blockEnd &&
         isOk (s.transfer (s.lrOf b).ctx x (x.part_ g) (VA.plus x.pc 1) (VA.plus x.pc 1)) &&
         isOk (s.transfer (s.lrOf b).ctx x 1 (VA.plus x.pc 1) (VA.plus x.pc 1)) &&
         isOk (went bad 1 (x, false)) && isOk (went bad 1 ((x.dropLanes 0xF 0 [0, 1, 2, 3]).emptyMask (s.loopExit (s.lrOf b).ctx), true)) &&
         isOk (went bad 1 ({ x with xm := 1, am := 0xE }, false))) = true := by decide +kernel

/-- What TransferSplitsTheLanes asks of a slice with this RCV and this many entries, and lanes t to go three words on. -/
def splits (rcv n : Nat) (t : Mask) (ok : State → Slice → VA → VA → Bool) : Bool :=
  let s := onSlices branching fun x =>
    { x with hword := some (hdrWord 64 rcv false), rs := List.replicate n { pend := false, mask := 1, hdr := 0, fmt := 0 } }
  meets s 1 fun s _ l => l.all fun x =>
    let rh : VA := if rcv = 0 then 0 else VA.plus x.hdr (BitVec.ofNat 16 rcv).toInt
    t != 0 && x.rs.length == n && x.hword.map Hdr.rcv == some (BitVec.ofNat 16 rcv) && ok s x (VA.plus x.pc 2) rh

def headerAt (s : State) (a : VA) (yes : Bool) : Bool :=
  match s.fetchWord 0 a.toNat with | .ok w => Hdr.isHeader w == yes | .error _ => false

/-- TransferSplitsTheLanes: no header at the target; all lanes; an RCV that names no header; a full stack and one with room for the
pair, with no RCV and with one that names a header. -/
theorem test_witness_transfer :
    (splits 0 0 1 (fun s x _ _ => headerAt s (VA.plus x.pc 1) false) &&
     splits 0 0 0xF (fun s x a _ => headerAt s a true && x.am == 0xF) &&
     splits 2 0 1 (fun s x a h => headerAt s a true && headerAt s h false && x.am != 1) &&
     splits 0 31 1 (fun s x a _ => headerAt s a true && x.rs.length + 2 > 32) &&
     splits 0 30 1 (fun s x a _ => headerAt s a true && x.rs.length + 2 ≤ 32) &&
     splits 3 30 1 (fun s _ a h => headerAt s a true && headerAt s h true)) = true := by decide +kernel

/-- A block of two words, the header of a loop's end after it. -/
def looping : State := onSlices (coded [0, hdrWord 2 0 true, 0, hdrWord 1 0 true]) fun x => { x with hword := some (hdrWord 2 0 true) }

/-- LoopsStartAndEnd: a LOOP in its block's only word, with a count and without; NOP there, where a loop ends and where none is. -/
theorem test_witness_loop :
    ((match looping.issuing with
      | none => false
      | some (b, l) => looping.plain && l.all fun x =>
          let en := VA.plus x.pc 3
          x.part_ g != 0 && x.pc == VA.plus x.blockEnd (-1) && !(x.lpOf 3).act && !(en < x.blockEnd) &&
            isOk (looping.header (looping.lrOf b).ctx x.blockEnd) && isOk (looping.header (looping.lrOf b).ctx en) &&
            Hdr.loopb (okOr 0 (looping.header (looping.lrOf b).ctx x.blockEnd)) && x.hword.isSome &&
            isOk (({ x.tick with wait := .none } : Slice).passEnd (looping.noHeader (looping.lrOf b).ctx) (VA.plus x.pc 1) x.order))) = true := by
  decide +kernel

/-- A slice at the end of level 2, which has c iterations left, with n entries on its stack. -/
def ending (c : BitVec 32) (n : Nat) : Slice :=
  let x := Place.slice 3
  { x with rs := List.replicate n default, order := [2], lp := x.lp.set 2 { act := true, start := 0x80, endh := x.hdr, count := c, brk := 2, depth := 1 } }

/-- LoopsStartAndEnd: a stack too deep by one, a further iteration, the last one, and another level. -/
theorem test_witness_loop_end :
    ([ending 2 2, ending 2 1, ending 1 1].all (fun x => (x.lpOf 2).act && (x.lpOf 2).endh == x.hdr && (x.lpOf 2).count != 0) &&
      (ending 2 2).rs.length > ((ending 2 2).lpOf 2).depth && (ending 1 1).rs.length ≤ ((ending 1 1).lpOf 2).depth &&
      !((ending 1 1).lpOf 3).act) = true := by decide +kernel

/-- LanesLeaveLoopsAndSlices: LBRK in an active level, its lanes all and some of them. -/
theorem test_witness_leave :
    (meets (onSlices here fun x => { ending 2 0 with num := x.num }) 1 fun _ _ l =>
      l.all fun x => (x.lpOf 2).act && x.part_ g == 0xF) = true := by decide +kernel

/-- A second slice of the block, in a gang of its own: REGANG waits for it. -/
def twoGangs : State := here.modBlock 2 fun b => { b with slices := b.slices ++ b.slices.map fun x => { x with num := 1, gang := 9 } }

/-- RegangWaitsAndReleases: a gang that is its group, one that is not, and the last to arrive while another waits. -/
theorem test_witness_regang :
    (meets here 1 (fun s b l => l.all (fun x => x.part_ g != 0 && decide (x.wait ≠ .regang)) &&
        b.slices.all (fun z => l.contains z) && l.all fun x => l.all fun y => (s.lrOf b).partOf 1 x.gnum == (s.lrOf b).partOf 1 y.gnum) &&
      meets twoGangs 1 (fun s b l => b.slices.any fun z => !z.ended && !l.contains z && decide (z.wait ≠ .regang) &&
        l.all fun x => (s.lrOf b).partOf 1 z.gnum == (s.lrOf b).partOf 1 x.gnum) &&
      meets (onSlices twoGangs fun x => { x with wait := if x.num = 1 then .regang else .none }) 1 fun _ b l =>
        b.slices.all fun z => l.contains z || (z.wait == .regang && z.inside 1 && z.gang == 9)) = true := by decide +kernel

/-! ## Witnesses: registers and memory -/

/-- RegisterWritesKeepTheRest: the registers on both sides of a pair, a lane that takes part and one that does not, a guard that
leaves no lane. -/
theorem test_witness_registers :
    (let x := { Place.slice 3 with p := [(1, 2)] }
     (x.part_ ⟨false, 1⟩).getLsbD 1 && !(x.part_ ⟨false, 1⟩).getLsbD 3 && x.part_ ⟨true, 0⟩ == 0 && x.part_ g != 0 &&
      decide ((3 : Nat) < (4 : BitVec 8).toNat) && decide ((4 : BitVec 8).toNat + 2 ≤ 6)) = true := by decide +kernel

/-- IntegerValues: the largest operands of a signed and of an unsigned type. -/
theorem test_witness_integers :
    ([Ty.i8, Ty.n64].all fun ty => ty.isInt && decide (2 ^ ty.width - 1 < 2 ^ ty.width)) = true := by decide +kernel

/-- A slot of 4 KiB, its words zero. -/
def slotted : State := { here with launches := here.launches.map fun l => { l with rcd := { l.rcd with sreg := 4, sscr := 4 } } }

/-- LaneInstructionsComplete: PART.RANGE with a table of one splitter at the slot's start. -/
theorem test_witness_range :
    (meets slotted 1 fun s b l => l.all fun x => isOk (rangeSlice s b g .n32 (.v 1) (.v 2) (.s 3) (.small 17) (s.envOf b x) x)) = true := by
  decide +kernel

/-- ExpansionAndNarrowComplete: SETFMT of its largest codes. -/
theorem test_witness_setfmt :
    (meets (withS [(4, 0x499)]) 1 fun s b l => l.all fun x => !fmtBad (svalOf (s.envOf b x) x (.s 4))) = true := by decide +kernel

/-- LoadsComplete and LoadWritesWhatItReads: an access that passes its checks, to registers and to scratchpad. -/
theorem test_witness_loads :
    (let s := onSlices slotted (sregs [(4, 0x3FFFFFFF0), (6, 0), (7, 0x40), (8, 0x3FFFFFFF0)])
     meets s 1 (fun s b l => s.unblocked b (loadAccs s b l g 4 (.v 3) (.s 4) (.v 1) .none)) &&
     meets s 1 (fun s b l => s.unblocked b (loadAccs s b l g 4 .none (.s 4) (.v 1) (.v 1)) &&
       !s.pathFull b l (loadAccs s b l g 4 .none (.s 4) (.v 1) (.v 1))) &&
     meets s 1 (fun s b l => s.unblocked b (loadAccs s b l g 16 (.v 4) (.s 4) .none .none) &&
       !s.pathFull b l (loadAccs s b l g 16 .none (.s 4) .none (.v 1))) &&
     meets s 1 (fun s b l => (splitBad g (.s 6) l).isNone && s.unblocked b (ldsplitAccs s b l g 4 (.s 6) (.v 1))) &&
     meets s 1 (fun s b l => (s.checkAccs b (ldsAccs s b l g 4 (.v 3) (.s 7) (.v 1)) fun _ => true).isNone)) = true := by decide +kernel

/-- LoadsComplete and StoresComplete in the parallel phase of a deterministic launch. -/
theorem test_witness_in_rounds :
    (let s := onSlices slotted (sregs [(4, 0x3FFFFFFF0), (6, 0), (7, 0x3FFFFFFFC), (8, 0x40)])
     meetsDet s 1 (fun s b l => s.unblocked b (loadAccs s b l g 4 (.v 3) (.s 4) (.v 1) .none)) &&
     meetsDet s 1 (fun s b l => s.unblocked b (loadAccs s b l g 4 .none (.s 4) (.v 1) (.v 1)) &&
       !s.pathFull b l (loadAccs s b l g 4 .none (.s 4) (.v 1) (.v 1))) &&
     meetsDet s 1 (fun s b l => s.unblocked b (loadAccs s b l g 16 (.v 4) (.s 4) .none .none)) &&
     meetsDet s 1 (fun s b l => (splitBad g (.s 6) l).isNone && s.unblocked b (ldsplitAccs s b l g 4 (.s 6) (.v 1))) &&
     meetsDet s 1 (fun s b l => (s.checkAccs b (ldsAccs s b l g 4 (.v 3) (.s 8) (.v 1)) fun _ => true).isNone) &&
     meetsDet s 1 (fun s b l => s.unblocked b (stAccs s b l g .n32 (.s 4) (.v 1))) &&
     meetsDet s 1 (fun s b l => s.unblocked b (stwAccs s b l g 16 (.s 4))) &&
     meetsDet s 1 (fun s b l => (splitBad g (.s 6) l).isNone && s.unblocked b (stsplitAccs s b l g 4 (.s 6) (.v 1))) &&
     meetsDet s 1 (fun s b l => (s.checkAccs b (stsAccs s b l g 4 (.s 8) (.v 1)) fun _ => true).isNone)) = true := by decide +kernel

/-- StoresComplete and StoresKeepOtherBytes. -/
theorem test_witness_stores :
    (let s := onSlices slotted (sregs [(4, 0x3FFFFFFF0), (6, 0), (7, 0x3FFFFFFFC), (8, 0x40)])
     meets s 1 (fun s b l => let x := stAccs s b l g .n32 (.s 4) (.v 1)
       s.unblocked b x && !stWaits s b .pkg .sync x && (s.mapped b x).roomFor b ((s.mapped b x).storesOf b l x (stData s b l .n32 (.v 3))) &&
         s.roomFor b ((s.mapped b x).storesOf b l x (stData s b l .n32 (.v 3)))) &&
     meets s 1 (fun s b l => let x := stwAccs s b l g 16 (.s 4)
       s.unblocked b x && (s.mapped b x).roomFor b ((s.mapped b x).storesOf b l x (stwData s b l 16 .none (.v 4)))) &&
     meets s 1 (fun s b l => let x := stsplitAccs s b l g 4 (.s 6) (.v 1)
       (splitBad g (.s 6) l).isNone && s.unblocked b x && (s.mapped b x).roomFor b ((s.mapped b x).splitStores b l 4 (.v 2) x)) &&
     meets s 1 (fun s b l => (s.checkAccs b (stsAccs s b l g 4 (.s 8) (.v 1)) fun _ => true).isNone)) = true := by decide +kernel

/-- CacheAndPathOperationsComplete: CMAINT of a whole page, WAITP of an idle path, a load to scratchpad that returns. -/
theorem test_witness_cache :
    (meets (withS [(4, 0x4000), (5, 0x4000)]) 1 (fun s b l => l.all fun x => isOk (cmaintSegs s b .clinv (.s 4) (.s 5) x)) &&
     meets here 1 (fun s b l => l.all fun x => decide ((b.share x.share).path 5 ≤ (svalOf (s.envOf b x) x (.small 16)).toNat % 2 ^ 16))) = true := by
  decide +kernel

/-- A command of the placed slice. -/
def command (k : CmdKind) : Cmd :=
  { id := 40, ctx := 0, block := some 2, share := 0, slice := 0, at_ := 0, others := [], tl := some (1, 1), path := some 3, dst := some 5
    node := none, uq := none, hold := none, kind := k }

/-- The state with a command in a unit. -/
def commanded (k : CmdKind) : State := { here with cmds := [command k] }

theorem test_witness_return :
    ((commanded (.scratch [] [(8, [1, 2])])).cmds.find? (fun x => x.id == 40) == some (command (.scratch [] [(8, [1, 2])]))) = true := by decide +kernel

/-- FirstFailingRowDecides: of these accesses one is at fault in a row, and none in a row before it. -/
def failing (row : Nat) (s : State) (ok : Phys → Bool) (accs : State → Block → List Slice → List Acc) : Bool :=
  match s.issuing with
  | none => false
  | some (b, l) => (accs s b l).any (fun a => (s.rowFails b ok row a).isSome) &&
      (List.range row).all fun k => k = 0 || (accs s b l).all fun a => (s.rowFails b ok k a).isNone

def anyPage : Phys → Bool := fun _ => true

/-- An access of an instruction of a gang of this state fails. -/
def turned (s : State) (ok : Phys → Bool) (accs : State → Block → List Slice → List Acc) : Bool :=
  match s.issuing with
  | none => false
  | some (b, l) => s.plain && (s.checkAccs b (accs s b l) ok).isSome

/-- One in each row: misaligned, past the slot, unmapped, a store to the code's page, a page of a peer that is lost, a line that another block
of a deterministic launch has written, poisoned. -/
theorem test_witness_rows :
    (failing 1 (withS [(4, 0x1002)]) anyPage (fun s b l => loadAccs s b l g 4 (.v 3) (.s 4) (.v 1) .none) &&
     failing 2 slotted anyPage (fun s b l => stsAccs s b l g 4 (.ext 0x1000) (.v 1)) &&
     failing 3 (withS [(4, 0x2000000000)]) anyPage (fun s b l => loadAccs s b l g 4 (.v 3) (.s 4) (.v 1) .none) &&
     failing 4 (withS [(4, BitVec.ofNat 64 Place.code)]) anyPage (fun s b l => stAccs s b l g .n32 (.s 4) (.v 1)) &&
     failing 5 { withS [(4, 0x3000000000)] with
         mem := { here.mem with ram := Place.put8 here.mem.ram (Place.root + 0x4018) (0x6F + 2 ^ 55) }, fabric := { here.fabric with lostPeers := [1] } } anyPage
       (fun s b l => loadAccs s b l g 4 (.v 3) (.s 4) (.v 1) .none) &&
     failing 6 ((withS [(4, 0x1000)]).modLaunch 1 fun l =>
         { l with rcd := { l.rcd with det := true }, tags := [{ line := lineOf (t1Key false 0x1000), va := 0x1000, wb := some 9, rb := .none }] }) anyPage
       (fun s b l => loadAccs s b l g 4 (.v 3) (.s 4) (.v 1) .none) &&
     failing 7 { withS [(4, 0x1000)] with mem := { here.mem with poison := [t1Key false 0x1000] } } anyPage
       (fun s b l => loadAccs s b l g 4 (.v 3) (.s 4) (.v 1) .none)) = true := by decide +kernel

/-- An access of each instruction that fails: LD, ST, LDW, STW, LDSPLIT, STSPLIT, LDS and STS. -/
theorem test_witness_failing :
    (let s := onSlices slotted (sregs [(4, 0x1002), (6, 0x1001)])
     turned s anyPage (fun s b l => loadAccs s b l g 4 (.v 3) (.s 4) (.v 1) .none) && turned s anyPage (fun s b l => stAccs s b l g .n32 (.s 4) (.v 1)) &&
     turned s anyPage (fun s b l => loadAccs s b l g (wideBytes .b64 false) (.v 4) (.s 4) .none .none) &&
     turned s anyPage (fun s b l => stwAccs s b l g (wideBytes .b64 false) (.s 4)) &&
     meets s 1 (fun _ _ l => (splitBad g (.s 6) l).isNone) &&
     turned s anyPage (fun s b l => ldsplitAccs s b l g 4 (.s 6) (.v 1)) && turned s anyPage (fun s b l => stsplitAccs s b l g 4 (.s 6) (.v 1)) &&
     turned s anyPage (fun s b l => ldsAccs s b l g 4 (.v 3) (.ext 0x1000) (.v 1)) &&
     turned s anyPage (fun s b l => stsAccs s b l g 4 (.ext 0x1000) (.v 1))) = true := by decide +kernel

/-- A byte of T1, its line in a cache. -/
theorem test_witness_bytes :
    (isT1 (t1Key false 0) && ((Memory.reset.poke (t1Key false 0) 7).line? (lineOf (t1Key false 0))).isSome &&
      (Memory.reset.poke (t1Key false 0) 7).wf) = true := by decide +kernel

/-- A line dirty at its home: another cache may take it, and a scope of one core does not reach it. -/
theorem test_witness_maintain :
    (let m := Memory.reset.poke (t1Key false 0) 7
     m.dirtyBeside (.l1 0) (lineOf (t1Key false 0)) && (m.line? (lineOf (t1Key false 0))).any (fun x => x.dirty) && m.held.isEmpty &&
       !scopeCovers Place.rcd (.lvl 0) 0 .home && scopeCovers Place.rcd (.lvl 0) 0 (.l1 0)) = true := by decide +kernel

def aHeld : HeldByte :=
  { block := 2, slice := 0, launch := 1, level := 1, idx := 0, seq := 0, key := 5, val := 9, place := .l1 0, nt := false }

/-- HeldStoresAreSeenInTheirScope: a slice inside the store's scope and one outside it, no older store there; one published. -/
theorem test_witness_held :
    (aHeld.sees { launch := 1, gnum := 0, lr := Place.rcd } && !aHeld.sees { launch := 1, gnum := 1, lr := Place.rcd } &&
      Memory.reset.held.all (fun x => x.key != aHeld.key)) = true := by decide +kernel

/-! ## Witnesses: synchronisation and atomics -/

def barrierOk (s : State) (k : Nat) (form : BarForm) (drop : Bool) (ok : State → Block → List Slice → Bool) : Bool :=
  meets s 1 fun s b l => barLevel (s.lrOf b) (BitVec.ofNat 3 k) == k && (firstEv g l (barBad (s.lrOf b) g k form)).isNone &&
    ok (barMet s g k drop (form == .full) b l) b l

/-- SynchronisationCompletes: fences with nothing due. -/
theorem test_witness_fences : (meets here 1 fun s b l => (fenceWaits s g b l true).isEmpty && (fenceWaits s g b l false).isEmpty) = true := by decide +kernel

/-- SynchronisationCompletes: the four forms of BAR at the launch's level, the only slice of a barrier arriving; a slice that waits
for a phase that is over. -/
theorem test_witness_barriers :
    (barrierOk here 2 .full false (fun t b l => barDone t g 2 true b l) && barrierOk here 2 .arrive false (fun t b l => barDone t g 2 false b l) &&
     barrierOk here 2 .arriveDrop true (fun t b l => barDone t g 2 false b l) &&
     barrierOk (onSlices (here.modLaunch 1 fun l => { l with bars := [{ level := 2, idx := 0, exp := 1, arr := 0, ndrop := 0, phase := 1 }] })
         fun x => { x with arrp := x.arrp.set 2 (some 0) }) 2 .wait false fun t b l => l.all fun x => t.barOver b x 2) = true := by
  decide +kernel

/-- The barrier's clauses: one that is met, one that expects nothing, an arrival, a level above the launch's, a slice that has dropped,
a deterministic slice that has arrived above its block's level. -/
theorem test_witness_barrier_clauses :
    (let x : Barrier := { level := 1, idx := 0, exp := 2, arr := 2, ndrop := 1, phase := 0xFFFF }
     let r : LaunchRec := { Place.rcd with det := true, blklv := 1 }
     let y := Place.slice 3
     x.exp != 0 && x.arr == x.exp && ({ x with exp := 0 } : Barrier).exp == 0 &&
     (match here.issuing with
      | some (b, l) => (here.launch? b.launch).isSome && l.all fun z => decide (z.wait ≠ .bar 2) && decide (z.wait ≠ .made) && decide (z.arrival 2 ≠ some (here.barOf b z 2).phase)
      | none => false) &&
     decide (3 > r.top) && decide (2 ≤ r.top) && r.bind.getD 1 5 != 5 && r.bind.getD 0 5 != 5 && ({ y with drop := y.drop.set 2 true } : Slice).dropped 2 &&
     decide (({ y with arrp := y.arrp.set 2 (some 0) } : Slice).arrival 2 ≠ none) && !({ y with arrp := y.arrp.set 2 (some 0) } : Slice).dropped 2 &&
     decide (2 > r.blklv)) = true := by decide +kernel

/-- A block of a deterministic launch. -/
def inRounds : State := here.modLaunch 1 fun l => { l with rcd := { l.rcd with det := true } }

/-- QendEndsTheQuantum. -/
theorem test_witness_qend :
    (match inRounds.issuing with
     | none => false
     | some (b, l) => inRounds.whole && (inRounds.lrOf b).det && decide ((b.slices.map (fun x => x.num)).Nodup) &&
         l.all fun x => x.part_ g != 0 && x.inside 1 && some x.pc == l.head?.map fun y => y.pc) = true := by decide +kernel

/-- TimelinesComplete: the counter at its threshold. -/
theorem test_witness_timelines :
    (meets here 1 fun s b l => !Opd.negSmall (.small 16) && l.all fun x =>
      decide ((svalOf (s.envOf b x) x (.small 16)).toNat ≤ ((b.share x.share).timeline 7).done)) = true := by decide +kernel

/-- Pages of T1 after the code's: at 128G one that is MS and SL, at 192G one that is SL. -/
def paged : State :=
  { slotted with mem := { slotted.mem with
      ram := Place.put8 (Place.put8 slotted.mem.ram (Place.root + 0x4010) 0x30F) (Place.root + 0x4018) 0x20F } }

def pagedS (l : List (Nat × Word)) : State := onSlices paged (sregs l)

def atomicOk (s : State) (sc : Scope) (k : State → Block → Atomic) (accs : State → Block → List Slice → List Acc) : Bool :=
  meets s 1 fun s b l => (s.atomicEv g b l sc (k s b) (accs s b l)).isNone && !s.held_ (s.lrOf b).ctx (atomicTodo l (accs s b l)) &&
    (s.atomicWants b l (k s b) (atomicTodo l (accs s b l))).isEmpty && !s.q1Full (s.lrOf b).ctx l (atomicTodo l (accs s b l))

/-- What an atomic may reach (R266). -/
def notOpm : Phys → Bool := fun p => Pte.tgt p.pte != 5

/-- FirstFailingRowDecides: an access that fails of ATOM, REDM, ATOMC and ATOMW. -/
theorem test_witness_failing_atomics :
    (let s := pagedS [(4, 0x3000001004)]
     turned s notOpm (fun s b l => atomAccs s b l g .n64 (.s 2) (.s 4) (.s 6) .none) &&
     turned s notOpm (fun s b l => atomAccs s b l g .n64 .none (.s 4) (.s 6) .none) &&
     turned s notOpm (fun s b l => atomcAccs s b l g (.s 2) (.s 4) (.s 6)) &&
     turned s notOpm (fun s b l => atomwAccs s b l g (atomwSize .b64 .w2) (.v 8) (.s 4))) = true := by decide +kernel

/-- AtomicsComplete. -/
theorem test_witness_atomics :
    (let s := pagedS [(4, 0x3000001000)]
     atomicOk s .pkg (fun _ _ => atomForm .n32 .cas (.v 1) (.v 4) (.v 6)) (fun s b l => atomAccs s b l g .n32 (.v 1) (.s 4) (.v 4) (.v 6)) &&
     atomicOk s .pkg (fun _ _ => redmForm .f32 .add (.v 4)) (fun s b l => atomAccs s b l g .f32 .none (.s 4) (.v 4) .none) &&
     atomicOk s .pkg (fun _ _ => atomcForm (.v 4) (.v 1)) (fun s b l => atomcAccs s b l g (.v 4) (.s 4) (.v 1)) &&
     atomicOk s .pkg (fun _ _ => atomwForm (atomwSize .b32 .w2) (.v 8) (.v 16) (.v 24))
       (fun s b l => atomwAccs s b l g (atomwSize .b32 .w2) (.v 8) (.s 4))) = true := by decide +kernel

/-- AtomicReadsAndWritesOnce: a page of its kind in a launch that is not deterministic, nothing held. -/
theorem test_witness_atomic_page :
    (match paged.issuing with
     | none => false
     | some (b, _) => Pte.tgt 0x20F == 0 && !Pte.ms 0x20F && Pte.sl 0x20F && !(paged.lrOf b).det && paged.mem.held == []) = true := by decide +kernel

/-- A request for a grant of one lane's count. -/
def granting : State :=
  { pagedS [(4, 0x3000001000)] with cmds := [{ command (.grant 0x3000001000 [(0, 7)]) with tl := none, path := none }] }

/-- AppendsComplete: a slice whose counts are all 0, and a grant. -/
theorem test_witness_appends :
    (meets (pagedS [(4, 0x3000001000)]) 1 (fun s b l => (appendEv s g (.v 1) (.s 4) (.v 2) b l).isNone &&
        !s.held_ (s.lrOf b).ctx (atomicTodo l (appendReads s b l g (.v 1) (.s 4) (.v 2))) &&
        appendReady s (appendSent s g (.v 1) (.s 4) (.v 2) b l) g (.v 1) (.v 2) b l) &&
     (match granting.block? 2 with
      | none => false
      | some b => (granting.cmds.find? (fun x => x.id == 40)).isSome && granting.mem.poison == [] &&
          match granting.phys? 0 0x3000001000 with
          | .ok p => granting.grantReady p && granting.mayGrant b (granting.logKey p 0) && !granting.askedBefore 40 (granting.logKey p 0)
          | .error _ => false)) = true := by decide +kernel

/-- A slice whose skipper, or whose peer's, has answered. -/
def answered (k : CmdKind) : State :=
  onSlices { pagedS [] with cmds := [{ command k with tl := some (3, 1), path := none }] } fun x => { x with q1 := [40] }

/-- SkipperOperationsComplete: on a page of its kind; the ends of ENQ. -/
theorem test_witness_skipper :
    (let s := pagedS [(4, 0x2000000040), (6, 0x80), (8, 0x810)]
     meets s 1 (fun s b l => (skopEv s g (.s 4) 16 true (fun _ => false) b l).isNone && !skopWaits s g (.s 4) 16 true b l &&
       isOk (skopRun s g (.s 2) (.s 4) 16 true (enqOp b (.s 6)) b l)) &&
     meets s 1 (fun s b l => (skopEv s g (.s 4) 8 false (fun x => chaseBad (chaseWord s b (.s 8) x)) b l).isNone && !skopWaits s g (.s 4) 8 false b l &&
       isOk (skopRun s g (.s 2) (.s 4) 8 false (chaseOp b (.s 6) (.s 8)) b l)) &&
     [CmdKind.skip 0x77, .far (.peer 1) 0x3000001000 [.s 2 5]].all (fun k => match (answered k).block? 2 with
      | none => false
      | some b => ((answered k).cmds.find? (fun y => y.id == 40)).isSome && (b.slice? 0).any fun x => x.q1.head? == some 40) &&
     (match paged.walk 0 0x2000000000 with
      | .error _ => false
      | .ok f => isOk (paged.skRead ⟨f⟩ 0x40) && isOk (paged.skRead ⟨f⟩ 0x48) && decide (f.size - 8 + 8 ≤ f.size) && decide (f.size + 8 > f.size) &&
          f.size % 8 == 0 &&
          (let p : SkPage := ⟨f⟩
           SkPage.status p 0x40 (8 + 8) == 0 && isOk (paged.skRead p (0x40 + 8))))) = true := by decide +kernel

/-! ## Witnesses: the matrix side -/

/-- TileInstructionsComplete. -/
theorem test_witness_tiles :
    (let s := onSlices slotted (sregs [(4, 0x100), (5, 0x800)])
     onTiles s (fun _ _ => [tileOf (.acc 63)]) (fun _ _ _ => none) &&
     onTiles s (memitTiles (tileOf (.acc 4))) (fun s b x => memitCheck (s.lrOf b) true true (tileOf (.acc 4)) (.s 4) .none (memitTile (tileOf (.acc 4)) b x) x) &&
     onTiles s (fun _ _ => [3]) (fun s b x => imageAt (s.lrOf b) (imageOff (.s 4) x)) &&
     onTiles s (fun _ _ => [3]) (fun s b x => mloadCheck s (.acc 3) (.s 4) b x)) = true := by decide +kernel

/-- The words of a task: a tile of int8 elements, one chunk. -/
def taskWords : List Word := [0x0000_0060_0000_0001, 0, 0, 0, 0, 0, 0, 0]

def tasked (running : Bool) : Task :=
  { id := 50, core := 0, block := 2, share := 0, slice := 0, at_ := 0, num := 1, phase := 0, rcd := taskOf (scalarBytes taskWords) 0x66, running
    chunks := 0, counts := { sclc := false, metac := 0, ofc := 0, nvc := 0, nxc := 0 }, hold := none }

/-- The placed slice with an object that counts one position, and FMT's int8 codes. -/
def withObject : State :=
  onSlices (slotted.modShare 2 0 fun sh => sh.modObj 7 fun _ => { BarObj.reset with act := true, tile := 1, cnt := 1 }) fun x =>
    { sregs (taskWords.zipIdx.map fun w => (8 + w.2, w.1)) x with fmt := 0x66 }

/-- TasksAndObjectsComplete. -/
theorem test_witness_tasks :
    (meets withObject 1 (fun s b l => (acting g l).all fun x =>
       !initBad s (.small 23) (.acc 63) (.small 17) b x && !initBusy s (.small 23) (.acc 63) b x) &&
     meets (withObject.modShare 2 0 fun sh => sh.modObj 7 fun o => { o with phase := 1 }) 1 (fun s b l => (acting g l).all fun x =>
       !waitBad s (.small 23) b x && waitIsOver s (.small 23) (.small 16) b x) &&
     sends withObject 1 .m none
       (fun s blk x => if objVal s blk x (.small 23) > 7 ||
         (let o := (blk.share x.share).obj (objVal s blk x (.small 23)); !o.act || objVal s blk x (.small 16) ≥ o.cnt) then some Ev.own else none)
       (fun s blk x => [BitVec.ofNat 64 (objVal s blk x (.small 23)), BitVec.ofNat 64 (objVal s blk x (.small 16))]) (fun _ => sendArrive) &&
     sends withObject 1 .m none (fun s b x => pushCheck (s.lrOf b) (eightOf x (.s 8)) x.fmt.toNat)
       (fun _ _ x => eightOf x (.s 8) ++ [x.fmt.setWidth 64]) (fun _ => sendPush) &&
     (let s := { withObject with tasks := [tasked false] }
      (s.tasks.find? (fun t => t.core == 0 && s.eligible t)).isSome && decide ((s.tasks.filter fun t => t.core == 0 && t.running).length < 4)) &&
     (let s := { withObject with tasks := [tasked true] }
      match s.taskSlice (tasked true) with
      | none => false
      | some (b, _) => (s.taskEv (tasked true)).isNone && s.taskFree (tasked true) b)) = true := by decide +kernel

/-- PushesAreAcceptedOrRefused: a push that its tile refuses, one that finds the queue full, one that is accepted. -/
theorem test_witness_pushes :
    (match withObject.issuing with
     | none => false
     | some (b, l) =>
       let t := (tasked false).rcd
       let sh := b.share 0
       l.length == 1 && (withObject.block? b.uid) == some b && decide (0 < b.shares.length) && decide (0 < sh.tls.length) &&
       decide (t.acc + 1 < sh.tiles.length) && (t.stateCheck false 0 sh).isNone && !t.useobj && decide (withObject.tasks.length < Config.taskQueue) &&
       decide ((List.replicate 64 (tasked false)).length ≥ Config.taskQueue) &&
       (t.stateCheck false 0 (sh.modTile 0 fun z => { z with path := .fphi })).isSome &&
       (taskOf (scalarBytes taskWords) 0x11).fp && sh.tile 0 == Tile.reset) = true := by decide +kernel

/-! ## Witnesses: copies, base-die arithmetic and queues -/

/-- Words at an address of T1, as every load sees them. -/
def poked (s : State) (a : Nat) (l : List Word) : State :=
  { s with mem := s.mem.pokeMany (l.zipIdx.flatMap fun w => (leBytes 8 w.1.toNat).mapIdx fun i x => (a + 8 * w.2 + i, x)) }

/-- A descriptor of one dimension of four elements, to the slot's end. -/
def boxWords : List Word := [1, 0, 0x3000001000, 0x4000000000000FF0, 0x0000_0004_0000_0000, 4, 4, 4, 0, 0, 0, 0, 0, 0, 0, 0]

/-- A sum of two sources of four words each. -/
def redWords : List Word := [0x0002_0101, 0x2000001000, 0x1000, 0x2000004000, 4, 0, 0, 0]

def mcmpWords : List Word := [0x2000004000, 0x2000001000, 0x2000002000, 0, 4, 0, 0, 0]

def asyncs : State :=
  poked (onSlices (paged.modShare 2 0 fun sh => sh.write 0x80 (boxWords.flatMap fun w => leBytes 8 w.toNat)) fun x =>
      sregs (mcmpWords.zipIdx.map fun w => (8 + w.2, w.1)) (sregs [(4, 0x80), (5, 0x4000000000000100), (6, 0x3000001000), (7, 0x3000002000)] x))
    (t1Key true 0x2000) redWords

/-- AsyncCommandsAreSent: the commands that go to engines. -/
theorem test_witness_async_sent :
    (sends asyncs 1 .c (dstOf (.s 2)) (fun s b x => cpyCheck (s.lrOf b) (argsOf [.s 5, .s 6, .small 31] s b x)) (argsOf [.s 5, .s 6, .small 31])
       (fun _ => sendCpy (dstOf (.s 2))) &&
     sends asyncs 1 .c (dstOf (.s 2)) (cpytTrap .n32 false (.s 4)) (cpytDesc (.s 4)) (fun r => sendCpyt r .n32 false (dstOf (.s 2))) &&
     sends asyncs 1 .c (dstOf (.s 2)) (fun s b x => cbookCheck (s.lrOf b) (argsOf [.s 6] s b x)) (argsOf [.s 6]) (fun _ => sendCbook (dstOf (.s 2))) &&
     sends asyncs 1 .c none (fun s b x => mcmpTrap s b .f32 .vadd (eightOf x (.s 8))) (fun _ _ x => eightOf x (.s 8))
       (fun _ => sendMcmp .f32 .rne .vadd) &&
     meets asyncs 1 (fun s b l =>
       let x := mredAccs s b l g (.s 7)
       let t := s.afterLoads b false l x
       s.unblocked b x && (gangTrap g (toSend g l) (mredTrap t b x)).isNone &&
         allWent b (toSend g l) (t.sendAll .c none (mredWords t b x) sendMred b.uid (toSend g l)))) = true := by
  decide +kernel

/-- A queue of two slots, its header at 192G + 4K. -/
def queued : State :=
  poked (onSlices paged fun x => sregs [(6, 0x3000001000), (15, 0x0100_0000_0000_0000)] x) (t1Key true 0x1088) [2, 0x3000003000]

/-- QueueOperationsPost: what is asked of a slice before it claims its slot. -/
theorem test_witness_post_claim :
    (meets queued 1 fun s b l => !postHeld s g (.s 6) b l && (postEv s g (.s 8) (.s 6) b l).isNone && !postWaits s g (.s 6) b l &&
      (postAbsent s g (.s 6) b l).isEmpty &&
      (let t := postClaim s g (.s 6) b l
       (t.takers g b l).all (postFree t (.s 6) b))) = true := by decide +kernel

/-- The same and all that follows, of a slice that has claimed slot 0. -/
theorem test_witness_post :
    (meets (onSlices queued fun x => { x with wait := .queue 0 2 0x3000003000 [] }) 1 fun s b l => !postHeld s g (.s 6) b l && (postEv s g (.s 8) (.s 6) b l).isNone && !postWaits s g (.s 6) b l &&
      (postAbsent s g (.s 6) b l).isEmpty &&
      (let t := postClaim (postReads s g (.s 6) b l) g (.s 6) b l
       (t.takers g b l).all (postFree t (.s 6) b) && isOk (postWrite t (.s 2) (.s 8) b (t.takers g b l)))) = true := by decide +kernel

/-- CopiesAreNumberedAndMove: no byte and one byte, to the slot and to memory; moves within the slot that do not meet. -/
theorem test_witness_copies :
    ((caddrOf 0x4000000000000FFF).scr && !(caddrOf 0x01FFFFFFFFFFFFFF).scr &&
     (match slotted.block? 2 with
      | none => false
      | some b => decide ((b.share 0).path 2 < 65535) && decide (0 < b.shares.length) &&
          ([⟨⟨true, 8⟩, .from_ ⟨true, 0⟩, []⟩, ⟨⟨true, 9⟩, .from_ ⟨true, 1⟩, []⟩] : List Move).all fun m => m.dst.scr && m.dst.addr ≥ 8)) = true := by decide +kernel

/-- AsyncCommandsComplete: a copy, a reduction and a sum that may complete. -/
theorem test_witness_async_complete :
    (let c := command (.copy 0x3000001000 0x4000000000000000 8)
     let s := { paged with cmds := [c] }
     let r := redOf redWords
     let a := mcmpArgsOf mcmpWords
     c.kind.copies && !s.copyWaits c && (s.copySpans c).isEmpty &&
     (let d := command (.red r)
      let t := { paged with cmds := [d] }
      t.unitFree d.ctx r.faddr.toNat (r.dst :: r.srcs) (r.len * redSize r.fmt) && !t.unitDetx d r.dst r.srcs (r.len * redSize r.fmt) r.faddr.toNat &&
        (t.engineRoom d.ctx (flagStore r.faddr.toNat)).isEmpty) &&
     (let d := command (.mcmp .f32 .rne .vadd a)
      let t := { paged with cmds := [d] }
      t.unitFree d.ctx a.faddr.toNat (a.dst :: mcmpSrcs .vadd a) 16 && !t.unitDetx d a.dst (mcmpSrcs .vadd a) 16 a.faddr.toNat &&
        (t.engineRoom d.ctx (flagStore a.faddr.toNat)).isEmpty)) = true := by decide +kernel

def aQueue (l : List Packet) : UserQueue := { id := 60, ctx := 0, header := 0x3000001000, kinds := [1], inFlight := l }

/-- AsyncCommandsComplete: a packet in its slot, and one that its engine has done. -/
theorem test_witness_packets :
    ((let s := poked queued (t1Key true 0x3038) [0x0100_0000_0000_0000]
      !s.uqBlocked (aQueue []) && (s.uqEv (aQueue [])).isNone && match (s.uqPolls (aQueue [])).uqSlot (aQueue []) with
        | some x => !(s.uqPolls (aQueue [])).anyBlocked 0 (packetBlock x.2)
        | none => false) &&
      (let p : Packet := { (default : Packet) with cmd := none, faddr := 0x3000004000 }
       let u := aQueue [p]
       !queued.engineHeld 0 (p.stores u 2 0x3000003000) && (queued.engineRoom 0 (p.stores u 2 0x3000003000)).isEmpty &&
         ((queued.flagEv 0 p.faddr).bind Ev.fatal).isNone && (queued.wordsEv u p 2 0x3000003000).isNone &&
         -- a queue whose words lie with the code
         (let u := { u with header := Place.code }
          (queued.wordsEv u p 2 0x3000003000).any (fun e => e.code == 0x05) && !queued.engineHeld 0 (p.stores u 2 0x3000003000) &&
          (queued.engineRoom 0 (p.stores u 2 0x3000003000)).isEmpty)) &&
      queued.ctxRead 0 (0x3000001000 + 136) 4 == some 2 && queued.ctxRead 0 (0x3000001000 + 144) 8 == some 0x3000003000) = true := by decide +kernel

/-! ## Witnesses: spans and the switch allocator -/

/-- A page of T2 that spans manage, at 256G, a window on T2, and a span cache of two frames. -/
def spanned (l : List Span) : State :=
  let s := (pagedS [(4, 0x4000000000), (6, 8)]).setCtx 0 fun c => { c with scacheB := 2 ^ 38, scacheS := 2 ^ 17 }
  { s with
    mem := { s.mem with ram := Place.put8 s.mem.ram (Place.root + 0x4020) 0x42F }
    fw := { s.fw with windows := { Place.window with tgt := 1 } :: s.fw.windows }
    spans := l }

def aSpan (st : SpanState) (es : List CocoonEntry) : Span := { num := 0, st, frame := if st = .resident || st = .evicting then some (2 ^ 38 + 2 ^ 16) else none, cap := 64, pol := 0, seq := es.length, cocoon := es, refetch := false }

/-- SpanInstructionsComplete: the least capacity and the last policy; spans that arrive, are replaced and leave. -/
theorem test_witness_spans :
    (meets (spanned []) 1 (fun s b l => (s.spanTrap b g false true (.s 4) l).isNone && (acting g l).all fun x => !capBad (.s 6) (s.envOf b x) x) &&
     meets (spanned []) 1 (fun s b l => (s.spanTrap b g false true (.s 4) l).isNone && (acting g l).all fun x => !polBad (.small 26) (s.envOf b x) x) &&
     meets (spanned []) 1 (fun s b l => s.runs 1 && (s.spanTrap b g true false (.s 4) l).isNone) &&
     meetsDet (spanned []) 1 (fun s b l => (s.spanTrap b g true false (.s 4) l).isNone) &&
     decide ((aSpan .fetching []).cap ≤ 256) &&
     meets (spanned []) 1 (fun s b l => (gangTrap g l fun x =>
       fetchLong (Opd.negSmall (.s 6)) (svalOf (s.envOf b x) x (.s 4)).toNat (svalOf (s.envOf b x) x (.s 6)).toNat).isNone) &&
     sends (spanned []) 1 .c (dstOf (.s 2))
       (fun s b x => evOf (s.fetchPages (s.lrOf b).ctx (svalOf (s.envOf b x) x (.s 4)).toNat (svalOf (s.envOf b x) x (.s 6)).toNat))
       (argsOf [.s 4, .s 6]) (fun _ => sendSpanfet (dstOf (.s 2))) &&
     ((spanned [aSpan .fetching []]).span 0).st == .fetching && (spanned [aSpan .fetching []]).freeFrame 0 == some (2 ^ 38) && ((spanned [aSpan .evicting []]).span 0).st == .evicting &&
     (let s := spanned [aSpan .resident []]
      (s.span 0).st == .resident && !(s.span 0).pin && !s.spanWanted 0)) = true := by decide +kernel

def overwrite (off sz : Nat) : CocoonEntry := { data := 0x0102030405060708, seq := 0, det := false, sz, op := 1, off }

/-- SpansCarryTheirBytes: a cocoon of one entry at the span's end; an overwrite that covers an entry, one that an entry
lies in, a store to part of it, two of one operation, two FADDs, and a pair for no row; a span that leaves its frame. -/
theorem test_witness_cocoons :
    (let e := overwrite 0xFFF8 3
     (spanned [aSpan .fetching [e]]).mem.wf && ((spanned [aSpan .fetching [e]]).span 0).cocoon == [e] && e.op == 1 && decide (e.off + 2 ^ e.sz ≤ 2 ^ 16) && decide (e.sz ≤ 3) &&
     (let l := [{ overwrite 0 3 with seq := 4 }, { overwrite 4 3 with seq := 9 }]
      decide (l.Pairwise fun x y => x.seq < y.seq) && l.all (fun x => decide (x.seq < 10) && decide (x.off + x.bytes ≤ 2 ^ 16)) && Cells.wf (0 : Byte) [] &&
      (spanned [aSpan .fetching l]).mem.ram.all fun c => decide (c.1 < t2Key 0) || decide (t2Key (2 ^ 16) ≤ c.1)) &&
     (overwrite 8 3).covers (overwrite 12 2) && !decide (({ overwrite 12 2 with op := 2 } : CocoonEntry).op = 1) &&
     (overwrite 8 3).covers { overwrite 12 2 with op := 2 } && !(overwrite 12 2).covers (overwrite 8 3) &&
     (let e (op : Nat) : CocoonEntry := { overwrite 8 2 with op }
      ([2, 9, 0xA, 0xC].all fun k => decide ((e k).sz ≤ 3) && (e k).sz == 2) && (compactPair false (e 9) (e 9)).isNone &&
        (compactPair true (e 9) (e 9)).isSome && (compactPair false (e 0xA) (e 0xA)).isSome) &&
     (spanned [aSpan .evicting []]).mem.held == [] && ((spanned [aSpan .evicting []]).span 0).frame == some (2 ^ 38 + 2 ^ 16) &&
     !(Span.fresh 0).fpmerge) = true := by decide +kernel

def anAlloc : Alloc := { ctx := 0, base := 0x1000000, size := 0x4000, plane := 0, pa := 0, partner := none, lost := false, page := 0x4000, freeing := none }

/-- SwitchAllocationsComplete: a call, a quota that is too small by one page, a base that is none, and one that is. -/
theorem test_witness_allocations :
    (sends (withS [(4, 0x4000)]) 1 .c (dstOf (.s 2))
       (fun s b x => sallocBad false false (svalOf (s.envOf b x) x (.s 4)) (svalOf (s.envOf b x) x (.small 16))) (argsOf [.s 4, .small 16])
       (fun _ => sendSalloc false (dstOf (.s 2))) &&
     sends (withS [(4, 0x4000)]) 1 .c (dstOf (.s 2)) (fun _ _ _ => none) (argsOf [.s 4]) (fun _ => sendSfree (dstOf (.s 2))) &&
     (let s := { here with fw := { here.fw with quotas := [(0, 0x3FFF)] } }
      decide (s.tenantBytes (s.ctx 0).tenant + switchSize 0x4000 > s.quota (s.ctx 0).tenant)) &&
     here.fabric.allocs.all (fun a => a.base != 0x4000) &&
     (let o : Alloc := { anAlloc with base := 0x1004000, pa := 0x4000 }
      let s := ({ here with fabric := { here.fabric with allocs := [o, anAlloc, { anAlloc with ctx := 1 }] } } : State).setCtx 0 fun c => { c with swwinB := 0x1000000, swwinS := 0x10000 }
      s.fabric.allocs.contains anAlloc && s.fabric.allocs.all (fun a => decide (0 < a.size)) &&
      decide (s.fabric.allocs.Pairwise fun x y => x.ctx = y.ctx → x.base + x.size ≤ y.base ∨ y.base + y.size ≤ x.base) && (s.ctx 0).inWindow 0x1000000 && (s.ctx 0).inWindow 0x1003FFF)) = true := by decide +kernel

theorem placed_somewhere (lo size c : Nat) (h : lo % 16384 = 0) (k : 16384 ≤ size) : (placeIn [] lo size 0x4000 0x4000 c).isSome = true := by
  have e : (lo + 0x4000 - 1) / 0x4000 * 0x4000 = lo := by omega
  unfold placeIn
  simp only [e]
  split
  · rfl
  · simp [k]

/-- A window and a quota of one page. -/
def windowed : State :=
  ({ here with fw := { here.fw with quotas := [(0, 0x4000)] } } : State).setCtx 0 fun c => { c with swwinB := 0x1000000, swwinS := 0x4000 }

/-- SwitchAllocationsComplete: a call that allocates. -/
theorem test_witness_allocated : (windowed.salloc 0 false 0x4000 0).2.fabric.allocs.length = 1 := by
  obtain ⟨p, hp⟩ := Option.isSome_iff_exists.mp (placed_somewhere 0 planeSize (Config.freeWord (windowed.fresh + 1)).toNat rfl (by decide))
  obtain ⟨q, hq⟩ := Option.isSome_iff_exists.mp (placed_somewhere 0x1000000 0x4000 (Config.freeWord (windowed.fresh + 2)).toNat rfl (by decide))
  unfold State.salloc
  simp only [show switchSize 0x4000 = 0x4000 from rfl, show switchPage 0x4000 = 0x4000 from rfl]
  simp [show windowed.fabric.allocs = [] from rfl, show windowed.fabric.lostPlanes = [] from rfl,
    show (windowed.ctx 0).swwinB = 0x1000000 from rfl, show (windowed.ctx 0).swwinS = 0x4000 from rfl, hp, hq,
    show windowed.tenantBytes (windowed.ctx 0).tenant = 0 from rfl, show windowed.quota (windowed.ctx 0).tenant = 0x4000 from rfl]

/-! ## Witnesses: collectives and their traffic -/

/-- Windows that admit peer 1 and this module, and scratchpad mapped at 320G. -/
def peered : State :=
  let s := pagedS []
  let w := { Place.window with peerR := true, peerW := true, peers := [0, 1] }
  { s with
    mem := { s.mem with ram := Place.put8 (Place.put8 s.mem.ram (Place.root + 0x4028) (1 + (Place.root + 0x8000))) (Place.root + 0x8000) 0xAF }
    fw := { s.fw with windows := [w, { w with tgt := 5 }] } }

/-- Job 63 of modules 0 and 1, one instance of FP pairs open. -/
def jobbed (opened : Nat) : State :=
  peered.modJob 63 fun j => { j with bound := true, opened, cur := 5, mode := 2, nmem := 2, list := [0, 1] }

/-- A slice with what COLL's fields ask for: peers in v2, remote addresses in v4, the local address and job 63 with n bytes in s8. -/
def collSlice (peer : Nat) (n : Nat) (x : Slice) : Slice :=
  (List.range 4).foldl (fun x j => ((x.wv 2 j (BitVec.ofNat 32 peer)).wv 4 j (BitVec.ofNat 32 (0x1000 + 4096 * j))).wv 5 j 0x30)
    (sregs [(8, 0x3000008000), (9, BitVec.ofNat 64 (63 * 2 ^ 50 + n))] x)

def collWait (x : Slice) : Slice := { x with wait := .coll }

/-- CollectivesComplete: an operation that none of R336's rows stops, where a log is full (of a slice that has arrived) or none is, with a peer outside the job, with no bytes and with some. -/
def collOk (full : Bool) (op : CollOp) (ty : Ty) (mode peer n : Nat) (ok : List CollReq → Word → Bool) : Bool :=
  let s := onSlices (jobbed 1) fun x =>
    { collSlice peer n x with supC := { x.supC with log := if full then List.replicate 16 (0, []) else [] }, wait := if full then .coll else x.wait }
  match s.issuing with
  | none => false
  | some (b, l) =>
    let t := s.modBlock b.uid fun y => y.putSlices (collHeld l)
    match t.block? b.uid with
    | none => false
    | some b' =>
      let group := t.groupOf b' (l.headD default)
      let w := collPair (.s 8) (group.headD default)
      let reqs := collReqs t b' g op (.v 2) (.v 4) (.s 8) group
      !(s.lrOf b).det && (s.retireEv b l 1).isNone && !l.all (fun x => x.again .c) && (group.any fun x => !x.handling && x.supC.full) == full && group.all (fun x => x.wait == .coll && !x.again .c) && collAgree (.s 8) group &&
        (let skew := bitsOf w.2.toNat 0 40 % (1024 * elemSize ty) != 0 || (caddrOf w.1).addr % elemSize ty != 0
         (t.collCheck (t.lrOf b').ctx false (t.lrOf b').slotBytes op ty mode (bitsOf w.2.toNat 50 6) (collForm w.1 w.2) skew reqs).isNone) &&
        ok reqs w.2

/-- CollectivesComplete: slices of a released group that hold different values of C; an RSEND of another mode than its job's. -/
theorem test_witness_coll_events :
    ((let s := onSlices twoGangs fun x => { sregs [(8, BitVec.ofNat 64 x.num)] x with wait := if x.num = 1 then .coll else .none }
      match s.issuing with
      | none => false
      | some (b, l) =>
        let t := s.modBlock b.uid fun y => y.putSlices (collHeld l)
        !(s.lrOf b).det && (s.retireEv b l 1).isNone && !l.all (fun x => x.again .c) &&
        match t.block? b.uid with
        | none => false
        | some b' =>
          let group := t.groupOf b' (l.headD default)
          group.all (fun x => x.wait == .coll && !x.again .c) && !collAgree (.s 8) group) &&
     ((jobbed 1).collCheck 0 false 0 .rsend .f32 1 63 true false []).isSome && meetsDet here 1 (fun _ _ _ => true)) = true := by decide +kernel

theorem test_witness_coll :
    (collOk false .send .none 0 2 8 (fun r _ => r.any fun x => !((jobbed 1).job 63).list.contains x.peer) &&
     collOk false .get .none 0 1 0 (fun r w => !(r.any fun x => !((jobbed 1).job 63).list.contains x.peer) && bitsOf w.toNat 0 40 == 0) &&
     collOk false .mcast .none 0 1 8 (fun r w => r != [] && bitsOf w.toNat 0 40 != 0) && collOk true .mcast .none 0 1 8 (fun _ _ => true) &&
     collOk false .rsend .f32 2 0 4096 (fun r w => r != [] && bitsOf w.toNat 0 40 != 0) &&
     (match twoGangs.issuing with
      | none => false
      | some (b, l) =>
        let t := twoGangs.modBlock b.uid fun y => y.putSlices (collHeld l)
        !((t.groupOf b (l.headD default)).all fun x => x.wait == .coll && !x.again .c))) = true := by decide +kernel

/-- A descriptor of an instance of job 63, at 192G + 4K, and its list. -/
def described : State :=
  poked (poked (onSlices (jobbed 0) (sregs [(6, 0x3000001000)])) (t1Key true 0x1000) [0x0002_023F, 0x3000002000]) (t1Key true 0x2000) [0x0001_0000]

/-- CollectivesComplete: CINST.START of an instance that may open, CINST.QUERY of the last job, a collective that may begin and one
that has sent; an RSEND that waits for the flags of another module's chunk. -/
theorem test_witness_instances :
    (meets described 1 (fun s b l =>
      let va (x : Slice) : Nat := (svalOf (s.envOf b x) x (.s 6)).toNat
      !(cinstTodo g l).any (fun x => s.anyBlocked (s.lrOf b).ctx (s.cinstReads b x (va x))) &&
      (cinstTrap s g va b l).isNone && (cinstFull g l).isNone &&
      (((cinstTodo g l).foldl (cinstOne (.s 2) va b) s).takers g b l).all (fun x => x.wait == .made)) &&
     meets (withS [(4, 63)]) 1 (fun s b l => l.all fun x => (svalOf (s.envOf b x) x (.s 4)).toNat ≤ 63 && !x.supC.full) &&
     [false, true].all fun sent =>
       let x : CollCmd := { op := .send, ty := .none, mode := 0, job := 63, inst_ := 5, sent, st := 0, moved := 0
                            lanes := [{ peer := 1, remote := 0x1000, loc := ⟨false, 0x3000008000⟩, len := 8, bytes := [] }] }
       let s : State := { jobbed 1 with cmds := [command (.coll x)] }
       s.collReady (command (.coll x)) x && (s.copyRoom (s.ownerOf (command (.coll x))) (s.collWrites (s.ownerOf (command (.coll x))) x)).isEmpty &&
         !s.collAwaits x .ok &&
         (let y : CollCmd := { x with op := .rsend, ty := .f32, mode := 2, lanes := [{ peer := 1, remote := 0x1000000, loc := ⟨false, 0x3000008000⟩, len := 4096, bytes := [] }] }
          !s.flagsHere y && y.st != 1 && y.st != 3)) = true := by decide +kernel

/-- The same with a page of switch memory. -/
def onSwitch : State :=
  let t := (jobbed 2).setCtx 0 fun c => { c with swwinB := 0x1000000, swwinS := 0x4000 }
  { t with
    fabric := { t.fabric with allocs := [anAlloc], ports := t.fabric.ports.modify 0 fun p => { p with up := true } }
    fw := { t.fw with windows := { Place.window with tgt := 4, peerR := true, peerW := true, peers := [0, 1] } :: t.fw.windows } }

/-- CollectiveTrafficIsHandled: a chunk that its sender may write, with no page or span to wait for. -/
theorem test_witness_chunk :
    (onSwitch.chunkAllowed 63 5 1 0x1000000 .f32 && (onSwitch.chunk? 63 5 0x1000000).isNone && (onSwitch.job 63).list[1]? == some 1 && (onSwitch.rangeWait 0 (onSwitch.chunkWrites 63 5 0x1000000 .f32)).isNone) = true := by
  decide +kernel

/-- CollectiveTrafficIsHandled: instances that are open (CUR and the one before it) and the next one; what the open one needs. -/
theorem test_witness_traffic :
    (let s := jobbed 2
     let j := s.job 63
     j.bound && j.accepts 5 && j.accepts 4 && !j.accepts 6 && 6 == seqAdd j.cur 1 && !j.heard 1 5 && j.opened != 0 && j.digest == 0 && (1 : BitVec 32) != j.digest &&
     decide (1 < j.nmem) && j.list[1]? == some 1 &&
     (j.list.findSome? fun src => s.landingAt j.ctx src (0x5000000000 + 2 ^ 20) 64) == some (2, 0, 0) &&
     s.peerRange j.ctx 1 0x3000001000 8 true && (s.rangeWait j.ctx (vaAddrs 0x3000001000 8)).isNone && s.peerRange j.ctx 1 0x3000001000 8 false &&
     !s.copyHeld (engineOf j.ctx) (vaAddrs 0x3000001000 8) && !s.vaPoison j.ctx 0x3000001000 8 && !((jobbed 0).job 62).bound) = true := by decide +kernel

def aLanding : Landing := { id := 70, orig := ⟨1, 4, 8⟩, job := 63, block := 2, share := 0, off := 0, len := 1, num := 1 }

/-- CollectiveTrafficIsHandled: a physical access that a window admits and one that none does, to a frozen page, to poison, and one
served before. -/
theorem test_witness_peer_requests :
    (let p := peerPhys 0x1000
     peered.peerAdmits 1 p 8 true && !peered.peerAdmits 2 p 8 true &&
     ({ peered with mem := { peered.mem with frozen := [frozenPage p] } } : State).mem.frozen.contains (frozenPage p) &&
     !peered.mem.frozen.contains (frozenPage p) && !peered.poisoned p 8 && peered.fabric.landings.isEmpty &&
     !onSwitch.hasExp 63 5 0x1000000 1 && (peered.job 63).flagged.isEmpty &&
     ({ peered with mem := { peered.mem with poison := [t1Key (Pte.sl p.pte) 0x1007] } } : State).poisoned p 8 &&
     peered.fabric.served == [] && peered.fabric.stopped == [] && (atomNew .n64 .add 1 2 0 == 3)) = true := by decide +kernel

/-! ## Witnesses: the system instructions and exceptions -/

/-- SystemInstructionsComplete. -/
theorem test_witness_system :
    (sends (withS [(4, 0x3000001000), (6, 63)]) 1 .c (dstOf (.s 2))
       (fun s b x => launchBad s (s.lrOf b).ctx (s.lrOf b).det (Opd.negSmall (.s 6)) (svalOf (s.envOf b x) x (.s 4)) (svalOf (s.envOf b x) x (.s 6)))
       (argsOf [.s 4, .s 6]) (fun _ => sendLaunch (dstOf (.s 2))) &&
     sends (withS [(4, 1)]) 1 .c none (fun s b x => evopBad (s.lrOf b).det (Opd.negSmall (.small 19)) (svalOf (s.envOf b x) x (.small 19)))
       (argsOf [.small 19, .s 4]) (fun _ => sendEvop true) &&
     sends (withS [(4, 1)]) 1 .c none (fun s b x => evopBad (s.lrOf b).det (Opd.negSmall (.small 19)) (svalOf (s.envOf b x) x (.small 19)))
       (argsOf [.small 19, .s 4]) (fun _ => sendEvop false) &&
     meets here 1 (fun s b l => l.all fun x => (evopBad false (Opd.negSmall (.small 19)) (svalOf (s.envOf b x) x (.small 19))).isNone) &&
     meets (withS [(4, 65536), (5, 0x01FFFFFFFFFFFFF8), (6, 256)]) 1 (fun s b l => l.all fun x =>
       decide ((svalOf (s.envOf b x) x (.s 4)).toNat ≤ 65536) && decide (256 ≤ (svalOf (s.envOf b x) x (.s 6)).toNat) &&
       decide ((svalOf (s.envOf b x) x (.s 5)).toNat < 2 ^ 57) && (svalOf (s.envOf b x) x (.s 5)).toNat % 8 == 0) &&
     (match here.issuing with | some (_, l) => !(acting g l).isEmpty | none => false)) = true := by decide +kernel

/-- SystemInstructionsComplete: SLEEP of no time, one that has slept, one that begins; ERET in a handler; a sleep that is over. -/
theorem test_witness_sleep :
    (meets here 1 (fun s b l => l.all fun x => (svalOf (s.envOf b x) x (.small 16)).toNat % 2 ^ 32 == 0 && x.wait == .none) &&
     meets (onSlices here fun x => { x with wait := .sleep 0 }) 1 (fun _ _ l => l.all fun x => x.wait == .sleep 0) &&
     meets here 1 (fun s b l => l.any fun x => x.part_ g != 0 && x.wait == .none && (svalOf (s.envOf b x) x (.small 17)).toNat % 2 ^ 32 != 0) &&
     (match (onSlices here fun x => { x with handling := true }).issuing with
      | some (b, l) => l.all (fun x => x.handling) && l.length == 1 && b.slices == l && l.all (fun x => x.part_ g != 0) &&
          !branching.noHeader 0 (BitVec.ofNat 57 (Place.code + 24))
      | none => false) &&
     (match (onSlices here fun x => { x with wait := .sleep here.cycle }).block? 2 with
      | some b => (b.slice? 0).any fun x => x.wait == .sleep here.cycle
      | none => false)) = true := by decide +kernel

/-- A gang with a handler, a header where its vector points. -/
def handled (a : VA) : State := onSlices branching fun x => { x with trapvec := a }

/-- ExceptionsAreTakenAndLeft and FaultRecordsAreKept: a reporter, with and without a handler, at a header and at another word. -/
theorem test_witness_exceptions :
    ([handled 0, handled (BitVec.ofNat 57 (Place.code + 24)), handled (BitVec.ofNat 57 (Place.code + 16))].all (fun s =>
       match s.issuing with
       | some (b, l) => ((Ev.of 0x06).reporter l).isSome && l.all (fun x => !x.handling) && decide ((b.slices.map (fun x => x.num)).Nodup) &&
           decide ((s.lrOf b).ctx < s.ctxs.length)
       | none => false) &&
     (let a := Place.code + 24
      let s := handled (BitVec.ofNat 57 a)
      let f : State := match s.phys? 0 a with | .ok p => { s with mem := { s.mem with frozen := [frozenPage p] } } | .error _ => s
      f.vaBlocked 0 a 8 && !s.vaBlocked 0 a 8) &&
     headerAt branching (BitVec.ofNat 57 (Place.code + 24)) true && headerAt branching (BitVec.ofNat 57 (Place.code + 16)) false) = true := by decide +kernel

/-! ## Witnesses: the scheduler and the host -/

/-- DeterministicRoundsComplete: a quantum that is over, a round whose quanta have ended, a synchronising operation, and no more. -/
theorem test_witness_rounds :
    ((match inRounds.block? 2 with
      | none => false
      | some b =>
        (inRounds.lrOf b).det && (b.gangSlices 3).all (fun x => x.qphase == .running && x.stop == .none) && !inRounds.halted b &&
        (let l := (b.gangSlices 3).map fun x => { x with quantum := 4096 }
         inRounds.quantumOver b l)) &&
     [QPhase.ended, QPhase.atSerial].all (fun q =>
       match (onSlices inRounds fun x => { x with qphase := q }).block? 2 with
       | none => false
       | some b => b.roundOver && b.round != .serial && b.slices.all (fun x => x.buf == [] && x.wait == .none) &&
           (inRounds.commitAll 2 b.slices).1 && !inRounds.unitsBusy 2 && b.nextSerial.isSome == (q == .atSerial))) = true := by decide +kernel

def entry (pos : Nat) (checked : Bool) (age : Option Nat) : HqEntry :=
  { pos, addr := 0x3000001000, graph := none, checked, rcd := Place.rcd, age }

/-- A queue 5 of context 0, in this state, with these entries. -/
def queue (st : HqState) (es : List HqEntry) : State := (pagedS []).modHq 5 fun h => { h with bound := true, st, entries := es, next := es.length }

/-- A launch record at 192G + 4K that is accepted. -/
def recorded (es : List HqEntry) : State :=
  poked (queue .running es) (t1Key true 0x1000) [0x1000010000, 0, 0x0202_0000_0000, 0x4000_0038_0404, 1, 0x1_0001]

/-- QueueOperationsComplete: a queue with room for one record more, one that is not bound, a full one and one whose next place of the ring is still held, a head to be checked, an entry that may go on. -/
theorem test_witness_queues :
    (here.hostOpen && ((queue .idle []).hq 5).bound && !(((queue .idle []).modHq 5 fun h => { h with bound := false }).hq 5).bound && decide ((List.replicate 1023 (entry 0 true none)).length < 1024) &&
     decide (1024 ≤ (List.replicate 1024 (entry 0 true none)).length) && !(queue .idle []).posTaken 5 0 &&
     ((queue .idle [entry 0 true none]).modHq 5 fun h => { h with next := 0 }).posTaken 5 0 && decide (5 < here.sched.hqs.length) &&
     ((queue .stopped [entry 0 true none]).hq 5).st == .stopped && ((queue .stopped [entry 0 true none]).hq 5).entries == [entry 0 true none] &&
     (let s := recorded [entry 0 false none]
      (s.hq 5).st == .running && s.nextCheck 5 == some (entry 0 false none) && s.kindOf (entry 0 false none) == 1 &&
      (match s.recBytes 0 (entry 0 false none) with
       | some bs => s.recCode 0 bs == 0 && s.recCode 1 bs != 0
       | none => false)) &&
     (let s := queue .running [entry 0 true none]
      (((s.hq 5).entries.take 64).find? fun x => x.pos == 0) == some (entry 0 true none) && s.firstEntering == some (5, 0))) = true := by decide +kernel

/-- A launch of one unit that has not been placed. -/
def unplaced : State :=
  ((queue .running []).modLaunch 1 fun l => { l with nextUnit := 0 }).modHq 0 fun h => { h with bound := true, st := .running }

def aCopyNode : GNode :=
  { kind := 2, hq := 5, wait := 0, set := 0, running := false
    payload := [1, 0, 0, 0, 0, 0, 0, 0] ++ leBytes 8 0x3000004000 ++ leBytes 8 0x3000005000 ++ leBytes 8 8 ++ List.replicate 32 0 }

def graphed (k : List Kick) (n : GNode) : State :=
  let s := queue .running [{ entry 0 true (some 9) with graph := some (7, 0) }]
  { s with sched := { s.sched with graphs := [{ slot := 7, ctx := 0, nodes := [n], kicks := k, kickReg := 0 }] } }

/-- NodesAndUnitsComplete: a launch record and a copy node in the pool, a unit that fits, one that does not, a launch that is over. -/
theorem test_witness_nodes :
    (let s := queue .running [entry 0 true (some 9)]
     (s.pool.find? fun x => x.1 == 5 && x.2.pos == 0).isSome && s.fcpOn && s.firstEntering.isNone && s.pool.all (fun y => !s.nodeBefore y (5, entry 0 true (some 9))) &&
     s.kindOf (entry 0 true (some 9)) == 1 && !s.dispatchHeld (5, entry 0 true (some 9)) &&
     (let t := graphed [] aCopyNode
      (t.pool.find? fun x => x.1 == 5 && x.2.pos == 0).isSome && t.firstEntering.isNone && !t.dispatchHeld (5, { entry 0 true (some 9) with graph := some (7, 0) }) && (t.nodeOf { entry 0 true (some 9) with graph := some (7, 0) }) == some aCopyNode &&
      copyNodeOk aCopyNode.payload && ((t.flagEv 0 (field aCopyNode.payload 40 8)).filter fun e => e.code != 0x04).isNone && (match t.packetCmd 0 aCopyNode.payload with | .ok (some _) => true | _ => false)) &&
     (let u := unplaced.modLaunch 1 fun l => { l with rcd := { l.rcd with sreg := 4 } }
      match u.launch? 1 with
      | none => false
      | some l =>
        match l.nextPlace with
        | none => false
        | some w => u.wantsRoom l && !u.higher l &&
          (match u.fitUnit l w [4] with | none => false | some (_, ts) => (u.dark ts).isEmpty && !u.badImage w) &&
          (u.fitUnit l w [4096]).isNone) &&
     (((here.modLaunch 1 fun l => { l with blocksLeft := 0 }).launch? 1).any fun l => l.blocksLeft == 0)) = true := by decide +kernel

/-- NodesAndUnitsComplete: a bank of the place in retention, and no place at all. -/
theorem test_witness_no_room :
    (let u := unplaced.modLaunch 1 fun l => { l with rcd := { l.rcd with sreg := 4 } }
     match u.launch? 1 with
     | none => false
     | some l =>
       match l.nextPlace with
       | none => false
       | some w =>
         (match u.fitUnit l w [4] with
          | none => false
          | some (_, ts) => !(({ u with fw := { u.fw with banks := [(1, 0, .retention), (1, 1, .retention), (1, 2, .retention), (1, 3, .retention),
            (1, 4, .retention), (1, 5, .retention), (1, 6, .retention), (1, 7, .retention)] } } : State).dark ts).isEmpty) &&
         (({ u with fw := { u.fw with coresOff := List.range Config.cores } } : State).freePlaces l).isNone &&
         (({ u with fw := { u.fw with coresOff := List.range Config.cores } } : State).fitUnit l w [4]).isNone) = true := by decide +kernel

/-- PreemptionsComplete: a save and a flush under way, nothing in flight; a bucket with a capacity; a unit that may flush. -/
theorem test_witness_preempt :
    ([PreAct.save, .flush].all (fun a =>
       let s := { here with sched := { here.sched with preempts := [{ launch := 1, unit := 0, act := a, addr := 0, room := 0 }] } }
       (s.leaving 1 0).any (fun p => p.act == a) && (s.launch? 1).isSome && s.settled ((s.unitOf 1 0).map fun b => b.uid)) &&
     decide (0 < ({ cap := 5, rate := 3, level := 4 } : Bucket).cap) && decide ((4 : Int) - (0 : Nat) < 5)) = true := by decide +kernel

/-- A graph object of one empty node at 192G + 4K. -/
def uploadable : State :=
  poked (poked (queue .running []) (t1Key true 0x1000) [0x1_4641_5247, 0, 128, 0, 0x504, 0x3000002000]) (t1Key true 0x1070) [64]

/-- GraphOperationsComplete: an object that is a graph and one that is not, a graph that is idle and one that is not, a table with no
patch, one that is misaligned, and four kicks. -/
theorem test_witness_graphs :
    ([0x3000001000, 0x3000001040].all (fun a => !(uploadable.uploadReads a).any (fun x => uploadable.anyBlocked x.1 x.2) &&
       isOk (((uploadable.uploadReads a).foldl (fun (s : State) x => s.readsAll x.1 x.2) uploadable).upload a) == (a == 0x3000001000)) &&
     [0, 0x3000001008].all (fun t => !uploadable.anyBlocked 0 (uploadable.tableReads 0 t)) &&
     (match uploadable.upload 0x3000001000 with | .ok _ => true | .error _ => false) && uploadable.freeGraph == some 0 &&
     (match uploadable.upload 0x3000001040 with | .ok _ => false | .error _ => true) &&
     (let k : Kick := { patches := [], applied := false, node := 0 }
      (match (graphed [] aCopyNode).graph? 7, (graphed [k, k, k, k] aCopyNode).graph? 7 with
       | some a, some b => a.kicks.length < 4 && 4 ≤ b.kicks.length && (uploadable.patchTable a 0).isSome && (uploadable.patchTable a 0x3000001008).isNone &&
           a.nodes.all fun n => !n.running
       | _, _ => false)) && (match uploadable.upload 0x3000001000 with | .ok (c, l) => !({ slot := 0, ctx := c, nodes := l, kicks := [], kickReg := 0 } : Graph).busy | _ => false) &&
     ({ slot := 0, ctx := 0, nodes := [{ aCopyNode with running := true }], kicks := [], kickReg := 0 } : Graph).busy) = true := by decide +kernel

def aRecord : Outstanding :=
  { id := 0xFFFF, slot := some 0, addr := 0, cause := 0x05, source := 0, block := 0, place := 0, rcnt := 0, src := .gang 2 0 false }

/-- HostRegistersComplete: an outstanding record; the last queue, context and kick register; the module in recovery. -/
theorem test_witness_host :
    (here.hostOpen && ((here.setCtx 0 fun c => { c with ring := [aRecord] }).record? 0 0xFFFF).isSome &&
     decide (0x10_0000 + 64 * 63 + 24 < 0x10_1000) && decide (0x10_2000 + 8 * 255 < 0x10_4000) && decide (0x10_4000 + 8 * 63 < 0x20_0000) &&
     decide (0x20_0000 + 256 * 0 + 160 < 0x20_0000 + 256 * 1) &&
     !({ here with fw := { here.fw with bootst := 0xBAD0 } } : State).hostOpen) = true := by decide +kernel

/-! ## Witnesses: the module and its surroundings -/

/-- MemoryEventsAndHostAccesses: the last bank, one that a block holds; an L2 way in retention, and a line that one holds; a copy at fault; a task at fault; windows for the host. -/
theorem test_witness_memory_events :
    (here.bankIdle (Config.cores - 1) 15 && decide (Config.cores - 1 < Config.cores) &&
     here.tenants.all (fun t => t.core != Config.cores - 1 || apart t.slot (0, 1)) &&
     (here.setBank (l2Of 3) 0 .retention).fw.banks.contains (l2Of 3, 0, .retention) && !here.fw.banks.contains (l2Of 3, 0, .retention) &&
     isCached (t2Key 0) && ((here.mem.poke (t2Key 0) 1).line? (lineOf (t2Key 0))).isSome &&
     (let c := command (.copy 0x3000001000 0x0100000000000000 8)
      let s := { pagedS [] with cmds := [c] }
      (s.cmdEv c).1.isSome && (s.cmds.find? (fun x => x.id == c.id)).isSome && c.hold.isNone) &&
     (let s := { withObject with tasks := [tasked true], mem := { withObject.mem with poison := [opmKey (2 ^ 20)] } }
      (s.taskSlice (tasked true)).isSome && (s.taskEv (tasked true)).isSome) &&
     here.hostMay (2 ^ 37 - 8) 8 true && !here.hostMay (2 ^ 37 - 7) 8 true && here.hostMay 0 8 false && (t1Key false 0) ∉ here.mem.poison) = true := by decide +kernel

/-- A port that is up, with an active slot, its peer's flit expected next. -/
def linked (limit ctr : Nat) (other : SlotState) : Port :=
  let k : KeySlot := { st := .active, key := List.replicate 32 0, salt := 0, limit, ctr, marker := none }
  { Port.reset with up := true, tx := [k, { k with st := other }], rx := [k, .reset] }

def aFlit (seq : BitVec 12) : Flit :=
  let f : Flit := { kind := 2, slot := false, vc := 0, resv := 0, seq, ack := 0, nak := false, ctr := 0, payload := List.replicate 216 0, tag := [], crc := 0 }
  let f := { f with tag := Config.gcmTag (List.replicate 32 0) 0 0 (Flit.head f) f.payload }
  { f with crc := Flit.sum f }

/-- LinksAndLossesComplete: a flit that passes, and one that cannot. -/
theorem test_witness_flit (seq : BitVec 12) : (linked 8 0 .empty).passes (aFlit seq) = true ∧ (linked 8 0 .empty).passes { aFlit seq with kind := 6 } = false := by
  constructor
  · have h : (aFlit seq).crc = Flit.sum (aFlit seq) := rfl
    have k : (aFlit seq).tag = Config.gcmTag (List.replicate 32 0) 0 0 (Flit.head (aFlit seq)) (aFlit seq).payload := rfl
    have e : (linked 8 0 .empty).rxSlot (aFlit seq).slot =
      { st := .active, key := List.replicate 32 0, salt := 0, limit := 8, ctr := 0, marker := none } := rfl
    have n : (aFlit seq).payload.length = 216 := List.length_replicate
    simp only [Port.passes, e, ← h, show (aFlit seq).ctr = 0 from rfl, ← k, beq_self_eq_true, Bool.and_true, n,
      show (aFlit seq).kind = 2 from rfl, show (aFlit seq).resv = 0 from rfl, show (aFlit seq).vc = 0 from rfl]
    decide
  · simp [Port.passes]

/-- LinksAndLossesComplete: empty and ready slots, a limit reached with a slot ready and without, a draining slot past its limit. -/
theorem test_witness_links :
    ((Port.reset.txSlot false).st == .empty && decide (0 < here.fabric.ports.length) && (List.replicate 32 (0 : Byte)).length == 32 && here.rootOn &&
     (activate false [{ KeySlot.reset with st := .ready }, .reset]).isSome && !(activate true [{ KeySlot.reset with st := .ready }, .reset]).isSome && activeOf (linked 8 8 .ready).tx == some false &&
     decide (((linked 8 8 .ready).txSlot false).limit ≤ ((linked 8 8 .ready).txSlot false).ctr) && ((linked 8 8 .ready).txSlot true).st == .ready &&
     ((linked 8 8 .empty).txSlot true).st != .ready &&
     (linked 8 (2 ^ 16 + 9) .draining).tx.any (fun k => k.st == .draining && decide (k.limit + 2 ^ 16 < k.ctr))) = true := by decide +kernel

/-- LinksAndLossesComplete: a peer that is not lost and one that is; a last link and one before it. -/
theorem test_witness_losses :
    (here.fabric.notices.isEmpty && here.epochOf 1 == 0 && !here.fabric.lostPeers.contains 1 && here.fabric.devno.toNat != 1 &&
     (let s := { here with fabric := { here.fabric with epochs := [(1, 1), (2, 1)], linkReports := (List.range 15).map fun k => (1, k) } }
      ((List.range 16).all fun j => s.known.any fun x => (x != 1 || j != 14) && !s.fabric.linkReports.contains (x, j)) && (List.range 15).all (fun k => s.fabric.linkReports.contains (1, k)) &&
      !s.fabric.linkReports.contains (2, 14))) = true := by decide +kernel

/-- FirmwareOperationsComplete: waiting for a service image, running, in reset; the last leaf and one past it. -/
theorem test_witness_firmware :
    (({ here with fw := { here.fw with bootst := 0x5EF0 } } : State).rootOn && here.rootOn && here.fw.bootst == 0x600D && !State.reset.rootOn &&
     (List.replicate 32 (0 : Byte)).length == 32 && decide (2 ^ 20 - 1 < 2 ^ 20)) = true := by decide +kernel

/-! ## Witnesses: the machine as a whole -/

/-- StepRunsTheDecodedInstruction: a placed word and a word of no instruction, the gang ready. -/
theorem test_witness_step :
    ([word 0 0 0 0 0x1FF 0x1FF 0x1FF 0x1FF 0, word 0x0C 0 0 0 0 0 0 0 0].all fun w =>
      let s := State.reset.withFetchWord 64 w
      let t := { s with cycle := s.cycle + 1, fresh := s.fresh + 1, agenda := [] }
      s.agenda == [.gang 2 3] && (match s.blocks.find? (fun y => y.uid == 2) with
        | none => false
        | some b =>
          match b.gangSlices 3 with
          | [] => false
          | x :: l => t.mayTurn b 3 && !t.fetchHeld b (x :: l) && (x :: l).all (fun y => y.hword.isSome) && x.pc != x.blockEnd &&
              (match s.fetchWord 0 x.pc.toNat with | .ok v => v == BitVec.ofNat 64 w | .error _ => false))) = true := by decide +kernel

/-- StepRunsTheDecodedInstruction: v200 in a block of LIVE 256 and, for another slice of the gang, in one of LIVE 8; an instruction
that raises OWN. -/
theorem test_witness_mixed :
    (let w := word 0x10 5 0 0 1 2 200 0x1FF 0
     let s := (State.reset.withFetchWord 64 w).modBlock 2 fun b =>
       { b with slices := b.slices ++ b.slices.map fun x => { x with num := 1, hword := some (hdrWord 7 1 false ||| (8 <<< 39)) } }
     let i : Instr := .sysw g .trapcause (.s 4)
     (match s.blocks.find? (fun y => y.uid == 2) with
      | none => false
      | some b => s.mayTurn b 3 && (b.gangSlices 3).map (fun x => isOk (decodeAt x.live 64 (BitVec.ofNat 64 w) none)) == [true, false]) &&
     !i.own && i.extWord.isNone && (match here.issuing with | some (_, l) => l.any fun y => y.part_ i.guard != 0 | none => false)) = true := by
  decide +kernel

/-- MemoryStaysCanonical: reset's memory and a placed instruction's. -/
theorem test_witness_memory : (State.reset.mem.wf && here.mem.wf) = true := by decide +kernel

end Sys2Proof.Tests
end

section
/-! PROOFS. The encoding (R27 to R57): the round trip of every instruction, and what a word that decodes or is refused is. -/

namespace Sys2Proof.Laws.RoundTrip

/-- Every instruction's own round trip, by its constructor; an event has no words. -/
theorem statement_all (i : Instr) : Statement i := by
  cases i with
  | nop g => exact nop g
  | bra g off => exact bra g off
  | brp g c p off => exact brp g c p off
  | brx g a => exact brx g a
  | call g d off => exact call g d off
  | ret g a => exact ret g a
  | loop g l a off => exact loop g l a off
  | lbrk g l => exact lbrk g l
  | regang g => exact regang g
  | yield g => exact yield g
  | exit g => exact exit g
  | vote g op d a => exact vote g op d a
  | iadd g ty sat op d a b c => exact iadd g ty sat op d a b c
  | imul g ty sat op d a b => exact imul g ty sat op d a b
  | imad g ty sat op d a b c => exact imad g ty sat op d a b c
  | iminmax g ty op d a b => exact iminmax g ty op d a b
  | logic g ty tt d a b c => exact logic g ty tt d a b c
  | shift g ty op d a b c => exact shift g ty op d a b c
  | bits g ty op d a => exact bits g ty op d a
  | bfx g ty op d a b c => exact bfx g ty op d a b c
  | icmp g ty c d a b => exact icmp g ty c d a b
  | sel g ty d a b c => exact sel g ty d a b c
  | mov g ty d a => exact mov g ty d a
  | lea g k d a b c => exact lea g k d a b c
  | hashCrc32c g ty d a b => exact hashCrc32c g ty d a b
  | hashMix64 g ty d a b => exact hashMix64 g ty d a b
  | partRadix g ty d a c => exact partRadix g ty d a c
  | partRange g ty d a b c => exact partRange g ty d a b c
  | lane g ty gang op d a b => exact lane g ty gang op d a b
  | pred g op d a b => exact pred g op d a b
  | fadd g ty r diff d a b => exact fadd g ty r diff d a b
  | fmul g ty r d a b => exact fmul g ty r d a b
  | ffma g ty r op d a b c => exact ffma g ty r op d a b c
  | fminmax g ty op d a b => exact fminmax g ty op d a b
  | fcmp g ty c d a b => exact fcmp g ty c d a b
  | fclass g ty d a => exact fclass g ty d a
  | fapx g ty fn d a => exact fapx g ty fn d a
  | fcvt g ty r src d a => exact fcvt g ty r src d a
  | fadd2 g ty d a b => exact fadd2 g ty d a b
  | fmul2 g ty d a b => exact fmul2 g ty d a b
  | ffma3 g ty d a b c => exact ffma3 g ty d a b c
  | xadd g ty wd wa wb d a b => exact xadd g ty wd wa wb d a b
  | xadds g ty wd wa d a b => exact xadds g ty wd wa d a b
  | xmuls g ty wd wa d a b => exact xmuls g ty wd wa d a b
  | xrenorm g ty wd wa d a => exact xrenorm g ty wd wa d a
  | xcomp g ty wa d a => exact xcomp g ty wa d a
  | xcmp g ty c wa wb d a b => exact xcmp g ty c wa wb d a b
  | xcvt g ty wd wa src d a => exact xcvt g ty wd wa src d a
  | setfmt g a => exact setfmt g a
  | getfmt g d => exact getfmt g d
  | qcvt g ty src d a => exact qcvt g ty src d a
  | qdec g ty dst d a => exact qdec g ty dst d a
  | renc g ty d a b => exact renc g ty d a b
  | rmac g ty d a b c => exact rmac g ty d a b c
  | rdec g dst d a b => exact rdec g dst d a b
  | spack g ty n d a => exact spack g ty n d a
  | ld g ty sc k d a b c => exact ld g ty sc k d a b c
  | st g ty sc k a b c => exact st g ty sc k a b c
  | lds g ty d a b => exact lds g ty d a b
  | sts g ty a b c => exact sts g ty a b c
  | ldw g ty sc g4 d a b c => exact ldw g ty sc g4 d a b c
  | stw g ty sc g4 a b c => exact stw g ty sc g4 a b c
  | stsplit g ty sc a b c => exact stsplit g ty sc a b c
  | ldsplit g ty sc d a b => exact ldsplit g ty sc d a b
  | pref g k a b => exact pref g k a b
  | cmaint g sc k a b => exact cmaint g sc k a b
  | waitp g path a => exact waitp g path a
  | xlat g d a => exact xlat g d a
  | fence g sc k => exact fence g sc k
  | bar g lv => exact bar g lv
  | barArrive g lv => exact barArrive g lv
  | barWait g lv => exact barWait g lv
  | barArrivedrop g lv => exact barArrivedrop g lv
  | tlwait g t b => exact tlwait g t b
  | tlread g t d b => exact tlread g t d b
  | qend g => exact qend g
  | dsync g => exact dsync g
  | atom g ty op sc d a b c => exact atom g ty op sc d a b c
  | redm g ty op sc a b => exact redm g ty op sc a b
  | atomc g sc d a b => exact atomc g sc d a b
  | atomw g ty n sc d a b c => exact atomw g ty n sc d a b c
  | append g d a b => exact append g d a b
  | skopEnq g d a b => exact skopEnq g d a b
  | skopChase g d a b c => exact skopChase g d a b c
  | mzero g d => exact mzero g d
  | memit g main d a b c => exact memit g main d a b c
  | msave g a b => exact msave g a b
  | mload g d a => exact mload g d a
  | mbobjInit g a b c => exact mbobjInit g a b c
  | mbobjArrive g a b => exact mbobjArrive g a b
  | mbobjWait g a b => exact mbobjWait g a b
  | qpostTask g a => exact qpostTask g a
  | cpy g d a b c => exact cpy g d a b c
  | cpyt g ty cb d a => exact cpyt g ty cb d a
  | cbook g d a => exact cbook g d a
  | qpost g d a b => exact qpost g d a b
  | mred g a => exact mred g a
  | mcmp g ty r op a => exact mcmp g ty r op a
  | spanctlCap g a b => exact spanctlCap g a b
  | spanctlPol g a b => exact spanctlPol g a b
  | spanctlEvict g a => exact spanctlEvict g a
  | spanq g d a => exact spanq g d a
  | spanfet g d a b => exact spanfet g d a b
  | salloc g dup d a b => exact salloc g dup d a b
  | sfree g d a => exact sfree g d a
  | collSend g d a b c => exact collSend g d a b c
  | collGet g d a b c => exact collGet g d a b c
  | collRsend g ty m d a b c => exact collRsend g ty m d a b c
  | collMcast g d a b c => exact collMcast g d a b c
  | cinstStart g d a => exact cinstStart g d a
  | cinstQuery g d a => exact cinstQuery g d a
  | launch g d a b => exact launch g d a b
  | evopSet g a b => exact evopSet g a b
  | evopClr g a b => exact evopClr g a b
  | evopTest g d a b => exact evopTest g d a b
  | sysr g r d => exact sysr g r d
  | sysw g r a => exact sysw g r a
  | trap g n => exact trap g n
  | eret g => exact eret g
  | sleep g a => exact sleep g a
  | _ => exact of_event rfl

end Sys2Proof.Laws.RoundTrip

namespace Sys2Proof

/-- What the decoder answers with has the word's fields for its own, and passes checks 8 to 10. -/
theorem decodeAt_ok {live accn : Nat} {w : Word} {next : Option Word} {i : Instr} (h : decodeAt live accn w next = .ok i) :
    i.parts = some (Parts.ofWord w) ∧ i.check live accn = none := by
  unfold decodeAt at h
  simp only at h
  split at h
  · cases h
  · split at h
    · cases h
    · split at h
      · cases h
      · next hp =>
        split at h
        · cases h
        · next hc =>
          split at h
          · cases h
          · cases h
            exact ⟨not_not.mp hp, hc⟩

/-- The first word of what has a word's fields is that word. -/
theorem encode_head_of_parts {i : Instr} {w : Word} (h : i.parts = some (Parts.ofWord w)) : (encode i).head? = some w := by
  simp only [encode, h, List.head?_cons, Parts.toWord_ofWord]

/-- A word whose fields fail one of the checks 3 to 7 is refused under that check. -/
theorem decodeAt_of_check {w : Word} {n : Nat} (h : (Parts.ofWord w).check = some n) (live accn : Nat) (next : Option Word) :
    decodeAt live accn w next = .error n := by
  simp only [decodeAt, h]

/-- An OPC outside the map fails check 3. -/
theorem Parts.check_of_rowOf_none {p : Parts} (h : rowOf p.opc.toNat = none) : p.check = some 3 := by
  simp only [Parts.check, h]

/-- The OPC values that R54 lists as unassigned. -/
def unassignedOpcs : List Nat :=
  [0x0C, 0x0D, 0x0E, 0x0F, 0x2B, 0x2C, 0x2D, 0x2E, 0x2F, 0x37, 0x4C, 0x4D, 0x4E, 0x4F, 0x56, 0x57, 0x5E, 0x5F, 0x65, 0x66, 0x67, 0x6E,
   0x6F, 0x77]

/-- The map has no row for them. -/
theorem rowOf_unassigned : ∀ n ∈ unassignedOpcs, (rowOf n).isNone = true := by decide

theorem decodeAt_unassigned {w : Word} (h : (w.extractLsb' 57 7).toNat ∈ unassignedOpcs) (live accn : Nat) (next : Option Word) :
    decodeAt live accn w next = .error 3 :=
  decodeAt_of_check (Parts.check_of_rowOf_none (Option.isNone_iff_eq_none.mp (rowOf_unassigned _ h))) live accn next

end Sys2Proof

end

section
/-! PROOFS. A step (R57, R99, R381): every outcome goes on; what the word at a gang's pc comes to; the turn of a gang. -/

namespace Sys2Proof.Machine

/-! ## Every arm goes on (R57, R381) -/

/-- Every meaning answers with a next state: each arm of the dispatch does so at its head. -/
theorem exec_next (i : Instr) (s : State) : ∃ t, exec i s = .next t := by
  cases i <;> exact ⟨_, rfl⟩

theorem runInstr_next (s : State) (b : Block) (i : Instr) : ∃ t, s.runInstr b i = .next t := by
  obtain ⟨t, ht⟩ := exec_next i s
  exact ⟨s.pinned t i b.uid, by simp only [State.runInstr, ht]⟩

theorem runWord_next (s : State) (b : Block) (l : List Slice) (x : Slice) (w : Word) : ∃ t, s.runWord b l x w = .next t := by
  unfold State.runWord
  split
  · exact exec_next ..
  · simp only
    split
    · exact exec_next ..
    · exact ⟨_, rfl⟩
  · split
    · exact ⟨_, rfl⟩
    · split
      · exact ⟨_, rfl⟩
      · exact runInstr_next ..

theorem runGang_next (s : State) (blk gang : Nat) (only : Option Nat) : ∃ t, s.runGang blk gang only = .next t := by
  unfold State.runGang
  simp only
  split
  · exact ⟨_, rfl⟩
  split
  · exact ⟨_, rfl⟩
  split
  · exact ⟨_, rfl⟩
  split
  -- the end of the gang's block
  · split <;> exact ⟨_, rfl⟩
  -- the word at its pc
  split
  · exact ⟨_, rfl⟩
  split
  · exact ⟨_, rfl⟩
  split
  · exact ⟨_, rfl⟩
  · exact runWord_next ..

theorem runTurn_next (s : State) (t : Turn) : ∃ u, s.runTurn t = .next u := by
  cases t with
  | gang blk gang =>
    simp only [State.runTurn]
    split
    · split
      · exact runGang_next ..
      · exact ⟨_, rfl⟩
    · exact ⟨_, rfl⟩
  | serial blk sl =>
    simp only [State.runTurn]
    split
    · split
      · exact runGang_next ..
      · exact ⟨_, rfl⟩
    · exact ⟨_, rfl⟩
  | event i => exact exec_next ..

theorem onward_next (s : State) : ∃ t, s.onward = .next t := by
  unfold State.onward
  split
  · exact ⟨_, rfl⟩
  split
  · exact runTurn_next ..
  · exact runTurn_next ..
  · split
    · exact runTurn_next ..
    · exact ⟨_, rfl⟩

theorem step_next (s : State) : ∃ t, step s = .next t := by
  unfold step State.tick
  simp only
  split
  · split
    · exact runTurn_next ..
    · exact onward_next ..
  · exact runTurn_next ..
  · exact onward_next ..

/-! ## The check that a word fails (R57) -/

theorem exec_wordNotInstruction {s : State} {b : Block} {l : List Slice} {x : Slice} (hi : s.issuing = some (b, l))
    (hx : l.head? = some x) (n : Nat) :
    exec (.wordNotInstruction n) s = .next (s.raise { Ev.illop with check := n, at_ := some x.pc }) := by
  change execWordNotInstruction n s = _
  simp only [execWordNotInstruction, hi, Option.bind_some, hx, Option.map_some]

/-- A reading that fails under check n. -/
def failsAt (n : Nat) : Except Nat Instr → Bool
  | .error m => m == n
  | .ok _ => false

@[simp] theorem failsAt_iff (n : Nat) (r : Except Nat Instr) : failsAt n r = true ↔ r = .error n := by
  cases r <;> simp [failsAt]

theorem mem_refusing {s : State} {b : Block} {l : List Slice} {w : Word} {y : Slice} {n : Nat} :
    (y, n) ∈ s.refusing b l w ↔ y ∈ l ∧ s.decodeIn b w y = .error n := by
  simp only [State.refusing, List.mem_filterMap]
  constructor
  · rintro ⟨z, hz, h⟩
    split at h
    · next m hm => cases h; exact ⟨hz, hm⟩
    · cases h
  · rintro ⟨hy, h⟩
    exact ⟨y, hy, by rw [h]⟩

theorem refusing_eq_nil {s : State} {b : Block} {l : List Slice} {w : Word} (h : ∀ y ∈ l, ∃ j, s.decodeIn b w y = .ok j) :
    s.refusing b l w = [] := by
  refine List.eq_nil_iff_forall_not_mem.mpr fun ⟨y, n⟩ hy => ?_
  obtain ⟨hy, he⟩ := mem_refusing.mp hy
  obtain ⟨j, hj⟩ := h y hy
  rw [hj] at he; cases he

/-- The refusing slices of one check. -/
theorem refusing_filter (s : State) (b : Block) (l : List Slice) (w : Word) (n : Nat) :
    (s.refusing b l w).filter (fun z => z.2 == n) = (l.filter fun y => failsAt n (s.decodeIn b w y)).map fun y => (y, n) := by
  induction l with
  | nil => rfl
  | cons y l ih =>
    have hc : s.refusing b (y :: l) w =
        (match s.decodeIn b w y with | .error m => [(y, m)] | .ok _ => []) ++ s.refusing b l w := by
      simp only [State.refusing, List.filterMap_cons]
      cases s.decodeIn b w y <;> rfl
    rw [hc, List.filter_append, ih, List.filter_cons]
    cases hd : s.decodeIn b w y with
    | ok j => simp [failsAt]
    | error m =>
      by_cases hm : m = n
      · simp [failsAt, hm]
      · simp [failsAt, hm]

theorem foldl_min_le (l : List (Slice × Nat)) (m : Nat) :
    l.foldl (fun m z => min m z.2) m ≤ m ∧ ∀ z ∈ l, l.foldl (fun m z => min m z.2) m ≤ z.2 := by
  induction l generalizing m with
  | nil => simp
  | cons a l ih =>
    obtain ⟨h1, h2⟩ := ih (min m a.2)
    refine ⟨by simp only [List.foldl_cons]; omega, fun z hz => ?_⟩
    rcases List.mem_cons.mp hz with rfl | hz
    · simp only [List.foldl_cons]; omega
    · exact h2 z hz

theorem foldl_min_ge (l : List (Slice × Nat)) (m n : Nat) (hm : n ≤ m) (hl : ∀ z ∈ l, n ≤ z.2) :
    n ≤ l.foldl (fun m z => min m z.2) m := by
  induction l generalizing m with
  | nil => exact hm
  | cons a l ih =>
    exact ih (min m a.2) (le_min hm (hl a List.mem_cons_self)) fun z hz => hl z (List.mem_cons_of_mem _ hz)

/-- Where some slices refuse a word, the lowest check n decides: it is the word's where every slice fails it, else theirs. -/
theorem runWord_refused {s : State} {b : Block} {l : List Slice} {w : Word} {n : Nat} (x : Slice)
    (hn : ∃ y ∈ l, s.decodeIn b w y = .error n) (hm : ∀ y ∈ l, ∀ m, s.decodeIn b w y = .error m → n ≤ m) :
    s.runWord b l x w =
      if (l.filter fun y => failsAt n (s.decodeIn b w y)).length = l.length then exec (.wordNotInstruction n) s
      else .next (s.raise { Ev.illop with
        check := n, at_ := some x.pc
        lanes := (l.filter fun y => failsAt n (s.decodeIn b w y)).map fun y => (y.num, y.am) }) := by
  have hf := refusing_filter s b l w n
  obtain ⟨y, hy, hd⟩ := hn
  have hmem : (y, n) ∈ s.refusing b l w := mem_refusing.mpr ⟨hy, hd⟩
  have hle : ∀ z ∈ s.refusing b l w, n ≤ z.2 := fun z hz => hm z.1 (mem_refusing.mp hz).1 z.2 (mem_refusing.mp hz).2
  unfold State.runWord
  cases hr : s.refusing b l w with
  | nil => rw [hr] at hmem; cases hmem
  | cons a rest =>
    have hk : rest.foldl (fun m z => min m z.2) a.2 = n := by
      rw [hr] at hmem hle
      refine le_antisymm ?_ (foldl_min_ge rest a.2 n (hle a List.mem_cons_self) fun z hz => hle z (List.mem_cons_of_mem _ hz))
      rcases List.mem_cons.mp hmem with h | h
      · exact h ▸ (foldl_min_le rest a.2).1
      · exact (foldl_min_le rest a.2).2 (y, n) h
    rw [hr] at hf
    cases s.decodeIn b w x <;> simp only [hk, hf, List.length_map, beq_iff_eq, List.map_map, Function.comp_def]

/-- A word that every slice refuses under one check. -/
theorem runWord_all_refuse {s : State} {b : Block} {l : List Slice} {x : Slice} {w : Word} {n : Nat} (hx : x ∈ l)
    (h : ∀ y ∈ l, s.decodeIn b w y = .error n) : s.runWord b l x w = exec (.wordNotInstruction n) s := by
  rw [runWord_refused x ⟨x, hx, h x hx⟩ fun y hy m hm => by rw [h y hy] at hm; cases hm; exact le_rfl, if_pos]
  rw [List.filter_eq_self.mpr fun y hy => (failsAt_iff ..).mpr (h y hy)]

/-- A word that only some slices refuse, n the lowest check. -/
theorem runWord_some_refuse {s : State} {b : Block} {l : List Slice} {w : Word} {n : Nat} (x : Slice)
    (hn : ∃ y ∈ l, s.decodeIn b w y = .error n) (hm : ∀ y ∈ l, ∀ m, s.decodeIn b w y = .error m → n ≤ m)
    (ho : ∃ y ∈ l, s.decodeIn b w y ≠ .error n) :
    s.runWord b l x w = .next (s.raise { Ev.illop with
      check := n, at_ := some x.pc
      lanes := (l.filter fun y => failsAt n (s.decodeIn b w y)).map fun y => (y.num, y.am) }) := by
  rw [runWord_refused x hn hm, if_neg]
  rw [List.length_filter_eq_length_iff]
  obtain ⟨y, hy, hd⟩ := ho
  exact fun hall => hd ((failsAt_iff ..).mp (hall y hy))

/-- A word that every slice takes, its extension word read, and that is the table's or concerns no lane, runs. -/
theorem runWord_runs {s : State} {b : Block} {l : List Slice} {x : Slice} {w : Word} {i : Instr} (hx : s.decodeIn b w x = .ok i)
    (hl : ∀ y ∈ l, ∃ j, s.decodeIn b w y = .ok j)
    (he : i.extWord ≠ none → ∀ e, s.nextInBlock (s.lrOf b).ctx x ≠ some (.error e))
    (ho : i.own = true ∨ ∀ y ∈ l, y.part_ i.guard = 0) : s.runWord b l x w = s.runInstr b i := by
  have hown : (!i.own && l.any fun y => y.part_ i.guard != 0) = false := by
    rcases ho with h | h
    · simp [h]
    · rw [Bool.and_eq_false_iff]; right
      rw [List.any_eq_false]
      exact fun y hy => by simp [h y hy]
  unfold State.runWord
  rw [hx, refusing_eq_nil hl]
  simp only [hown, Bool.false_eq_true, if_false]
  split
  · next e hw hne => exact absurd hne (he (by simp [hw]) e)
  · rfl

/-- A word that every slice takes and that the chapter's own checks refuse where a lane takes part (check 11). -/
theorem runWord_not_own {s : State} {b : Block} {l : List Slice} {x : Slice} {w : Word} {i : Instr} (hx : s.decodeIn b w x = .ok i)
    (hl : ∀ y ∈ l, ∃ j, s.decodeIn b w y = .ok j) (he : i.extWord = none) (ho : i.own = false)
    (hp : ∃ y ∈ l, y.part_ i.guard ≠ 0) :
    s.runWord b l x w = .next (s.raise { Ev.own with lanes := l.map fun y => (y.num, y.part_ i.guard) }) := by
  have hown : (!i.own && l.any fun y => y.part_ i.guard != 0) = true := by
    obtain ⟨y, hy, hne⟩ := hp
    simpa [ho] using ⟨y, hy, hne⟩
  unfold State.runWord
  rw [hx, refusing_eq_nil hl]
  simp only [he, hown, if_true]

/-! ## What reading words leaves -/

/-- From s to t the blocks, the launches and the gang that issues stay. -/
structure State.SameGangs (s t : State) : Prop where
  blocks : t.blocks = s.blocks
  launches : t.launches = s.launches
  cur : t.cur = s.cur

namespace State.SameGangs

theorem refl (s : State) : s.SameGangs s := ⟨rfl, rfl, rfl⟩

theorem trans {s t u : State} (h : s.SameGangs t) (k : t.SameGangs u) : s.SameGangs u :=
  ⟨k.blocks.trans h.blocks, k.launches.trans h.launches, k.cur.trans h.cur⟩

theorem foldl {α : Type} {f : State → α → State} (hf : ∀ (s : State) x, s.SameGangs (f s x)) (l : List α) (s : State) :
    s.SameGangs (l.foldl f s) := by
  induction l generalizing s with
  | nil => exact refl s
  | cons x l ih => exact trans (hf s x) (ih (f s x))

theorem lrOf {s t : State} (h : s.SameGangs t) (b : Block) : t.lrOf b = s.lrOf b := by
  simp only [State.lrOf, State.launch?, h.launches]

theorem issuing {s t : State} (h : s.SameGangs t) : t.issuing = s.issuing := by
  simp only [State.issuing, h.blocks, h.cur]

theorem remember (s : State) (c va : Nat) : s.SameGangs (s.remember c va) := by
  unfold State.remember
  split
  · split
    · exact refl s
    · exact ⟨rfl, rfl, rfl⟩
  · exact refl s

theorem startFetch (s : State) (n : Nat) : s.SameGangs (s.startFetch n) := by
  unfold State.startFetch
  simp only
  split
  · exact ⟨rfl, rfl, rfl⟩
  · exact ⟨rfl, rfl, rfl⟩
  · exact refl s

theorem policyFetch (s : State) (p : Phys) : s.SameGangs (s.policyFetch p) := by
  unfold State.policyFetch
  split
  · simp only; split
    · exact startFetch ..
    · exact refl s
  · exact refl s

theorem sendFlit (s : State) (p : Nat) (slot : Bool) (kind vc : Nat) (text : List Byte) :
    s.SameGangs (s.sendFlit p slot kind vc text) := by
  unfold State.sendFlit
  simp only
  split
  · exact refl s
  · split <;> exact ⟨rfl, rfl, rfl⟩

theorem sendNow (s : State) (p kind vc : Nat) (text : List Byte) : s.SameGangs (s.sendNow p kind vc text) := by
  unfold State.sendNow
  split
  · exact sendFlit ..
  · exact refl s

theorem carry (s : State) (p vc : Nat) : s.SameGangs (s.carry p vc) :=
  trans (t := s.stepTag) ⟨rfl, rfl, rfl⟩ (foldl (fun s t => sendNow s p 1 vc t) _ _)

theorem sendOut (s : State) (p : Phys) (w : Bool) : s.SameGangs (s.sendOut p w) := by
  unfold State.sendOut
  split
  · exact foldl (fun s k => carry s k 0) _ s
  · exact refl s

theorem fetchOne (s : State) (c : Nat) (v : VA) : s.SameGangs (s.fetchOne c v) := by
  unfold State.fetchOne
  split
  · exact refl s
  · exact trans (trans (remember ..) (policyFetch ..)) (sendOut ..)

theorem fetched (s : State) (b : Block) (l : List Slice) : s.SameGangs (s.fetched b l) :=
  foldl (fun s v => fetchOne s (s.lrOf b).ctx v) _ s

theorem markIssued (s : State) (b : Block) (l : List Slice) : s.SameGangs (s.markIssued b l) := by
  cases l with
  | nil => exact refl s
  | cons x l => exact ⟨rfl, rfl, rfl⟩

end State.SameGangs

/-! ## The turn of a gang -/

/-- The gang of a resident block that has the turn as a whole is the one that issues. -/
theorem issuing_of_cur {s : State} {b : Block} {blk gang : Nat} (hc : s.cur = some { block := blk, gang, only := none })
    (hb : s.blocks.find? (fun y => y.uid == blk) = some b) : s.issuing = some (b, b.gangSlices gang) := by
  simp only [State.issuing, hc, hb, List.filter_true]

/-- A turn that the agenda names is taken where the gang's partition takes it. -/
theorem step_gang {s : State} {blk gang : Nat} {rest : List Turn} {b : Block} (ha : s.agenda = .gang blk gang :: rest)
    (hb : s.blocks.find? (fun y => y.uid == blk) = some b)
    (hm : ({ s with cycle := s.cycle + 1, fresh := s.fresh + 1, agenda := rest } : State).mayTurn b gang = true) :
    step s = ({ s with cycle := s.cycle + 1, fresh := s.fresh + 1, agenda := rest } : State).runGang blk gang none := by
  simp only [step, State.tick, ha, State.runTurn, hb, hm, if_true]

/-- A gang inside its block runs the word at its pc. -/
theorem runGang_word {t f : State} {blk gang : Nat} {b : Block} {x : Slice} {l : List Slice} {w : Word}
    (hb : t.blocks.find? (fun y => y.uid == blk) = some b) (hg : b.gangSlices gang = x :: l)
    (hh : ∀ y ∈ x :: l, y.hword.isSome = true) (hpc : x.pc ≠ x.blockEnd)
    (hf : f = { ({ t with cur := some { block := blk, gang, only := none } } : State).remember (t.lrOf b).ctx x.pc.toNat with
      lastPart := (b.share x.share).core * 4 + x.part })
    (hw : f.fetchWord (t.lrOf b).ctx x.pc.toNat = .ok w) (hheld : f.fetchHeld b (x :: l) = false) :
    t.runGang blk gang none = ((f.fetched b (x :: l)).markIssued b (x :: l)).runWord b (x :: l) x w := by
  have hi : ({ t with cur := some { block := blk, gang, only := none } } : State).issuing = some (b, x :: l) :=
    hg ▸ issuing_of_cur rfl hb
  have hend : (x.hword.isSome && x.pc == x.blockEnd) = false := by simp [hpc]
  have hev : f.entryEv b x = none := by simp [State.entryEv, hh x List.mem_cons_self]
  have hnone : ∀ y ∈ x :: l, y.hword.isNone = false := fun y hy => by
    rw [← Option.not_isSome, hh y hy]; rfl
  have hall : (x :: l).all (fun y => y.hword.isNone) = false := by simp [hnone x List.mem_cons_self]
  have hany : (x :: l).any (fun y => y.hword.isNone) = false := List.any_eq_false.mpr fun y hy => by simp [hnone y hy]
  unfold State.runGang
  simp only [hi]
  rw [show ({ t with cur := some { block := blk, gang, only := none } } : State).lrOf b = t.lrOf b from rfl, ← hf]
  simp only [hheld, hend, hev, hw, hall, hany, Bool.false_eq_true, if_false]

/-- A slice's reading of the word at its pc, the following word in place. -/
theorem decodeIn_eq (s : State) (b : Block) (w : Word) (y : Slice) :
    s.decodeIn b w y = decodeAt y.live (s.lrOf b).accn w
      ((if VA.plus y.pc 1 = y.blockEnd then none
        else some (s.fetchWord (s.lrOf b).ctx (VA.plus y.pc 1).toNat)).map (okOr 0)) := by
  have hok : ∀ r : Except Ev Word, (okOf r).getD 0 = okOr 0 r := fun r => by cases r <;> rfl
  simp only [State.decodeIn, State.nextInBlock, beq_iff_eq, hok]

end Sys2Proof.Machine

end

section
/-! PROOFS. An instruction of a whole gang (R29, R97, R108, R255): what its slices become, how they retire and how the gang parts. -/

namespace Sys2Proof.Machine

/-! ## The gang that issues -/

/-- The slices of a whole gang are those of its block that one test picks, and none of them has ended. -/
theorem issuing_whole {s : State} {b : Block} {l : List Slice} (hi : s.issuing = some (b, l)) (hw : s.whole = true) :
    ∃ p : Slice → Bool, l = b.slices.filter p ∧ ∀ x, p x = true → x.ended = false := by
  unfold State.issuing at hi
  unfold State.whole at hw
  split at hi
  · cases hi
  · next c hc =>
    simp only [hc, Option.isNone_iff_eq_none] at hw
    split at hi
    · cases hi
    · cases hi
      exact ⟨fun x => x.gang == c.gang && !x.ended, by simp [hw, Block.gangSlices],
        fun x hx => by simpa using (Bool.and_eq_true_iff.mp hx).2⟩

theorem issuing_ended {s : State} {b : Block} {l : List Slice} (hi : s.issuing = some (b, l)) (hw : s.whole = true) :
    ∀ x ∈ l, x.ended = false := by
  obtain ⟨p, rfl, hp⟩ := issuing_whole hi hw
  exact fun x hx => hp x (List.mem_filter.mp hx).2

theorem plain_spec {s : State} {b : Block} {l : List Slice} (hi : s.issuing = some (b, l)) (hp : s.plain = true) :
    s.whole = true ∧ (s.lrOf b).det = false ∧ (b.slices.map (fun x => x.num)).Nodup := by
  simp only [State.plain, hi, Bool.and_eq_true, decide_eq_true_eq, Bool.not_eq_true'] at hp
  obtain ⟨⟨⟨hw, hd⟩, hn⟩, -⟩ := hp
  exact ⟨hw, hd, hn⟩

theorem runs_spec {s : State} {b : Block} {l : List Slice} {n : Nat} (hi : s.issuing = some (b, l)) (hr : s.runs n = true) :
    s.whole = true ∧ (b.slices.map (fun x => x.num)).Nodup ∧ ∃ pc, ∀ x ∈ l, x.inside n = true ∧ x.pc = pc := by
  simp only [State.runs, hi, Bool.and_eq_true, decide_eq_true_eq, bne_iff_ne, ne_eq, List.all_eq_true, beq_iff_eq] at hr
  obtain ⟨⟨⟨hw, hn⟩, hl⟩, ha⟩ := hr
  refine ⟨hw, hn, ?_⟩
  cases l with
  | nil => exact absurd rfl hl
  | cons x l => exact ⟨x.pc, fun y hy => ⟨(ha y hy).1, by simpa using (ha y hy).2⟩⟩

/-- The slices of a block under the numbers of a gang are the gang, put back as they are. -/
theorem putSlices_gang {b : Block} {l : List Slice} {p : Slice → Bool} (hl : l = b.slices.filter p)
    (hn : (b.slices.map (fun x => x.num)).Nodup) (h : Slice → Slice) (hnum : ∀ x ∈ l, (h x).num = x.num) :
    (b.putSlices (l.map h)).slices.filter (fun x => (l.map (fun x => x.num)).contains x.num) = l.map h := by
  subst hl
  have hmem : ∀ x ∈ b.slices, (((b.slices.filter p).map (fun x => x.num)).contains x.num) = p x := by
    intro x hx
    rw [Bool.eq_iff_iff, List.contains_iff_mem, List.mem_map]
    constructor
    · rintro ⟨z, hz, e⟩
      obtain ⟨hz, hpz⟩ := List.mem_filter.mp hz
      exact List.inj_on_of_nodup_map hn hz hx e ▸ hpz
    · exact fun hp => ⟨x, List.mem_filter.mpr ⟨hx, hp⟩, rfl⟩
  rw [putSlices_map b p h hn hnum, List.filter_map]
  have hfil : b.slices.filter ((fun x => ((b.slices.filter p).map (fun x => x.num)).contains x.num) ∘
      fun x => if p x = true then h x else x) = b.slices.filter p := by
    refine List.filter_congr fun x hx => ?_
    have : (if p x = true then h x else x).num = x.num := by
      split
      · next hp => exact hnum x (List.mem_filter.mpr ⟨hx, hp⟩)
      · rfl
    simp only [Function.comp_apply, this, hmem x hx]
  rw [hfil]
  exact List.map_congr_left fun x hx => by rw [if_pos (List.mem_filter.mp hx).2]

/-- A gang put back as it stands. -/
theorem gang_filter {b : Block} {l : List Slice} {p : Slice → Bool} (hl : l = b.slices.filter p)
    (hn : (b.slices.map (fun x => x.num)).Nodup) :
    b.slices.filter (fun x => (l.map (fun x => x.num)).contains x.num) = l := by
  have hp := putSlices_gang hl hn id fun _ _ => rfl
  have hb : (b.putSlices (l.map id)).slices = b.slices := by
    have := putSlices_map b p id hn fun _ _ => rfl
    rw [hl, this]; simp
  rwa [hb, List.map_id] at hp

/-! ## Numbers are kept -/

@[simp] theorem Slice.arriveN_num (x : Slice) (h : VA) (n : Nat) : (x.arriveN h n).num = x.num := by
  induction n generalizing x h with
  | zero => rfl
  | succ n ih =>
    unfold Slice.arriveN
    split
    · split
      · split
        · exact ih ..
        · split
          · exact ih ..
          · rfl
      · rfl
    · split
      · exact ih ..
      · rfl
    · rfl

@[simp] theorem Slice.arrive_num (x : Slice) (h : VA) : (x.arrive h).num = x.num := x.arriveN_num ..

theorem Slice.passEnd_num {x y : Slice} {bad : VA → Bool} {next : VA} {ks : List Nat} (h : x.passEnd bad next ks = .ok y) :
    y.num = x.num := by
  induction ks generalizing x with
  | nil => cases h; simp
  | cons k ks ih =>
    unfold Slice.passEnd at h
    simp only at h
    split at h
    · split at h
      · cases h
      · split at h
        · split at h
          · cases h
          · cases h; simp [Slice.setLp]
        · exact (ih h :)
    · exact ih h

theorem Slice.retire_num {x y : Slice} {bad : VA → Bool} {m : Bool} {n : Nat} (h : x.retire bad m n = .ok y) : y.num = x.num := by
  unfold Slice.retire Slice.advance at h
  split at h
  · cases h; rfl
  · simp only at h
    split at h
    · exact (Slice.passEnd_num h :)
    · cases h; rfl

/-- Where fewer words count as no header, what passed the end of its block still does. -/
theorem Slice.passEnd_mono {x y : Slice} {bad bad' : VA → Bool} {next : VA} {ks : List Nat} (hb : ∀ v, bad' v = true → bad v = true)
    (h : x.passEnd bad next ks = .ok y) : x.passEnd bad' next ks = .ok y := by
  induction ks generalizing x with
  | nil => exact h
  | cons k ks ih =>
    unfold Slice.passEnd at h ⊢
    simp only at h ⊢
    split at h
    · next hend =>
      rw [if_pos hend]
      split at h
      · cases h
      · next hd =>
        rw [if_neg hd]
        split at h
        · next hc =>
          rw [if_pos hc]
          split at h
          · cases h
          · next hbad => rw [if_neg fun hbad' => hbad (hb _ hbad')]; exact h
        · next hc => rw [if_neg hc]; exact ih h
    · next hend => rw [if_neg hend]; exact ih h

theorem Slice.retire_mono {x y : Slice} {bad bad' : VA → Bool} {m : Bool} {n : Nat} (hb : ∀ v, bad' v = true → bad v = true)
    (h : x.retire bad m n = .ok y) : x.retire bad' m n = .ok y := by
  unfold Slice.retire Slice.advance at h ⊢
  split at h
  · next hm => rw [if_pos hm]; exact h
  · next hm =>
    rw [if_neg hm]
    simp only at h ⊢
    split at h
    · next hc => rw [if_pos hc]; exact Slice.passEnd_mono hb h
    · next hc => rw [if_neg hc]; exact h

@[simp] theorem Slice.openRegion_num (x : Slice) (r : Rep) : (x.openRegion r).num = x.num := by
  unfold Slice.openRegion; split <;> rfl
@[simp] theorem Slice.openRegion_pc (x : Slice) (r : Rep) : (x.openRegion r).pc = x.pc := by
  unfold Slice.openRegion; split <;> rfl
@[simp] theorem Slice.endQuantum_num (x : Slice) : x.endQuantum.num = x.num := by simp [Slice.endQuantum]
@[simp] theorem Slice.endQuantum_pc (x : Slice) : x.endQuantum.pc = x.pc := by simp [Slice.endQuantum]

@[simp] theorem rested_nums (det : Bool) (l : List Slice) : (rested det l).map (fun x => x.num) = l.map (fun x => x.num) := by
  unfold rested
  split
  · exact nums_map fun x _ => x.endQuantum_num
  · rfl

theorem rested_pc {det : Bool} {l : List Slice} {pc : VA} (h : ∀ x ∈ l, x.pc = pc) : ∀ x ∈ rested det l, x.pc = pc := by
  unfold rested
  split
  · intro x hx
    obtain ⟨y, hy, rfl⟩ := List.mem_map.mp hx
    rw [Slice.endQuantum_pc, h y hy]
  · exact h

theorem partGang_nums (first : Nat) (l : List Slice) : (partGang first l).1.map (fun x => x.num) = l.map (fun x => x.num) := by
  unfold partGang
  simp only
  split
  · rfl
  · refine nums_map fun x _ => ?_
    split <;> rfl

/-! ## An effect on the slices of the gang -/

@[simp] theorem fetchWord_modBlock (s : State) (u : Nat) (f : Block → Block) (c va : Nat) :
    (s.modBlock u f).fetchWord c va = s.fetchWord c va := by
  unfold State.modBlock
  simp only
  split <;> rfl

@[simp] theorem noHeader_modBlock (s : State) (u : Nat) (f : Block → Block) (c : Nat) (v : VA) :
    (s.modBlock u f).noHeader c v = s.noHeader c v := by
  simp only [State.noHeader, fetchWord_modBlock]

/-- Putting slices back and then putting back all of them is putting back once. -/
theorem modBlock_putSlices_twice {s : State} {b : Block} (hb : s.holds b) (l m : List Slice)
    (h : l.map (fun x => x.num) = m.map (fun x => x.num)) :
    (s.modBlock b.uid fun y => y.putSlices l).modBlock b.uid (fun y => y.putSlices m) = s.modBlock b.uid fun y => y.putSlices m := by
  rw [modBlock_modBlock hb (fun y => y.putSlices l) (fun y => y.putSlices m) fun _ => rfl]
  exact congrArg (s.modBlock b.uid) (funext fun y => putSlices_twice y l m h)

/-- A gang whose slices have each become h of what they were retires as `r` says of each, and then parts by pc. -/
theorem complete_put {s : State} {b : Block} {l : List Slice} {n : Nat} {h r : Slice → Slice} {moved : List Nat}
    (hi : s.issuing = some (b, l)) (hw : s.whole = true) (hn : (b.slices.map (fun x => x.num)).Nodup)
    (hnum : ∀ x ∈ l, (h x).num = x.num)
    (hr : ∀ x ∈ l, (h x).retire (fun v => !begun l && s.noHeader (s.lrOf b).ctx v) (moved.contains x.num) n = .ok (r x)) :
    s.complete n false (.done (s.modBlock b.uid fun y => y.putSlices (l.map h)) moved) =
      s.parted b (rested (s.lrOf b).det (l.map r)) := by
  have hh := issuing_holds hi
  obtain ⟨p, hl, -⟩ := issuing_whole hi hw
  have hput : (s.modBlock b.uid fun y => y.putSlices (l.map h)).block? b.uid = some (b.putSlices (l.map h)) :=
    holds_block? (block?_modBlock hh (fun y => y.putSlices (l.map h)) fun _ => rfl)
  have hga : gather ((l.map h).map fun x => x.retire (fun v => !begun l && s.noHeader (s.lrOf b).ctx v) (moved.contains x.num) n) =
      .ok (l.map r) := by
    rw [List.map_map]
    exact gather_map_ok l _ r fun x hx => by rw [Function.comp_apply, hnum x hx]; exact hr x hx
  have hnums : (l.map h).map (fun x => x.num) = (l.map r).map (fun x => x.num) := by
    rw [nums_map hnum, nums_map fun x hx => (Slice.retire_num (hr x hx)).trans (hnum x hx)]
  have hlr : (s.modBlock b.uid fun y => y.putSlices (l.map h)).lrOf (b.putSlices (l.map h)) = s.lrOf b := lrOf_modBlock hh ..
  simp only [State.complete, hi, hw, State.retire, hput, holds_block? hh, Option.map_some, Option.getD_some,
    gang_filter hl hn, putSlices_gang hl hn h hnum, noHeader_modBlock, hlr, hga, Bool.false_or, if_true,
    State.modBlock_nextId]
  rw [State.parted, ← modBlock_putSlices_twice hh (l.map h) (partGang s.nextId (rested (s.lrOf b).det (l.map r))).1
    (by rw [hnums, partGang_nums, rested_nums])]
  rfl

/-! ## Instructions that run in each slice -/

/-- An effect that every slice of the gang has, with the list of those that have set their own pc. -/
theorem eachMove_done {s : State} {g : Guard} {b : Block} {l : List Slice} {f : Env → Slice → Except Ev (Slice × Bool)}
    {r : Slice → Slice × Bool} (h : ∀ x ∈ l, (if x.part_ g = 0 then Except.ok (x, false) else f (s.envOf b x) x) = .ok (r x)) :
    eachMove s g b l f = .done (s.modBlock b.uid fun y => y.putSlices (l.map fun x => (r x).1))
      (((l.map r).filter (fun x => x.2)).map (fun x => x.1.num)) := by
  simp only [eachMove, gather_map_ok l _ r h, List.map_map, Function.comp_def]

/-- Whether a slice of the gang is among those that have set their own pc. -/
theorem moved_contains {l : List Slice} {r : Slice → Slice × Bool} (hn : (l.map (fun x => x.num)).Nodup)
    (hnum : ∀ x ∈ l, (r x).1.num = x.num) {x : Slice} (hx : x ∈ l) :
    (((l.map r).filter (fun y => y.2)).map (fun y => y.1.num)).contains x.num = (r x).2 := by
  rw [Bool.eq_iff_iff, List.contains_iff_mem]
  simp only [List.mem_map, List.mem_filter]
  constructor
  · rintro ⟨y, ⟨⟨z, hz, rfl⟩, h2⟩, he⟩
    rw [hnum z hz] at he
    exact List.inj_on_of_nodup_map hn hz hx he ▸ h2
  · exact fun h => ⟨r x, ⟨⟨x, hx, rfl⟩, h⟩, hnum x hx⟩

/-- Slices that do r and then retire as q. -/
theorem complete_eachMove {s : State} {g : Guard} {b : Block} {l : List Slice} {n : Nat}
    {f : Env → Slice → Except Ev (Slice × Bool)} {r : Slice → Slice × Bool} {q : Slice → Slice}
    (hi : s.issuing = some (b, l)) (hw : s.whole = true) (hn : (b.slices.map (fun x => x.num)).Nodup)
    (hr : ∀ x ∈ l, (if x.part_ g = 0 then Except.ok (x, false) else f (s.envOf b x) x) = .ok (r x))
    (hnum : ∀ x ∈ l, (r x).1.num = x.num)
    (hq : ∀ x ∈ l, went (s.noHeader (s.lrOf b).ctx) n (r x) = .ok (q x)) :
    s.complete n false (eachMove s g b l f) = s.parted b (rested (s.lrOf b).det (l.map q)) := by
  obtain ⟨p, hl, -⟩ := issuing_whole hi hw
  have hnl : (l.map (fun x => x.num)).Nodup := hl ▸ hn.sublist ((List.filter_sublist).map _)
  rw [eachMove_done hr]
  refine complete_put hi hw hn hnum fun x hx => ?_
  rw [moved_contains hnl hnum hx]
  exact Slice.retire_mono (fun v hv => (Bool.and_eq_true_iff.mp hv).2) (hq x hx)

theorem ok_of_isOk {ε α : Type} {r : Except ε α} (d : α) (h : isOk r = true) : r = .ok (okOr d r) := by
  cases r with
  | ok x => rfl
  | error e => cases h

/-- An instruction that may set the pc of a slice, wherever its checks pass. -/
theorem moves_of_perMove {n : Nat} {i : Instr} {g : Guard} {F : State → Env → Slice → Except Ev (Slice × Bool)}
    {ok : State → Block → Slice → Bool} {f : State → Block → Slice → Slice × Bool}
    (hexec : ∀ s, exec i s = .next (s.perMove g n (F s)))
    (hrest : ∀ s b x, x.part_ g = 0 → f s b x = (x, false))
    (hF : ∀ s b x, x.part_ g ≠ 0 → ok s b x = true → F s (s.envOf b x) x = .ok (f s b x))
    (hnum : ∀ s b x, (f s b x).1.num = x.num) : Moves n i ok f := by
  intro s b l hi hp bad hok
  obtain ⟨hw, hd, hn⟩ := plain_spec hi hp
  have hr : ∀ x ∈ l, (if x.part_ g = 0 then Except.ok (x, false) else F s (s.envOf b x) x) = .ok (f s b x) := by
    intro x hx
    split
    · next h => rw [hrest s b x h]
    · next h => exact hF s b x h (hok x hx).1
  rw [hexec]
  simp only [State.perMove, State.perGang, hi]
  rw [complete_eachMove hi hw hn hr (fun x _ => hnum s b x) fun x hx => ok_of_isOk x (hok x hx).2, hd, rested_normal]

/-- Slices at one pc stay together. -/
theorem parted_same {s : State} {b : Block} {l : List Slice} {pc : VA} (hb : s.holds b) (h : ∀ x ∈ l, x.pc = pc) :
    s.parted b l = s.modBlock b.uid fun y => y.putSlices l := by
  simp only [State.parted, partGang_same _ l pc h]
  rw [modBlock_resident hb]

theorem Slice.when_keeps {x : Slice} {g : Guard} {f : Slice → Slice} (h : (f x).keeps x) : (x.when g f).keeps x := by
  unfold Slice.when
  split
  exacts [x.keeps_refl, h]

/-- An instruction on the registers of each slice goes on to the next word of its block, in either launch mode. -/
theorem completes_of_perSlice {n : Nat} {i : Instr} {g : Guard} {F : Env → Slice → Except Ev Slice} {f : Env → Slice → Slice}
    (hexec : ∀ s, exec i s = .next (s.perSlice g n F)) (hF : ∀ e x, x.part_ g ≠ 0 → F e x = .ok (f e x))
    (hk : ∀ e x, (f e x).keeps x) : Completes g n i f := by
  intro s b l hi hrun
  obtain ⟨hw, hn, pc, ha⟩ := runs_spec hi hrun
  have hend := issuing_ended hi hw
  have hkeep : ∀ x : Slice, (x.when g (f (s.envOf b x))).keeps x := fun x => Slice.when_keeps (hk _ x)
  have hnum : ∀ x ∈ l, (x.when g (f (s.envOf b x))).num = x.num := fun x _ => (hkeep x).1
  have hr : ∀ x ∈ l, (if x.part_ g = 0 then Except.ok (x, false) else (F (s.envOf b x) x).map fun y => (y, false)) =
      .ok (x.when g (f (s.envOf b x)), false) := by
    intro x _
    unfold Slice.when
    split
    · rfl
    · next h => rw [hF _ x h]; rfl
  have hq : ∀ x ∈ l, went (s.noHeader (s.lrOf b).ctx) n (x.when g (f (s.envOf b x)), false) =
      .ok ((x.when g (f (s.envOf b x))).passed n) := fun x hx => by
    obtain ⟨-, hended, -, -, -⟩ := hkeep x
    exact retire_slice _ (hended.trans (hend x hx)) ((keeps_inside (hkeep x) n).trans (ha x hx).1)
  rw [hexec]
  simp only [State.perSlice, hi, eachSlice]
  rw [complete_eachMove hi hw hn hr hnum hq, parted_same (issuing_holds hi) (pc := VA.plus pc n)]
  · rfl
  · refine rested_pc fun y hy => ?_
    obtain ⟨x, hx, rfl⟩ := List.mem_map.mp hy
    obtain ⟨-, -, hpc, -, -⟩ := hkeep x
    rw [Slice.passed_pc, hpc, (ha x hx).2]

/-- An effect on the gang's state that keeps its slices in their places is performed, and the instruction goes on. -/
theorem performs_of_perGang {n : Nat} {qend : Bool} {i : Instr} {F : State → Block → List Slice → Res}
    {ok : State → Block → List Slice → Bool} {f : State → Block → List Slice → State}
    (hexec : ∀ s, exec i s = .next (s.perGang n qend (F s))) (hF : ∀ s b l, ok s b l = true → F s b l = .done (f s b l) [])
    (hk : ∀ (s : State) (b : Block) (l : List Slice), s.Keeps (f s b l) b.uid) : Performs n i ok f := by
  intro s b l hi hg hok
  rw [hexec, Keeps.perGang hi hg (hF s b l hok) (hk s b l)]

end Sys2Proof.Machine

end

section
/-! PROOFS. The control instructions and those on registers: the facts that their completion follows from. -/

namespace Sys2Proof.Machine

/-! ## Instructions on registers (R112, R115 to R126) -/

/-- An instruction that writes an integer result to D goes on. -/
theorem completes_setInt {n : Nat} {i : Instr} {g : Guard} {d : Opd} {sg : Bool} {w : Nat} {f : Env → Slice → Nat → Nat}
    (hexec : ∀ s, exec i s = .next (s.perSlice g n fun e x => .ok (x.setInt g d sg w (f e x)))) :
    Completes g n i fun e x => x.setInt g d sg w (f e x) :=
  completes_of_perSlice hexec (fun _ _ _ => rfl) fun e x => x.keeps_setInt g d sg w (f e x)

/-- An instruction that writes a predicate goes on. -/
theorem completes_setPred {n : Nat} {i : Instr} {g : Guard} {d : Opd} {f : Env → Slice → Nat → Bool}
    (hexec : ∀ s, exec i s = .next (s.perSlice g n fun e x => .ok (x.setPred g d (f e x)))) :
    Completes g n i fun e x => x.setPred g d (f e x) :=
  completes_of_perSlice hexec (fun _ _ _ => rfl) fun e x => x.keeps_setPred g d (f e x)

/-- An instruction that writes a slice scalar goes on. -/
theorem completes_ws {n : Nat} {i : Instr} {g : Guard} {k : BitVec 6} {f : Env → Slice → Word}
    (hexec : ∀ s, exec i s = .next (s.perSlice g n fun e x => .ok (x.setS g (.s k) (f e x)))) :
    Completes g n i fun e x => x.ws k.toNat (f e x) :=
  completes_of_perSlice hexec (fun e x h => by simp only [Slice.setS, h, if_false]) fun e x => x.keeps_ws k.toNat (f e x)

theorem minMaxVal_eq (ty : Ty) (op : MinMax) (a b : Nat) : minMaxVal ty op a b =
    if (op = .min ∧ readInt ty.isSigned ty.width a < readInt ty.isSigned ty.width b) ∨
      (op = .max ∧ ¬ readInt ty.isSigned ty.width a < readInt ty.isSigned ty.width b) then a else b := by
  cases op with
  | min => simp [minMaxVal]
  | max => simp only [minMaxVal, reduceCtorEq, false_and, true_and, false_or, ite_not]

@[simp] theorem svalOf_s (e : Env) (x : Slice) (n : BitVec 6) : svalOf e x (.s n) = x.sr n.toNat := by
  rw [svalOf, valOf, Nat.mod_eq_of_lt (x.sr n.toNat).isLt, BitVec.ofNat_toNat, BitVec.setWidth_eq]

theorem valOf_v_32 (e : Env) (x : Slice) (j : Nat) (a : BitVec 8) : valOf e x j 32 (.v a) = (x.rv a.toNat j).toNat := by
  simp only [valOf, le_refl, if_true]
  exact Nat.mod_eq_of_lt (x.rv a.toNat j).isLt

/-- Values that are all the first one are equal to one another. -/
theorem all_head_eq {α : Type} [DecidableEq α] (l : List α) :
    (l.all fun x => some x == l.head?) = l.all fun x => l.all fun y => x == y := by
  rw [Bool.eq_iff_iff]
  simp only [List.all_eq_true, beq_iff_eq]
  cases l with
  | nil => simp
  | cons a l =>
    simp only [List.head?_cons, Option.some.injEq]
    exact ⟨fun h x hx y hy => (h x hx).trans (h y hy).symm, fun h x hx => h x hx a List.mem_cons_self⟩

/-- VOTE.UNI compares the lanes that take part (R112). -/
theorem voteSlice_uni (g : Guard) (n : BitVec 3) (a : BitVec 8) (e : Env) (x : Slice) :
    voteSlice g .uni (.p n) (.v a) e x = x.setPred g (.p n) fun _ =>
      (lanes (x.part_ g)).all fun j => (lanes (x.part_ g)).all fun k => x.rv a.toNat j == x.rv a.toNat k := by
  have hv : ∀ j k, (valOf e x j 32 (.v a) == valOf e x k 32 (.v a)) = (x.rv a.toNat j == x.rv a.toNat k) := fun j k => by
    rw [valOf_v_32, valOf_v_32, Bool.eq_iff_iff, beq_iff_eq, beq_iff_eq, BitVec.toNat_inj]
  simp only [voteSlice, all_head_eq, List.all_map, Function.comp_def, hv]

/-! ## Transfers (R92, R101 to R106) -/

/-- A transfer gives the slice itself back, moved. -/
theorem State.transfer_num {s : State} {c : Nat} {x : Slice} {t : Mask} {target next : VA} {r : Slice × Bool}
    (h : s.transfer c x t target next = .ok r) : r.1.num = x.num := by
  unfold State.transfer at h
  split at h
  · cases h; rfl
  · split at h
    · cases h
    · split at h
      · cases h; exact Slice.arrive_num ..
      · simp only at h
        split at h
        · cases h
        · split at h
          · cases h
          · cases h; exact Slice.arrive_num ..

/-- An instruction that transfers lanes moves each slice where Transfer takes it, wherever that raises nothing. -/
theorem moves_transfer {n : Nat} {i : Instr} {g : Guard} {F : State → Env → Slice → Except Ev (Slice × Bool)}
    {ok : State → Block → Slice → Bool} {t : Slice → Mask} {target : State → Block → Slice → VA} {f : Slice → Slice}
    (hexec : ∀ s, exec i s = .next (s.perMove g n (F s))) (hf : ∀ x, (f x).num = x.num)
    (hF : ∀ s b x, x.part_ g ≠ 0 → ok s b x = true →
      F s (s.envOf b x) x = s.transfer (s.lrOf b).ctx (f x) (t x) (target s b x) (VA.plus x.pc n)) :
    Moves n i
      (fun s b x => x.part_ g = 0 ||
        (ok s b x && isOk (s.transfer (s.lrOf b).ctx (f x) (t x) (target s b x) (VA.plus x.pc n))))
      (fun s b x => if x.part_ g = 0 then (x, false) else
        okOr (x, false) (s.transfer (s.lrOf b).ctx (f x) (t x) (target s b x) (VA.plus x.pc n))) := by
  refine moves_of_perMove hexec (fun s b x h => if_pos h) (fun s b x h hok => ?_) fun s b x => ?_
  · simp only [h, decide_false, Bool.false_or, Bool.and_eq_true] at hok
    rw [if_neg h, hF s b x h hok.1]
    exact ok_of_isOk _ hok.2
  · split
    · rfl
    · cases h : s.transfer (s.lrOf b).ctx (f x) (t x) (target s b x) (VA.plus x.pc n) with
      | error e => rfl
      | ok r => exact (State.transfer_num h).trans (hf x)

/-- A transfer to an address in a scalar that names a word (R103). -/
theorem jumpTo_ok {s : State} {g : Guard} {e : Env} {x : Slice} {a : Opd} {n : Nat} (h : (svalOf e x a).toNat < 2 ^ 57)
    (h8 : (svalOf e x a).toNat % 8 = 0) :
    jumpTo s g e x a n = s.transfer e.lr.ctx x (x.part_ g) ((svalOf e x a).setWidth 57) (VA.plus x.pc n) := by
  have : ¬ ((svalOf e x a).toNat ≥ 2 ^ 57 || (svalOf e x a).toNat % 8 ≠ 0) = true := by simp [h8]; omega
  exact if_neg this

/-! ## Loops and the end of a block (R107, R108) -/

theorem State.header_ok {s : State} {c : Nat} {v : VA} {w : Word} (h : s.header c v = .ok w) : s.fetchWord c v.toNat = .ok w := by
  unfold State.header at h
  split at h
  · cases h
  · next w' hw =>
    split at h
    · cases h; exact hw
    · cases h

/-- LOOP, its checks passed, skips a loop of no iterations or starts one (R107). -/
theorem loopStart_ok {s : State} {g : Guard} {c : Nat} {x : Slice} {k : Nat} {count : BitVec 32} {en : VA} {h he : Word}
    (hact : (x.lpOf k).act = false) (hst : s.header c x.blockEnd = .ok h) (hlb : Hdr.loopb h = true) (hen : s.header c en = .ok he)
    (hlt : ¬ en < x.blockEnd) :
    loopStart s g c x k count en = .ok (
      if count = 0 then (x.arrive (VA.plus en (Hdr.len he)), true)
      else (({ x with
        lp := x.lp.set k { act := true, start := x.blockEnd, endh := en, count, brk := 0, depth := x.rs.length }
        order := k :: x.order.filter (fun j => j != k) } : Slice).arrive x.blockEnd, true)) := by
  have hex : s.loopExit c en = VA.plus en (Hdr.len he) := by simp only [State.loopExit, State.header_ok hen]
  simp only [loopStart, hact, Bool.false_eq_true, if_false, hst, hlb, Bool.not_true, hen, hlt, hex]
  split <;> rfl

section
variable {x : Slice} {bad : VA → Bool} {next : VA} {k : Nat} {ks : List Nat}

/-- A level that does not end with this block is passed over (R108). -/
theorem Slice.passEnd_over (h : (x.lpOf k).act = false ∨ (x.lpOf k).endh ≠ x.hdr) :
    x.passEnd bad next (k :: ks) = x.passEnd bad next ks := by
  have : ¬ ((x.lpOf k).act && (x.lpOf k).endh == x.hdr) = true := by
    rcases h with h | h <;> simp [h]
  rw [Slice.passEnd]
  exact if_neg this

variable (ha : (x.lpOf k).act = true) (he : (x.lpOf k).endh = x.hdr)
include ha he

/-- What an active level that ends with this block comes to (R108). -/
theorem Slice.passEnd_level : x.passEnd bad next (k :: ks) =
    if x.rs.length > (x.lpOf k).depth then .error (Ev.own.in_ x x.am)
    else if (x.lpOf k).count.toNat > 1 then
      if bad (x.lpOf k).start then .error ({ Ev.badtgt with check := 11 }.in_ x x.am)
      else .ok ((x.setLp k { x.lpOf k with count := (x.lpOf k).count - 1 }).arrive (x.lpOf k).start)
    else ({ (x.setLp k { x.lpOf k with count := 0 }).endLoop k with am := x.am ||| (x.lpOf k).brk } : Slice).passEnd bad next ks := by
  have : ((x.lpOf k).act && (x.lpOf k).endh == x.hdr) = true := by simp [ha, he]
  rw [Slice.passEnd]
  exact if_pos this

theorem Slice.passEnd_deep (hd : x.rs.length > (x.lpOf k).depth) :
    x.passEnd bad next (k :: ks) = .error (Ev.own.in_ x x.am) := by
  rw [Slice.passEnd_level ha he, if_pos hd]

theorem Slice.passEnd_again (hd : x.rs.length ≤ (x.lpOf k).depth) (hc : 1 < (x.lpOf k).count.toNat) :
    x.passEnd bad next (k :: ks) =
      if bad (x.lpOf k).start then .error ({ Ev.badtgt with check := 11 }.in_ x x.am)
      else .ok ((x.setLp k { x.lpOf k with count := (x.lpOf k).count - 1 }).arrive (x.lpOf k).start) := by
  rw [Slice.passEnd_level ha he, if_neg (by omega), if_pos hc]

theorem Slice.passEnd_last (hd : x.rs.length ≤ (x.lpOf k).depth) (hc : (x.lpOf k).count = 1) :
    x.passEnd bad next (k :: ks) =
      ({ (x.setLp k { x.lpOf k with count := 0 }).endLoop k with am := x.am ||| (x.lpOf k).brk } : Slice).passEnd bad next ks := by
  rw [Slice.passEnd_level ha he, if_neg (by omega), if_neg (by rw [hc]; decide)]

end

/-- A slice that an instruction leaves at the end of its block passes it. -/
theorem went_at_end {x : Slice} {n : Nat} (bad : VA → Bool) (hend : x.ended = false) (hh : x.hword.isSome = true)
    (hpc : VA.plus x.pc n = x.blockEnd) :
    went bad n (x, false) = ({ x.tick with wait := .none } : Slice).passEnd bad (VA.plus x.pc n) x.order := by
  have hb : ({ x.tick with wait := .none } : Slice).blockEnd = VA.plus x.pc n := hpc.symm
  have hc : (({ x.tick with wait := .none } : Slice).hword.isSome &&
      VA.plus ({ x.tick with wait := .none } : Slice).pc n == ({ x.tick with wait := .none } : Slice).blockEnd) = true := by
    rw [hb]; simp [hh]
  have hm : ¬ (x.ended || false) = true := by simp [hend]
  rw [went, if_neg hm]
  exact if_pos hc

/-- NOP leaves each slice to go on. -/
theorem moves_nop (g : Guard) : Moves 1 (.nop g) (fun _ _ _ => true) fun _ _ x => (x, false) :=
  moves_of_perMove (g := g) (F := fun _ _ x => .ok (x, false)) (fun _ => rfl) (fun _ _ _ _ => rfl) (fun _ _ _ _ _ => rfl)
    fun _ _ _ => rfl

end Sys2Proof.Machine

end

section
/-! PROOFS. Registers (R29, R30, R115): a read after a write to the same and to another register, lane and kind. -/

namespace Sys2Proof.Machine

/-! ## Lane registers (R30, R115) -/

theorem Slice.rv_wv (x : Slice) (r l : Nat) (w : LWord) {k j : Nat} (hl : l < 4) (hj : j < 4) :
    (x.wv r l w).rv k j = if k = r ∧ j = l then w else x.rv k j := by
  rw [Slice.rv, Slice.wv, Cells.get_set]
  exact if_congr (by omega) rfl rfl

theorem Slice.rv_wv_other (x : Slice) {r l k j : Nat} (w : LWord) (hl : l < 4) (hj : j < 4) (h : k ≠ r ∨ j ≠ l) :
    (x.wv r l w).rv k j = x.rv k j := by
  rw [Slice.rv_wv x r l w hl hj, if_neg (by tauto)]

/-- The lane registers that a result of w bits spans (R5, R115). -/
def spanOfWidth (w : Nat) : Nat := if w ≤ 32 then 1 else if w ≤ 64 then 2 else 4

/-- A result reaches its own lane of the registers it spans. -/
theorem Slice.rv_putLane_other (x : Slice) {r l k j : Nat} (sg : Bool) (w v : Nat) (hl : l < 4) (hj : j < 4)
    (h : j ≠ l ∨ k < r ∨ r + spanOfWidth w ≤ k) : (x.putLane r l sg w v).rv k j = x.rv k j := by
  unfold spanOfWidth at h
  unfold Slice.putLane
  split
  · next hw =>
    rw [if_pos hw] at h
    rw [Slice.rv_wv_other _ _ hl hj (by omega)]
  · next hw =>
    rw [if_neg hw] at h
    split
    · next hw2 =>
      rw [if_pos hw2] at h
      rw [Slice.rv_wv_other _ _ hl hj (by omega), Slice.rv_wv_other _ _ hl hj (by omega)]
    · next hw2 =>
      rw [if_neg hw2] at h
      rw [Slice.rv_wv_other _ _ hl hj (by omega), Slice.rv_wv_other _ _ hl hj (by omega),
        Slice.rv_wv_other _ _ hl hj (by omega), Slice.rv_wv_other _ _ hl hj (by omega)]

theorem Slice.rv_putLane_narrow (x : Slice) {r l : Nat} (sg : Bool) {w : Nat} (v : Nat) (hl : l < 4) (hw : w ≤ 32) :
    (x.putLane r l sg w v).rv r l = BitVec.ofNat 32 (extend sg w 32 v) := by
  rw [Slice.putLane, if_pos hw, Slice.rv_wv _ _ _ _ hl hl, if_pos ⟨rfl, rfl⟩]

theorem Slice.rv_putLane_wide (x : Slice) {r l : Nat} (sg : Bool) {w : Nat} (v : Nat) (hl : l < 4) (hw : 32 < w) :
    (x.putLane r l sg w v).rv r l = BitVec.ofNat 32 v ∧ (x.putLane r l sg w v).rv (r + 1) l = BitVec.ofNat 32 (v / 2 ^ 32) := by
  rw [Slice.putLane, if_neg (by omega)]
  split <;> simp [Slice.rv_wv _ _ _ _ hl hl]

/-- A write that reaches lane registers alone. -/
def Slice.OnlyV (x y : Slice) : Prop := y = { x with v := y.v }

theorem Slice.OnlyV.refl (x : Slice) : x.OnlyV x := rfl

theorem Slice.OnlyV.trans {x y z : Slice} (h : x.OnlyV y) (k : y.OnlyV z) : x.OnlyV z := by
  rw [Slice.OnlyV] at h k ⊢
  rw [k, h]

theorem Slice.onlyV_wv (x : Slice) (r l : Nat) (w : LWord) : x.OnlyV (x.wv r l w) := rfl

theorem Slice.onlyV_putLane (x : Slice) (r l : Nat) (sg : Bool) (w v : Nat) : x.OnlyV (x.putLane r l sg w v) := by
  unfold Slice.putLane
  split
  · exact onlyV_wv ..
  · split
    · exact (onlyV_wv ..).trans (onlyV_wv ..)
    · exact (((onlyV_wv ..).trans (onlyV_wv ..)).trans (onlyV_wv ..)).trans (onlyV_wv ..)

theorem Slice.onlyV_foldl {f : Nat → Slice → Slice} (hf : ∀ l (x : Slice), x.OnlyV (f l x)) (ls : List Nat) (x : Slice) :
    x.OnlyV (ls.foldl (fun y l => f l y) x) := by
  induction ls generalizing x with
  | nil => exact .refl x
  | cons l ls ih => exact (hf l x).trans (ih (f l x))

theorem mem_lanes {m : Mask} {l : Nat} : l ∈ lanes m ↔ m.getLsbD l = true := by
  simp only [lanes, List.mem_filter, List.mem_cons, List.not_mem_nil, or_false, and_iff_right_iff_imp]
  intro h
  have := BitVec.lt_of_getLsbD h
  omega

theorem lanes_lt {m : Mask} {l : Nat} (h : l ∈ lanes m) : l < 4 := BitVec.lt_of_getLsbD (mem_lanes.mp h)

theorem lanes_nodup (m : Mask) : (lanes m).Nodup := List.Nodup.filter _ (by decide)

/-- What leaves a register's lane alone in each of some lanes leaves it alone. -/
theorem Slice.rv_foldl_other {f : Nat → Slice → Slice} {k j : Nat} {ls : List Nat}
    (hf : ∀ l ∈ ls, ∀ x : Slice, (f l x).rv k j = x.rv k j) (x : Slice) : (ls.foldl (fun y l => f l y) x).rv k j = x.rv k j := by
  induction ls generalizing x with
  | nil => rfl
  | cons l ls ih =>
    rw [List.foldl_cons, ih fun l' hl' => hf l' (List.mem_cons_of_mem _ hl'), hf l List.mem_cons_self]

/-- A lane's register holds what that lane's own write gives, where the writes of other lanes leave it alone. -/
theorem Slice.rv_foldl_at {f : Nat → Slice → Slice} {k j : Nat} {ls : List Nat} {v : LWord} (hj : j ∈ ls) (hn : ls.Nodup)
    (ho : ∀ l ∈ ls, l ≠ j → ∀ x : Slice, (f l x).rv k j = x.rv k j) (hv : ∀ x : Slice, (f j x).rv k j = v) (x : Slice) :
    (ls.foldl (fun y l => f l y) x).rv k j = v := by
  obtain ⟨as, bs, rfl⟩ := List.append_of_mem hj
  have hb : j ∉ bs := (List.nodup_cons.mp (List.nodup_append.mp hn).2.1).1
  rw [List.foldl_append, List.foldl_cons, Slice.rv_foldl_other, hv]
  exact fun l hl => ho l (by simp [hl]) fun h => hb (h ▸ hl)

section
variable (x : Slice) (m : Mask) (n : Nat) (sg : Bool) (w : Nat) (f : Nat → Nat)

theorem Slice.onlyV_putLanes : x.OnlyV (x.overLanes m fun l acc => acc.putLane n l sg w (f l)) :=
  Slice.onlyV_foldl (fun l y => y.onlyV_putLane n l sg w (f l)) _ x

theorem Slice.rv_putLanes_other {k j : Nat} (hj : j < 4) (h : m.getLsbD j = false ∨ k < n ∨ n + spanOfWidth w ≤ k) :
    (x.overLanes m fun l acc => acc.putLane n l sg w (f l)).rv k j = x.rv k j := by
  refine Slice.rv_foldl_other (f := fun l acc => acc.putLane n l sg w (f l)) (fun l hl y => ?_) x
  refine Slice.rv_putLane_other y sg w (f l) (lanes_lt hl) hj (h.imp_left fun hm he => ?_)
  rw [← he] at hl
  rw [mem_lanes.mp hl] at hm
  cases hm

/-- Each lane that takes part holds its own result. -/
theorem Slice.rv_putLanes_at {k j : Nat} {v : LWord} (hj : m.getLsbD j = true)
    (hv : ∀ y : Slice, (y.putLane n j sg w (f j)).rv k j = v) :
    (x.overLanes m fun l acc => acc.putLane n l sg w (f l)).rv k j = v :=
  Slice.rv_foldl_at (f := fun l acc => acc.putLane n l sg w (f l)) (mem_lanes.mpr hj) (lanes_nodup m)
    (fun l hl hne y => Slice.rv_putLane_other y sg w (f l) (lanes_lt hl) (BitVec.lt_of_getLsbD hj) (.inl hne.symm)) hv x

end

/-! ## Slice scalars and predicates (R30) -/

theorem Slice.sr_ws (x : Slice) (r : Nat) (w : Word) (k : Nat) : (x.ws r w).sr k = if k = r then w else x.sr k :=
  Cells.get_set ..

theorem Slice.setInt_s (x : Slice) (g : Guard) (n : BitVec 6) (sg : Bool) (w : Nat) (f : Nat → Nat) : x.setInt g (.s n) sg w f =
    if x.part_ g = 0 then x else x.ws n.toNat (BitVec.ofNat 64 (extend sg w 64 (f 0))) := rfl

theorem Slice.rp_wp_other (x : Slice) {r k : Nat} (m : Mask) (h : k ≠ r) : (x.wp r m).rp k = x.rp k := by
  unfold Slice.wp
  split
  · rfl
  · unfold Slice.rp
    split
    · rfl
    · exact Cells.get_set_other 0 x.p m h

theorem Slice.rp_wp_same (x : Slice) {r : Nat} (m : Mask) (h : r ≠ 0) : (x.wp r m).rp r = m := by
  rw [Slice.wp, if_neg h, Slice.rp, if_neg h, Cells.get_set_same]

theorem Slice.wp_eq (x : Slice) (r : Nat) (m : Mask) : x.wp r m = { x with p := (x.wp r m).p } := by
  unfold Slice.wp; split <;> rfl

/-- One lane's bit put into a mask. -/
theorem putBit_getLsbD (acc : Mask) (b : Bool) {l j : Nat} (hl : l < 4) :
    (if b then acc ||| (1#4 <<< l) else acc &&& ~~~ (1#4 <<< l)).getLsbD j = if j = l then b else acc.getLsbD j := by
  have hbit : (1#4 <<< l).getLsbD j = decide (l = j) := (BitVec.getLsbD_twoPow l j).trans (by simp [hl])
  by_cases he : j = l
  · subst he
    cases b <;> simp [hbit]
  · have : ¬ l = j := fun h => he h.symm
    cases b
    · simpa [hbit, he, this] using BitVec.lt_of_getLsbD
    · simp [hbit, he, this]

theorem foldl_putBit_getLsbD (f : Nat → Bool) (ls : List Nat) (acc : Mask) (j : Nat) (hl : ∀ l ∈ ls, l < 4) :
    (ls.foldl (fun acc l => if f l then acc ||| (1#4 <<< l) else acc &&& ~~~ (1#4 <<< l)) acc).getLsbD j =
      if j ∈ ls then f j else acc.getLsbD j := by
  induction ls generalizing acc with
  | nil => rfl
  | cons l ls ih =>
    rw [List.foldl_cons, ih _ fun k hk => hl k (List.mem_cons_of_mem _ hk), putBit_getLsbD acc (f l) (hl l List.mem_cons_self)]
    by_cases hj : j ∈ ls
    · simp [hj]
    · by_cases he : j = l <;> simp [hj, he]

/-- The flags that some lanes raise, joined (R145). -/
theorem foldl_flags_getLsbD (f : Nat → Flags) (ls : List Nat) (acc : Flags) (k : Nat) :
    (ls.foldl (fun acc l => acc ||| f l) acc).getLsbD k = (acc.getLsbD k || ls.any fun l => (f l).getLsbD k) := by
  induction ls generalizing acc with
  | nil => simp
  | cons l ls ih => rw [List.foldl_cons, ih, BitVec.getLsbD_or, List.any_cons, Bool.or_assoc]

/-- A float result of one register: the lanes' words, then the flags that they raise. -/
theorem Slice.setFloat_v (x : Slice) (g : Guard) (n : BitVec 8) (w : Nat) (f : Nat → Nat × Flags) : x.setFloat g (.v n) w f =
    (x.overLanes (x.part_ g) fun l acc => acc.putLane n.toNat l false w (f l).1).setFlags
      ((lanes (x.part_ g)).foldl (fun acc l => acc ||| (f l).2) 0) := rfl

/-- A float result reaches lane registers and the region's shadow of the flags, and nothing else. -/
theorem Slice.setFloat_eq (x : Slice) (g : Guard) (n : BitVec 8) (w : Nat) (f : Nat → Nat × Flags) : x.setFloat g (.v n) w f =
    { x with
      v := (x.setFloat g (.v n) w f).v
      shadow := x.shadow ||| (lanes (x.part_ g)).foldl (fun acc l => acc ||| (f l).2) 0 } :=
  congrArg (Slice.setFlags · ((lanes (x.part_ g)).foldl (fun acc l => acc ||| (f l).2) 0))
    (x.onlyV_putLanes (x.part_ g) n.toNat false w fun l => (f l).1)

/-- The flags of a float result join those of the slice and its region (R145). -/
theorem Slice.setFloat_flags (x : Slice) (g : Guard) (n : BitVec 8) (w : Nat) (f : Nat → Nat × Flags) (k : Nat) :
    (x.setFloat g (.v n) w f).flg = x.flg ∧ (x.setFloat g (.v n) w f).shadow.getLsbD k =
      (x.shadow.getLsbD k || (lanes (x.part_ g)).any fun j => (f j).2.getLsbD k) := by
  rw [Slice.setFloat_eq]
  refine ⟨rfl, ?_⟩
  simp only [BitVec.getLsbD_or, foldl_flags_getLsbD]
  simp

end Sys2Proof.Machine

end

section
/-! PROOFS. The skipper (R277 to R279). -/

namespace Sys2Proof.Machine

/-! ## Logged writes -/

namespace Slice

theorem keeps_writeAll (x : Slice) (ws : List RegWrite) : (x.writeAll ws).keeps x :=
  keeps_foldl (fun y w => keeps_apply w y) ws x

theorem keeps_replayA (x : Slice) : x.replayA.keeps x :=
  keeps_trans (y := x.writeAll x.supA.logged) ⟨rfl, rfl, rfl, rfl, rfl⟩ (x.keeps_writeAll _)

end Slice

/-! ## The skipper's operations keep a gang's slices in their places (R277 to R279) -/

namespace Keeps

/-- Steps that may fail, each keeping the slices in their places. -/
theorem foldlOk {α : Type} {f : Except Ev State → α → Except Ev State} {uid : Nat} (herr : ∀ e x, f (.error e) x = .error e)
    (hf : ∀ (s : State) x (t : State), f (.ok s) x = .ok t → s.Keeps t uid) {l : List α} {s t : State}
    (h : l.foldl f (.ok s) = .ok t) : s.Keeps t uid := by
  induction l generalizing s with
  | nil => cases h; exact refl ..
  | cons x l ih =>
    rw [List.foldl_cons] at h
    cases hx : f (.ok s) x with
    | ok u => rw [hx] at h; exact trans (hf s x u hx) (ih h)
    | error e =>
      have herrs : ∀ l : List α, l.foldl f (.error e) = .error e := fun l => by
        induction l with
        | nil => rfl
        | cons y l ih => rw [List.foldl_cons, herr, ih]
      rw [hx, herrs] at h
      cases h

theorem skWrite (s : State) (p : SkPage) (off x uid : Nat) : s.Keeps (s.skWrite p off x) uid := same uid rfl rfl

theorem skopEnq {s : State} {p : SkPage} {desc n : Nat} {r : Word × State} (uid : Nat) (h : s.skopEnq p desc n = .ok r) :
    s.Keeps r.2 uid := by
  unfold State.skopEnq at h
  split at h
  · next head tail hh ht =>
    by_cases hst : (if p.status n 8 ≠ 0 then p.status n 8 else if tail = 0 then 0 else p.status tail 8) ≠ 0
    · simp only [if_pos hst] at h
      cases h; exact refl s uid
    · simp only [if_neg hst] at h
      cases h
      refine trans (skWrite s p n 0 uid) (trans ?_ (skWrite ..))
      split <;> exact skWrite ..
  · cases h
  · cases h

theorem chaseOp {blk : Block} {b c : Opd} {s : State} {x : Slice} {p : SkPage} {off : Nat} {r : Word × State} (uid : Nat)
    (h : Machine.chaseOp blk b c s x p off = .ok r) : s.Keeps r.2 uid := by
  unfold Machine.chaseOp at h
  split at h
  · cases h
  · split at h
    · cases h
    · split at h
      · cases h; exact same uid rfl rfl
      · cases h; exact refl s uid

theorem skopSend (s : State) (b : Block) (x : Slice) (d : Opd) (reply : Word) (uid : Nat) : s.Keeps (s.skopSend b x d reply) uid := by
  unfold State.skopSend
  simp only
  have hpub : s.Keeps (s.publishHeldOf b x) uid := same uid rfl rfl
  have hacc := trans (trans hpub (newId ..)) (modShare _ uid b.uid x.share fun sh => sh.accept 4)
  refine andSame (trans hacc (modSlice _ uid b.uid x.num _ ?_)) rfl rfl
  exact fun y => ⟨rfl, rfl, rfl, rfl, rfl⟩

theorem skopRun {s t : State} {g : Guard} {d a : Opd} {size : Nat} {write : Bool}
    {op : State → Slice → SkPage → Nat → Except Ev (Word × State)} {blk : Block} {l : List Slice} {uid : Nat}
    (hop : ∀ (s : State) x p off r, op s x p off = .ok r → s.Keeps r.2 uid)
    (h : Machine.skopRun s g d a size write op blk l = .ok t) : s.Keeps t uid := by
  refine trans (rememberAll ..) (foldlOk (fun _ _ => rfl) (fun s x t ht => ?_) h)
  simp only at ht
  split at ht
  · cases ht; exact refl ..
  · split at ht
    · cases ht
    · next hok => cases ht; exact trans (hop _ _ _ _ _ hok) (skopSend ..)

theorem skopReplays (s : State) (g : Guard) (blk : Block) (l : List Slice) (uid : Nat) :
    s.Keeps (Machine.skopReplays s g blk l) uid :=
  overSlices (fun s b x => by
    split
    · exact modSlice _ _ _ _ _ fun y => y.keeps_replayA
    · exact refl ..) s g blk l

end Keeps

/-- A SKOP whose checks pass and that need not wait is performed, and goes on. -/
theorem performs_skop {n : Nat} {i : Instr} {g : Guard} {d a : Opd} {size : Nat} {write : Bool} {bad : State → Block → Slice → Bool}
    {op : Block → State → Slice → SkPage → Nat → Except Ev (Word × State)}
    (hexec : ∀ s, exec i s = .next (s.perGang n false fun blk l => skopGang s g d a size write (bad s blk) (op blk) blk l))
    (hop : ∀ blk (s : State) x p off r uid, op blk s x p off = .ok r → s.Keeps r.2 uid) :
    Performs n i
      (fun s blk l => (skopEv s g a size write (bad s blk) blk l).isNone && !skopWaits s g a size write blk l &&
        isOk (skopRun s g d a size write (op blk) blk l))
      (fun s blk l => skopReplays (okOr s (skopRun s g d a size write (op blk) blk l)) g blk l) := by
  refine performs_of_perGang hexec (fun s blk l hok => ?_) fun s blk l => Keeps.trans ?_ (Keeps.skopReplays ..)
  · simp only [Bool.and_eq_true, Option.isNone_iff_eq_none, Bool.not_eq_true'] at hok
    obtain ⟨⟨hev, hwait⟩, hrun⟩ := hok
    cases hr : skopRun s g d a size write (op blk) blk l with
    | error e => rw [hr] at hrun; cases hrun
    | ok t => simp only [skopGang, hev, hwait, hr, okOr, Bool.false_eq_true, if_false]
  · cases h : skopRun s g d a size write (op blk) blk l with
    | error e => exact Keeps.refl ..
    | ok t => exact Keeps.skopRun (fun s x p off r => hop blk s x p off r blk.uid) h

/-! ## A reply at the head of q1 (R277) -/

section
variable {s : State} {c : Cmd} {b : Block} {x : Slice} {uid t n : Nat} (hc : s.cmds.find? (fun y => y.id == c.id) = some c)
  (hblk : c.block = some uid) (hb : s.block? uid = some b) (hx : b.slice? c.slice = some x) (hq : x.q1.head? = some c.id)
include hc hblk hb hx hq

theorem exec_skipperReply_skip {reply : Word} (hk : c.kind = .skip reply) :
    exec (.skipperReply c.id) s = .next (s.replied c uid (match c.dst with | some r => [.s r reply] | none => []) true) := by
  change execSkipperReply c.id s = _
  simp only [execSkipperReply, hc, hk, hblk, hb, Option.bind_some, hx, hq, if_true] <;> rfl

theorem exec_skipperReply_far {place : Far} {va : Nat} {ws : List RegWrite} (hk : c.kind = .far place va ws) :
    exec (.skipperReply c.id) s = .next (s.replied c uid ws false) := by
  change execSkipperReply c.id s = _
  simp only [execSkipperReply, hc, hk, hblk, hb, Option.bind_some, hx, hq, decide_true, Bool.or_true, if_true]

end

/-- What a reply leaves where its command counts on a timeline. -/
theorem replied_eq {c : Cmd} {t n : Nat} (ht : c.tl = some (t, n)) (s : State) (uid : Nat) (ws : List RegWrite) (log : Bool) :
    s.replied c uid ws log =
      ({ ((s.modSlice uid c.slice fun y =>
          { (y.writeAll (y.awaitedWrites c.id ws)) with
            q1 := y.q1.filter (fun k => k != c.id), pend := y.pend.filter (fun p => p.2 != c.id)
            supA := if log then y.supA.reply c.id ws else y.supA }).modShare uid c.share
          fun sh => sh.completeTl t n) with
        cmds := s.cmds.filter fun y => y.id != c.id } : State).answered c.id := by
  simp only [State.replied, ht, State.modShare_cmds, State.modSlice_cmds]

/-! ## ENQ (R279) -/

theorem SkPage.status_misaligned (p : SkPage) {x : Nat} (n : Nat) (h : x % 8 ≠ 0) : p.status x n = 4 := if_pos h

theorem SkPage.status_past (p : SkPage) {x n : Nat} (h8 : x % 8 = 0) (h : x + n > p.leaf.size) : p.status x n = 3 := by
  rw [SkPage.status, if_neg (not_not.mpr h8), if_pos h]

theorem SkPage.status_good (p : SkPage) {x n : Nat} (h8 : x % 8 = 0) (h : x + n ≤ p.leaf.size) : p.status x n = 0 := by
  rw [SkPage.status, if_neg (not_not.mpr h8), if_neg (by omega)]

section
variable {s : State} {p : SkPage} {desc head tail : Nat} (n : Nat) (hh : s.skRead p desc = .ok head)
  (ht : s.skRead p (desc + 8) = .ok tail)
include hh ht

/-- A pointer with a bad status ends ENQ before any write. -/
theorem skopEnq_bad (h : p.status n 8 ≠ 0) : s.skopEnq p desc n = .ok (skReply tail (p.status n 8), s) := by
  simp only [State.skopEnq, hh, ht, if_pos h]

/-- ENQ on an empty queue. -/
theorem skopEnq_empty (h : p.status n 8 = 0) (h0 : tail = 0) :
    s.skopEnq p desc n = .ok (skReply 0 0, ((s.skWrite p n 0).skWrite p desc n).skWrite p (desc + 8) n) := by
  subst h0
  simp only [State.skopEnq, hh, ht, h, ne_eq, not_true_eq_false, if_true, if_false]

end

end Sys2Proof.Machine

end

section
/-! PROOFS. The obligations. -/

open Sys2Proof Sys2Proof.Machine

/-- Settles O2: each instruction's round trip is its own lemma of Laws/PerInstr.lean. -/
theorem encodedInstructionDecodes : Obligations.EncodedInstructionDecodes := Laws.RoundTrip.statement_all

/-- Settles O3: the decoder answers only with an instruction whose fields are the word's. -/
theorem decodedInstructionEncodes : Obligations.DecodedInstructionEncodes := by
  intro live accn w next i h
  obtain ⟨hp, hc⟩ := decodeAt_ok h
  exact ⟨encode_head_of_parts hp, hc⟩

/-- Settles O4: the map has no row for the OPC, so every slice of a gang refuses the word under check 3. -/
theorem unassignedOpcodesRaise : Obligations.UnassignedOpcodesRaise := by
  refine ⟨fun live accn w next hw => ⟨decodeAt_unassigned hw live accn next, fun s b l x hi hx _ _ => ?_⟩,
    fun n s b l x hi hx => exec_wordNotInstruction hi hx n⟩
  rw [runWord_all_refuse (List.mem_of_mem_head? hx) fun y _ => decodeAt_unassigned hw _ _ _, exec_wordNotInstruction hi hx]

/-- Settles O59: every arm of the dispatch, and every way a turn can go, ends in a next state. -/
theorem everyStepGoesOn : Obligations.EveryStepGoesOn := step_next

/-- Settles O58: the turn comes to the word at the gang's pc in a state that has the same gangs, and there each clause is the
lemma about that word. -/
theorem stepRunsTheDecodedInstruction : Obligations.StepRunsTheDecodedInstruction := by
  intro s t blk gang rest b x l w i ha ht hb hg hm hh hpc c f hw hheld u next reads
  subst ht
  have hsame : State.SameGangs { s with cur := some { block := blk, gang, only := none } } u := by
    have hf : State.SameGangs { s with cur := some { block := blk, gang, only := none } } f := by
      obtain ⟨hblocks, hlaunches, hcur⟩ := State.SameGangs.remember { s with
        cycle := s.cycle + 1, fresh := s.fresh + 1, agenda := rest, cur := some { block := blk, gang, only := none } } c x.pc.toNat
      exact ⟨hblocks, hlaunches, hcur⟩
    exact hf.trans (.trans (.fetched f b (x :: l)) (.markIssued ..))
  have hlr : u.lrOf b = s.lrOf b := hsame.lrOf b
  have hiss : u.issuing = some (b, x :: l) := by
    rw [hsame.issuing, ← hg]; exact issuing_of_cur rfl hb
  have hreads : ∀ y, u.decodeIn b w y = reads y := fun y => by rw [decodeIn_eq, hlr]
  have hnext : u.nextInBlock (u.lrOf b).ctx x = next x := by
    rw [hlr]; simp only [State.nextInBlock, beq_iff_eq]; rfl
  have hstep : step s = u.runWord b (x :: l) x w := by
    rw [step_gang ha hb hm]
    exact runGang_word hb hg hh hpc rfl hw hheld
  have hall (hx : reads x = .ok i) (hl : ∀ y ∈ l, ∃ j, reads y = .ok j) : ∀ y ∈ x :: l, ∃ j, u.decodeIn b w y = .ok j := by
    intro y hy
    rw [hreads]
    rcases List.mem_cons.mp hy with rfl | hy
    exacts [⟨i, hx⟩, hl y hy]
  refine ⟨fun hx hl he ho => ?_, fun hx hl he ho hp => ?_, fun n hn => ?_, fun n hn ho hm => ?_, ?_⟩
  · rw [hstep, runWord_runs ((hreads x).trans hx) (hall hx hl) (by rw [hnext]; exact he) ho]; rfl
  · rw [hstep]; exact runWord_not_own ((hreads x).trans hx) (hall hx hl) he ho hp
  · rw [hstep]; exact runWord_all_refuse List.mem_cons_self fun y hy => (hreads y).trans (hn y hy)
  · simp only [← hreads] at hn ho hm ⊢
    rw [hstep, runWord_some_refuse x hn hm ho]
    rfl
  · exact exec_wordNotInstruction hiss rfl

/-- Settles O12: each instruction writes one result to the registers of its slices, and so goes on. -/
theorem integerInstructionsComplete : Obligations.IntegerInstructionsComplete := by
  refine ⟨?_, ?_⟩
  · intro put
    refine ⟨fun g ty sat op d a b c => completes_setInt fun _ => rfl, fun g ty sat op d a b => completes_setInt fun _ => rfl,
      fun g ty sat op d a b c => completes_setInt fun _ => rfl, fun g ty op d a b => ?_,
      fun g ty tt d a b c => completes_setInt fun _ => rfl, fun g ty op d a b c => completes_setInt fun _ => rfl,
      fun g ty op d a => ?_, fun g ty op d a b c => completes_setInt fun _ => rfl, fun g ty cnd d a b => completes_setPred fun _ => rfl,
      fun g ty d a b c => completes_setInt fun _ => rfl, fun g k d a b c => completes_setInt fun _ => rfl⟩
    · simpa only [minMaxVal_eq] using completes_setInt (i := .iminmax g ty op d a b)
        (f := fun e x k => minMaxVal ty op (tvalOf e x k ty a) (tvalOf e x k ty b)) fun _ => rfl
    · cases op <;> exact completes_setInt fun _ => rfl
  · refine ⟨fun g d a => completes_setInt fun _ => rfl, fun g d a => completes_setInt fun _ => rfl, fun g n => completes_ws fun _ => rfl,
      fun g n => ?_⟩
    exact completes_of_perSlice (F := fun e x => .ok (x.writeFlg (svalOf e x (.s n)))) (fun _ => rfl)
      (fun e x _ => by rw [svalOf_s]; rfl) fun _ x => ⟨rfl, rfl, rfl, rfl, rfl⟩

/-- Settles O6: YIELD's note keeps the gang's slices in their places, and VOTE writes one register of each. -/
theorem yieldAndVoteComplete : Obligations.YieldAndVoteComplete := by
  refine ⟨fun g => performs_of_perGang (fun _ => rfl) (fun _ _ _ _ => rfl) fun s b l => ?_,
    fun g n a => completes_setPred fun _ => rfl, fun g n a => completes_setPred fun _ => rfl,
    fun g n a => completes_ws fun _ => rfl, fun g n a => ?_⟩
  · split
    · cases l <;> exact Keeps.same b.uid rfl rfl
    · exact Keeps.refl s b.uid
  · exact completes_of_perSlice (F := fun e x => .ok (voteSlice g .uni (.p n) (.v a) e x)) (fun _ => rfl)
      (fun e x _ => congrArg Except.ok (voteSlice_uni g n a e x)) fun _ x => x.keeps_setPred ..

/-- Settles O7: each of the five is a transfer in every slice of the gang (`moves_transfer`). -/
theorem branchesTransfer : Obligations.BranchesTransfer := by
  unfold Obligations.BranchesTransfer
  intro jump address
  have haddr : ∀ (g : Guard) (a : Opd) (n : Nat) (s : State) (b : Block) (x : Slice), address a s b x = true →
      jumpTo s g (s.envOf b x) x a n =
        s.transfer (s.lrOf b).ctx (id x) (x.part_ g) ((svalOf (s.envOf b x) x a).setWidth 57) (VA.plus x.pc n) := by
    intro g a n s b x h
    simp only [address, Bool.and_eq_true, decide_eq_true_eq, beq_iff_eq] at h
    obtain ⟨hlt, h8⟩ := h
    exact jumpTo_ok hlt h8
  refine ⟨fun g off => moves_transfer (fun _ => rfl) (fun _ => rfl) fun _ _ _ _ _ => rfl,
    fun g p off => moves_transfer (fun _ => rfl) (fun _ => rfl) fun _ _ _ _ _ => rfl,
    fun g p off => moves_transfer (fun _ => rfl) (fun _ => rfl) fun _ _ _ _ _ => rfl,
    fun g p off => moves_transfer (fun _ => rfl) (fun _ => rfl) fun s b x h _ => ?_,
    fun g a => moves_transfer (fun _ => rfl) (fun _ => rfl) fun s b x _ h => haddr g a _ s b x h,
    fun g d off => moves_transfer (fun _ => rfl) (fun x => (x.keeps_setS g d _).1) fun _ _ _ _ _ => rfl,
    fun g n => moves_transfer (fun _ => rfl) (fun _ => rfl) fun s b x _ h => haddr g (.s n) 1 s b x h⟩
  simp only [brpMask, ne_eq, h, not_false_eq_true, decide_true, Bool.true_and, decide_eq_true_eq]
  rfl

/-- Settles O9: LOOP by `loopStart_ok`, the end of a block by one level's inversion (`Slice.passEnd_level`). -/
theorem loopsStartAndEnd : Obligations.LoopsStartAndEnd := by
  refine ⟨fun g k a off => ?_,
    fun x bad next k ks ha he hc => ⟨fun hd => ?_, fun hd h1 => ?_, fun hd h1 => Slice.passEnd_last ha he hd h1⟩,
    fun x bad next k ks h => Slice.passEnd_over h, fun x bad next => rfl, ?_⟩
  · intro count en
    refine moves_of_perMove (g := g) (fun _ => rfl) (fun s b x h => if_pos h) (fun s b x h hok => ?_) fun s b x => ?_
    · simp only [h, decide_false, Bool.false_or, Bool.and_eq_true, Bool.not_eq_true', decide_eq_false_iff_not] at hok
      obtain ⟨⟨⟨⟨hact, hlt⟩, hst⟩, hen⟩, hlb⟩ := hok
      have hen := ok_of_isOk 0 hen
      have hL := loopStart_ok (g := g) (count := count s b x) hact (ok_of_isOk 0 hst) hlb hen hlt
      rw [if_neg h, State.header_ok hen]
      exact hL.trans (by split <;> rfl)
    · split
      · rfl
      · split <;> exact Slice.arrive_num ..
  · exact ⟨_, Slice.passEnd_deep ha he hd, rfl⟩
  · have h2 : 1 < (x.lpOf k).count.toNat := by bv_omega
    rw [Slice.passEnd_again ha he hd h2]
    exact ⟨fun hb => by simp only [hb, Bool.false_eq_true, if_false], fun hb => ⟨_, by rw [if_pos hb], rfl⟩⟩
  · intro g s b l hi hp bad hl
    have hw := (plain_spec hi hp).1
    have hwent : ∀ x ∈ l, went bad 1 (x, false) =
        ({ x.tick with wait := .none } : Slice).passEnd bad (VA.plus x.pc 1) x.order := fun x hx => by
      obtain ⟨hh, hpc, -⟩ := hl x hx
      exact went_at_end bad (issuing_ended hi hw x hx) hh hpc
    have hok : ∀ x ∈ l, true = true ∧ isOk (went bad 1 (x, false)) = true := fun x hx => by
      obtain ⟨-, -, hpass⟩ := hl x hx
      exact ⟨rfl, hwent x hx ▸ hpass⟩
    rw [moves_nop g s b l hi hp hok]
    exact congrArg (fun m => Host.Outcome.next (s.parted b m)) (List.map_congr_left fun x hx => by rw [hwent x hx])

/-- Settles O13: a write to lane registers is a fold over the lanes, each of which touches its own registers. -/
theorem registerWritesKeepTheRest : Obligations.RegisterWritesKeepTheRest := by
  unfold Obligations.RegisterWritesKeepTheRest
  intro span
  refine ⟨?lane, ?scalar, fun x g f => ⟨rfl, rfl⟩, ?pred, ?float⟩
  case lane =>
    intro x g n sg w f
    refine ⟨Slice.onlyV_putLanes .., fun r j hj h => Slice.rv_putLanes_other _ _ _ _ _ _ hj h, fun j hj => ?_⟩
    have hj4 := BitVec.lt_of_getLsbD hj
    exact ⟨fun hw => Slice.rv_putLanes_at _ _ _ _ _ _ hj fun y => y.rv_putLane_narrow sg (f j) hj4 hw,
      fun hw => ⟨Slice.rv_putLanes_at _ _ _ _ _ _ hj fun y => (y.rv_putLane_wide sg (f j) hj4 hw).1,
        Slice.rv_putLanes_at _ _ _ _ _ _ hj fun y => (y.rv_putLane_wide sg (f j) hj4 hw).2⟩⟩
  case scalar =>
    intro x g n sg w f
    rw [Slice.setInt_s]
    split
    · next h0 => exact ⟨fun _ => rfl, rfl, fun _ _ => rfl, fun h => absurd h0 h⟩
    · next h0 => exact ⟨fun h => absurd h h0, rfl, fun k hk => by rw [Slice.sr_ws, if_neg hk],
        fun _ => by rw [Slice.sr_ws, if_pos rfl]⟩
  case pred =>
    intro x g n f
    refine ⟨Slice.wp_eq .., fun k hk => Slice.rp_wp_other x _ hk, fun hn j => ?_⟩
    have hn : n.toNat ≠ 0 := fun h => hn (BitVec.eq_of_toNat_eq h)
    rw [Slice.setPred, Slice.rp_wp_same x _ hn, foldl_putBit_getLsbD f _ _ j fun l => lanes_lt]
    simp only [mem_lanes]
  case float =>
    intro x g n w f hw
    refine ⟨?_, fun r j hj h => ?_, fun k => ?_⟩
    · rw [Slice.setFloat_eq]
      exact ⟨rfl, rfl, rfl⟩
    · rw [Slice.setFloat_v]
      exact Slice.rv_putLanes_other _ _ _ _ _ _ hj (h.imp_right fun h => by simp only [spanOfWidth, hw, if_true]; omega)
    · obtain ⟨hflg, hsh⟩ := x.setFloat_flags g n w f k
      rw [hflg, hsh]
      cases x.flg.getLsbD k <;> simp

/-- Settles O32: an operation keeps the slices in their places, so the instruction goes on; the reply and the walk by one case each. -/
theorem skipperOperationsComplete : Obligations.SkipperOperationsComplete := by
  refine ⟨fun g d a b => ?_, fun g d a b c => ?_, fun s c b x uid t n hc hblk htl hb hx hq => ?_, fun s p desc n head tail hh ht => ?_,
    fun s p koff key hops h => ?_, fun s p koff key x => rfl, fun s p koff key hops x h0 hst hr => ?_⟩
  · exact performs_skop (bad := fun _ _ _ => false) (op := fun blk => enqOp blk b) (fun _ => rfl)
      fun blk s x p off r uid h => Keeps.skopEnq uid h
  · exact performs_skop (bad := fun s blk x => chaseBad (chaseWord s blk c x)) (op := fun blk => chaseOp blk b c) (fun _ => rfl)
      fun blk s x p off r uid h => Keeps.chaseOp uid h
  · intro comes
    refine ⟨fun reply hk => ?_, fun place va ws hk => ?_⟩
    · exact (exec_skipperReply_skip hc hblk hb hx hq hk).trans (congrArg Host.Outcome.next (replied_eq htl ..))
    · exact (exec_skipperReply_far hc hblk hb hx hq hk).trans (congrArg Host.Outcome.next (replied_eq htl ..))
  · refine ⟨fun h8 => ?_, fun h8 hs => ?_, fun h8 hs h0 => skopEnq_empty n hh ht (p.status_good h8 hs) h0⟩
    · have hst := p.status_misaligned 8 h8
      rw [skopEnq_bad n hh ht (by rw [hst]; decide), hst]
    · have hst := p.status_past h8 hs
      rw [skopEnq_bad n hh ht (by rw [hst]; decide), hst]
  · obtain ⟨k, rfl⟩ := Nat.exists_eq_succ_of_ne_zero h.ne'
    rfl
  · simp only [State.skopWalk, h0, hst, hr, ne_eq, not_true_eq_false, if_false, if_true]

end

section
/-! PROOFS. Task graphs (R372 to R374): what the reads of the FCP leave, and what each outcome of GUP, GFREE, GKICK and a replay is. -/

namespace Sys2Proof.Machine

/-! ## Reading memory leaves the scheduler (R315, R348) -/

/-- Steps that each leave the scheduler leave it together. -/
theorem State.foldl_sched {α : Type} {f : State → α → State} (hf : ∀ (s : State) x, (f s x).sched = s.sched) (l : List α) (s : State) :
    (l.foldl f s).sched = s.sched :=
  List.foldlRecOn (motive := fun t => t.sched = s.sched) l f rfl fun t ht x _ => (hf t x).trans ht

theorem State.startFetch_sched (s : State) (n : Nat) : (s.startFetch n).sched = s.sched := by
  unfold State.startFetch
  simp only
  split <;> rfl

theorem State.policyFetch_sched (s : State) (p : Phys) : (s.policyFetch p).sched = s.sched := by
  unfold State.policyFetch
  simp only
  split
  · split
    · exact startFetch_sched ..
    · rfl
  · rfl

theorem State.sendFlit_sched (s : State) (p : Nat) (slot : Bool) (kind vc : Nat) (text : List Byte) :
    (s.sendFlit p slot kind vc text).sched = s.sched := by
  unfold State.sendFlit
  simp only
  split
  · rfl
  · split <;> rfl

theorem State.sendNow_sched (s : State) (p kind vc : Nat) (text : List Byte) : (s.sendNow p kind vc text).sched = s.sched := by
  unfold State.sendNow
  split
  · exact sendFlit_sched ..
  · rfl

theorem State.carry_sched (s : State) (p vc : Nat) : (s.carry p vc).sched = s.sched :=
  (foldl_sched (fun s t => sendNow_sched s p 1 vc t) _ _).trans s.stepTag_sched

theorem State.sendOut_sched (s : State) (p : Phys) (w : Bool) : (s.sendOut p w).sched = s.sched := by
  unfold State.sendOut
  split
  · exact foldl_sched (fun s k => carry_sched s k 0) _ s
  · rfl

theorem State.readsVa_sched (s : State) (c va n : Nat) : (s.readsVa c va n).sched = s.sched := by
  refine foldl_sched (fun t a => ?_) _ s
  split
  · exact policyFetch_sched ..
  · rfl

theorem State.asksVa_sched (s : State) (c va n : Nat) : (s.asksVa c va n).sched = s.sched := by
  refine foldl_sched (fun t a => ?_) _ s
  split
  · exact sendOut_sched ..
  · rfl

theorem State.readsAll_sched (s : State) (c : Nat) (l : List (Nat × Nat)) : (s.readsAll c l).sched = s.sched := by
  refine foldl_sched (fun t x => ?_) l s
  rw [asksVa_sched, readsVa_sched]

/-! ## GUP (R372) -/

/-- The state in which an upload has read what it reads. -/
def State.uploadRead (s : State) (addr : Nat) : State := (s.uploadReads addr).foldl (fun s x => s.readsAll x.1 x.2) s

theorem State.uploadRead_sched (s : State) (addr : Nat) : (s.uploadRead addr).sched = s.sched := by
  refine foldl_sched (fun t x => ?_) _ s
  exact readsAll_sched ..

section
variable {s : State} {addr : Word} (ho : s.hostOpen = true)
  (hb : ((s.uploadReads addr.toNat).any fun x => s.anyBlocked x.1 x.2) = false)
include ho hb

theorem State.graphUpload_ok {c slot : Nat} {nodes : List GNode} (hu : (s.uploadRead addr.toNat).upload addr.toNat = .ok (c, nodes))
    (hf : (s.uploadRead addr.toNat).freeGraph = some slot) :
    (s.graphUpload addr).sched = { s.sched with
      gres := BitVec.ofNat 64 slot
      graphs := { slot, ctx := c, nodes, kicks := [], kickReg := 0 } :: s.sched.graphs } := by
  unfold State.uploadRead at hu hf
  simp only [State.graphUpload, ho, hb, hu, hf, Bool.not_true, Bool.false_eq_true, if_false, State.setGres, Nat.zero_mul, Nat.add_zero]
  rw [← State.uploadRead, State.uploadRead_sched]

theorem State.graphUpload_error {k : Nat} (hu : (s.uploadRead addr.toNat).upload addr.toNat = .error k) :
    s.graphUpload addr = (s.uploadRead addr.toNat).setGres 0 k := by
  unfold State.uploadRead at hu
  simp only [State.graphUpload, ho, hb, hu, Bool.not_true, Bool.false_eq_true, if_false, State.uploadRead]

end

/-! ## GFREE and GKICK (R372, R373) -/

section
variable {s : State} {g : Graph} (ho : s.hostOpen = true) (hg : s.graph? g.slot = some g)
include ho hg

theorem State.graphFree_idle (hi : g.busy = false) :
    s.graphFree g.slot = { s with sched := { s.sched with graphs := s.sched.graphs.filter fun x => x.slot != g.slot } } := by
  simp only [State.graphFree, hg, ho, hi, Bool.not_true, Bool.false_eq_true, if_false]

theorem State.graphFree_busy (hi : g.busy = true) : s.graphFree g.slot = s.later (.graphFree g.slot) := by
  simp only [State.graphFree, hg, ho, hi, Bool.not_true, Bool.false_eq_true, if_false, if_true]

theorem State.graphKick_fifth {table : Word} (h4 : 4 ≤ g.kicks.length) :
    s.graphKick g.slot table = s.modGraph g.slot fun g => { g with kickReg := 0xFE } := by
  simp only [State.graphKick, hg, ho, h4, Bool.not_true, Bool.false_eq_true, if_false, if_true]

section
variable {table : Word} (h4 : g.kicks.length < 4) (hb : s.anyBlocked g.ctx (s.tableReads g.ctx table.toNat) = false)
include h4 hb

theorem State.graphKick_badTable (hp : (s.readsAll g.ctx (s.tableReads g.ctx table.toNat)).patchTable g table.toNat = none) :
    s.graphKick g.slot table =
      (s.readsAll g.ctx (s.tableReads g.ctx table.toNat)).modGraph g.slot fun g => { g with kickReg := 0xFF } := by
  simp only [State.graphKick, hg, ho, hb, Nat.not_le_of_lt h4, hp, Bool.not_true, Bool.false_eq_true, if_false]

theorem State.graphKick_pending {ps : List (Nat × Nat × Word)}
    (hp : (s.readsAll g.ctx (s.tableReads g.ctx table.toNat)).patchTable g table.toNat = some ps) :
    s.graphKick g.slot table = (s.readsAll g.ctx (s.tableReads g.ctx table.toNat)).modGraph g.slot fun g =>
      { g with kickReg := 0, kicks := g.kicks ++ [{ patches := ps, applied := false, node := 0 }] } := by
  simp only [State.graphKick, hg, ho, hb, Nat.not_le_of_lt h4, hp, Bool.not_true, Bool.false_eq_true, if_false]

end

end

/-- A freed slot names no graph. -/
theorem find?_filter_slot_ne (l : List Graph) (slot : Nat) :
    (l.filter fun x => x.slot != slot).find? (fun g => g.slot == slot) = none :=
  List.find?_eq_none.mpr fun x hx => by simpa using (List.mem_filter.mp hx).2

/-! ## A replay (R374) -/

/-- A kick goes on where it has begun, or the replay before it has ended. -/
theorem exec_graphKickProceed {s : State} {g : Graph} {k : Kick} {ks : List Kick} (hg : s.graph? g.slot = some g) (hk : g.kicks = k :: ks)
    (h : k.applied = true ∨ ∀ n ∈ g.nodes, n.running = false) :
    exec (.graphKickProceed g.slot) s = .next ((s.beginKick g k).feedKick g.slot k ks) := by
  have hgo : (!k.applied && g.nodes.any fun n => n.running) = false := by
    rcases h with ha | hn
    · rw [ha]; rfl
    · rw [List.any_eq_false.mpr fun n hm => Bool.eq_false_iff.mp (hn n hm), Bool.and_false]
  change execGraphKickProceed g.slot s = _
  simp only [execGraphKickProceed, hg, hk, hgo, Bool.false_eq_true, if_false]

end Sys2Proof.Machine

end

section
/-! PROOFS. The obligation on task graphs. -/

open Sys2Proof Sys2Proof.Machine

/-- Settles O52: one lemma for each outcome of GUP, GFREE, GKICK and a replay; what an upload reads leaves the other graphs. -/
theorem graphOperationsComplete : Obligations.GraphOperationsComplete := by
  refine ⟨fun s addr ho => ?upload, fun s g ho hg => ⟨fun hi => ?free, fun hi => ?busy, fun table => ?kick⟩,
    fun s g k ks hg hk h => exec_graphKickProceed hg hk h⟩
  case upload =>
    intro u hb
    refine ⟨fun c nodes slot hu hf => ⟨s.graphUpload addr, rfl, ?_⟩,
      fun k hu => congrArg Host.Outcome.next (State.graphUpload_error ho hb hu)⟩
    rw [State.graphUpload_ok ho hb hu hf]
    exact ⟨rfl, rfl⟩
  case free =>
    refine ⟨s.graphFree g.slot, rfl, ?_⟩
    rw [State.graphFree_idle ho hg hi]
    exact ⟨find?_filter_slot_ne .., fun x => List.mem_of_mem_filter⟩
  case busy => exact congrArg Host.Outcome.next (State.graphFree_busy ho hg hi)
  case kick =>
    exact ⟨fun h4 => congrArg Host.Outcome.next (State.graphKick_fifth ho hg h4),
      fun h4 hb hp => congrArg Host.Outcome.next (State.graphKick_badTable ho hg h4 hb hp),
      fun h4 hb ps hp => congrArg Host.Outcome.next (State.graphKick_pending ho hg h4 hb hp)⟩

end

section
/-! PROOFS. Transfer and Arrive (R92 to R94): each outcome of a transfer, and what Arrive does at the top of the stack. -/

namespace Sys2Proof.Machine

/-! ## Transfer (R92, R103) -/

section
variable {s : State} {c : Nat} {x : Slice} {t : Mask} {v target next : VA} {w : Word}

theorem State.header_of_isHeader (hw : s.fetchWord c v.toNat = .ok w) (hh : Hdr.isHeader w = true) : s.header c v = .ok w := by
  simp only [State.header, hw, hh, if_true]

theorem State.header_of_not_isHeader (hw : s.fetchWord c v.toNat = .ok w) (hh : Hdr.isHeader w = false) :
    s.header c v = .error { Ev.badtgt with check := 11 } := by
  simp only [State.header, hw, hh, Bool.false_eq_true, if_false]

/-- RCV of the block a slice is in (R33). -/
def Slice.rcvOff (x : Slice) : BitVec 16 := match x.hword with | some w => Hdr.rcv w | none => 0
/-- The header at which that RCV has diverged lanes meet, 0 where there is none (R92). -/
def Slice.rcvHeader (x : Slice) : VA := if x.rcvOff = 0 then 0 else VA.plus x.hdr x.rcvOff.toInt

/-- A slice whose lanes t part from the others, which wait behind a PEND entry at `next`, all to meet at the RCV header (R92). -/
def Slice.diverge (x : Slice) (t : Mask) (next : VA) : Slice :=
  { x with
    rs := { pend := true, mask := x.am &&& ~~~ t, hdr := next, fmt := x.fmt } ::
      { pend := false, mask := x.am, hdr := x.rcvHeader, fmt := x.fmt } :: x.rs
    am := t }

theorem State.transfer_badTarget (ht : t ≠ 0) {e : Ev} (he : s.header c target = .error e) :
    s.transfer c x t target next = .error (e.in_ x t) := by
  simp only [State.transfer, ht, if_false, he]

theorem State.transfer_all (ht : x.am ≠ 0) (hw : s.header c target = .ok w) :
    s.transfer c x x.am target next = .ok (x.arrive target, true) := by
  simp only [State.transfer, ht, if_false, hw, if_true]

/-- A transfer of some lanes, its target a header, goes on to the check of the RCV target and of the stack's depth. -/
theorem State.transfer_some (ht : t ≠ 0) (hw : s.header c target = .ok w) (ha : t ≠ x.am) :
    s.transfer c x t target next =
      match if x.rcvOff = 0 then .ok 0 else s.header c x.rcvHeader with
      | .error e => .error (e.in_ x t)
      | .ok _ =>
        if x.rs.length + 2 > 32 then .error { (Ev.own.in_ x t) with detail := 0x04 }
        else .ok ((x.diverge t next).arrive target, true) := by
  simp only [State.transfer, ht, ha, if_false, hw]
  rfl

theorem State.transfer_badRcv (ht : t ≠ 0) (hw : s.header c target = .ok w) (ha : t ≠ x.am) (ho : x.rcvOff ≠ 0) {e : Ev}
    (he : s.header c x.rcvHeader = .error e) : s.transfer c x t target next = .error (e.in_ x t) := by
  simp only [State.transfer_some ht hw ha, ho, if_false, he]

/-- A divergence whose RCV target stands: the stack has room for the pair of entries, or ILLOP. -/
theorem State.transfer_diverges (ht : t ≠ 0) (hw : s.header c target = .ok w) (ha : t ≠ x.am)
    (ho : x.rcvOff = 0 ∨ ∃ v, s.header c x.rcvHeader = .ok v) :
    s.transfer c x t target next =
      if x.rs.length + 2 > 32 then .error { (Ev.own.in_ x t) with detail := 0x04 }
      else .ok ((x.diverge t next).arrive target, true) := by
  rw [State.transfer_some ht hw ha]
  by_cases h0 : x.rcvOff = 0
  · simp only [h0, if_true]
  · obtain ⟨v, hv⟩ := ho.resolve_left h0
    simp only [h0, if_false, hv]

end

/-! ## Arrive (R94) -/

/-- Arrive on a stack of one entry joins at a JOIN entry's header and leaves the stack empty. -/
theorem Slice.arrive_single {x : Slice} {h : VA} {e : RsEntry} (hr : x.rs = [e]) :
    x.arrive h =
      if 1 > x.floor_ ∧ e.pend = false ∧ e.hdr ≠ 0 ∧ e.hdr = h then
        ({ x with rs := [], am := e.mask, fmt := e.fmt } : Slice).arrive h
      else { x with pc := h, hword := none } := by
  rw [Slice.arrive, hr, List.length_singleton, Slice.arriveN, hr]
  simp [Slice.arrive, and_assoc]

/-- Arrive on a stack of two entries or more: the waiting lanes of a PEND entry run, the lanes of a JOIN entry go on together, or the
slice goes to the header. -/
theorem Slice.arrive_cons {x : Slice} {h : VA} {e f : RsEntry} {rest : List RsEntry} (hr : x.rs = e :: f :: rest) :
    x.arrive h =
      if x.rs.length > x.floor_ + 1 ∧ e.pend = true ∧ f.pend = false ∧ f.hdr ≠ 0 ∧ f.hdr = h then
        ({ x with rs := f :: rest, am := e.mask, fmt := e.fmt } : Slice).arrive e.hdr
      else if x.rs.length > x.floor_ ∧ e.pend = false ∧ e.hdr ≠ 0 ∧ e.hdr = h then
        ({ x with rs := f :: rest, am := e.mask, fmt := e.fmt } : Slice).arrive h
      else { x with pc := h, hword := none } := by
  have hpop (y : Slice) (k : VA) (hy : y.rs = f :: rest) : y.arriveN k x.rs.length = y.arrive k := by
    rw [Slice.arrive, hy, hr, List.length_cons]
  rw [Slice.arrive, Slice.arriveN, hr]
  simp only [← hr]
  by_cases hd : x.rs.length > x.floor_
  · cases he : e.pend
    case true => simp [hd, hpop, and_assoc]
    case false => simp [hd, hpop]
  · have hd1 : ¬ x.rs.length > x.floor_ + 1 := by omega
    simp only [hd, hd1, false_and, if_false]

end Sys2Proof.Machine

end

section
/-! PROOFS. LBRK and EXIT (R95, R109, R111): what is left of a slice whose lanes leave, and the slices that end. -/

namespace Sys2Proof.Machine

/-! ## LBRK and EXIT keep a slice's number -/

@[simp] theorem Slice.emptyMaskN_num (exit : VA → VA) (x : Slice) (n : Nat) : (x.emptyMaskN exit n).num = x.num := by
  induction n generalizing x with
  | zero => rfl
  | succ n ih =>
    unfold Slice.emptyMaskN
    split
    · split
      · simp only
        split
        · exact Slice.arrive_num ..
        · exact (ih _ :)
      · split
        · rfl
        · simp only
          split
          · exact Slice.arrive_num ..
          · exact (ih _ :)
    · split
      · rfl
      · simp only
        split
        · exact Slice.arrive_num ..
        · exact (ih _ :)

@[simp] theorem Slice.emptyMask_num (exit : VA → VA) (x : Slice) : (x.emptyMask exit).num = x.num := Slice.emptyMaskN_num ..

@[simp] theorem Slice.settle_num (exit : VA → VA) (x : Slice) : (x.settle exit).1.num = x.num := by
  unfold Slice.settle
  split
  · exact Slice.emptyMask_num ..
  · rfl

/-! ## Instructions that may end slices -/

/-- In a launch that is not deterministic no quantum ends (R255), so an instruction that ends its quantum completes as any other. -/
theorem State.complete_normal {s t : State} {b b' : Block} {l : List Slice} (hi : s.issuing = some (b, l))
    (hb : t.block? b.uid = some b') (hd : (t.lrOf b').det = false) (n : Nat) (qend : Bool) (moved : List Nat) :
    s.complete n qend (.done t moved) = s.complete n false (.done t moved) := by
  simp only [State.complete, hi, State.retire, hb, hd, Bool.false_and]

/-- The block of the gang that issues is the current one. -/
theorem issuing_cur {s : State} {b : Block} {l : List Slice} (hi : s.issuing = some (b, l)) : ∃ c, s.cur = some c ∧ c.block = b.uid := by
  unfold State.issuing at hi
  split at hi
  · cases hi
  · next c hc =>
    split at hi
    · cases hi
    · next hb =>
      cases hi
      have hu := List.find?_some hb
      exact ⟨c, hc, (beq_iff_eq.mp hu).symm⟩

/-- What an instruction of one word that takes lanes out of a slice leaves of it: f of it, settled (R95), where a lane takes part. -/
def Slice.left (x : Slice) (g : Guard) (exit : VA → VA) (f : Slice → Slice) : Slice × Bool :=
  if x.part_ g = 0 then (x, false) else (f x).settle exit

theorem Slice.left_num {f : Slice → Slice} (hf : ∀ x, (f x).num = x.num) (g : Guard) (exit : VA → VA) (x : Slice) :
    (x.left g exit f).1.num = x.num := by
  unfold Slice.left
  split
  · rfl
  · rw [Slice.settle_num, hf]

/-- An instruction of one word that takes lanes out of the slices of a gang, each of which goes where EmptyMask says or on to the next
word; slices that end leave their barriers (R95, R249). -/
theorem exec_leaves {i : Instr} {g : Guard} {F : State → Env → Slice → Except Ev (Slice × Bool)} {ok : Slice → Bool}
    {f : Slice → Slice} {qend : List Slice → Bool}
    (hexec : ∀ {s b l}, s.issuing = some (b, l) →
      exec i s = .next (s.settleEnded (s.complete 1 (qend l) (eachMove s g b l (F s))) b.uid))
    (hF : ∀ s b x, x.part_ g ≠ 0 → ok x = true → F s (s.envOf b x) x = .ok ((f x).settle (s.loopExit (s.lrOf b).ctx)))
    (hnum : ∀ x, (f x).num = x.num) {s : State} {b : Block} {l : List Slice} (hi : s.issuing = some (b, l)) (hp : s.plain = true)
    (hok : ∀ x ∈ l, (x.part_ g = 0 ∨ ok x = true) ∧
      isOk (went (s.noHeader (s.lrOf b).ctx) 1 (x.left g (s.loopExit (s.lrOf b).ctx) f)) = true) :
    exec i s = .next (s.settleEnded (s.parted b (l.map fun x =>
      okOr x (went (s.noHeader (s.lrOf b).ctx) 1 (x.left g (s.loopExit (s.lrOf b).ctx) f)))) b.uid) := by
  obtain ⟨hw, hd, hn⟩ := plain_spec hi hp
  have hh := issuing_holds hi
  have hr : ∀ x ∈ l, (if x.part_ g = 0 then Except.ok (x, false) else F s (s.envOf b x) x) =
      .ok (x.left g (s.loopExit (s.lrOf b).ctx) f) := by
    intro x hx
    unfold Slice.left
    split
    · rfl
    · next h => exact hF s b x h ((hok x hx).1.resolve_left h)
  have hput : (s.modBlock b.uid fun y => y.putSlices (l.map fun x => (x.left g (s.loopExit (s.lrOf b).ctx) f).1)).block? b.uid =
      some (b.putSlices (l.map fun x => (x.left g (s.loopExit (s.lrOf b).ctx) f).1)) :=
    holds_block? (block?_modBlock hh (fun y => y.putSlices _) fun _ => rfl)
  have hq : s.complete 1 (qend l) (eachMove s g b l (F s)) = s.complete 1 false (eachMove s g b l (F s)) := by
    rw [eachMove_done hr]
    exact State.complete_normal hi hput ((congrArg LaunchRec.det (lrOf_modBlock hh ..)).trans hd) ..
  rw [hexec hi, hq, complete_eachMove hi hw hn hr (fun x _ => Slice.left_num hnum g _ x) fun x hx => ok_of_isOk x (hok x hx).2, hd,
    rested_normal]

theorem exec_lbrk {s : State} {b : Block} {l : List Slice} (hi : s.issuing = some (b, l)) (g : Guard) (k : BitVec 2) :
    exec (.lbrk g k) s = .next (s.settleEnded (s.complete 1 false (eachMove s g b l (lbrkSlice s g k.toNat))) b.uid) := by
  obtain ⟨c, hc, hu⟩ := issuing_cur hi
  change execLbrk g k s = _
  simp only [execLbrk, State.perEnding, State.perMove, State.perGang, hi, hc, hu]

theorem exec_exit {s : State} {b : Block} {l : List Slice} (hi : s.issuing = some (b, l)) (g : Guard) :
    exec (.exit g) s = .next (s.settleEnded
      (s.complete 1 (l.any fun x => x.part_ g != 0) (eachMove s g b l (exitSlice s g))) b.uid) := by
  obtain ⟨c, hc, hu⟩ := issuing_cur hi
  change execExit g s = _
  simp only [execExit, State.perGang, hi, hc, hu]

theorem lbrkSlice_active {s : State} {g : Guard} {n : Nat} {e : Env} {x : Slice} (h : (x.lpOf n).act = true) :
    lbrkSlice s g n e x =
      .ok (((x.setLp n { x.lpOf n with brk := (x.lpOf n).brk ||| x.part_ g }).dropLanes (x.part_ g) (x.lpOf n).depth
        (x.order.takeWhile fun k => k != n)).settle (s.loopExit e.lr.ctx)) := by
  simp only [lbrkSlice, h, Bool.not_true, Bool.false_eq_true, if_false]

end Sys2Proof.Machine

end

section
/-! PROOFS. REGANG (R98): what a slice is as it waits and as it is released, and when a group is released. -/

namespace Sys2Proof.Machine

/-! ## A slice that waits, and one that is released -/

/-- A slice as it begins to wait at the REGANG at its pc: a region opens there (R382). -/
def Slice.atRegang (x : Slice) : Slice := { x.openRegion (x.repHere .regang) with wait := .regang, qphase := .running }

/-- A slice of a normal launch that its group's release lets go on, in the gang of this number. -/
def Slice.released (x : Slice) (gang : Nat) : Slice := ({ x.passed 1 with gang } : Slice).passRep

theorem Slice.atRegang_keeps (x : Slice) : x.atRegang.keeps x := by
  unfold Slice.atRegang Slice.openRegion
  split <;> exact ⟨rfl, rfl, rfl, rfl, rfl⟩

/-- Opening a region leaves a slice's place in the launch and its registers. -/
theorem Slice.atRegang_regs (x : Slice) : x.atRegang.gnum = x.gnum ∧ x.atRegang.v = x.v ∧ x.atRegang.s = x.s := by
  unfold Slice.atRegang Slice.openRegion
  split <;> exact ⟨rfl, rfl, rfl⟩

/-- A release moves a slice on, gives it its gang and sets its checkpoint. -/
theorem Slice.released_eq (x : Slice) (gang : Nat) :
    x.released gang = { x.passed 1 with gang, ck := (x.released gang).ck } := by
  unfold Slice.released Slice.passRep
  split <;> rfl

@[simp] theorem Slice.released_num (x : Slice) (gang : Nat) : (x.released gang).num = x.num := by rw [Slice.released_eq]; rfl
@[simp] theorem Slice.released_gang (x : Slice) (gang : Nat) : (x.released gang).gang = gang := by rw [Slice.released_eq]

/-- A slice of a block whose gang l has begun to wait. -/
def Slice.arrived (x : Slice) (l : List Slice) : Slice := if x ∈ l then x.atRegang else x

theorem Slice.arrived_keeps (x : Slice) (l : List Slice) : (x.arrived l).keeps x := by
  unfold Slice.arrived
  split
  exacts [x.atRegang_keeps, x.keeps_refl]

@[simp] theorem Slice.arrived_pc (x : Slice) (l : List Slice) : (x.arrived l).pc = x.pc := by
  obtain ⟨-, -, hpc, -, -⟩ := x.arrived_keeps l
  exact hpc

@[simp] theorem Slice.arrived_ended (x : Slice) (l : List Slice) : (x.arrived l).ended = x.ended := by
  obtain ⟨-, he, -, -, -⟩ := x.arrived_keeps l
  exact he

theorem Slice.arrived_regs (x : Slice) (l : List Slice) :
    (x.arrived l).gnum = x.gnum ∧ (x.arrived l).v = x.v ∧ (x.arrived l).s = x.s := by
  unfold Slice.arrived
  split
  exacts [x.atRegang_regs, ⟨rfl, rfl, rfl⟩]

theorem Slice.arrived_wait {x : Slice} {l : List Slice} (h : x ∈ l ∨ x.wait = .regang) : (x.arrived l).wait = .regang := by
  unfold Slice.arrived
  split
  · rfl
  · next hx => exact h.resolve_left hx

/-! ## The release of a group -/

/-- The slices of a group that have not ended. -/
def State.liveGroup (s : State) (b : Block) (k : Nat) : List Slice :=
  b.slices.filter fun x => !x.ended && (s.lrOf b).partOf 1 x.gnum == k

theorem State.mem_liveGroup {s : State} {b : Block} {k : Nat} {x : Slice} :
    x ∈ s.liveGroup b k ↔ x ∈ b.slices ∧ x.ended = false ∧ (s.lrOf b).partOf 1 x.gnum = k := by
  simp only [State.liveGroup, List.mem_filter, Bool.and_eq_true, Bool.not_eq_true', beq_iff_eq]

/-- Where slices of a release stand and where they go: those that agree in both go on as one gang (R98). -/
def releaseKeys (l : List Slice) : List (VA × VA) := (l.map fun x => (x.pc, VA.plus x.pc 1)).eraseDups

/-- The gang, of those numbered from `first` on, in which a slice of a release goes on. -/
def releaseGang (first : Nat) (l : List Slice) (x : Slice) : Nat := first + (releaseKeys l).idxOf (x.pc, VA.plus x.pc 1)

/-- Two slices of a release go on in one gang just where they stood at one pc. -/
theorem releaseGang_inj {first : Nat} {l : List Slice} {x y : Slice} (hx : x ∈ l) :
    releaseGang first l x = releaseGang first l y ↔ x.pc = y.pc := by
  have hk : (x.pc, VA.plus x.pc 1) ∈ releaseKeys l := List.mem_eraseDups.mpr (List.mem_map_of_mem hx)
  rw [releaseGang, releaseGang, Nat.add_left_cancel_iff, List.idxOf_inj hk, Prod.mk.injEq]
  exact ⟨And.left, fun h => ⟨h, by rw [h]⟩⟩

section
variable {s : State} {b : Block} {k : Nat} (hb : s.holds b)
include hb

/-- A group of which a live slice does not wait is not released. -/
theorem State.regangTry_waits {z : Slice} (hz : z ∈ s.liveGroup b k) (hw : z.wait ≠ .regang) : s.regangTry b.uid k = s := by
  have hall : (s.liveGroup b k).all (fun x => x.wait == .regang) = false :=
    List.all_eq_false.mpr ⟨z, hz, by simpa using hw⟩
  unfold State.liveGroup at hall
  simp only [State.regangTry, holds_block? hb, hall, Bool.and_false, Bool.false_eq_true, if_false]

/-- A group whose live slices all wait is released. -/
theorem State.regangTry_releases (hne : s.liveGroup b k ≠ []) (hw : ∀ z ∈ s.liveGroup b k, z.wait = .regang) :
    s.regangTry b.uid k = s.releaseAll b (s.liveGroup b k) := by
  have hall : (decide (s.liveGroup b k ≠ []) && (s.liveGroup b k).all (fun x => x.wait == .regang)) = true := by
    rw [decide_eq_true hne, Bool.true_and, List.all_eq_true]
    exact fun z hz => beq_iff_eq.mpr (hw z hz)
  simp only [State.regangTry, holds_block? hb]
  exact if_pos hall

end

/-- The release of slices of a normal launch that stand inside their blocks. -/
theorem State.releaseAll_normal {s : State} {b : Block} {l : List Slice} (hd : (s.lrOf b).det = false)
    (hl : ∀ x ∈ l, x.ended = false ∧ x.inside 1 = true) :
    s.releaseAll b l =
      { s.modBlock b.uid (fun y => y.putSlices (l.map fun x => x.released (releaseGang s.nextId l x))) with
        nextId := s.nextId + (releaseKeys l).length } := by
  have hr : gather (l.map fun x => x.retire (fun _ => false) false 1) = .ok (l.map fun x => x.passed 1) :=
    gather_map_ok _ _ _ fun x hx => retire_slice _ (hl x hx).1 (hl x hx).2
  have hz : l.zip (l.map fun x => x.passed 1) = l.map fun x => (x, x.passed 1) := by
    conv_lhs => rw [← List.map_id l, List.map_map]
    exact List.zip_map'
  simp only [State.releaseAll, hr, hz, List.map_map, hd, Bool.false_eq_true, if_false]
  rfl

/-- A slice y of a group after its release, which found it as x. -/
theorem State.now_releaseAll {s : State} {b b₀ : Block} {k : Nat} {x y : Slice} (hb : s.holds b) (hu : b.uid = b₀.uid)
    (hn : (b.slices.map fun x => x.num).Nodup) (hd : (s.lrOf b).det = false)
    (hl : ∀ z ∈ s.liveGroup b k, z.ended = false ∧ z.inside 1 = true) (hx : x ∈ s.liveGroup b k) (hxy : x.num = y.num) :
    (s.releaseAll b (s.liveGroup b k)).now b₀ y = x.released (releaseGang s.nextId (s.liveGroup b k) x) := by
  rw [State.releaseAll_normal hd hl]
  refine now_eq (b' := b.putSlices ((s.liveGroup b k).map fun z => z.released (releaseGang s.nextId (s.liveGroup b k) z)))
    ?holds hu ?nums ?mem ((x.released_num _).trans hxy)
  case holds => exact block?_modBlock hb (fun y => y.putSlices _) fun _ => rfl
  case nums => rw [putSlices_nums]; exact hn
  case mem =>
    obtain ⟨hxb, hp⟩ := List.mem_filter.mp hx
    rw [State.liveGroup, putSlices_map b _ _ hn fun z _ => z.released_num _, List.mem_map]
    exact ⟨x, hxb, if_pos hp⟩

/-! ## The arrival of a gang -/

theorem goes_ne_nil {s : State} {b : Block} {l : List Slice} {n : Nat} (hi : s.issuing = some (b, l)) (hg : s.goes n = true) :
    l ≠ [] := by
  simp only [State.goes, State.plain, hi, Bool.and_eq_true, bne_iff_ne, ne_eq] at hg
  exact hg.1.2

/-- A gang whose slices stand inside their blocks waits at its instruction: nothing that going on would raise is raised. -/
theorem State.complete_stall {s t : State} {b : Block} {l : List Slice} {n : Nat} (hi : s.issuing = some (b, l)) (hg : s.goes n = true)
    (qend : Bool) : s.complete n qend (.stall t) = t := by
  obtain ⟨hw, -, -, -, pc, hin⟩ := goes_spec hi hg
  have hend := issuing_ended hi hw
  have hr : s.retireEv b l n = none := by
    rw [State.retireEv, gather_map_ok l _ (fun x => x.passed n) fun x hx => retire_slice _ (hend x hx) (hin x hx).1]
    rfl
  simp only [State.complete, hi, hr, Option.isSome_none, Bool.and_false, Bool.false_eq_true, if_false]

/-- A list without elements other than k, and not empty, without its repetitions. -/
theorem eraseDups_map_const {α β : Type} [DecidableEq β] {l : List α} {f : α → β} {k : β} (hl : l ≠ []) (h : ∀ x ∈ l, f x = k) :
    (l.map f).eraseDups = [k] := by
  cases l with
  | nil => exact absurd rfl hl
  | cons a l =>
    have hrest : (l.map f).filter (fun b => !b == k) = [] := by
      rw [List.filter_eq_nil_iff]
      intro b hb
      obtain ⟨x, hx, rfl⟩ := List.mem_map.mp hb
      simp [h x (List.mem_cons_of_mem _ hx)]
    rw [List.map_cons, h a List.mem_cons_self, List.eraseDups_cons, hrest, List.eraseDups_nil]

/-- A block whose gang l waits at its REGANG. -/
def Block.atRegang (b : Block) (l : List Slice) : Block := b.putSlices (l.map Slice.atRegang)

/-- The state in which the slices of a gang wait at their REGANG. -/
def State.atRegang (s : State) (b : Block) (l : List Slice) : State :=
  ({ s with nextId := s.nextId + 1 } : State).modBlock b.uid fun y => y.atRegang l

/-- A whole gang of one group that arrives at a REGANG waits there, and its group is released if it was the last (R98). -/
theorem exec_regang {s : State} {b : Block} {l : List Slice} {g : Guard} {k : Nat} (hi : s.issuing = some (b, l))
    (hg : s.goes 1 = true) (hx : ∀ x ∈ l, x.part_ g ≠ 0 ∧ x.wait ≠ .regang)
    (hk : ∀ x ∈ l, (s.lrOf b).partOf 1 x.gnum = k) :
    exec (.regang g) s = .next ((s.atRegang b l).regangTry (b.atRegang l).uid k) := by
  obtain ⟨-, hd, -⟩ := goes_spec hi hg
  have hwaits : l.filter (fun x => x.part_ g != 0) = l := List.filter_eq_self.mpr fun x h => bne_iff_ne.mpr (hx x h).1
  have hgoes : l.filter (fun x => x.part_ g == 0) = [] := List.filter_eq_nil_iff.mpr fun x h => by simpa using (hx x h).1
  have hheld : (l.map fun x => if x.wait == .regang then x else
      { x.openRegion (x.repHere .regang) with wait := .regang, qphase := .running }) = l.map Slice.atRegang :=
    List.map_congr_left fun x h => if_neg (by simp [(hx x h).2])
  change execRegang g s = _
  simp only [execRegang, State.perSerial, hi, hd, Bool.false_and, Bool.false_eq_true, if_false, hwaits, hgoes, List.map_nil, if_true,
    hheld, State.complete_stall hi hg, eraseDups_map_const (goes_ne_nil hi hg) hk, List.foldl_cons, List.foldl_nil]
  rfl

/-- The block of a gang that waits at its REGANG: a slice of the gang waits, the others are as they were. -/
theorem atRegang_block {s : State} {b : Block} {l : List Slice} {n : Nat} (hi : s.issuing = some (b, l)) (hg : s.goes n = true) :
    (s.atRegang b l).holds (b.atRegang l) ∧
    (s.atRegang b l).lrOf (b.atRegang l) = s.lrOf b ∧
    (b.atRegang l).slices = b.slices.map fun x => x.arrived l := by
  obtain ⟨-, -, hn, ⟨p, hl, -⟩, -⟩ := goes_spec hi hg
  have hh : ({ s with nextId := s.nextId + 1 } : State).holds b := issuing_holds hi
  refine ⟨block?_modBlock hh (fun y => y.atRegang l) fun _ => rfl, lrOf_modBlock hh .., ?_⟩
  rw [Block.atRegang, hl, putSlices_map b p Slice.atRegang hn fun x _ => x.atRegang_keeps.1]
  refine List.map_congr_left fun x hx => ?_
  simp only [Slice.arrived, List.mem_filter, hx, true_and]

/-- The live slices of a group, once a gang of it waits at its REGANG. -/
theorem mem_liveGroup_atRegang {s : State} {b : Block} {l : List Slice} {n k : Nat} {y : Slice} (hi : s.issuing = some (b, l))
    (hg : s.goes n = true) :
    y ∈ (s.atRegang b l).liveGroup (b.atRegang l) k ↔
      ∃ z, z ∈ b.slices ∧ z.ended = false ∧ (s.lrOf b).partOf 1 z.gnum = k ∧ z.arrived l = y := by
  obtain ⟨-, hlr, hs⟩ := atRegang_block hi hg
  rw [State.mem_liveGroup, hlr, hs, List.mem_map]
  have hsame (z : Slice) : (z.arrived l).ended = z.ended ∧ (z.arrived l).gnum = z.gnum :=
    ⟨z.arrived_ended l, (z.arrived_regs l).1⟩
  constructor
  · rintro ⟨⟨z, hz, rfl⟩, he, hk⟩
    rw [(hsame z).1] at he
    rw [(hsame z).2] at hk
    exact ⟨z, hz, he, hk, rfl⟩
  · rintro ⟨z, hz, he, hk, rfl⟩
    exact ⟨⟨z, hz, rfl⟩, (hsame z).1.trans he, by rw [(hsame z).2]; exact hk⟩

end Sys2Proof.Machine

end

section
/-! PROOFS. Slices and shares at launch entry (R91, R193, R207, R247). -/

namespace Sys2Proof.Machine

/-! ## Registers at launch entry -/

section
variable (num gnum share part pos gang : Nat) (r : LaunchRec)

theorem Slice.entry_sr (k : Nat) : (Slice.entry num gnum share part pos gang r).sr k = if k = 0 then r.param else 0 :=
  Cells.get_set ..

theorem Slice.entry_rp (k : Nat) : (Slice.entry num gnum share part pos gang r).rp k = if k = 0 then 0xF else 0 := rfl

theorem Slice.entry_lpOf (k : Nat) : (Slice.entry num gnum share part pos gang r).lpOf k = .idle :=
  List.getElem?_getD_replicate_default_eq ..
end

section
variable (core slot accn k : Nat)

theorem Share.entry_obj : (Share.entry core slot accn).obj k = .reset := List.getElem?_getD_replicate_default_eq ..

theorem Share.entry_timeline : (Share.entry core slot accn).timeline k = .reset := List.getElem?_getD_replicate_default_eq ..

theorem Share.entry_tile : (Share.entry core slot accn).tile k = .reset := List.getElem?_getD_replicate_default_eq ..

theorem Share.entry_path : (Share.entry core slot accn).path k = 0 := by
  have h : (Share.entry core slot accn).paths.getD k [] = [] := List.getElem?_getD_replicate_default_eq ..
  rw [Share.path, h]; rfl
end

end Sys2Proof.Machine

end

section
/-! PROOFS. The obligations on control flow and on what stands at the start. -/

open Sys2Proof Sys2Proof.Machine

/-- Settles O8: each clause is one outcome of Transfer, and Arrive by how many entries the stack holds. -/
theorem transferSplitsTheLanes : Obligations.TransferSplitsTheLanes := by
  refine ⟨fun s c x t target next => ?_, fun x h => ?_⟩
  · intro off rh
    refine ⟨fun h => if_pos h, fun w ht hw hh => ?_, fun w ht hw hh => ?_⟩
    · exact ⟨_, State.transfer_badTarget ht (State.header_of_not_isHeader hw hh), rfl, rfl⟩
    have hd := State.header_of_isHeader hw hh
    refine ⟨fun ha => ?_, fun v ha ho hv hn => ?_, fun ha hor => ?_⟩
    · subst ha; exact State.transfer_all ht hd
    · exact ⟨_, State.transfer_badRcv ht hd ha ho (State.header_of_not_isHeader hv hn), rfl⟩
    · rw [State.transfer_diverges ht hd ha (hor.imp_right fun ⟨v, hv, hh⟩ => ⟨v, State.header_of_isHeader hv hh⟩)]
      exact ⟨fun hl => ⟨_, if_pos hl, rfl, rfl⟩, fun hl => if_neg (by omega)⟩
  · split
    · next e f rest hr => exact Slice.arrive_cons hr
    · next e hr => exact Slice.arrive_single hr
    · next hr => rw [Slice.arrive, hr, List.length_nil, Slice.arriveN, hr]

/-- Settles O10: LBRK and EXIT each take lanes out of every slice of the gang (`exec_leaves`). -/
theorem lanesLeaveLoopsAndSlices : Obligations.LanesLeaveLoopsAndSlices := by
  refine ⟨fun g k s b l hi hp hl => ?lbrk, fun g s b l hi hp hl => ?exit⟩
  case lbrk =>
    exact exec_leaves (exec_lbrk · g k) (fun _ _ _ _ => lbrkSlice_active) (fun _ => rfl) hi hp hl
  case exit =>
    exact exec_leaves (F := fun s => exitSlice s g) (exec_exit · g) (fun _ _ _ _ _ => rfl) (fun _ => rfl) hi hp hl

/-- Settles O11: the gang's slices begin to wait (`exec_regang`); then all live slices of the group wait and are released
(`State.now_releaseAll`), or one does not and nothing more happens. -/
theorem regangWaitsAndReleases : Obligations.RegangWaitsAndReleases := by
  intro g s b l hi hg hx hsame live
  obtain ⟨hw, hd, hn, ⟨p, hp, -⟩, pc, hin⟩ := goes_spec hi hg
  obtain ⟨hb, hlr, -⟩ := atRegang_block hi hg
  obtain ⟨x₀, hx₀⟩ := List.exists_mem_of_ne_nil l (goes_ne_nil hi hg)
  have hexec := exec_regang hi hg hx fun x hxl => hsame x hxl x₀ hx₀
  have hlive (z : Slice) (hz : live z) :
      z.arrived l ∈ (s.atRegang b l).liveGroup (b.atRegang l) ((s.lrOf b).partOf 1 x₀.gnum) := by
    obtain ⟨hzb, hze, hzk⟩ := hz
    exact (mem_liveGroup_atRegang hi hg).mpr ⟨z, hzb, hze, hzk x₀ hx₀, rfl⟩
  refine ⟨fun hall => ?release, fun ⟨z, hzb, hze, hzl, hzw, hzk⟩ => ?wait⟩
  case release =>
    have hgroup : ∀ y ∈ (s.atRegang b l).liveGroup (b.atRegang l) ((s.lrOf b).partOf 1 x₀.gnum),
        y.wait = .regang ∧ y.ended = false ∧ y.inside 1 = true := by
      intro y hy
      obtain ⟨z, hzb, hze, hzk, rfl⟩ := (mem_liveGroup_atRegang hi hg).mp hy
      have hz := hall z ⟨hzb, hze, fun x hxl => hzk.trans (hsame x₀ hx₀ x hxl)⟩
      have hkeep := z.arrived_keeps l
      exact ⟨Slice.arrived_wait (hz.imp_right And.left), (z.arrived_ended l).trans hze,
        (keeps_inside hkeep 1).trans (hz.elim (fun h => (hin z h).1) And.right)⟩
    have hx₀b : x₀ ∈ b.slices := by
      rw [hp] at hx₀
      exact (List.mem_filter.mp hx₀).1
    have hne := List.ne_nil_of_mem (hlive x₀ ⟨hx₀b, issuing_ended hi hw x₀ hx₀, hsame x₀ hx₀⟩)
    have hnow (z : Slice) (hz : live z) := State.now_releaseAll (b₀ := b) (y := z) hb rfl
      (by rw [Block.atRegang, putSlices_nums]; exact hn) ((congrArg LaunchRec.det hlr).trans hd)
      (fun y hy => (hgroup y hy).2) (hlive z hz) (z.arrived_keeps l).1
    rw [State.regangTry_releases hb hne fun y hy => (hgroup y hy).1] at hexec
    refine ⟨_, hexec, fun z hz => ?_, fun y z hy hz => ?_⟩
    · obtain ⟨-, hv, hs⟩ := z.arrived_regs l
      rw [hnow z hz, Slice.released_eq]
      exact ⟨congrArg (VA.plus · 1) (z.arrived_pc l), rfl, hv, hs⟩
    · rw [hnow y hy, hnow z hz, Slice.released_gang, Slice.released_gang, releaseGang_inj (hlive y hy), Slice.arrived_pc,
        Slice.arrived_pc]
  case wait =>
    rw [State.regangTry_waits hb (hlive z ⟨hzb, hze, hzk⟩) (by rw [Slice.arrived, if_neg hzl]; exact hzw)] at hexec
    exact hexec

/-- Settles O1: the decoder run on each of the words. -/
theorem manualWordsDecode : Obligations.ManualWordsDecode := by
  refine ⟨?_, ?_, ?_, ?_, ?_, ?_, ?_, ?_, ?_, ?_, ?_⟩ <;> decide

/-- Settles O5: NOP does nothing in a slice, and its word with the reserved guard fails check 7 on its fields. -/
theorem nopChangesOnlyThePc : Obligations.NopChangesOnlyThePc := by
  have hpg : (Parts.ofWord 0x00011FFFFFFFFE00).check = some 7 := by decide
  refine ⟨by decide, by decide, by decide, fun g => ?_, decodeAt_of_check hpg⟩
  exact completes_of_perSlice (F := fun _ x => .ok x) (fun _ => rfl) (fun _ _ _ => rfl) fun _ x => x.keeps_refl

/-- Settles O57: each unit of the reset state is a row of equal entries, each register file of a slice and a share at entry one value. -/
theorem resetLeavesEveryUnitIdle : Obligations.ResetLeavesEveryUnitIdle := by
  refine ⟨rfl, rfl, rfl, rfl, rfl, rfl, rfl, rfl, rfl, rfl, rfl, rfl, rfl, rfl, ?ctxs, rfl, ?hqs, rfl, ?jobs, rfl, ?ports, rfl, rfl,
    ?slice, ?share⟩
  case ctxs => exact fun x hx => by rw [List.eq_of_mem_replicate hx]; exact ⟨rfl, rfl, rfl, rfl⟩
  case hqs => exact fun h hh => by rw [List.eq_of_mem_replicate hh]; exact ⟨rfl, rfl, rfl, rfl⟩
  case jobs => exact fun j hj => by rw [List.eq_of_mem_replicate hj]; exact ⟨rfl, rfl⟩
  case ports => exact fun p hp => by rw [List.eq_of_mem_replicate hp]; rfl
  case slice =>
    intro num gnum share part pos gang r x
    have hs (k : Nat) (hk : 0 < k) : x.sr k = 0 := by rw [Slice.entry_sr, if_neg hk.ne']
    have hp (k : Nat) (hk : 0 < k) : x.rp k = 0 := by rw [Slice.entry_rp, if_neg hk.ne']
    exact ⟨rfl, rfl, rfl, rfl, rfl, Slice.entry_sr .., hs, fun k j => rfl, rfl, hp, rfl, rfl, rfl, rfl, rfl, rfl, rfl,
      fun k => by rw [Slice.entry_lpOf]; rfl⟩
  case share =>
    intro core slot accn h
    refine ⟨rfl, fun k => ?_, List.length_replicate, fun k => ?_⟩
    · rw [Share.entry_obj, Share.entry_timeline, Share.entry_path]; exact ⟨rfl, rfl, rfl, rfl⟩
    · rw [Share.entry_tile]; exact ⟨rfl, rfl, rfl, rfl, rfl, fun i => rfl⟩

end

section
/-! PROOFS. Numbers and bit vectors (R115 to R120, R123): the integer that a word stands for, what wraps and what clamps, and the
bits that LOGIC and SHIFT make. -/

namespace Sys2Proof.Machine

/-! ## The integer that a word stands for (R115) -/

/-- The integer that a word stands for under a type that is signed or is not. -/
def wordInt (sg : Bool) {w : Nat} (v : BitVec w) : Int := if sg then v.toInt else v.toNat

@[simp] theorem wordInt_signed {w : Nat} (v : BitVec w) : wordInt true v = v.toInt := rfl
@[simp] theorem wordInt_unsigned {w : Nat} (v : BitVec w) : wordInt false v = v.toNat := rfl

theorem wordInt_inj {sg : Bool} {w : Nat} {v u : BitVec w} : wordInt sg v = wordInt sg u ↔ v = u := by
  cases sg with
  | false => exact Int.ofNat_inj.trans BitVec.toNat_inj
  | true => exact BitVec.toInt_inj

theorem ofInt_wordInt (sg : Bool) {w : Nat} (v : BitVec w) : BitVec.ofInt w (wordInt sg v) = v := by
  cases sg with
  | false => rw [wordInt_unsigned, BitVec.ofInt_natCast, BitVec.ofNat_toNat, BitVec.setWidth_eq]
  | true => exact BitVec.ofInt_toInt

theorem sgn_eq_toInt (w x : Nat) : sgn w x = (BitVec.ofNat w x).toInt := by
  rw [BitVec.toInt_eq_toNat_cond, BitVec.toNat_ofNat]; rfl

/-- An operand as its type reads it is the integer that its word stands for. -/
theorem readInt_eq_wordInt {sg : Bool} {w x : Nat} (hx : x < 2 ^ w) : readInt sg w x = wordInt sg (BitVec.ofNat w x) := by
  cases sg with
  | false => rw [wordInt_unsigned, BitVec.toNat_ofNat, Nat.mod_eq_of_lt hx]; rfl
  | true => exact sgn_eq_toInt w x

theorem wrapTo_eq_toNat (w : Nat) (i : Int) : wrapTo w i = (BitVec.ofInt w i).toNat := (BitVec.toNat_ofInt i).symm

@[simp] theorem ofNat_wrapTo (w : Nat) (i : Int) : BitVec.ofNat w (wrapTo w i) = BitVec.ofInt w i := by
  rw [wrapTo_eq_toNat, BitVec.ofNat_toNat, BitVec.setWidth_eq]

theorem wrapTo_natCast {w n : Nat} (h : n < 2 ^ w) : wrapTo w (n : Int) = n := by
  rw [wrapTo_eq_toNat, BitVec.ofInt_natCast, BitVec.toNat_ofNat, Nat.mod_eq_of_lt h]

theorem ofInt_sub (w : Nat) (i j : Int) : BitVec.ofInt w (i - j) = BitVec.ofInt w i - BitVec.ofInt w j := by
  rw [Int.sub_eq_add_neg, BitVec.ofInt_add, BitVec.ofInt_neg, BitVec.sub_eq_add_neg]

/-! ## Clamping (R115) -/

/-- The least and the greatest integer of a type of w bits. -/
def leastInt (sg : Bool) (w : Nat) : Int := if sg then -2 ^ (w - 1) else 0
def greatestInt (sg : Bool) (w : Nat) : Int := if sg then 2 ^ (w - 1) - 1 else 2 ^ w - 1

theorem leastInt_le_greatestInt (sg : Bool) (w : Nat) : leastInt sg w ≤ greatestInt sg w := by
  have h1 : (0 : Int) < 2 ^ (w - 1) := by positivity
  have h2 : (0 : Int) < 2 ^ w := by positivity
  cases sg <;> simp only [leastInt, greatestInt, Bool.false_eq_true, if_false, if_true] <;> omega

/-- An integer in the range of its type is what its word stands for. -/
theorem wordInt_ofInt {sg : Bool} {w : Nat} (hw : 0 < w) {i : Int} (hl : leastInt sg w ≤ i) (hg : i ≤ greatestInt sg w) :
    wordInt sg (BitVec.ofInt w i) = i := by
  cases sg with
  | false =>
    simp only [leastInt, greatestInt, Bool.false_eq_true, if_false] at hl hg
    rw [wordInt_unsigned, BitVec.toNat_ofInt, Int.emod_eq_of_lt hl (by push_cast; omega), Int.toNat_of_nonneg hl]
  | true =>
    simp only [leastInt, greatestInt, if_true] at hl hg
    exact BitVec.toInt_ofInt_eq_self hw hl (by omega)

theorem satTo_eq (sg : Bool) (w : Nat) (i : Int) :
    satTo sg w i = wrapTo w (max (leastInt sg w) (min (greatestInt sg w) i)) := by
  have hle := leastInt_le_greatestInt sg w
  have hmm : (if i < leastInt sg w then leastInt sg w else if greatestInt sg w < i then greatestInt sg w else i) =
      max (leastInt sg w) (min (greatestInt sg w) i) := by
    split
    · omega
    · split <;> omega
  rw [← hmm]
  cases sg <;> simp [satTo, leastInt, greatestInt]

/-- A saturating result is a word, and stands for the integer of its type that is nearest to the exact one. -/
theorem satTo_clamps (sg : Bool) {w : Nat} (hw : 0 < w) (i : Int) :
    satTo sg w i < 2 ^ w ∧ wordInt sg (BitVec.ofNat w (satTo sg w i)) = max (leastInt sg w) (min (greatestInt sg w) i) := by
  have hle := leastInt_le_greatestInt sg w
  rw [satTo_eq, ofNat_wrapTo, wrapTo_eq_toNat]
  exact ⟨BitVec.isLt _, wordInt_ofInt hw (le_max_left ..) (by omega)⟩

/-! ## LOGIC (R119) -/

theorem bitsOf_one (x j : Nat) : bitsOf x j 1 = (x.testBit j).toNat := (Nat.toNat_testBit x j).symm

/-- A number added up from its bits has these bits. -/
theorem foldl_bits (f : Nat → Bool) (w : Nat) :
    let n := (List.range w).foldl (fun acc j => acc + if f j then 2 ^ j else 0) 0
    n < 2 ^ w ∧ ∀ j, j < w → n.testBit j = f j := by
  induction w with
  | zero => exact ⟨Nat.one_pos, fun j hj => absurd hj (Nat.not_lt_zero j)⟩
  | succ w ih =>
    intro n
    obtain ⟨hlt, hbit⟩ := ih
    have hn : n = 2 ^ w * (f w).toNat + (List.range w).foldl (fun acc j => acc + if f j then 2 ^ j else 0) 0 := by
      simp only [n, List.range_succ, List.foldl_append, List.foldl_cons, List.foldl_nil]
      cases f w <;> simp [Nat.add_comm]
    have hb : 2 ^ w * (f w).toNat ≤ 2 ^ w * 1 := Nat.mul_le_mul_left _ (f w).toNat_le
    refine ⟨by omega, fun j hj => ?_⟩
    · rw [hn, Nat.testBit_two_pow_mul_add _ hlt]
      split
      · next h => exact hbit j h
      · next h =>
        obtain rfl : j = w := by omega
        cases f j <;> simp

theorem logicVal_testBit {w j : Nat} (tt : BitVec 8) (a b c : Nat) (hj : j < w) : (logicVal w tt a b c).testBit j =
    tt.getLsbD (4 * (a.testBit j).toNat + 2 * (b.testBit j).toNat + (c.testBit j).toNat) := by
  simp only [logicVal, bitsOf_one]
  exact (foldl_bits (fun j => tt.getLsbD (4 * (a.testBit j).toNat + 2 * (b.testBit j).toNat + (c.testBit j).toNat)) w).2 j hj

/-! ## SHIFT (R120) -/

/-- Shifting by more than the width leaves what shifting by the width does. -/
theorem sshiftRight_min {w : Nat} (x : BitVec w) (n : Nat) : x.sshiftRight (min n w) = x.sshiftRight n := by
  rcases Nat.le_total n w with h | h
  · rw [Nat.min_eq_left h]
  · refine BitVec.eq_of_getLsbD_eq fun i hi => ?_
    rw [Nat.min_eq_right h, BitVec.getLsbD_sshiftRight, BitVec.getLsbD_sshiftRight, if_neg (by omega), if_neg (by omega)]

/-- The two parts of a rotation by k have no bit in common. -/
theorem rotate_parts {w k a : Nat} (hk : k ≤ w) (ha : a < 2 ^ w) :
    a * 2 ^ k % 2 ^ w + a / 2 ^ (w - k) = a <<< k % 2 ^ w ||| a >>> (w - k) := by
  have hw : 2 ^ w = 2 ^ (w - k) * 2 ^ k := by rw [← pow_add, Nat.sub_add_cancel hk]
  have hlow : a / 2 ^ (w - k) < 2 ^ k := Nat.div_lt_of_lt_mul (hw ▸ ha)
  rw [Nat.shiftRight_eq_div_pow, Nat.shiftLeft_eq, hw, Nat.mul_mod_mul_right, ← Nat.shiftLeft_eq, Nat.shiftLeft_add_eq_or_of_lt hlow]

theorem toNat_append_eq {w : Nat} (x y : BitVec w) : (x ++ y).toNat = x.toNat * 2 ^ w + y.toNat := by
  rw [BitVec.toNat_append, ← Nat.shiftLeft_add_eq_or_of_lt y.isLt, Nat.shiftLeft_eq]

section
variable {w a : Nat} (ha : a < 2 ^ w)
include ha

theorem shiftVal_shl (n c : Nat) : shiftVal w .shl a n c = (BitVec.ofNat w a <<< n).toNat := by
  simp only [shiftVal]
  split
  · next h => rw [BitVec.shiftLeft_eq_zero h]; rfl
  · rw [BitVec.toNat_shiftLeft, BitVec.toNat_ofNat, Nat.mod_eq_of_lt ha, Nat.shiftLeft_eq]

theorem shiftVal_shr (n c : Nat) : shiftVal w .shr a n c = (BitVec.ofNat w a >>> n).toNat := by
  simp only [shiftVal]
  split
  · next h => rw [BitVec.ushiftRight_eq_zero h]; rfl
  · rw [BitVec.toNat_ushiftRight, BitVec.toNat_ofNat, Nat.mod_eq_of_lt ha, Nat.shiftRight_eq_div_pow]

omit ha in
theorem shiftVal_sar (n c : Nat) : shiftVal w .sar a n c = ((BitVec.ofNat w a).sshiftRight n).toNat := by
  rw [shiftVal, sgn_eq_toInt, ← Int.shiftRight_eq_div_pow, wrapTo_eq_toNat, ← BitVec.sshiftRight_eq, sshiftRight_min]

theorem shiftVal_rol (hw : 0 < w) (n c : Nat) : shiftVal w .rol a n c = ((BitVec.ofNat w a).rotateLeft (n % w)).toNat := by
  rw [shiftVal, BitVec.toNat_rotateLeft, BitVec.toNat_ofNat, Nat.mod_eq_of_lt ha, Nat.mod_mod]
  exact rotate_parts (Nat.mod_lt n hw).le ha

theorem shiftVal_ror (hw : 0 < w) (n c : Nat) : shiftVal w .ror a n c = ((BitVec.ofNat w a).rotateRight (n % w)).toNat := by
  have h := rotate_parts (Nat.sub_le w (n % w)) ha
  rw [Nat.sub_sub_self (Nat.mod_lt n hw).le] at h
  rw [shiftVal, BitVec.toNat_rotateRight, BitVec.toNat_ofNat, Nat.mod_eq_of_lt ha, Nat.mod_mod, Nat.or_comm, ← h, Nat.add_comm]

variable {c : Nat} (hc : c < 2 ^ w)
include hc

theorem shiftVal_fshl (n : Nat) :
    shiftVal w .fshl a n c = ((BitVec.ofNat w a ++ BitVec.ofNat w c) <<< (n % w)).toNat / 2 ^ w := by
  rw [shiftVal, BitVec.toNat_shiftLeft, toNat_append_eq, BitVec.toNat_ofNat, BitVec.toNat_ofNat, Nat.mod_eq_of_lt ha,
    Nat.mod_eq_of_lt hc, Nat.shiftLeft_eq, Nat.two_mul]

theorem shiftVal_fshr (n : Nat) :
    shiftVal w .fshr a n c = ((BitVec.ofNat w c ++ BitVec.ofNat w a) >>> (n % w)).toNat % 2 ^ w := by
  rw [shiftVal, BitVec.toNat_ushiftRight, toNat_append_eq, BitVec.toNat_ofNat, BitVec.toNat_ofNat, Nat.mod_eq_of_lt ha,
    Nat.mod_eq_of_lt hc, Nat.shiftRight_eq_div_pow]

end

end Sys2Proof.Machine

end

section
/-! PROOFS. The integer rules as bit vectors (R116 to R118, R123): IADD, IMUL, IMINMAX and ICMP. -/

namespace Sys2Proof.Machine

theorem width_pos (ty : Ty) : 0 < ty.width := by cases ty <;> decide

section
variable {ty : Ty} {a b c : Nat} (ha : a < 2 ^ ty.width) (hb : b < 2 ^ ty.width) (hc : c < 2 ^ ty.width)

/-! ## IADD (R116) -/

section
include ha hb hc

theorem iaddVal_sum (sat : Bool) : iaddVal ty sat .sum a b c =
    (if sat then satTo ty.isSigned ty.width else wrapTo ty.width)
      (wordInt ty.isSigned (BitVec.ofNat ty.width a) + wordInt ty.isSigned (BitVec.ofNat ty.width b) +
        wordInt ty.isSigned (BitVec.ofNat ty.width c)) := by
  rw [← readInt_eq_wordInt ha, ← readInt_eq_wordInt hb, ← readInt_eq_wordInt hc]
  cases sat <;> rfl

theorem iaddVal_diff (sat : Bool) : iaddVal ty sat .diff a b c =
    (if sat then satTo ty.isSigned ty.width else wrapTo ty.width)
      (wordInt ty.isSigned (BitVec.ofNat ty.width a) - wordInt ty.isSigned (BitVec.ofNat ty.width b) -
        wordInt ty.isSigned (BitVec.ofNat ty.width c)) := by
  rw [← readInt_eq_wordInt ha, ← readInt_eq_wordInt hb, ← readInt_eq_wordInt hc]
  cases sat <;> rfl

/-- A sum that wraps is that of the words, whatever the sign of the type. -/
theorem iaddVal_sum_wraps : BitVec.ofNat ty.width (iaddVal ty false .sum a b c) =
    BitVec.ofNat ty.width a + BitVec.ofNat ty.width b + BitVec.ofNat ty.width c := by
  rw [iaddVal_sum ha hb hc, if_neg Bool.false_ne_true, ofNat_wrapTo, BitVec.ofInt_add, BitVec.ofInt_add, ofInt_wordInt,
    ofInt_wordInt, ofInt_wordInt]

theorem iaddVal_diff_wraps : BitVec.ofNat ty.width (iaddVal ty false .diff a b c) =
    BitVec.ofNat ty.width a - BitVec.ofNat ty.width b - BitVec.ofNat ty.width c := by
  rw [iaddVal_diff ha hb hc, if_neg Bool.false_ne_true, ofNat_wrapTo, ofInt_sub, ofInt_sub, ofInt_wordInt, ofInt_wordInt,
    ofInt_wordInt]

end

theorem iaddVal_carry (sat : Bool) (a b c : Nat) : iaddVal ty sat .carry a b c * 2 ^ ty.width +
    (BitVec.ofNat ty.width a + BitVec.ofNat ty.width b + BitVec.ofNat ty.width c).toNat = a + b + c := by
  rw [← BitVec.ofNat_add, ← BitVec.ofNat_add, BitVec.toNat_ofNat, Nat.mul_comm]
  exact Nat.div_add_mod (a + b + c) (2 ^ ty.width)

/-- A number below m, with the multiples of m that it lacks, is its remainder. -/
theorem add_lacking_mul {x : Int} {m : Nat} (hm : 0 < m) (hx : x < m) : x + (-(x / m)).toNat * m = (x % m).toNat := by
  have hpos : (0 : Int) < m := Int.natCast_pos.mpr hm
  have hdiv : x / m ≤ 0 := Int.le_of_lt_add_one ((Int.ediv_lt_iff_lt_mul hpos).mpr (by omega))
  rw [Int.toNat_of_nonneg (Int.neg_nonneg.mpr hdiv), Int.toNat_of_nonneg (Int.emod_nonneg x hpos.ne'), Int.emod_def]
  ring

theorem iaddVal_borrow (sat : Bool) (ha : a < 2 ^ ty.width) : a + iaddVal ty sat .borrow a b c * 2 ^ ty.width =
    b + c + (BitVec.ofNat ty.width a - BitVec.ofNat ty.width b - BitVec.ofNat ty.width c).toNat := by
  have hword : BitVec.ofNat ty.width a - BitVec.ofNat ty.width b - BitVec.ofNat ty.width c =
      BitVec.ofInt ty.width ((a : Int) - b - c) := by
    rw [ofInt_sub, ofInt_sub, BitVec.ofInt_natCast, BitVec.ofInt_natCast, BitVec.ofInt_natCast]
  have hlack := add_lacking_mul (x := (a : Int) - b - c) (Nat.two_pow_pos ty.width) (by omega)
  rw [hword, BitVec.toNat_ofInt, iaddVal]
  zify
  push_cast at hlack
  linarith

/-! ## IMUL (R117) -/

section
include ha hb

theorem imulVal_low (sat : Bool) (i : Int) : imulVal ty sat .low a b i =
    (if sat then satTo ty.isSigned ty.width else wrapTo ty.width)
      (wordInt ty.isSigned (BitVec.ofNat ty.width a) * wordInt ty.isSigned (BitVec.ofNat ty.width b) + i) := by
  rw [← readInt_eq_wordInt ha, ← readInt_eq_wordInt hb]
  cases sat <;> rfl

theorem imulVal_low_wraps : BitVec.ofNat ty.width (imulVal ty false .low a b 0) =
    BitVec.ofNat ty.width a * BitVec.ofNat ty.width b := by
  rw [imulVal_low ha hb, if_neg Bool.false_ne_true, ofNat_wrapTo, add_zero, BitVec.ofInt_mul, ofInt_wordInt, ofInt_wordInt]

theorem imulVal_wide_unsigned (sat : Bool) (hs : ty.isSigned = false) : imulVal ty sat .wide a b 0 = a * b := by
  have hab : a * b < 2 ^ (2 * ty.width) := by
    rw [Nat.two_mul, pow_add]
    exact Nat.mul_lt_mul'' ha hb
  simp only [imulVal, hs, readInt, Bool.false_eq_true, if_false, add_zero]
  exact wrapTo_natCast hab

theorem imulVal_hi_unsigned (sat : Bool) (hs : ty.isSigned = false) : imulVal ty sat .hi a b 0 = a * b / 2 ^ ty.width := by
  simp only [imulVal, hs, readInt, Bool.false_eq_true, if_false, add_zero]
  exact wrapTo_natCast (Nat.div_lt_of_lt_mul (Nat.mul_lt_mul'' ha hb))

theorem imulVal_wide_signed (sat : Bool) (hs : ty.isSigned = true) : BitVec.ofNat (2 * ty.width) (imulVal ty sat .wide a b 0) =
    BitVec.ofInt (2 * ty.width) ((BitVec.ofNat ty.width a).toInt * (BitVec.ofNat ty.width b).toInt) := by
  rw [imulVal, readInt_eq_wordInt ha, readInt_eq_wordInt hb, hs, ofNat_wrapTo, add_zero, wordInt_signed, wordInt_signed]

/-! ## IMINMAX and ICMP (R118, R123) -/

theorem wordInt_min : wordInt ty.isSigned (BitVec.ofNat ty.width (minMaxVal ty .min a b)) =
    min (wordInt ty.isSigned (BitVec.ofNat ty.width a)) (wordInt ty.isSigned (BitVec.ofNat ty.width b)) := by
  simp only [minMaxVal, readInt_eq_wordInt ha, readInt_eq_wordInt hb]
  split <;> omega

theorem wordInt_max : wordInt ty.isSigned (BitVec.ofNat ty.width (minMaxVal ty .max a b)) =
    max (wordInt ty.isSigned (BitVec.ofNat ty.width a)) (wordInt ty.isSigned (BitVec.ofNat ty.width b)) := by
  simp only [minMaxVal, readInt_eq_wordInt ha, readInt_eq_wordInt hb]
  split <;> omega

theorem icmpVal_eq : icmpVal ty .eq a b = (BitVec.ofNat ty.width a == BitVec.ofNat ty.width b) := by
  simp only [icmpVal, readInt_eq_wordInt ha, readInt_eq_wordInt hb]
  rw [Bool.eq_iff_iff, beq_iff_eq, beq_iff_eq, wordInt_inj]

theorem icmpVal_lt : icmpVal ty .lt a b = (if ty.isSigned then (BitVec.ofNat ty.width a).slt (BitVec.ofNat ty.width b)
    else (BitVec.ofNat ty.width a).ult (BitVec.ofNat ty.width b)) := by
  simp only [icmpVal, readInt_eq_wordInt ha, readInt_eq_wordInt hb]
  cases ty.isSigned with
  | false => simp only [wordInt_unsigned, Nat.cast_lt, Bool.false_eq_true, if_false, BitVec.ult_eq_decide]
  | true => rfl

theorem icmpVal_le : icmpVal ty .le a b = (if ty.isSigned then (BitVec.ofNat ty.width a).sle (BitVec.ofNat ty.width b)
    else (BitVec.ofNat ty.width a).ule (BitVec.ofNat ty.width b)) := by
  simp only [icmpVal, readInt_eq_wordInt ha, readInt_eq_wordInt hb]
  cases ty.isSigned with
  | false => simp only [wordInt_unsigned, Nat.cast_le, Bool.false_eq_true, if_false, BitVec.ule_eq_decide]
  | true => rfl

end

end

end Sys2Proof.Machine

end

section
/-! PROOFS. The hash, partition, lane and predicate instructions (R127 to R136): what PART.RANGE and LANE leave of a slice. -/

namespace Sys2Proof.Machine

/-- An effect on the registers of each slice that depends on the state, wherever it raises nothing in the gang, goes on to the next
word of its block, in either launch mode. -/
theorem perGang_eachSlice {s : State} {b : Block} {l : List Slice} {n : Nat} {g : Guard}
    {F : Block → List Slice → Env → Slice → Except Ev Slice} {f : Slice → Slice} (hi : s.issuing = some (b, l))
    (hrun : s.runs n = true) (hF : ∀ x ∈ l, F b l (s.envOf b x) x = .ok (f x)) (hk : ∀ x ∈ l, (f x).keeps x) :
    s.perGang n false (fun b l => eachSlice s g b l (F b l)) = s.after b l n fun x => x.when g f := by
  obtain ⟨hw, hn, pc, ha⟩ := runs_spec hi hrun
  have hkeep : ∀ x ∈ l, (x.when g f).keeps x := fun x hx => Slice.when_keeps (hk x hx)
  have hr : ∀ x ∈ l, (if x.part_ g = 0 then Except.ok (x, false) else (F b l (s.envOf b x) x).map fun y => (y, false)) =
      .ok (x.when g f, false) := by
    intro x hx
    rw [hF x hx, Slice.when]
    split <;> rfl
  have hq : ∀ x ∈ l, went (s.noHeader (s.lrOf b).ctx) n (x.when g f, false) = .ok ((x.when g f).passed n) := fun x hx => by
    obtain ⟨-, hended, -⟩ := hkeep x hx
    exact retire_slice _ (hended.trans (issuing_ended hi hw x hx)) ((keeps_inside (hkeep x hx) n).trans (ha x hx).1)
  simp only [State.perGang, hi, eachSlice]
  rw [complete_eachMove hi hw hn hr (fun x hx => (hkeep x hx).1) hq, parted_same (issuing_holds hi) (pc := VA.plus pc n)]
  · rfl
  · refine rested_pc fun y hy => ?_
    obtain ⟨x, hx, rfl⟩ := List.mem_map.mp hy
    obtain ⟨-, -, hpc, -⟩ := hkeep x hx
    rw [Slice.passed_pc, hpc, (ha x hx).2]

/-- PART.RANGE, where no lane's search fails, writes registers only (R131). -/
theorem rangeSlice_keeps {s : State} {blk : Block} {g : Guard} {ty : Ty} {d a b c : Opd} {e : Env} {x y : Slice}
    (h : rangeSlice s blk g ty d a b c e x = .ok y) : y.keeps x := by
  unfold rangeSlice at h
  simp only at h
  split at h
  · cases h
  · split at h
    · split at h
      · cases h
      · cases h; exact x.keeps_refl
    · cases h; exact x.keeps_setInt ..

theorem Slice.keeps_setFlags (x : Slice) (f : Flags) : (x.setFlags f).keeps x := ⟨rfl, rfl, rfl, rfl, rfl⟩

/-- LANE writes a register and sets flags (R133 to R135). -/
theorem laneSlice_keeps (env : Slice → Env) (g : Guard) (ty : Ty) (gang : Bool) (op : LaneOp) (d a b : Opd) (l : List Slice)
    (e : Env) (x : Slice) : (laneSlice env g ty gang op d a b l e x).keeps x := by
  have hflags {y : Slice} (hy : y.keeps x) (f : Flags) : (if x.part_ g = 0 then y else y.setFlags f).keeps x := by
    split
    exacts [hy, Slice.keeps_trans (y.keeps_setFlags f) hy]
  unfold laneSlice
  cases op
  case shfl | bcast | up | down | xorl => exact x.keeps_setInt ..
  case redadd | redmin | redmax | redand | redor | redxor =>
    refine hflags ?_ _
    cases d
    case s => exact x.keeps_setS ..
    all_goals exact x.keeps_setInt ..
  case scanadd | scanmin | scanmax | xscanadd => exact hflags (x.keeps_setInt ..) _

/-- HASH.MIX64 writes the mixed key, or its high half under a 32-bit type (R128). -/
theorem completes_hashMix64 (g : Guard) (ty : Ty) (d a b : Opd) :
    Completes g (lenOf [a, b]) (.hashMix64 g ty d a b) fun e x => x.setInt g d false ty.width fun k =>
      if ty = .n64 then mix64 (valOf e x k 64 a) (valOf e x k 64 b) else mix64 (valOf e x k 64 a) (valOf e x k 64 b) / 2 ^ 32 :=
  completes_setInt fun _ => rfl

end Sys2Proof.Machine

end

section
/-! PROOFS. The obligations on the integer, hash, partition, lane and predicate instructions. -/

open Sys2Proof Sys2Proof.Machine

/-- Settles O14: an operand read by its type is the integer of its word (`readInt_eq_wordInt`), from where results wrap or clamp. -/
theorem integerValues : Obligations.IntegerValues := by
  intro ty a b c n _ w ha hb hc x y z
  have hw : 0 < w := width_pos ty
  refine ⟨⟨iaddVal_sum_wraps ha hb hc, iaddVal_diff_wraps ha hb hc, iaddVal_carry .., iaddVal_borrow false ha⟩, ?clamped,
    ⟨imulVal_low_wraps ha hb, fun hs => ⟨imulVal_wide_unsigned ha hb false hs, imulVal_hi_unsigned ha hb false hs⟩,
      imulVal_wide_signed ha hb false⟩,
    fun tt j hj => logicVal_testBit tt a b c hj,
    ⟨shiftVal_shl ha n c, shiftVal_shr ha n c, shiftVal_sar n c, shiftVal_rol ha hw n c, shiftVal_ror ha hw n c,
      shiftVal_fshl ha hc n, shiftVal_fshr ha hc n⟩,
    icmpVal_eq ha hb, icmpVal_lt ha hb, icmpVal_le ha hb⟩
  case clamped =>
    intro int clamped
    have hclamps (i : Int) : clamped (satTo ty.isSigned w i) i := by
      obtain ⟨hlt, hval⟩ := satTo_clamps ty.isSigned hw i
      refine ⟨hlt, hval.trans ?_⟩
      cases ty.isSigned <;> rfl
    refine ⟨?_, ?_, ?_, ?_, wordInt_min ha hb, wordInt_max ha hb⟩
    · rw [iaddVal_sum ha hb hc]; exact hclamps _
    · rw [iaddVal_diff ha hb hc]; exact hclamps _
    · rw [imulVal_low ha hb, add_zero]; exact hclamps _
    · rw [imulVal_low ha hb]; exact hclamps _

/-- Settles O15: every one of them writes registers of its slices only, PART.RANGE wherever no search fails. -/
theorem laneInstructionsComplete : Obligations.LaneInstructionsComplete := by
  refine ⟨fun g ty d a b => completes_setInt fun _ => rfl, fun g d a b => ?mix,
    fun g d a b => ?mixHigh, fun g ty d a c => completes_setInt fun _ => rfl, ?range, ?lane, ?pred⟩
  case mix => simpa only [if_true, Ty.width] using completes_hashMix64 g .n64 d a b
  case mixHigh => simpa only [reduceCtorEq, if_false, Ty.width] using completes_hashMix64 g .n32 d a b
  case range =>
    intro g ty d a b c s blk l hi hrun hok
    have hF (x : Slice) (hx : x ∈ l) := ok_of_isOk x (hok x hx)
    exact congrArg Host.Outcome.next (perGang_eachSlice (F := fun blk _ => rangeSlice s blk g ty d a b c) hi hrun hF
      fun x hx => rangeSlice_keeps (hF x hx))
  case lane =>
    intro g ty gang op d a b s blk l hi hrun
    exact congrArg Host.Outcome.next (perGang_eachSlice
      (F := fun blk l e x => .ok (laneSlice (s.envOf blk) g ty gang op d a b l e x)) hi hrun (fun _ _ => rfl)
      fun x _ => laneSlice_keeps ..)
  case pred =>
    intro g op d a b
    cases op <;> exact completes_setPred fun _ => rfl

end

section
/-! PROOFS. The float instructions (R138 to R158): results written to lane registers or to a predicate, with the flags that lanes
raise. -/

namespace Sys2Proof.Machine

/-- Float results reach lane registers and the region's shadow of the flags, so a gang's slices keep their places (R140, R145). -/
theorem Slice.keeps_setFloats (x : Slice) (g : Guard) (d : Opd) (w : Nat) (f : Nat → List Nat × Flags) :
    (x.setFloats g d w f).keeps x := by
  unfold Slice.setFloats
  cases d <;> simp only
  case v n =>
    have hword (l : Nat) (y : Slice) (p : Nat × Nat) : (y.putLane (n.toNat + p.2) l false w p.1).keeps y := keeps_putLane ..
    have hlane (l : Nat) (y : Slice) :
        ((f l).1.zipIdx.foldl (fun acc p => acc.putLane (n.toNat + p.2) l false w p.1) y).keeps y := keeps_foldl (hword l) _ y
    exact Slice.keeps_trans (Slice.keeps_setFlags ..) (keeps_overLanes _ _ hlane)
  all_goals exact x.keeps_refl

/-- A comparison reaches a predicate and the flags (R149, R170). -/
theorem Slice.keeps_setCompare (x : Slice) (g : Guard) (d : Opd) (f : Nat → Bool × Flags) : (x.setCompare g d f).keeps x :=
  Slice.keeps_trans (Slice.keeps_setFlags ..) (keeps_setPred ..)

/-- An instruction that writes float results to a group of registers goes on. -/
theorem completes_setFloats {n : Nat} {i : Instr} {g : Guard} {d : Opd} {w : Nat} {f : Env → Slice → Nat → List Nat × Flags}
    (hexec : ∀ s, exec i s = .next (s.perSlice g n fun e x => .ok (x.setFloats g d w (f e x)))) :
    Completes g n i fun e x => x.setFloats g d w (f e x) :=
  completes_of_perSlice hexec (fun _ _ _ => rfl) fun e x => x.keeps_setFloats g d w (f e x)

/-- An instruction that writes one float result goes on: the group of one word. -/
theorem completes_setFloat {n : Nat} {i : Instr} {g : Guard} {d : Opd} {w : Nat} {f : Env → Slice → Nat → Nat × Flags}
    (hexec : ∀ s, exec i s = .next (s.perSlice g n fun e x => .ok (x.setFloat g d w (f e x)))) :
    Completes g n i fun e x => x.setFloat g d w (f e x) :=
  completes_setFloats (f := fun e x k => ([(f e x k).1], (f e x k).2)) hexec

/-- An instruction that writes the comparison of each lane goes on. -/
theorem completes_setCompare {n : Nat} {i : Instr} {g : Guard} {d : Opd} {f : Env → Slice → Nat → Bool × Flags}
    (hexec : ∀ s, exec i s = .next (s.perSlice g n fun e x => .ok (x.setCompare g d (f e x)))) :
    Completes g n i fun e x => x.setCompare g d (f e x) :=
  completes_of_perSlice hexec (fun _ _ _ => rfl) fun e x => x.keeps_setCompare g d (f e x)

/-- FCMP writes how each lane's operands compare, and raises the flags of that comparison (R149). -/
theorem completes_fcmp (g : Guard) (ty : Ty) (c : Cnd) (d a b : Opd) :
    Completes g (lenOf [a, b]) (.fcmp g ty c d a b) fun e x => x.setCompare g d fun k =>
      let y := (fmtOf ty).read (tvalOf e x k ty a)
      let z := (fmtOf ty).read (tvalOf e x k ty b)
      (cmpX c y z, cmpFlags c y z) :=
  completes_setCompare fun _ => rfl

end Sys2Proof.Machine

end

section
/-! PROOFS. The obligation on the float instructions. -/

open Sys2Proof Sys2Proof.Machine

/-- Settles O16: each of them works slice by slice, and writes float results (`completes_setFloat`, `completes_setFloats` for an
error-free transform), a comparison (FCMP) or the mask of a class (FCLASS). -/
theorem floatInstructionsComplete : Obligations.FloatInstructionsComplete := by
  refine ⟨?fadd, ?fmul, ?ffma, ?fminmax, ?fcmp, ?fclass, ?fapx, ?fcvt, ?fadd2, ?fmul2, ?ffma3⟩
  case fcmp =>
    exact completes_fcmp
  case fclass =>
    intro g ty d a
    exact completes_setInt fun _ => rfl
  case fadd2 | fmul2 | ffma3 =>
    intros
    exact completes_setFloats fun _ => rfl
  case fadd | fmul | ffma | fminmax | fapx | fcvt =>
    intros
    exact completes_setFloat fun _ => rfl

end

section
/-! PROOFS. The obligation on the expansion, narrow and residue instructions (R165 to R190), with the two that move fmt. -/

namespace Sys2Proof.Machine

theorem Slice.keeps_fmt (x : Slice) (v : BitVec 16) : ({ x with fmt := v } : Slice).keeps x := ⟨rfl, rfl, rfl, rfl, rfl⟩

/-- SETFMT copies its operand to fmt in the slices with a lane that takes part, where none of these holds a value it refuses
(R178). -/
theorem exec_setfmt {g : Guard} {a : Opd} {s : State} {b : Block} {l : List Slice} (hi : s.issuing = some (b, l))
    (hg : s.goes (lenOf [a]) = true) (hok : ∀ x ∈ l, x.part_ g = 0 ∨ fmtBad (svalOf (s.envOf b x) x a) = false) :
    exec (.setfmt g a) s = .next (s.after b l (lenOf [a]) fun x =>
      x.when g fun x => { x with fmt := (svalOf (s.envOf b x) x a).setWidth 16 }) := by
  refine congrArg Host.Outcome.next
    (perSlice_goes (fun x => { x with fmt := (svalOf (s.envOf b x) x a).setWidth 16 }) hi hg ?_ fun x _ => x.keeps_fmt _)
  intro x hx hpart
  have haccepts := (hok x hx).resolve_left hpart
  simp only [haccepts, Bool.false_eq_true, if_false]

end Sys2Proof.Machine

open Sys2Proof Sys2Proof.Machine

/-- Settles O17: each of them works slice by slice, and writes the words of an expansion or of a packed group
(`completes_setFloats`), one float (`completes_setFloat`), a comparison (XCMP) or a residue (RENC, RMAC); SETFMT and GETFMT move
fmt from and to a slice scalar. -/
theorem expansionAndNarrowComplete : Obligations.ExpansionAndNarrowComplete := by
  refine ⟨?xadd, ?xadds, ?xmuls, ?xrenorm, ?xcomp, ?xcmp, ?xcvt, ?setfmt, ?getfmt, ?qcvt, ?qdec, ?renc, ?rmac, ?rdec, ?spack⟩
  case xadd | xadds | xmuls | xrenorm | xcvt | qcvt | qdec | spack =>
    intros
    exact completes_setFloats fun _ => rfl
  case xcomp | rdec =>
    intros
    exact completes_setFloat fun _ => rfl
  case xcmp =>
    intros
    exact completes_setCompare fun _ => rfl
  case setfmt =>
    intro g a s b l
    exact exec_setfmt
  case getfmt =>
    intro g n
    exact completes_ws fun _ => rfl
  case renc | rmac =>
    intros
    exact completes_setInt fun _ => rfl

end

section
/-! PROOFS. The obligation on the residue word (R183, R184, R187, R202) and on the image of a tile (R211). -/

namespace Sys2Proof.Machine

/-! ## Residue words -/

/-- The fields RA, RB and RC of a word, put side by side in its 32 bits, are read back (R183). -/
theorem bitsOf_fields {a b c : Nat} (ha : a < 2048) (hb : b < 2048) (hc : c < 1024) :
    bitsOf (c * 2 ^ 22 + b * 2 ^ 11 + a) 0 11 = a ∧ bitsOf (c * 2 ^ 22 + b * 2 ^ 11 + a) 11 11 = b ∧
      bitsOf (c * 2 ^ 22 + b * 2 ^ 11 + a) 22 10 = c := by
  simp only [bitsOf]
  omega

/-- The fields of Res(n) are the residues of n (R184). -/
theorem bitsOf_resOf (n : Int) :
    bitsOf (resOf n).toNat 0 11 = (n % 2048).toNat ∧ bitsOf (resOf n).toNat 11 11 = (n % 2047).toNat ∧
      bitsOf (resOf n).toNat 22 10 = (n % 1023).toNat := by
  have hra : (n % 2048).toNat < 2048 := by omega
  have hrb : (n % 2047).toNat < 2048 := by omega
  have hrc : (n % 1023).toNat < 1024 := by omega
  rw [resOf, BitVec.toNat_ofNat, Nat.mod_eq_of_lt (by omega)]
  exact bitsOf_fields hra hrb hrc

theorem bitsOf_resOf_ra (n : Int) : (bitsOf (resOf n).toNat 0 11 : Int) = n % 2048 := by
  rw [(bitsOf_resOf n).1, Int.toNat_of_nonneg (Int.emod_nonneg n (by decide))]

theorem bitsOf_resOf_rb (n : Int) : (bitsOf (resOf n).toNat 11 11 : Int) = n % 2047 := by
  rw [(bitsOf_resOf n).2.1, Int.toNat_of_nonneg (Int.emod_nonneg n (by decide))]

theorem bitsOf_resOf_rc (n : Int) : (bitsOf (resOf n).toNat 22 10 : Int) = n % 1023 := by
  rw [(bitsOf_resOf n).2.2, Int.toNat_of_nonneg (Int.emod_nonneg n (by decide))]

/-- The t2 of R184 is the second digit of n to the radices 2048, 2047 and 1023. -/
theorem crt_second_digit (n : Int) : (n % 2047 - n % 2048) % 2047 = n / 2048 % 2047 := by omega

/-- The t3 of R184 is its third digit. -/
theorem crt_third_digit (n : Int) :
    (n % 1023 - n % 2048 - 2 * (n / 2048 % 2047)) * 512 % 1023 = n / 2048 / 2047 % 1023 := by omega

/-- A number modulo M from its digits to the radices 2048, 2047 and 1023. -/
theorem emod_resM_digits (n : Int) :
    n % resM = n % 2048 + 2048 * (n / 2048 % 2047) + 4192256 * (n / 2048 / 2047 % 1023) := by
  rw [resM]
  omega

/-- Crt(Res(n)) is the member of the signed range that is congruent to n modulo M (R184). -/
theorem crt_resOf (n : Int) : crt (resOf n) = n.bmod resM := by
  have hrb : ((bitsOf (resOf n).toNat 11 11 % 2047 : Nat) : Int) = n % 2047 := by
    rw [Int.natCast_mod, bitsOf_resOf_rb]
    exact Int.emod_emod_of_dvd n (dvd_refl 2047)
  have hrc : ((bitsOf (resOf n).toNat 22 10 % 1023 : Nat) : Int) = n % 1023 := by
    rw [Int.natCast_mod, bitsOf_resOf_rc]
    exact Int.emod_emod_of_dvd n (dvd_refl 1023)
  have ht2 : (((n / 2048 % 2047).toNat : Nat) : Int) = n / 2048 % 2047 := by omega
  have hx : ((bitsOf (resOf n).toNat 0 11 + 2048 * (n / 2048 % 2047).toNat +
      4192256 * (n / 2048 / 2047 % 1023).toNat : Nat) : Int) = n % resM := by
    rw [emod_resM_digits, ← bitsOf_resOf_ra]
    omega
  simp only [crt, hrb, hrc, bitsOf_resOf_ra, crt_second_digit, ht2, crt_third_digit, Int.bmod_def]
  rw [← hx, resM]
  split <;> split <;> omega

/-- A number added in each channel is added to the integer (R187, R202). -/
theorem resAdd_resOf (a n : Int) : resAdd (resOf a) n = resOf (a + n) := by
  simp only [resAdd, bitsOf_resOf_ra, bitsOf_resOf_rb, bitsOf_resOf_rc, Int.emod_add_emod]
  rfl

/-! ## Fields of a list of bytes -/

@[simp] theorem length_leBytes (n x : Nat) : (leBytes n x).length = n := by
  induction n generalizing x with
  | zero => rfl
  | succ n ih => rw [leBytes, List.length_cons, ih]

theorem leNat_leBytes (n x : Nat) : leNat (leBytes n x) = x % 256 ^ n := by
  induction n generalizing x with
  | zero => rw [leBytes, leNat, pow_zero, Nat.mod_one]
  | succ n ih => rw [leBytes, leNat, ih, BitVec.toNat_ofNat, pow_succ' 256, Nat.mod_mul]

theorem field_leBytes_append (n x : Nat) (r : List Byte) : field (leBytes n x ++ r) 0 n = x % 256 ^ n := by
  rw [field, List.drop_zero, List.take_left' (length_leBytes n x), leNat_leBytes]

theorem field_append_right (l r : List Byte) {o : Nat} (n : Nat) (h : l.length ≤ o) :
    field (l ++ r) o n = field r (o - l.length) n := by
  rw [field, List.drop_append, List.drop_eq_nil_of_le h, List.nil_append, field]

theorem length_flatMap_leBytes {α : Type} (f : α → Nat) (n : Nat) (l : List α) :
    (l.flatMap fun x => leBytes n (f x)).length = l.length * n := by
  simp only [List.length_flatMap, length_leBytes, List.map_const', List.sum_replicate, smul_eq_mul]

/-- The i-th field of a row of fields of n bytes each. -/
theorem field_flatMap_leBytes {α : Type} (f : α → Nat) (n : Nat) (l : List α) (r : List Byte) (i : Nat) (h : i < l.length) :
    field ((l.flatMap fun x => leBytes n (f x)) ++ r) (n * i) n = f l[i] % 256 ^ n := by
  induction l generalizing i with
  | nil => exact absurd h (Nat.not_lt_zero i)
  | cons x l ih =>
    rw [List.flatMap_cons, List.append_assoc]
    cases i with
    | zero => exact field_leBytes_append n (f x) _
    | succ i =>
      rw [field_append_right _ _ _ (by simp [Nat.mul_succ]), length_leBytes, Nat.mul_succ, Nat.add_sub_cancel]
      exact ih i (Nat.lt_of_succ_lt_succ h)

/-! ## A tile and its image -/

theorem pathCode_lt (p : TPath) : pathCode p < 4 := by cases p <;> decide

@[simp] theorem pathOfCode_pathCode (p : TPath) : pathOfCode (pathCode p) = p := by cases p <;> rfl

/-- The words of a tile's image, the part before its tail (R211). -/
theorem length_imageWords (t : Tile) : ((List.range 256).flatMap fun i => leBytes 4 (t.word i).toNat).length = 1024 := by
  rw [length_flatMap_leBytes, List.length_range]

theorem field_image_word (t : Tile) {i : Nat} (h : i < 256) : field t.image (4 * i) 4 = (t.word i).toNat := by
  simp only [Tile.image, List.append_assoc]
  rw [field_flatMap_leBytes _ _ _ _ _ (by simpa using h), List.getElem_range]
  exact Nat.mod_eq_of_lt (t.word i).isLt

/-- The tail follows the words. -/
theorem field_image_tail (t : Tile) (o n : Nat) : field t.image (1024 + o) n =
    field (leBytes 8 (t.g * 16 + pathCode t.path) ++ (leBytes 8 t.bound ++ (leBytes 8 t.exc.toNat ++ leBytes 8 0))) o n := by
  simp only [Tile.image, List.append_assoc]
  rw [field_append_right _ _ _ (by rw [length_imageWords]; omega), length_imageWords, Nat.add_sub_cancel_left]

theorem field_image_state (t : Tile) (hg : t.g < 16) : field t.image 1024 8 = t.g * 16 + pathCode t.path := by
  have hp := pathCode_lt t.path
  rw [field_image_tail t 0, field_leBytes_append]
  exact Nat.mod_eq_of_lt (by omega)

theorem field_image_bound (t : Tile) (hb : t.bound < 2 ^ 64) : field t.image 1032 8 = t.bound := by
  rw [field_image_tail t 8, field_append_right _ _ _ (by simp), length_leBytes, field_leBytes_append]
  exact Nat.mod_eq_of_lt hb

theorem field_image_exc (t : Tile) : field t.image 1040 8 = t.exc.toNat := by
  rw [field_image_tail t 16, field_append_right _ _ _ (by simp), field_append_right _ _ _ (by simp), length_leBytes, length_leBytes,
    field_leBytes_append]
  exact Nat.mod_eq_of_lt t.exc.isLt

/-- An array filled from 0 up holds what each index below its length was given. -/
theorem Cells.get_foldl_set_range {α : Type} [DecidableEq α] (d : α) (f : Nat → α) (c : Cells α) {n k : Nat} (h : k < n) :
    Cells.get d ((List.range n).foldl (fun c i => Cells.set d c i (f i)) c) k = f k := by
  induction n with
  | zero => exact absurd h (Nat.not_lt_zero k)
  | succ n ih =>
    rw [List.range_succ, List.foldl_append, List.foldl_cons, List.foldl_nil, Cells.get_set]
    split
    · next e => rw [e]
    · next e => exact ih (by omega)

theorem tileOfImage_owner (bs : List Byte) (o : Option Nat) : (tileOfImage bs o).owner = o := rfl

theorem tileOfImage_bound (bs : List Byte) (o : Option Nat) : (tileOfImage bs o).bound = field bs 1032 8 := rfl

/-- A word of a tile read from an image is the field of four bytes at its place (R211). -/
theorem tileOfImage_word (bs : List Byte) (o : Option Nat) {i : Nat} (h : i < 256) :
    (tileOfImage bs o).word i = BitVec.ofNat 32 (field bs (4 * i) 4) := by
  rw [Tile.word, tileOfImage, Cells.get_foldl_set_range 0 (fun i => BitVec.ofNat 32 (field bs (4 * i) 4)) [] h]

theorem tileOfImage_image_path (t : Tile) (o : Option Nat) (hg : t.g < 16) : (tileOfImage t.image o).path = t.path := by
  have hp := pathCode_lt t.path
  have hcode : (t.g * 16 + pathCode t.path) % 4 = pathCode t.path := by omega
  simp only [tileOfImage, field_image_state t hg, hcode, pathOfCode_pathCode]

theorem tileOfImage_image_g (t : Tile) (o : Option Nat) (hg : t.g < 16) : (tileOfImage t.image o).g = t.g := by
  have hp := pathCode_lt t.path
  simp only [tileOfImage, field_image_state t hg, bitsOf]
  omega

theorem tileOfImage_image_bound (t : Tile) (o : Option Nat) (hb : t.bound < 2 ^ 64) : (tileOfImage t.image o).bound = t.bound := by
  rw [tileOfImage_bound, field_image_bound t hb]

theorem tileOfImage_image_exc (t : Tile) (o : Option Nat) : (tileOfImage t.image o).exc = t.exc := by
  simp only [tileOfImage, field_image_exc, BitVec.ofNat_toNat, BitVec.setWidth_eq]

theorem tileOfImage_image_word (t : Tile) (o : Option Nat) {i : Nat} (h : i < 256) :
    (tileOfImage t.image o).word i = t.word i := by
  rw [tileOfImage_word _ _ h, field_image_word t h, BitVec.ofNat_toNat, BitVec.setWidth_eq]

end Sys2Proof.Machine

open Sys2Proof Sys2Proof.Machine

/-- Settles O36: Crt finds the digits of n to the radices 2048, 2047 and 1023, and so n itself within the range (`crt_resOf`); each
field of a tile's image stands where `tileOfImage` reads it. -/
theorem residuesAndImagesAreExact : Obligations.ResiduesAndImagesAreExact := by
  refine ⟨⟨fun n hlo hhi => ?inRange, resAdd_resOf⟩, fun t o hg hb => ⟨?path, ?g, ?bound, ?exc, ?owner, fun i hi => ?word⟩⟩
  case inRange =>
    rw [crt_resOf, resM]
    exact Int.bmod_eq_of_le (by omega) (by omega)
  case path => exact tileOfImage_image_path t o hg
  case g => exact tileOfImage_image_g t o hg
  case bound => exact tileOfImage_image_bound t o hb
  case exc => exact tileOfImage_image_exc t o
  case owner => exact tileOfImage_owner t.image o
  case word => exact tileOfImage_image_word t o hi

end

section
/-! PROOFS. Instructions on tiles and commands (R209 to R214): what they leave of a gang's slices, and when they go on. -/

namespace Sys2Proof.Machine

/-! ## Going on in a normal launch -/

/-- No buffer stands between a slice of a normal launch and the units (R254). -/
theorem buffers_normal {s : State} {b : Block} (hd : (s.lrOf b).det = false) : s.buffers b = false := by
  rw [State.buffers, hd, Bool.false_and]

/-- In a normal launch a synchronising operation is performed as any other. -/
theorem perSerial_normal {s : State} {b : Block} {l : List Slice} (hi : s.issuing = some (b, l)) (hd : (s.lrOf b).det = false)
    (g : Guard) (n : Nat) (F : Block → List Slice → Res) : s.perSerial g n F = s.complete n true (F b l) := by
  simp only [State.perSerial, hi, hd, Bool.false_and, Bool.false_eq_true, if_false]

/-- An instruction whose outcome in a normal launch is F is performed and goes on, wherever F answers so and keeps the slices in their
places. -/
theorem performs_of_complete {n : Nat} {qend : Bool} {i : Instr} {F : State → Block → List Slice → Res}
    {ok : State → Block → List Slice → Bool} {f : State → Block → List Slice → State}
    (hexec : ∀ {s b l}, s.issuing = some (b, l) → (s.lrOf b).det = false → exec i s = .next (s.complete n qend (F s b l)))
    (hF : ∀ s b l, ok s b l = true → F s b l = .done (f s b l) [])
    (hk : ∀ s b l, ok s b l = true → s.Keeps (f s b l) b.uid) : Performs n i ok f := by
  intro s b l hi hg hok
  obtain ⟨-, hd, -⟩ := goes_spec hi hg
  rw [hexec hi hd, hF s b l hok, Keeps.complete qend hi hg (hk s b l hok)]

/-! ## Suppression (R214) -/

namespace Slice

theorem keeps_setSup (x : Slice) (k : SupKind) (p : Supp) : (x.setSup k p).keeps x := by
  cases k <;> exact ⟨rfl, rfl, rfl, rfl, rfl⟩

theorem keeps_replay (x : Slice) (k : SupKind) : (x.replay k).keeps x :=
  keeps_trans (keeps_setSup ..) (x.keeps_writeAll _)

theorem keeps_sent (x : Slice) (k : SupKind) (d : Option Nat) (n : Note) : (x.sent k d n).keeps x := by
  have hsup : (if x.handling then x else x.setSup k ((x.sup k).note d.isSome n)).keeps x := by
    split
    exacts [x.keeps_refl, x.keeps_setSup ..]
  unfold Slice.sent
  simp only
  split
  · exact keeps_trans (keeps_writeAll ..) hsup
  · exact keeps_trans ⟨rfl, rfl, rfl, rfl, rfl⟩ hsup
  · exact hsup

end Slice

/-! ## Tiles (R209 to R211) -/

namespace Keeps

theorem scratchPut (s : State) (b : Block) (share off : Nat) (bs : List Byte) (uid : Nat) : s.Keeps (s.scratchPut b share off bs) uid :=
  andSame (modShare s uid b.uid share fun sh => sh.write off bs) rfl rfl

theorem setTile (s : State) (b : Block) (x : Slice) (t : Nat) (z : Tile) (uid : Nat) : s.Keeps (s.setTile b x t z) uid :=
  modShare ..

theorem memitOne (g : Guard) (main : Bool) (d : Opd) (n : Nat) (o c : Opd) (s : State) (b : Block) (x : Slice) (uid : Nat) :
    s.Keeps (Machine.memitOne g main d n o c s b x) uid := by
  unfold Machine.memitOne
  simp only
  refine trans ?_ (modSlice _ _ _ _ _ fun y => Slice.keeps_trans (Slice.keeps_setS ..) (y.keeps_setFlags _))
  split
  · exact scratchPut ..
  · exact trans (scratchPut ..) (scratchPut ..)

theorem tileDone {f : State → Block → Slice → State} {uid : Nat} (hf : ∀ (s : State) b x, s.Keeps (f s b x) uid) (s : State)
    (g : Guard) (b : Block) (l : List Slice) : s.Keeps (s.tileDone g b l f) uid := by
  refine overSlices (fun s b x => ?_) s g b l
  split
  · exact modSlice _ _ _ _ _ fun y => y.keeps_replay .m
  · exact trans (hf s b x) (modSlice _ _ _ _ _ fun y => y.keeps_sent ..)

end Keeps

/-- A tile instruction whose checks pass and whose tiles are free acts. -/
theorem tileGang_ready {s : State} {g : Guard} {b : Block} {l : List Slice} {tiles : Slice → List Nat} {check : Slice → Option Ev}
    (enter f : State → Block → Slice → State) (hc : gangTrap g l check = none) (hr : (acting g l).all (s.tileReady b tiles) = true)
    (ht : (acting g l).any (tileTaken b l tiles) = false) : s.tileGang g b l tiles check enter f = .done (s.tileDone g b l f) [] := by
  unfold acting at hr ht
  simp only [State.tileGang, hc, hr, ht, Bool.not_false, Bool.and_self, if_true]

/-- An instruction that in a normal launch is a tile instruction on the gang, with the effect f, works on its tiles. -/
theorem worksOnTiles_of_tileGang {n : Nat} {qend : Bool} {i : Instr} {g : Guard} {tiles : Block → Slice → List Nat}
    {check : State → Block → Slice → Option Ev} {enter f : State → Block → Slice → State}
    (hexec : ∀ {s b l}, s.issuing = some (b, l) → (s.lrOf b).det = false →
      exec i s = .next (s.complete n qend (s.tileGang g b l (tiles b) (check s b) enter f)))
    (hk : ∀ (s : State) b x uid, s.Keeps (f s b x) uid) : WorksOnTiles n i g tiles check f := by
  refine performs_of_complete hexec (fun s b l hok => ?_) fun s b l _ => Keeps.tileDone (fun s b x => hk s b x _) s g b l
  simp only [Bool.and_eq_true, Option.isNone_iff_eq_none, Bool.not_eq_true'] at hok
  obtain ⟨⟨hc, hr⟩, ht⟩ := hok
  exact tileGang_ready _ _ hc hr ht

/-! ## Commands (R212, R214) -/

/-- What a sender leaves, where it leaves the state to go on from, keeps the slices in their places. -/
def Issued.Keeps (s : State) (uid : Nat) : Issued → Prop
  | .done t _ | .waits t => s.Keeps t uid
  | .forced _ | .bad _ => True

/-- A sender keeps the slices of every block in their places. -/
def Sender.Keeps (send : Sender) : Prop := ∀ s b x id ws uid, (send s b x id ws).Keeps s uid

namespace Keeps

/-- A change of the blocks alone keeps the launches. -/
theorem onlyBlocks {s t u : State} {uid : Nat} (h : s.Keeps t uid) (hb : u.blocks = t.blocks) (hl : u.launches = s.launches) :
    s.Keeps u uid := by
  obtain ⟨-, hblock⟩ := h
  refine ⟨fun k => by simp only [State.launch?, hl], fun b hs hu => ?_⟩
  obtain ⟨b', f, ht, hrest⟩ := hblock b hs hu
  exact ⟨b', f, by rw [State.holds, hb]; exact ht, hrest⟩

section
variable {send : Sender} (hsend : send.Keeps) (k : SupKind) (d : Option Nat) (args : Slice → List Word) (uid blk : Nat)
include hsend

/-- What a slice's command leaves, gone or not, keeps the slices in their places. -/
theorem sendOne (s : State) (x : Slice) :
    match s.sendOne k d args send blk x with
    | .ok t => s.Keeps t uid
    | .error r => r.Keeps s uid := by
  unfold State.sendOne
  cases (s.block? blk).bind fun b => (b.slice? x.num).map fun y => (b, y) with
  | none => exact refl s uid
  | some p =>
    obtain ⟨b, y⟩ := p
    have hs := hsend s.newId.2 b y s.newId.1 (args x) uid
    cases hag : y.again k <;> cases hr : send s.newId.2 b y s.newId.1 (args x) <;>
      simp only [hag, hr, Bool.false_eq_true, if_false, if_true, Issued.Keeps] at hs ⊢
    case false.done t n => exact trans (trans (newId s uid) hs) (modSlice _ _ _ _ _ fun z => z.keeps_sent k d n)
    case false.waits t => exact trans (newId s uid) hs
    case true.done | true.waits | true.forced => exact modSlice _ _ _ _ _ fun z => z.keeps_replay k

/-- The commands of slices, as far as they go, keep the slices in their places. -/
theorem sendAll {l : List Slice} {s t : State} (h : State.sendAll s k d args send blk l = .ok t) : s.Keeps t uid := by
  induction l generalizing s with
  | nil => cases h; exact refl ..
  | cons x l ih =>
    have hx := sendOne hsend k d args uid blk s x
    unfold State.sendAll at h
    have hmade : ∀ y : Slice, ({ y with wait := .made } : Slice).keeps y := fun y => ⟨rfl, rfl, rfl, rfl, rfl⟩
    cases hr : s.sendOne k d args send blk x with
    | ok u =>
      simp only [hr] at h hx
      exact trans (trans hx (modSlice _ _ _ _ _ hmade)) (ih h)
    | error r =>
      simp only [hr] at h hx
      cases r with
      | bad e => cases h
      | waits u => exact trans (onlyBlocks (s := s) hx (by rfl) (by rfl)) (ih h)
      | forced u => exact trans (same (s := s) uid (by rfl) (by rfl)) (ih h)
      | done u n => exact ih h

end

end Keeps

/-- A command of the gang whose check and log let it go, and whose every sender has room. -/
theorem cmdGang_sent {s t : State} {g : Guard} {k : SupKind} {i : Instr} {d : Option Nat} {check : Slice → Option Ev}
    {args : Slice → List Word} {send : Sender} {b : Block} {l : List Slice} (hb : s.buffers b = false)
    (hc : gangTrap g (toSend g l) check = none) (hlog : cmdLogFull g k d (toSend g l) = none)
    (ht : s.sendAll k d args send b.uid (toSend g l) = .ok t) (hsent : t.allSent b.uid (toSend g l) = true) :
    s.cmdGang g k i d check args send b l = .done t [] := by
  unfold toSend at hc hlog ht hsent
  simp only [State.cmdGang, hc, hlog, hb, ht, hsent, Option.orElse_eq_orElse, Option.orElse_none, ite_self, Bool.false_eq_true,
    if_false, if_true]

/-- An instruction that in a normal launch is a command of the gang sends its commands and goes on. -/
theorem sends_of_cmdGang {n : Nat} {i : Instr} {g : Guard} {k : SupKind} {d : Option Nat} {check : State → Block → Slice → Option Ev}
    {args : State → Block → Slice → List Word} {send : LaunchRec → Sender}
    (hexec : ∀ {s b l}, s.issuing = some (b, l) → (s.lrOf b).det = false →
      exec i s = .next (s.complete n false (s.cmdGang g k i d (check s b) (args s b) (send (s.lrOf b)) b l)))
    (hsend : ∀ r, (send r).Keeps) : Sends n i g k d check args send := by
  intro s b l hi hg hok
  obtain ⟨-, hd, -⟩ := goes_spec hi hg
  simp only [Bool.and_eq_true, Option.isNone_iff_eq_none] at hok
  obtain ⟨⟨hc, hlog⟩, hwent⟩ := hok
  cases ht : s.sendAll k d (args s b) (send (s.lrOf b)) b.uid (toSend g l) with
  | error e => rw [ht] at hwent; cases hwent
  | ok t =>
    rw [ht] at hwent
    simp only [hexec hi hd, cmdGang_sent (buffers_normal hd) hc hlog ht hwent,
      Keeps.complete false hi hg (Keeps.sendAll (hsend _) k d (args s b) b.uid b.uid ht), ht, okOr]

/-! ## Barrier objects and pushes (R197, R207, R208) -/

/-- No slice with a lane that takes part raises an event. -/
theorem firstEv_none {g : Guard} {l : List Slice} {f : Slice → Option Ev} (h : ∀ x ∈ acting g l, f x = none) :
    firstEv g l f = none := by
  have hits : (l.filter fun x => x.part_ g != 0).filterMap f = [] := List.filterMap_eq_nil_iff.mpr h
  simp only [firstEv, hits]

/-- An event that a test names comes from no slice for which the test fails. -/
theorem firstEv_none_of_test {g : Guard} {l : List Slice} {bad : Slice → Bool} {e : Slice → Ev}
    (h : ∀ x ∈ acting g l, bad x = false) : firstEv g l (fun x => if bad x then some (e x) else none) = none :=
  firstEv_none fun x hx => by rw [if_neg (by rw [h x hx]; decide)]

theorem sendPush_keeps : Sender.Keeps sendPush := by
  intro s b x id ws uid
  have hroom : ∀ t, s.Keeps (s.holdRoom b x t) uid := fun t =>
    Keeps.trans (Keeps.modShare ..) (Keeps.modSlice _ _ _ _ _ fun y => ⟨rfl, rfl, rfl, rfl, rfl⟩)
  unfold sendPush
  simp only
  split
  · trivial
  · split
    · exact hroom _
    · split
      · exact hroom _
      · exact Keeps.andSame (Keeps.trans (Keeps.modShare s uid b.uid x.share fun sh => sh.accept 0) (Keeps.modShare ..)) rfl rfl

theorem sendArrive_keeps : Sender.Keeps sendArrive := by
  intro s b x id ws uid
  unfold sendArrive
  simp only
  split
  · trivial
  · split
    · exact Keeps.modSlice _ _ _ _ _ fun y => ⟨rfl, rfl, rfl, rfl, rfl⟩
    · exact Keeps.trans (Keeps.modShare ..) (Keeps.modShare ..)

end Sys2Proof.Machine

end

section
open Sys2Proof Sys2Proof.Machine

/-- Settles O33: in a normal launch each of the four is a tile instruction of its gang (`worksOnTiles_of_tileGang`). -/
theorem tileInstructionsComplete : Obligations.TileInstructionsComplete := by
  refine ⟨fun g d => worksOnTiles_of_tileGang (qend := false) (enter := mzeroEnter d) (fun {s b l} hi hd => ?mzero)
      fun s b x uid => Keeps.setTile ..,
    fun g main d a b c => worksOnTiles_of_tileGang (qend := true) (enter := fun s _ _ => s) (fun {s blk l} hi hd => ?memit)
      fun s blk x uid => Keeps.memitOne ..,
    fun g a b => worksOnTiles_of_tileGang (qend := true) (enter := fun s _ _ => s)
      (fun hi hd => congrArg Host.Outcome.next (perSerial_normal hi hd ..)) fun s blk x uid => Keeps.scratchPut ..,
    fun g d a => worksOnTiles_of_tileGang (qend := true) (enter := mloadEnter d a)
      (fun hi hd => congrArg Host.Outcome.next (perSerial_normal hi hd ..)) fun s blk x uid => Keeps.setTile ..⟩
  case mzero =>
    change execMzero g d s = _
    simp only [execMzero, State.perGang, hi, buffers_normal hd, Bool.false_eq_true, if_false]
  case memit =>
    change execMemit g main d a b c s = _
    simp only [execMemit, perSerial_normal hi hd, buffers_normal hd, Bool.not_false]

/-- Settles O34: each instruction's outcome in a normal launch keeps its gang in its places, and each engine's event finds the task that
it names. -/
theorem tasksAndObjectsComplete : Obligations.TasksAndObjectsComplete := by
  refine ⟨fun g a b c => ?init, fun g a b => ?wait, fun g a b => ?arrive, fun g a => ?push, fun s core t hcore hfew ht => ?start,
    fun s t b x ht hx hrun hhold hev hfree => ?chunk⟩
  case init =>
    refine performs_of_complete (fun hi hd => congrArg Host.Outcome.next (perSerial_normal hi hd ..)) (fun s blk l hok => ?_)
      fun s blk l _ => Keeps.tileDone (fun _ _ _ => Keeps.modShare ..) s g blk l
    simp only [List.all_eq_true, Bool.and_eq_true, Bool.not_eq_true'] at hok
    have hbusy : (acting g l).any (initBusy s a b blk) = false :=
      List.any_eq_false.mpr fun x hx => by rw [(hok x hx).2]; decide
    unfold acting at hbusy
    simp only [firstEv_none_of_test fun x hx => (hok x hx).1, hbusy, Bool.false_eq_true, if_false]
  case wait =>
    refine performs_of_complete (fun hi hd => congrArg Host.Outcome.next (perSerial_normal hi hd ..)) (fun s blk l hok => ?_)
      fun s blk l _ => Keeps.tileDone (fun _ _ _ => Keeps.refl ..) s g blk l
    simp only [List.all_eq_true, Bool.and_eq_true, Bool.not_eq_true'] at hok
    have hover : (acting g l).all (waitIsOver s a b blk) = true := List.all_eq_true.mpr fun x hx => (hok x hx).2
    unfold acting at hover
    simp only [firstEv_none_of_test fun x hx => (hok x hx).1, hover, if_true]
  case arrive =>
    refine sends_of_cmdGang (fun {s blk l} hi hd => ?_) fun _ => sendArrive_keeps
    change execMbobjArrive g a b s = _
    simp only [execMbobjArrive, State.perGang, hi, buffers_normal hd, Bool.not_false, Bool.true_and]
  case push =>
    refine sends_of_cmdGang (fun {s blk l} hi hd => ?_) fun _ => sendPush_keeps
    change execQpostTask g a s = _
    simp only [execQpostTask, State.perGang, hi]
  case start =>
    change execTileTaskStart core s = _
    simp only [execTileTaskStart, enginesOf, hcore, hfew, decide_true, Bool.and_self, if_true, ht]
  case chunk =>
    change execTileChunkEnd t.id s = _
    simp only [execTileChunkEnd, ht, hx, hrun, hhold, hev, hfree, Option.isNone_none, Bool.and_self, if_true]

end

section
/-! PROOFS. A push that finds the queue full (R197, R212): the slice keeps its tiles and waits for room, so the state is another. -/

namespace Sys2Proof.Machine

/-- What a push comes to that passes its checks and for which the core's queue has no room. -/
theorem sendPush_queue_full {s : State} {b : Block} {x : Slice} {args : List Word} {t : TaskRec} (id : Nat)
    (ht : taskOf (scalarBytes (args.take 8)) (args.getD 8 0).toNat = t)
    (hok : t.stateCheck (s.lrOf b).det x.num (b.share x.share) = none)
    (hfull : (s.tasks.filter fun u => u.core == (b.share x.share).core && u.rcd.k != 0).length ≥ Config.taskQueue) :
    sendPush s b x id args = .waits (s.holdRoom b x t) := by
  simp only [sendPush, ht, hok, ge_iff_le, hfull, if_true]

/-- A resident block of one slice is another once the slice, which waited for nothing, waits for room. -/
theorem holdRoom_ne {s : State} {b : Block} {x : Slice} (hb : s.holds b) (hx : b.slices = [x]) (hw : x.wait = .none) (t : TaskRec) :
    s.holdRoom b x t ≠ s := by
  intro h
  have hclaimed := block?_modBlock hb (fun y => y.modShare x.share (t.claim x.num)) fun _ => rfl
  have hwaits := block?_modBlock hclaimed (fun y => y.modSlice x.num fun z =>
    { z with wait := .room t.tiles (if t.useobj then some t.obj else none) }) fun _ => rfl
  have hblk := holds_block? hwaits
  change (s.holdRoom b x t).block? b.uid = _ at hblk
  rw [h, holds_block? hb, Option.some.injEq] at hblk
  have hslices := congrArg (fun c : Block => c.slices.map fun y => y.wait) hblk
  simp [Block.modSlice, hx, hw] at hslices

namespace FullQueue

/-- A push of a task with K = 96 of int8 elements on tile 0, under fmt 0x66. -/
def args : List Word := [0x60_0000_0001, 0, 0, 0, 0, 0, 0, 0, 0x66]

/-- The block of one slice that `State.place` puts on core 0. -/
def block : Block :=
  { uid := 2, launch := 1, num := 0, unit := 0, round := .parallel, slices := [Place.slice 3]
    shares := [Share.entry 0 0 64], noFlush := false }

/-- A task of that kind in the queue of core 0. -/
def task : Task :=
  { id := 50, core := 0, block := 2, share := 0, slice := 0, at_ := 0, num := 1, phase := 0
    rcd := taskOf (scalarBytes (args.take 8)) 0x66, running := false, chunks := 0
    counts := { sclc := false, metac := 0, ofc := 0, nvc := 0, nxc := 0 }, hold := none }

/-- The placed block, with the queue of its core full. -/
def state : State := { State.reset.place 0 with tasks := List.replicate Config.taskQueue task }

theorem block_resident : state.holds block := rfl

theorem check_passes : task.rcd.stateCheck (state.lrOf block).det 0 (block.share 0) = none := by decide

theorem queue_full : (state.tasks.filter fun u => u.core == (block.share 0).core && u.rcd.k != 0).length ≥ Config.taskQueue := by
  decide +kernel

end FullQueue

end Sys2Proof.Machine

end

section
open Sys2Proof Sys2Proof.Machine

/-- Refutes O35: it has a push that the queue has no room for leave the state as it is, where the model's push claims its tile and its
slice waits for room, so that its checks hold when room comes (R6, R197; `State.holdRoom`). A slice of `State.place` that pushes a task
while 64 tasks stand in its core's queue shows it. -/
theorem not_pushesAreAcceptedOrRefused : ¬ Obligations.PushesAreAcceptedOrRefused := by
  intro h
  obtain ⟨-, hwaits, -⟩ := h FullQueue.state FullQueue.block (Place.slice 3) 60 FullQueue.args
  have hsame := hwaits FullQueue.check_passes FullQueue.queue_full
  rw [sendPush_queue_full 60 (t := FullQueue.task.rcd) rfl FullQueue.check_passes FullQueue.queue_full, Issued.waits.injEq] at hsame
  exact holdRoom_ne FullQueue.block_resident rfl rfl _ hsame

end

section
/-! PROOFS. Memory as units beside the slices see it: bytes poked and read back, the held stores that publication leaves, poison
(R219, R239, R243, R283). -/

namespace Sys2Proof.Machine

/-! ## The keys of T1 (R219) -/

/-- The placement of SL = 0 gives the bytes of T1 keys of their own. -/
theorem t1Key_inj {p q : Nat} (hp : p < 2 ^ 39) (hq : q < 2 ^ 39) (h : t1Key false p = t1Key false q) : p = q := by
  have hxp : bitsOf p 10 9 ^^^ bitsOf p 19 9 < 2 ^ 9 := Nat.xor_lt_two_pow (Nat.mod_lt _ (by decide)) (Nat.mod_lt _ (by decide))
  have hxq : bitsOf q 10 9 ^^^ bitsOf q 19 9 < 2 ^ 9 := Nat.xor_lt_two_pow (Nat.mod_lt _ (by decide)) (Nat.mod_lt _ (by decide))
  simp only [t1Key, Bool.false_eq_true, if_false] at h
  generalize hgp : bitsOf p 10 9 ^^^ bitsOf p 19 9 = gp at h hxp
  generalize hgq : bitsOf q 10 9 ^^^ bitsOf q 19 9 = gq at h hxq
  simp only [bitsOf] at h hgp hgq
  have hparts : gp = gq ∧ p / 2 ^ 19 = q / 2 ^ 19 ∧ p % 2 ^ 10 = q % 2 ^ 10 := by omega
  obtain ⟨hg, hrow, hlow⟩ := hparts
  have hmid : p / 2 ^ 10 % 2 ^ 9 = q / 2 ^ 10 % 2 ^ 9 := by
    rw [← hgp, ← hgq, hrow] at hg
    exact Nat.xor_left_injective hg
  omega

/-! ## Bytes poked and read back (R241) -/

namespace Memory

@[simp] theorem setBank_ram (m : Memory) (k : Nat) (b : Byte) : (m.setBank k b).ram = m.ram := rfl
@[simp] theorem setBank_held (m : Memory) (k : Nat) (b : Byte) : (m.setBank k b).held = m.held := rfl
@[simp] theorem through_ram (m : Memory) (k : Nat) (b : Byte) : (m.through k b).ram = Cells.set 0 m.ram k b := rfl
@[simp] theorem through_held (m : Memory) (k : Nat) (b : Byte) : (m.through k b).held = m.held := rfl

@[simp] theorem clean_ram (m : Memory) (l : Nat) : (m.clean l).ram = m.ram := by
  unfold Memory.clean
  split
  · split <;> rfl
  · rfl

@[simp] theorem clean_held (m : Memory) (l : Nat) : (m.clean l).held = m.held := by
  unfold Memory.clean
  split
  · split <;> rfl
  · rfl

@[simp] theorem take_ram (m : Memory) (c : CachePlace) (l : Nat) : (m.take c l).ram = m.ram := by
  unfold Memory.take
  split
  exacts [m.clean_ram l, rfl]

@[simp] theorem take_held (m : Memory) (c : CachePlace) (l : Nat) : (m.take c l).held = m.held := by
  unfold Memory.take
  split
  exacts [m.clean_held l, rfl]

theorem pokeAt_ram (m : Memory) (c : CachePlace) (k : Nat) (b : Byte) : (m.pokeAt c k b).ram = Cells.set 0 m.ram k b := by
  unfold Memory.pokeAt
  split <;> simp

theorem pokeAt_held (m : Memory) (c : CachePlace) (k : Nat) (b : Byte) :
    (m.pokeAt c k b).held = m.held.filter fun h => h.key != k := by
  unfold Memory.pokeAt
  split <;> simp

theorem store_held (m : Memory) (nt : Bool) (c : CachePlace) (k : Nat) (b : Byte) :
    (m.store nt c k b).held = m.held.filter fun h => h.key != k := by
  unfold Memory.store
  split
  exacts [rfl, m.pokeAt_held c k b]

theorem peek_poke (m : Memory) (k : Nat) (b : Byte) (j : Nat) : (m.poke k b).peek j = if j = k then b else m.peek j := by
  rw [Memory.peek, Memory.poke, pokeAt_ram, Cells.get_set]
  rfl

theorem peek_pokeMany_other (m : Memory) {ws : List (Nat × Byte)} {j : Nat} (h : ∀ c ∈ ws, c.1 ≠ j) :
    (m.pokeMany ws).peek j = m.peek j := by
  induction ws generalizing m with
  | nil => rfl
  | cons c ws ih =>
    obtain ⟨hc, hws⟩ := List.forall_mem_cons.mp h
    exact (ih (m.poke c.1 c.2) hws).trans (by rw [peek_poke, if_neg hc.symm])

/-- A byte among those written, all of which are v at its key. -/
theorem peek_pokeMany (m : Memory) {ws : List (Nat × Byte)} {j : Nat} {v : Byte} (hj : ∃ c ∈ ws, c.1 = j)
    (hv : ∀ c ∈ ws, c.1 = j → c.2 = v) : (m.pokeMany ws).peek j = v := by
  induction ws generalizing m with
  | nil => obtain ⟨c, hc, -⟩ := hj; cases hc
  | cons c ws ih =>
    obtain ⟨hc, hws⟩ := List.forall_mem_cons.mp hv
    by_cases hlater : ∃ d ∈ ws, d.1 = j
    · exact ih (m.poke c.1 c.2) hlater hws
    · obtain ⟨d, hd, hdj⟩ := hj
      have hcj : c.1 = j := by
        rcases List.mem_cons.mp hd with rfl | hd
        exacts [hdj, absurd ⟨d, hd, hdj⟩ hlater]
      have hother : ∀ d ∈ ws, d.1 ≠ j := fun d hd hdj => hlater ⟨d, hd, hdj⟩
      exact (peek_pokeMany_other (m.poke c.1 c.2) hother).trans (by rw [peek_poke, if_pos hcj.symm, hc hcj])

/-! ## What publication leaves held (R243, R244) -/

theorem mem_held_publish {m : Memory} {p : HeldByte → Bool} {h : HeldByte} (hh : h ∈ (m.publish p).held) :
    h ∈ m.held ∧ p h = false := by
  have hfold : ∀ l : List HeldByte, h ∈ (l.foldr (fun (h : HeldByte) (m : Memory) => if p h then m.store h.nt h.place h.key h.val else
      { m with held := h :: m.held }) { m with held := [] }).held → h ∈ l ∧ p h = false := by
    intro l
    induction l with
    | nil => exact fun hh => by cases hh
    | cons x l ih =>
      rw [List.foldr_cons]
      intro hh
      split at hh
      · rw [store_held] at hh
        obtain ⟨hl, hp⟩ := ih (List.mem_filter.mp hh).1
        exact ⟨List.mem_cons_of_mem _ hl, hp⟩
      · next hx =>
        rcases List.mem_cons.mp hh with rfl | hh
        · exact ⟨List.mem_cons_self, by simpa using hx⟩
        · obtain ⟨hl, hp⟩ := ih hh
          exact ⟨List.mem_cons_of_mem _ hl, hp⟩
  exact hfold m.held hh

/-- Publishing for each of a list: what is held afterwards was held before, and none of the list chose it. -/
theorem mem_held_foldl_publish {α : Type} {f : Memory → α → Memory} {p : α → HeldByte → Bool} {h : HeldByte}
    (hf : ∀ m a, h ∈ (f m a).held → h ∈ m.held ∧ p a h = false) {l : List α} {m : Memory} (hh : h ∈ (l.foldl f m).held) :
    h ∈ m.held ∧ ∀ a ∈ l, p a h = false := by
  induction l generalizing m with
  | nil => exact ⟨hh, fun a ha => by cases ha⟩
  | cons a l ih =>
    obtain ⟨hrest, hl⟩ := ih hh
    obtain ⟨hm, ha⟩ := hf m a hrest
    exact ⟨hm, List.forall_mem_cons.mpr ⟨ha, hl⟩⟩

/-- Once a line's stores are published to every observer, none of them is held. -/
theorem mem_held_publishLine {m : Memory} {l : Nat} {h : HeldByte} (hh : h ∈ (m.publishLine none l).held) :
    h ∈ m.held ∧ (lineOf h.key == l) = false := by
  obtain ⟨hm, hchosen⟩ := mem_held_foldl_publish (f := fun (m : Memory) (x : HeldByte) => m.publishUpTo x.block x.slice x.seq)
    (p := fun x y => y.block == x.block && y.slice == x.slice && y.seq ≤ x.seq) (fun _ _ => mem_held_publish) hh
  refine ⟨hm, Bool.eq_false_iff.mpr fun hl => ?_⟩
  have hself := hchosen h (List.mem_filter.mpr ⟨hm, by simp [hl]⟩)
  simp at hself

end Memory

/-! ## Errors reported and poison (R239) -/

/-- The state once an uncorrectable error has been counted and poisons nothing. -/
def State.errorReported (s : State) (site : ErrSite) : State :=
  { s with fw := { s.fw with reported := countAt s.fw.reported (ErrSite.bank site) } }

theorem mem_addPoison (s : State) (k j : Nat) : j ∈ (s.addPoison k).mem.poison ↔ j / 8 = k / 8 ∨ j ∈ s.mem.poison := by
  have hword : j ∈ (List.range 8).map (fun i => k / 8 * 8 + i) ↔ j / 8 = k / 8 := by
    simp only [List.mem_map, List.mem_range]
    exact ⟨fun ⟨i, hi, e⟩ => by omega, fun h => ⟨j % 8, by omega, by omega⟩⟩
  simp only [State.addPoison, List.mem_append, List.mem_filter, hword, Bool.not_eq_true', List.contains_eq_mem, decide_eq_false_iff_not]
  tauto

/-! ## The host's accesses (R397) -/

theorem hostMay_range {s : State} {pa n : Nat} {w : Bool} (h : s.hostMay pa n w = true) : pa + n ≤ 2 ^ 39 := by
  simp only [State.hostMay, Bool.and_eq_true, decide_eq_true_eq] at h
  obtain ⟨⟨⟨-, hrange⟩, -⟩, -⟩ := h
  exact hrange

/-- The writes of a host access: the enabled bytes, each at the key of its place. -/
theorem mem_hostWrites {pa : Nat} {data : List Byte} {en : List Bool} {c : Nat × Byte} :
    c ∈ (((data.zip en).zipIdx.filter fun x => x.1.2).map fun x => (t1Key false (pa + x.2), x.1.1)) ↔
      ∃ i, data[i]? = some c.2 ∧ en[i]? = some true ∧ c.1 = t1Key false (pa + i) := by
  obtain ⟨k, v⟩ := c
  simp only [List.mem_map, List.mem_filter, List.mem_zipIdx_iff_getElem?, List.getElem?_zip_eq_some, Prod.exists, Prod.mk.injEq]
  constructor
  · rintro ⟨b, e, i, ⟨⟨hb, he⟩, rfl⟩, rfl, rfl⟩
    exact ⟨i, hb, he, rfl⟩
  · rintro ⟨i, hb, he, rfl⟩
    exact ⟨v, true, i, ⟨⟨hb, he⟩, rfl⟩, rfl, rfl⟩

section
variable (s : State) {pa : Nat} {data : List Byte} {en : List Bool} (hpa : pa + data.length ≤ 2 ^ 39)
include hpa

/-- An enabled byte of a host write is read back. -/
theorem peek_hostPoke_enabled {k : Nat} {v : Byte} (hv : data[k]? = some v) (he : en[k]? = some true) :
    (s.hostPoke pa data en).mem.peek (t1Key false (pa + k)) = v := by
  have hk : k < data.length := (List.getElem?_eq_some_iff.mp hv).1
  refine Memory.peek_pokeMany s.mem ⟨(_, v), mem_hostWrites.mpr ⟨k, hv, he, rfl⟩, rfl⟩ fun c hc hkey => ?_
  obtain ⟨i, hb, -, hi⟩ := mem_hostWrites.mp hc
  have hlt : i < data.length := (List.getElem?_eq_some_iff.mp hb).1
  have heq : i = k := by
    have := t1Key_inj (by omega) (by omega) (hi.symm.trans hkey)
    omega
  rw [heq, hv] at hb
  exact (Option.some.inj hb).symm

/-- A byte of its range that a host write does not enable stays. -/
theorem peek_hostPoke_disabled {k : Nat} (hk : k < data.length) (he : en[k]? ≠ some true) :
    (s.hostPoke pa data en).mem.peek (t1Key false (pa + k)) = s.mem.peek (t1Key false (pa + k)) := by
  refine Memory.peek_pokeMany_other s.mem fun c hc hkey => ?_
  obtain ⟨i, hb, hen, hi⟩ := mem_hostWrites.mp hc
  have hlt : i < data.length := (List.getElem?_eq_some_iff.mp hb).1
  have heq : i = k := by
    have := t1Key_inj (by omega) (by omega) (hi.symm.trans hkey)
    omega
  exact he (heq ▸ hen)

end

/-- A byte that the host's own memory takes. -/
theorem peek_hostWrite (m : Memory) (hpa : Nat) {data : List Byte} {k : Nat} {v : Byte} (hv : data[k]? = some v) :
    (m.pokeMany (data.zipIdx.map fun x => (hostKey (hpa + x.2), x.1))).peek (hostKey (hpa + k)) = v := by
  have hmem := List.mem_map_of_mem (f := fun x => (hostKey (hpa + x.2), x.1)) (List.mem_zipIdx_iff_getElem? (x := (v, k)).mpr hv)
  refine Memory.peek_pokeMany m ⟨_, hmem, rfl⟩ fun c hc hkey => ?_
  obtain ⟨⟨b, i⟩, hb, rfl⟩ := List.mem_map.mp hc
  rw [List.mem_zipIdx_iff_getElem?] at hb
  have heq : i = k := by
    simp only [hostKey] at hkey
    omega
  subst heq
  exact Option.some.inj (hb.symm.trans hv)

theorem getElem?_leBytes {n k : Nat} (x : Nat) (h : k < n) : (leBytes n x)[k]? = some (BitVec.ofNat 8 (x / 256 ^ k)) := by
  induction n generalizing x k with
  | zero => omega
  | succ n ih =>
    cases k with
    | zero => simp [leBytes]
    | succ k =>
      rw [leBytes, List.getElem?_cons_succ, ih _ (by omega), Nat.div_div_eq_div_mul, Nat.pow_succ']

/-- A byte of a value and of the value modulo 2^64. -/
theorem byte_mod_word (x : Nat) {k : Nat} (h : k < 8) : BitVec.ofNat 8 (x / 256 ^ k) = BitVec.ofNat 8 (x % 2 ^ 64 / 2 ^ (8 * k)) := by
  refine BitVec.eq_of_toNat_eq ?_
  simp only [BitVec.toNat_ofNat]
  have : 256 ^ k = 2 ^ (8 * k) := by rw [Nat.pow_mul]
  rw [this]
  have hsplit : 2 ^ 64 = 2 ^ (8 * k) * 2 ^ (64 - 8 * k) := by rw [← Nat.pow_add]; congr 1; omega
  rw [hsplit, Nat.mod_mul_right_div_self]
  exact (Nat.mod_mod_of_dvd _ (Nat.pow_dvd_pow 2 (by omega))).symm

/-! ## A page under migration (R283) -/

/-- What stays held once a page is published lies on none of the lines that hold a byte of it. -/
theorem mem_held_publishPage {s : State} {p : Nat} {h : HeldByte} (hh : h ∈ (s.publishPage p).mem.held) :
    ∀ v ∈ [0, 2 ^ 9, 2 ^ 10], s.segHolds { pte := BitVec.ofNat 64 (p / 2 ^ 46 * 2 ^ 5 + v), pa := p % 2 ^ 46 * 2 ^ 14, n := 2 ^ 14 }
      (lineOf h.key) = false := by
  obtain ⟨hm, hlines⟩ := Memory.mem_held_foldl_publish (f := fun m l => m.publishLine none l) (p := fun l x => lineOf x.key == l)
    (fun _ _ => Memory.mem_held_publishLine) hh
  intro v hv
  refine Bool.eq_false_iff.mpr fun hseg => ?_
  have hin := hlines (lineOf h.key) (List.mem_filter.mpr
    ⟨List.mem_eraseDups.mpr (List.mem_map_of_mem hm), List.any_eq_true.mpr ⟨v, hv, hseg⟩⟩)
  simp at hin

end Sys2Proof.Machine

end

section
open Sys2Proof Sys2Proof.Machine

/-- Settles O54: each event and each access comes to one branch of its definition, and what memory holds afterwards is the lemma on
publication, poison or pokes. -/
theorem memoryEventsAndHostAccesses : Obligations.MemoryEventsAndHostAccesses := by
  refine ⟨⟨fun s p => ?freeze, fun s c b hc hb hidle => ?retain, fun s c b hexit => ?exit, fun s site => ⟨_, rfl, rfl, rfl, _, rfl⟩,
    fun s core off hfree => ?idle, fun s die way k => ⟨fun hret => ?l2Retained, fun hret hk hline => ?l2Poisons⟩,
    fun s die way hdie => ?retainL2, fun s k hk => ?memory, fun s c e n hc hhold hev => ?command,
    fun s t b x e hno ht hhold hx hev => ?task⟩,
    fun s pa n => ⟨rfl, fun h6 => ?pcie6⟩, fun s pa data en hlen => ⟨fun hno => ?refused, fun hmay => ?write⟩,
    fun s pa d hal hr hw hclean => ?fetchAdd, fun s hpa data => ?hostWrite⟩
  case freeze =>
    exact ⟨_, _, rfl, List.mem_cons_self, rfl, fun h hh => mem_held_publishPage hh, rfl, by simp, rfl⟩
  case retain =>
    change execRetentionEntry c b s = _
    simp only [execRetentionEntry, hc, hb, hidle, decide_true, Bool.and_self, Bool.or_true, if_true]
  case exit =>
    change execRetentionExitDone c b s = _
    simp only [execRetentionExitDone, List.contains_eq_mem, hexit, decide_true, Bool.true_or, if_true]
  case idle =>
    have hnone : s.tenants.any (fun t => t.core == core && !apart t.slot (off, 1)) = false := by
      refine List.any_eq_false.mpr fun t ht => ?_
      by_cases hcore : t.core = core
      · simp [hfree t ht hcore]
      · simp [hcore]
    refine ⟨s.errorReported (.scratch core off), _, ?_, rfl, rfl⟩
    change execMemorySoftError (.scratch core off) false s = _
    simp only [execMemorySoftError, State.errorReported, hnone, Bool.and_false, Bool.false_eq_true, if_false]
  case l2Retained =>
    refine ⟨s.errorReported (.l2 die way k), _, ?_, rfl, rfl⟩
    change execMemorySoftError (.l2 die way k) false s = _
    simp only [execMemorySoftError, State.errorReported, List.contains_eq_mem, hret, decide_true, Bool.false_eq_true, if_false, if_true]
  case l2Poisons =>
    refine ⟨s.addPoison k, ?_, rfl, mem_addPoison s k⟩
    change execMemorySoftError (.l2 die way k) false s = _
    simp only [execMemorySoftError, List.contains_eq_mem, hret, hk, hline, decide_false, Bool.and_self, Bool.false_eq_true,
      if_false, if_true]
  case retainL2 =>
    have hl2 : isL2 (l2Of die) = true :=
      Bool.and_eq_true_iff.mpr ⟨decide_eq_true (Nat.le_add_right ..), decide_eq_true (Nat.add_lt_add_left hdie _)⟩
    change execRetentionEntry (l2Of die) way s = _
    simp only [execRetentionEntry, hl2, Bool.true_or, if_true]
  case memory =>
    refine ⟨s.addPoison k, ?_, rfl, mem_addPoison s k⟩
    change execMemorySoftError (.memory k) false s = _
    simp only [execMemorySoftError, hk, Bool.false_eq_true, if_false, if_true]
  case command =>
    change execEngineAccessFault c.id s = _
    simp only [execEngineAccessFault, hc, hhold, hev, Option.isSome_none, Bool.false_eq_true, if_false]
  case task =>
    change execEngineAccessFault t.id s = _
    simp only [execEngineAccessFault, hno, ht, hx, hev, hhold, Option.isSome_none, Bool.false_eq_true, if_false]
  case pcie6 =>
    simp only [State.hostMay, h6, Bool.not_true, Bool.false_and, and_self]
  case refused => exact congrArg Host.Outcome.next (if_neg (by rw [hno]; decide))
  case write =>
    refine ⟨_, congrArg Host.Outcome.next (if_pos hmay), fun k => ⟨fun hk he => ?_, fun hk he => ?_⟩⟩
    · refine peek_hostPoke_enabled s (hostMay_range hmay) ?_ ?_
      · rw [List.getD_eq_getElem _ _ hk, List.getElem?_eq_getElem hk]
      · rw [List.getD_eq_getElem _ _ (hlen ▸ hk)] at he
        rw [List.getElem?_eq_getElem (hlen ▸ hk), he]
    · refine peek_hostPoke_disabled s (hostMay_range hmay) hk fun hen => ?_
      rw [List.getD_eq_getElem?_getD, hen] at he
      cases he
  case fetchAdd =>
    have hpoison : ((List.range 8).map fun i => t1Key false (pa + i)).any (fun k => s.mem.poison.contains k) = false := by
      simp only [List.any_eq_false, List.mem_map, List.mem_range, List.contains_eq_mem, decide_eq_true_eq]
      rintro _ ⟨i, hi, rfl⟩
      exact hclean i hi
    refine ⟨_, congrArg Host.Outcome.next (if_pos (by simp only [hal, hr, hw, hpoison, decide_true, Bool.not_false, Bool.and_self])),
      fun k hk => ?_⟩
    rw [← byte_mod_word _ hk]
    refine peek_hostPoke_enabled s (by rw [length_leBytes]; exact hostMay_range hw) ?_ ?_
    · rw [getElem?_leBytes _ hk, List.map_map]; rfl
    · rw [List.getElem?_replicate, if_pos hk]
  case hostWrite =>
    refine ⟨_, rfl, fun k hk => peek_hostWrite s.mem hpa ?_⟩
    rw [List.getD_eq_getElem _ _ hk, List.getElem?_eq_getElem hk]

end


section
/-! PROOFS. The canonical form of memory (R216, R228, R235, R241, R297) is an invariant of the machine: one rule for each operation of the
model that gives a state, in the order of the model's files, up to the step itself. Most operations write memory through the primitives of
Machine/Mem alone, whose rules stand in Laws/Memory, so that a rule cites those of the operations it calls. -/


namespace Sys2Proof.Machine

/-- Memory is in canonical form (`Memory.wf`). -/
def State.Canon (s : State) : Prop := s.mem.wf = true

/-- Whatever an instruction's meaning comes to, memory stays in canonical form. -/
def Res.Canon : Res → Prop
  | .done s _ => s.Canon
  | .stall s => s.Canon
  | .trap _ => True

/-- Whatever sending a command comes to, memory stays in canonical form. -/
def Issued.Canon : Issued → Prop
  | .done s _ => s.Canon
  | .waits s => s.Canon
  | .forced s => s.Canon
  | .bad _ => True

/-- Done or put off, memory stays in canonical form. -/
def CanonEither : Except State State → Prop
  | .ok s => s.Canon
  | .error s => s.Canon

/-- A sender keeps the canonical form. -/
def Sender.Canon (send : Sender) : Prop :=
  ∀ (s : State) (b : Block) (x : Slice) (id : Nat) (args : List Word), s.Canon → (send s b x id args).Canon

/-- An outcome keeps the canonical form. -/
def Out.Canon : Out → Prop
  | .next s => s.Canon
  | _ => True

namespace Memory

variable {m : Memory}

theorem wf_writeHost (pa : Nat) (bs : List Byte) (h : m.wf = true) : (writeHost m pa bs).wf = true := by
  induction bs generalizing m pa with
  | nil => exact h
  | cons b bs ih => exact ih _ (wf_poke _ _ h)

theorem wf_publishSlice (blk sl : Nat) (h : m.wf = true) : (m.publishSlice blk sl).wf = true := wf_publish _ h

theorem wf_publishBelow (blk sl k : Nat) (h : m.wf = true) : (m.publishBelow blk sl k).wf = true := wf_publish _ h

theorem wf_maintain (r : LaunchRec) (sc : Scope) (core : Nat) (k : MaintKind) (l : Nat) (h : m.wf = true) :
    (m.maintain r sc core k l).wf = true := by
  unfold Memory.maintain
  simp only
  generalize hn : (if k = .inv then { m with held := _ } else _ : Memory) = n
  have hwf : n.wf = true := by
    subst hn
    split
    · exact h
    · exact wf_foldl (fun _ _ => wf_publish _) _ _ h
  split
  · cases k with
    | clean => exact wf_clean l hwf
    | clinv => exact wf_evict l hwf
    | inv => exact wf_inval l hwf
  · exact hwf

theorem wf_zeroSwitch (plane pa n : Nat) (h : m.wf = true) : (m.zeroRange (switchKey plane pa) n).wf = true :=
  wf_zeroRange n (by unfold switchKey; omega) h

end Memory

variable {s : State}

theorem State.Canon.foldl {α : Type} {f : State → α → State} (hf : ∀ s x, State.Canon s → (f s x).Canon) (l : List α) (h : s.Canon) :
    (l.foldl f s).Canon := by
  induction l generalizing s with
  | nil => exact h
  | cons x l ih => exact ih (hf s x h)

/-- A change outside memory. -/
theorem State.Canon.of_mem {t : State} (h : s.Canon) (e : t.mem = s.mem) : t.Canon := by rw [State.Canon, e]; exact h

theorem State.Canon.modBlock (h : s.Canon) (u : Nat) (f : Block → Block) : (s.modBlock u f).Canon := h.of_mem (State.modBlock_mem ..)

theorem State.Canon.modSlice (h : s.Canon) (u n : Nat) (f : Slice → Slice) : (s.modSlice u n f).Canon := h.modBlock ..

theorem State.Canon.modShare (h : s.Canon) (u n : Nat) (f : Share → Share) : (s.modShare u n f).Canon := h.modBlock ..

/-! ### Machine/Translate -/

theorem State.Canon.setCtx (h : s.Canon) (c : Nat) (f : Ctx → Ctx) : (s.setCtx c f).Canon :=
  h

theorem State.Canon.remember (h : s.Canon) (c va : Nat) : (s.remember c va).Canon := by
  unfold State.remember
  split
  · split
    · exact h
    · exact Memory.wf_same rfl rfl h
  · exact h

theorem State.Canon.setSpan (h : s.Canon) (p : Span) : (s.setSpan p).Canon :=
  h

/-! ### Machine/Ops -/

theorem State.Canon.modLaunch (h : s.Canon) (id : Nat) (f : Launch → Launch) : (s.modLaunch id f).Canon :=
  h

theorem State.Canon.newId (h : s.Canon) : (s.newId).2.Canon :=
  h

theorem State.Canon.free (h : s.Canon) : (s.free).2.Canon :=
  h

theorem State.Canon.reExecuteAll (h : s.Canon) (uid : Nat) (p : Slice → Bool) : (s.reExecuteAll uid p).Canon := by
  unfold State.reExecuteAll
  grind [State.Canon, modBlock]

theorem State.Canon.publishAll (h : s.Canon) (uid : Nat) : (s.publishAll uid).Canon := by
  unfold State.publishAll
  grind [State.Canon, Memory.wf_publish]

theorem State.Canon.discard (h : s.Canon) (c : Nat) : (s.discard c).Canon := by
  unfold State.discard
  grind [State.Canon, Memory.wf_publish]

theorem State.Canon.stopQueues (h : s.Canon) (c : Nat) (inFlight : List (Nat × Nat)) : (s.stopQueues c inFlight).Canon :=
  h

theorem State.Canon.contextFault (h : s.Canon) (c : Nat) (r : FaultRec) : (s.contextFault c r).Canon := by
  unfold State.contextFault
  grind [stopQueues, discard, setCtx]

theorem State.Canon.report (h : s.Canon) (c : Nat) (o : Outstanding) : (s.report c o).Canon := by
  unfold State.report
  grind [State.Canon, Memory.wf_writeHost, setCtx]

theorem State.Canon.feedRing (h : s.Canon) (c : Nat) : (s.feedRing c).Canon := by
  unfold State.feedRing
  grind [State.Canon, Memory.wf_writeHost, setCtx]

theorem State.Canon.stopGang (h : s.Canon) (b : Block) (l : List Slice) (r : Slice) (e : Ev) (trap : Bool) :
    (s.stopGang b l r e trap).Canon := by
  unfold State.stopGang
  grind [modBlock, report]

theorem State.Canon.markIssued (h : s.Canon) (b : Block) (l : List Slice) : (s.markIssued b l).Canon := by
  unfold State.markIssued
  grind [State.Canon]

theorem State.Canon.raise (h : s.Canon) (e : Ev) : (s.raise e).Canon := by
  unfold State.raise
  grind [State.Canon, modBlock, contextFault, markIssued, stopGang]

theorem State.Canon.retire {old : State} (h : s.Canon) (hold : old.Canon) (uid : Nat) (nums moved : List Nat) (len : Nat)
    (qend part : Bool) : (State.retire old s uid nums moved len qend part).Canon := by
  unfold State.retire
  grind [State.Canon, modBlock, raise]

theorem State.Canon.complete (h : s.Canon) (len : Nat) (qend : Bool) {r : Res} (hr : r.Canon) : (s.complete len qend r).Canon := by
  cases r with
  | trap e => exact h.raise e
  | stall t =>
    unfold State.complete
    grind [Res.Canon, State.Canon.retire]
  | done t moved =>
    unfold State.complete
    grind [Res.Canon, State.Canon.retire]

theorem eachMove_canon (h : s.Canon) (g : Guard) (b : Block) (l : List Slice) (f : Env → Slice → Except Ev (Slice × Bool)) :
    (eachMove s g b l f).Canon := by
  unfold eachMove
  grind [State.Canon, Res.Canon, State.Canon.modBlock]

theorem eachSlice_canon (h : s.Canon) (g : Guard) (b : Block) (l : List Slice) (f : Env → Slice → Except Ev Slice) :
    (eachSlice s g b l f).Canon := by
  unfold eachSlice
  grind [eachMove_canon]

theorem State.Canon.perSlice (h : s.Canon) (g : Guard) (len : Nat) (f : Env → Slice → Except Ev Slice) : (s.perSlice g len f).Canon := by
  unfold State.perSlice
  grind [complete, eachSlice_canon]

theorem State.Canon.perGang (h : s.Canon) {len : Nat} {qend : Bool} {f : Block → List Slice → Res} (hf : ∀ b l, (f b l).Canon) :
    (s.perGang len qend f).Canon := by
  unfold State.perGang
  grind [complete]

theorem State.Canon.perSerial (h : s.Canon) {g : Guard} {len : Nat} {f : Block → List Slice → Res} (hf : ∀ b l, (f b l).Canon) :
    (s.perSerial g len f).Canon := by
  have hdone : (Res.done s []).Canon := h
  unfold State.perSerial
  grind [complete, raise, modBlock]

theorem overSlices_canon {f : State → Block → Slice → State} (hf : ∀ s b x, State.Canon s → (f s b x).Canon) (h : s.Canon) (g : Guard)
    (b : Block)
    (l : List Slice) : (overSlices s g b l f).Canon := by
  unfold overSlices
  grind [State.Canon.foldl]

/-! ### Machine/Barrier -/

theorem State.Canon.setBar (h : s.Canon) (b : Block) (x : Barrier) : (s.setBar b x).Canon :=
  h

theorem State.Canon.leaveLevel (h : s.Canon) (b : Block) (sl : Slice) (k : Nat) : (s.leaveLevel b sl k).Canon := by
  unfold State.leaveLevel
  grind [setBar]

theorem State.Canon.checkBars (h : s.Canon) (b : Block) (l : List Slice) (ks : List Nat) : (s.checkBars b l ks).Canon := by
  unfold State.checkBars
  grind [foldl, setBar]

theorem State.Canon.leaveBars (h : s.Canon) (b : Block) (l : List Slice) : (s.leaveBars b l).Canon := by
  unfold State.leaveBars
  grind [foldl, checkBars, leaveLevel]

theorem State.Canon.releaseAll (h : s.Canon) (b : Block) (l : List Slice) : (s.releaseAll b l).Canon := by
  unfold State.releaseAll
  grind [State.Canon, modBlock]

theorem State.Canon.regangTry (h : s.Canon) (uid group : Nat) : (s.regangTry uid group).Canon := by
  unfold State.regangTry
  grind [releaseAll]

theorem State.Canon.settleEnded {old : State} (h : s.Canon) (uid : Nat) : (State.settleEnded old s uid).Canon := by
  unfold State.settleEnded
  grind [State.Canon, Memory.wf_publishSlice, regangTry, foldl, leaveBars]

/-! ### Machine/Control -/

theorem State.Canon.perMove (h : s.Canon) (g : Guard) (len : Nat) (f : Env → Slice → Except Ev (Slice × Bool)) :
    (s.perMove g len f).Canon := by
  unfold State.perMove
  grind [perGang, eachMove_canon]

theorem State.Canon.perEnding (h : s.Canon) (g : Guard) (f : Env → Slice → Except Ev (Slice × Bool)) : (s.perEnding g f).Canon := by
  unfold State.perEnding
  grind [settleEnded, perMove]

theorem execExit_canon (h : s.Canon) (g : Guard) : Out.Canon (execExit g s) := by
  unfold execExit
  grind [State.Canon, Out.Canon, State.Canon.perGang, State.Canon.settleEnded, eachMove_canon]

theorem execRegang_canon (h : s.Canon) (g : Guard) : Out.Canon (execRegang g s) := by
  unfold execRegang
  refine h.perSerial fun b l => ?_
  have h0 : s.newId.2.Canon := h.newId
  exact State.Canon.foldl (fun _ _ hs => hs.regangTry ..) _ (by
    split
    · exact h0.modBlock ..
    · exact (h0.modBlock ..).retire h ..)

theorem execYield_canon (h : s.Canon) (g : Guard) : Out.Canon (execYield g s) := by
  refine h.perGang fun b l => ?_
  unfold Res.Canon
  grind [State.Canon.markIssued]

/-! ### Machine/Fabric -/

theorem State.Canon.modPort (h : s.Canon) (p : Nat) (f : Port → Port) : (s.modPort p f).Canon :=
  h

theorem State.Canon.put (h : s.Canon) (x : Post) : (s.put x).Canon :=
  h

theorem State.Canon.putFlit (h : s.Canon) (p : Nat) (f : Flit) : (s.putFlit p f).Canon :=
  h

theorem State.Canon.sendFlit (h : s.Canon) (p : Nat) (slot : Bool) (kind vc : Nat) (text : List Byte) :
    (s.sendFlit p slot kind vc text).Canon := by
  unfold State.sendFlit
  grind [modPort, putFlit]

theorem State.Canon.sendNow (h : s.Canon) (p kind vc : Nat) (text : List Byte) : (s.sendNow p kind vc text).Canon := by
  unfold State.sendNow
  grind [sendFlit]

theorem State.Canon.stepTag (h : s.Canon) : (s.stepTag).Canon :=
  h

theorem State.Canon.carry (h : s.Canon) (p vc : Nat) : (s.carry p vc).Canon := by
  unfold State.carry
  grind [foldl, stepTag, sendNow]

theorem State.Canon.post (h : s.Canon) (dst : Nat) (page : Option Nat) (m : Msg) : (s.post dst page m).Canon := by
  unfold State.post
  grind [carry, put]

theorem State.Canon.ask (h : s.Canon) (cmd dst : Nat) (page : Option Nat) (m : Nat → Msg) : (s.ask cmd dst page m).Canon := by
  unfold State.ask
  grind [State.Canon, post, stepTag]

theorem State.Canon.repost (h : s.Canon) : (s.repost).Canon := by
  unfold State.repost
  grind [State.Canon, carry, foldl, put]

theorem State.Canon.exponentAnswered (h : s.Canon) (cmd owner job seq : Nat) (y : Word) :
    (s.exponentAnswered cmd owner job seq y).Canon := by
  unfold State.exponentAnswered
  grind [State.Canon, repost]

theorem State.Canon.answered (h : s.Canon) (cmd : Nat) : (s.answered cmd).Canon := by
  unfold State.answered
  grind [State.Canon, repost]

theorem State.Canon.resend (h : s.Canon) (p : Nat) : (s.resend p).Canon := by
  unfold State.resend
  grind [State.Canon, carry, foldl, put]

theorem State.Canon.sendOut (h : s.Canon) (p : Phys) (w : Bool) : (s.sendOut p w).Canon := by
  unfold State.sendOut
  grind [carry, foldl]

theorem State.Canon.onWay (h : s.Canon) (cmd : Nat) (ps : List Phys) : (s.onWay cmd ps).Canon := by
  unfold State.onWay
  grind [State.Canon, foldl, stepTag]

theorem State.Canon.countMoved (h : s.Canon) (c n : Nat) : (s.countMoved c n).Canon :=
  h

theorem State.Canon.travels (h : s.Canon) (c : Nat) (p : Phys) (n : Nat) (w : Bool) : (s.travels c p n w).Canon := by
  unfold State.travels
  grind [sendOut, countMoved]

/-! ### Machine/Shares -/

theorem State.Canon.opmWrite (h : s.Canon) (l : OpmLoc) (x : Byte) : (s.opmWrite l x).Canon := by
  unfold State.opmWrite
  grind [modShare, modSlice]

theorem State.Canon.areaWrite (h : s.Canon) (pa : Nat) (bs : List Byte) : (s.areaWrite pa bs).Canon :=
  Memory.wf_same rfl rfl (Memory.wf_pokeMany _ h)

/-! ### Machine/Access -/

theorem State.Canon.modTags (h : s.Canon) (b : Block) (f : Launch → Launch) : (s.modTags b f).Canon :=
  h

theorem State.Canon.tagAccess (h : s.Canon) (b : Block) (p : Phys) (n : Nat) (w : Bool) : (s.tagAccess b p n w).Canon := by
  unfold State.tagAccess
  grind [modTags, foldl]

theorem State.Canon.rememberAll (h : s.Canon) (c : Nat) (l : List Acc) : (s.rememberAll c l).Canon := by
  unfold State.rememberAll
  grind [remember, foldl]

theorem State.Canon.loadTick (h : s.Canon) (b : Block) (n key : Nat) : (s.loadTick b n key).Canon := by
  unfold State.loadTick
  grind [State.Canon, Memory.wf_loadTime, modSlice]

theorem State.Canon.storeTick (h : s.Canon) (b : Block) (n key : Nat) : (s.storeTick b n key).Canon := by
  unfold State.storeTick
  grind [State.Canon, modSlice, Memory.wf_storeTime]

theorem State.Canon.loadMark (h : s.Canon) (b : Block) (sl : Slice) (p : Phys) (nt : Bool) : (s.loadMark b sl p nt).Canon := by
  unfold State.loadMark
  grind [State.Canon, loadTick, Memory.wf_touch]

theorem State.Canon.acquireLines (h : s.Canon) (b : Block) (sl : Slice) (p : Phys) (n : Nat) : (s.acquireLines b sl p n).Canon :=
  Memory.wf_foldl (fun _ _ => Memory.wf_publishLine _ _) _ _ h

theorem State.Canon.releaseHeld (h : s.Canon) (b : Block) (sl : Slice) (sc : Scope) : (s.releaseHeld b sl sc).Canon := by
  unfold State.releaseHeld
  grind [State.Canon, Memory.wf_publishBelow]

theorem State.Canon.startFetch (h : s.Canon) (n : Nat) : (s.startFetch n).Canon := by
  unfold State.startFetch
  grind [setSpan]

theorem State.Canon.appendAll (h : s.Canon) (es : List (Nat × CocoonEntry)) : (s.appendAll es).Canon := by
  unfold State.appendAll
  grind [setSpan, foldl]

theorem State.Canon.policyFetch (h : s.Canon) (p : Phys) : (s.policyFetch p).Canon := by
  unfold State.policyFetch
  grind [startFetch]

theorem State.Canon.readsVa (h : s.Canon) (c va n : Nat) : (s.readsVa c va n).Canon := by
  unfold State.readsVa
  grind [policyFetch, foldl]

theorem State.Canon.asksVa (h : s.Canon) (c va n : Nat) : (s.asksVa c va n).Canon := by
  unfold State.asksVa
  grind [foldl, sendOut]

theorem State.Canon.readsAll (h : s.Canon) (c : Nat) (l : List (Nat × Nat)) : (s.readsAll c l).Canon := by
  unfold State.readsAll
  grind [readsVa, asksVa, foldl]

theorem State.Canon.mirror (h : s.Canon) (p : Phys) (i : Nat) (x : Byte) : (s.mirror p i x).Canon := by
  unfold State.mirror
  grind [State.Canon, Memory.wf_poke]

theorem State.Canon.writeByte (h : s.Canon) (b : Block) (sl : Slice) (hold : Option Nat) (seq : Nat) (nt : Bool) (at_ : Option CachePlace)
    (p : Phys) (i : Nat) (x : Byte) : (s.writeByte b sl hold seq nt at_ p i x).Canon := by
  have hm : (s.mirror p i x).Canon := h.mirror ..
  unfold State.writeByte
  simp only
  split
  · split
    · exact Memory.wf_same (m := (s.mirror p i x).mem) rfl rfl hm
    · exact hm
  · split
    · exact Memory.wf_bankPoke _ _ hm
    · split
      · exact Memory.wf_hold _ hm
      · exact Memory.wf_store _ _ _ _ hm

theorem State.Canon.writeBytes (h : s.Canon) (b : Block) (sl : Slice) (hold : Option Nat) (seq : Nat) (nt : Bool) (at_ : Option CachePlace)
    (p : Phys) (d : List (Option Byte)) : (s.writeBytes b sl hold seq nt at_ p d).Canon := by
  unfold State.writeBytes
  grind [foldl, writeByte]

theorem State.Canon.storeMark (h : s.Canon) (b : Block) (sl : Slice) (p : Phys) (d : List (Option Byte)) :
    (s.storeMark b sl p d).Canon := by
  unfold State.storeMark
  grind [storeTick]

theorem State.Canon.storeOne (h : s.Canon) (b : Block) (sc : Scope) (nt : Bool) (at_ : Option CachePlace) (seq : Nat)
    (x : Slice × Phys × List (Option Byte)) : (s.storeOne b sc nt at_ seq x).Canon := by
  unfold State.storeOne
  grind [writeBytes, appendAll, travels, releaseHeld, storeMark, tagAccess]

theorem State.Canon.stored (h : s.Canon) (b : Block) (sc : Scope) (nt : Bool) (l : List (Slice × Phys × List (Option Byte)))
    (at_ : Option CachePlace) : (s.stored b sc nt l at_).Canon := by
  unfold State.stored
  grind [State.Canon, foldl, storeOne]

theorem State.Canon.stallFor (h : s.Canon) (b : Block) (l : List Nat) (ns : List Nat) : (s.stallFor b l ns).Canon := by
  unfold State.stallFor
  grind [foldl, startFetch, modSlice]

theorem State.Canon.performStores (h : s.Canon) (b : Block) (sc : Scope) (nt : Bool) (l : List (Slice × Phys × List (Option Byte)))
    (at_ : Option CachePlace) : CanonEither (s.performStores b sc nt l at_) := by
  unfold State.performStores
  grind [State.Canon, CanonEither, stallFor, stored]

theorem State.Canon.bufferStores (h : s.Canon) (b : Block) (nt : Bool) (l : List (Slice × Phys × List (Option Byte))) :
    (s.bufferStores b nt l).Canon := by
  unfold State.bufferStores
  grind [foldl, modSlice]

theorem State.Canon.countStores (h : s.Canon) (b : Block) (l : List (Slice × Phys × List (Option Byte))) : (s.countStores b l).Canon := by
  unfold State.countStores
  grind [foldl, modSlice]

theorem State.Canon.storeAll (h : s.Canon) (b : Block) (sc : Scope) (nt : Bool) (l : List (Slice × Phys × List (Option Byte))) :
    (s.storeAll b sc nt l).Canon := by
  have hp := h.performStores b sc nt (s.unmade l) none
  unfold State.storeAll
  grind [CanonEither, Res.Canon, bufferStores, countStores]

/-! ### Machine/Memory -/

theorem State.Canon.afterLoads (h : s.Canon) (b : Block) (nt : Bool) (l : List Slice) (accs : List Acc) :
    (s.afterLoads b nt l accs).Canon := by
  unfold State.afterLoads
  grind [policyFetch, foldl, travels, loadMark, tagAccess, rememberAll]

theorem State.Canon.beforeLoads (h : s.Canon) (b : Block) (acq : Bool) (l : List Slice) (accs : List Acc) :
    (s.beforeLoads b acq l accs).Canon := by
  unfold State.beforeLoads
  grind [foldl, acquireLines]

theorem State.Canon.loaded (h : s.Canon) (b : Block) (l : List Slice) (accs : List Acc) (acq nt : Bool) (put : Acc → Nat → Slice → Slice)
    : (s.loaded b l accs acq nt put).Canon := by
  unfold State.loaded
  grind [foldl, modSlice, beforeLoads, afterLoads]

theorem State.Canon.loadRegs (h : s.Canon) (b : Block) (l : List Slice) (accs : List Acc) (acq nt : Bool) (put : Acc → Nat → Slice → Slice)
    : (s.loadRegs b l accs acq nt put).Canon := by
  unfold State.loadRegs
  grind [State.Canon, Res.Canon, loaded]

theorem State.Canon.stsOne (h : s.Canon) (b : Block) (sl : Slice) (so : Nat) (d : List Byte) : (s.stsOne b sl so d).Canon := by
  have hr : (s.releaseHeld b sl (.lvl (BitVec.ofNat 3 (s.lrOf b).blklv))).Canon := h.releaseHeld ..
  unfold State.stsOne
  split
  · exact h.modSlice ..
  · refine State.Canon.storeTick ?_ ..
    exact Memory.wf_same rfl rfl hr

theorem State.Canon.issueScratch (h : s.Canon) (b : Block) (sl : Slice) (vals : List (Acc × Nat × List Byte)) :
    (s.issueScratch b sl vals).Canon := by
  unfold State.issueScratch
  grind [State.Canon, onWay, modShare, foldl, stsOne, modSlice, newId]

theorem State.Canon.loadsSent (h : s.Canon) (b : Block) (l : List Slice) (accs : List Acc) (acq nt : Bool) :
    (s.loadsSent b l accs acq nt).Canon := by
  unfold State.loadsSent
  grind [foldl, beforeLoads, afterLoads, issueScratch]

theorem State.Canon.loadScratch (h : s.Canon) (b : Block) (l : List Slice) (accs : List Acc) (acq nt : Bool) :
    (s.loadScratch b l accs acq nt).Canon := by
  unfold State.loadScratch
  grind [State.Canon, Res.Canon, loadsSent]

theorem State.Canon.perKind (h : s.Canon) {sync : Bool} {g : Guard} {len : Nat} {f : Block → List Slice → Res} (hf : ∀ b l, (f b l).Canon) :
    (s.perKind sync g len f).Canon := by
  unfold State.perKind
  grind [perGang, perSerial]

theorem execLd_canon (h : s.Canon) (g : Guard) (ty : Ty) (_sc : Scope) (k : MemKind) (d a b c : Opd)
    : Out.Canon (execLd g ty _sc k d a b c s) := by
  unfold execLd
  grind [State.Canon, Out.Canon, State.Canon.perKind, State.Canon.loadRegs, State.Canon.loadScratch]

theorem execLdw_canon (h : s.Canon) (g : Guard) (ty : Ty) (_sc : Scope) (g4 : Bool) (d a b c : Opd)
    : Out.Canon (execLdw g ty _sc g4 d a b c s) := by
  unfold execLdw
  grind [State.Canon, Out.Canon, State.Canon.perGang, State.Canon.loadRegs, State.Canon.loadScratch]

theorem execScratchLoadReturn_canon (h : s.Canon) (cmd : Nat) : Out.Canon (execScratchLoadReturn cmd s) := by
  unfold execScratchLoadReturn
  split
  · split
    · refine State.Canon.answered ?_ _
      exact Memory.wf_same (m := State.mem (s.modShare _ _ _)) rfl rfl (h.modShare ..)
    · exact h
  · exact h

theorem State.Canon.storeGang (h : s.Canon) (b : Block) (l : List Slice) (sc : Scope) (nt : Bool) (accs : List Acc)
    (data : Acc → List (Option Byte)) : (s.storeGang b l sc nt accs data).Canon := by
  unfold State.storeGang
  grind [State.Canon, Res.Canon, storeAll, rememberAll]

theorem execSt_canon (h : s.Canon) (g : Guard) (ty : Ty) (sc : Scope) (k : MemKind) (a b c : Opd) : Out.Canon (execSt g ty sc k a b c s)
    := by
  refine h.perKind fun blk l => ?_
  have hs := h.storeGang blk l sc (k == .nt) (stAccs s blk l g ty a b) (stData s blk l ty c)
  grind [Res.Canon]

theorem execStw_canon (h : s.Canon) (g : Guard) (ty : Ty) (sc : Scope) (g4 : Bool) (a b c : Opd) : Out.Canon (execStw g ty sc g4 a b c s)
    := by
  unfold execStw
  grind [State.Canon, Out.Canon, State.Canon.perGang, State.Canon.storeGang]

theorem State.Canon.ldsDone (h : s.Canon) (b : Block) (l : List Slice) (accs : List Acc) (n : Nat) (put : Acc → Nat → Slice → Slice) :
    (s.ldsDone b l accs n put).Canon := by
  unfold State.ldsDone
  grind [loadTick, foldl, modSlice]

theorem execLds_canon (h : s.Canon) (g : Guard) (ty : Ty) (d a b : Opd) : Out.Canon (execLds g ty d a b s) := by
  refine h.perGang fun blk l => ?_
  simp only
  split
  · trivial
  · exact h.ldsDone ..

theorem State.Canon.stsDone (h : s.Canon) (b : Block) (l : List Slice) (ty : Ty) (c : Opd) (accs : List Acc) :
    (s.stsDone b l ty c accs).Canon := by
  unfold State.stsDone
  grind [foldl, stsOne]

theorem execSts_canon (h : s.Canon) (g : Guard) (ty : Ty) (a b c : Opd) : Out.Canon (execSts g ty a b c s) := by
  refine h.perGang fun blk l => ?_
  simp only
  split
  · trivial
  · exact h.stsDone ..

theorem execPartRange_canon (h : s.Canon) (g : Guard) (ty : Ty) (d a b c : Opd) : Out.Canon (execPartRange g ty d a b c s) := by
  unfold execPartRange
  grind [State.Canon, Out.Canon, State.Canon.perGang, eachSlice_canon]

theorem execStsplit_canon (h : s.Canon) (g : Guard) (ty : Ty) (sc : Scope) (a b c : Opd) : Out.Canon (execStsplit g ty sc a b c s) := by
  refine h.perGang fun blk l => ?_
  split
  · trivial
  · simp only
    split
    · trivial
    · split
      · exact h
      · exact (h.rememberAll ..).storeAll ..

theorem execLdsplit_canon (h : s.Canon) (g : Guard) (ty : Ty) (_sc : Scope) (d a b : Opd) : Out.Canon (execLdsplit g ty _sc d a b s) := by
  refine h.perGang fun blk l => ?_
  split
  · trivial
  · exact h.loadRegs ..

theorem State.Canon.prefOne (h : s.Canon) (k : PrefKind) (p : Phys) : (s.prefOne k p).Canon := by
  unfold State.prefOne
  grind [State.Canon, startFetch, Memory.wf_touch]

theorem execPref_canon (h : s.Canon) (g : Guard) (k : PrefKind) (a b : Opd) : Out.Canon (execPref g k a b s) := by
  refine h.perGang fun blk l => ?_
  exact State.Canon.foldl (fun _ _ hs => hs.prefOne ..) _ h

theorem State.Canon.maintRange (h : s.Canon) (b : Block) (sl : Slice) (sc : Scope) (k : MaintKind) (va n : Nat) :
    (s.maintRange b sl sc k va n).Canon := by
  unfold State.maintRange
  split
  · exact h
  · exact Memory.wf_foldl (fun _ _ => Memory.wf_maintain _ _ _ _ _) _ _ h

theorem cmaintDone_canon (h : s.Canon) (blk : Block) (l : List Slice) (g : Guard) (sc : Scope) (k : MaintKind) (a b : Opd) :
    (cmaintDone s blk l g sc k a b).Canon := by
  unfold cmaintDone
  grind [State.Canon.modSlice, overSlices_canon, State.Canon.maintRange]

theorem execCmaint_canon (h : s.Canon) (g : Guard) (sc : Scope) (k : MaintKind) (a b : Opd) : Out.Canon (execCmaint g sc k a b s) := by
  refine h.perGang fun blk l => ?_
  split
  · trivial
  · exact cmaintDone_canon h ..

theorem waitGang_canon (h : s.Canon) (g : Guard) (b : Block) (l : List Slice) (holds : Slice → Bool) (w : Slice → Wait) :
    (waitGang s g b l holds w).Canon := by
  unfold waitGang
  grind [State.Canon, Res.Canon, State.Canon.modBlock]

theorem execWaitp_canon (h : s.Canon) (g : Guard) (path : Fin 6) (a : Opd) : Out.Canon (execWaitp g path a s) := by
  unfold execWaitp
  grind [State.Canon, Out.Canon, State.Canon.perSerial, waitGang_canon]

theorem execHeldStoreEviction_canon (h : s.Canon) (line : Nat) : Out.Canon (execHeldStoreEviction line s) := by
  unfold execHeldStoreEviction
  grind [State.Canon, Out.Canon, Memory.wf_evict, Memory.wf_publishLine]

/-! ### Machine/Sync -/

theorem fenceGang_canon (h : s.Canon) (g : Guard) (b : Block) (l : List Slice) (release dsync : Bool) (sc : Scope) :
    (fenceGang s g b l release dsync sc).Canon := by
  unfold fenceGang
  grind [State.Canon, Res.Canon, State.Canon.modBlock, State.Canon.releaseHeld, overSlices_canon]

theorem execFence_canon (h : s.Canon) (g : Guard) (sc : Scope) (k : FenceKind) : Out.Canon (execFence g sc k s) := by
  unfold execFence
  grind [State.Canon, Out.Canon, State.Canon.perSerial, fenceGang_canon]

theorem execDsync_canon (h : s.Canon) (g : Guard) : Out.Canon (execDsync g s) := by
  unfold execDsync
  grind [State.Canon, Out.Canon, State.Canon.perSerial, fenceGang_canon]

theorem execQend_canon (h : s.Canon) (g : Guard) : Out.Canon (execQend g s) := by
  unfold execQend
  split
  · exact h.perGang fun _ _ => h
  · exact h

theorem State.Canon.barArrive (h : s.Canon) (k : Nat) (drop full : Bool) (b : Block) (sl : Slice) :
    (s.barArrive k drop full b sl).Canon := by
  unfold State.barArrive
  grind [modSlice, releaseHeld, setBar]

theorem State.Canon.emptyQuanta (h : s.Canon) (b : Block) (l : List Slice) : (s.emptyQuanta b l).Canon := by
  unfold State.emptyQuanta
  grind [modBlock]

theorem barMet_canon (h : s.Canon) (g : Guard) (k : Nat) (drop full : Bool) (b : Block) (l : List Slice) :
    (barMet s g k drop full b l).Canon := by
  unfold barMet
  grind [State.Canon.barArrive, overSlices_canon, State.Canon.checkBars]

theorem barGang_canon (h : s.Canon) (g : Guard) (lv : BitVec 3) (form : BarForm) (b : Block) (l : List Slice) :
    (barGang s g lv form b l).Canon := by
  unfold barGang
  grind [State.Canon, Res.Canon, State.Canon.emptyQuanta, barMet_canon, waitGang_canon]

theorem execBar_canon (h : s.Canon) (g : Guard) (lv : BitVec 3) : Out.Canon (execBar g lv s) := by
  unfold execBar
  grind [State.Canon, Out.Canon, State.Canon.perSerial, barGang_canon]

theorem execBarArrive_canon (h : s.Canon) (g : Guard) (lv : BitVec 3) : Out.Canon (execBarArrive g lv s) := by
  unfold execBarArrive
  grind [State.Canon, Out.Canon, State.Canon.perSerial, barGang_canon]

theorem execBarWait_canon (h : s.Canon) (g : Guard) (lv : BitVec 3) : Out.Canon (execBarWait g lv s) := by
  unfold execBarWait
  grind [State.Canon, Out.Canon, State.Canon.perSerial, barGang_canon]

theorem execBarArrivedrop_canon (h : s.Canon) (g : Guard) (lv : BitVec 3) : Out.Canon (execBarArrivedrop g lv s) := by
  unfold execBarArrivedrop
  grind [State.Canon, Out.Canon, State.Canon.perSerial, barGang_canon]

theorem execTlwait_canon (h : s.Canon) (g : Guard) (t : BitVec 3) (c : Opd) : Out.Canon (execTlwait g t c s) := by
  refine h.perSerial fun b l => ?_
  split
  · trivial
  · exact waitGang_canon h ..

theorem execTlread_canon (h : s.Canon) (g : Guard) (t : BitVec 3) (d c : Opd) : Out.Canon (execTlread g t d c s) := by
  unfold execTlread
  grind [State.Canon, Out.Canon, State.Canon.perKind, eachSlice_canon, waitGang_canon]

/-! ### Machine/Atomic -/

theorem State.Canon.atomicOne (h : s.Canon) (b : Block) (sl : Slice) (sc : Scope) (p : Phys) (size : Nat) (f : Nat → Option Nat) :
    (s.atomicOne b sl sc p size f).2.Canon := by
  unfold State.atomicOne
  generalize e : ({ s with mem := _ } : State) = t
  have ht : t.Canon := e ▸ Memory.wf_foldl (fun _ _ => Memory.wf_publishLine _ _) _ _ h
  simp only
  split
  · grind [State.Canon.loadTick, State.Canon.tagAccess, State.Canon.travels]
  · next x _ =>
    have hp := ht.performStores b sc false [(sl, p, (leBytes size x).map some)] (some (t.atomicPlace b sl sc))
    grind [CanonEither]

theorem State.Canon.atomicRun (h : s.Canon) (b : Block) (l : List Slice) (sc : Scope) (k : Atomic) (accs : List Acc) :
    (s.atomicRun b l sc k accs).1.Canon := by
  induction accs generalizing s with
  | nil => exact h
  | cons a rest ih =>
    unfold State.atomicRun
    simp only
    split
    · split
      · exact ih ((((h.releaseHeld ..).travels ..).appendAll ..).storeMark ..)
      · exact ih h
    · exact ih (h.atomicOne ..)

theorem State.Canon.awaitFar (h : s.Canon) (b : Block) (sl : Slice) (place : Far) (accs : List Acc) (ws : List RegWrite) :
    (s.awaitFar b sl place accs ws).Canon := by
  unfold State.awaitFar
  grind [State.Canon, onWay, modShare, modSlice, newId]

theorem State.Canon.atomicDone (h : s.Canon) (g : Guard) (b : Block) (l : List Slice) (sc : Scope) (k : Atomic) (accs : List Acc) :
    (s.atomicDone g b l sc k accs).Canon := by
  unfold State.atomicDone
  grind [awaitFar, foldl, modSlice, overSlices_canon, atomicRun, rememberAll]

theorem State.Canon.atomicGang (h : s.Canon) (g : Guard) (b : Block) (l : List Slice) (named sc : Scope) (k : Atomic) (accs : List Acc) :
    (s.atomicGang g b l named sc k accs).Canon := by
  unfold State.atomicGang
  grind [State.Canon, Res.Canon, stallFor, atomicDone]

theorem State.Canon.perAtomic (h : s.Canon) {g : Guard} {len : Nat} {f : Block → List Slice → Res} (hf : ∀ b l, (f b l).Canon) :
    (s.perAtomic g len f).Canon := by
  unfold State.perAtomic
  grind [perKind]

theorem execAtom_canon (h : s.Canon) (g : Guard) (ty : Ty) (op : AtomOp) (sc : Scope) (d a b c : Opd)
    : Out.Canon (execAtom g ty op sc d a b c s) := by
  unfold execAtom
  grind [State.Canon, Out.Canon, State.Canon.atomicGang, State.Canon.perAtomic]

theorem execRedm_canon (h : s.Canon) (g : Guard) (ty : Ty) (op : RedOp) (sc : Scope) (a b : Opd) : Out.Canon (execRedm g ty op sc a b s)
    := by
  unfold execRedm
  grind [State.Canon, Out.Canon, State.Canon.atomicGang, State.Canon.perAtomic]

theorem execAtomc_canon (h : s.Canon) (g : Guard) (sc : Scope) (d a b : Opd) : Out.Canon (execAtomc g sc d a b s) := by
  unfold execAtomc
  grind [State.Canon, Out.Canon, State.Canon.atomicGang, State.Canon.perAtomic]

theorem execAtomw_canon (h : s.Canon) (g : Guard) (ty : Ty) (n : AwN) (sc : Scope) (d a b c : Opd)
    : Out.Canon (execAtomw g ty n sc d a b c s) := by
  unfold execAtomw
  grind [State.Canon, Out.Canon, State.Canon.atomicGang, State.Canon.perAtomic]

theorem execAppendGrant_canon (h : s.Canon) (cmd : Nat) : Out.Canon (execAppendGrant cmd s) := by
  unfold execAppendGrant Out.Canon
  simp only
  split
  · exact h
  · split
    · split
      · exact h
      · split
        · exact h.startFetch _
        · split
          · split
            · split
              · exact h.contextFault ..
              · exact h
            · refine State.Canon.storeTick ?_ ..
              exact Memory.wf_pokeMany _ (Memory.wf_publishLine _ _ h)
          · exact h
    · exact h

theorem State.Canon.publishHeldOf (h : s.Canon) (b : Block) (sl : Slice) : (s.publishHeldOf b sl).Canon := by
  unfold State.publishHeldOf
  grind [State.Canon, Memory.wf_publishSlice]

theorem appendSent_canon (h : s.Canon) (g : Guard) (d a b : Opd) (blk : Block) (l : List Slice) : (appendSent s g d a b blk l).Canon := by
  unfold appendSent
  grind [State.Canon, State.Canon.modTags, State.Canon.foldl, State.Canon.startFetch, State.Canon.modSlice, State.Canon.publishHeldOf,
    State.Canon.newId]

theorem appendDone_canon {s1 : State} (h : s1.Canon) (g : Guard) (d b : Opd) (blk : Block) (l : List Slice) :
    (appendDone s s1 g d b blk l).Canon := by
  unfold appendDone
  grind [State.Canon, State.Canon.modSlice, overSlices_canon]

theorem appendGang_canon (h : s.Canon) (g : Guard) (d a b : Opd) (blk : Block) (l : List Slice) : (appendGang s g d a b blk l).Canon := by
  unfold appendGang
  grind [State.Canon, Res.Canon, appendDone_canon, appendSent_canon]

theorem execAppend_canon (h : s.Canon) (g : Guard) (d a b : Opd) : Out.Canon (execAppend g d a b s) := by
  unfold execAppend
  grind [State.Canon, Out.Canon, State.Canon.perKind, appendGang_canon]

theorem State.Canon.skWrite (h : s.Canon) (p : SkPage) (off x : Nat) : (s.skWrite p off x).Canon :=
  Memory.wf_foldl (fun _ _ => Memory.wf_bankPoke _ _) _ _ h

theorem State.Canon.skopEnq (h : s.Canon) (p : SkPage) (desc n : Nat) {r : Word × State} (e : s.skopEnq p desc n = .ok r) : r.2.Canon := by
  unfold State.skopEnq at e
  grind [skWrite]

theorem State.Canon.skopSend (h : s.Canon) (b : Block) (sl : Slice) (d : Opd) (reply : Word) : (s.skopSend b sl d reply).Canon := by
  unfold State.skopSend
  grind [State.Canon, modShare, modSlice, publishHeldOf, newId]

/-- What has been done so far, where nothing failed, is in canonical form. -/
def CanonOk : Except Ev State → Prop
  | .ok s => s.Canon
  | .error _ => True

theorem foldl_ok_canon {α : Type} {f : Except Ev State → α → Except Ev State} (hf : ∀ acc x, CanonOk acc → CanonOk (f acc x)) (l : List α)
    (acc : Except Ev State) (h : CanonOk acc) {t : State} (e : l.foldl f acc = .ok t) : t.Canon := by
  induction l generalizing acc with
  | nil => subst e; exact h
  | cons x l ih => exact ih _ (hf _ x h) e

theorem skopRun_canon (h : s.Canon) (g : Guard) (d a : Opd) (size : Nat) (write : Bool)
    {op : State → Slice → SkPage → Nat → Except Ev (Word × State)}
    (hop : ∀ s x p off r, State.Canon s → op s x p off = .ok r → r.2.Canon) (blk : Block) (l : List Slice) {t : State}
    (e : skopRun s g d a size write op blk l = .ok t) : t.Canon := by
  unfold skopRun at e
  simp only at e
  refine foldl_ok_canon (fun acc x hacc => ?_) _ (.ok (s.rememberAll _ _)) (h.rememberAll ..) e
  split
  · trivial
  · split
    · exact hacc
    · split
      · trivial
      · next hs => exact State.Canon.skopSend (hop _ _ _ _ _ hacc hs) ..

theorem skopReplays_canon (h : s.Canon) (g : Guard) (blk : Block) (l : List Slice) : (skopReplays s g blk l).Canon := by
  unfold skopReplays
  grind [State.Canon.modSlice, overSlices_canon]

theorem skopGang_canon (h : s.Canon) (g : Guard) (d a : Opd) (size : Nat) (write : Bool) (bad : Slice → Bool)
    {op : State → Slice → SkPage → Nat → Except Ev (Word × State)} (hop : ∀ s x p off r, State.Canon s → op s x p off = .ok r → r.2.Canon)
    (blk : Block) (l : List Slice) : (skopGang s g d a size write bad op blk l).Canon := by
  unfold skopGang
  grind [State.Canon, Res.Canon, skopRun_canon, skopReplays_canon]

theorem enqOp_canon (h : s.Canon) (blk : Block) (b : Opd) (x : Slice) (p : SkPage) (off : Nat) {r : Word × State}
    (e : enqOp blk b s x p off = .ok r) :
    r.2.Canon := by
  exact h.skopEnq _ _ _ e

theorem chaseOp_canon (h : s.Canon) (blk : Block) (b c : Opd) (x : Slice) (p : SkPage) (off : Nat) {r : Word × State}
    (e : chaseOp blk b c s x p off = .ok r) : r.2.Canon := by
  unfold chaseOp at e
  grind [State.Canon.free]

theorem execSkopEnq_canon (h : s.Canon) (g : Guard) (d a b : Opd) : Out.Canon (execSkopEnq g d a b s) := by
  exact h.perGang fun blk l => skopGang_canon h _ _ _ _ _ _ (fun _ _ _ _ _ hs e => enqOp_canon hs _ _ _ _ _ e) ..

theorem execSkopChase_canon (h : s.Canon) (g : Guard) (d a b c : Opd) : Out.Canon (execSkopChase g d a b c s) := by
  exact h.perGang fun blk l => skopGang_canon h _ _ _ _ _ _ (fun _ _ _ _ _ hs e => chaseOp_canon hs _ _ _ _ _ _ e) ..

theorem State.Canon.replied (h : s.Canon) (c : Cmd) (blk : Nat) (ws : List RegWrite) (log : Bool) : (s.replied c blk ws log).Canon := by
  unfold State.replied
  grind [State.Canon, modShare, modSlice, answered]

theorem execSkipperReply_canon (h : s.Canon) (cmd : Nat) : Out.Canon (execSkipperReply cmd s) := by
  unfold execSkipperReply
  grind [State.Canon, Out.Canon, State.Canon.replied]

/-! ### Machine/Commands -/

theorem State.Canon.sendOne (h : s.Canon) (k : SupKind) (d : Option Nat) (args : Slice → List Word) {send : Sender} (hsend : send.Canon)
    (uid : Nat)
    (x : Slice) : (∀ t, s.sendOne k d args send uid x = .ok t → t.Canon) ∧ ∀ i, s.sendOne k d args send uid x = .error i → i.Canon := by
  unfold State.sendOne
  split
  · grind
  · next b y _ =>
    have hs := hsend s.newId.2 b y s.newId.1 (args x) h.newId
    grind [Issued.Canon, modSlice]

theorem State.Canon.sendAll (h : s.Canon) (k : SupKind) (d : Option Nat) (args : Slice → List Word) {send : Sender} (hsend : send.Canon)
    (uid : Nat)
    (l : List Slice) {t : State} (e : s.sendAll k d args send uid l = .ok t) : t.Canon := by
  induction l generalizing s with
  | nil => cases e; exact h
  | cons x xs ih =>
    have ho := h.sendOne k d args hsend uid x
    unfold State.sendAll at e
    grind [State.Canon, Issued.Canon, modSlice]

theorem State.Canon.bufferCmds (h : s.Canon) (g : Guard) (i : Instr) (d : Option Nat) (args : Slice → List Word) (uid : Nat)
    (l : List Slice) : (s.bufferCmds g i d args uid l).Canon := by
  unfold State.bufferCmds
  grind [foldl, modSlice, newId]

theorem State.Canon.cmdGang (h : s.Canon) (g : Guard) (k : SupKind) (i : Instr) (d : Option Nat) (check : Slice → Option Ev)
    (args : Slice → List Word)
    {send : Sender} (hsend : send.Canon) (b : Block) (l : List Slice) : (s.cmdGang g k i d check args send b l).Canon := by
  have ha (l : List Slice) (t : State) (e : s.sendAll k d args send b.uid l = .ok t) : t.Canon := h.sendAll k d args hsend b.uid l e
  unfold State.cmdGang
  grind [State.Canon, Res.Canon, bufferCmds]

theorem State.Canon.scratchPut (h : s.Canon) (b : Block) (share off : Nat) (bs : List Byte) : (s.scratchPut b share off bs).Canon :=
  h

theorem State.Canon.acceptTl (h : s.Canon) (blk share k : Nat) : (s.acceptTl blk share k).2.Canon := by
  unfold State.acceptTl
  grind [modShare]

theorem State.Canon.completeTl (h : s.Canon) (blk share k n : Nat) : (s.completeTl blk share k n).Canon := by
  unfold State.completeTl
  grind [modShare]

theorem State.Canon.finishCmd (h : s.Canon) (c : Cmd) (reply : Word) : (s.finishCmd c reply).Canon := by
  unfold State.finishCmd
  grind [State.Canon, completeTl, modShare, foldl, modSlice]

theorem State.Canon.commandFault (h : s.Canon) (c : Cmd) (e : Ev) : (s.commandFault c e).Canon := by
  unfold State.commandFault
  grind [contextFault]

/-! ### Machine/Queue -/

theorem State.Canon.modHq (h : s.Canon) (q : Nat) (f : Hq → Hq) : (s.modHq q f).Canon :=
  h

theorem State.Canon.modGraph (h : s.Canon) (slot : Nat) (f : Graph → Graph) : (s.modGraph slot f).Canon :=
  h

theorem State.Canon.modNode (h : s.Canon) (slot idx : Nat) (f : GNode → GNode) : (s.modNode slot idx f).Canon :=
  h

theorem State.Canon.setBits (h : s.Canon) (c : Nat) (m : BitVec 256) : (s.setBits c m).Canon :=
  h

theorem State.Canon.clearBits (h : s.Canon) (c : Nat) (m : BitVec 256) : (s.clearBits c m).Canon :=
  h

theorem State.Canon.appendEntry (h : s.Canon) (q : Nat) (addr : Word) (graph : Option (Nat × Nat)) :
    (s.appendEntry q addr graph).2.Canon := by
  unfold State.appendEntry
  grind [modHq]

theorem State.Canon.recall (h : s.Canon) (q pos : Nat) : (s.recall q pos).Canon :=
  h

theorem State.Canon.dropEntry (h : s.Canon) (q pos : Nat) : (s.dropEntry q pos).Canon :=
  h

theorem State.Canon.nodeFails (h : s.Canon) (q pos code : Nat) (e : HqEntry) : (s.nodeFails q pos code e).Canon :=
  h

theorem State.Canon.nodeEnds (h : s.Canon) (c : Cmd) (bad : Bool) : (s.nodeEnds c bad).Canon := by
  unfold State.nodeEnds
  grind [setBits, modNode, nodeFails]

/-! ### Machine/Copy -/

theorem State.Canon.engineWrite (h : s.Canon) (c : Nat) (p : Phys) (x : Byte) : (s.engineWrite c p x).Canon := by
  have hm : (s.mirror p 0 x).Canon := h.mirror ..
  unfold State.engineWrite
  simp only
  split
  · split
    · exact Memory.wf_same (m := (s.mirror p 0 x).mem) rfl rfl hm
    · exact hm
  · split
    · exact Memory.wf_bankPoke _ _ hm
    · exact Memory.wf_poke _ _ hm

theorem State.Canon.copyWrite (h : s.Canon) (o : Owner) (a : CAddr) (x : Byte) : (s.copyWrite o a x).Canon := by
  unfold State.copyWrite
  grind [scratchPut, engineWrite, tagAccess]

theorem State.Canon.engineStore (h : s.Canon) (c : Nat) (p : Phys) (bs : List Byte) : (s.engineStore c p bs).Canon := by
  unfold State.engineStore
  grind [appendAll, foldl, engineWrite, travels]

theorem State.Canon.writeFlag (h : s.Canon) (c va : Nat) (x : Word) : (s.writeFlag c va x).Canon := by
  unfold State.writeFlag
  grind [engineStore]

theorem State.Canon.flagWait (h : s.Canon) {c va : Nat} {t : State} (e : s.flagWait c va = some t) : t.Canon := by
  have hf (ns : List Nat) : (ns.foldl State.startFetch s).Canon := State.Canon.foldl (fun _ _ hs => hs.startFetch _) ns h
  unfold State.flagWait at e
  grind

theorem State.Canon.engineOut (h : s.Canon) (o : Owner) (w : Bool) (l : List CAddr) : (s.engineOut o w l).Canon := by
  unfold State.engineOut
  grind [foldl, sendOut]

theorem State.Canon.runMoves (h : s.Canon) (o : Owner) (old : State) (ov : CAddr → Bool) (draw : Nat → Word) (n : Nat) (ms : List Move) :
    (s.runMoves o old ov draw n ms).Canon := by
  induction ms generalizing s n with
  | nil => exact h
  | cons m ms ih => exact ih (h.copyWrite ..) _

theorem State.Canon.copyReads (h : s.Canon) (o : Owner) (l : List CAddr) : (s.copyReads o l).Canon := by
  unfold State.copyReads
  grind [policyFetch, foldl, tagAccess]

theorem State.Canon.carryOut (h : s.Canon) (c : Cmd) (perm : Bool) (ms : List Move) : (s.carryOut c perm ms).2.Canon := by
  unfold State.carryOut
  grind [State.Canon, copyReads, engineOut, countMoved, runMoves]

theorem State.Canon.launchCmd (h : s.Canon) (b : Block) (sl : Slice) (id tl : Nat) (path : Option Nat) (d : Option Nat) (kind : CmdKind)
    : (s.launchCmd b sl id tl path d kind).Canon := by
  unfold State.launchCmd
  grind [State.Canon, modShare, acceptTl]

theorem State.Canon.instantCmd (h : s.Canon) (b : Block) (sl : Slice) (id tl : Nat) (path : Option Nat) :
    (s.instantCmd b sl id tl path).Canon := by
  unfold State.instantCmd
  grind [completeTl, modShare, acceptTl]

theorem sendCpy_canon (d : Option Nat) : Sender.Canon (sendCpy d) := by
  unfold sendCpy
  grind [State.Canon, Sender.Canon, Issued.Canon, State.Canon.instantCmd, State.Canon.publishHeldOf, State.Canon.launchCmd]

theorem execCpy_canon (h : s.Canon) (g : Guard) (d a b c : Opd) : Out.Canon (execCpy g d a b c s) := by
  unfold execCpy
  grind [State.Canon, Out.Canon, State.Canon.perGang, State.Canon.cmdGang, sendCpy_canon]

theorem sendCpyt_canon (r : LaunchRec) (ty : Ty) (cb : Bool) (d : Option Nat) : Sender.Canon (sendCpyt r ty cb d) := by
  unfold sendCpyt
  grind [State.Canon, Sender.Canon, Issued.Canon, State.Canon.instantCmd, State.Canon.publishHeldOf, State.Canon.launchCmd]

theorem execCpyt_canon (h : s.Canon) (g : Guard) (ty : Ty) (cb : Bool) (d a : Opd) : Out.Canon (execCpyt g ty cb d a s) := by
  unfold execCpyt
  grind [State.Canon, Out.Canon, State.Canon.perGang, State.Canon.cmdGang, sendCpyt_canon]

theorem sendCbook_canon (d : Option Nat) : Sender.Canon (sendCbook d) := by
  unfold sendCbook
  grind [State.Canon, Sender.Canon, Issued.Canon, State.Canon.publishHeldOf, State.Canon.launchCmd]

theorem execCbook_canon (h : s.Canon) (g : Guard) (d a : Opd) : Out.Canon (execCbook g d a s) := by
  unfold execCbook
  grind [State.Canon, Out.Canon, State.Canon.perGang, sendCbook_canon, State.Canon.cmdGang]

theorem State.Canon.performCopy (h : s.Canon) (c : Cmd) (perm : Bool) : (s.performCopy c perm).2.Canon := by
  unfold State.performCopy
  grind [State.Canon, carryOut, modShare, copyReads, engineOut, countMoved]

theorem State.Canon.packetEnds (h : s.Canon) (c : Cmd) (bad : Bool) : (s.packetEnds c bad).Canon := by
  unfold State.packetEnds
  grind [State.Canon]

theorem State.Canon.endCmd (h : s.Canon) (c : Cmd) (reply : Word) (bad : Bool) : (s.endCmd c reply bad).Canon := by
  unfold State.endCmd
  grind [packetEnds, nodeEnds, finishCmd, writeFlag]

theorem State.Canon.copyDone (h : s.Canon) (c : Cmd) : (s.copyDone c).Canon := by
  unfold State.copyDone
  grind [performCopy, endCmd]

theorem execCopyComplete_canon (h : s.Canon) (cmd : Nat) : Out.Canon (execCopyComplete cmd s) := by
  unfold execCopyComplete
  grind [State.Canon, Out.Canon, State.Canon.foldl, State.Canon.startFetch, State.Canon.copyDone]

/-! ### Machine/Float -/

theorem floatOp2_canon (h : s.Canon) (g : Guard) (ty : Ty) (d a b : Opd) (f : Nat → Nat → Nat × Flags) :
    (floatOp2 g ty d a b f s).Canon := by
  unfold floatOp2
  grind [State.Canon.perSlice]

theorem execFadd_canon (h : s.Canon) (g : Guard) (ty : Ty) (r : Rnd) (diff : Bool) (d a b : Opd) : Out.Canon (execFadd g ty r diff d a b s)
    := by
  unfold execFadd
  grind [State.Canon, Out.Canon, floatOp2_canon]

theorem execFmul_canon (h : s.Canon) (g : Guard) (ty : Ty) (r : Rnd) (d a b : Opd) : Out.Canon (execFmul g ty r d a b s) := by
  unfold execFmul
  grind [State.Canon, Out.Canon, floatOp2_canon]

theorem execFminmax_canon (h : s.Canon) (g : Guard) (ty : Ty) (op : FMinMax) (d a b : Opd) : Out.Canon (execFminmax g ty op d a b s) := by
  unfold execFminmax
  grind [State.Canon, Out.Canon, floatOp2_canon]

/-! ### Machine/Lane -/

theorem execLane_canon (h : s.Canon) (g : Guard) (ty : Ty) (gang : Bool) (op : LaneOp) (d a b : Opd)
    : Out.Canon (execLane g ty gang op d a b s) := by
  unfold execLane
  grind [State.Canon, Out.Canon, State.Canon.perGang, eachSlice_canon]

/-! ### Machine/MemSide -/

theorem State.Canon.stackWrite (h : s.Canon) (c va : Nat) (bs : List Byte) : (s.stackWrite c va bs).Canon := by
  unfold State.stackWrite
  grind [State.Canon, Memory.wf_bankPoke, foldl]

theorem State.Canon.unitDone (h : s.Canon) (cmd : Cmd) (dst : Nat) (srcs : List Nat) (esz len : Nat) (faddr fval : Word)
    (f : List Nat → Nat) : (s.unitDone cmd dst srcs esz len faddr fval f).Canon := by
  unfold State.unitDone
  grind [State.Canon, commandFault, foldl, stackWrite, endCmd, writeFlag, countMoved]

theorem State.Canon.tagBytes (h : s.Canon) (b : Block) (va n : Nat) (w : Bool) : (s.tagBytes b va n w).Canon := by
  unfold State.tagBytes
  grind [foldl, tagAccess]

theorem State.Canon.unitTag (h : s.Canon) (cmd : Cmd) (dst : Nat) (srcs : List Nat) (n faddr : Nat) :
    (s.unitTag cmd dst srcs n faddr).Canon := by
  unfold State.unitTag
  grind [foldl, tagBytes]

theorem State.Canon.instantUnit (h : s.Canon) (b : Block) (sl : Slice) (id : Nat) (faddr fval : Word) :
    (s.instantUnit b sl id faddr fval).Canon := by
  have hf (l : List (Nat × Nat)) : (l.foldl (fun (s : State) (x : Nat × Nat) => s.tagBytes b x.1 x.2 true) s).Canon :=
    State.Canon.foldl (fun _ _ hs => hs.tagBytes ..) l h
  unfold State.instantUnit
  grind [Issued.Canon, flagWait, instantCmd, writeFlag]

theorem sendMred_canon  : Sender.Canon (sendMred) := by
  unfold sendMred
  grind [State.Canon, Sender.Canon, Issued.Canon, State.Canon.instantUnit, State.Canon.launchCmd]

theorem execMred_canon (h : s.Canon) (g : Guard) (a : Opd) : Out.Canon (execMred g a s) := by
  refine h.perGang fun blk l => ?_
  simp only
  split
  · trivial
  · split
    · exact h
    · exact (h.afterLoads ..).cmdGang _ _ _ _ _ _ sendMred_canon _ _

theorem execMredComplete_canon (h : s.Canon) (cmd : Nat) : Out.Canon (execMredComplete cmd s) := by
  unfold execMredComplete
  grind [State.Canon, Out.Canon, State.Canon.commandFault, State.Canon.foldl, State.Canon.startFetch, State.Canon.unitTag,
    State.Canon.unitDone]

theorem sendMcmp_canon (ty : Ty) (r : Rnd) (op : McmpOp) : Sender.Canon (sendMcmp ty r op) := by
  unfold sendMcmp
  grind [State.Canon, Sender.Canon, Issued.Canon, State.Canon.instantUnit, State.Canon.launchCmd]

theorem execMcmp_canon (h : s.Canon) (g : Guard) (ty : Ty) (r : Rnd) (op : McmpOp) (a : Opd) : Out.Canon (execMcmp g ty r op a s) := by
  unfold execMcmp
  grind [State.Canon, Out.Canon, State.Canon.perGang, State.Canon.cmdGang, sendMcmp_canon]

theorem execMcmpComplete_canon (h : s.Canon) (cmd : Nat) : Out.Canon (execMcmpComplete cmd s) := by
  unfold execMcmpComplete
  grind [State.Canon, Out.Canon, State.Canon.commandFault, State.Canon.foldl, State.Canon.startFetch, State.Canon.unitTag,
    State.Canon.unitDone]

theorem State.Canon.notePacket (h : s.Canon) (b : Block) (sl : Slice) (va : Nat) (ws : List Word) : (s.notePacket b sl va ws).Canon := by
  unfold State.notePacket
  grind [modShare, acceptTl]

theorem State.Canon.writePacket (h : s.Canon) (b : Block) (x : Slice) (va : Nat) (ws : List Word) : CanonEither (s.writePacket b x va ws)
    := by
  unfold State.writePacket
  grind [State.Canon, CanonEither, notePacket, performStores]

theorem sendQpost_canon (d : Option Nat) : Sender.Canon (sendQpost d) := by
  intro s b sl id args h
  have hp : (s.publishHeldOf b sl).Canon := h.publishHeldOf ..
  have hw (t : State) (ht : t.Canon) (va : Nat) (ws : List Word) := ht.writePacket b sl va ws
  unfold sendQpost
  grind [State.Canon, Issued.Canon, CanonEither, State.Canon.startFetch, State.Canon.atomicOne]

theorem postReads_canon (h : s.Canon) (g : Guard) (b : Opd) (blk : Block) (l : List Slice) : (postReads s g b blk l).Canon := by
  unfold postReads
  grind [State.Canon.afterLoads]

theorem postClaim_canon (h : s.Canon) (g : Guard) (b : Opd) (blk : Block) (l : List Slice) : (postClaim s g b blk l).Canon := by
  unfold postClaim
  grind [State.Canon.foldl, State.Canon.atomicOne, State.Canon.modSlice, State.Canon.publishHeldOf]

theorem postAwait_canon (h : s.Canon) (blk : Block) (l : List Slice) (ns : List Nat) : (postAwait s blk l ns).Canon := by
  unfold postAwait
  grind [State.Canon.foldl, State.Canon.startFetch, State.Canon.modSlice]

theorem foldl_canonEither {α : Type} {f : Except State State → α → Except State State} (hf : ∀ acc x, CanonEither acc → CanonEither (f acc x))
    (l : List α) (acc : Except State State) (h : CanonEither acc) : CanonEither (l.foldl f acc) := by
  induction l generalizing acc with
  | nil => exact h
  | cons x l ih => exact ih _ (hf _ x h)

theorem postWrite_canon (h : s.Canon) (d a : Opd) (blk : Block) (l : List Slice) : CanonEither (postWrite s d a blk l) := by
  unfold postWrite
  split
  · exact postAwait_canon h ..
  · refine foldl_canonEither (fun acc x hacc => ?_) _ _ h
    cases acc with
    | error t => exact hacc
    | ok t =>
      have hw := State.Canon.writePacket hacc blk x x.slot (eightOf x a)
      grind [CanonEither, State.Canon.modSlice]

theorem qpostGang_canon (h : s.Canon) (g : Guard) (d a b : Opd) (blk : Block) (l : List Slice) : (qpostGang s g d a b blk l).Canon := by
  have hc : (postClaim (postReads s g b blk l) g b blk l).Canon := postClaim_canon (postReads_canon h ..) ..
  have hw := postWrite_canon hc d a blk ((postClaim (postReads s g b blk l) g b blk l).takers g blk l)
  have hf (ns : List Nat) : (ns.foldl State.startFetch s).Canon := State.Canon.foldl (fun _ _ hs => hs.startFetch _) ns h
  unfold qpostGang
  grind [Res.Canon, CanonEither]

theorem qpostDet_canon (h : s.Canon) (g : Guard) (d a b : Opd) (blk : Block) (l : List Slice) : (qpostDet s g d a b blk l).Canon := by
  unfold qpostDet
  grind [State.Canon, Res.Canon, State.Canon.cmdGang, postReads_canon, sendQpost_canon]

theorem execQpost_canon (h : s.Canon) (g : Guard) (d a b : Opd) : Out.Canon (execQpost g d a b s) := by
  unfold execQpost
  grind [State.Canon, Out.Canon, State.Canon.perGang, qpostGang_canon, qpostDet_canon]

theorem State.Canon.ctxWrite (h : s.Canon) (c va n x : Nat) : (s.ctxWrite c va n x).Canon := by
  unfold State.ctxWrite
  grind [engineStore]

theorem State.Canon.modUq (h : s.Canon) (q : Nat) (f : UserQueue → UserQueue) : (s.modUq q f).Canon :=
  h

theorem State.Canon.numberPacket (h : s.Canon) (tlsel origin key : Nat) : (s.numberPacket tlsel origin key).2.Canon := by
  unfold State.numberPacket
  grind [modShare, acceptTl]

theorem State.Canon.queueFault (h : s.Canon) (u : UserQueue) (e : Ev) : (s.queueFault u e).Canon := by
  unfold State.queueFault
  grind [contextFault]

theorem State.Canon.pickUp (h : s.Canon) (u : UserQueue) (k : Nat) (bs : List Byte) : (s.pickUp u k bs).Canon := by
  unfold State.pickUp
  grind [State.Canon, modUq, queueFault, numberPacket, newId]

theorem State.Canon.uqPolls (h : s.Canon) (u : UserQueue) : (s.uqPolls u).Canon := by
  unfold State.uqPolls
  grind [readsAll]

theorem execQueuePacketPickup_canon (h : s.Canon) (uq : Nat) : Out.Canon (execQueuePacketPickup uq s) := by
  unfold execQueuePacketPickup
  grind [State.Canon, Out.Canon, State.Canon.pickUp, State.Canon.queueFault, State.Canon.readsAll, State.Canon.uqPolls]

theorem State.Canon.countPacket (h : s.Canon) (p : Packet) : (s.countPacket p).Canon := by
  unfold State.countPacket
  grind [completeTl]

theorem State.Canon.packetDone (h : s.Canon) (u : UserQueue) (p : Packet) (nslot ring : Nat) : (s.packetDone u p nslot ring).Canon := by
  unfold State.packetDone
  grind [modUq, countPacket, writeFlag, ctxWrite]

theorem State.Canon.packetTurn (h : s.Canon) (u : UserQueue) (p : Packet) (nslot ring : Nat) : (s.packetTurn u p nslot ring).Canon := by
  unfold State.packetTurn
  grind [queueFault, foldl, startFetch, packetDone]

theorem execQueuePacketComplete_canon (h : s.Canon) (uq : Nat) : Out.Canon (execQueuePacketComplete uq s) := by
  unfold execQueuePacketComplete
  grind [State.Canon, Out.Canon, State.Canon.packetTurn]

/-! ### Machine/Span -/

theorem State.Canon.seeResident (h : s.Canon) (n : Nat) : (s.seeResident n).Canon := by
  unfold State.seeResident
  grind [State.Canon, foldl, finishCmd]

theorem Cells.putBytes_ne {b : Cells Byte} (k : Nat) (bs : List Byte) (hb : ∀ c ∈ b, c.2 ≠ 0) : ∀ c ∈ Cells.putBytes b k bs, c.2 ≠ 0 := by
  induction bs generalizing b k with
  | nil => exact hb
  | cons x bs ih =>
    refine ih (k + 1) fun c hc => ?_
    unfold Cells.set at hc
    split at hc
    · exact hb c (List.mem_filter.mp hc).1
    · next hx =>
      rcases Cells.mem_put hc with rfl | hc
      · exact hx
      · exact hb c hc

/-- A span's entries leave no byte listed as zero. -/
theorem applied_ne (es : List CocoonEntry) {b : Cells Byte} (hb : ∀ c ∈ b, c.2 ≠ 0) :
    ∀ c ∈ es.foldl (fun b e => e.apply b) b, c.2 ≠ 0 := by
  induction es generalizing b with
  | nil => exact hb
  | cons e es ih => exact ih (Cells.putBytes_ne _ _ hb)

theorem State.Canon.spanArrives (h : s.Canon) (p : Span) (f : Nat) : (s.spanArrives p f).Canon := by
  have hm := Memory.wf_setFrame (t1Off f) (fun o => t1Key false (f + o))
    (p.cocoon.foldl (fun z e => e.clears z) (s.mem.framePoison (t2Off (p.num * spanBytes))))
    (applied_ne p.cocoon (Memory.frameBytes_ne (t2Off (p.num * spanBytes)) h)) h
  exact (State.Canon.setSpan (s := { s with mem := _ }) hm _).seeResident _

theorem execSpanFetchArrival_canon (h : s.Canon) (span : Nat) : Out.Canon (execSpanFetchArrival span s) := by
  unfold execSpanFetchArrival
  grind [State.Canon, Out.Canon, State.Canon.spanArrives]

theorem execSpanReplacement_canon (h : s.Canon) (span : Nat) : Out.Canon (execSpanReplacement span s) := by
  unfold execSpanReplacement
  grind [State.Canon, Out.Canon, State.Canon.setSpan]

theorem State.Canon.spanLeaves (h : s.Canon) (p : Span) : (s.spanLeaves p).Canon := by
  unfold State.spanLeaves
  simp only
  split
  · exact h.setSpan _
  · generalize em : List.foldl (fun m l => Memory.publishLine m none l) _ _ = m
    have hm : m.wf = true := em ▸ Memory.wf_foldl (fun _ _ => Memory.wf_publishLine _ _) _ _ h
    refine State.Canon.setSpan ?_ _
    exact Memory.wf_setFrame _ _ _ (Memory.frameBytes_ne _ hm) (Memory.wf_setFrame _ _ _ (Memory.frameBytes_ne _ hm) hm)

theorem execSpanEvictionComplete_canon (h : s.Canon) (span : Nat) : Out.Canon (execSpanEvictionComplete span s) := by
  unfold execSpanEvictionComplete
  grind [State.Canon, Out.Canon, State.Canon.spanLeaves]

theorem spanctl_canon (h : s.Canon) (g : Guard) (i : Instr) (a b : Opd) (bad : Env → Slice → Bool) {f : State → Block → Slice → Nat → State}
    (hf : ∀ s b x n, State.Canon s → (f s b x n).Canon) (blk : Block) (l : List Slice) : (spanctl g i a b bad f blk l s).Canon := by
  unfold spanctl
  grind [State.Canon, Res.Canon, State.Canon.bufferCmds, overSlices_canon]

theorem State.Canon.setCap (h : s.Canon) (n v : Nat) : (s.setCap n v).Canon := by
  unfold State.setCap
  grind [setSpan, startFetch]

theorem capOne_canon (h : s.Canon) (b : Opd) (blk : Block) (sl : Slice) (n : Nat) : (capOne b s blk sl n).Canon := by
  unfold capOne
  grind [State.Canon.setCap]

theorem State.Canon.setPol (h : s.Canon) (n : Nat) (v : Word) : (s.setPol n v).Canon :=
  h

theorem State.Canon.evictSpan (h : s.Canon) (n : Nat) : (s.evictSpan n).Canon := by
  unfold State.evictSpan
  grind [setSpan]

theorem polOne_canon (h : s.Canon) (b : Opd) (blk : Block) (sl : Slice) (n : Nat) : (polOne b s blk sl n).Canon :=
  h

theorem evictOne_canon (h : s.Canon) (b : Block) (x : Slice) (n : Nat) : (evictOne s b x n).Canon := by
  unfold evictOne
  grind [State.Canon.evictSpan]

theorem sendSpanctl_canon {f : State → Nat → Word → State} (hf : ∀ s n v, State.Canon s → (f s n v).Canon) : Sender.Canon (sendSpanctl f)
    := by
  unfold sendSpanctl
  grind [State.Canon, Sender.Canon, Issued.Canon]

theorem execSpanctlCap_canon (h : s.Canon) (g : Guard) (a b : Opd) : Out.Canon (execSpanctlCap g a b s) := by
  unfold execSpanctlCap
  grind [State.Canon, Out.Canon, State.Canon.perGang, capOne_canon, spanctl_canon]

theorem execSpanctlPol_canon (h : s.Canon) (g : Guard) (a b : Opd) : Out.Canon (execSpanctlPol g a b s) := by
  unfold execSpanctlPol
  grind [State.Canon, Out.Canon, State.Canon.perGang, polOne_canon, spanctl_canon]

theorem execSpanctlEvict_canon (h : s.Canon) (g : Guard) (a : Opd) : Out.Canon (execSpanctlEvict g a s) := by
  unfold execSpanctlEvict
  grind [State.Canon, Out.Canon, State.Canon.perGang, evictOne_canon, spanctl_canon]

theorem execSpanq_canon (h : s.Canon) (g : Guard) (d a : Opd) : Out.Canon (execSpanq g d a s) := by
  refine h.perGang fun blk l => ?_
  split
  · trivial
  · exact eachSlice_canon h ..

theorem sendSpanfet_canon (d : Option Nat) : Sender.Canon (sendSpanfet d) := by
  unfold sendSpanfet
  grind [State.Canon, Sender.Canon, Issued.Canon, State.Canon.completeTl, State.Canon.foldl, State.Canon.startFetch,
    State.Canon.publishHeldOf, State.Canon.acceptTl]

theorem execSpanfet_canon (h : s.Canon) (g : Guard) (d a b : Opd) : Out.Canon (execSpanfet g d a b s) := by
  refine h.perGang fun blk l => ?_
  simp only
  split
  · trivial
  · exact h.cmdGang _ _ _ _ _ _ (sendSpanfet_canon _) _ _

theorem State.Canon.salloc (h : s.Canon) (c : Nat) (dup : Bool) (size : Nat) (pl : Word) : (s.salloc c dup size pl).2.Canon := by
  unfold State.salloc
  extract_lets n align any first second planes t used x mine fail
  generalize (if dup then 2 * n else n) = need
  generalize (if dup then 2 else 1) = want
  split
  · exact h
  · split
    · exact h
    · split
      · exact h
      · split
        · exact h
        · split
          · exact h
          · unfold State.Canon
            exact Memory.wf_foldl (fun _ _ => Memory.wf_zeroSwitch _ _ _) _ _ h

theorem sendSalloc_canon (dup : Bool) (d : Option Nat) : Sender.Canon (sendSalloc dup d) := by
  unfold sendSalloc
  grind [State.Canon, Sender.Canon, Issued.Canon, State.Canon.releaseHeld, State.Canon.salloc]

theorem execSalloc_canon (h : s.Canon) (g : Guard) (dup : Bool) (d a b : Opd) : Out.Canon (execSalloc g dup d a b s) := by
  unfold execSalloc
  grind [State.Canon, Out.Canon, State.Canon.perGang, State.Canon.cmdGang, sendSalloc_canon]

theorem State.Canon.sfree (h : s.Canon) (c base : Nat) : (s.sfree c base).2.Canon := by
  unfold State.sfree
  split
  · exact h
  · exact Memory.wf_same rfl rfl h

theorem State.Canon.unmapAlloc (h : s.Canon) (b : Block) (sl : Slice) (a : Alloc) : (s.unmapAlloc b sl a).Canon := by
  exact Memory.wf_same rfl rfl (h.releaseHeld b sl .fab)

theorem sendSfree_canon (d : Option Nat) : Sender.Canon (sendSfree d) := by
  unfold sendSfree
  grind [State.Canon, Sender.Canon, Issued.Canon, State.Canon.unmapAlloc, State.Canon.sfree]

theorem execSfree_canon (h : s.Canon) (g : Guard) (d a : Opd) : Out.Canon (execSfree g d a s) := by
  unfold execSfree
  grind [State.Canon, Out.Canon, State.Canon.perGang, State.Canon.cmdGang, sendSfree_canon]

/-! ### Machine/Collective -/

theorem State.Canon.modJob (h : s.Canon) (j : Nat) (f : Job → Job) : (s.modJob j f).Canon :=
  h

theorem State.Canon.gate (h : s.Canon) (job seq : Nat) (i : Instr) {f : State → State} (hf : ∀ s, State.Canon s → (f s).Canon) :
    (s.gate job seq i f).Canon := by
  unfold State.gate
  grind [modJob]

theorem State.Canon.settleJob (h : s.Canon) (job : Nat) : (s.settleJob job).Canon := by
  unfold State.settleJob
  grind [modJob]

theorem State.Canon.faultCtx (h : s.Canon) (c : Nat) (e : Ev) : (s.faultCtx c e).Canon := by
  unfold State.faultCtx
  grind [contextFault]

theorem State.Canon.openInst (h : s.Canon) (d : InstDesc) (l : List Nat) : (s.openInst d l).2.Canon := by
  unfold State.openInst
  grind [State.Canon, post, settleJob, foldl, modJob, faultCtx]

theorem State.Canon.rangesCounted (h : s.Canon) (c : Nat) (l : List (Nat × Nat)) : (s.rangesCounted c l).Canon := by
  unfold State.rangesCounted
  grind [foldl, countMoved]

theorem cinstOne_canon (h : s.Canon) (d : Opd) (va : Slice → Nat) (b : Block) (x : Slice) : (cinstOne d va b s x).Canon := by
  unfold cinstOne
  grind [State.Canon.openInst, State.Canon.modSlice, State.Canon.readsAll, State.Canon.publishHeldOf, State.Canon.rangesCounted]

theorem cinstGang_canon (h : s.Canon) (g : Guard) (d a : Opd) (b : Block) (l : List Slice) : (cinstGang s g d a b l).Canon := by
  unfold cinstGang
  grind [State.Canon, Res.Canon, cinstOne_canon, State.Canon.foldl]

theorem execCinstStart_canon (h : s.Canon) (g : Guard) (d a : Opd) : Out.Canon (execCinstStart g d a s) := by
  unfold execCinstStart
  grind [State.Canon, Out.Canon, State.Canon.perGang, cinstGang_canon]

theorem execInstanceAnnounceReceive_canon (h : s.Canon) (job member seq : Nat) (digest : BitVec 32)
    : Out.Canon (execInstanceAnnounceReceive job member seq digest s) := by
  unfold execInstanceAnnounceReceive
  grind [State.Canon, Out.Canon, State.Canon.modJob, State.Canon.faultCtx]

theorem State.Canon.vaWrite (h : s.Canon) (c va : Nat) (bs : List Byte) : (s.vaWrite c va bs).Canon := by
  unfold State.vaWrite
  grind [foldl, engineWrite, engineOut]

theorem State.Canon.vaReads (h : s.Canon) (c va n : Nat) : (s.vaReads c va n).Canon := by
  unfold State.vaReads
  grind [readsVa, engineOut]

theorem State.Canon.rangeWait (h : s.Canon) {c : Nat} {l : List CAddr} {t : State} (e : s.rangeWait c l = some t) : t.Canon := by
  have hf (ns : List Nat) : (ns.foldl State.startFetch s).Canon := State.Canon.foldl (fun _ _ hs => hs.startFetch _) ns h
  unfold State.rangeWait at e
  grind

theorem State.Canon.later (h : s.Canon) (i : Instr) : (s.later i).Canon :=
  h

theorem State.Canon.tell (h : s.Canon) (j : Job) (m : Msg) : (s.tell j m).Canon := by
  unfold State.tell
  grind [post, foldl]

theorem State.Canon.tryChunk (h : s.Canon) (job seq : Nat) (y : Word) : (s.tryChunk job seq y).Canon := by
  unfold State.tryChunk
  simp only
  split
  · exact h
  · split
    · exact h
    · split
      · refine State.Canon.settleJob (State.Canon.foldl (fun _ _ hs => ?_) _ ?_) _
        · split
          · exact hs
          · exact hs.post ..
        · refine ((State.Canon.foldl (fun _ _ hs => ?_) _ h).modJob ..).modJob .. |>.tell ..
          split
          · exact (hs.vaWrite ..).vaWrite ..
          · exact hs.vaWrite ..
      · exact (h.tell ..).faultCtx ..

theorem State.Canon.modChunk (h : s.Canon) (job seq : Nat) (y : Word) (f : Chunk → Chunk) : (s.modChunk job seq y f).Canon :=
  h

theorem State.Canon.takeExp (h : s.Canon) (job seq : Nat) (y : Word) (rank : Nat) (e : Option Int) : (s.takeExp job seq y rank e).Canon :=
  h

theorem State.Canon.takePart (h : s.Canon) (job seq : Nat) (y : Word) (p : Contribution) : (s.takePart job seq y p).2.Canon := by
  unfold State.takePart
  grind [modChunk]

theorem State.Canon.giveChunk (h : s.Canon) (cmd : Nat) (x : CollCmd) (l : CollLane) (e : Option Int) (k : Nat) :
    (s.giveChunk cmd x l e k).2.Canon := by
  unfold State.giveChunk
  grind [ask, tryChunk, takePart]

theorem State.Canon.sendDue (h : s.Canon) (c : Cmd) (x : CollCmd) (owner : Nat) (y : Word) (e : Option Int) :
    (s.sendDue c x owner y e).Canon := by
  unfold State.sendDue
  grind [State.Canon, exponentAnswered, foldl, giveChunk]

theorem State.Canon.exponentHere (h : s.Canon) (job seq owner : Nat) (y : Word) (e : Option Int) :
    (s.exponentHere job seq owner y e).Canon := by
  unfold State.exponentHere
  grind [foldl, sendDue]

theorem State.Canon.agree (h : s.Canon) (job seq : Nat) (y : Word) : (s.agree job seq y).Canon := by
  unfold State.agree
  grind [modChunk, exponentHere, tell]

theorem State.Canon.answer (h : s.Canon) (o : Origin) (m : Msg) : (s.answer o m).Canon := by
  unfold State.answer
  grind [State.Canon, post]

theorem State.Canon.once (h : s.Canon) (o : Origin) (job : Nat) {f : State → State} (hf : ∀ s, State.Canon s → (f s).Canon) :
    (s.once o job f).Canon := by
  unfold State.once
  grind [post, answer]

theorem State.Canon.stopPeer (h : s.Canon) (o : Origin) (job : Nat) : (s.stopPeer o job).Canon := by
  unfold State.stopPeer
  grind [State.Canon, answer]

theorem execRnsExponentReceive_canon (h : s.Canon) (o : JobOrigin) (seq : Nat) (y : Word) (rank : Nat) (e : Option Int) (agreed : Bool)
    : Out.Canon (execRnsExponentReceive o seq y rank e agreed s) := by
  refine h.gate _ _ _ fun s hs => ?_
  simp only
  split
  · exact hs
  · split
    · exact hs.exponentHere ..
    · refine hs.once _ _ fun s hs => ?_
      split
      · exact hs.stopPeer ..
      · split
        · next e => exact (hs.rangeWait e).later _
        · split
          · exact hs.answer ..
          · exact (((hs.takeExp ..).answer ..).agree ..).tryChunk ..

theorem execChunkContributionArrive_canon (h : s.Canon) (job seq : Nat) (y : Word) (p : Contribution)
    : Out.Canon (execChunkContributionArrive job seq y p s) := by
  refine h.gate _ _ _ fun s hs => ?_
  simp only
  split
  · exact hs
  · refine hs.once _ _ fun s hs => ?_
    split
    · exact hs.stopPeer ..
    · split
      · next e => exact (hs.rangeWait e).later _
      · have ht := hs.takePart job seq y p
        split
        · exact ht.answer ..
        · exact (ht.answer ..).tryChunk ..

theorem execChunkFlagsReceive_canon (h : s.Canon) (job seq : Nat) (c : ChunkFlags) : Out.Canon (execChunkFlagsReceive job seq c s) := by
  unfold execChunkFlagsReceive
  grind [State.Canon, Out.Canon, State.Canon.modJob, State.Canon.gate, State.Canon.faultCtx]

theorem State.Canon.beginLanding (h : s.Canon) (o : Origin) (job : Nat) (at_ : Nat × Nat × Nat) (n : Nat) :
    (s.beginLanding o job at_ n).2.Canon := by
  unfold State.beginLanding
  grind [State.Canon, modShare, newId, acceptTl]

theorem State.Canon.endLanding (h : s.Canon) (l : Landing) (data : List Byte) : (s.endLanding l data).Canon := by
  unfold State.endLanding
  grind [State.Canon, scratchPut, modShare, areaWrite]

theorem execMcastLanding_canon (h : s.Canon) (o : JobOrigin) (seq : Nat) (va : Word) (len : Nat)
    : Out.Canon (execMcastLanding o seq va len s) := by
  unfold execMcastLanding
  grind [State.Canon, Out.Canon, State.Canon.once, State.Canon.beginLanding, State.Canon.gate, State.Canon.stopPeer]

theorem execMcastLandingComplete_canon (h : s.Canon) (landing : Nat) (data : List Byte)
    : Out.Canon (execMcastLandingComplete landing data s) := by
  unfold execMcastLandingComplete
  grind [State.Canon, Out.Canon, State.Canon.answer, State.Canon.endLanding]

theorem foldl_canon_of {α β : Type} (get : β → State) {f : β → α → β} (hf : ∀ b x, (get b).Canon → (get (f b x)).Canon) (l : List α) (b : β)
    (h : (get b).Canon) : (get (l.foldl f b)).Canon := by
  induction l generalizing b with
  | nil => exact h
  | cons x l ih => exact ih _ (hf b x h)

theorem State.Canon.contribute (h : s.Canon) (cmd : Nat) (x : CollCmd) (l : CollLane) : (s.contribute cmd x l).2.2.Canon := by
  refine foldl_canon_of (fun r : Nat × List Nat × State => r.2.2) (fun acc k hacc => ?_) _ _ h
  obtain ⟨st, due, t⟩ := acc
  grind [giveChunk, ask, takeExp]

theorem State.Canon.collLane (h : s.Canon) (o : Owner) (cmd : Nat) (x : CollCmd) (l : CollLane) : (s.collLane o cmd x l).2.2.Canon := by
  unfold State.collLane
  grind [ask, foldl, endLanding, vaReads, beginLanding, vaWrite, contribute]

theorem State.Canon.collSide (h : s.Canon) (o : Owner) (cmd : Nat) (x : CollCmd) : (s.collSide o cmd x).2.Canon := by
  refine foldl_canon_of (fun r : Bool × List CollLane × Nat × Nat × State => r.2.2.2.2) (fun acc l hacc => ?_) _ _ h
  obtain ⟨stop, done, st, moved, t⟩ := acc
  grind [collLane]

theorem State.Canon.getWrites (h : s.Canon) (o : Owner) (l : List CollLane) : (s.getWrites o l).2.2.Canon := by
  induction l generalizing s with
  | nil => exact h
  | cons l ls ih =>
    have hw : ((l.addrs.zip l.bytes).foldl (fun s p => State.copyWrite s o p.1 p.2) s).Canon :=
      State.Canon.foldl (fun _ _ hs => hs.copyWrite ..) _ h
    unfold State.getWrites
    split
    · exact h
    · exact ih (hw.engineOut ..)

theorem State.Canon.collFirst (h : s.Canon) (c : Cmd) (x : CollCmd) : (s.collFirst c x).Canon := by
  unfold State.collFirst
  grind [State.Canon, collSide, agree, foldl]

theorem State.Canon.collLast (h : s.Canon) (c : Cmd) (x : CollCmd) (r : RemoteResult) (data : List Byte) :
    (s.collLast c x r data).Canon := by
  unfold State.collLast
  grind [getWrites, settleJob, endCmd, answered, countMoved]

theorem execCollComplete_canon (h : s.Canon) (cmd : Nat) (r : RemoteResult) (data : List Byte) : Out.Canon (execCollComplete cmd r data s)
    := by
  unfold execCollComplete
  grind [State.Canon, Out.Canon, State.Canon.foldl, State.Canon.collLast, State.Canon.startFetch, State.Canon.collFirst]

theorem State.Canon.raiseGroup (h : s.Canon) (b : Block) (l : List Slice) (e : Ev) : (s.raiseGroup b l e).Canon := by
  unfold State.raiseGroup
  grind [State.Canon, foldl, raise]

theorem State.Canon.retireGroup {old : State} (h : s.Canon) (hold : old.Canon) (b : Block) (l : List Slice) :
    (State.retireGroup old s b l).Canon := by
  unfold State.retireGroup
  grind [State.Canon, retire, foldl]

theorem State.Canon.collAccept (h : s.Canon) (b : Block) (l : List Slice) : (s.collAccept b l).2.Canon := by
  unfold State.collAccept
  grind [foldl, publishHeldOf, newId, acceptTl]

theorem State.Canon.collNote (h : s.Canon) (b : Block) (l : List Slice) (d : Opd) (k : Note) : (s.collNote b l d k).Canon := by
  unfold State.collNote
  grind [foldl, modSlice]

theorem State.Canon.collNow (h : s.Canon) (b : Block) (l : List Slice) (d : Opd) (w : Word) : (s.collNow b l d w).Canon := by
  unfold State.collNow
  grind [collNote, completeTl, collAccept, retireGroup]

theorem State.Canon.collSent (h : s.Canon) (b : Block) (l : List Slice) (d : Opd) (x : CollCmd) : (s.collSent b l d x).Canon := by
  unfold State.collSent
  grind [State.Canon, collNote, collAccept, retireGroup]

theorem State.Canon.collRun (h : s.Canon) (g : Guard) (op : CollOp) (ty : Ty) (mode : Nat) (d a rb c : Opd) (b : Block) (l : List Slice)
    : (s.collRun g op ty mode d a rb c b l).Canon := by
  unfold State.collRun
  grind [collNow, collSent, raiseGroup]

theorem collGang_canon (h : s.Canon) (g : Guard) (op : CollOp) (ty : Ty) (mode : Nat) (d a rb c : Opd) (b : Block) (l : List Slice) :
    (collGang s g op ty mode d a rb c b l).Canon := by
  unfold collGang
  grind [State.Canon, Res.Canon, State.Canon.modBlock, State.Canon.collRun]

theorem execCollSend_canon (h : s.Canon) (g : Guard) (d a b c : Opd) : Out.Canon (execCollSend g d a b c s) := by
  unfold execCollSend
  grind [State.Canon, Out.Canon, State.Canon.perGang, collGang_canon]

theorem execCollGet_canon (h : s.Canon) (g : Guard) (d a b c : Opd) : Out.Canon (execCollGet g d a b c s) := by
  unfold execCollGet
  grind [State.Canon, Out.Canon, State.Canon.perGang, collGang_canon]

theorem execCollRsend_canon (h : s.Canon) (g : Guard) (ty : Ty) (m : CollMode) (d a b c : Opd) : Out.Canon (execCollRsend g ty m d a b c s)
    := by
  unfold execCollRsend
  grind [State.Canon, Out.Canon, State.Canon.perGang, collGang_canon]

theorem execCollMcast_canon (h : s.Canon) (g : Guard) (d a b c : Opd) : Out.Canon (execCollMcast g d a b c s) := by
  unfold execCollMcast
  grind [State.Canon, Out.Canon, State.Canon.perGang, collGang_canon]

theorem State.Canon.peerPut (h : s.Canon) (p : Phys) (bs : List Byte) : (State.peerDo.put p s bs).Canon :=
  State.Canon.foldl (fun s b hs => by unfold State.Canon; exact Memory.wf_bankPoke _ _ hs) _ h

theorem State.Canon.peerDo (h : s.Canon) (p : Phys) (r : RemoteReq) : (s.peerDo p r).2.Canon := by
  have hw (d : List Byte) : (d.zipIdx.foldl (fun (s : State) b => { s with mem := s.mem.poke (s.keyOf p b.2) b.1 }) s).Canon :=
    State.Canon.foldl (fun s b hs => by unfold State.Canon; exact Memory.wf_poke _ _ hs) _ h
  unfold State.peerDo
  cases r <;> grind [peerPut]

theorem State.Canon.peerServe (h : s.Canon) (src tag pa n : Nat) (w read : Bool) (r : RemoteReq) :
    (s.peerServe src tag pa n w read r).Canon := by
  unfold State.peerServe
  grind [post, answer, peerDo]

theorem execRemoteRequestReceive_canon (h : s.Canon) (r : RemoteReq) : Out.Canon (execRemoteRequestReceive r s) := by
  unfold execRemoteRequestReceive Out.Canon
  simp only
  cases r with
  | read => exact h.peerServe ..
  | write => exact h.peerServe ..
  | atom => exact h.peerServe ..
  | atomc => exact h.peerServe ..
  | atomw => exact h.peerServe ..
  | collWrite o job seq va d =>
    refine h.gate _ _ _ fun s hs => hs.once _ _ fun s hs => ?_
    split
    · exact hs.stopPeer ..
    · split
      · next e => exact (hs.rangeWait e).later _
      · exact (hs.vaWrite ..).answer ..
  | collRead o job seq va n =>
    refine h.gate _ _ _ fun s hs => hs.once _ _ fun s hs => ?_
    grind [State.Canon.stopPeer, State.Canon.later, State.Canon.answer, State.Canon.vaReads]

/-! ### Machine/Launch -/

theorem sendLaunch_canon (d : Option Nat) : Sender.Canon (sendLaunch d) := by
  unfold sendLaunch
  grind [State.Canon, Sender.Canon, Issued.Canon, State.Canon.appendEntry, State.Canon.free, State.Canon.publishHeldOf]

theorem execLaunch_canon (h : s.Canon) (g : Guard) (d a b : Opd) : Out.Canon (execLaunch g d a b s) := by
  unfold execLaunch
  grind [State.Canon, Out.Canon, State.Canon.perGang, State.Canon.cmdGang, sendLaunch_canon]

theorem sendEvop_canon (set : Bool) : Sender.Canon (sendEvop set) := by
  unfold sendEvop
  grind [State.Canon, Sender.Canon, Issued.Canon, State.Canon.setBits, State.Canon.releaseHeld, State.Canon.clearBits]

theorem evopGang_canon (h : s.Canon) (i : Instr) (set : Bool) (g : Guard) (a b : Opd) : (evopGang i set g a b s).Canon := by
  unfold evopGang
  grind [State.Canon.perGang, State.Canon.cmdGang, sendEvop_canon]

theorem execEvopSet_canon (h : s.Canon) (g : Guard) (a b : Opd) : Out.Canon (execEvopSet g a b s) := by
  unfold execEvopSet
  grind [State.Canon, Out.Canon, evopGang_canon]

theorem execEvopClr_canon (h : s.Canon) (g : Guard) (a b : Opd) : Out.Canon (execEvopClr g a b s) := by
  unfold execEvopClr
  grind [State.Canon, Out.Canon, evopGang_canon]

theorem State.Canon.hqsub (h : s.Canon) (hq : Nat) (addr : Word) : (s.hqsub hq addr).Canon := by
  unfold State.hqsub
  grind [modHq, appendEntry]

theorem State.Canon.recallHead (h : s.Canon) (q : Nat) : (s.recallHead q).Canon := by
  unfold State.recallHead
  grind [State.Canon.recall]

theorem State.Canon.hqctlRestart (h : s.Canon) (hq : Nat) : (s.hqctlRestart hq).Canon := by
  unfold State.hqctlRestart
  grind [recallHead, modHq]

theorem State.Canon.hqctlRemoveHead (h : s.Canon) (hq : Nat) : (s.hqctlRemoveHead hq).Canon := by
  unfold State.hqctlRemoveHead
  grind [State.Canon.recall, State.Canon.modHq, State.Canon.modNode]

theorem State.Canon.hqctlClearOvf (h : s.Canon) (hq : Nat) : (s.hqctlClearOvf hq).Canon := by
  unfold State.hqctlClearOvf
  grind [modHq]

theorem State.Canon.putEntry (h : s.Canon) (q : Nat) (e : HqEntry) : (s.putEntry q e).Canon :=
  h

theorem State.Canon.checkEntry (h : s.Canon) (hq : Nat) (e : HqEntry) : (s.checkEntry hq e).Canon := by
  unfold State.checkEntry
  grind [putEntry, readsAll, nodeFails]

theorem execRecordHeadCheck_canon (h : s.Canon) (hq : Nat) : Out.Canon (execRecordHeadCheck hq s) := by
  unfold execRecordHeadCheck
  grind [State.Canon, Out.Canon, State.Canon.checkEntry]

theorem execNodeEnterPool_canon (h : s.Canon) (hq pos : Nat) : Out.Canon (execNodeEnterPool hq pos s) := by
  unfold execNodeEnterPool
  grind [State.Canon, Out.Canon, State.Canon.putEntry, State.Canon.newId]

theorem State.Canon.dispatchLaunch (h : s.Canon) (q : Nat) (e : HqEntry) : (s.dispatchLaunch q e).Canon :=
  h

theorem State.Canon.dispatchCmd (h : s.Canon) (q : Nat) (e : HqEntry) (kind : CmdKind) : (s.dispatchCmd q e kind).Canon := by
  unfold State.dispatchCmd
  grind [State.Canon, dropEntry, newId]

theorem State.Canon.dispatchDone (h : s.Canon) (q : Nat) (e : HqEntry) : (s.dispatchDone q e).Canon := by
  unfold State.dispatchDone
  grind [nodeEnds, dropEntry, writeFlag]

theorem State.Canon.nodeStart (h : s.Canon) (q : Nat) (e : HqEntry) (job idesc : Nat) : (s.nodeStart q e job idesc).Canon := by
  unfold State.nodeStart
  grind [dispatchDone, openInst, nodeFails]

theorem State.Canon.dispatchColl (h : s.Canon) (q : Nat) (e : HqEntry) (n : GNode) : (s.dispatchColl q e n).Canon := by
  unfold State.dispatchColl
  grind [dispatchDone, nodeStart, nodeFails, dispatchCmd]

theorem State.Canon.flagWaitD (h : s.Canon) {t : State} (ht : t.Canon) (c va : Nat) : ((s.flagWait c va).getD t).Canon := by
  cases e : s.flagWait c va with
  | none => exact ht
  | some u => exact h.flagWait e

theorem State.Canon.dispatchCopy (h : s.Canon) (q : Nat) (e : HqEntry) (n : GNode) : (s.dispatchCopy q e n).Canon := by
  unfold State.dispatchCopy
  grind [dispatchDone, flagWaitD, nodeFails, dispatchCmd, writeFlag]

theorem State.Canon.dispatchRed (h : s.Canon) (q : Nat) (e : HqEntry) (n : GNode) : (s.dispatchRed q e n).Canon := by
  unfold State.dispatchRed
  grind [dispatchDone, flagWaitD, nodeFails, dispatchCmd, writeFlag]

theorem State.Canon.dispatch (h : s.Canon) (q : Nat) (e : HqEntry) : (s.dispatch q e).Canon := by
  unfold State.dispatch
  grind [dispatchColl, dispatchLaunch, dispatchCopy, readsAll, dispatchRed]

theorem execNodeDispatch_canon (h : s.Canon) (hq pos : Nat) : Out.Canon (execNodeDispatch hq pos s) := by
  unfold execNodeDispatch
  grind [State.Canon, Out.Canon, State.Canon.dispatch]

theorem State.Canon.setGres (h : s.Canon) (slot st : Nat) : (s.setGres slot st).Canon := by
  unfold State.setGres
  grind [State.Canon]

theorem State.Canon.graphUpload (h : s.Canon) (addr : Word) : (s.graphUpload addr).Canon := by
  unfold State.graphUpload
  grind [State.Canon, foldl, readsAll, later, setGres]

theorem State.Canon.graphFree (h : s.Canon) (slot : Nat) : (s.graphFree slot).Canon := by
  unfold State.graphFree
  grind [State.Canon, later]

theorem State.Canon.graphKick (h : s.Canon) (slot : Nat) (table : Word) : (s.graphKick slot table).Canon := by
  unfold State.graphKick
  grind [modGraph, readsAll, later]

theorem State.Canon.appendNodes (h : s.Canon) (slot : Nat) (l : List (GNode × Nat)) : (s.appendNodes slot l).2.Canon := by
  induction l generalizing s with
  | nil => exact h
  | cons x rest ih =>
    obtain ⟨n, i⟩ := x
    have ha := h.appendEntry n.hq 0 (some (slot, i))
    unfold State.appendNodes
    split
    · exact h
    · next e => exact ih (State.Canon.modNode (by rw [e] at ha; exact ha) ..)

theorem State.Canon.beginKick (h : s.Canon) (g : Graph) (k : Kick) : (s.beginKick g k).Canon := by
  unfold State.beginKick
  grind [modNode, foldl, clearBits]

theorem State.Canon.feedKick (h : s.Canon) (slot : Nat) (k : Kick) (ks : List Kick) : (s.feedKick slot k ks).Canon := by
  unfold State.feedKick
  grind [modGraph, appendNodes]

theorem execGraphKickProceed_canon (h : s.Canon) (slot : Nat) : Out.Canon (execGraphKickProceed slot s) := by
  unfold execGraphKickProceed
  grind [State.Canon, Out.Canon, State.Canon.feedKick, State.Canon.beginKick]

/-! ### Machine/Matrix -/

theorem State.Canon.settleObjs (h : s.Canon) (blk share : Nat) : (s.settleObjs blk share).Canon := by
  unfold State.settleObjs
  grind [modShare]

theorem State.Canon.settleZeros (h : s.Canon) (n : Nat) : (State.settleZeros n s).Canon := by
  induction n generalizing s with
  | zero => exact h
  | succ n ih =>
    unfold State.settleZeros
    split
    · exact h
    · exact ih (h.modShare ..)

theorem State.Canon.settleTasks (h : s.Canon) (blk share : Nat) : (s.settleTasks blk share).Canon := by
  unfold State.settleTasks
  grind [settleZeros, settleObjs]

theorem State.Canon.holdRoom (h : s.Canon) (b : Block) (sl : Slice) (t : TaskRec) : (s.holdRoom b sl t).Canon := by
  unfold State.holdRoom
  grind [modShare, modSlice]

theorem sendPush_canon  : Sender.Canon (sendPush) := by
  unfold sendPush
  grind [State.Canon, Sender.Canon, Issued.Canon, State.Canon.holdRoom, State.Canon.modShare, State.Canon.acceptTl]

theorem execQpostTask_canon (h : s.Canon) (g : Guard) (a : Opd) : Out.Canon (execQpostTask g a s) := by
  unfold execQpostTask
  grind [State.Canon, Out.Canon, State.Canon.perGang, sendPush_canon, State.Canon.cmdGang]

theorem execTileTaskStart_canon (h : s.Canon) (core : Nat) : Out.Canon (execTileTaskStart core s) := by
  unfold execTileTaskStart
  grind [State.Canon, Out.Canon]

theorem State.Canon.taskDone (h : s.Canon) (t : Task) : (s.taskDone t).Canon := by
  unfold State.taskDone
  grind [State.Canon, completeTl, modShare, settleTasks]

theorem State.Canon.chunkDone (h : s.Canon) (t : Task) (b : Block) (sl : Slice) : (s.chunkDone t b sl).Canon := by
  unfold State.chunkDone
  grind [State.Canon, modShare, foldl, taskDone, afterLoads]

theorem execTileChunkEnd_canon (h : s.Canon) (task : Nat) : Out.Canon (execTileChunkEnd task s) := by
  unfold execTileChunkEnd
  grind [State.Canon, Out.Canon, State.Canon.chunkDone]

theorem State.Canon.tileDone (h : s.Canon) (g : Guard) (b : Block) (l : List Slice) {f : State → Block → Slice → State}
    (hf : ∀ s b x, State.Canon s → (f s b x).Canon) : (s.tileDone g b l f).Canon := by
  unfold State.tileDone
  grind [modSlice, overSlices_canon]

theorem State.Canon.tileGang (h : s.Canon) (g : Guard) (b : Block) (l : List Slice) (tiles : Slice → List Nat) (check : Slice → Option Ev)
    {enter f : State → Block → Slice → State} (he : ∀ s b x, State.Canon s → (enter s b x).Canon)
    (hf : ∀ s b x, State.Canon s → (f s b x).Canon) : (s.tileGang g b l tiles check enter f).Canon := by
  unfold State.tileGang
  grind [State.Canon, Res.Canon, tileDone, modBlock, foldl]

theorem sendMzero_canon  : Sender.Canon (sendMzero) := by
  unfold sendMzero
  grind [State.Canon, Sender.Canon, Issued.Canon, State.Canon.modShare, State.Canon.settleTasks]

theorem State.Canon.retile (h : s.Canon) (b : Block) (sl : Slice) (t : Nat) (x : Tile) : (s.retile b sl t x).Canon := by
  unfold State.retile
  grind [modShare]

theorem State.Canon.setTile (h : s.Canon) (b : Block) (sl : Slice) (t : Nat) (x : Tile) : (s.setTile b sl t x).Canon := by
  unfold State.setTile
  grind [modShare]

theorem mzeroEnter_canon (h : s.Canon) (d : Opd) (b : Block) (sl : Slice) : (mzeroEnter d s b sl).Canon := by
  unfold mzeroEnter
  grind [State.Canon.retile]

theorem mzeroOne_canon (h : s.Canon) (d : Opd) (b : Block) (sl : Slice) : (mzeroOne d s b sl).Canon := by
  unfold mzeroOne
  grind [State.Canon.setTile]

theorem execMzero_canon (h : s.Canon) (g : Guard) (d : Opd) : Out.Canon (execMzero g d s) := by
  unfold execMzero
  grind [State.Canon, Out.Canon, State.Canon.perGang, State.Canon.cmdGang, mzeroEnter_canon, sendMzero_canon, State.Canon.tileGang,
    mzeroOne_canon]

theorem memitOne_canon (h : s.Canon) (g : Guard) (main : Bool) (d : Opd) (n : Nat) (b c : Opd) (blk : Block) (sl : Slice) :
    (memitOne g main d n b c s blk sl).Canon := by
  unfold memitOne
  grind [State.Canon.scratchPut, State.Canon.modSlice]

theorem execMemit_canon (h : s.Canon) (g : Guard) (main : Bool) (d a b c : Opd) : Out.Canon (execMemit g main d a b c s) := by
  exact h.perSerial fun blk l => h.tileGang _ _ _ _ _ (fun _ _ _ hs => hs) fun _ b x hs => memitOne_canon hs ..

theorem msaveOne_canon (h : s.Canon) (a b : Opd) (blk : Block) (sl : Slice) : (msaveOne a b s blk sl).Canon :=
  h

theorem execMsave_canon (h : s.Canon) (g : Guard) (a b : Opd) : Out.Canon (execMsave g a b s) := by
  exact h.perSerial fun blk l => h.tileGang _ _ _ _ _ (fun _ _ _ hs => hs) fun _ b x hs => msaveOne_canon hs ..

theorem mloadEnter_canon (h : s.Canon) (d a : Opd) (blk : Block) (sl : Slice) : (mloadEnter d a s blk sl).Canon := by
  unfold mloadEnter
  grind [State.Canon.retile]

theorem mloadOne_canon (h : s.Canon) (d a : Opd) (blk : Block) (sl : Slice) : (mloadOne d a s blk sl).Canon := by
  unfold mloadOne
  grind [State.Canon.setTile]

theorem execMload_canon (h : s.Canon) (g : Guard) (d a : Opd) : Out.Canon (execMload g d a s) := by
  unfold execMload
  grind [State.Canon, Out.Canon, State.Canon.perSerial, mloadOne_canon, State.Canon.tileGang, mloadEnter_canon]

theorem initOne_canon {s0 : State} (h : s.Canon) (a b c : Opd) (blk : Block) (sl : Slice) : (initOne s0 a b c s blk sl).Canon := by
  unfold initOne
  grind [State.Canon.modShare]

theorem execMbobjInit_canon (h : s.Canon) (g : Guard) (a b c : Opd) : Out.Canon (execMbobjInit g a b c s) := by
  refine h.perSerial fun blk l => ?_
  split
  · trivial
  · split
    · exact h
    · exact h.tileDone _ _ _ fun _ _ _ hs => initOne_canon hs ..

theorem sendArrive_canon  : Sender.Canon (sendArrive) := by
  unfold sendArrive
  grind [State.Canon, Sender.Canon, Issued.Canon, State.Canon.modShare, State.Canon.modSlice, State.Canon.settleObjs]

theorem execMbobjArrive_canon (h : s.Canon) (g : Guard) (a b : Opd) : Out.Canon (execMbobjArrive g a b s) := by
  unfold execMbobjArrive
  grind [State.Canon, Out.Canon, State.Canon.perGang, State.Canon.cmdGang, sendArrive_canon]

theorem execMbobjWait_canon (h : s.Canon) (g : Guard) (a b : Opd) : Out.Canon (execMbobjWait g a b s) := by
  refine h.perSerial fun blk l => ?_
  simp only
  split
  · trivial
  · split
    · exact h.tileDone _ _ _ fun _ _ _ hs => hs
    · split
      · split
        · exact (h.modBlock ..).modBlock ..
        · exact (h.modBlock ..).emptyQuanta ..
      · exact h.modBlock ..

/-! ### Machine/System -/

theorem execTrap_canon (h : s.Canon) (g : Guard) (n : BitVec 8) : Out.Canon (execTrap g n s) := by
  refine h.perGang fun blk l => ?_
  split
  · trivial
  · exact h

theorem State.Canon.eretDone (h : s.Canon) (g : Guard) (b : Block) (l : List Slice) : (s.eretDone g b l).Canon := by
  unfold State.eretDone
  grind [retire, foldl, reExecuteAll, modSlice]

theorem execEret_canon (h : s.Canon) (g : Guard) : Out.Canon (execEret g s) := by
  unfold execEret
  grind [State.Canon, Out.Canon, State.Canon.eretDone, State.Canon.raise]

theorem sleepGang_canon (h : s.Canon) (g : Guard) (a : Opd) (b : Block) (l : List Slice) : (sleepGang s g a b l).Canon := by
  unfold sleepGang
  grind [State.Canon, Res.Canon, State.Canon.modBlock]

theorem execSleep_canon (h : s.Canon) (g : Guard) (a : Opd) : Out.Canon (execSleep g a s) := by
  unfold execSleep
  grind [State.Canon, Out.Canon, State.Canon.perGang, sleepGang_canon]

theorem execSleepExpiry_canon (h : s.Canon) (blk slice : Nat) : Out.Canon (execSleepExpiry blk slice s) := by
  unfold execSleepExpiry
  grind [State.Canon, Out.Canon, State.Canon.modSlice]

theorem execWordNotInstruction_canon (h : s.Canon) (check : Nat) : Out.Canon (execWordNotInstruction check s) := by
  unfold execWordNotInstruction
  grind [State.Canon, Out.Canon, State.Canon.raise]

theorem State.Canon.answerRec (h : s.Canon) (c id : Nat) : (s.answerRec c id).Canon := by
  unfold State.answerRec
  grind [setCtx, feedRing]

theorem State.Canon.resume (h : s.Canon) (o : Outstanding) : (s.resume o).Canon := by
  unfold State.resume
  grind [State.Canon, retire, modBlock, reExecuteAll]

theorem State.Canon.pfresResume (h : s.Canon) (ctx id : Nat) : (s.pfresResume ctx id).Canon := by
  unfold State.pfresResume
  grind [resume, answerRec]

theorem State.Canon.pfresFail (h : s.Canon) (ctx id : Nat) : (s.pfresFail ctx id).Canon := by
  unfold State.pfresFail
  grind [contextFault]

theorem State.Canon.faultClear (h : s.Canon) (ctx : Nat) : (s.faultClear ctx).Canon := by
  unfold State.faultClear
  grind [setCtx]

theorem State.Canon.tlbinv (h : s.Canon) (ctx : Nat) : (s.tlbinv ctx).Canon := by
  unfold State.tlbinv
  split
  · exact h
  · exact Memory.wf_same rfl rfl h

theorem State.Canon.holdUnit (h : s.Canon) (c : Nat) (blk : Option (Block × Slice)) (e : Ev) (source : Nat) (src : FaultSrc) :
    (s.holdUnit c blk e source src).2.Canon := by
  unfold State.holdUnit
  grind [report]

theorem State.Canon.taskPerm (h : s.Canon) (t : Task) (b : Block) (x : Slice) (e : Ev) : (s.taskPerm t b x e).Canon := by
  unfold State.taskPerm
  grind [State.Canon, contextFault, raise]

theorem State.Canon.commandEvent (h : s.Canon) (c : Cmd) (e : Ev) (source : Nat) : (s.commandEvent c e source).Canon := by
  unfold State.commandEvent
  grind [State.Canon, commandFault, holdUnit]

theorem State.Canon.taskEvent (h : s.Canon) (t : Task) (b : Block) (x : Slice) (e : Ev) : (s.taskEvent t b x e).Canon := by
  unfold State.taskEvent
  grind [State.Canon, contextFault, taskPerm, holdUnit]

theorem execEngineAccessFault_canon (h : s.Canon) (id : Nat) : Out.Canon (execEngineAccessFault id s) := by
  unfold execEngineAccessFault
  grind [State.Canon, Out.Canon, State.Canon.commandEvent, State.Canon.taskEvent]

/-! ### Machine/Placement -/

theorem State.Canon.revive (h : s.Canon) (b : Block) : (s.revive b).Canon := by
  unfold State.revive
  grind [State.Canon, reExecuteAll]

theorem State.Canon.wake (h : s.Canon) (l : List (Nat × Nat)) : (s.wake l).Canon :=
  h

theorem State.Canon.cleanShare (h : s.Canon) (t : Tenant) : (s.cleanShare t).Canon :=
  h

theorem State.Canon.startUnit (h : s.Canon) (l : Launch) (w : WaitUnit) (bs : List Block) (ts : List Tenant) :
    (s.startUnit l w bs ts).Canon := by
  unfold State.startUnit
  grind [State.Canon, dropEntry, cleanShare, foldl, revive, modLaunch]

theorem State.Canon.preemptUnit (h : s.Canon) (launch unit : Nat) : (s.preemptUnit launch unit).Canon := by
  unfold State.preemptUnit
  grind [State.Canon, foldl]

theorem State.Canon.afterLeaving (h : s.Canon) : (s.afterLeaving).Canon :=
  h

theorem State.Canon.askRoom (h : s.Canon) (l : Launch) : (s.askRoom l).Canon := by
  unfold State.askRoom
  grind [preemptUnit, foldl, afterLeaving]

theorem State.Canon.placeUnit (h : s.Canon) (l : Launch) (w : WaitUnit) (places : List Nat) : (s.placeUnit l w places).Canon := by
  unfold State.placeUnit
  grind [wake, askRoom, startUnit, faultCtx]

theorem execBlockPlacement_canon (h : s.Canon) (launch : Nat) (cores : List Nat) : Out.Canon (execBlockPlacement launch cores s) := by
  unfold execBlockPlacement
  grind [State.Canon, Out.Canon, State.Canon.placeUnit]

theorem State.Canon.reap (h : s.Canon) (b : Block) : (s.reap b).Canon := by
  unfold State.reap
  grind [State.Canon, publishAll, modLaunch]

theorem State.Canon.endLaunch (h : s.Canon) (l : Launch) : (s.endLaunch l).Canon := by
  unfold State.endLaunch
  grind [State.Canon, setBits, modNode]

theorem execLaunchComplete_canon (h : s.Canon) (launch : Nat) : Out.Canon (execLaunchComplete launch s) := by
  unfold execLaunchComplete
  grind [State.Canon, Out.Canon, State.Canon.endLaunch]

/-! ### Machine/Preempt -/

theorem State.Canon.writeImage (h : s.Canon) (l : Launch) (a : Nat) (b : Block) : (s.writeImage l a b).Canon := by
  unfold State.writeImage
  grind [State.Canon, foldl, areaWrite]

theorem State.Canon.writeImages (h : s.Canon) (l : Launch) (a : Nat) (bs : List Block) : (s.writeImages l a bs).Canon := by
  induction bs generalizing s a with
  | nil => exact h
  | cons b bs ih =>
    unfold State.writeImages
    exact ih (h.writeImage ..) _

theorem State.Canon.withdraw (h : s.Canon) (uids : List Nat) : (s.withdraw uids).Canon :=
  h

theorem State.Canon.saveUnit (h : s.Canon) (l : Launch) (p : Preempt) (bs : List Block) : (s.saveUnit l p bs).Canon := by
  have hp : ((bs.map fun b => b.uid).foldl State.publishAll (s.withdraw (bs.map fun b => b.uid))).Canon :=
    State.Canon.foldl (fun _ _ hs => hs.publishAll _) _ (h.withdraw _)
  have hc (ts : List Tenant) : (ts.foldl State.cleanShare
      ((bs.map fun b => b.uid).foldl State.publishAll (s.withdraw (bs.map fun b => b.uid)))).Canon :=
    State.Canon.foldl (fun _ _ hs => hs.cleanShare _) ts hp
  have hw (ts : List Tenant) (us : List Block) := (hc ts).writeImages l p.addr us
  unfold State.saveUnit
  grind [State.Canon, Memory.wf_same, modLaunch]

theorem State.Canon.flushUnit (h : s.Canon) (l : Launch) (p : Preempt) (bs : List Block) : (s.flushUnit l p bs).Canon := by
  unfold State.flushUnit
  grind [State.Canon, publishAll, foldl, withdraw, modLaunch]

theorem State.Canon.dropPreempt (h : s.Canon) (launch unit : Nat) : (s.dropPreempt launch unit).Canon :=
  h

theorem execChrysalisSaveComplete_canon (h : s.Canon) (launch unit : Nat) : Out.Canon (execChrysalisSaveComplete launch unit s) := by
  unfold execChrysalisSaveComplete
  grind [State.Canon, Out.Canon, State.Canon.dropPreempt, State.Canon.saveUnit, State.Canon.flushUnit]

theorem execDrainTimeout_canon (h : s.Canon) (launch unit : Nat) : Out.Canon (execDrainTimeout launch unit s) := by
  unfold execDrainTimeout
  grind [State.Canon, Out.Canon]

theorem State.Canon.preemptCtx (h : s.Canon) (c : Nat) : (s.preemptCtx c).Canon := by
  unfold State.preemptCtx
  grind [preemptUnit, foldl]

theorem execPreempt_canon (h : s.Canon) (ctx : Nat) : Out.Canon (execPreempt ctx s) := by
  unfold execPreempt
  grind [State.Canon, Out.Canon, State.Canon.preemptCtx]

theorem State.Canon.tickBuckets (h : s.Canon) (bytes energy : List Nat) : (s.tickBuckets bytes energy).Canon :=
  h

theorem State.Canon.leaveCores (h : s.Canon) : (s.leaveCores).Canon := by
  unfold State.leaveCores
  grind [foldl, preemptCtx]

theorem execTokenBucketTick_canon (h : s.Canon) (bytes energy : List Nat) : Out.Canon (execTokenBucketTick bytes energy s) := by
  unfold execTokenBucketTick
  grind [State.Canon, Out.Canon, State.Canon.tickBuckets, State.Canon.leaveCores]

/-! ### Machine/Det -/

theorem execQuantumEnd_canon (h : s.Canon) (blk gang : Nat) : Out.Canon (execQuantumEnd blk gang s) := by
  unfold execQuantumEnd
  grind [State.Canon, Out.Canon, State.Canon.modBlock]

theorem State.Canon.opmPoke (h : s.Canon) (c : Nat) (ws : List (Nat × Byte)) : (s.opmPoke c ws).Canon := by
  refine State.Canon.foldl (fun s w hs => ?_) _ h
  split
  · exact Memory.wf_same (m := s.mem) rfl rfl hs
  · exact hs

theorem sendCmaint_canon (sc : Scope) (k : MaintKind) : Sender.Canon (sendCmaint sc k) := by
  unfold sendCmaint
  grind [State.Canon, Sender.Canon, Issued.Canon, State.Canon.maintRange]

theorem senderOf_canon {r : LaunchRec} {i : Instr} {send : Sender} (e : senderOf r i = some send) : send.Canon := by
  unfold senderOf at e
  split at e <;> cases e
  · exact sendPush_canon
  · exact sendMzero_canon
  · exact sendArrive_canon
  · exact sendCpy_canon _
  · exact sendCpyt_canon _ _ _ _
  · exact sendCbook_canon _
  · exact sendQpost_canon _
  · exact sendMred_canon
  · exact sendMcmp_canon _ _ _
  · exact sendSpanfet_canon _
  · exact sendCmaint_canon _ _
  · exact sendSpanctl_canon fun _ _ _ hs => hs.setCap ..
  · exact sendSpanctl_canon fun _ _ _ hs => hs.setPol ..
  · exact sendSpanctl_canon fun _ _ _ hs => hs.evictSpan _

/-- Whatever committing an entry comes to, memory stays in canonical form. -/
def Committed.Canon : Committed → Prop
  | .done s => s.Canon
  | .waits s _ => s.Canon
  | .bad s _ => s.Canon

theorem State.Canon.commitStore (h : s.Canon) (b : Block) (sl : Slice) (x : BufStore) : (s.commitStore b sl x).Canon := by
  unfold State.commitStore
  grind [Committed.Canon, opmPoke, storeTick, modShare, tagAccess, travels, storeMark, startFetch, appendAll, writeBytes]

theorem State.Canon.commitEntry (h : s.Canon) (b : Block) (sl : Slice) (e : BufEntry) : (s.commitEntry b sl e).Canon := by
  unfold State.commitEntry
  cases e with
  | store x =>
    have hc := h.commitStore b sl x
    grind [Committed.Canon, modSlice]
  | command i pc am part id args f =>
    simp only
    split
    · exact h
    · next send e =>
      have hs := senderOf_canon e s.newId.2 b { sl with pc, buf := [] } s.newId.1 (args ++ if f then [1] else []) h.newId
      grind [Committed.Canon, Issued.Canon, State.Canon, modSlice]

theorem State.Canon.commitSlice (h : s.Canon) (blk num n : Nat) : (s.commitSlice blk num n).2.Canon := by
  induction n generalizing s with
  | zero => exact h
  | succ n ih =>
    unfold State.commitSlice
    split
    · exact h
    · next b x _ =>
      split
      · exact h
      · next e rest _ =>
        have hc := h.commitEntry b x e
        grind [Committed.Canon, State.Canon.modSlice, State.Canon.contextFault]

theorem State.Canon.commitAll (h : s.Canon) (blk : Nat) (l : List Slice) : (s.commitAll blk l).2.Canon := by
  induction l generalizing s with
  | nil => exact h
  | cons x xs ih =>
    have hc := h.commitSlice blk x.num (x.buf.length + 1)
    unfold State.commitAll
    grind

theorem execDetCommitPhase_canon (h : s.Canon) (blk : Nat) : Out.Canon (execDetCommitPhase blk s) := by
  unfold execDetCommitPhase
  grind [State.Canon, Out.Canon, State.Canon.modBlock, State.Canon.commitAll]

theorem State.Canon.newRound (h : s.Canon) (b : Block) : (s.newRound b).Canon := by
  unfold State.newRound
  grind [State.Canon, modBlock]

theorem execDetSerialPhase_canon (h : s.Canon) (blk : Nat) : Out.Canon (execDetSerialPhase blk s) := by
  unfold execDetSerialPhase
  grind [State.Canon, Out.Canon, State.Canon.modBlock, State.Canon.regangTry, State.Canon.foldl, State.Canon.newRound]

/-! ### Machine/Fetch -/

theorem State.Canon.fetchOne (h : s.Canon) (c : Nat) (v : VA) : (s.fetchOne c v).Canon := by
  unfold State.fetchOne
  grind [policyFetch, remember, sendOut]

theorem State.Canon.fetched (h : s.Canon) (b : Block) (l : List Slice) : (s.fetched b l).Canon := by
  unfold State.fetched
  grind [fetchOne, foldl]

/-! ### Machine/Host -/

theorem State.Canon.ctxRegWrite (h : s.Canon) (c off : Nat) (v : Word) : (s.ctxRegWrite c off v).Canon := by
  unfold State.ctxRegWrite
  grind [pfresResume, tlbinv, pfresFail, preemptCtx, setCtx, faultClear]

theorem State.Canon.bindQueue (h : s.Canon) (q : Nat) (v : Word) : (s.bindQueue q v).Canon :=
  h

theorem State.Canon.bindJob (h : s.Canon) (j : Nat) (v : Word) : (s.bindJob j v).Canon :=
  h

theorem State.Canon.queueWrite (h : s.Canon) (q off : Nat) (v : Word) : (s.queueWrite q off v).Canon := by
  unfold State.queueWrite
  grind [hqctlClearOvf, hqsub, hqctlRestart, hqctlRemoveHead, bindQueue]

theorem State.Canon.windowWrite (h : s.Canon) (off : Nat) (v : Word) : (s.windowWrite off v).Canon := by
  unfold State.windowWrite
  grind [graphKick, queueWrite, bindJob, ctxRegWrite, graphFree, graphUpload]

theorem State.Canon.hostAnswer (h : s.Canon) (bs : List Byte) : (s.hostAnswer bs).Canon :=
  h

theorem State.Canon.hostPoke (h : s.Canon) (pa : Nat) (data : List Byte) (en : List Bool) : (s.hostPoke pa data en).Canon := by
  unfold State.hostPoke
  grind [State.Canon, Memory.wf_pokeMany]

theorem execHostMemoryAccess_canon (h : s.Canon) (op : HostOp) : Out.Canon (execHostMemoryAccess op s) := by
  unfold execHostMemoryAccess
  grind [State.Canon, Out.Canon, State.Canon.hostPoke, Memory.wf_pokeMany, State.Canon.hostAnswer]

theorem execRootMailboxCommand_canon (h : s.Canon) (c : MailCmd) : Out.Canon (execRootMailboxCommand c s) := by
  unfold execRootMailboxCommand
  grind [State.Canon, Out.Canon, State.Canon.modPort]

theorem State.Canon.publishPage (h : s.Canon) (page : Nat) : (s.publishPage page).Canon :=
  Memory.wf_foldl (fun _ _ => Memory.wf_publishLine _ _) _ _ h

theorem execPageMigrationFreeze_canon (h : s.Canon) (page : Nat) (on : Bool) : Out.Canon (execPageMigrationFreeze page on s) := by
  have hp : (if on then s.publishPage page else s).Canon := by grind [State.Canon.publishPage]
  exact Memory.wf_same rfl rfl hp

theorem State.Canon.setBank (h : s.Canon) (core bank : Nat) (st : BankState) : (s.setBank core bank st).Canon :=
  h

theorem execRetentionEntry_canon (h : s.Canon) (core bank : Nat) : Out.Canon (execRetentionEntry core bank s) := by
  unfold execRetentionEntry
  grind [State.Canon, Out.Canon, State.Canon.setBank]

theorem execRetentionExitDone_canon (h : s.Canon) (core bank : Nat) : Out.Canon (execRetentionExitDone core bank s) := by
  unfold execRetentionExitDone
  grind [State.Canon, Out.Canon, State.Canon.setBank]

theorem State.Canon.addPoison (h : s.Canon) (base : Nat) : (s.addPoison base).Canon :=
  h

theorem execMemorySoftError_canon (h : s.Canon) (site : ErrSite) (correctable : Bool) : Out.Canon (execMemorySoftError site correctable s)
    := by
  unfold execMemorySoftError
  grind [State.Canon, Out.Canon, State.Canon.addPoison]

theorem State.Canon.endOutstanding (h : s.Canon) (code : Nat) : (s.endOutstanding code).Canon := by
  unfold State.endOutstanding
  grind [commandFault, foldl]

theorem State.Canon.linkDies (h : s.Canon) (p : Nat) : (s.linkDies p).Canon := by
  unfold State.linkDies
  grind [modPort, resend, endOutstanding]

theorem State.Canon.flood (h : s.Canon) (dev epoch : Nat) : (s.flood dev epoch).Canon := by
  unfold State.flood
  grind [State.Canon, carry, foldl, put]

theorem State.Canon.losePeer (h : s.Canon) (dev epoch : Nat) : (s.losePeer dev epoch).Canon := by
  unfold State.losePeer
  grind [State.Canon, commandFault, flood, foldl, faultCtx, endOutstanding]

/-- Dropping bytes that no cache holds. -/
theorem Memory.wf_dropRam {m n : Memory} {a z : Nat} (ha : 2 * 2 ^ 60 ≤ a) (hb : n.bank = m.bank)
    (hr : n.ram = m.ram.filter fun c => !(a ≤ c.1 && c.1 < z)) (h : m.wf = true) : n.wf = true := by
  by_cases hz : a ≤ z
  · obtain ⟨w, rfl⟩ := Nat.exists_eq_add_of_le hz
    exact Memory.wf_ramOnly hb (hr ▸ Cells.wf_filter _ ((Memory.wf_iff m).mp h).1) (fun j hj => Memory.peek_filter hr hj ha) h
  · refine Memory.wf_same (hr.trans (List.filter_eq_self.mpr fun c _ => ?_)) hb h
    simp only [Bool.not_eq_true', Bool.and_eq_false_iff, decide_eq_false_iff_not]
    omega

theorem State.Canon.losePlane (h : s.Canon) (k : Nat) : (s.losePlane k).Canon := by
  unfold State.losePlane
  split
  · exact h
  · refine State.Canon.endOutstanding ?_ _
    exact Memory.wf_dropRam (m := s.mem) (a := switchKey k 0) (z := switchKey (k + 1) 0) (by unfold switchKey; omega) rfl rfl h

theorem State.Canon.settlePlanes (h : s.Canon) : (s.settlePlanes).Canon := by
  unfold State.settlePlanes
  grind [losePlane, foldl]

theorem execLinkDeathReport_canon (h : s.Canon) (reporter plane : Nat) : Out.Canon (execLinkDeathReport reporter plane s) := by
  unfold execLinkDeathReport
  grind [State.Canon, Out.Canon, State.Canon.losePeer, State.Canon.settlePlanes]

theorem execDeathNotice_canon (h : s.Canon) (dev epoch : Nat) : Out.Canon (execDeathNotice dev epoch s) := by
  unfold execDeathNotice
  grind [State.Canon, Out.Canon, State.Canon.flood, State.Canon.losePeer, State.Canon.settlePlanes]

theorem execPeerReadmission_canon (h : s.Canon) (dev epoch : Nat) : Out.Canon (execPeerReadmission dev epoch s) := by
  unfold execPeerReadmission
  grind [State.Canon, Out.Canon]

/-! ### Machine/Links -/

theorem execHeartbeatTimer_canon (h : s.Canon) (port : Nat) : Out.Canon (execHeartbeatTimer port s) := by
  unfold execHeartbeatTimer
  grind [State.Canon, Out.Canon, State.Canon.sendNow]

theorem State.Canon.replayFlits (h : s.Canon) (p : Nat) (l : List Kept) : (s.replayFlits p l).Canon := by
  unfold State.replayFlits
  grind [modPort, foldl, putFlit]

theorem State.Canon.sendWaiting (h : s.Canon) (p : Nat) : (s.sendWaiting p).Canon := by
  unfold State.sendWaiting
  grind [modPort, foldl, sendNow]

theorem State.Canon.acceptFlit (h : s.Canon) (port : Nat) (f : Flit) : (s.acceptFlit port f).Canon := by
  unfold State.acceptFlit
  grind [modPort, replayFlits, sendWaiting]

theorem State.Canon.refuseFlit (h : s.Canon) (port : Nat) (q : BitVec 12) : (s.refuseFlit port q).Canon := by
  unfold State.refuseFlit
  grind [modPort, sendNow, linkDies]

theorem execFlitReceive_canon (h : s.Canon) (port : Nat) (f : Flit) : Out.Canon (execFlitReceive port f s) := by
  unfold execFlitReceive
  grind [State.Canon, Out.Canon, State.Canon.acceptFlit, State.Canon.refuseFlit]

theorem execKeyInstall_canon (h : s.Canon) (port : Nat) (tx slot : Bool) (key : List Byte) (salt : BitVec 32) (limit : Nat)
    : Out.Canon (execKeyInstall port tx slot key salt limit s) := by
  unfold execKeyInstall
  grind [State.Canon, Out.Canon, State.Canon.modPort]

theorem execLinkTrainingComplete_canon (h : s.Canon) (port : Nat) : Out.Canon (execLinkTrainingComplete port s) := by
  unfold execLinkTrainingComplete
  grind [State.Canon, Out.Canon, State.Canon.modPort, State.Canon.repost]

theorem State.Canon.switchSlot (h : s.Canon) (port : Nat) (b : Bool) : (s.switchSlot port b).Canon := by
  unfold State.switchSlot
  grind [modPort, sendFlit]

theorem execKeySwitchover_canon (h : s.Canon) (port : Nat) : Out.Canon (execKeySwitchover port s) := by
  unfold execKeySwitchover
  grind [State.Canon, Out.Canon, State.Canon.switchSlot, State.Canon.linkDies]

theorem execDrainingSlotLimit_canon (h : s.Canon) (port : Nat) : Out.Canon (execDrainingSlotLimit port s) := by
  unfold execDrainingSlotLimit
  grind [State.Canon, Out.Canon, State.Canon.linkDies]

/-! ### Machine/Firmware -/

theorem State.Canon.afterReset (h : s.Canon) (leaf : Nat) : (s.afterReset leaf).Canon := by
  have hw := ((Memory.wf_iff _).mp h).1
  exact (Memory.wf_iff _).mpr ⟨Cells.wf_filter _ hw, rfl, fun c hc => by cases hc⟩

theorem execModuleReset_canon (h : s.Canon) : Out.Canon (execModuleReset s) := by
  unfold execModuleReset
  grind [State.Canon, Out.Canon, State.Canon.afterReset]

theorem execServiceImageDelivery_canon (h : s.Canon) (img : Image) : Out.Canon (execServiceImageDelivery img s) := by
  unfold execServiceImageDelivery
  grind [State.Canon, Out.Canon]

theorem execAttestationRequest_canon (h : s.Canon) (nonce : List Byte) : Out.Canon (execAttestationRequest nonce s) := by
  unfold execAttestationRequest
  grind [State.Canon, Out.Canon]

theorem execClockThrottle_canon (h : s.Canon) (watts : Nat) : Out.Canon (execClockThrottle watts s) := by
  unfold execClockThrottle
  grind [State.Canon, Out.Canon]

/-! ### Machine/Dispatch -/

/-- No instruction takes memory out of its canonical form. -/
theorem exec_canon (h : s.Canon) (i : Instr) : Out.Canon (exec i s) := by
  cases i with
  | nop => exact h.perSlice ..
  | bra => exact h.perMove ..
  | brp => exact h.perMove ..
  | brx => exact h.perMove ..
  | call => exact h.perMove ..
  | ret => exact h.perMove ..
  | loop => exact h.perMove ..
  | lbrk => exact h.perEnding ..
  | regang => exact execRegang_canon h ..
  | yield => exact execYield_canon h ..
  | exit => exact execExit_canon h ..
  | vote => exact h.perSlice ..
  | iadd => exact h.perSlice ..
  | imul => exact h.perSlice ..
  | imad => exact h.perSlice ..
  | iminmax => exact h.perSlice ..
  | logic => exact h.perSlice ..
  | shift => exact h.perSlice ..
  | bits => exact h.perSlice ..
  | bfx => exact h.perSlice ..
  | icmp => exact h.perSlice ..
  | sel => exact h.perSlice ..
  | mov => exact h.perSlice ..
  | lea => exact h.perSlice ..
  | hashCrc32c => exact h.perSlice ..
  | hashMix64 => exact h.perSlice ..
  | partRadix => exact h.perSlice ..
  | partRange => exact execPartRange_canon h ..
  | lane => exact execLane_canon h ..
  | pred => exact h.perSlice ..
  | fadd => exact execFadd_canon h ..
  | fmul => exact execFmul_canon h ..
  | ffma => exact h.perSlice ..
  | fminmax => exact execFminmax_canon h ..
  | fcmp => exact h.perSlice ..
  | fclass => exact h.perSlice ..
  | fapx => exact h.perSlice ..
  | fcvt => exact h.perSlice ..
  | fadd2 => exact h.perSlice ..
  | fmul2 => exact h.perSlice ..
  | ffma3 => exact h.perSlice ..
  | xadd => exact h.perSlice ..
  | xadds => exact h.perSlice ..
  | xmuls => exact h.perSlice ..
  | xrenorm => exact h.perSlice ..
  | xcomp => exact h.perSlice ..
  | xcmp => exact h.perSlice ..
  | xcvt => exact h.perSlice ..
  | setfmt => exact h.perSlice ..
  | getfmt => exact h.perSlice ..
  | qcvt => exact h.perSlice ..
  | qdec => exact h.perSlice ..
  | renc => exact h.perSlice ..
  | rmac => exact h.perSlice ..
  | rdec => exact h.perSlice ..
  | spack => exact h.perSlice ..
  | ld g ty sc => exact execLd_canon h g ty sc ..
  | scratchLoadReturn => exact execScratchLoadReturn_canon h ..
  | st => exact execSt_canon h ..
  | lds => exact execLds_canon h ..
  | sts => exact execSts_canon h ..
  | ldw g ty sc => exact execLdw_canon h g ty sc ..
  | stw => exact execStw_canon h ..
  | stsplit => exact execStsplit_canon h ..
  | ldsplit g ty sc => exact execLdsplit_canon h g ty sc ..
  | pref => exact execPref_canon h ..
  | cmaint => exact execCmaint_canon h ..
  | waitp => exact execWaitp_canon h ..
  | xlat => exact h.perSlice ..
  | heldStoreEviction => exact execHeldStoreEviction_canon h ..
  | fence => exact execFence_canon h ..
  | bar => exact execBar_canon h ..
  | barArrive => exact execBarArrive_canon h ..
  | barWait => exact execBarWait_canon h ..
  | barArrivedrop => exact execBarArrivedrop_canon h ..
  | tlwait => exact execTlwait_canon h ..
  | tlread => exact execTlread_canon h ..
  | qend => exact execQend_canon h ..
  | dsync => exact execDsync_canon h ..
  | quantumEnd => exact execQuantumEnd_canon h ..
  | detCommitPhase => exact execDetCommitPhase_canon h ..
  | detSerialPhase => exact execDetSerialPhase_canon h ..
  | atom => exact execAtom_canon h ..
  | redm => exact execRedm_canon h ..
  | atomc => exact execAtomc_canon h ..
  | atomw => exact execAtomw_canon h ..
  | append => exact execAppend_canon h ..
  | appendGrant => exact execAppendGrant_canon h ..
  | skopEnq => exact execSkopEnq_canon h ..
  | skopChase => exact execSkopChase_canon h ..
  | skipperReply => exact execSkipperReply_canon h ..
  | mzero => exact execMzero_canon h ..
  | memit => exact execMemit_canon h ..
  | msave => exact execMsave_canon h ..
  | mload => exact execMload_canon h ..
  | mbobjInit => exact execMbobjInit_canon h ..
  | mbobjArrive => exact execMbobjArrive_canon h ..
  | mbobjWait => exact execMbobjWait_canon h ..
  | qpostTask => exact execQpostTask_canon h ..
  | tileTaskStart => exact execTileTaskStart_canon h ..
  | tileChunkEnd => exact execTileChunkEnd_canon h ..
  | cpy => exact execCpy_canon h ..
  | cpyt => exact execCpyt_canon h ..
  | cbook => exact execCbook_canon h ..
  | copyComplete => exact execCopyComplete_canon h ..
  | qpost => exact execQpost_canon h ..
  | queuePacketPickup => exact execQueuePacketPickup_canon h ..
  | queuePacketComplete => exact execQueuePacketComplete_canon h ..
  | mred => exact execMred_canon h ..
  | mredComplete => exact execMredComplete_canon h ..
  | mcmp => exact execMcmp_canon h ..
  | mcmpComplete => exact execMcmpComplete_canon h ..
  | spanctlCap => exact execSpanctlCap_canon h ..
  | spanctlPol => exact execSpanctlPol_canon h ..
  | spanctlEvict => exact execSpanctlEvict_canon h ..
  | spanq => exact execSpanq_canon h ..
  | spanfet => exact execSpanfet_canon h ..
  | spanFetchArrival => exact execSpanFetchArrival_canon h ..
  | spanReplacement => exact execSpanReplacement_canon h ..
  | spanEvictionComplete => exact execSpanEvictionComplete_canon h ..
  | salloc => exact execSalloc_canon h ..
  | sfree => exact execSfree_canon h ..
  | collSend => exact execCollSend_canon h ..
  | collGet => exact execCollGet_canon h ..
  | collRsend => exact execCollRsend_canon h ..
  | collMcast => exact execCollMcast_canon h ..
  | collComplete => exact execCollComplete_canon h ..
  | cinstStart => exact execCinstStart_canon h ..
  | cinstQuery => exact h.perSlice ..
  | instanceAnnounceReceive => exact execInstanceAnnounceReceive_canon h ..
  | remoteRequestReceive => exact execRemoteRequestReceive_canon h ..
  | rnsExponentReceive => exact execRnsExponentReceive_canon h ..
  | chunkContributionArrive => exact execChunkContributionArrive_canon h ..
  | chunkFlagsReceive => exact execChunkFlagsReceive_canon h ..
  | mcastLanding => exact execMcastLanding_canon h ..
  | mcastLandingComplete => exact execMcastLandingComplete_canon h ..
  | launch => exact execLaunch_canon h ..
  | evopSet => exact execEvopSet_canon h ..
  | evopClr => exact execEvopClr_canon h ..
  | evopTest => exact h.perSlice ..
  | sysr => exact h.perSlice ..
  | sysw => exact h.perSlice ..
  | trap => exact execTrap_canon h ..
  | eret => exact execEret_canon h ..
  | sleep => exact execSleep_canon h ..
  | sleepExpiry => exact execSleepExpiry_canon h ..
  | hqsub => exact h.hqsub ..
  | hqctlRestart => exact h.hqctlRestart ..
  | hqctlRemoveHead => exact h.hqctlRemoveHead ..
  | hqctlClearOvf => exact h.hqctlClearOvf ..
  | recordHeadCheck => exact execRecordHeadCheck_canon h ..
  | nodeEnterPool => exact execNodeEnterPool_canon h ..
  | nodeDispatch => exact execNodeDispatch_canon h ..
  | blockPlacement => exact execBlockPlacement_canon h ..
  | chrysalisSaveComplete => exact execChrysalisSaveComplete_canon h ..
  | drainTimeout => exact execDrainTimeout_canon h ..
  | launchComplete => exact execLaunchComplete_canon h ..
  | graphUpload => exact h.graphUpload ..
  | graphFree => exact h.graphFree ..
  | graphKick => exact h.graphKick ..
  | graphKickProceed => exact execGraphKickProceed_canon h ..
  | pfresResume => exact h.pfresResume ..
  | pfresFail => exact h.pfresFail ..
  | preempt => exact execPreempt_canon h ..
  | tlbinv => exact h.tlbinv ..
  | faultClear => exact h.faultClear ..
  | hostRegisterWrite => exact h.windowWrite ..
  | tokenBucketTick => exact execTokenBucketTick_canon h ..
  | retentionExitDone => exact execRetentionExitDone_canon h ..
  | flitReceive => exact execFlitReceive_canon h ..
  | heartbeatTimer => exact execHeartbeatTimer_canon h ..
  | linkSilenceTimeout => exact h.linkDies ..
  | keyInstall => exact execKeyInstall_canon h ..
  | linkTrainingComplete => exact execLinkTrainingComplete_canon h ..
  | keySwitchover => exact execKeySwitchover_canon h ..
  | drainingSlotLimit => exact execDrainingSlotLimit_canon h ..
  | linkDeathReport => exact execLinkDeathReport_canon h ..
  | deathNotice => exact execDeathNotice_canon h ..
  | moduleReset => exact execModuleReset_canon h ..
  | serviceImageDelivery => exact execServiceImageDelivery_canon h ..
  | attestationRequest => exact execAttestationRequest_canon h ..
  | clockThrottle => exact execClockThrottle_canon h ..
  | wordNotInstruction => exact execWordNotInstruction_canon h ..
  | hostMemoryAccess => exact execHostMemoryAccess_canon h ..
  | rootMailboxCommand => exact execRootMailboxCommand_canon h ..
  | powerLoss => exact h.afterReset ..
  | pageMigrationFreeze => exact execPageMigrationFreeze_canon h ..
  | retentionEntry => exact execRetentionEntry_canon h ..
  | memorySoftError => exact execMemorySoftError_canon h ..
  | peerReadmission => exact execPeerReadmission_canon h ..
  | planeFailureAnnouncement => exact h.losePlane ..
  | engineAccessFault => exact execEngineAccessFault_canon h ..

/-! ### Machine/Issue -/

theorem State.Canon.enterBlock (h : s.Canon) (b : Block) (l : List Slice) (pc : VA) (w : Word) : (s.enterBlock b l pc w).Canon := by
  unfold State.enterBlock
  grind [State.Canon, modBlock, raise]

theorem State.Canon.pinned {old : State} (h : s.Canon) (i : Instr) (uid : Nat) : (State.pinned old s i uid).Canon := by
  unfold State.pinned
  grind [modBlock, foldl]

theorem State.Canon.runInstr (h : s.Canon) (b : Block) (i : Instr) : Out.Canon (s.runInstr b i) := by
  unfold State.runInstr
  grind [State.Canon, Out.Canon, pinned, exec_canon]

theorem State.Canon.runWord (h : s.Canon) (b : Block) (l : List Slice) (x : Slice) (w : Word) : Out.Canon (s.runWord b l x w) := by
  unfold State.runWord
  grind [State.Canon, Out.Canon, foldl, exec_canon, raise, runInstr]

theorem State.Canon.runGang (h : s.Canon) (blk gang : Nat) (only : Option Nat) : Out.Canon (s.runGang blk gang only) := by
  unfold State.runGang
  extract_lets s1
  have h1 : s1.Canon := h
  split
  · exact h1
  · split
    · exact h1
    · extract_lets c s2 s3
      have h3 : s3.Canon := h1.remember ..
      grind [Out.Canon, State.Canon, State.Canon.raise, State.Canon.fetched, State.Canon.modBlock, State.Canon.enterBlock,
        State.Canon.markIssued, State.Canon.runWord]

theorem State.Canon.runTurn (h : s.Canon) (t : Turn) : Out.Canon (s.runTurn t) := by
  unfold State.runTurn
  grind [State.Canon, Out.Canon, exec_canon, runGang]

theorem State.Canon.onward (h : s.Canon) : Out.Canon (s.onward) := by
  unfold State.onward
  grind [State.Canon, Out.Canon, runTurn, reap]

theorem State.Canon.tick (h : s.Canon) : Out.Canon (s.tick) := by
  unfold State.tick
  grind [State.Canon, Out.Canon, runTurn, onward]

/-! ### Machine/Step -/

theorem step_canon (h : s.Canon) : Out.Canon (step s) := by
  unfold step
  grind [State.Canon.tick]

end Sys2Proof.Machine

end

section
/-! PROOFS. O60. -/

open Sys2Proof Sys2Proof.Machine

/-- Settles O60: each operation keeps the canonical form (`step_canon`). -/
theorem memoryStaysCanonical : Obligations.MemoryStaysCanonical := by
  intro s t h e
  have hs := step_canon h
  rw [e] at hs
  exact hs

end

section
/-! PROOFS. An effect on the gang's state in either launch mode (R254, R255): what `Keeps.complete` says of a normal launch, said of both. -/

namespace Sys2Proof.Machine

/-- Slices at one pc that stand inside their block retire to the next word; in a deterministic launch their quanta may end with it. -/
theorem retire_runs (old : State) {s : State} {b : Block} (hb : s.holds b) {nums : List Nat} {n : Nat} {pc : VA}
    (hl : ∀ x ∈ b.slices.filter (fun x => nums.contains x.num), x.ended = false ∧ x.inside n = true ∧ x.pc = pc) :
    State.retire old s b.uid nums [] n false true = s.modBlock b.uid (fun y =>
      y.putSlices (rested (s.lrOf b).det ((b.slices.filter (fun x => nums.contains x.num)).map fun x => x.passed n))) := by
  have hg (bad : VA → Bool) : gather ((b.slices.filter (fun x => nums.contains x.num)).map fun x =>
      x.retire bad (([] : List Nat).contains x.num) n) =
      .ok ((b.slices.filter (fun x => nums.contains x.num)).map fun x => x.passed n) :=
    gather_map_ok _ _ _ fun x hx => retire_slice _ (hl x hx).1 (hl x hx).2.1
  have hp := parted_same hb (l := rested (s.lrOf b).det ((b.slices.filter (fun x => nums.contains x.num)).map fun x => x.passed n))
    (pc := VA.plus pc n) <| rested_pc fun y hy => by
      obtain ⟨x, hx, rfl⟩ := List.mem_map.mp hy
      rw [Slice.passed_pc, (hl x hx).2.2]
  simp only [State.retire, holds_block? hb, hg, Bool.false_or, if_true]
  exact hp

/-- The slices of a gang as an effect leaves them that keeps each in its place. -/
theorem gang_mapped {b b' : Block} {l : List Slice} {p : Slice → Bool} {h : Slice → Slice} (hl : l = b.slices.filter p)
    (hn : (b.slices.map (fun x => x.num)).Nodup) (hk : ∀ x ∈ b.slices, (h x).keeps x) (hsl : b'.slices = b.slices.map h) :
    b'.slices.filter (fun x => (l.map (fun x => x.num)).contains x.num) = l.map h := by
  have hf := gang_filter hl hn
  rw [hsl, List.filter_map, List.filter_congr (q := fun x => (l.map (fun x => x.num)).contains x.num)
    fun x hx => by rw [Function.comp_apply, (hk x hx).1], hf]

namespace Keeps

/-- Where its block stays, its launch keeps its record. -/
theorem lrOf {s t : State} {b b' : Block} (h : s.Keeps t b.uid) (hla : b'.launch = b.launch) : t.lrOf b' = s.lrOf b := by
  have := h.1 b.launch
  unfold State.lrOf
  rw [hla]
  revert this
  cases t.launch? b.launch <;> cases s.launch? b.launch <;> simp

/-- A slice of the gang stands where the effect has put it. -/
theorem now_of_map {t : State} {b b' : Block} {h : Slice → Slice} (hb : t.holds b') (hu : b'.uid = b.uid)
    (hn : (b.slices.map (fun x => x.num)).Nodup) (hk : ∀ x ∈ b.slices, (h x).keeps x) (hsl : b'.slices = b.slices.map h)
    {x : Slice} (hx : x ∈ b.slices) : t.now b x = h x :=
  now_eq hb hu (by rw [hsl, nums_map fun x hx => (hk x hx).1]; exact hn) (hsl ▸ List.mem_map_of_mem hx) (hk x hx).1

/-- An effect that keeps the gang's slices in their places goes on to the next word of the block, in either launch mode. -/
theorem complete_runs {s t : State} {b : Block} {l : List Slice} {n : Nat} (hi : s.issuing = some (b, l)) (hr : s.runs n = true)
    (h : s.Keeps t b.uid) : s.complete n false (.done t []) = t.goOn b l n := by
  obtain ⟨hw, hn, pc, ha⟩ := runs_spec hi hr
  obtain ⟨p, hl, hp⟩ := issuing_whole hi hw
  obtain ⟨b', f, hb, hu, hla, hk, hsl⟩ := h.2 b (issuing_holds hi) rfl
  have hmem : ∀ x ∈ l, x ∈ b.slices := fun x hx => (List.mem_filter.mp (hl ▸ hx)).1
  have hf := gang_mapped hl hn hk hsl
  have hret := retire_runs s hb (nums := l.map (fun x => x.num)) (n := n) (pc := pc) <| by
    rw [hf]
    intro y hy
    obtain ⟨x, hx, rfl⟩ := List.mem_map.mp hy
    have hkx := hk x (hmem x hx)
    exact ⟨hkx.2.1.trans (issuing_ended hi hw x hx), (keeps_inside hkx n).trans (ha x hx).1, hkx.2.2.1.trans (ha x hx).2⟩
  have hd : t.lrOf b = t.lrOf b' := by simp only [State.lrOf, hla]
  rw [hf, List.map_map, hu] at hret
  simp only [State.complete, hi, hw, hret, State.goOn, hd]
  congr 1
  funext y
  congr 2
  exact List.map_congr_left fun x hx => by rw [now_of_map hb hu hn hk hsl (hmem x hx)]; rfl

end Keeps

/-- An effect on the gang's state that keeps its slices in their places is performed in the quanta of a deterministic launch. -/
theorem performsInRounds_of_perGang {n : Nat} {i : Instr} {F : State → Block → List Slice → Res}
    {ok : State → Block → List Slice → Bool} {f : State → Block → List Slice → State}
    (hexec : ∀ s, exec i s = .next (s.perGang n false (F s)))
    (hF : ∀ s b l, s.buffers b = true → ok s b l = true → F s b l = .done (f s b l) [])
    (hk : ∀ (s : State) (b : Block) (l : List Slice), s.Keeps (f s b l) b.uid) : PerformsInRounds n i ok f := by
  intro s b l hi hr hd hok
  have hbuf : s.buffers b = true := by rw [State.buffers, hd, (runs_spec hi hr).1]; rfl
  simp only [hexec, State.perGang, hi, hF s b l hbuf hok, Keeps.complete_runs hi hr (hk s b l)]

/-- The same of an instruction that synchronises in other forms of it. -/
theorem performsInRounds_of_perKind {n : Nat} {sync : Bool} {g : Guard} {i : Instr} {F : State → Block → List Slice → Res}
    {ok : State → Block → List Slice → Bool} {f : State → Block → List Slice → State} (hs : sync = false)
    (hexec : ∀ s, exec i s = .next (s.perKind sync g n (F s)))
    (hF : ∀ s b l, s.buffers b = true → ok s b l = true → F s b l = .done (f s b l) [])
    (hk : ∀ (s : State) (b : Block) (l : List Slice), s.Keeps (f s b l) b.uid) : PerformsInRounds n i ok f := by
  subst hs
  exact performsInRounds_of_perGang hexec hF hk

/-- In both launch modes. -/
theorem performs_both {n : Nat} {i : Instr} {F : State → Block → List Slice → Res}
    {ok : State → Block → List Slice → Bool} {f : State → Block → List Slice → State}
    (hexec : ∀ s, exec i s = .next (s.perGang n false (F s))) (hF : ∀ s b l, ok s b l = true → F s b l = .done (f s b l) [])
    (hk : ∀ (s : State) (b : Block) (l : List Slice), s.Keeps (f s b l) b.uid) : Performs n i ok f ∧ PerformsInRounds n i ok f :=
  ⟨performs_of_perGang hexec hF hk, performsInRounds_of_perGang hexec (fun s b l _ => hF s b l) hk⟩

/-- An effect of an instruction that synchronises in some of its forms. -/
theorem performs_of_perKind {n : Nat} {sync : Bool} {g : Guard} {i : Instr} {F : State → Block → List Slice → Res}
    {ok : State → Block → List Slice → Bool} {f : State → Block → List Slice → State}
    (hexec : ∀ s, exec i s = .next (s.perKind sync g n (F s))) (hF : ∀ s b l, ok s b l = true → F s b l = .done (f s b l) [])
    (hk : ∀ (s : State) (b : Block) (l : List Slice), s.Keeps (f s b l) b.uid) : Performs n i ok f := by
  intro s b l hi hg hok
  rw [hexec, Keeps.perKind hi hg (hF s b l hok) (hk s b l)]

theorem State.unblocked_iff {s : State} {b : Block} {accs : List Acc} :
    s.unblocked b accs = true ↔ s.checkAccs b accs (fun _ => true) = none ∧ s.held_ (s.lrOf b).ctx accs = false := by
  simp only [State.unblocked, Bool.and_eq_true, Option.isNone_iff_eq_none, Bool.not_eq_true']

end Sys2Proof.Machine

end

section
/-! PROOFS. Loads (R224 to R233). -/

namespace Sys2Proof.Machine

/-- Loads whose accesses pass and wait for nothing are done. -/
theorem loadRegs_done {s : State} {b : Block} {l : List Slice} {accs : List Acc} (h : s.unblocked b accs = true) (acq nt : Bool)
    (put : Acc → Nat → Slice → Slice) : s.loadRegs b l accs acq nt put = .done (s.loaded b l accs acq nt put) [] := by
  obtain ⟨hc, hh⟩ := State.unblocked_iff.mp h
  simp only [State.loadRegs, hc, hh, Bool.false_eq_true, if_false]

theorem loadScratch_done {s : State} {b : Block} {l : List Slice} {accs : List Acc} (h : s.unblocked b accs = true)
    (hp : s.pathFull b l accs = false) (acq nt : Bool) :
    s.loadScratch b l accs acq nt = .done (s.loadsSent b l accs acq nt) [] := by
  obtain ⟨hc, hh⟩ := State.unblocked_iff.mp h
  simp only [State.loadScratch, hc, hh, hp, Bool.or_self, Bool.false_eq_true, if_false]

/-- What LD and LDW do where D names registers. -/
theorem loadForm_regs {s : State} {b : Block} {l : List Slice} {d : Opd} {accs : List Acc} {acq nt : Bool}
    {put : Acc → Nat → Slice → Slice} (h : (!d.isNone && s.unblocked b accs) = true) :
    (if d.isNone then s.loadScratch b l accs acq nt else s.loadRegs b l accs acq nt put) = .done (s.loaded b l accs acq nt put) [] := by
  simp only [Bool.and_eq_true, Bool.not_eq_true'] at h
  rw [h.1, if_neg Bool.false_ne_true, loadRegs_done h.2]

/-- What they do where D names none. -/
theorem loadForm_scratch {s : State} {b : Block} {l : List Slice} {accs : List Acc} (acq nt : Bool)
    (h : (s.unblocked b accs && !s.pathFull b l accs) = true) :
    s.loadScratch b l accs acq nt = .done (s.loadsSent b l accs acq nt) [] := by
  simp only [Bool.and_eq_true, Bool.not_eq_true'] at h
  exact loadScratch_done h.1 h.2 acq nt

end Sys2Proof.Machine

end

section
/-! PROOFS. O18. -/

open Sys2Proof Sys2Proof.Machine

/-- Settles O18: each form is an effect that keeps the gang's slices in their places (`Keeps.loaded`, `Keeps.loadsSent`, `Keeps.ldsDone`),
which goes on in either launch mode (`performs_both`). -/
theorem loadsComplete : Obligations.LoadsComplete := by
  refine ⟨fun g ty sc k d a b c hk => ?_, fun g ty sc k d a b c => ?_, fun g ty sc k a b c => ?_, fun g ty sc g4 d a b c => ?_,
    fun g ty sc g4 a b c => ?_, fun g ty sc d a b => ?_, fun g ty d a b => ?_⟩
  · have hs : (k == MemKind.sync) = false := by simpa using hk
    refine performsInRounds_of_perKind hs (fun _ => rfl) (fun s blk l _ h => ?_)
      fun s blk l => Keeps.loaded _ _ _ _ _ _ _ (fun _ _ _ => Slice.keeps_putLoad ..) _
    simp only [hs]
    exact loadForm_regs h
  · exact performs_of_perKind (fun _ => rfl) (fun s blk l h => loadForm_regs h)
      fun s blk l => Keeps.loaded _ _ _ _ _ _ _ (fun _ _ _ => Slice.keeps_putLoad ..) _
  · exact performs_of_perKind (fun _ => rfl) (fun s blk l h => loadForm_scratch _ _ h) fun s blk l => Keeps.loadsSent ..
  · exact performs_both (fun _ => rfl) (fun s blk l h => loadForm_regs h)
      fun s blk l => Keeps.loaded _ _ _ _ _ _ _ (fun _ _ _ => Slice.keeps_putLoad ..) _
  · exact performs_both (fun _ => rfl) (fun s blk l h => loadForm_scratch _ _ h) fun s blk l => Keeps.loadsSent ..
  · refine performs_both (fun _ => rfl) (fun s blk l h => ?_)
      fun s blk l => Keeps.loaded _ _ _ _ _ _ _ (fun _ _ _ => Slice.keeps_putSplit ..) _
    simp only [Bool.and_eq_true, Option.isNone_iff_eq_none] at h
    simp only [h.1, loadRegs_done h.2]
  · refine performs_both (fun _ => rfl) (fun s blk l h => ?_)
      fun s blk l => Keeps.ldsDone _ _ _ _ _ _ (fun _ _ _ => Slice.keeps_putLoad ..) _
    simp only [Option.isNone_iff_eq_none] at h
    simp only [h]

end

section
/-! PROOFS. Stores (R224 to R233, R254). -/

namespace Sys2Proof.Machine

/-! ## Remembered translations -/

/-- A state that differs in its translation buffer alone. -/
def State.SameButTlb (s t : State) : Prop := ∃ x, t = { s with mem := { s.mem with tlb := x } }

namespace State

theorem remember_sameButTlb (s : State) (c va : Nat) : s.SameButTlb (s.remember c va) := by
  unfold State.remember
  split
  · split
    · exact ⟨s.mem.tlb, rfl⟩
    · exact ⟨_, rfl⟩
  · exact ⟨s.mem.tlb, rfl⟩

theorem rememberAll_sameButTlb (s : State) (c : Nat) (l : List Acc) : s.SameButTlb (s.rememberAll c l) := by
  refine List.foldlRecOn (motive := s.SameButTlb) l _ ⟨s.mem.tlb, rfl⟩ fun t ⟨x, ht⟩ a _ => ?_
  split
  · next v _ =>
    obtain ⟨y, hy⟩ := t.remember_sameButTlb c v
    exact ⟨y, by rw [hy, ht]⟩
  · exact ⟨x, ht⟩

/-- Remembered translations leave the launch's mode as it is. -/
theorem mapped_buffers (s : State) (b : Block) (accs : List Acc) : (s.mapped b accs).buffers b = s.buffers b := by
  obtain ⟨x, hx⟩ := s.rememberAll_sameButTlb (s.lrOf b).ctx accs
  rw [State.mapped, hx]
  rfl

/-! ## Stores of a gang -/

theorem storeAll_buffered {s : State} {b : Block} (h : s.buffers b = true) (sc : Scope) (nt : Bool)
    (l : List (Slice × Phys × List (Option Byte))) : s.storeAll b sc nt l = .done (s.bufferStores b nt l) [] := by
  rw [State.storeAll, if_pos h]

theorem storeAll_done {s : State} {b : Block} (h : s.buffers b = false) (sc : Scope) (nt : Bool)
    {l : List (Slice × Phys × List (Option Byte))} (hr : s.roomFor b l = true) :
    s.storeAll b sc nt l = .done (s.storedAll b sc nt l) [] := by
  rw [State.roomFor, List.isEmpty_iff] at hr
  simp only [State.storeAll, h, Bool.false_eq_true, if_false, State.performStores, hr]
  rfl

/-- Stores whose accesses pass and wait for nothing are made on the state with their translations remembered. -/
theorem storeGang_unblocked {s : State} {b : Block} {l : List Slice} {accs : List Acc} (h : s.unblocked b accs = true) (sc : Scope)
    (nt : Bool) (data : Acc → List (Option Byte)) :
    s.storeGang b l sc nt accs data = (s.mapped b accs).storeAll b sc nt ((s.mapped b accs).storesOf b l accs data) := by
  obtain ⟨hc, hh⟩ := unblocked_iff.mp h
  simp only [State.storeGang, hc, hh, Bool.false_eq_true, if_false]
  rfl

theorem bufferStores_mem (s : State) (b : Block) (nt : Bool) (l : List (Slice × Phys × List (Option Byte))) :
    (s.bufferStores b nt l).mem = s.mem := by
  unfold State.bufferStores
  refine List.foldlRecOn (motive := fun t : State => t.mem = s.mem) _ _ ?_ fun t ht n _ => (State.modSlice_mem ..).trans ht
  exact List.foldlRecOn (motive := fun t : State => t.mem = s.mem) _ _ rfl fun t ht x _ => (State.modSlice_mem ..).trans ht

end State

namespace Keeps

theorem bufferStores (s : State) (b : Block) (nt : Bool) (l : List (Slice × Phys × List (Option Byte))) (uid : Nat) :
    s.Keeps (s.bufferStores b nt l) uid := by
  unfold State.bufferStores
  refine trans (foldl (fun t x => ?_) _ s) (foldl (fun t n => ?_) _ _)
  · exact modSlice _ _ _ _ _ fun _ => ⟨rfl, rfl, rfl, rfl, rfl⟩
  · exact modSlice _ _ _ _ _ fun _ => ⟨rfl, rfl, rfl, rfl, rfl⟩

theorem countStores (s : State) (b : Block) (l : List (Slice × Phys × List (Option Byte))) (uid : Nat) :
    s.Keeps (s.countStores b l) uid := by
  refine foldl (fun _ _ => modSlice _ _ _ _ _ fun x => ?_) _ _
  unfold Slice.countStore
  split <;> exact ⟨rfl, rfl, rfl, rfl, rfl⟩

theorem storedAll (s : State) (b : Block) (sc : Scope) (nt : Bool) (l : List (Slice × Phys × List (Option Byte))) (uid : Nat) :
    s.Keeps (s.storedAll b sc nt l) uid := trans (stored ..) (countStores ..)

theorem mapped (s : State) (b : Block) (accs : List Acc) (uid : Nat) : s.Keeps (s.mapped b accs) uid := rememberAll ..

end Keeps

/-- An effect that is performed at once, of an instruction that synchronises in some of its forms. -/
theorem performs_unbuffered {n : Nat} {sync : Bool} {g : Guard} {i : Instr} {F : State → Block → List Slice → Res}
    {ok : State → Block → List Slice → Bool} {f : State → Block → List Slice → State}
    (hexec : ∀ s, exec i s = .next (s.perKind sync g n (F s)))
    (hF : ∀ s b l, s.buffers b = false → ok s b l = true → F s b l = .done (f s b l) [])
    (hk : ∀ (s : State) (b : Block) (l : List Slice), s.Keeps (f s b l) b.uid) : Performs n i ok f := by
  intro s b l hi hg hok
  obtain ⟨-, hd, -⟩ := goes_spec hi hg
  have hbuf : s.buffers b = false := by rw [State.buffers, hd]; rfl
  rw [hexec, Keeps.perKind hi hg (hF s b l hbuf hok) (hk s b l)]

end Sys2Proof.Machine

end

section
/-! PROOFS. O19. -/

open Sys2Proof Sys2Proof.Machine

/-- Settles O19: in a normal launch the stores are performed as they issue (`State.storeAll_done`), in the quanta of a deterministic one
they enter the buffers (`State.storeAll_buffered`), and either keeps the gang's slices in their places. -/
theorem storesComplete : Obligations.StoresComplete := by
  refine ⟨fun g ty sc k a b c hk => ?_, fun g ty sc g4 a b c => ?_, fun g ty sc a b c => ?_, fun g ty a b c => ?_,
    fun s b x p nt d => s.bufferStores_mem b nt _, fun g ty sc k a b c => ?_, fun g ty sc g4 a b c => ?_, fun g ty sc a b c => ?_,
    fun g ty a b c => ?_⟩
  · have hs : (k == MemKind.sync) = false := by simpa using hk
    refine performsInRounds_of_perKind hs (fun _ => rfl) (fun s blk l hb h => ?_)
      fun s blk l => Keeps.trans (Keeps.mapped ..) (Keeps.bufferStores ..)
    simp only [State.storeGang_unblocked h, State.storeAll_buffered ((s.mapped_buffers ..).trans hb), stWaits, hs, Bool.false_and,
      Bool.false_eq_true, if_false]
  · exact performsInRounds_of_perGang (fun _ => rfl) (fun s blk l hb h => by
      rw [State.storeGang_unblocked h, State.storeAll_buffered ((s.mapped_buffers ..).trans hb)])
      fun s blk l => Keeps.trans (Keeps.mapped ..) (Keeps.bufferStores ..)
  · refine performsInRounds_of_perGang (fun _ => rfl) (fun s blk l hb h => ?_)
      fun s blk l => Keeps.trans (Keeps.mapped ..) (Keeps.bufferStores ..)
    rw [Bool.and_eq_true, Option.isNone_iff_eq_none, State.unblocked_iff] at h
    obtain ⟨hs, hc, hh⟩ := h
    simp only [hs, hc, hh, Bool.false_eq_true, if_false]
    exact State.storeAll_buffered ((s.mapped_buffers ..).trans hb) ..
  · refine performsInRounds_of_perGang (fun _ => rfl) (fun s blk l _ h => ?_) fun s blk l => Keeps.stsDone ..
    simp only [Option.isNone_iff_eq_none] at h
    simp only [h]
  · refine performs_unbuffered (fun _ => rfl) (fun s blk l hb h => ?_) fun s blk l => Keeps.trans (Keeps.mapped ..) (Keeps.storedAll ..)
    simp only [Bool.and_eq_true, Bool.not_eq_true'] at h
    obtain ⟨⟨hu, hw⟩, hr⟩ := h
    simp only [State.storeGang_unblocked hu, State.storeAll_done ((s.mapped_buffers ..).trans hb) _ _ hr, hw, Bool.false_eq_true, if_false]
  · refine performs_unbuffered (sync := false) (g := g) (fun _ => rfl) (fun s blk l hb h => ?_)
      fun s blk l => Keeps.trans (Keeps.mapped ..) (Keeps.storedAll ..)
    simp only [Bool.and_eq_true] at h
    rw [State.storeGang_unblocked h.1, State.storeAll_done ((s.mapped_buffers ..).trans hb) _ _ h.2]
  · refine performs_unbuffered (sync := false) (g := g) (fun _ => rfl) (fun s blk l hb h => ?_)
      fun s blk l => Keeps.trans (Keeps.mapped ..) (Keeps.storedAll ..)
    simp only [Bool.and_eq_true, Option.isNone_iff_eq_none, State.unblocked_iff] at h
    obtain ⟨⟨hs, hc, hh⟩, hr⟩ := h
    simp only [hs, hc, hh, Bool.false_eq_true, if_false]
    exact State.storeAll_done ((s.mapped_buffers ..).trans hb) _ _ hr
  · refine performs_of_perGang (fun _ => rfl) (fun s blk l h => ?_) fun s blk l => Keeps.stsDone ..
    simp only [Option.isNone_iff_eq_none] at h
    simp only [h]

end

section
/-! PROOFS. What a load leaves as it was (R224, R225, R230): the bytes of memory, and of a slice's registers all but those it names. -/

namespace Sys2Proof.Machine

/-! ## Registers and bytes that stay -/

/-- A slice with the registers that another had. -/
structure Slice.SameRegs (x y : Slice) : Prop where
  num : y.num = x.num
  v : y.v = x.v
  s : y.s = x.s
  p : y.p = x.p
  flg : y.flg = x.flg
  fmt : y.fmt = x.fmt

namespace Slice.SameRegs

theorem refl (x : Slice) : x.SameRegs x := ⟨rfl, rfl, rfl, rfl, rfl, rfl⟩

theorem trans {x y z : Slice} (h : x.SameRegs y) (k : y.SameRegs z) : x.SameRegs z :=
  ⟨k.num.trans h.num, k.v.trans h.v, k.s.trans h.s, k.p.trans h.p, k.flg.trans h.flg, k.fmt.trans h.fmt⟩

theorem rv {x y : Slice} (h : x.SameRegs y) (n j : Nat) : y.rv n j = x.rv n j := by rw [Slice.rv, h.v]; rfl

theorem passed (x : Slice) (n : Nat) : x.SameRegs (x.passed n) := ⟨rfl, rfl, rfl, rfl, rfl, rfl⟩

end Slice.SameRegs

/-- From s to t every byte of memory stays, held ones too, and every register of a resident block. -/
structure State.Spares (s t : State) : Prop where
  ram : t.mem.ram = s.mem.ram
  held : t.mem.held = s.mem.held
  regs : ∀ b, s.holds b → ∃ (b' : Block) (h : Slice → Slice), t.holds b' ∧ b'.uid = b.uid ∧
    (∀ x ∈ b.slices, x.SameRegs (h x)) ∧ b'.slices = b.slices.map h

namespace State.Spares

/-- A change outside bytes and blocks. -/
theorem same {s t : State} (hr : t.mem.ram = s.mem.ram) (hh : t.mem.held = s.mem.held) (hb : t.blocks = s.blocks) : s.Spares t :=
  ⟨hr, hh, fun b h => ⟨b, id, by rw [State.holds, hb]; exact h, rfl, fun x _ => .refl x, by simp⟩⟩

theorem refl (s : State) : s.Spares s := same rfl rfl rfl

theorem trans {s t u : State} (h : s.Spares t) (k : t.Spares u) : s.Spares u := by
  refine ⟨k.ram.trans h.ram, k.held.trans h.held, fun b hb => ?_⟩
  obtain ⟨b1, f, hb1, hu1, hf, hs1⟩ := h.regs b hb
  obtain ⟨b2, g, hb2, hu2, hg, hs2⟩ := k.regs b1 hb1
  exact ⟨b2, g ∘ f, hb2, hu2.trans hu1, fun x hx => (hf x hx).trans (hg _ (hs1 ▸ List.mem_map_of_mem hx)),
    by rw [hs2, hs1, List.map_map]⟩

theorem foldl {α : Type} {f : State → α → State} (hf : ∀ (s : State) a, s.Spares (f s a)) (l : List α) (s : State) :
    s.Spares (l.foldl f s) := by
  induction l generalizing s with
  | nil => exact refl s
  | cons a l ih => exact (hf s a).trans (ih (f s a))

theorem modSlice (s : State) (uid n : Nat) (f : Slice → Slice) (hf : ∀ x : Slice, x.SameRegs (f x)) : s.Spares (s.modSlice uid n f) := by
  refine ⟨by rw [State.modSlice_mem], by rw [State.modSlice_mem], fun b hb => ?_⟩
  have hh := Keeps.modBlock_holds (uid := uid) hb (fun b => b.modSlice n f) fun _ => rfl
  by_cases hu : b.uid = uid
  · rw [if_pos hu] at hh
    refine ⟨_, fun y => if y.num == n then f y else y, hh, rfl, fun x _ => ?_, rfl⟩
    dsimp only
    split
    exacts [hf x, .refl x]
  · rw [if_neg hu] at hh
    exact ⟨b, id, hh, rfl, fun x _ => .refl x, by simp⟩

theorem rememberAll (s : State) (c : Nat) (l : List Acc) : s.Spares (s.rememberAll c l) := by
  obtain ⟨x, hx⟩ := s.rememberAll_sameButTlb c l
  rw [hx]
  exact same rfl rfl rfl

theorem tagAccess (s : State) (b : Block) (p : Phys) (n : Nat) (w : Bool) : s.Spares (s.tagAccess b p n w) := by
  unfold State.tagAccess
  split
  · exact refl s
  · refine foldl (fun s x => ?_) _ s
    exact same rfl rfl rfl

theorem sendFlit (s : State) (p : Nat) (slot : Bool) (kind vc : Nat) (text : List Byte) : s.Spares (s.sendFlit p slot kind vc text) := by
  unfold State.sendFlit
  dsimp only
  split
  · exact refl s
  · split <;> exact same rfl rfl rfl

theorem carry (s : State) (p vc : Nat) : s.Spares (s.carry p vc) := by
  refine trans (t := s.stepTag) (same rfl rfl rfl) (foldl (fun s t => ?_) _ _)
  unfold State.sendNow
  split
  · exact sendFlit ..
  · exact refl s

theorem travels (s : State) (c : Nat) (p : Phys) (n : Nat) (w : Bool) : s.Spares (s.travels c p n w) := by
  have hsent : s.Spares (s.sendOut p w) := by
    unfold State.sendOut
    split
    · exact foldl (fun s k => carry ..) _ s
    · exact refl s
  unfold State.travels
  dsimp only
  split
  · exact hsent
  · exact hsent.trans (same rfl rfl rfl)

theorem policyFetch (s : State) (p : Phys) : s.Spares (s.policyFetch p) := by
  unfold State.policyFetch State.startFetch
  dsimp only
  split
  · split
    · split
      exacts [same rfl rfl rfl, same rfl rfl rfl, refl s]
    · exact refl s
  · exact refl s

theorem loadTick (s : State) (b : Block) (n key : Nat) : s.Spares (s.loadTick b n key) :=
  trans (same (t := { s with mem := (s.mem.loadTime key (s.tsOf b n)).1 }) rfl rfl rfl)
    (modSlice _ _ _ _ fun _ => ⟨rfl, rfl, rfl, rfl, rfl, rfl⟩)

theorem touch (s : State) (key : Nat) : s.Spares { s with mem := s.mem.touch key } := by
  unfold Memory.touch
  split
  · exact same rfl rfl rfl
  · exact refl s

theorem loadMark (s : State) (b : Block) (sl : Slice) (p : Phys) (nt : Bool) : s.Spares (s.loadMark b sl p nt) := by
  unfold State.loadMark
  split
  · refine trans ?_ (loadTick ..)
    split
    · exact refl s
    · exact touch ..
  · exact refl s

theorem afterLoads (s : State) (b : Block) (nt : Bool) (l : List Slice) (accs : List Acc) : s.Spares (s.afterLoads b nt l accs) :=
  (rememberAll ..).trans (foldl (fun _ _ => (((loadMark ..).trans (tagAccess ..)).trans (travels ..)).trans (policyFetch ..)) _ _)

theorem readAs {s t : State} (h : s.Spares t) (o : Option Observer) (key : Nat) : t.mem.readAs o key = s.mem.readAs o key := by
  unfold Memory.readAs Memory.peek
  rw [h.ram, h.held]

end State.Spares

/-! ## The slices of a gang after its own writes -/

/-- Each slice of a resident block takes the writes that name it, in their order. -/
theorem foldl_modSlice_holds {α : Type} {n : α → Nat} {f : α → Slice → Slice} (hf : ∀ a x, (f a x).num = x.num) (as : List α) {s : State}
    {b : Block} (hb : s.holds b) :
    ∃ b' : Block, (as.foldl (fun s a => s.modSlice b.uid (n a) (f a)) s).holds b' ∧ b'.uid = b.uid ∧
      b'.slices = b.slices.map fun x => (as.filter fun a => n a == x.num).foldl (fun y a => f a y) x := by
  induction as generalizing s b with
  | nil => exact ⟨b, hb, rfl, by simp⟩
  | cons a as ih =>
    obtain ⟨b', hb', hu, hs⟩ := ih (block?_modBlock hb (fun b => b.modSlice (n a) (f a)) fun _ => rfl)
    refine ⟨b', hb', hu, hs.trans ?_⟩
    simp only [Block.modSlice, List.map_map]
    refine List.map_congr_left fun x _ => ?_
    by_cases hx : x.num = n a
    · simp [hx, hf]
    · simp [hx, Ne.symm hx]

/-- A gang's slice after the instruction is what the effect has made of it, retired. -/
theorem now_goOn {t : State} {b b' : Block} {l : List Slice} {n : Nat} (hb : t.holds b') (hu : b'.uid = b.uid)
    (hd : (t.lrOf b).det = false) (hn : (b'.slices.map fun x => x.num).Nodup) (hl : (l.map fun x => x.num).Nodup)
    (hlb : ∀ x ∈ l, ∃ y ∈ b'.slices, y.num = x.num) {x : Slice} (hx : x ∈ l) : (t.goOn b l n).now b x = (t.now b x).passed n := by
  have hnum : ∀ x ∈ l, (t.now b x).num = x.num := fun x hx => by
    obtain ⟨y, hy, hyx⟩ := hlb x hx
    rw [now_eq hb hu hn hy hyx, hyx]
  obtain ⟨y, hy, hyx⟩ := hlb x hx
  have hgo : (t.goOn b l n).holds (b'.putSlices (l.map fun x => (t.now b x).passed n)) := by
    rw [State.goOn, hd, rested_normal, ← hu]
    exact block?_modBlock hb _ fun _ => rfl
  have hfind : (l.map fun x => (t.now b x).passed n).find? (fun z => z.num == y.num) = some ((t.now b x).passed n) := by
    have hnums : ((l.map fun x => (t.now b x).passed n).map fun x => x.num) = l.map fun x => x.num := nums_map hnum
    have := find_num (hnums ▸ hl) (List.mem_map_of_mem (f := fun x => (t.now b x).passed n) hx)
    rwa [show ((t.now b x).passed n).num = y.num from (hnum x hx).trans hyx.symm] at this
  refine now_eq hgo hu (by rw [putSlices_nums]; exact hn) (List.mem_map.mpr ⟨y, hy, ?_⟩) (hnum x hx)
  rw [hfind]
  rfl

/-- The accesses of a gang that one of its slices makes. -/
theorem filter_gangAccs {s : State} {b : Block} {f : Env → Slice → List Acc} (hf : ∀ e x, ∀ a ∈ f e x, a.slice = x.num) {l : List Slice}
    (hl : (l.map fun x => x.num).Nodup) {x : Slice} (hx : x ∈ l) :
    (gangAccs s b l f).filter (fun a => a.slice == x.num) = f (s.envOf b x) x := by
  have hnone : ∀ m : List Slice, x.num ∉ m.map (fun x => x.num) → (gangAccs s b m f).filter (fun a => a.slice == x.num) = [] := by
    intro m hm
    refine List.filter_eq_nil_iff.mpr fun a ha => ?_
    obtain ⟨y, hy, hay⟩ := List.mem_flatMap.mp ha
    rw [hf _ _ a hay, beq_iff_eq]
    exact fun e => hm (e ▸ List.mem_map_of_mem (f := fun x : Slice => x.num) hy)
  obtain ⟨as, bs, rfl⟩ := List.append_of_mem hx
  rw [List.map_append, List.map_cons, List.nodup_append, List.nodup_cons] at hl
  obtain ⟨-, ⟨hbs, -⟩, hdis⟩ := hl
  have hself : (f (s.envOf b x) x).filter (fun a => a.slice == x.num) = f (s.envOf b x) x :=
    List.filter_eq_self.mpr fun a ha => beq_iff_eq.mpr (hf _ _ a ha)
  have happ : gangAccs s b (as ++ x :: bs) f = gangAccs s b as f ++ (f (s.envOf b x) x ++ gangAccs s b bs f) := by
    simp only [gangAccs, List.flatMap_append, List.flatMap_cons]
  rw [happ, List.filter_append, List.filter_append, hself, hnone as fun h => hdis _ h _ (List.mem_cons_self ..) rfl, hnone bs hbs]
  simp

/-! ## 32-bit loads to lane registers -/

/-- A result of 32 bits fills a lane register. -/
theorem ofNat_extend_32 (sg : Bool) (v : Nat) : BitVec.ofNat 32 (extend sg 32 32 v) = BitVec.ofNat 32 v := by
  refine BitVec.eq_of_toNat_eq ?_
  unfold extend wrapTo sgn
  simp only [BitVec.toNat_ofNat]
  split
  · split <;> omega
  · omega

/-- The access of a lane of a load with one register and one displacement (R225). -/
def laneAcc (s : State) (b : Block) (x : Slice) (size : Nat) (a off : Opd) (j : Nat) : Acc :=
  { slice := x.num, mask := 1#4 <<< j, lane := j, pos := posOf (s.envOf b x) x j
    ea := some (wrapTo 64 ((valOf (s.envOf b x) x j 64 a : Int) + offsetOf (s.envOf b x) x j off)), so := none, size, align := size
    r := true, w := false }

theorem globalAccs_lanes (s : State) (b : Block) (x : Slice) (g : Guard) (size : Nat) (a off : Opd) :
    globalAccs (s.envOf b x) x g false a off size size true false = (lanes (x.part_ g)).map (laneAcc s b x size a off) := by
  simp only [globalAccs, accLanes, Bool.false_eq_true, if_false, List.map_map]
  rfl

theorem globalAccs_slice {e : Env} {x : Slice} {g : Guard} {scalar : Bool} {a off : Opd} {size align : Nat} {r w : Bool} :
    ∀ y ∈ globalAccs e x g scalar a off size align r w, y.slice = x.num := by
  intro y hy
  obtain ⟨z, -, rfl⟩ := List.mem_map.mp hy
  rfl

/-- The accesses of a load to a lane register that one slice of the gang makes. -/
theorem filter_loadAccs {s : State} {b : Block} {l : List Slice} (hl : (l.map fun x => x.num).Nodup) {x : Slice} (hx : x ∈ l) (g : Guard)
    (size : Nat) (r : BitVec 8) (a off : Opd) :
    (loadAccs s b l g size (.v r) a off .none).filter (fun y => y.slice == x.num) =
      (lanes (x.part_ g)).map (laneAcc s b x size a off) := by
  rw [← globalAccs_lanes]
  exact filter_gangAccs (fun _ _ => globalAccs_slice) hl hx

/-- An access that passes its checks lands where its address translates to. -/
theorem phys?_of_checked {s : State} {b : Block} {accs : List Acc} {ok : Phys → Bool} (h : s.checkAccs b accs ok = none) {a : Acc}
    (ha : a ∈ accs) {va : Nat} (hva : a.ea = some va) : s.phys? (s.lrOf b).ctx va = .ok (s.physOf (s.lrOf b).ctx a) := by
  have hrow : s.rowFails b ok 3 a = none := by
    by_contra hne
    have hmem : a ∈ accs.filter fun x => (s.rowFails b ok 3 x).isSome := List.mem_filter.mpr ⟨ha, Option.isSome_iff_ne_none.mpr hne⟩
    have hthird := List.findSome?_eq_none_iff.mp h 3 (by decide)
    split at hthird
    · next he => rw [he] at hmem; cases hmem
    · next y ys he =>
      rw [Option.map_eq_none_iff] at hthird
      have hy := (List.mem_filter.mp (he ▸ List.mem_cons_self (a := y) (l := ys))).2
      rw [hthird] at hy
      cases hy
  simp only [State.rowFails, hva, Option.map_some] at hrow
  simp only [State.physOf, hva, Option.getD_some, State.phys?]
  cases hw : s.walk (s.lrOf b).ctx va with
  | ok v => rfl
  | error f => rw [hw] at hrow; cases hrow

section
variable {s : State} {b : Block} {l : List Slice} {g : Guard} {r : BitVec 8} {a off : Opd} {sg nt : Bool} {n : Nat}

/-- What a load of 32 bits to a lane register has read for a lane. -/
def laneLoad (s : State) (b : Block) (x : Slice) (a off : Opd) (j : Nat) : Nat :=
  leNat (s.loadBytes b x (s.physOf (s.lrOf b).ctx (laneAcc s b x 4 a off j)) 4)

/-- Each slice of a block after a load that acquires nothing: what it was but for marks, its accesses' values put in it in their order. -/
theorem loaded_holds (hb : s.holds b) (l : List Slice) (accs : List Acc) (nt : Bool) {put : Acc → Nat → Slice → Slice}
    (hput : ∀ a v (x : Slice), (put a v x).num = x.num) :
    ∃ (b' : Block) (h : Slice → Slice), (s.loaded b l accs false nt put).holds b' ∧ b'.uid = b.uid ∧ (∀ x ∈ b.slices, x.SameRegs (h x)) ∧
      b'.slices = b.slices.map fun x => (accs.filter fun a => a.slice == x.num).foldl
        (fun y a => put a (leNat (s.loadBytes b (sliceOf l a.slice) (s.physOf (s.lrOf b).ctx a) a.size)) y) (h x) := by
  obtain ⟨b1, h, hb1, hu1, hh, hs1⟩ := (State.Spares.afterLoads s b nt l accs).regs b hb
  obtain ⟨b2, hb2, hu2, hs2⟩ := foldl_modSlice_holds (n := fun a : Acc => a.slice)
    (f := fun a => put a (leNat (s.loadBytes b (sliceOf l a.slice) (s.physOf (s.lrOf b).ctx a) a.size))) (fun a => hput a _) accs hb1
  refine ⟨b2, h, ?_, hu2.trans hu1, hh, ?_⟩
  · rw [State.loaded, List.foldl_map, ← hu1]
    exact hb2
  · rw [hs2, hs1, List.map_map]
    exact List.map_congr_left fun x hx => by simp only [Function.comp_apply, (hh x hx).num]

/-- A slice of the gang after such a load: what it was but for marks, with each lane's value in its register. -/
theorem now_loaded (hi : s.issuing = some (b, l)) (hg : s.goes n = true) {x : Slice} (hx : x ∈ l) :
    ∃ y : Slice, x.SameRegs y ∧
      ((s.loaded b l (loadAccs s b l g 4 (.v r) a off .none) false nt (putLoad (.v r) sg 32)).goOn b l n).now b x =
        (y.overLanes (x.part_ g) fun j z => z.putLane r.toNat j sg 32 (laneLoad s b x a off j)).passed n := by
  obtain ⟨-, hd, hn, ⟨p, hl, -⟩, -⟩ := goes_spec hi hg
  have hsub : ∀ y ∈ l, y ∈ b.slices := fun y hy => (List.mem_filter.mp (hl ▸ hy)).1
  have hnl : (l.map fun x => x.num).Nodup := hl ▸ hn.sublist ((List.filter_sublist).map _)
  have hput : ∀ a v (x : Slice), (putLoad (.v r) sg 32 a v x).keeps x := fun _ _ _ => Slice.keeps_putLoad ..
  have hk : s.Keeps (s.loaded b l (loadAccs s b l g 4 (.v r) a off .none) false nt (putLoad (.v r) sg 32)) b.uid :=
    Keeps.loaded _ _ _ _ _ _ _ hput _
  obtain ⟨b', h, hb', hu', hh, hs'⟩ := loaded_holds (issuing_holds hi) l (loadAccs s b l g 4 (.v r) a off .none) nt fun a v x => (hput a v x).1
  have hnums : b'.slices.map (fun x => x.num) = b.slices.map fun x => x.num := by
    rw [hs', nums_map fun y hy => (Slice.keeps_foldl (fun z v => hput v _ z) _ _).1.trans (hh y hy).num]
  have hmem : ∀ y ∈ b.slices, ∃ z ∈ b'.slices, z.num = y.num := fun y hy => List.mem_map.mp (hnums ▸ List.mem_map_of_mem hy)
  have hsl : sliceOf l x.num = x := by rw [sliceOf, find_num hnl hx]; rfl
  refine ⟨h x, hh x (hsub x hx), ?_⟩
  rw [now_goOn hb' hu' ((congrArg LaunchRec.det (Keeps.lrOf hk rfl)).trans hd) (hnums ▸ hn) hnl (fun y hy => hmem y (hsub y hy)) hx]
  congr 1
  refine now_eq hb' hu' (hnums ▸ hn) (hs' ▸ List.mem_map.mpr ⟨x, hsub x hx, ?_⟩) ?_
  · rw [filter_loadAccs hnl hx, List.foldl_map]
    simp only [laneAcc, hsl]
    rfl
  · exact (Slice.keeps_overLanes _ _ fun _ _ => Slice.keeps_putLane ..).1.trans (hh x (hsub x hx)).num

end

end Sys2Proof.Machine

end

section
/-! PROOFS. O21. -/

open Sys2Proof Sys2Proof.Machine

/-- Settles O21: the load is performed (`loadsComplete`), a gang's slice is then its lanes' writes on what it was (`now_loaded`), and what
a load leaves behind spares every byte (`State.Spares.afterLoads`). -/
theorem loadWritesWhatItReads : Obligations.LoadWritesWhatItReads := by
  intro g ty sc k r a b s blk l hw hk hi hg hu
  have hs : (k == MemKind.sync) = false := by simpa using hk
  have hgoes : s.goes (lenOf [a, b, .none]) = true := by simpa [lenOf, Opd.isExt] using hg
  have hexec := loadsComplete.2.1 g ty sc k (.v r) a b .none s blk l hi hgoes (by simpa [hw, Opd.isNone] using hu)
  simp only [hw, hs, Nat.reduceDiv] at hexec
  obtain ⟨hc, -⟩ := State.unblocked_iff.mp hu
  obtain ⟨-, -, hn, ⟨p, hl, -⟩, -⟩ := goes_spec hi hg
  have hnl : (l.map fun x => x.num).Nodup := hl ▸ hn.sublist ((List.filter_sublist).map _)
  have hnow := fun (x : Slice) (hx : x ∈ l) =>
    now_loaded (g := g) (r := r) (a := a) (off := b) (sg := ty.isSigned) (nt := k == .nt) hi hgoes hx
  refine ⟨_, hexec, fun x hx j hj => ?_, fun x hx n j hj hne => ?_, fun x hx => ?_, fun o key => ?_⟩
  · obtain ⟨y, -, hy⟩ := hnow x hx
    have hacc : laneAcc s blk x 4 a b j ∈ loadAccs s blk l g 4 (.v r) a b .none :=
      (List.mem_filter.mp (filter_loadAccs hnl hx g 4 r a b ▸ List.mem_map_of_mem hj)).1
    refine ⟨s.physOf (s.lrOf blk).ctx (laneAcc s blk x 4 a b j), phys?_of_checked hc hacc rfl, ?_⟩
    rw [hy, (Slice.SameRegs.passed ..).rv,
      Slice.rv_putLanes_at _ _ _ _ _ _ (mem_lanes.mp hj) fun z => Slice.rv_putLane_narrow z _ _ (lanes_lt hj) (le_refl _), ofNat_extend_32]
    rfl
  · obtain ⟨y, hxy, hy⟩ := hnow x hx
    rw [hy, (Slice.SameRegs.passed ..).rv, Slice.rv_putLanes_other _ _ _ _ _ _ hj, hxy.rv]
    rcases hne with hn | hj'
    · right
      simp only [spanOfWidth, Nat.le_refl, if_true]
      omega
    · exact .inl (by simpa [mem_lanes] using hj')
  · obtain ⟨y, hxy, hy⟩ := hnow x hx
    have hv := Slice.onlyV_putLanes y (x.part_ g) r.toNat ty.isSigned 32 (laneLoad s blk x a b)
    have hpass := Slice.SameRegs.passed (y.overLanes (x.part_ g) fun j z => z.putLane r.toNat j ty.isSigned 32 (laneLoad s blk x a b j))
      (lenOf [a, b, .none])
    rw [hy, hpass.s, hpass.p, hpass.flg, hpass.fmt, hv]
    exact ⟨hxy.s, hxy.p, hxy.flg, hxy.fmt⟩
  · have hmem : ((s.loaded blk l (loadAccs s blk l g 4 (.v r) a b .none) false (k == .nt) (putLoad (.v r) ty.isSigned 32)).goOn blk l
        (lenOf [a, b, .none])).mem = (s.afterLoads blk (k == .nt) l (loadAccs s blk l g 4 (.v r) a b .none)).mem := by
      rw [State.goOn, State.modBlock_mem, State.loaded]
      exact List.foldlRecOn (motive := fun t : State => t.mem = _) _ _ rfl fun t ht v _ => (State.modSlice_mem ..).trans ht
    rw [hmem]
    exact (State.Spares.afterLoads ..).readAs o key

end

section
/-! PROOFS. Prefetch, maintenance and paths (R234 to R238). -/

namespace Sys2Proof.Machine

namespace Keeps

theorem prefOne (s : State) (k : PrefKind) (p : Phys) (uid : Nat) : s.Keeps (s.prefOne k p) uid := by
  unfold State.prefOne
  split
  · split
    · exact startFetch ..
    · exact refl ..
  · split
    · exact same uid rfl rfl
    · exact refl ..

theorem maintRange (s : State) (b : Block) (sl : Slice) (sc : Scope) (k : MaintKind) (va n uid : Nat) :
    s.Keeps (s.maintRange b sl sc k va n) uid := by
  unfold State.maintRange
  split
  · exact refl ..
  · exact same uid rfl rfl

theorem cmaintDone (s : State) (blk : Block) (l : List Slice) (g : Guard) (sc : Scope) (k : MaintKind) (a b : Opd) (uid : Nat) :
    s.Keeps (cmaintDone s blk l g sc k a b) uid := by
  refine overSlices (fun t b' x => ?_) s g blk l
  split
  · exact modSlice _ _ _ _ _ fun _ => ⟨rfl, rfl, rfl, rfl, rfl⟩
  · exact maintRange ..

end Keeps

/-- Where no slice that takes part fails the check, nothing is raised. -/
theorem gangTrap_none {g : Guard} {l : List Slice} {check : Slice → Option Ev} (h : ∀ x ∈ l, x.part_ g ≠ 0 → check x = none) :
    gangTrap g l check = none := by
  unfold gangTrap
  rw [gather_map_ok _ _ id fun x hx => ?_]
  obtain ⟨hx, hp⟩ := List.mem_filter.mp hx
  rw [h x hx (by simpa using hp)]
  rfl

theorem evOf_of_isOk {α : Type} {r : Except Ev α} (h : isOk r = true) : evOf r = none := by
  cases r with
  | ok x => rfl
  | error e => cases h

/-- A gang that finds what it waits for goes on. -/
theorem waitGang_done {s : State} {g : Guard} {b : Block} {l : List Slice} {holds : Slice → Bool} (w : Slice → Wait)
    (h : ∀ x ∈ l, x.part_ g ≠ 0 → holds x = true) : waitGang s g b l holds w = .done s [] := by
  have hall : (l.filter fun x => x.part_ g != 0).all holds = true := by
    rw [List.all_eq_true]
    intro x hx
    obtain ⟨hx, hp⟩ := List.mem_filter.mp hx
    exact h x hx (by simpa using hp)
  rw [waitGang, if_pos hall]

end Sys2Proof.Machine

end

section
/-! PROOFS. O20. -/

open Sys2Proof Sys2Proof.Machine

/-- Settles O20: each is an effect that keeps the gang's slices in their places, or the machine's own step written out. -/
theorem cacheAndPathOperationsComplete : Obligations.CacheAndPathOperationsComplete := by
  refine ⟨fun g k a b => ?_, fun g sc k a b => ?_, fun g path a => ?_, fun g d a s b l hi hg => ?_,
    fun s c ps ws blk k hc hkind hblk hpath => ?_, fun s line => rfl⟩
  · exact performs_of_perGang (fun _ => rfl) (fun _ _ _ _ => rfl) fun s blk l => Keeps.foldl (fun _ _ => Keeps.prefOne ..) _ _
  · refine performs_of_perGang (fun _ => rfl) (fun s blk l h => ?_) fun s blk l => Keeps.cmaintDone ..
    have hnone : gangTrap g l (fun x => evOf (cmaintSegs s blk k a b x)) = none := gangTrap_none fun x hx hp =>
      evOf_of_isOk (((Bool.or_eq_true _ _).mp (List.all_eq_true.mp h x hx)).resolve_left (by simpa using hp))
    simp only [hnone]
  · refine performs_of_perKind (sync := true) (g := g) (fun _ => rfl) (fun s blk l h => ?_) fun s blk l => Keeps.refl ..
    exact waitGang_done _ fun x hx hp => ((Bool.or_eq_true _ _).mp (List.all_eq_true.mp h x hx)).resolve_left (by simpa using hp)
  · obtain ⟨-, hd, -⟩ := goes_spec hi hg
    have hx := perSlice_goes (fun x => x.setS g d (s.xlatWord (s.lrOf b).ctx (svalOf (s.envOf b x) x a).toNat false)) hi hg
      (f := fun e x => .ok (x.setS g d (s.xlatWord e.lr.ctx (svalOf e x a).toNat e.lr.det))) (g := g)
      (fun x _ _ => by rw [← hd]; rfl) fun x _ => Slice.keeps_setS ..
    exact congrArg Host.Outcome.next hx
  · simp only [exec, execScratchLoadReturn, hc, hkind, hblk, hpath, State.modShare_mem, State.modShare_cmds]

end

section
/-! PROOFS. The checks of an access (R226). -/

namespace Sys2Proof.Machine

/-! ## The first failing row -/

/-- The lowest of the accesses that fail a row heads their list. -/
theorem failing_head {s : State} {b : Block} {accs : List Acc} {ok : Phys → Bool} {k : Nat} {a : Acc}
    (h : accs.find? (fun x => (s.rowFails b ok k x).isSome) = some a) :
    ∃ l, accs.filter (fun x => (s.rowFails b ok k x).isSome) = a :: l :=
  ⟨_, List.eq_cons_of_mem_head? (by rw [List.head?_filter, h]; rfl)⟩

/-- Where no access fails a row, the row raises nothing. -/
theorem failing_none {s : State} {b : Block} {accs : List Acc} {ok : Phys → Bool} {k : Nat}
    (h : ∀ x ∈ accs, s.rowFails b ok k x = none) : accs.filter (fun x => (s.rowFails b ok k x).isSome) = [] :=
  List.filter_eq_nil_iff.mpr fun x hx => by rw [h x hx]; simp

/-- Of rows in ascending order the first that fails in some access decides. -/
theorem checkRows_first {s : State} {b : Block} {accs : List Acc} {ok : Phys → Bool} {rows : List Nat} {k : Nat} {a : Acc} {e : Ev}
    (hs : rows.Pairwise (· < ·)) (hk : k ∈ rows) (hb : ∀ j ∈ rows, j < k → ∀ x ∈ accs, s.rowFails b ok j x = none)
    (ha : accs.find? (fun x => (s.rowFails b ok k x).isSome) = some a) (he : s.rowFails b ok k a = some e) :
    s.checkRows b accs ok rows = some { e with lanes := lanesOfAccs (accs.filter fun x => (s.rowFails b ok k x).isSome) } := by
  obtain ⟨pre, post, rfl⟩ := List.append_of_mem hk
  refine List.findSome?_eq_some_iff.mpr ⟨pre, k, post, rfl, ?_, fun j hj => ?_⟩
  · obtain ⟨l, hl⟩ := failing_head ha
    simp only [hl, he, Option.map_some]
  · have hlt : j < k := (List.pairwise_append.mp hs).2.2 j hj k (List.mem_cons_self ..)
    simp only [failing_none (hb j (List.mem_append_left _ hj) hlt)]

/-! ## The codes of the rows -/

section
variable {s : State} {b : Block} {ok : Phys → Bool} {a : Acc} {e : Ev}

theorem rowFails_align (h : s.rowFails b ok 1 a = some e) : e.code = 0x03 := by
  unfold State.rowFails at h
  grind [Ev.align, Ev.of]

theorem rowFails_bounds (h : s.rowFails b ok 2 a = some e) : e.code = 0x05 ∧ e.detail = 0x03 := by
  unfold State.rowFails at h
  grind [Ev.perm, Ev.of]

theorem rowFails_pagef (h : s.rowFails b ok 3 a = some e) : e.code = 0x04 := by
  unfold State.rowFails at h
  grind [Ev.pagef, Ev.of]

theorem rowFails_perm (h : s.rowFails b ok 4 a = some e) : e.code = 0x05 := by
  unfold State.rowFails at h
  grind [Ev.perm, Ev.of]

theorem rowFails_lost (h : s.rowFails b ok 5 a = some e) : e.code = 0x09 ∨ e.code = 0x0A := by
  unfold State.rowFails at h
  grind [Ev.swlost, Ev.peerlost, Ev.of]

theorem rowFails_detx (h : s.rowFails b ok 6 a = some e) : e.code = 0x07 := by
  unfold State.rowFails at h
  grind [Ev.detx, Ev.of]

theorem rowFails_poison (h : s.rowFails b ok 7 a = some e) : e.code = 0x08 := by
  unfold State.rowFails at h
  grind [Ev.memue, Ev.of]

end

/-! ## An instruction whose check fails -/

section
variable {s : State} {b : Block} {l : List Slice} {n : Nat} {g : Guard} {sync : Bool} {f : Block → List Slice → Res} {e : Ev}

theorem perGang_trap {qend : Bool} (hi : s.issuing = some (b, l)) (hf : f b l = .trap e) : s.perGang n qend f = s.raise e := by
  simp only [State.perGang, hi, hf, State.complete]

theorem perKind_trap (hi : s.issuing = some (b, l)) (hp : s.plain = true) (hf : f b l = .trap e) : s.perKind sync g n f = s.raise e := by
  obtain ⟨-, hd, -⟩ := plain_spec hi hp
  unfold State.perKind
  split
  · simp only [State.perSerial, hi, hd, Bool.false_and, Bool.false_eq_true, if_false, hf, State.complete]
  · exact perGang_trap hi hf

theorem storeGang_trap {accs : List Acc} (h : s.checkAccs b accs (fun _ => true) = some e) (sc : Scope) (nt : Bool)
    (data : Acc → List (Option Byte)) : s.storeGang b l sc nt accs data = .trap e := by
  simp only [State.storeGang, h]

theorem loadRegs_trap {accs : List Acc} (h : s.checkAccs b accs (fun _ => true) = some e) (acq nt : Bool)
    (put : Acc → Nat → Slice → Slice) : s.loadRegs b l accs acq nt put = .trap e := by
  simp only [State.loadRegs, h]

/-- What LD and LDW come to where their accesses fail. -/
theorem loadForm_trap {d : Opd} {accs : List Acc} {acq nt : Bool} {put : Acc → Nat → Slice → Slice}
    (h : s.checkAccs b accs (fun _ => true) = some e) :
    (if d.isNone then s.loadScratch b l accs acq nt else s.loadRegs b l accs acq nt put) = .trap e := by
  split
  · simp only [State.loadScratch, h]
  · exact loadRegs_trap h ..

/-- An atomic of a launch that is not deterministic whose accesses fail raises their event. -/
theorem atomicGang_trap {accs : List Acc} (hd : (s.lrOf b).det = false)
    (h : s.checkAccs b accs (fun p => Pte.tgt p.pte != 5) = some e) (named sc : Scope) (k : Atomic) :
    s.atomicGang g b l named sc k accs = .trap e := by
  simp only [State.atomicGang, State.atomicEv, hd, Bool.false_and, Bool.false_eq_true, if_false, State.checkAtomics, h]

end

end Sys2Proof.Machine

end

section
/-! PROOFS. O23. -/

open Sys2Proof Sys2Proof.Machine

/-- Settles O23: the rows are looked at in ascending order (`checkRows_first`), each with its own code, and every form of a memory
instruction hands what its accesses raise on to the gang. -/
theorem firstFailingRowDecides : Obligations.FirstFailingRowDecides := by
  refine ⟨fun s b accs ok k a e hk hb ha he => ?_, fun s blk l e hi hp => ?_⟩
  · refine ⟨checkRows_first (by decide) hk hb ha he, ?_, ?_, ?_, ?_, ?_, ?_, ?_⟩ <;> rintro rfl
    · exact rowFails_align he
    · exact rowFails_bounds he
    · exact rowFails_pagef he
    · exact rowFails_perm he
    · exact rowFails_lost he
    · exact rowFails_detx he
    · exact rowFails_poison he
  · obtain ⟨-, hd, -⟩ := plain_spec hi hp
    refine ⟨fun g ty sc k d a b c h => ?_, fun g ty sc k a b c h => ?_, fun g ty sc g4 d a b c h => ?_, fun g ty sc g4 a b c h => ?_,
      fun g ty sc d a b hs h => ?_, fun g ty sc a b c hs h => ?_, fun g ty op sc d a b c h => ?_, fun g ty op sc a b h => ?_,
      fun g sc d a b h => ?_, fun g ty n sc d a b c h => ?_, fun g ty d a b h => ?_, fun g ty a b c h => ?_⟩ <;>
      refine congrArg Host.Outcome.next ?_
    · exact perKind_trap hi hp (loadForm_trap h)
    · exact perKind_trap hi hp (by simp only [storeGang_trap h])
    · exact perGang_trap hi (loadForm_trap h)
    · exact perGang_trap hi (storeGang_trap h ..)
    · exact perGang_trap hi (by simp only [hs, loadRegs_trap h])
    · exact perGang_trap hi (by simp only [hs, h])
    · exact perKind_trap hi hp (atomicGang_trap hd h ..)
    · exact perKind_trap hi hp (atomicGang_trap hd h ..)
    · exact perKind_trap hi hp (atomicGang_trap hd h ..)
    · exact perKind_trap hi hp (atomicGang_trap hd h ..)
    · exact perGang_trap hi (by simp only [h])
    · exact perGang_trap hi (by simp only [h])

end

section
/-! PROOFS. Atomics (R266 to R273): what they do keeps a gang's slices in their places. -/

namespace Sys2Proof.Machine

namespace Slice

theorem keeps_doneA (x : Slice) (ret : Bool) (ws late : List RegWrite) : (x.doneA ret ws late).keeps x := by
  unfold Slice.doneA
  simp only
  split
  · exact keeps_writeAll ..
  · exact keeps_trans (y := x.writeAll ws) ⟨rfl, rfl, rfl, rfl, rfl⟩ (keeps_writeAll ..)

end Slice

namespace Keeps

theorem stallFor (s : State) (b : Block) (l ns : List Nat) (uid : Nat) : s.Keeps (s.stallFor b l ns) uid := by
  refine trans (foldl (fun t n => ?_) ns s) (foldl (fun t n => ?_) l _)
  · exact startFetch ..
  · exact modSlice _ _ _ _ _ fun _ => ⟨rfl, rfl, rfl, rfl, rfl⟩

/-- The state that stores leave, whether they are made or wait for room. -/
theorem performStores {s t : State} {b : Block} {sc : Scope} {nt : Bool} {l : List (Slice × Phys × List (Option Byte))}
    {c : Option CachePlace} (uid : Nat) (h : s.performStores b sc nt l c = .ok t ∨ s.performStores b sc nt l c = .error t) :
    s.Keeps t uid := by
  unfold State.performStores at h
  split at h <;> rcases h with h | h <;> cases h
  · exact stallFor ..
  · exact stored ..

theorem atomicOne (s : State) (b : Block) (x : Slice) (sc : Scope) (p : Phys) (size : Nat) (f : Nat → Option Nat) (uid : Nat) :
    s.Keeps (s.atomicOne b x sc p size f).2 uid := by
  unfold State.atomicOne
  generalize e : ({ s with mem := _ } : State) = t
  have ht : s.Keeps t uid := e ▸ same uid rfl rfl
  refine trans ht ?_
  simp only
  split
  · refine trans (trans ?_ (tagAccess ..)) (travels ..)
    split
    · exact loadTick ..
    · exact refl ..
  · split
    · next h => exact performStores uid (.inl h)
    · next h => exact performStores uid (.inr h)

theorem atomicRun (s : State) (b : Block) (l : List Slice) (sc : Scope) (k : Atomic) (accs : List Acc) (uid : Nat) :
    s.Keeps (s.atomicRun b l sc k accs).1 uid := by
  induction accs generalizing s with
  | nil => exact refl ..
  | cons a rest ih =>
    unfold State.atomicRun
    simp only
    split
    · split
      · exact trans (trans (trans (trans (releaseHeld ..) (travels ..)) (appendAll ..)) (storeMark ..)) (ih _)
      · exact ih _
    · exact trans (atomicOne ..) (ih _)

theorem awaitFar (s : State) (b : Block) (x : Slice) (place : Far) (accs : List Acc) (ws : List RegWrite) (uid : Nat) :
    s.Keeps (s.awaitFar b x place accs ws) uid := by
  have hplace : s.Keeps (if place.isPeer then s.newId.2.modShare b.uid x.share (fun sh => sh.accept 4) else s.newId.2) uid := by
    split
    · exact trans (newId ..) (modShare ..)
    · exact newId ..
  refine andSame (trans (trans hplace (modSlice _ uid _ _ _ ?_)) (onWay ..)) rfl rfl
  exact fun _ => ⟨rfl, rfl, rfl, rfl, rfl⟩

theorem atomicDone (s : State) (g : Guard) (b : Block) (l : List Slice) (sc : Scope) (k : Atomic) (accs : List Acc) (uid : Nat) :
    s.Keeps (s.atomicDone g b l sc k accs) uid := by
  unfold State.atomicDone
  refine trans (trans (rememberAll ..) (atomicRun ..)) (overSlices (fun t b x => ?_) _ g b l)
  split
  · exact modSlice _ _ _ _ _ fun y => y.keeps_replayA
  · exact trans (modSlice _ _ _ _ _ fun y => Slice.keeps_doneA ..) (foldl (fun _ _ => awaitFar ..) _ _)

end Keeps

/-- An atomic that raises nothing and waits for nothing is performed. -/
theorem atomicGang_done {s : State} {g : Guard} {b : Block} {l : List Slice} {named : Scope} {k : Atomic} {accs : List Acc}
    (h : ((s.atomicEv g b l named k accs).isNone && !s.held_ (s.lrOf b).ctx (atomicTodo l accs) &&
      !s.q1Full (s.lrOf b).ctx l (atomicTodo l accs) && (s.atomicWants b l k (atomicTodo l accs)).isEmpty) = true) (sc : Scope) :
    s.atomicGang g b l named sc k accs = .done (s.atomicDone g b l sc k accs) [] := by
  simp only [Bool.and_eq_true, Option.isNone_iff_eq_none, Bool.not_eq_true', List.isEmpty_iff] at h
  obtain ⟨⟨⟨hev, hheld⟩, hq⟩, hw⟩ := h
  simp only [State.atomicGang, hev, hheld, hq, hw, Bool.or_self, Bool.false_eq_true, if_false]

end Sys2Proof.Machine

end

section
/-! PROOFS. O29. -/

open Sys2Proof Sys2Proof.Machine

/-- Settles O29: the four forms share `State.atomicGang`, which performs what waits for nothing. -/
theorem atomicsComplete : Obligations.AtomicsComplete := by
  refine ⟨fun g ty op sc d a b c => ?_, fun g ty op sc a b => ?_, fun g sc d a b => ?_, fun g ty n sc d a b c => ?_⟩
  all_goals exact performs_of_perKind (sync := true) (g := g) (fun _ => rfl) (fun s b l h => atomicGang_done h _) fun s b l => Keeps.atomicDone ..

end

section
/-! PROOFS. Caches and the stack (R228, R235, R261, R297): what the primitives of memory leave to every load and at the home memory. -/

namespace Sys2Proof.Machine

namespace Memory

/-! ## Bytes -/

theorem peek_pokeAt (m : Memory) (c : CachePlace) (key k : Nat) (x : Byte) :
    (m.pokeAt c key x).peek k = if k = key then x else m.peek k := by
  rw [Memory.peek, pokeAt_ram, Cells.get_set]
  rfl

theorem bankPeek_setBank (m : Memory) (key k : Nat) (x : Byte) :
    (m.setBank key x).bankPeek k = if k = key then x else m.bankPeek k := by
  unfold Memory.setBank Memory.bankPeek
  by_cases hk : k = key
  · subst hk
    by_cases hx : m.peek k = x
    · simp only [hx, if_true, Cells.find?_del_same]
      exact hx
    · simp only [hx, if_false, if_true, Cells.find?_put_same, Option.getD_some]
  · have hfind : Cells.find? (if m.peek key = x then Cells.del m.bank key else Cells.put m.bank key x) k = Cells.find? m.bank k := by
      split
      · exact Cells.find?_del_other _ hk
      · exact Cells.find?_put_other _ _ hk
    simp only [hfind, if_neg hk]
    rfl

theorem bankPeek_through (m : Memory) (key k : Nat) (x : Byte) :
    (m.through key x).bankPeek k = if k = key then x else m.bankPeek k := by
  unfold Memory.bankPeek Memory.through Memory.peek
  by_cases hk : k = key
  · subst hk
    simp only [Cells.find?_del_same, Cells.get_set_same, if_true, Option.getD_none]
  · simp only [Cells.find?_del_other _ hk, Cells.get_set_other _ _ _ hk, if_neg hk]

/-- A dirty line of which the home memory is brought up to date. -/
theorem bankPeek_clean_dirty {m : Memory} {l : Nat} {x : Line} (hx : m.line? l = some x) (hd : x.dirty = true) (k : Nat) :
    (m.clean l).bankPeek k = if lineOf k = l then m.peek k else m.bankPeek k := by
  simp only [Memory.clean, hx, hd, if_true, Memory.bankPeek, Memory.peek, Memory.setLine]
  by_cases hk : lineOf k = l
  · rw [Cells.find?_filter_none m.bank (fun n => lineOf n != l) k (by simp [hk]), if_pos hk]
    rfl
  · rw [Cells.find?_filter m.bank (fun n => lineOf n != l) k (by simp [hk]), if_neg hk]

theorem clean_no_line {m : Memory} {l : Nat} (h : m.line? l = none) : m.clean l = m := by
  simp only [Memory.clean, h]

theorem bankPeek_take (m : Memory) (c : CachePlace) (l k : Nat) :
    (m.take c l).bankPeek k = if m.dirtyBeside c l = true ∧ lineOf k = l then m.peek k else m.bankPeek k := by
  unfold Memory.take
  by_cases hb : m.dirtyBeside c l = true
  · simp only [hb, if_true, true_and]
    unfold Memory.dirtyBeside at hb
    split at hb
    · next x hx => exact bankPeek_clean_dirty hx (Bool.and_eq_true_iff.mp hb).1 k
    · cases hb
  · simp only [hb, if_false, false_and, Bool.false_eq_true]

/-- What a cache writes stays away from the home memory, which another cache's dirty bytes of the line may reach. -/
theorem bankPeek_pokeAt (m : Memory) (c : CachePlace) {key : Nat} (k : Nat) (x : Byte) (hc : isCached key = true) :
    (m.pokeAt c key x).bankPeek k = (m.take c (lineOf key)).bankPeek k := by
  simp only [Memory.pokeAt, hc, if_true, bankPeek_setBank]
  split
  · next hk => rw [hk]
  · next hk =>
    simp only [Memory.bankPeek, Memory.setLine, Memory.through, Memory.peek, Cells.find?_del_other _ hk, Cells.get_set_other _ _ _ hk]

/-- The line that a cache has written is dirty there. -/
theorem line?_pokeAt (m : Memory) (c : CachePlace) {key : Nat} (x : Byte) (hc : isCached key = true) :
    (m.pokeAt c key x).line? (lineOf key) = some { line := lineOf key, dirty := true, place := c } := by
  simp only [Memory.pokeAt, hc, if_true, Memory.line?, Memory.setBank, Memory.setLine, List.find?_cons, beq_self_eq_true]

@[simp] theorem peek_clean (m : Memory) (l k : Nat) : (m.clean l).peek k = m.peek k := by
  rw [Memory.peek, clean_ram]
  rfl

/-- A byte that a cache has written reaches the home memory when its line is cleaned. -/
theorem clean_pokeAt (m : Memory) (c : CachePlace) {key : Nat} (x : Byte) (hc : isCached key = true) :
    ((m.pokeAt c key x).clean (lineOf key)).bankPeek key = x ∧ ((m.pokeAt c key x).clean (lineOf key)).peek key = x := by
  rw [bankPeek_clean_dirty (m.line?_pokeAt c x hc) rfl, if_pos rfl, peek_clean, peek_pokeAt, if_pos rfl]
  exact ⟨rfl, rfl⟩

/-! ## Invalidation -/

/-- Writing a sorted list of bytes. -/
theorem ramFold_get {l : Cells Byte} {b : Nat} (hs : Cells.sorted b l = true) (r : Cells Byte) (k : Nat) :
    Cells.get 0 (l.foldl (fun r c => Cells.set 0 r c.1 c.2) r) k = (Cells.find? l k).getD (Cells.get 0 r k) := by
  induction l generalizing b r with
  | nil => rfl
  | cons c l ih =>
    obtain ⟨a, x⟩ := c
    simp only [Cells.sorted, Bool.and_eq_true] at hs
    rw [List.foldl_cons, ih hs.2]
    by_cases hk : a = k
    · have hnone : Cells.find? l k = none := by
        refine Option.eq_none_iff_forall_ne_some.mpr fun y hy => ?_
        have := Cells.sorted_le hs.2 (Cells.find?_some_mem hy)
        simp only at this
        omega
      simp only [hnone, Cells.find?, hk, if_true, Cells.get_set_same, Option.getD_none, Option.getD_some]
    · simp only [Cells.find?, hk, if_false, Cells.get_set_other _ _ _ (Ne.symm hk)]

theorem peek_inval {m : Memory} (h : m.wf = true) (key : Nat) : (m.inval (lineOf key)).peek key = m.bankPeek key := by
  obtain ⟨-, hs, -⟩ := (wf_iff m).mp h
  have hg := ramFold_get (Cells.sorted_filter (fun c => lineOf c.1 == lineOf key) hs) m.ram key
  rw [Cells.find?_filter m.bank (fun n => lineOf n == lineOf key) key (by simp)] at hg
  exact hg

/-! ## Maintenance -/

/-- A line that is dirty outside the scope, and on which nothing is held, stays as it is. -/
theorem maintain_outside {m : Memory} {x : Line} {r : LaunchRec} {sc : Scope} {core : Nat} (k : MaintKind) (hx : m.line? x.line = some x)
    (hd : x.dirty = true) (hc : scopeCovers r sc core x.place = false) (hh : ∀ h ∈ m.held, lineOf h.key ≠ x.line) :
    m.maintain r sc core k x.line = m := by
  have hmine : ∀ h ∈ m.held, (lineOf h.key == x.line && scopeCovers r sc core h.place) = false := fun h hm => by
    simp [hh h hm]
  have hnone : m.held.filter (fun h => lineOf h.key == x.line && scopeCovers r sc core h.place) = [] :=
    List.filter_eq_nil_iff.mpr fun h hm => by simp [hmine h hm]
  have hall : m.held.filter (fun h => !(lineOf h.key == x.line && scopeCovers r sc core h.place)) = m.held :=
    List.filter_eq_self.mpr fun h hm => by simp [hmine h hm]
  have hcov : m.covered r sc core x.line = false := by simp only [Memory.covered, hx, hc, hd, Bool.not_true, Bool.or_self]
  simp only [Memory.maintain, hnone, hall, List.foldl_nil, ite_self, hcov, Bool.false_eq_true, if_false]

/-- The only store that is held, published. -/
theorem publishUpTo_single {m : Memory} {h : HeldByte} (hm : m.held = [h]) :
    m.publishUpTo h.block h.slice h.seq = ({ m with held := [] } : Memory).store h.nt h.place h.key h.val := by
  simp only [Memory.publishUpTo, Memory.publish, hm, List.foldr_cons, List.foldr_nil, beq_self_eq_true, Nat.le_refl, decide_true,
    Bool.and_self, if_true]

/-- A store on a line of T1 or T2 either leaves no copy of it or leaves it dirty where it was made. -/
theorem store_cases (m : Memory) (nt : Bool) (c : CachePlace) (key : Nat) (x : Byte) :
    m.store nt c key x = m.pokeAt c key x ∨ (m.store nt c key x).line? (lineOf key) = none ∧
      (m.store nt c key x).bankPeek key = x ∧ (m.store nt c key x).peek key = x := by
  unfold Memory.store
  split
  · next h =>
    refine .inr ⟨Option.isNone_iff_eq_none.mp (Bool.and_eq_true_iff.mp h).2, ?_, Cells.get_set_same ..⟩
    exact (bankPeek_through m key key x).trans (if_pos rfl)
  · exact .inl rfl

/-- A clean of the scope that a store is held in brings it to the home memory. -/
theorem maintain_clean_held {m : Memory} {h : HeldByte} {r : LaunchRec} {sc : Scope} {core : Nat} (hm : m.held = [h])
    (hk : isCached h.key = true) (hc : scopeCovers r sc core h.place = true) :
    let n := m.maintain r sc core .clean (lineOf h.key)
    n.bankPeek h.key = h.val ∧ n.peek h.key = h.val ∧ n.held = [] := by
  have hone : (m.held.filter fun x => lineOf x.key == lineOf h.key && scopeCovers r sc core x.place) = [h] := by
    rw [hm, List.filter_cons]
    simp only [beq_self_eq_true, hc, Bool.and_self, if_true, List.filter_nil]
  have hheld : (({ m with held := [] } : Memory).store h.nt h.place h.key h.val).held = [] := by rw [store_held]; rfl
  simp only [Memory.maintain, hone, List.foldl_cons, List.foldl_nil, publishUpTo_single hm, reduceCtorEq, if_false]
  rcases store_cases { m with held := [] } h.nt h.place h.key h.val with e | ⟨hline, hbank, hpeek⟩
  · have hcov : (({ m with held := [] } : Memory).pokeAt h.place h.key h.val).covered r sc core (lineOf h.key) = true := by
      simp only [Memory.covered, line?_pokeAt _ _ _ hk, hc, Bool.true_or]
    rw [e] at hheld ⊢
    obtain ⟨hb, hp⟩ := clean_pokeAt { m with held := [] } h.place h.val hk
    rw [if_pos hcov]
    exact ⟨hb, hp, (clean_held ..).trans hheld⟩
  · simp only [clean_no_line hline, ite_self]
    exact ⟨hbank, hpeek, hheld⟩

end Memory

end Sys2Proof.Machine

end

section
/-! PROOFS. O24. -/

open Sys2Proof Sys2Proof.Machine

/-- Settles O24: each clause is a law of one primitive of memory. -/
theorem cacheAndStackBytes : Obligations.CacheAndStackBytes := by
  refine ⟨fun m c key x => ?_, fun m c key k x hk => ⟨?_, fun hc => ?_⟩, fun m c key k x hc => ?_, fun m c key x hc => m.clean_pokeAt c x hc,
    fun m h r sc core hm hk hc => Memory.maintain_clean_held hm hk hc, fun m x r sc core k hx hd hc hh => Memory.maintain_outside k hx hd hc hh,
    fun m key hw => Memory.peek_inval hw key, fun m key x => ?_, fun m key x hc hl => ?_⟩
  · rw [Memory.peek_pokeAt, if_pos rfl]
  · rw [Memory.peek_pokeAt, if_neg hk]
  · simp only [Memory.pokeAt, hc, Bool.false_eq_true, if_false]
    exact (Memory.bankPeek_through m key k x).trans (if_neg hk)
  · rw [Memory.bankPeek_pokeAt m c k x hc, Memory.bankPeek_take]
  · unfold Memory.bankPoke
    split
    · rw [Memory.bankPeek_setBank, if_pos rfl]
    · rw [Memory.bankPeek_through, if_pos rfl]
  · simp only [Memory.bankPoke, hc, hl, Bool.and_self, if_true]
    rfl

end

section
/-! PROOFS. The host window (R358, R389, R391, R397, R398): which register an offset names. -/

namespace Sys2Proof.Machine

section
variable {s : State} (ho : s.hostOpen = true) (v : Word)
include ho

/-- A queue's block of the window. -/
theorem windowWrite_queue {q r : Nat} (hq : q < 64) (hr : r < 64) : s.windowWrite (0x10_0000 + 64 * q + r) v = s.queueWrite q r v := by
  have hin : 0x10_0000 ≤ 0x10_0000 + 64 * q + r ∧ 0x10_0000 + 64 * q + r < 0x10_1000 := by omega
  have hdiv : (0x10_0000 + 64 * q + r - 0x10_0000) / 64 = q := by omega
  have hmod : (0x10_0000 + 64 * q + r) % 64 = r := by omega
  simp only [State.windowWrite, ho, Bool.not_true, Bool.false_eq_true, if_false, Bool.and_eq_true, decide_eq_true_eq]
  rw [if_pos hin, hdiv, hmod]

theorem windowWrite_upload : s.windowWrite 0x10_1000 v = s.graphUpload v := by
  simp only [State.windowWrite, ho]
  rfl

theorem windowWrite_free : s.windowWrite 0x10_1010 v = s.graphFree v.toNat := by
  simp only [State.windowWrite, ho]
  rfl

theorem windowWrite_kick {k : Nat} (hk : k < 256) : s.windowWrite (0x10_2000 + 8 * k) v = s.graphKick k v := by
  have hin : (0x10_2000 ≤ 0x10_2000 + 8 * k ∧ 0x10_2000 + 8 * k < 0x10_2800) ∧ (0x10_2000 + 8 * k) % 8 = 0 := by omega
  have hdiv : (0x10_2000 + 8 * k - 0x10_2000) / 8 = k := by omega
  simp only [State.windowWrite, ho, Bool.not_true, Bool.false_eq_true, if_false, Bool.and_eq_true, decide_eq_true_eq, beq_iff_eq]
  rw [if_neg (by omega), if_neg (by omega), if_neg (by omega), if_pos hin, hdiv]

theorem windowWrite_job {j : Nat} (hj : j < 64) : s.windowWrite (0x10_4000 + 8 * j) v = s.bindJob j v := by
  have hin : (0x10_4000 ≤ 0x10_4000 + 8 * j ∧ 0x10_4000 + 8 * j < 0x10_4200) ∧ (0x10_4000 + 8 * j) % 8 = 0 := by omega
  have hdiv : (0x10_4000 + 8 * j - 0x10_4000) / 8 = j := by omega
  simp only [State.windowWrite, ho, Bool.not_true, Bool.false_eq_true, if_false, Bool.and_eq_true, decide_eq_true_eq, beq_iff_eq]
  rw [if_neg (by omega), if_neg (by omega), if_neg (by omega), if_neg (by omega), if_pos hin, hdiv]

/-- A context's block of the window. -/
theorem windowWrite_ctx {c r : Nat} (hc : c < 64) (hr : r < 256) : s.windowWrite (0x20_0000 + 256 * c + r) v = s.ctxRegWrite c r v := by
  have hin : 0x20_0000 ≤ 0x20_0000 + 256 * c + r ∧ 0x20_0000 + 256 * c + r < 0x20_4000 := by omega
  have hdiv : (0x20_0000 + 256 * c + r - 0x20_0000) / 256 = c := by omega
  have hmod : (0x20_0000 + 256 * c + r) % 256 = r := by omega
  simp only [State.windowWrite, ho, Bool.not_true, Bool.false_eq_true, if_false, Bool.and_eq_true, decide_eq_true_eq, beq_iff_eq]
  rw [if_neg (by omega), if_neg (by omega), if_neg (by omega), if_neg (by omega), if_neg (by omega), if_pos hin, hdiv, hmod]

theorem windowRead_queue {q r : Nat} (hq : q < 64) (hr : r < 64) : s.windowRead (0x10_0000 + 64 * q + r) =
    if r = 8 then Hq.stat (s.hq q) else if r = 24 then bindWord (s.hq q).bound (s.hq q).ctx else 0 := by
  have hin : 0x10_0000 ≤ 0x10_0000 + 64 * q + r ∧ 0x10_0000 + 64 * q + r < 0x10_1000 := by omega
  have hdiv : (0x10_0000 + 64 * q + r - 0x10_0000) / 64 = q := by omega
  have hmod : (0x10_0000 + 64 * q + r) % 64 = r := by omega
  simp only [State.windowRead, ho, Bool.not_true, Bool.false_eq_true, if_false, Bool.and_eq_true, decide_eq_true_eq]
  rw [if_neg (by omega), if_neg (by omega), if_pos hin, hdiv, hmod]

theorem windowRead_ctx {c r : Nat} (hc : c < 64) (hr : r < 256) :
    s.windowRead (0x20_0000 + 256 * c + r) = (s.ctx c).hostRead r := by
  have hin : 0x20_0000 ≤ 0x20_0000 + 256 * c + r ∧ 0x20_0000 + 256 * c + r < 0x20_4000 := by omega
  have hdiv : (0x20_0000 + 256 * c + r - 0x20_0000) / 256 = c := by omega
  have hmod : (0x20_0000 + 256 * c + r) % 256 = r := by omega
  simp only [State.windowRead, ho, Bool.not_true, Bool.false_eq_true, if_false, Bool.and_eq_true, decide_eq_true_eq, beq_iff_eq]
  rw [if_neg (by omega), if_neg (by omega), if_neg (by omega), if_neg (by omega), if_neg (by omega), if_neg (by omega), if_pos hin,
    hdiv, hmod]

end

/-- In recovery the window's registers have no effect, and none but BOOTST answers. -/
theorem windowWrite_closed {s : State} (ho : s.hostOpen = false) (off : Nat) (v : Word) : s.windowWrite off v = s := by
  simp only [State.windowWrite, ho, Bool.not_false, if_true]

theorem windowRead_closed {s : State} (ho : s.hostOpen = false) {off : Nat} (h : off ≠ 0x10_5008) : s.windowRead off = 0 := by
  simp only [State.windowRead, ho, h, Bool.not_false, if_true, if_false]

/-- The words of a context's fault record. -/
theorem hostRead_fault (x : Ctx) {k : Nat} (hk : k < 8) : x.hostRead (160 + 8 * k) = x.faultWord (8 * k) := by
  have h : k = 0 ∨ k = 1 ∨ k = 2 ∨ k = 3 ∨ k = 4 ∨ k = 5 ∨ k = 6 ∨ k = 7 := by omega
  rcases h with rfl | rfl | rfl | rfl | rfl | rfl | rfl | rfl <;> rfl

theorem ctxRegWrite_pfres (s : State) (c : Nat) (v : Word) : s.ctxRegWrite c 96 v =
    if v.toNat / 2 ^ 62 = 1 then s.pfresResume c (v.toNat % 2 ^ 16)
    else if v.toNat / 2 ^ 62 = 2 then s.pfresFail c (v.toNat % 2 ^ 16) else s := by
  simp only [State.ctxRegWrite]
  split
  · next h => rw [h]; rfl
  · next h => rw [h]; rfl
  · next h1 h2 => rw [if_neg h1, if_neg h2]

end Sys2Proof.Machine

end

section
/-! PROOFS. O53. -/

open Sys2Proof Sys2Proof.Machine

/-- Settles O53: each offset lies in the block of its register (`windowWrite_queue` and the like), which names the effect. -/
theorem hostRegistersComplete : Obligations.HostRegistersComplete := by
  refine ⟨fun s c id o ho hr => ⟨?_, ?_⟩, fun s c ho => ⟨?_, ?_⟩, fun s off q c k v ho hq hc hk => ?_, fun s off v ho => ?_,
    fun s off => rfl, fun s q c k hq hc hk => ⟨rfl, fun off hne ho => windowRead_closed ho hne, fun ho => ⟨?_, ?_, ?_, ?_⟩⟩⟩
  · simp only [exec, execPfresResume, State.pfresResume, ho, hr, Bool.not_true, Bool.false_eq_true, if_false]
  · simp only [exec, execPfresFail, State.pfresFail, ho, hr, Bool.not_true, Bool.false_eq_true, if_false]
  · simp only [exec, execFaultClear, State.faultClear, ho, Bool.not_true, Bool.false_eq_true, if_false]
  · refine ⟨s.tlbinv c, rfl, ?_⟩
    simp only [State.tlbinv, ho, Bool.not_true, Bool.false_eq_true, if_false, and_self]
  · have eq {r : Nat} (hr : r < 64) := congrArg (Host.Outcome.next (φ := Fault) (ρ := Refusal)) (windowWrite_queue ho v hq hr)
    have ec {r : Nat} (hr : r < 256) := congrArg (Host.Outcome.next (φ := Fault) (ρ := Refusal)) (windowWrite_ctx ho v hc hr)
    refine ⟨?_, ?_, ?_, ?_, ?_, ?_, ?_, ?_, ?_, ?_, ?_, ?_, ?_⟩ <;> rintro rfl
    · exact eq (r := 0) (by decide)
    · exact eq (r := 16) (by decide)
    · exact eq (r := 24) (by decide)
    · exact congrArg Host.Outcome.next (windowWrite_upload ho v)
    · exact congrArg Host.Outcome.next (windowWrite_free ho v)
    · exact congrArg Host.Outcome.next (windowWrite_kick ho v hk)
    · exact congrArg Host.Outcome.next (windowWrite_job ho v hq)
    · exact ec (r := 0) (by decide)
    · exact ec (r := 8) (by decide)
    · intro hv
      refine (ec (r := 88) (by decide)).trans ?_
      simp only [State.ctxRegWrite, Ctx.hostWrite, aligned, hv, if_true]
    · exact (ec (r := 96) (by decide)).trans (congrArg Host.Outcome.next (ctxRegWrite_pfres s c v))
    · exact ec (r := 104) (by decide)
    · exact ec (r := 160) (by decide)
  · exact congrArg Host.Outcome.next (windowWrite_closed ho off v)
  · exact (windowRead_queue ho hq (r := 8) (by decide)).trans (if_pos rfl)
  · simp only [State.windowRead, ho]
    rfl
  · exact windowRead_ctx ho hc (r := 8) (by decide)
  · rw [Nat.add_assoc, windowRead_ctx ho hc (by omega), hostRead_fault _ hk, Ctx.faultWord]
    split <;> rfl

end

section
/-! PROOFS. Nodes of the pool and the units of a launch (R357 to R367). -/

namespace Sys2Proof.Machine

/-! ## Queues and contexts -/

/-- An entry that leaves its queue, and no other of that queue. -/
theorem hq_dropEntry {s : State} {q : Nat} (hq : q < s.sched.hqs.length) (pos : Nat) :
    ((s.dropEntry q pos).hq q).entries = (s.hq q).entries.eraseP fun z => z.pos == pos := by
  have hsettle (h : Hq) : h.settle.entries = h.entries := by
    unfold Hq.settle
    split <;> rfl
  simp only [State.dropEntry, State.hq, State.modHq, List.getD_eq_getElem?_getD, List.getElem?_modify_eq, List.getElem?_eq_getElem hq,
    Option.map_eq_map, Option.map_some, Option.getD_some, hsettle]

theorem ctx_setBits (s : State) (c : Nat) (m : BitVec 256) :
    ((s.setBits c m).ctx c).ev = (s.ctx c).ev ||| (if c < s.ctxs.length then m else 0) := by
  simp only [State.setBits, State.setCtx, State.ctx, List.getD_eq_getElem?_getD, List.getElem?_modify_eq]
  split
  · next h => simp only [List.getElem?_eq_getElem h, Option.map_eq_map, Option.map_some, Option.getD_some]
  · next h =>
    rw [List.getElem?_eq_none (Nat.le_of_not_lt h)]
    exact BitVec.or_zero.symm

/-! ## Dispatch -/

/-- A node of kind LAUNCH is dispatched as a launch. -/
theorem dispatch_launch {s : State} {e : HqEntry} (hk : s.kindOf e = 1) (q : Nat) : s.dispatch q e = s.dispatchLaunch q e := by
  unfold State.kindOf at hk
  unfold State.dispatch
  cases hn : s.nodeOf e with
  | none => rfl
  | some n =>
    rw [hn] at hk
    simp only [hk]

/-! ## Placement -/

theorem reExecuteAll_sched (s : State) (uid : Nat) (p : Slice → Bool) : (s.reExecuteAll uid p).sched = s.sched := by
  unfold State.reExecuteAll
  split
  · rfl
  · exact State.modBlock_sched ..

theorem revive_sched (s : State) (b : Block) : (s.revive b).sched = s.sched := reExecuteAll_sched ..

/-- Of the scheduler, a unit that starts changes its launch's queue alone, where it is the first. -/
theorem startUnit_sched (s : State) (l : Launch) (w : WaitUnit) (bs : List Block) (ts : List Tenant) :
    (s.startUnit l w bs ts).sched = (if l.unstarted then s.dropEntry l.hq l.pos else s).sched := by
  unfold State.startUnit
  refine (State.foldl_sched (fun t b => ?_) bs _).trans ((State.foldl_sched (fun t x => ?_) _ _).trans ?_)
  · split
    · exact revive_sched ..
    · rfl
  · rfl
  · rfl

/-! ## The end of a launch -/

theorem endLaunch_launches (s : State) (l : Launch) : (s.endLaunch l).launches = s.launches.filter fun x => x.id != l.id := by
  unfold State.endLaunch
  cases l.graph <;> rfl

theorem endLaunch_ev (s : State) (l : Launch) :
    ((s.endLaunch l).ctx l.rcd.ctx).ev = (s.ctx l.rcd.ctx).ev ||| (if l.rcd.ctx < s.ctxs.length then l.rcd.set else 0) := by
  unfold State.endLaunch
  cases l.graph <;> exact ctx_setBits ..

end Sys2Proof.Machine

end

section
/-! PROOFS. O50. -/

open Sys2Proof Sys2Proof.Machine

/-- Settles O50: each clause is a branch of the dispatch, of the placement or of a launch's end. -/
theorem nodesAndUnitsComplete : Obligations.NodesAndUnitsComplete := by
  refine ⟨fun s q e hp hon hne hfirst hheld => ⟨?_, fun hk => ?_, fun n hn hk hok hflag k hcmd => ?_⟩,
    fun s l w places hl hw hon hroom hhigh => ⟨fun bs ts hfit => ⟨fun hd hbad => ?_, fun hd => ?_⟩, fun hfit hfree => ?_⟩,
    fun s l w bs ts hlen => ?_, fun s l hl hleft => ⟨?_, ?_, ?_⟩⟩
  · have hany : s.pool.any (fun y => s.nodeBefore y (q, e)) = false := by
      rw [List.any_eq_false]
      exact fun y hy => by rw [hfirst y hy]; exact Bool.false_ne_true
    simp only [exec, execNodeDispatch, hp, hon, hne, hany, hheld, Bool.not_true, Option.isSome_none, Bool.or_self, Bool.false_eq_true,
      if_false]
  · rw [dispatch_launch hk]
    exact ⟨_, rfl, rfl, rfl, rfl, rfl, rfl, rfl, rfl, rfl⟩
  · simp only [State.dispatch, hn, hk, State.dispatchCopy, hok, hflag, Option.isNone_none, Bool.and_self, if_true, hcmd]
  · simp only [exec, execBlockPlacement, hl, hw, hon, hroom, hhigh, Bool.not_true, Bool.or_self, Bool.false_eq_true, if_false,
      State.placeUnit, hfit, hd, ne_eq, not_true, hbad]
  · simp only [exec, execBlockPlacement, hl, hw, hon, hroom, hhigh, Bool.not_true, Bool.or_self, Bool.false_eq_true, if_false,
      State.placeUnit, hfit, hd, ne_eq, not_false_eq_true, if_true]
  · simp only [exec, execBlockPlacement, hl, hw, hon, hroom, hhigh, Bool.not_true, Bool.or_self, Bool.false_eq_true, if_false,
      State.placeUnit, hfit, hfree, Option.isNone_none, if_true]
  · rw [State.hq, startUnit_sched]
    split
    · exact hq_dropEntry hlen l.pos
    · rfl
  · simp only [exec, execLaunchComplete, hl, hleft, ne_eq, not_true, if_false]
  · exact endLaunch_ev s l
  · rw [endLaunch_launches]
    exact fun x hx => bne_iff_ne.mp (List.mem_filter.mp hx).2

end

section
/-! PROOFS. Copies (R286, R287, R292): how they are numbered, and the bytes that moves within a slot leave. -/

namespace Sys2Proof.Machine

/-! ## Sending a copy -/

/-- Nothing that a slice has published stays held. -/
theorem publishHeldOf_held {s : State} {b : Block} {x : Slice} {h : HeldByte} (hh : h ∈ (s.publishHeldOf b x).mem.held) :
    ¬ (h.block = b.uid ∧ h.slice = x.num) := by
  rintro ⟨hb, hx⟩
  have hp := (Memory.mem_held_publish hh).2
  simp only [hb, hx, beq_self_eq_true, Bool.and_self, Bool.true_eq_false] at hp

/-- A copy for which its path has room: one of no bytes completes at once, any other is numbered. -/
theorem sendCpy_goes {s : State} {b : Block} {x : Slice} {id : Nat} {d : Option Nat} {dst src len : Word} {path : Option Nat}
    (hp : path = if (caddrOf dst).scr then some 2 else none) (hr : Machine.pathFull b x path = false) :
    (len = 0 → sendCpy d s b x id [dst, src, len] =
      .done ((s.publishHeldOf b x).instantCmd b x id 1 path) (.vals (match d with | some r => [.s r 0] | none => []))) ∧
    (len ≠ 0 → sendCpy d s b x id [dst, src, len] =
      .done ((s.publishHeldOf b x).launchCmd b x id 1 path d (.copy dst src len.toNat)) (.cmd id)) := by
  subst hp
  constructor
  · rintro rfl
    exact (if_neg (Bool.eq_false_iff.mp hr)).trans (if_pos rfl)
  · intro hl
    have hne : len.toNat ≠ 0 := fun h => hl (BitVec.toNat_inj.mp h)
    exact (if_neg (Bool.eq_false_iff.mp hr)).trans (if_neg hne)

/-! ## Bytes of a slot -/

/-- The owner's block is resident and has the share that its commands name. -/
def State.HasSlot (s : State) (b : Block) (share : Nat) : Prop := ∃ u, s.holds u ∧ u.uid = b.uid ∧ share < u.shares.length

theorem Block.share_modShare {b : Block} {n : Nat} (h : n < b.shares.length) (f : Share → Share) :
    (b.modShare n f).share n = f (b.share n) := by
  simp only [Block.share, Block.modShare, List.getD_eq_getElem?_getD, List.getElem?_modify_eq, List.getElem?_eq_getElem h,
    Option.map_eq_map, Option.map_some, Option.getD_some]

section
variable {s : State} {c share : Nat} {b : Block}

theorem copyRead_slot {u : Block} (hu : s.holds u) (hb : u.uid = b.uid) {a : CAddr} (ha : a.scr = true) :
    s.copyRead { ctx := c, blk := some b, share } a = Cells.get 0 (u.share share).scratch a.addr := by
  simp only [State.copyRead, ha, if_true, Option.bind_some, ← hb, holds_block? hu]

/-- A byte written to the slot is read back there, and no other byte of the slot changes. -/
theorem copyWrite_slot (h : s.HasSlot b share) {a : CAddr} (ha : a.scr = true) (x : Byte) :
    (s.copyWrite { ctx := c, blk := some b, share } a x).HasSlot b share ∧
    ∀ k : CAddr, k.scr = true → (s.copyWrite { ctx := c, blk := some b, share } a x).copyRead { ctx := c, blk := some b, share } k =
      if k.addr = a.addr then x else s.copyRead { ctx := c, blk := some b, share } k := by
  obtain ⟨u, hu, hb, hs⟩ := h
  have hw : s.copyWrite { ctx := c, blk := some b, share } a x = s.scratchPut u share a.addr [x] := by
    simp only [State.copyWrite, ha, if_true, Option.bind_some, ← hb, holds_block? hu]
  have hv : (s.scratchPut u share a.addr [x]).holds (u.modShare share fun sh => sh.write a.addr [x]) :=
    block?_modBlock hu (fun u => u.modShare share fun sh => sh.write a.addr [x]) fun _ => rfl
  rw [hw]
  refine ⟨⟨_, hv, hb, by simpa using hs⟩, fun k hk => ?_⟩
  rw [copyRead_slot hv hb hk, copyRead_slot hu hb hk, Block.share_modShare hs]
  exact Cells.get_set ..

/-! ## Moves within the slot -/

/-- A byte of the slot that is no move's destination stays. -/
theorem runMoves_other {old : State} {ov : CAddr → Bool} {draw : Nat → Word} {n : Nat} {ms : List Move} (h : s.HasSlot b share)
    {k : CAddr} (hk : k.scr = true) (hms : ∀ m ∈ ms, m.dst.scr = true ∧ m.dst.addr ≠ k.addr) :
    (s.runMoves { ctx := c, blk := some b, share } old ov draw n ms).copyRead { ctx := c, blk := some b, share } k =
      s.copyRead { ctx := c, blk := some b, share } k := by
  induction ms generalizing s n with
  | nil => rfl
  | cons m ms ih =>
    obtain ⟨⟨hscr, hne⟩, hms⟩ := List.forall_mem_cons.mp hms
    obtain ⟨hslot, hread⟩ := copyWrite_slot h hscr (c := c) (match m.src with
      | .lit b => b
      | .from_ a => (if ov m.dst && freeBit draw n then s else old).copyRead { ctx := c, blk := some b, share } a)
    exact (ih hslot hms).trans ((hread k hk).trans (if_neg hne.symm))

/-- Moves of which none writes what another reads leave each source byte at its destination, whatever they read it from. -/
theorem runMoves_slot {old : State} {ov : CAddr → Bool} {draw : Nat → Word} {n : Nat} {ms : List Move} (h : s.HasSlot b share)
    (hms : ∀ m ∈ ms, m.dst.scr = true ∧ ∃ a : CAddr, m.src = .from_ a ∧ a.scr = true ∧ (∀ k ∈ ms, k.dst.addr ≠ a.addr) ∧
      s.copyRead { ctx := c, blk := some b, share } a = old.copyRead { ctx := c, blk := some b, share } a)
    (hn : (ms.map fun m => m.dst.addr).Nodup) :
    ∀ m ∈ ms, ∀ a, m.src = .from_ a →
      (s.runMoves { ctx := c, blk := some b, share } old ov draw n ms).copyRead { ctx := c, blk := some b, share } m.dst =
        old.copyRead { ctx := c, blk := some b, share } a := by
  induction ms generalizing s n with
  | nil => exact fun m hm => by cases hm
  | cons m ms ih =>
    obtain ⟨⟨hscr, a, hsrc, -, -, hsame⟩, hrest⟩ := List.forall_mem_cons.mp hms
    rw [List.map_cons, List.nodup_cons] at hn
    obtain ⟨hnot, hn⟩ := hn
    have hval : (if ov m.dst && freeBit draw n then s else old).copyRead { ctx := c, blk := some b, share } a =
        old.copyRead { ctx := c, blk := some b, share } a := by
      split
      exacts [hsame, rfl]
    obtain ⟨hslot, hread⟩ := copyWrite_slot h hscr (c := c) (old.copyRead { ctx := c, blk := some b, share } a)
    have hstep : s.runMoves { ctx := c, blk := some b, share } old ov draw n (m :: ms) =
        (s.copyWrite { ctx := c, blk := some b, share } m.dst (old.copyRead { ctx := c, blk := some b, share } a)).runMoves
          { ctx := c, blk := some b, share } old ov draw (n + 1) ms := by
      rw [State.runMoves, hsrc]
      simp only [hval]
    rw [hstep]
    refine List.forall_mem_cons.mpr ⟨fun a' ha' => ?_, ih hslot (fun k hk => ?_) hn⟩
    · have hother : ∀ k ∈ ms, k.dst.scr = true ∧ k.dst.addr ≠ m.dst.addr := fun k hk =>
        ⟨(hrest k hk).1, fun e => hnot (e ▸ List.mem_map_of_mem (f := fun m : Move => m.dst.addr) hk)⟩
      rw [runMoves_other hslot hscr hother, hread _ hscr, if_pos rfl]
      rw [hsrc] at ha'
      cases ha'
      rfl
    · obtain ⟨hkscr, a', hksrc, hascr, hne, hksame⟩ := hrest k hk
      refine ⟨hkscr, a', hksrc, hascr, fun j hj => hne j (List.mem_cons_of_mem _ hj), ?_⟩
      rw [hread a' hascr, if_neg (hne m (List.mem_cons_self ..)).symm, hksame]

end

end Sys2Proof.Machine

end

section
/-! PROOFS. O38. -/

open Sys2Proof Sys2Proof.Machine

/-- Settles O38: a copy that its path has room for is numbered (`sendCpy_goes`), and moves within the slot leave each source byte at its
destination, by induction on the moves (`runMoves_slot`). -/
theorem copiesAreNumberedAndMove : Obligations.CopiesAreNumberedAndMove := by
  refine ⟨fun s b x id d dst src len => ⟨fun hscr => ?_, fun hscr hroom => ?_, fun hscr hfull => ?_, fun h hh => publishHeldOf_held hh⟩,
    fun s b c share n draw ms ov hb hs hms hn => ?_⟩
  · exact sendCpy_goes (by rw [hscr]; rfl) rfl
  · exact sendCpy_goes (by rw [hscr]; rfl) (by simpa only [pathFull, decide_eq_false_iff_not, ge_iff_le, Nat.not_le] using hroom)
  · have hp : pathFull b x (some 2) = true := decide_eq_true hfull
    simp only [sendCpy, List.headD_cons, hscr, if_true, hp]
  · refine runMoves_slot ⟨b, hb, rfl, hs⟩ (fun m hm => ?_) hn
    obtain ⟨hscr, a, hsrc, ha, hne⟩ := hms m hm
    exact ⟨hscr, a, hsrc, ha, hne, rfl⟩

end

section
/-! PROOFS. Held stores (R243, R244): the byte that a published one leaves, and what a release leaves held. -/

namespace Sys2Proof.Machine

namespace Memory

theorem store_ram (m : Memory) (nt : Bool) (c : CachePlace) (k : Nat) (b : Byte) : (m.store nt c k b).ram = Cells.set 0 m.ram k b := by
  unfold Memory.store
  split
  exacts [rfl, m.pokeAt_ram c k b]

theorem peek_store_same (m : Memory) (nt : Bool) (c : CachePlace) (k : Nat) (b : Byte) : (m.store nt c k b).peek k = b := by
  rw [Memory.peek, store_ram, Cells.get_set_same]

/-- A store that an observer is outside the scope of is passed over as it reads. -/
theorem readAs_hold_outside (m : Memory) {h : HeldByte} {o : Observer} (ho : h.sees o = false) (key : Nat) :
    (m.hold h).readAs (some o) key = m.readAs (some o) key := by
  simp only [Memory.readAs, Memory.hold, List.find?_cons, ho, Bool.and_false]
  rfl

theorem readAs_hold_inside (m : Memory) {h : HeldByte} {o : Observer} (ho : h.sees o = true) :
    (m.hold h).readAs (some o) h.key = h.val := by
  simp only [Memory.readAs, Memory.hold, List.find?_cons, ho, beq_self_eq_true, Bool.and_self]

/-- The newest held store, where it is published, is published last. -/
theorem peek_publish_newest {m : Memory} {h : HeldByte} {rest : List HeldByte} {p : HeldByte → Bool} (hm : m.held = h :: rest)
    (hp : p h = true) : (m.publish p).peek h.key = h.val := by
  simp only [Memory.publish, hm, List.foldr_cons, hp, if_true]
  exact peek_store_same ..

theorem le_foldl_max {l : List Nat} {n : Nat} (h : n ∈ l) : n ≤ l.foldl max 0 := by
  rw [List.foldl_eq_foldr]
  exact List.le_max_of_le' 0 h le_rfl

/-- Nothing of a slice that is held below level k stays held once that is published. -/
theorem mem_held_publishBelow {m : Memory} {blk sl k : Nat} {h : HeldByte} (hh : h ∈ (m.publishBelow blk sl k).held) :
    ¬ (h.block = blk ∧ h.slice = sl ∧ h.level < k) := by
  rintro ⟨hb, hs, hl⟩
  obtain ⟨hm, hp⟩ := mem_held_publish hh
  have hdue : h ∈ m.held.filter (fun h => h.block == blk && h.slice == sl && h.level < k) :=
    List.mem_filter.mpr ⟨hm, by simp only [hb, hs, hl, beq_self_eq_true, decide_true, Bool.and_self]⟩
  have hseq := le_foldl_max (List.mem_map_of_mem (f := fun h => h.seq) hdue)
  simp only [hb, hs, beq_self_eq_true, Bool.and_self, Bool.true_and, decide_eq_false_iff_not] at hp
  exact hp hseq

end Memory

end Sys2Proof.Machine

end

section
/-! PROOFS. O25. -/

open Sys2Proof Sys2Proof.Machine

/-- Settles O25: a store that is held stands before what was held, so that a reader inside its scope finds it first and another passes it
over; publication chooses by its test (`mem_held_publish`), and a release by the level (`mem_held_publishBelow`). -/
theorem heldStoresAreSeenInTheirScope : Obligations.HeldStoresAreSeenInTheirScope := by
  refine ⟨fun m h o ho => m.readAs_hold_inside ho, fun m h o _ ho => m.readAs_hold_outside ho _, fun _ _ => rfl, fun m p => ?_,
    fun m h rest p hm hp => Memory.peek_publish_newest hm hp, fun s b x sc h hh => Memory.mem_held_publishBelow hh⟩
  rw [List.all_eq_true]
  intro h hh
  obtain ⟨-, hp⟩ := Memory.mem_held_publish hh
  rw [hp]
  rfl

end

section
/-! PROOFS. Synchronisation in a normal launch (R246 to R250): what arrivals and fences keep of a gang, and what an arrival makes of its
barrier. -/

namespace Sys2Proof.Machine

/-! ## The gang's slices stay in their places -/

theorem Slice.openRegion_keeps (x : Slice) (r : Rep) : (x.openRegion r).keeps x := by
  unfold Slice.openRegion
  split <;> exact ⟨rfl, rfl, rfl, rfl, rfl⟩

namespace Keeps

theorem setBar (s : State) (b : Block) (x : Barrier) (uid : Nat) : s.Keeps (s.setBar b x) uid :=
  modLaunch s uid _ _ (fun _ => rfl) fun _ => rfl

theorem checkBars (s : State) (b : Block) (l : List Slice) (ks : List Nat) (uid : Nat) : s.Keeps (s.checkBars b l ks) uid :=
  foldl (fun s _ => foldl (fun _ _ => setBar ..) ks s) l s

theorem barArrive (s : State) (k : Nat) (drop full : Bool) (b : Block) (x : Slice) (uid : Nat) :
    s.Keeps (s.barArrive k drop full b x) uid := by
  unfold State.barArrive
  split
  · exact refl s uid
  · simp only
    split
    · exact modSlice _ _ _ _ _ fun _ => ⟨rfl, rfl, rfl, rfl, rfl⟩
    · refine trans (trans (releaseHeld ..) (setBar ..)) (modSlice _ _ _ _ _ fun y => ?_)
      exact (Slice.openRegion_keeps { y with arrp := _, drop := _ } _ :)

theorem barMet (s : State) (g : Guard) (k : Nat) (drop full : Bool) (b : Block) (l : List Slice) (uid : Nat) :
    s.Keeps (barMet s g k drop full b l) uid :=
  trans (overSlices (fun _ _ _ => barArrive ..) s g b l) (checkBars ..)

end Keeps

/-! ## Instructions that go on -/

/-- A fence with nothing due goes on, once its release half has published (R246). -/
theorem fenceGang_done {s : State} {g : Guard} {b : Block} {l : List Slice} {release dsync : Bool} {sc : Scope}
    (h : (fenceWaits s g b l release).isEmpty = true) :
    fenceGang s g b l release dsync sc = .done (if release then overSlices s g b l fun s b x => s.releaseHeld b x sc else s) [] := by
  simp only [fenceGang, List.isEmpty_iff.mp h]

/-- Slices that release one after another find their block as it was: the scope may be read off it as each comes to release. -/
theorem overSlices_releaseHeld {s : State} {b : Block} (hb : s.holds b) (g : Guard) (l : List Slice) (sc : Block → Scope) :
    overSlices s g b l (fun t c x => t.releaseHeld c x (sc c)) = overSlices s g b l fun t c x => t.releaseHeld c x (sc b) := by
  unfold overSlices
  induction l.filter (fun x => x.part_ g != 0) generalizing s with
  | nil => rfl
  | cons x xs ih =>
    simp only [List.foldl_cons, holds_block? hb]
    cases b.slice? x.num with
    | none => exact ih hb
    | some y => exact ih (s := s.releaseHeld b y (sc b)) hb

/-- DSYNC goes on where nothing is due, and releases at the block's level (R258). -/
theorem performs_dsync (g : Guard) :
    Performs 1 (.dsync g) (fun s b l => (fenceWaits s g b l true).isEmpty) fun s b l =>
      overSlices s g b l fun t b x => t.releaseHeld b x (.lvl (BitVec.ofNat 3 (s.lrOf b).blklv)) := by
  intro s b l hi hg hok
  beta_reduce
  rw [overSlices_releaseHeld (issuing_holds hi) g l fun b => .lvl (BitVec.ofNat 3 (s.lrOf b).blklv)]
  exact congrArg Host.Outcome.next (Keeps.perSerial hi hg ((fenceGang_done hok).trans rfl)
    (Keeps.overSlices (fun _ _ _ => Keeps.releaseHeld ..) ..))

/-- A form of BAR that arrives goes on once its slices have arrived and, in the full form, their phase is over (R248). -/
theorem performs_bar {i : Instr} {g : Guard} {lv : BitVec 3} {form : BarForm} (hform : form ≠ .wait)
    (hexec : ∀ s, exec i s = .next (s.perSerial g 1 (barGang s g lv form))) :
    Performs 1 i
      (fun s b l => let k := barLevel (s.lrOf b) lv
        (firstEv g l (barBad (s.lrOf b) g k form)).isNone &&
          barDone (barMet s g k (form == .arriveDrop) (form == .full) b l) g k (form == .full) b l)
      (fun s b l => barMet s g (barLevel (s.lrOf b) lv) (form == .arriveDrop) (form == .full) b l) := by
  refine performs_of_perKind (sync := true) (g := g) hexec (fun s b l h => ?_) fun s b l => Keeps.barMet ..
  obtain ⟨hgood, hdone⟩ := Bool.and_eq_true_iff.mp h
  simp only [barGang, Option.isNone_iff_eq_none.mp hgood, if_neg hform, hdone, if_true]

/-- A gang each of whose slices takes no part or finds what it waits for goes on. -/
theorem waitGang_of_all {s : State} {g : Guard} {b : Block} {l : List Slice} {holds : Slice → Bool} (w : Slice → Wait)
    (h : (l.all fun x => x.part_ g == 0 || holds x) = true) : waitGang s g b l holds w = .done s [] :=
  waitGang_done w fun x hx hp => ((Bool.or_eq_true _ _).mp (List.all_eq_true.mp h x hx)).resolve_left (by simpa using hp)

/-- BAR.WAIT goes on once the phase that each slice has arrived in is over (R248). -/
theorem performs_barWait (g : Guard) (lv : BitVec 3) :
    Performs 1 (.barWait g lv)
      (fun s b l => let k := barLevel (s.lrOf b) lv
        (firstEv g l (barBad (s.lrOf b) g k .wait)).isNone && l.all fun x => x.part_ g == 0 || s.barOver b x k)
      (fun s _ _ => s) := by
  refine performs_of_perKind (sync := true) (g := g) (fun _ => rfl) (fun s b l h => ?_) fun s b l => Keeps.refl ..
  obtain ⟨hgood, hover⟩ := Bool.and_eq_true_iff.mp h
  simp only [barGang, Option.isNone_iff_eq_none.mp hgood, if_true, waitGang_of_all _ hover]

/-! ## A slice's barrier -/

/-- A barrier is found under its level and its place there. -/
theorem Launch.bar_at (l : Launch) (k idx : Nat) : (l.bar k idx).level = k ∧ (l.bar k idx).idx = idx := by
  unfold Launch.bar
  cases h : l.bars.find? (fun b => b.level == k && b.idx == idx) with
  | none => exact ⟨rfl, rfl⟩
  | some x => simpa using List.find?_some h

theorem Launch.bar_setBar (l : Launch) (x : Barrier) : (l.setBar x).bar x.level x.idx = x := by
  simp only [Launch.bar, Launch.setBar, List.find?_cons, beq_self_eq_true, Bool.and_self, Option.getD_some]

/-- A block's change leaves the launches their records and barriers. -/
theorem launch?_modBlock (s : State) (u id : Nat) (f : Block → Block) :
    ∃ g : Launch → Launch, (∀ l, (g l).rcd = l.rcd ∧ (g l).bars = l.bars) ∧ (s.modBlock u f).launch? id = (s.launch? id).map g := by
  unfold State.modBlock State.launch?
  simp only
  split
  · exact ⟨fun l => l, fun _ => ⟨rfl, rfl⟩, Option.map_id'.symm⟩
  · refine ⟨_, fun _ => ?_, List.find?_map⟩
    exact ⟨rfl, rfl⟩

theorem barOf_modSlice (s : State) (u n : Nat) (f : Slice → Slice) (b : Block) (x : Slice) (k : Nat) :
    (s.modSlice u n f).barOf b x k = s.barOf b x k := by
  obtain ⟨g, hg, h⟩ := launch?_modBlock s u b.launch fun b => b.modSlice n f
  simp only [State.barOf, State.modSlice, h]
  cases s.launch? b.launch with
  | none => rfl
  | some l => simp only [Option.map_some, Launch.bar, hg l]

theorem barOf_setBar {s : State} {b : Block} {lr : Launch} {x : Slice} {k : Nat} {y : Barrier} (hl : s.launch? b.launch = some lr)
    (hk : y.level = k) (hi : y.idx = (s.barOf b x k).idx) : (s.setBar b y).barOf b x k = y := by
  have hset : (s.setBar b y).launch? b.launch = some (lr.setBar y) := by
    have hid := List.find?_some hl
    have hfun : ((fun l : Launch => l.id == b.launch) ∘ fun l => if l.id == b.launch then l.setBar y else l) = fun l => l.id == b.launch := by
      funext l
      simp only [Function.comp_apply]
      split <;> rfl
    unfold State.launch? at hl
    simp only [State.setBar, State.modLaunch, State.launch?, List.find?_map, hfun, hl, Option.map_some, hid, if_true]
  have hidx : y.idx = lr.rcd.partOf k x.gnum := by
    rw [hi]
    simp only [State.barOf, hl]
    exact (lr.bar_at ..).2
  simp only [State.barOf, hset]
  rw [← hk] at hidx ⊢
  exact hidx ▸ lr.bar_setBar y

/-- What a slice's arrival makes of its barrier, where it has not arrived in this phase (R248, R249). -/
theorem barOf_barArrive {s : State} {b : Block} {lr : Launch} {x : Slice} {k : Nat} (drop full : Bool)
    (hl : s.launch? b.launch = some lr) (hbar : x.wait ≠ .bar k) (hmade : x.wait ≠ .made)
    (hphase : x.arrival k ≠ some (s.barOf b x k).phase) :
    (s.barArrive k drop full b x).barOf b x k =
      { s.barOf b x k with
        arr := (s.barOf b x k).arr + 1, ndrop := (s.barOf b x k).ndrop + (if drop then 1 else 0) } := by
  have hw : ¬ (x.wait == .bar k || x.wait == .made) = true := by simp [hbar, hmade]
  have hlevel : (s.barOf b x k).level = k := by
    simp only [State.barOf, hl]
    exact (lr.bar_at ..).1
  have hdrop : (if drop then (s.barOf b x k).ndrop + 1 else (s.barOf b x k).ndrop) =
      (s.barOf b x k).ndrop + (if drop then 1 else 0) := by
    cases drop <;> rfl
  simp only [State.barArrive, if_neg hw, if_neg hphase]
  rw [barOf_modSlice, barOf_setBar (s := s.releaseHeld b x _) hl (by exact hlevel) (by rfl), hdrop]

/-! ## What a BAR raises (R250) -/

section
variable {r : LaunchRec} {g : Guard} {k : Nat} {f : BarForm} {x : Slice}

theorem barBad_above (hk : k > r.top) : barBad r g k f x = some (Ev.own.per x g) := by
  simp only [barBad, decide_eq_true hk, Bool.true_or, if_true]

variable (hk : k ≤ r.top) (hb : r.bind.getD (k - 1) 5 ≠ 5)
include hk hb

/-- At a level of the launch that is bound, the drop and the missing arrival are looked at first, then the launch's mode. -/
theorem barBad_bound : barBad r g k f x =
    if x.wait != .bar k && x.wait != .made && (x.dropped k || (f == .wait && (x.arrival k).isNone)) then some (Ev.own.per x g)
    else if r.det && k > r.blklv then some ({ Ev.detx with check := 11 }.per x g)
    else none := by
  simp only [barBad, decide_eq_false (Nat.not_lt.mpr hk), decide_eq_false hb, Bool.or_self, Bool.false_eq_true, if_false]

theorem barBad_dropped (hw : x.wait ≠ .bar k) (hm : x.wait ≠ .made) (hd : x.dropped k = true) :
    barBad r g k f x = some (Ev.own.per x g) := by
  rw [barBad_bound hk hb, if_pos (by simp [hw, hm, hd])]

theorem barBad_det (hd : x.dropped k = false) (ha : x.arrival k ≠ none) (hdet : r.det = true) (hblk : k > r.blklv) :
    barBad r g k f x = some ({ Ev.detx with check := 11 }.per x g) := by
  rw [barBad_bound hk hb, if_neg (by simp [hd, ha]), if_pos (by simp [hdet, hblk])]

end

/-! ## The end of a phase (R248, R249) -/

theorem Barrier.complete_met {x : Barrier} (he : x.exp ≠ 0) (ha : x.arr = x.exp) :
    x.complete = { x with exp := x.exp - x.ndrop, arr := 0, ndrop := 0, phase := x.phase + 1 } := by
  rw [Barrier.complete, if_pos (by simp [he, ha])]

theorem Barrier.complete_open {x : Barrier} (h : x.exp = 0 ∨ x.arr ≠ x.exp) : x.complete = x := by
  rw [Barrier.complete, if_neg (by simpa [imp_iff_not_or] using h)]

end Sys2Proof.Machine

end

section
/-! PROOFS. O26. -/

open Sys2Proof Sys2Proof.Machine

/-- Settles O26: a fence or a BAR is an effect that keeps the gang's slices in their places; the barrier's clauses are one lemma each. -/
theorem synchronisationCompletes : Obligations.SynchronisationCompletes := by
  refine ⟨⟨fun g sc k => ?fence, performs_dsync⟩, ⟨?bar, ?arrive, ?arriveDrop, performs_barWait⟩,
    fun x => Barrier.complete_met, fun x => Barrier.complete_open, fun l k idx hb => ?fresh,
    fun s b lr x k drop full => barOf_barArrive drop full, fun r g k f x =>
      ⟨fun hk => ⟨_, barBad_above hk, rfl⟩, fun hk hb hw hm hd => ⟨_, barBad_dropped hk hb hw hm hd, rfl⟩,
        fun hk hb _ hd ha hdet hblk => ⟨_, barBad_det hk hb hd ha hdet hblk, rfl⟩⟩⟩
  case fence =>
    refine performs_of_perKind (sync := true) (g := g) (fun _ => rfl) (fun s b l h => (fenceGang_done h).trans ?_) fun s b l => ?_
    · cases k <;> rfl
    · split
      · exact Keeps.refl ..
      · exact Keeps.overSlices (fun _ _ _ => Keeps.releaseHeld ..) ..
  case bar => exact fun g lv => performs_bar (form := .full) (by decide) fun _ => rfl
  case arrive => exact fun g lv => performs_bar (form := .arrive) (by decide) fun _ => rfl
  case arriveDrop => exact fun g lv => performs_bar (form := .arriveDrop) (by decide) fun _ => rfl
  case fresh => simp only [Launch.bar, hb, List.find?_nil, Option.getD_none]

end

section
/-! PROOFS. The end of a quantum (R255, R257). -/

namespace Sys2Proof.Machine

@[simp] theorem Slice.openRegion_qphase (x : Slice) (r : Rep) : (x.openRegion r).qphase = x.qphase := by
  unfold Slice.openRegion; split <;> simp
@[simp] theorem Slice.openRegion_quantum (x : Slice) (r : Rep) : (x.openRegion r).quantum = x.quantum := by
  unfold Slice.openRegion; split <;> simp
@[simp] theorem Slice.openRegion_clock (x : Slice) (r : Rep) : (x.openRegion r).clock = x.clock := by
  unfold Slice.openRegion; split <;> simp

@[simp] theorem Slice.endQuantum_qphase (x : Slice) : x.endQuantum.qphase = .ended := by simp [Slice.endQuantum]
@[simp] theorem Slice.endQuantum_quantum (x : Slice) : x.endQuantum.quantum = 0 := by simp [Slice.endQuantum]
@[simp] theorem Slice.endQuantum_clock (x : Slice) : x.endQuantum.clock = x.clock := by simp [Slice.endQuantum]

section
variable {s : State} {b : Block} {l : List Slice} {n : Nat} {pc : VA} (hi : s.issuing = some (b, l)) (hw : s.whole = true)
  (hn : (b.slices.map (fun x => x.num)).Nodup)
include hi hw hn

/-- A gang of a deterministic launch that stands at one pc inside its block retires an instruction which ends its quantum. -/
theorem complete_qend (hd : (s.lrOf b).det = true) (hl : ∀ x ∈ l, x.inside n = true ∧ x.pc = pc) :
    s.complete n true (.done s []) = s.modBlock b.uid fun y => y.putSlices (l.map fun x => (x.passed n).endQuantum) := by
  have hh := issuing_holds hi
  obtain ⟨p, hp, -⟩ := issuing_whole hi hw
  have hga (bad : VA → Bool) : gather (l.map fun x => x.retire bad (([] : List Nat).contains x.num) n) = .ok (l.map fun x => x.passed n) :=
    gather_map_ok _ _ _ fun x hx => retire_slice _ (issuing_ended hi hw x hx) (hl x hx).1
  have hsame := parted_same hh (l := l.map fun x => (x.passed n).endQuantum) (pc := VA.plus pc n) fun y hy => by
    obtain ⟨x, hx, rfl⟩ := List.mem_map.mp hy
    rw [Slice.endQuantum_pc, Slice.passed_pc, (hl x hx).2]
  simp only [State.complete, hi, hw, State.retire, holds_block? hh, gang_filter hp hn, hga, hd, Bool.true_or, Bool.and_self, if_true,
    List.map_map, Function.comp_def]
  exact hsame

/-- A slice of the gang once f has been made of each. -/
theorem now_putSlices {f : Slice → Slice} (hf : ∀ x ∈ l, (f x).num = x.num) {x : Slice} (hx : x ∈ l) :
    (s.modBlock b.uid fun y => y.putSlices (l.map f)).now b x = f x := by
  obtain ⟨p, rfl, -⟩ := issuing_whole hi hw
  refine now_eq (block?_modBlock (issuing_holds hi) _ fun _ => rfl) rfl (by rw [putSlices_nums]; exact hn) ?_ (hf x hx)
  obtain ⟨hxb, hpx⟩ := List.mem_filter.mp hx
  rw [putSlices_map b p f hn hf, List.mem_map]
  exact ⟨x, hxb, if_pos hpx⟩

end

/-- QEND ends the quantum where some slice has a lane that takes part (R257). -/
theorem exec_qend {s : State} {b : Block} {l : List Slice} (hi : s.issuing = some (b, l)) (g : Guard) :
    exec (.qend g) s = .next (s.complete 1 (l.any fun x => x.part_ g != 0) (.done s [])) := by
  change execQend g s = _
  simp only [execQend, State.perGang, hi]

end Sys2Proof.Machine

end

section
/-! PROOFS. O27. -/

open Sys2Proof Sys2Proof.Machine

/-- Settles O27: QEND changes nothing and goes on (`Keeps.complete`), and in a deterministic launch retires to the end of its quantum
(`complete_qend`). -/
theorem qendEndsTheQuantum : Obligations.QendEndsTheQuantum := by
  refine ⟨by decide, fun g s b l hi hg _ => ?_, fun g s b l hi hw hd hn hl => ?_⟩
  · rw [exec_qend hi, Keeps.complete _ hi hg (Keeps.refl ..)]
  · refine ⟨_, exec_qend hi g, fun x hx => ?_⟩
    have hany : (l.any fun x => x.part_ g != 0) = true := List.any_eq_true.mpr ⟨x, hx, bne_iff_ne.mpr (hl x hx).1⟩
    have hpc : ∀ y ∈ l, y.inside 1 = true ∧ y.pc = x.pc := fun y hy =>
      ⟨(hl y hy).2.1, Option.some.inj ((hl y hy).2.2.trans (hl x hx).2.2.symm)⟩
    rw [hany, complete_qend hi hw hn hd hpc, now_putSlices hi hw hn (f := fun y => (y.passed 1).endQuantum) (fun y _ => Slice.endQuantum_num _) hx]
    exact ⟨Slice.endQuantum_qphase _, Slice.endQuantum_quantum _, Slice.endQuantum_pc _, Slice.endQuantum_clock _⟩

end

section
/-! PROOFS. Timelines (R251 to R253). -/

namespace Sys2Proof.Machine

/-! ## The counter (R251) -/

/-- With nothing ahead of a gap, the operation that comes next is counted. -/
theorem Timeline.complete_next {x : Timeline} (h : x.early = []) : x.complete (x.done + 1) = { x with done := x.done + 1 } := by
  simp [Timeline.complete, Timeline.settle, h]

/-- One that runs ahead of a gap waits there. -/
theorem Timeline.complete_ahead {x : Timeline} (h : x.early = []) : x.complete (x.done + 2) = { x with early := [x.done + 2] } := by
  simp [Timeline.complete, Timeline.settle, h]

/-- The operation that closes the gap is counted with the one behind it. -/
theorem Timeline.complete_closes {x : Timeline} (h : x.early = []) :
    ((x.complete (x.done + 2)).complete (x.done + 1)).done = x.done + 2 := by
  rw [complete_ahead h]
  simp [Timeline.complete, Timeline.settle]

/-! ## TLWAIT and TLREAD (R252, R253) -/

/-- TLWAIT goes on where the counter has reached the threshold of each slice that takes part. -/
theorem performs_tlwait (g : Guard) (t : BitVec 3) (c : Opd) :
    Performs (lenOf [c]) (.tlwait g t c)
      (fun s b l => !Opd.negSmall c && l.all fun x => x.part_ g == 0 ||
        decide ((svalOf (s.envOf b x) x c).toNat ≤ ((b.share x.share).timeline t.toNat).done))
      (fun s _ _ => s) := by
  refine performs_of_perKind (sync := true) (g := g) (fun _ => rfl) (fun s b l h => ?_) fun s b l => Keeps.refl ..
  obtain ⟨hpos, hreached⟩ := Bool.and_eq_true_iff.mp h
  have hsmall : ∀ x ∈ acting g l, Opd.negSmall c = false := fun _ _ => (Bool.not_eq_true' _).mp hpos
  simp only [firstEv_none_of_test hsmall]
  exact waitGang_of_all _ hreached

/-- The number that TLREAD writes in a normal launch: with an operand, of the operations accepted, else the counter. -/
def tlValue (t : Timeline) (c : Opd) : Nat := if c.isNone then t.done else t.accepted

/-- TLREAD writes its number in each slice of a normal launch that takes part, where its operand is one that it takes. -/
theorem exec_tlread {g : Guard} {t : BitVec 3} {d c : Opd} {s : State} {b : Block} {l : List Slice} (hi : s.issuing = some (b, l))
    (hg : s.goes 1 = true) (hc : c = .none ∨ c = .small 17) :
    exec (.tlread g t d c) s = .next (s.after b l 1 fun x =>
      x.when g fun x => x.setS g d (BitVec.ofNat 64 (tlValue ((b.share x.share).timeline t.toNat) c))) := by
  obtain ⟨-, hd, -⟩ := goes_spec hi hg
  have hgood : (!c.isNone && c != .small 17) = false := by rcases hc with rfl | rfl <;> rfl
  have hval (x : Slice) : (if !c.isNone then ((b.share x.share).timeline t.toNat).accepted else ((b.share x.share).timeline t.toNat).done) =
      tlValue ((b.share x.share).timeline t.toNat) c := by
    rcases hc with rfl | rfl <;> rfl
  change execTlread g t d c s = _
  simp only [execTlread, State.perKind, State.perGang, hi, hd, hgood, hval, Bool.and_false, Bool.or_false, Bool.false_eq_true, if_false]
  have hall := perSlice_goes (g := g) (f := fun _ x => .ok (x.setS g d (BitVec.ofNat 64 (tlValue ((b.share x.share).timeline t.toNat) c))))
    _ hi hg (fun _ _ _ => rfl) fun x _ => Slice.keeps_setS ..
  simp only [State.perSlice, hi] at hall
  rw [hall]

end Sys2Proof.Machine

end

section
/-! PROOFS. O28. -/

open Sys2Proof Sys2Proof.Machine

/-- Settles O28: a TLWAIT whose counters have come so far goes on; TLREAD writes one register of each slice; a completion behind a gap
waits for it. -/
theorem timelinesComplete : Obligations.TimelinesComplete :=
  ⟨performs_tlwait, fun _ _ _ _ _ _ hi hg => exec_tlread hi hg (.inl rfl), fun _ _ _ _ _ _ hi hg => exec_tlread hi hg (.inr rfl),
    fun _ => Timeline.complete_next, fun _ h => ⟨by rw [Timeline.complete_ahead h], Timeline.complete_closes h⟩⟩

end

section
/-! PROOFS. The rounds of a deterministic block (R254, R255): the least of the serial operations, and what each phase does. -/

namespace Sys2Proof.Machine

/-! ## The least serial operation (R254) -/

/-- A slice comes no later than another in the serial phase: by the clock, and at one clock by the number. -/
def Slice.serialLe (x y : Slice) : Prop := x.clock < y.clock ∨ (x.clock = y.clock ∧ x.num ≤ y.num)

theorem Slice.serialLe_refl (x : Slice) : x.serialLe x := .inr ⟨rfl, le_rfl⟩

theorem Slice.serialLe_trans {x y z : Slice} (h : x.serialLe y) (k : y.serialLe z) : x.serialLe z := by
  unfold Slice.serialLe at *
  omega

/-- The one of two slices that comes first, the second where they are level. -/
def Slice.sooner (x y : Slice) : Slice := if x.clock < y.clock || (x.clock == y.clock && x.num < y.num) then x else y

theorem Slice.sooner_spec (x y : Slice) : (x.sooner y = x ∨ x.sooner y = y) ∧ (x.sooner y).serialLe x ∧ (x.sooner y).serialLe y := by
  unfold Slice.sooner Slice.serialLe
  split
  · next h =>
    simp only [Bool.or_eq_true, Bool.and_eq_true, decide_eq_true_eq, beq_iff_eq] at h
    exact ⟨.inl rfl, by omega⟩
  · next h =>
    simp only [Bool.or_eq_true, Bool.and_eq_true, decide_eq_true_eq, beq_iff_eq] at h
    exact ⟨.inr rfl, by omega⟩

/-- The least of a list of slices and of one before them. -/
def soonestOf (first : Option Slice) (l : List Slice) : Option Slice :=
  l.foldl (fun acc x => match acc with | none => some x | some y => some (x.sooner y)) first

theorem soonestOf_some {first : Option Slice} {l : List Slice} {x : Slice} (h : soonestOf first l = some x) :
    (x ∈ l ∨ first = some x) ∧ ∀ y, y ∈ l ∨ first = some y → x.serialLe y := by
  induction l generalizing first with
  | nil =>
    have hx : first = some x := h
    refine ⟨.inr hx, fun y hy => ?_⟩
    obtain rfl : x = y := Option.some.inj (hx.symm.trans (hy.resolve_left List.not_mem_nil))
    exact x.serialLe_refl
  | cons a l ih =>
    cases first with
    | none =>
      obtain ⟨hmem, hle⟩ := ih (first := some a) h
      refine ⟨.inl (List.mem_cons.mpr (hmem.symm.imp (fun e => (Option.some.inj e).symm) id)), fun y hy => hle y ?_⟩
      rcases List.mem_cons.mp (hy.resolve_right (by simp)) with rfl | hy
      exacts [.inr rfl, .inl hy]
    | some f =>
      obtain ⟨hone, hla, hlf⟩ := Slice.sooner_spec a f
      obtain ⟨hmem, hle⟩ := ih (first := some (a.sooner f)) h
      have hxs : x.serialLe (a.sooner f) := hle _ (.inr rfl)
      constructor
      · rcases hmem with hmem | hmem
        · exact .inl (List.mem_cons_of_mem _ hmem)
        · obtain rfl := Option.some.inj hmem
          rcases hone with e | e
          exacts [.inl (by rw [e]; exact List.mem_cons_self), .inr (by rw [e])]
      · rintro y (hy | hy)
        · rcases List.mem_cons.mp hy with rfl | hy
          exacts [Slice.serialLe_trans hxs hla, hle y (.inl hy)]
        · obtain rfl := Option.some.inj hy
          exact Slice.serialLe_trans hxs hlf

theorem nextSerial_eq (b : Block) : b.nextSerial = soonestOf none (b.slices.filter fun x => !x.ended && x.qphase == .atSerial) := rfl

/-- The slice whose serial operation comes next stands at one, and none that does comes before it. -/
theorem nextSerial_some {b : Block} {x : Slice} (h : b.nextSerial = some x) :
    x ∈ b.slices ∧ x.ended = false ∧ x.qphase = .atSerial ∧
      ∀ y ∈ b.slices, y.ended = false → y.qphase = .atSerial → x.serialLe y := by
  obtain ⟨hmem, hle⟩ := soonestOf_some (nextSerial_eq b ▸ h)
  obtain ⟨hx, hp⟩ := List.mem_filter.mp (hmem.resolve_right (by simp))
  simp only [Bool.and_eq_true, Bool.not_eq_true', beq_iff_eq] at hp
  obtain ⟨he, hq⟩ := hp
  exact ⟨hx, he, hq, fun y hy he hq => hle y (.inl (List.mem_filter.mpr ⟨hy, by simp [he, hq]⟩))⟩

/-! ## The phases -/

/-- Slices of a resident block whose buffers are empty have nothing to commit. -/
theorem commitAll_empty {s : State} {b : Block} (hb : s.holds b) (h : ∀ x ∈ b.slices, x.buf = []) {l : List Slice}
    (hl : ∀ x ∈ l, x ∈ b.slices) : s.commitAll b.uid l = (true, s) := by
  induction l with
  | nil => rfl
  | cons x l ih =>
    obtain ⟨hx, hl⟩ := List.forall_mem_cons.mp hl
    obtain ⟨y, hy⟩ : ∃ y, b.slice? x.num = some y := Option.isSome_iff_exists.mp (List.find?_isSome.mpr ⟨x, hx, beq_self_eq_true _⟩)
    have hempty : y.buf = [] := h y (List.mem_of_find?_eq_some hy)
    have hone : s.commitSlice b.uid x.num (x.buf.length + 1) = (true, s) := by
      simp only [State.commitSlice, holds_block? hb, Option.bind_some, hy, Option.map_some, hempty]
    rw [State.commitAll, hone]
    exact ih hl

section
variable {s : State} {b : Block} (hb : s.holds b) (hd : (s.lrOf b).det = true)
include hb hd

/-- A quantum that is over ends (R255). -/
theorem exec_quantumEnd {g : Nat} (hrun : ∀ x ∈ b.gangSlices g, x.qphase = .running ∧ x.stop = .none)
    (hover : s.quantumOver b (b.gangSlices g) = true) :
    exec (.quantumEnd b.uid g) s = .next (s.modBlock b.uid fun y => y.putSlices ((b.gangSlices g).map fun x => x.endQuantum)) := by
  have hall : (b.gangSlices g).all (fun x => x.qphase == .running && x.stop == .none) = true :=
    List.all_eq_true.mpr fun x hx => by simp [hrun x hx]
  change execQuantumEnd b.uid g s = _
  unfold State.holds at hb
  simp only [execQuantumEnd, hb, hd, hall, hover, Bool.and_self, if_true]

variable (hh : s.halted b = false) (ho : b.roundOver = true)
include hh ho

/-- The buffers of a block whose quanta have ended are committed; the serial phase comes once all have been, and no unit is at work for
the block. -/
theorem exec_detCommitPhase (hr : b.round ≠ .serial) {t : State}
    (ht : (s.modBlock b.uid fun y => { y with round := .commit }).commitAll b.uid b.slices = (true, t)) :
    exec (.detCommitPhase b.uid) s = .next (if t.unitsBusy b.uid then t else t.modBlock b.uid fun y => { y with round := .serial }) := by
  have hr' : (b.round == .serial) = false := beq_eq_false_iff_ne.mpr hr
  change execDetCommitPhase b.uid s = _
  unfold State.holds at hb
  simp only [execDetCommitPhase, hb, hd, hh, hr', ho, ht, Bool.not_true, Bool.or_self, Bool.false_eq_true, if_false]

/-- Where nothing is buffered, the commit changes the round alone. -/
theorem exec_detCommitPhase_empty (hr : b.round ≠ .serial) (hbuf : ∀ x ∈ b.slices, x.buf = []) (hu : s.unitsBusy b.uid = false) :
    exec (.detCommitPhase b.uid) s = .next (s.modBlock b.uid fun y => { y with round := .serial }) := by
  have hcommit := commitAll_empty (block?_modBlock hb (fun y => { y with round := .commit }) fun _ => rfl) hbuf fun _ hx => hx
  have hidle : (s.modBlock b.uid fun y => { y with round := .commit }).unitsBusy b.uid = false := by
    rw [State.unitsBusy, State.modBlock_cmds]
    exact hu
  rw [exec_detCommitPhase hb hd hh ho hr hcommit, hidle, if_neg Bool.false_ne_true,
    modBlock_modBlock hb (fun y => { y with round := .commit }) _ fun _ => rfl]

/-- The least synchronising operation has the next turn. -/
theorem exec_detSerialPhase_some (hr : b.round = .serial) {x : Slice} (hx : b.nextSerial = some x) :
    exec (.detSerialPhase b.uid) s = .next { s with agenda := .serial b.uid x.num :: s.agenda } := by
  change execDetSerialPhase b.uid s = _
  unfold State.holds at hb
  simp only [execDetSerialPhase, hb, hd, hh, hr, ho, hx, Bool.not_true, bne_self_eq_false, Bool.or_self, Bool.false_eq_true, if_false]

/-- Where no slice stands at a synchronising operation and none waits, the next round begins. -/
theorem exec_detSerialPhase_none (hr : b.round = .serial) (hx : b.nextSerial = none) (hw : ∀ x ∈ b.slices, x.wait = .none) :
    exec (.detSerialPhase b.uid) s = .next (s.newRound b) := by
  have hregang : b.slices.filter (fun x => !x.ended && x.wait == .regang) = [] :=
    List.filter_eq_nil_iff.mpr fun x h => by simp [hw x h]
  have hdue : b.slices.filter (s.comesDue b) = [] :=
    List.filter_eq_nil_iff.mpr fun x h => by simp [State.comesDue, hw x h]
  have hblock := holds_block? hb
  change execDetSerialPhase b.uid s = _
  unfold State.holds at hb
  simp only [execDetSerialPhase, hb, hd, hh, hr, ho, hx, hregang, hblock, hdue, List.map_nil, List.eraseDups_nil, List.foldl_nil,
    Bool.not_true, bne_self_eq_false, Bool.or_self, Bool.false_eq_true, if_false, if_true]

end

end Sys2Proof.Machine

end

section
/-! PROOFS. O48. -/

open Sys2Proof Sys2Proof.Machine

/-- Settles O48: one lemma for each phase of the round; the serial phase takes the least of the slices that stand at an operation
(`nextSerial_some`). -/
theorem deterministicRoundsComplete : Obligations.DeterministicRoundsComplete := by
  intro s b hb hd
  exact ⟨fun g => exec_quantumEnd hb hd, fun hh ho =>
    ⟨exec_detCommitPhase_empty hb hd hh ho, fun hr t => exec_detCommitPhase hb hd hh ho hr, fun hr =>
      ⟨fun x hx => ⟨exec_detSerialPhase_some hb hd hh ho hr hx, nextSerial_some hx⟩, exec_detSerialPhase_none hb hd hh ho hr⟩⟩⟩

end

section
/-! PROOFS. One access of an atomic on an ordinary page of a stack (R219, R268, R270, R273): what it reads, and the bytes that it leaves. -/

namespace Sys2Proof.Machine

/-! ## Publication that finds nothing to publish (R243, R244) -/

namespace Memory

theorem publish_none {m : Memory} {p : HeldByte → Bool} (h : ∀ x ∈ m.held, p x = false) : m.publish p = m := by
  have hfold : ∀ l : List HeldByte, (∀ x ∈ l, p x = false) →
      l.foldr (fun (x : HeldByte) (n : Memory) => if p x then n.store x.nt x.place x.key x.val else { n with held := x :: n.held })
        { m with held := [] } = { m with held := l } := by
    intro l hl
    induction l with
    | nil => rfl
    | cons x l ih =>
      obtain ⟨hx, hrest⟩ := List.forall_mem_cons.mp hl
      rw [List.foldr_cons, ih hrest, hx, if_neg Bool.false_ne_true]
  exact hfold m.held h

theorem publishLine_none {m : Memory} {l : Nat} (h : ∀ x ∈ m.held, lineOf x.key ≠ l) (o : Option Observer) : m.publishLine o l = m := by
  unfold Memory.publishLine
  rw [List.filter_eq_nil_iff.mpr fun x hx => by simp [h x hx]]
  rfl

theorem foldl_publishLine_none {m : Memory} {ls : List Nat} (h : ∀ l ∈ ls, ∀ x ∈ m.held, lineOf x.key ≠ l) (o : Option Observer) :
    ls.foldl (fun m l => m.publishLine o l) m = m := by
  induction ls with
  | nil => rfl
  | cons l ls ih =>
    obtain ⟨hl, hrest⟩ := List.forall_mem_cons.mp h
    rw [List.foldl_cons, publishLine_none hl o]
    exact ih hrest

end Memory

/-- A release by a slice that holds nothing. -/
theorem releaseHeld_none {s : State} {b : Block} {x : Slice} (h : ∀ y ∈ s.mem.held, y.block = b.uid → y.slice ≠ x.num) (sc : Scope) :
    s.releaseHeld b x sc = s := by
  unfold State.releaseHeld Memory.publishBelow Memory.publishUpTo
  rw [Memory.publish_none fun y hy => ?_]
  by_cases hb : y.block = b.uid
  · simp [h y hy hb]
  · simp [hb]

namespace State.Spares

theorem storeTick (s : State) (b : Block) (n key : Nat) : s.Spares (s.storeTick b n key) :=
  trans (same (t := { s with mem := (s.mem.storeTime key (s.tsOf b n)).1 }) rfl rfl rfl)
    (modSlice _ _ _ _ fun _ => ⟨rfl, rfl, rfl, rfl, rfl, rfl⟩)

theorem storeMark (s : State) (b : Block) (x : Slice) (p : Phys) (d : List (Option Byte)) : s.Spares (s.storeMark b x p d) := by
  unfold State.storeMark
  split
  · exact storeTick ..
  · exact refl s

theorem peek {s t : State} (h : s.Spares t) (key : Nat) : t.mem.peek key = s.mem.peek key := h.readAs none key

end State.Spares

/-! ## The bytes of such a page -/

/-- An ordinary page of a stack: of T1, placed by SL, its accesses not taken to the stack itself (R219, R228). -/
structure Phys.OfStack (p : Phys) : Prop where
  tgt : Pte.tgt p.pte = 0
  ms : Pte.ms p.pte = false
  sl : Pte.sl p.pte = true

namespace Phys.OfStack

variable {p : Phys} (h : p.OfStack) (s : State)
include h

theorem keyOf (i : Nat) : s.keyOf p i = p.pa + i := by
  simp only [State.keyOf, h.tgt, h.sl, t1Key, if_true]

theorem inAbsentSpan : s.inAbsentSpan p = false := by
  simp [State.inAbsentSpan, h.tgt]

theorem readAt (c n : Nat) : s.readAt none c p n = (List.range n).map fun i => s.mem.peek (p.pa + i) := by
  simp [State.readAt, State.readPhys, h.inAbsentSpan, h.tgt, h.ms, h.keyOf, Memory.readAs]

/-- A byte that no level holds is written in the package order. -/
theorem writeByte_ram (b : Block) (x : Slice) (seq : Nat) (nt : Bool) (c : Option CachePlace) (i : Nat) (v : Byte) :
    (s.writeByte b x none seq nt c p i v).mem.ram = Cells.set 0 s.mem.ram (p.pa + i) v := by
  simp [State.writeByte, State.mirror, partnerOf, h.tgt, h.ms, h.keyOf, Memory.store_ram]

/-- Bytes that no level holds leave memory as pokes of them do. -/
theorem writeBytes_ram {m : Memory} (hm : s.mem.ram = m.ram) (b : Block) (x : Slice) (seq : Nat) (nt : Bool) (c : Option CachePlace)
    (bs : List Byte) :
    (s.writeBytes b x none seq nt c p (bs.map some)).mem.ram = (m.pokeMany (bs.zipIdx.map fun v => (p.pa + v.2, v.1))).ram := by
  unfold State.writeBytes
  rw [List.zipIdx_map, List.foldl_map]
  induction bs.zipIdx generalizing s m with
  | nil => exact hm
  | cons v vs ih =>
    refine ih _ (m := m.poke (p.pa + v.2) v.1) ?_
    simp only [Prod.map, id, h.writeByte_ram, hm, Memory.poke, Memory.pokeAt_ram]

/-- A store at PKG by a slice that holds nothing (R243). -/
theorem storeOne_ram {b : Block} {x : Slice} (hdet : (s.lrOf b).det = false)
    (hown : ∀ y ∈ s.mem.held, y.block = b.uid → y.slice ≠ x.num) (c : Option CachePlace) (seq : Nat) (bs : List Byte) :
    (s.storeOne b .pkg false c seq (x, p, bs.map some)).mem.ram = (s.mem.pokeMany (bs.zipIdx.map fun v => (p.pa + v.2, v.1))).ram := by
  have hscope : scopeOn p .pkg = .pkg := by simp [scopeOn, farPage, h.tgt, h.ms]
  have htag (n : Nat) : s.tagAccess b p n true = s := by simp [State.tagAccess, hdet]
  have hlevel (t : State) : holdOf (t.lrOf b) .pkg = none := by simp [holdOf, holdLevel]
  simp only [State.storeOne, h.inAbsentSpan, Bool.false_eq_true, if_false, hscope, releaseHeld_none hown, htag, hlevel]
  rw [(State.Spares.storeMark ..).ram, h.writeBytes_ram _ (State.Spares.travels ..).ram]

/-! ## One access of an atomic (R268) -/

/-- A store that nothing stalls is performed. -/
theorem performStores_ok {b : Block} {x : Slice} (hw : s.awaited x = []) (sc : Scope) (nt : Bool) (d : List (Option Byte))
    (c : Option CachePlace) : s.performStores b sc nt [(x, p, d)] c = .ok (s.stored b sc nt [(x, p, d)] c) := by
  have hwants : s.wants b [(x, p, d)] = [] := by
    simp [State.wants, hw, State.entriesOf, h.inAbsentSpan, State.lacksRoom]
  simp only [State.performStores, hwants]

variable {size : Nat} (hlines : ∀ y ∈ s.mem.held, ∀ i < size, lineOf y.key ≠ lineOf (p.pa + i))
include hlines

/-- Where nothing is held on the lines of the access, none of its publications changes memory. -/
theorem published_lines :
    (((List.range size).map fun i => lineOf (s.keyOf p i)).eraseDups).foldl (fun m n => m.publishLine none n) s.mem = s.mem := by
  refine Memory.foldl_publishLine_none (fun l hl y hy => ?_) none
  obtain ⟨i, hi, rfl⟩ := List.mem_map.mp (List.mem_eraseDups.mp hl)
  rw [h.keyOf]
  exact hlines y hy i (List.mem_range.mp hi)

variable (b : Block) (x : Slice) (sc : Scope) (f : Nat → Option Nat)

/-- The old value is what every load sees. -/
theorem atomicOne_old :
    (s.atomicOne b x sc p size f).1 = leNat ((List.range size).map fun i => s.mem.peek (p.pa + i)) := by
  simp only [State.atomicOne, h.published_lines s hlines, h.readAt]

variable {f}

/-- An atomic that writes nothing has been a load (R242, R259). -/
theorem atomicOne_none (hf : f (leNat ((List.range size).map fun i => s.mem.peek (p.pa + i))) = none) :
    s.Spares (s.atomicOne b x sc p size f).2 := by
  simp only [State.atomicOne, h.published_lines s hlines, h.readAt, hf]
  refine .trans (.trans ?_ (.tagAccess ..)) (.travels ..)
  split
  · exact .loadTick ..
  · exact .refl s

/-- An atomic that writes is a store of the new value's bytes. -/
theorem atomicOne_some (hw : s.awaited x = []) {v : Nat}
    (hf : f (leNat ((List.range size).map fun i => s.mem.peek (p.pa + i))) = some v) :
    (s.atomicOne b x sc p size f).2 =
      s.stored b sc false [(x, p, (leBytes size v).map some)] (some (s.atomicPlace b x sc)) := by
  simp only [State.atomicOne, h.published_lines s hlines, h.readAt, hf, h.performStores_ok s hw]

/-- What an atomic at PKG leaves of memory: the new value's bytes in place of the old ones. -/
theorem atomicOne_some_ram (hdet : (s.lrOf b).det = false) (hw : s.awaited x = [])
    (hown : ∀ y ∈ s.mem.held, y.block = b.uid → y.slice ≠ x.num) {v : Nat}
    (hf : f (leNat ((List.range size).map fun i => s.mem.peek (p.pa + i))) = some v) :
    (s.atomicOne b x .pkg p size f).2.mem.ram =
      (s.mem.pokeMany ((leBytes size v).zipIdx.map fun y => (p.pa + y.2, y.1))).ram := by
  rw [h.atomicOne_some s hlines b x .pkg hw hf]
  exact h.storeOne_ram { s with nextId := s.nextId + 1 } hdet hown _ _ _

end Phys.OfStack

/-! ## Consecutive bytes poked -/

theorem Memory.peek_pokeMany_within (m : Memory) (pa : Nat) {bs : List Byte} {i : Nat} {v : Byte} (hv : bs[i]? = some v) :
    (m.pokeMany (bs.zipIdx.map fun y => (pa + y.2, y.1))).peek (pa + i) = v := by
  have hmem : (v, i) ∈ bs.zipIdx := List.mem_zipIdx_iff_getElem?.mpr hv
  refine peek_pokeMany m ⟨_, List.mem_map_of_mem hmem, rfl⟩ fun c hc hkey => ?_
  obtain ⟨⟨u, j⟩, hu, rfl⟩ := List.mem_map.mp hc
  obtain rfl : j = i := Nat.add_left_cancel hkey
  exact Option.some.inj ((List.mem_zipIdx_iff_getElem?.mp hu).symm.trans hv)

theorem Memory.peek_pokeMany_outside (m : Memory) {pa k : Nat} {bs : List Byte} (hk : k < pa ∨ pa + bs.length ≤ k) :
    (m.pokeMany (bs.zipIdx.map fun y => (pa + y.2, y.1))).peek k = m.peek k := by
  refine peek_pokeMany_other m fun c hc hkey => ?_
  obtain ⟨⟨u, j⟩, hu, rfl⟩ := List.mem_map.mp hc
  have hj : j < bs.length := (List.getElem?_eq_some_iff.mp (List.mem_zipIdx_iff_getElem?.mp hu)).1
  simp only at hkey
  omega

/-! ## The operations of integers (R270) -/

section
variable {ty : Ty} (hty : ty ≠ .f32) (m b c : Nat)
include hty

theorem atomNew_add : atomNew ty .add m b c = (m + b) % 2 ^ ty.width := by
  simp [atomNew, hty]

theorem atomNew_min : atomNew ty .min m b c =
    if readInt ty.isSigned ty.width b < readInt ty.isSigned ty.width m then b else m := by
  simp [atomNew, hty]

theorem atomNew_max : atomNew ty .max m b c =
    if readInt ty.isSigned ty.width m < readInt ty.isSigned ty.width b then b else m := by
  simp [atomNew, hty]

/-- MIN leaves one of its two operands, and no greater integer than either. -/
theorem atomNew_min_least : (atomNew ty .min m b c = m ∨ atomNew ty .min m b c = b) ∧
    readInt ty.isSigned ty.width (atomNew ty .min m b c) ≤ readInt ty.isSigned ty.width m ∧
    readInt ty.isSigned ty.width (atomNew ty .min m b c) ≤ readInt ty.isSigned ty.width b := by
  rw [atomNew_min hty]
  split
  · next h => exact ⟨.inr rfl, le_of_lt h, le_rfl⟩
  · next h => exact ⟨.inl rfl, le_rfl, not_lt.mp h⟩

/-- MAX leaves no lesser integer than either of its operands. -/
theorem atomNew_max_greatest : readInt ty.isSigned ty.width m ≤ readInt ty.isSigned ty.width (atomNew ty .max m b c) ∧
    readInt ty.isSigned ty.width b ≤ readInt ty.isSigned ty.width (atomNew ty .max m b c) := by
  rw [atomNew_max hty]
  split
  · next h => exact ⟨le_of_lt h, le_rfl⟩
  · next h => exact ⟨le_rfl, not_lt.mp h⟩

end

end Sys2Proof.Machine

end

section
/-! PROOFS. O30. -/

open Sys2Proof Sys2Proof.Machine

/-- Settles O30: on such a page an access that writes nothing spares every byte, and one that writes pokes its new value's bytes
(`Phys.OfStack.atomicOne_some_ram`). -/
theorem atomicReadsAndWritesOnce : Obligations.AtomicReadsAndWritesOnce := by
  refine ⟨fun s b x p size f htgt hms hsl hdet hw hlines => ?access, fun ty m b c hty => ?values⟩
  case access =>
    have h : p.OfStack := ⟨htgt, hms, hsl⟩
    refine ⟨h.atomicOne_old s hlines b x .pkg f, fun hf k => (h.atomicOne_none s hlines b x .pkg hf).peek k, fun v hf hown => ?_⟩
    have hpeek (k : Nat) : (s.atomicOne b x .pkg p size f).2.mem.peek k =
        (s.mem.pokeMany ((leBytes size v).zipIdx.map fun y => (p.pa + y.2, y.1))).peek k :=
      congrArg (fun ram => Cells.get 0 ram k) (h.atomicOne_some_ram s hlines b x hdet hw hown hf)
    refine ⟨fun i hi => ?_, fun k hk => ?_⟩
    · rw [hpeek, getElem?_leBytes v hi, Option.getD_some]
      exact s.mem.peek_pokeMany_within p.pa (getElem?_leBytes v hi)
    · rw [hpeek]
      exact s.mem.peek_pokeMany_outside (by rwa [length_leBytes])
  case values =>
    obtain ⟨hone, hleft, hright⟩ := atomNew_min_least hty m b c
    exact ⟨atomNew_add hty m b c, rfl, rfl, hone, hleft, hright, atomNew_max_greatest hty m b c⟩

end

section
/-! PROOFS. APPEND and its grant (R275, R276, R283): what the gang's requests and values keep of its slices, and what a grant gives. -/

namespace Sys2Proof.Machine

/-! ## Counters that the OAU tracks (R276) -/

namespace Launch

@[simp] theorem track_id (l : Launch) (key va : Nat) : (l.track key va).id = l.id := by unfold Launch.track; dsimp only; split <;> rfl
@[simp] theorem track_rcd (l : Launch) (key va : Nat) : (l.track key va).rcd = l.rcd := by unfold Launch.track; dsimp only; split <;> rfl
@[simp] theorem closeOn_id (l : Launch) (key blk : Nat) : (l.closeOn key blk).id = l.id := rfl
@[simp] theorem closeOn_rcd (l : Launch) (key blk : Nat) : (l.closeOn key blk).rcd = l.rcd := rfl

end Launch

/-! ## The gang's slices stay in their places -/

namespace Keeps

theorem modTags (s : State) (b : Block) (f : Launch → Launch) (uid : Nat) (hi : ∀ x, (f x).id = x.id) (hr : ∀ x, (f x).rcd = x.rcd) :
    s.Keeps (s.modTags b f) uid := modLaunch s uid _ _ (fun _ => hi _) fun _ => hr _

theorem publishHeldOf (s : State) (b : Block) (x : Slice) (uid : Nat) : s.Keeps (s.publishHeldOf b x) uid := same uid rfl rfl

/-- Requests leave, and counters are tracked. -/
theorem appendSent (s : State) (g : Guard) (d a b : Opd) (blk : Block) (l : List Slice) (uid : Nat) :
    s.Keeps (appendSent s g d a b blk l) uid := by
  refine foldl (fun t x => ?_) _ s
  dsimp only
  generalize hu : (if (s.lrOf blk).det = true then _ else t) = u
  have htracked : t.Keeps u uid := by
    subst hu
    split
    · refine modTags t blk _ uid (fun y => ?_) fun y => ?_ <;> (split <;> simp)
    · exact refl ..
  refine trans htracked ?_
  split
  · refine andSame (trans (trans (trans ?fetch (publishHeldOf ..)) (newId ..)) (modSlice _ uid _ _ _ ?request)) rfl rfl
    case request => exact fun _ => ⟨rfl, rfl, rfl, rfl, rfl⟩
    case fetch =>
      split
      · exact startFetch ..
      · exact refl ..
  · exact refl ..

/-- The values reach their registers. -/
theorem appendDone (s t : State) (g : Guard) (d b : Opd) (blk : Block) (l : List Slice) (uid : Nat) :
    t.Keeps (appendDone s t g d b blk l) uid := by
  refine andSame (overSlices (fun u c x => modSlice _ _ _ _ _ fun y => ?_) t g blk l) rfl rfl
  split
  · exact y.keeps_replayA
  · split
    · exact y.keeps_doneA ..
    · exact y.keeps_refl

end Keeps

/-- An APPEND that raises nothing, whose page is not held up and whose slices all have their values is over. -/
theorem appendGang_done {s : State} {g : Guard} {d a b : Opd} {blk : Block} {l : List Slice}
    (h : ((appendEv s g d a b blk l).isNone && !s.held_ (s.lrOf blk).ctx (atomicTodo l (appendReads s blk l g d a b)) &&
      appendReady s (appendSent s g d a b blk l) g d b blk l) = true) :
    appendGang s g d a b blk l = .done (appendDone s (appendSent s g d a b blk l) g d b blk l) [] := by
  simp only [Bool.and_eq_true, Option.isNone_iff_eq_none, Bool.not_eq_true'] at h
  obtain ⟨⟨hev, hheld⟩, hready⟩ := h
  simp only [appendGang, hev, hheld, hready, Bool.false_eq_true, if_false, if_true]

/-! ## A grant -/

/-- The counter's word is there to be read and written where a grant may be made. -/
theorem State.grantReady_spec {s : State} {p : Phys} (h : s.grantReady p = true) : (s.inAbsentSpan p || s.evicting p) = false := by
  simp only [State.grantReady, Bool.and_eq_true, Bool.not_eq_true'] at h
  obtain ⟨⟨-, habsent⟩, hevicting⟩ := h
  rw [habsent, hevicting, Bool.or_self]

/-- The OAU makes a grant that it may, in one fetch-and-add on the counter where its page now lies. -/
theorem exec_appendGrant {s : State} {c : Cmd} {b : Block} {uid va : Nat} {p : Phys} {counts : List (Nat × Nat)}
    (hc : s.cmds.find? (fun x => x.id == c.id) = some c) (hk : c.kind = .grant va counts) (hblk : c.block = some uid)
    (hb : s.block? uid = some b) (hp : s.phys? c.ctx va = .ok p) (hready : s.grantReady p = true)
    (hmay : s.mayGrant b (s.logKey p 0) = true) (hfirst : s.askedBefore c.id (s.logKey p 0) = false)
    (hclean : ∀ i < 4, s.keyOf p 0 + i ∉ s.mem.poison) :
    exec (.appendGrant c.id) s = .next
      (let key := s.keyOf p 0
       let m := s.mem.publishLine none (lineOf key)
       let r := grantVals (leNat ((List.range 4).map fun i => m.peek (key + i))) counts
       ({ s with
         mem := m.pokeMany ((leBytes 4 r.2).mapIdx fun i x => (key + i, x))
         cmds := s.cmds.map fun x => if x.id == c.id then { x with kind := .granted r.1 } else x } : State).storeTick b c.slice
         (s.logKey p 0)) := by
  have hpoison : (List.range 4).any (fun i => s.mem.poison.contains (s.keyOf p 0 + i)) = false :=
    List.any_eq_false.mpr fun i hi => by simpa using hclean i (List.mem_range.mp hi)
  change execAppendGrant c.id s = _
  simp only [execAppendGrant, hc, hk, hblk, Option.bind_some, hb, hp, State.grantReady_spec hready, hready, hmay, hfirst, hpoison,
    Bool.not_false, Bool.and_self, Bool.false_eq_true, if_false, if_true]

/-- A grant leaves the counter and the counts summed. -/
theorem grantVals_counter {m : Nat} (hm : m < 2 ^ 32) (counts : List (Nat × Nat)) :
    (grantVals m counts).2 = (m + (counts.map fun c => c.2).sum) % 2 ^ 32 := by
  induction counts generalizing m with
  | nil => exact (Nat.mod_eq_of_lt hm).symm
  | cons c rest ih =>
    rw [List.map_cons, List.sum_cons, ← Nat.add_assoc, ← Nat.mod_add_mod]
    exact ih (Nat.mod_lt _ (by decide))

/-- A grant answers each lane that asked, in their order. -/
theorem grantVals_lanes (m : Nat) (counts : List (Nat × Nat)) :
    (grantVals m counts).1.map (fun v => v.1) = counts.map (fun c => c.1) := by
  induction counts generalizing m with
  | nil => rfl
  | cons c rest ih => exact congrArg (c.1 :: ·) (ih _)

/-- A lane's value is the counter with the counts of the lanes before it. -/
theorem grantVals_value {m : Nat} (hm : m < 2 ^ 32) {counts : List (Nat × Nat)} {n : Nat} {v : Nat × Nat}
    (hv : (grantVals m counts).1[n]? = some v) : v.2 = (m + ((counts.take n).map fun c => c.2).sum) % 2 ^ 32 := by
  induction counts generalizing m n with
  | nil => cases hv
  | cons c rest ih =>
    cases n with
    | zero =>
      obtain rfl : (c.1, m) = v := Option.some.inj hv
      exact (Nat.mod_eq_of_lt hm).symm
    | succ n =>
      rw [List.take_succ_cons, List.map_cons, List.sum_cons, ← Nat.add_assoc, ← Nat.mod_add_mod]
      exact ih (Nat.mod_lt _ (by decide)) hv

end Sys2Proof.Machine

end

section
/-! PROOFS. O31. -/

open Sys2Proof Sys2Proof.Machine

/-- Settles O31: APPEND keeps its gang's slices in their places, and a grant's values follow the lanes that asked. -/
theorem appendsComplete : Obligations.AppendsComplete := by
  refine ⟨⟨fun g d a b => ?_, fun _ _ _ => rfl, fun s c b uid va p counts => exec_appendGrant⟩,
    fun m counts hm => ⟨grantVals_counter hm counts, grantVals_lanes m counts, fun n v hv => grantVals_value hm hv⟩⟩
  exact performs_of_perKind (sync := true) (g := g) (fun _ => rfl) (fun s blk l => appendGang_done)
    fun s blk l => Keeps.trans (Keeps.appendSent ..) (Keeps.appendDone ..)

end

section
/-! PROOFS. The commands of the copy engine, the base-die units and the user-mode queues: what sending one keeps of a gang's slices
(R287 to R290, R294, R295, R298 to R300). -/

namespace Sys2Proof.Machine

/-! ## Effects of an engine -/

namespace Keeps

theorem acceptTl (s : State) (blk share k uid : Nat) : s.Keeps (s.acceptTl blk share k).2 uid := modShare s uid blk share _

theorem completeTl (s : State) (blk share k n uid : Nat) : s.Keeps (s.completeTl blk share k n) uid := modShare ..

theorem launchCmd (s : State) (b : Block) (x : Slice) (id tl : Nat) (path d : Option Nat) (kind : CmdKind) (uid : Nat) :
    s.Keeps (s.launchCmd b x id tl path d kind) uid := by
  refine andSame (trans (acceptTl s b.uid x.share tl uid) ?_) rfl rfl
  cases path
  exacts [refl .., modShare ..]

theorem instantCmd (s : State) (b : Block) (x : Slice) (id tl : Nat) (path : Option Nat) (uid : Nat) :
    s.Keeps (s.instantCmd b x id tl path) uid := by
  refine trans (trans (acceptTl s b.uid x.share tl uid) ?_) (completeTl ..)
  cases path
  exacts [refl .., modShare ..]

theorem engineWrite (s : State) (c : Nat) (p : Phys) (x : Byte) (uid : Nat) : s.Keeps (s.engineWrite c p x) uid := by
  refine trans (mirror s p 0 x uid) ?_
  unfold State.engineWrite
  simp only
  split
  · split
    · exact andSame (opmWrite ..) rfl rfl
    · exact refl ..
  · split <;> exact same uid rfl rfl

theorem engineStore (s : State) (c : Nat) (p : Phys) (bs : List Byte) (uid : Nat) : s.Keeps (s.engineStore c p bs) uid := by
  refine trans (travels s c p bs.length true uid) ?_
  unfold State.engineStore
  simp only
  split
  · exact appendAll ..
  · exact foldl (fun _ _ => engineWrite ..) _ _

theorem writeFlag (s : State) (c va : Nat) (x : Word) (uid : Nat) : s.Keeps (s.writeFlag c va x) uid := by
  unfold State.writeFlag
  split
  · exact refl ..
  · split
    · exact refl ..
    · exact engineStore ..

theorem tagBytes (s : State) (b : Block) (va n : Nat) (w : Bool) (uid : Nat) : s.Keeps (s.tagBytes b va n w) uid := by
  refine foldl (fun t i => ?_) _ s
  split
  · exact tagAccess ..
  · exact refl ..

theorem startFetches (s : State) (l : List Nat) (uid : Nat) : s.Keeps (l.foldl State.startFetch s) uid := foldl (fun _ _ => startFetch ..) l s

theorem flagWait {s t : State} {c va : Nat} (h : s.flagWait c va = some t) (uid : Nat) : s.Keeps t uid := by
  unfold State.flagWait at h
  split at h
  · cases h; exact refl ..
  · split at h
    · cases h
    · cases h; exact startFetches ..

/-- A base-die command without elements. -/
theorem instantUnit (s : State) (b : Block) (x : Slice) (id : Nat) (faddr fval : Word) (uid : Nat) :
    (s.instantUnit b x id faddr fval).Keeps s uid := by
  unfold State.instantUnit
  simp only
  split
  · trivial
  · split
    · next h => exact flagWait h uid
    · exact trans (trans (foldl (fun _ _ => tagBytes ..) _ s) (writeFlag ..)) (instantCmd ..)

end Keeps

/-! ## Senders -/

theorem Issued.keeps_ite {s : State} {uid : Nat} {c : Prop} [Decidable c] {r q : Issued} (hr : r.Keeps s uid) (hq : q.Keeps s uid) :
    (if c then r else q).Keeps s uid := by
  split
  exacts [hr, hq]

theorem sendCpy_keeps (d : Option Nat) : Sender.Keeps (sendCpy d) := fun s b x _ _ uid =>
  have hpub := Keeps.publishHeldOf s b x uid
  Issued.keeps_ite hpub (Issued.keeps_ite (Keeps.trans hpub (Keeps.instantCmd ..)) (Keeps.trans hpub (Keeps.launchCmd ..)))

theorem sendCpyt_keeps (r : LaunchRec) (ty : Ty) (cb : Bool) (d : Option Nat) : Sender.Keeps (sendCpyt r ty cb d) := fun s b x _ _ uid =>
  have hpub := Keeps.publishHeldOf s b x uid
  Issued.keeps_ite hpub (Issued.keeps_ite (Keeps.trans hpub (Keeps.instantCmd ..)) (Keeps.trans hpub (Keeps.launchCmd ..)))

theorem sendCbook_keeps (d : Option Nat) : Sender.Keeps (sendCbook d) := fun s b x _ _ uid =>
  Keeps.trans (Keeps.publishHeldOf s b x uid) (Keeps.launchCmd ..)

theorem sendMred_keeps : Sender.Keeps sendMred := fun _ _ _ _ _ _ =>
  Issued.keeps_ite (Keeps.instantUnit ..) (Keeps.launchCmd ..)

theorem sendMcmp_keeps (ty : Ty) (r : Rnd) (op : McmpOp) : Sender.Keeps (sendMcmp ty r op) := fun _ _ _ _ _ _ =>
  Issued.keeps_ite (Keeps.instantUnit ..) (Keeps.launchCmd ..)

/-- A command on the gang, whatever the form in which its arm asks for it. -/
theorem sends_of_perGang {n : Nat} {i : Instr} {g : Guard} {k : SupKind} {d : Option Nat} {check : State → Block → Slice → Option Ev}
    {args : State → Block → Slice → List Word} {send : LaunchRec → Sender}
    (hexec : ∀ s, exec i s = .next (s.perGang n false fun b l => s.cmdGang g k i d (check s b) (args s b) (send (s.lrOf b)) b l))
    (hsend : ∀ r, (send r).Keeps) : Sends n i g k d check args send :=
  sends_of_cmdGang (fun hi _ => by simp only [hexec, State.perGang, hi]) hsend

/-- Commands that have all gone: the state that they leave. -/
theorem allWent_spec {b : Block} {l : List Slice} {r : Except (Slice × Ev) State} (h : allWent b l r = true) :
    ∃ t, r = .ok t ∧ t.allSent b.uid l = true := by
  cases r with
  | error e => cases h
  | ok t => exact ⟨t, rfl, h⟩

/-! ## MRED (R299) -/

theorem Keeps.launchMode {s t : State} {b : Block} (h : s.Keeps t b.uid) : t.lrOf b = s.lrOf b := Keeps.lrOf h rfl

/-- MRED loads its parameter blocks and sends its commands. -/
theorem exec_mred {s : State} {g : Guard} {a : Opd} {b : Block} {l : List Slice} (hi : s.issuing = some (b, l))
    (hun : s.unblocked b (mredAccs s b l g a) = true) :
    exec (.mred g a) s = .next (s.complete (lenOf [a]) false
      (let t := s.afterLoads b false l (mredAccs s b l g a)
       t.cmdGang g .c (.mred g a) none (mredTrap t b (mredAccs s b l g a)) (mredWords t b (mredAccs s b l g a)) sendMred b l)) := by
  obtain ⟨hc, hh⟩ := State.unblocked_iff.mp hun
  change execMred g a s = _
  simp only [execMred, State.perGang, hi, hc, hh, ite_self, Bool.false_eq_true, if_false]

/-- MRED is sent wherever its loads pass, its blocks pass the checks and every sender has room. -/
theorem performs_mred (g : Guard) (a : Opd) : Performs (lenOf [a]) (.mred g a)
    (fun s b l => let x := mredAccs s b l g a
      let t := s.afterLoads b false l x
      s.unblocked b x && (gangTrap g (toSend g l) (mredTrap t b x)).isNone &&
        allWent b (toSend g l) (t.sendAll .c none (mredWords t b x) sendMred b.uid (toSend g l)))
    (fun s b l => let x := mredAccs s b l g a
      let t := s.afterLoads b false l x
      okOr t (t.sendAll .c none (mredWords t b x) sendMred b.uid (toSend g l))) := by
  intro s b l hi hg hok
  obtain ⟨-, hd, -⟩ := goes_spec hi hg
  simp only [Bool.and_eq_true, Option.isNone_iff_eq_none] at hok
  obtain ⟨⟨hun, hc⟩, hwent⟩ := hok
  obtain ⟨u, hu, hsent⟩ := allWent_spec hwent
  have hloads := Keeps.afterLoads s b false l (mredAccs s b l g a) b.uid
  have hbuf := buffers_normal (s := s.afterLoads b false l (mredAccs s b l g a)) (b := b) (by rw [Keeps.launchMode hloads]; exact hd)
  have hlog : cmdLogFull g .c none (toSend g l) = none := firstEv_none fun x _ => by simp
  simp only [exec_mred hi hun, cmdGang_sent hbuf hc hlog hu hsent, hu, okOr]
  rw [Keeps.complete false hi hg (Keeps.trans hloads (Keeps.sendAll sendMred_keeps .c none _ b.uid b.uid hu))]

/-! ## QPOST (R295) -/

namespace Keeps

/-- The slots that slices claim. -/
theorem postClaim (s : State) (g : Guard) (b : Opd) (blk : Block) (l : List Slice) (uid : Nat) :
    s.Keeps (Machine.postClaim s g b blk l) uid := by
  refine foldl (fun t x => ?_) _ s
  dsimp only
  split
  · refine trans (trans (publishHeldOf ..) (atomicOne ..)) (modSlice _ _ _ _ _ fun y => ?_)
    exact ⟨rfl, rfl, rfl, rfl, rfl⟩
  · exact refl ..

theorem notePacket (s : State) (b : Block) (x : Slice) (va : Nat) (ws : List Word) (uid : Nat) : s.Keeps (s.notePacket b x va ws) uid := by
  unfold State.notePacket
  simp only
  split
  · exact trans (acceptTl ..) (modShare ..)
  · exact refl ..

theorem writePacket {s t : State} {b : Block} {x : Slice} {va : Nat} {ws : List Word} (uid : Nat)
    (h : s.writePacket b x va ws = .ok t) : s.Keeps t uid := by
  unfold State.writePacket at h
  split at h <;> cases h
  next h => exact trans (performStores uid (.inl h)) (notePacket ..)

/-- Packets that are all written. -/
theorem postWrite {s t : State} {d a : Opd} {blk : Block} {l : List Slice} (uid : Nat) (h : Machine.postWrite s d a blk l = .ok t) :
    s.Keeps t uid := by
  unfold Machine.postWrite at h
  split at h
  · cases h
  · refine List.foldlRecOn (motive := fun r : Except State State => ∀ t, r = .ok t → s.Keeps t uid) l _ (fun t ht => ?_)
      (fun r hr x _ t ht => ?_) t h
    · cases ht; exact refl ..
    · cases r with
      | error e => cases ht
      | ok u =>
        refine trans (hr u rfl) ?_
        dsimp only at ht
        split at ht
        · cases ht; exact modSlice _ _ _ _ _ fun y => y.keeps_replay .c
        · split at ht <;> cases ht
          next hw => exact trans (writePacket uid hw) (modSlice _ _ _ _ _ fun y => y.keeps_sent ..)

end Keeps

theorem isOk_spec {ε α : Type} {r : Except ε α} (h : isOk r = true) : ∃ x, r = .ok x := by
  cases r with
  | error e => cases h
  | ok x => exact ⟨x, rfl⟩

/-- QPOST writes its packets wherever its headers can be read, nothing is raised, and the slots that it claims are free. -/
theorem performs_qpost (g : Guard) (d a b : Opd) : Performs (lenOf [b]) (.qpost g d a b)
    (fun s blk l => !postHeld s g b blk l && (postEv s g a b blk l).isNone && !postWaits s g b blk l && (postAbsent s g b blk l).isEmpty &&
      (let t := postClaim (postReads s g b blk l) g b blk l
       (t.takers g blk l).all (postFree t b blk) && isOk (postWrite t d a blk (t.takers g blk l))))
    (fun s blk l => let t := postClaim (postReads s g b blk l) g b blk l
      okOr t (postWrite t d a blk (t.takers g blk l))) := by
  refine performs_of_complete (qend := false) (F := fun s blk l => qpostGang s g d a b blk l) (fun {s blk l} hi hd => ?_)
    (fun s blk l hok => ?_) fun s blk l hok => ?_
  · change execQpost g d a b s = _
    simp only [execQpost, State.perGang, hi, buffers_normal hd, Bool.false_eq_true, if_false]
  · simp only [Bool.and_eq_true, Bool.not_eq_true', Option.isNone_iff_eq_none, List.isEmpty_iff] at hok
    obtain ⟨⟨⟨⟨hheld, hev⟩, hwaits⟩, habsent⟩, hfree, hwrite⟩ := hok
    obtain ⟨t, ht⟩ := isOk_spec hwrite
    simp only [qpostGang, hheld, hev, hwaits, habsent, hfree, ht, okOr, Bool.false_eq_true, if_false, if_true]
  · have hclaim := Keeps.trans (Keeps.afterLoads s blk false (postNew g l) (gangAccs s blk (postNew g l) fun e x => headerLoads e x g b) blk.uid)
      (Keeps.postClaim _ g b blk l blk.uid)
    simp only [Bool.and_eq_true] at hok
    obtain ⟨-, -, hwrite⟩ := hok
    obtain ⟨t, ht⟩ := isOk_spec hwrite
    simp only [ht, okOr]
    exact Keeps.trans hclaim (Keeps.postWrite blk.uid ht)

end Sys2Proof.Machine

end

section
/-! PROOFS. O37. -/

open Sys2Proof Sys2Proof.Machine

/-- Settles O37: each command's sender keeps the gang's slices in their places, so that the gang goes on (`sends_of_perGang`); MRED first
loads its parameter blocks (`performs_mred`), and QPOST claims the slots that it writes (`performs_qpost`). -/
theorem asyncCommandsAreSent : Obligations.AsyncCommandsAreSent :=
  ⟨fun _ _ _ _ _ => sends_of_perGang (fun _ => rfl) fun _ => sendCpy_keeps _,
    fun _ ty cb _ _ => sends_of_perGang (fun _ => rfl) fun r => sendCpyt_keeps r ty cb _,
    fun _ _ _ => sends_of_perGang (fun _ => rfl) fun _ => sendCbook_keeps _,
    fun _ ty r op _ => sends_of_perGang (fun _ => rfl) fun _ => sendMcmp_keeps ty r op, performs_mred, performs_qpost⟩

end

section
/-! PROOFS. The ends of engine commands and of packets (R291 to R293, R296, R299, R300): what each event does once nothing stands in
its way. -/

namespace Sys2Proof.Machine

theorem exec_copyComplete {s : State} {c : Cmd} (hc : s.cmds.find? (fun x => x.id == c.id) = some c) (hk : c.kind.copies = true)
    (hw : s.copyWaits c = false) (hspans : s.copySpans c = []) : exec (.copyComplete c.id) s = .next (s.copyDone c) := by
  change execCopyComplete c.id s = _
  simp only [execCopyComplete, hc, hk, hw, hspans, Bool.not_true, Bool.or_self, Bool.false_eq_true, if_false]

theorem exec_mredComplete {s : State} {c : Cmd} {b : RedBlock} (hc : s.cmds.find? (fun x => x.id == c.id) = some c)
    (hk : c.kind = .red b) (hhold : c.hold = none)
    (hfree : s.unitFree c.ctx b.faddr.toNat (b.dst :: b.srcs) (b.len * redSize b.fmt) = true)
    (hroom : s.engineRoom c.ctx (flagStore b.faddr.toNat) = [])
    (hdetx : s.unitDetx c b.dst b.srcs (b.len * redSize b.fmt) b.faddr.toNat = false) :
    exec (.mredComplete c.id) s = .next ((s.unitTag c b.dst b.srcs (b.len * redSize b.fmt) b.faddr.toNat).unitDone c b.dst b.srcs
      (redSize b.fmt) b.len b.faddr b.fval (redElem b.op b.fmt)) := by
  change execMredComplete c.id s = _
  simp only [execMredComplete, hc, hk, hhold, hfree, hroom, hdetx, Option.isSome_none, Bool.not_true, Bool.or_self, Bool.false_eq_true,
    ne_eq, not_true_eq_false, if_false]

theorem exec_mcmpComplete {s : State} {c : Cmd} {ty : Ty} {r : Rnd} {op : McmpOp} {a : McmpArgs}
    (hc : s.cmds.find? (fun x => x.id == c.id) = some c) (hk : c.kind = .mcmp ty r op a) (hhold : c.hold = none)
    (hfree : s.unitFree c.ctx a.faddr.toNat (a.dst :: mcmpSrcs op a) (a.n * (ty.width / 8)) = true)
    (hroom : s.engineRoom c.ctx (flagStore a.faddr.toNat) = [])
    (hdetx : s.unitDetx c a.dst (mcmpSrcs op a) (a.n * (ty.width / 8)) a.faddr.toNat = false) :
    exec (.mcmpComplete c.id) s = .next ((s.unitTag c a.dst (mcmpSrcs op a) (a.n * (ty.width / 8)) a.faddr.toNat).unitDone c a.dst
      (mcmpSrcs op a) (ty.width / 8) a.n a.faddr a.fval (mcmpElem ty r op a.fill)) := by
  change execMcmpComplete c.id s = _
  simp only [execMcmpComplete, hc, hk, hhold, hfree, hroom, hdetx, Option.isSome_none, Bool.not_true, Bool.or_self, Bool.false_eq_true,
    ne_eq, not_true_eq_false, if_false]

theorem exec_queuePacketPickup {s : State} {u : UserQueue} {k : Nat} {bs : List Byte}
    (hu : s.sched.userQs.find? (fun x => x.id == u.id) = some u) (hblocked : s.uqBlocked u = false) (hev : s.uqEv u = none)
    (hslot : (s.uqPolls u).uqSlot u = some (k, bs)) (hblock : (s.uqPolls u).anyBlocked u.ctx (packetBlock bs) = false) :
    exec (.queuePacketPickup u.id) s = .next (((s.uqPolls u).readsAll u.ctx (packetBlock bs)).pickUp u k bs) := by
  change execQueuePacketPickup u.id s = _
  simp only [execQueuePacketPickup, hu, hblocked, hev, hslot, hblock, Bool.false_eq_true, if_false]

/-- The oldest packet's turn is what the event comes to, where the queue's header can be read. -/
theorem exec_queuePacketComplete {s : State} {u : UserQueue} {p : Packet} {rest : List Packet} {nslot ring : Nat}
    (hu : s.sched.userQs.find? (fun x => x.id == u.id) = some u) (hp : u.inFlight = p :: rest)
    (hn : s.ctxRead u.ctx (u.header + 136) 4 = some nslot) (hr : s.ctxRead u.ctx (u.header + 144) 8 = some ring) :
    exec (.queuePacketComplete u.id) s = .next (s.packetTurn u p nslot ring) := by
  change execQueuePacketComplete u.id s = _
  simp only [execQueuePacketComplete, hu, hp, hn, hr]

/-- A packet whose command has ended and whose places are there and have room completes, unless its stores of VALID and RIDX run into
an event. -/
theorem packetTurn_ready {s : State} {u : UserQueue} {p : Packet} {nslot ring : Nat} (hcmd : p.cmd = none)
    (hheld : s.engineHeld u.ctx (p.stores u nslot ring) = false) (hroom : s.engineRoom u.ctx (p.stores u nslot ring) = [])
    (hflag : (s.flagEv u.ctx p.faddr).bind Ev.fatal = none) :
    s.packetTurn u p nslot ring = match s.wordsEv u p nslot ring with
      | some e => s.queueFault u e
      | none => s.packetDone u p nslot ring := by
  simp only [State.packetTurn, hcmd, hheld, hroom, hflag, Option.isSome_none, Bool.or_self, Bool.false_eq_true, if_false,
    Option.orElse_eq_orElse]
  cases s.wordsEv u p nslot ring <;> rfl

end Sys2Proof.Machine

end

section
/-! PROOFS. O39. -/

open Sys2Proof Sys2Proof.Machine

/-- Settles O39: each event's outcome is read off its arm, case by case. -/
theorem asyncCommandsComplete : Obligations.AsyncCommandsComplete := by
  refine ⟨fun s c hc hk hw hspans => exec_copyComplete hc hk hw hspans,
    fun s c b hc hk hhold hfree hroom hdetx => exec_mredComplete hc hk hhold hfree hroom hdetx,
    fun s c ty r op a hc hk hhold hfree hroom hdetx => exec_mcmpComplete hc hk hhold hfree hroom hdetx,
    fun s u k bs hu hb he hs hp => exec_queuePacketPickup hu hb he hs hp,
    fun s u p rest nslot ring hu hp hcmd hn hr hheld hroom hflag => ?_⟩
  have hturn := packetTurn_ready hcmd hheld hroom hflag
  exact ⟨fun hw => by rw [exec_queuePacketComplete hu hp hn hr, hturn, hw],
    fun e hw => by rw [exec_queuePacketComplete hu hp hn hr, hturn, hw]⟩

end

section
/-! PROOFS. Instructions on the gang's slices and on its commands whose outcome depends on the state (R254, R255): how they go on. -/

namespace Sys2Proof.Machine

/-- Slices at one pc that each become h of what they were go on to the next word of the block, in either launch mode. -/
theorem complete_eachSlice {s : State} {b : Block} {l : List Slice} {n : Nat} {g : Guard} {f : Env → Slice → Except Ev Slice}
    {h : Slice → Slice} (hi : s.issuing = some (b, l)) (hrun : s.runs n = true)
    (hf : ∀ x ∈ l, x.part_ g ≠ 0 → f (s.envOf b x) x = .ok (h x)) (hk : ∀ x, (h x).keeps x) :
    s.complete n false (eachSlice s g b l f) = s.after b l n fun x => x.when g h := by
  obtain ⟨hw, hn, pc, ha⟩ := runs_spec hi hrun
  have hkeep : ∀ x : Slice, (x.when g h).keeps x := fun x => Slice.when_keeps (hk x)
  have hr : ∀ x ∈ l, (if x.part_ g = 0 then Except.ok (x, false) else (f (s.envOf b x) x).map fun y => (y, false)) =
      .ok (x.when g h, false) := fun x hx => by
    unfold Slice.when
    split
    · rfl
    · next hp => rw [hf x hx hp]; rfl
  have hq : ∀ x ∈ l, went (s.noHeader (s.lrOf b).ctx) n (x.when g h, false) = .ok ((x.when g h).passed n) := fun x hx => by
    obtain ⟨-, hended, -, -, -⟩ := hkeep x
    exact retire_slice _ (hended.trans (issuing_ended hi hw x hx)) ((keeps_inside (hkeep x) n).trans (ha x hx).1)
  rw [eachSlice, complete_eachMove hi hw hn hr (fun x _ => (hkeep x).1) hq, parted_same (issuing_holds hi) (pc := VA.plus pc n)]
  · rfl
  · refine rested_pc fun y hy => ?_
    obtain ⟨x, hx, rfl⟩ := List.mem_map.mp hy
    obtain ⟨-, -, hpc, -, -⟩ := hkeep x
    rw [Slice.passed_pc, hpc, (ha x hx).2]

/-- The gang's commands, all of them sent, go on. -/
theorem complete_cmdGang {s : State} {g : Guard} {k : SupKind} {i : Instr} {d : Option Nat} {check : Slice → Option Ev}
    {args : Slice → List Word} {send : Sender} {b : Block} {l : List Slice} {n : Nat} (hi : s.issuing = some (b, l))
    (hg : s.goes n = true) (hsend : send.Keeps) (hc : gangTrap g (toSend g l) check = none)
    (hlog : cmdLogFull g k d (toSend g l) = none)
    (hwent : allWent b (toSend g l) (s.sendAll k d args send b.uid (toSend g l)) = true) :
    s.complete n false (s.cmdGang g k i d check args send b l) = (okOr s (s.sendAll k d args send b.uid (toSend g l))).goOn b l n := by
  obtain ⟨-, hd, -⟩ := goes_spec hi hg
  obtain ⟨t, ht, hsent⟩ := allWent_spec hwent
  rw [cmdGang_sent (buffers_normal hd) hc hlog ht hsent, Keeps.complete false hi hg (Keeps.sendAll hsend k d args b.uid b.uid ht), ht, okOr]

end Sys2Proof.Machine

end

section
/-! PROOFS. Spans (R303 to R319): what the span instructions keep of a gang's slices, the word of SPANQ, and the span cache's events. -/

namespace Sys2Proof.Machine

/-! ## The span instructions -/

namespace Keeps

theorem ite {s t u : State} {uid : Nat} {c : Prop} [Decidable c] (ht : s.Keeps t uid) (hu : s.Keeps u uid) :
    s.Keeps (if c then t else u) uid := by
  split
  exacts [ht, hu]

theorem setCap (s : State) (n v uid : Nat) : s.Keeps (s.setCap n v) uid :=
  ite (trans (setSpan ..) (startFetch ..)) (setSpan ..)

theorem evictSpan (s : State) (n uid : Nat) : s.Keeps (s.evictSpan n) uid := ite (setSpan ..) (refl ..)

end Keeps

/-- A SPANCTL whose value and pages pass acts on the spans that its slices name. -/
theorem performs_spanctl {n : Nat} {i : Instr} {g : Guard} {a b : Opd} {bad : Env → Slice → Bool} {f : State → Block → Slice → Nat → State}
    (hexec : ∀ s, exec i s = .next (s.perGang n false fun blk l => spanctl g i a b bad f blk l s))
    (hk : ∀ (s : State) blk x m uid, s.Keeps (f s blk x m) uid) :
    Performs n i
      (fun s blk l => (s.spanTrap blk g false true a l).isNone && (acting g l).all fun x => !bad (s.envOf blk x) x)
      (fun s blk l => overSlices s g blk l fun t blk x => f t blk x (t.spanAt blk x a)) := by
  intro s blk l hi hg hok
  obtain ⟨-, hd, -⟩ := goes_spec hi hg
  simp only [Bool.and_eq_true, Option.isNone_iff_eq_none, List.all_eq_true, Bool.not_eq_true'] at hok
  obtain ⟨htrap, hval⟩ := hok
  have hdone : spanctl g i a b bad f blk l s = .done (overSlices s g blk l fun t blk x => f t blk x (t.spanAt blk x a)) [] := by
    simp only [spanctl, firstEv_none_of_test hval, htrap, buffers_normal hd, Bool.false_eq_true, if_false]
  rw [hexec, Keeps.perGang hi hg hdone (Keeps.overSlices (fun t blk x => hk ..) s g blk l)]

theorem Slice.keeps_queried (x : Slice) (det : Bool) (ws : List RegWrite) : (x.queried det ws).keeps x := by
  have hsup : ∀ ws sup, ({ x.writeAll ws with supS := sup } : Slice).keeps x := fun ws sup =>
    Slice.keeps_trans (y := x.writeAll ws) ⟨rfl, rfl, rfl, rfl, rfl⟩ (x.keeps_writeAll ws)
  unfold Slice.queried
  split
  · exact x.keeps_writeAll ws
  · split
    exacts [hsup .., hsup ..]

theorem exec_spanq {g : Guard} {d a : Opd} {s : State} {b : Block} {l : List Slice} (hi : s.issuing = some (b, l))
    (hrun : s.runs (lenOf [a]) = true) (htrap : s.spanTrap b g true false a l = none) :
    exec (.spanq g d a) s = .next (s.after b l (lenOf [a]) fun x => x.when g fun x =>
      x.queried (s.lrOf b).det (putWrites d false 64 0 ((s.spanSeen b x (s.spanAt b x a)).word (s.lrOf b).det).toNat)) := by
  change execSpanq g d a s = _
  simp only [execSpanq, State.perGang, hi, htrap]
  rw [complete_eachSlice hi hrun (fun _ _ _ => rfl) fun x => x.keeps_queried ..]

/-- SPANQ's word is the sum of its fields (R318), those of the span's state being zero in a deterministic launch. -/
theorem Span.word_toNat {p : Span} {det : Bool} (hcap : p.cap ≤ 256) (hlen : p.cocoon.length ≤ 256) :
    (p.word det).toNat =
      8388608 * p.cap + 16384 * (if det then 0 else p.cocoon.length) + 16 * p.pol.toNat + (if det then 0 else p.st.code) := by
  have hpol := p.pol.isLt
  have hst : p.st.code < 4 := by cases p.st <;> decide
  rw [Span.word, BitVec.toNat_ofNat]
  cases det
  · simp only [Bool.false_eq_true, if_false]; omega
  · simp only [if_true]; omega

/-- The fields of SPANQ's word (R318). -/
theorem Span.word_fields {p : Span} (det : Bool) (hcap : p.cap ≤ 256) (hlen : p.cocoon.length ≤ 256) :
    let w := p.word det
    w.extractLsb' 23 9 = BitVec.ofNat 9 p.cap ∧ w.extractLsb' 14 9 = (if det then 0 else BitVec.ofNat 9 p.cocoon.length) ∧
    w.extractLsb' 4 4 = p.pol ∧ w.extractLsb' 0 2 = (if det then 0 else BitVec.ofNat 2 p.st.code) ∧
    w.extractLsb' 32 32 = 0 ∧ w.extractLsb' 8 6 = 0 ∧ w.extractLsb' 2 2 = 0 := by
  have hpol := p.pol.isLt
  have hst : p.st.code < 4 := by cases p.st <;> decide
  have hw := Span.word_toNat (det := det) hcap hlen
  have hfield {n k : Nat} {v : BitVec n} (h : (p.word det).toNat / 2 ^ k % 2 ^ n = v.toNat) : (p.word det).extractLsb' k n = v :=
    BitVec.eq_of_toNat_eq (by rw [BitVec.extractLsb'_toNat, Nat.shiftRight_eq_div_pow, h])
  refine ⟨hfield ?_, hfield ?_, hfield ?_, hfield ?_, hfield ?_, hfield ?_, hfield ?_⟩ <;> rw [hw] <;> cases det <;>
    simp only [Bool.false_eq_true, if_false, if_true, BitVec.toNat_ofNat, BitVec.ofNat_eq_ofNat, Nat.reducePow] <;> omega

/-- SPANFET is counted on tl5 and asks for its spans. -/
theorem sendSpanfet_keeps (d : Option Nat) : Sender.Keeps (sendSpanfet d) := by
  intro s b x id ws uid
  have hcount := Keeps.trans (Keeps.publishHeldOf s b x uid) (Keeps.acceptTl _ b.uid x.share 5 uid)
  unfold sendSpanfet
  simp only
  split
  · trivial
  · exact Issued.keeps_ite (Keeps.trans hcount (Keeps.completeTl ..))
      (Keeps.trans (Keeps.andSame hcount (by rfl) (by rfl)) (Keeps.startFetches ..))

/-! ## The span cache's own events -/

/-- A span arrives in a frame of the span cache of some context, which holds no other copy. -/
theorem freeFrame_spec {s : State} {n f : Nat} (h : s.freeFrame n = some f) :
    (∃ x ∈ s.ctxs, x.hasFrame f = true) ∧ ∀ p ∈ s.spans, p.frame ≠ some f := by
  obtain ⟨x, hx, hf⟩ := List.exists_of_findSome?_eq_some h
  have hok := List.find?_some hf
  simp only [Bool.and_eq_true, Bool.not_eq_true', List.contains_eq_mem, decide_eq_false_iff_not, List.mem_filterMap, not_exists, not_and] at hok
  obtain ⟨hframe, hunused⟩ := hok
  refine ⟨⟨x, ?_, hframe⟩, hunused⟩
  obtain ⟨y, hy, rfl⟩ := List.mem_map.mp hx
  exact List.fst_mem_of_mem_zipIdx (List.mem_filter.mp hy).1

theorem State.span_num (s : State) (n : Nat) : (s.span n).num = n := by
  unfold State.span State.span?
  cases h : s.spans.find? (fun p => p.num == n) with
  | none => rfl
  | some p => exact beq_iff_eq.mp (List.find?_some h :)

theorem exec_spanFetchArrival {s : State} {n f : Nat} (hst : (s.span n).st = .fetching) (hf : s.freeFrame n = some f) :
    exec (.spanFetchArrival n) s = .next (s.spanArrives (s.span n) f) := by
  change execSpanFetchArrival n s = _
  simp only [execSpanFetchArrival, hf, hst, beq_self_eq_true, if_true]

theorem exec_spanReplacement {s : State} {n : Nat} (hst : (s.span n).st = .resident) (hpin : (s.span n).pin = false)
    (hw : s.spanWanted n = false) : exec (.spanReplacement n) s = .next (s.setSpan { s.span n with st := .evicting }) := by
  change execSpanReplacement n s = _
  simp only [execSpanReplacement, State.replaceable, hst, hpin, s.span_num, hw, beq_self_eq_true, Bool.not_false, Bool.and_self, if_true]

theorem exec_spanEvictionComplete {s : State} {n : Nat} (hst : (s.span n).st = .evicting) :
    exec (.spanEvictionComplete n) s = .next (s.spanLeaves (s.span n)) := by
  change execSpanEvictionComplete n s = _
  simp only [execSpanEvictionComplete, hst, beq_self_eq_true, if_true]

end Sys2Proof.Machine

end

section
/-! PROOFS. O40. -/

open Sys2Proof Sys2Proof.Machine

/-- Settles O40: the SPANCTLs change the span table alone (`performs_spanctl`), SPANQ writes its slices' registers, SPANFET's sender keeps
the slices in their places, and the events find the span in the state that they ask for. -/
theorem spanInstructionsComplete : Obligations.SpanInstructionsComplete := by
  refine ⟨fun g a b => performs_spanctl (fun _ => rfl) fun _ _ _ _ _ => Keeps.setCap ..,
    fun g a b => performs_spanctl (fun _ => rfl) fun _ _ _ _ _ => Keeps.setSpan ..,
    fun g a => performs_spanctl (b := .none) (bad := fun _ _ => false) (f := evictOne) (fun _ => rfl) fun _ _ _ _ _ => Keeps.evictSpan ..,
    fun g d a s b l hi hrun htrap => exec_spanq hi hrun htrap, fun p det hcap hlen => Span.word_fields det hcap hlen,
    fun g d a b s blk l hi hg hok => ?_,
    fun s n f hst hf => ⟨exec_spanFetchArrival hst hf, freeFrame_spec hf⟩,
    fun s n hst hpin hw => exec_spanReplacement hst hpin hw, fun s n hst => exec_spanEvictionComplete hst⟩
  simp only [Bool.and_eq_true, Option.isNone_iff_eq_none] at hok
  obtain ⟨⟨⟨hlong, hpages⟩, hlog⟩, hwent⟩ := hok
  change execSpanfet g d a b s = _
  simp only [execSpanfet, State.perGang, hi, hlong]
  rw [complete_cmdGang hi hg (sendSpanfet_keeps _) hpages hlog hwent]

end

section
/-! PROOFS. The switch allocator (R322 to R324): what an allocation takes, and what a free leaves. -/

namespace Sys2Proof.Machine

/-! ## Cleared ranges -/

/-- The cells of some keys only. -/
theorem Cells.find?_filter_key {α : Type} (p : Nat → Bool) (l : Cells α) (k : Nat) :
    Cells.find? (l.filter fun c => p c.1) k = if p k then Cells.find? l k else none := by
  induction l with
  | nil => simp [Cells.find?]
  | cons c l ih =>
    obtain ⟨a, x⟩ := c
    by_cases ha : a = k
    · subst ha
      cases hp : p a <;> simp [Cells.find?, hp, ih]
    · cases hp : p a <;> simp [Cells.find?, hp, ih, ha]

namespace Memory

theorem peek_zeroRange (m : Memory) (k n key : Nat) :
    (m.zeroRange k n).peek key = if k ≤ key ∧ key < k + n then 0 else m.peek key := by
  simp only [Memory.peek, Memory.zeroRange, Cells.get, Cells.find?_filter_key fun x => !(k ≤ x && x < k + n)]
  by_cases h : k ≤ key ∧ key < k + n
  · simp [h]
  · rw [if_neg h, if_pos (by simp; omega)]

theorem mem_poison_zeroRange {m : Memory} {k n key : Nat} :
    key ∈ (m.zeroRange k n).poison ↔ key ∈ m.poison ∧ ¬ (k ≤ key ∧ key < k + n) := by
  simp only [Memory.zeroRange, List.mem_filter, Bool.not_eq_true', Bool.and_eq_false_iff, decide_eq_false_iff_not, not_and_or]

/-- A byte that is zero and not poisoned. -/
def Clean (m : Memory) (key : Nat) : Prop := m.peek key = 0 ∧ key ∉ m.poison

theorem Clean.zeroRange {m : Memory} {key : Nat} (h : m.Clean key) (k n : Nat) : (m.zeroRange k n).Clean key := by
  obtain ⟨hpeek, hpoison⟩ := h
  refine ⟨?_, fun hm => hpoison (mem_poison_zeroRange.mp hm).1⟩
  rw [peek_zeroRange, hpeek, ite_self]

theorem clean_zeroRange (m : Memory) {k n key : Nat} (h : k ≤ key ∧ key < k + n) : (m.zeroRange k n).Clean key :=
  ⟨by rw [peek_zeroRange, if_pos h], fun hm => (mem_poison_zeroRange.mp hm).2 h⟩

/-- Clearing the ranges of several planes leaves each of them clean. -/
theorem clean_zeroPlanes (pa n : Nat) {ps : List Nat} {q i : Nat} (hq : q ∈ ps) (hi : i < n) (m : Memory) :
    (ps.foldl (fun m k => m.zeroRange (switchKey k pa) n) m).Clean (switchKey q (pa + i)) := by
  induction ps generalizing m with
  | nil => cases hq
  | cons p ps ih =>
    rw [List.foldl_cons]
    by_cases h : q ∈ ps
    · exact ih h _
    · obtain rfl : q = p := (List.mem_cons.mp hq).resolve_right h
      refine List.foldlRecOn (motive := fun m : Memory => m.Clean _) ps _ ?_ fun m hm k _ => hm.zeroRange ..
      exact clean_zeroRange m (by unfold switchKey; omega)

end Memory

/-! ## Places -/

/-- The least of a list is one of it. -/
theorem foldl_min_mem {l : List Nat} {acc : Option Nat} {x : Nat}
    (h : l.foldl (fun (acc : Option Nat) x => match acc with | none => some x | some y => some (min x y)) acc = some x) :
    x ∈ l ∨ acc = some x := by
  induction l generalizing acc with
  | nil => exact .inr h
  | cons a l ih =>
    rcases ih h with h | h
    · exact .inl (List.mem_cons_of_mem _ h)
    · cases acc with
      | none => cases h; exact .inl (List.mem_cons_self ..)
      | some y =>
        obtain rfl : min a y = x := Option.some.inj h
        rcases min_choice a y with hm | hm <;> rw [hm]
        exacts [.inl (List.mem_cons_self ..), .inr rfl]

/-- A place that the allocator finds is clear of the ranges in use. -/
theorem placeIn_clear {used : List (Nat × Nat)} {lo size n align choice x : Nat} (h : placeIn used lo size n align choice = some x) :
    ∀ u ∈ used, x + n ≤ u.1 ∨ u.1 + u.2 ≤ x := by
  intro u hu
  unfold placeIn at h
  simp only at h
  split at h
  · next hc =>
    cases h
    simpa using List.all_eq_true.mp (Bool.and_eq_true_iff.mp hc).2 u hu
  · rcases foldl_min_mem h with h | h
    · simpa using List.all_eq_true.mp (Bool.and_eq_true_iff.mp (List.mem_filter.mp h).2).2 u hu
    · cases h

/-! ## SALLOC (R323) -/

/-- The state that an allocation leaves: its bytes are cleared on its planes. -/
def State.allocated (s : State) (a : Alloc) : State :=
  { s with
    fresh := s.fresh + 2
    mem := (a.plane :: a.partner.toList).foldl (fun m k => m.zeroRange (switchKey k a.pa) a.size) s.mem
    fabric := { s.fabric with allocs := s.fabric.allocs ++ [a] } }

theorem switchSize_pos {n : Nat} (h : 0 < n) : 0 < switchSize n := by
  unfold switchSize
  split <;> omega

/-- The planes that an allocation takes: enough of them are one, or two of a DUP2. -/
theorem planes_enough {dup : Bool} {first second : Option Nat} (hnone : dup = false → second = none)
    (hlen : ¬ (first.toList ++ second.toList).length < if dup then 2 else 1) : (∃ p, first = some p) ∧ second.isSome = dup := by
  cases dup
  · obtain rfl := hnone rfl
    cases first <;> simp_all
  · cases first <;> cases second <;> simp_all

/-- What SALLOC comes to: nothing, or an allocation that shares no address with another of its context. -/
theorem salloc_cases (s : State) (c : Nat) (dup : Bool) (size : Nat) (pl : Word) :
    (s.salloc c dup size pl).2 = s ∨ ∃ a : Alloc, a.ctx = c ∧ a.size = switchSize size ∧ a.partner.isSome = dup ∧ a.lost = false ∧
      (∀ u ∈ s.fabric.allocs, u.ctx = c → a.base + a.size ≤ u.base ∨ u.base + u.size ≤ a.base) ∧
      s.salloc c dup size pl = (BitVec.ofNat 64 a.base, s.allocated a) := by
  unfold State.salloc
  simp only
  generalize (if pl.getLsbD 8 = true then s.bestPlane none else some (bitsOf pl.toNat 0 4)) = first
  generalize hsecond : (if (!dup) = true then none else if pl.getLsbD 8 = true then s.bestPlane first else some (bitsOf pl.toNat 4 4)) = second
  generalize (if dup = true then 2 * switchSize size else switchSize size) = cost
  generalize hneed : (if dup = true then 2 else 1) = need
  split
  · exact .inl rfl
  split
  · exact .inl rfl
  split
  · exact .inl rfl
  next hlen =>
  split
  · exact .inl rfl
  next pa _ =>
  split
  · exact .inl rfl
  next base hbase =>
  subst hneed
  obtain ⟨⟨p, rfl⟩, hdup⟩ := planes_enough (fun h => by rw [← hsecond, h]; rfl) hlen
  refine .inr ⟨{ ctx := c, base, size := switchSize size, page := switchPage size, plane := p, pa, partner := second, lost := false, freeing := none },
    rfl, rfl, hdup, rfl, fun u hu hc => ?_, rfl⟩
  exact placeIn_clear hbase (u.base, u.size) (List.mem_map.mpr ⟨u, List.mem_filter.mpr ⟨hu, beq_iff_eq.mpr hc⟩, rfl⟩)

theorem salloc_quota {s : State} {c : Nat} {dup : Bool} {size : Nat} {pl : Word}
    (h : s.tenantBytes (s.ctx c).tenant + (if dup then 2 * switchSize size else switchSize size) > s.quota (s.ctx c).tenant) :
    s.salloc c dup size pl = (1, s) := if_pos h

/-- An allocation that is made answers its address, and its bytes are clean on each of its planes. -/
theorem salloc_made {s : State} {c : Nat} {dup : Bool} {size : Nat} {pl : Word} {a : Alloc}
    (h : (s.salloc c dup size pl).2.fabric.allocs = s.fabric.allocs ++ [a]) :
    (s.salloc c dup size pl).1 = BitVec.ofNat 64 a.base ∧ a.ctx = c ∧ a.size = switchSize size ∧ a.partner.isSome = dup ∧ a.lost = false ∧
    ∀ q ∈ a.plane :: a.partner.toList, ∀ k < a.size, (s.salloc c dup size pl).2.mem.Clean (switchKey q (a.pa + k)) := by
  rcases salloc_cases s c dup size pl with hs | ⟨b, hctx, hsize, hdup, hlost, -, hr⟩
  · rw [hs] at h
    simpa using congrArg List.length h
  · rw [hr] at h ⊢
    obtain rfl : b = a := by simpa [State.allocated] using h
    exact ⟨rfl, hctx, hsize, hdup, hlost, fun q hq k hk => Memory.clean_zeroPlanes _ _ hq hk _⟩

theorem salloc_apart {s : State} (c : Nat) (dup : Bool) {size : Nat} (pl : Word) (hsize : 0 < size) (h : s.allocsApart) :
    (s.salloc c dup size pl).2.allocsApart := by
  rcases salloc_cases s c dup size pl with hs | ⟨a, rfl, hn, -, -, hclear, hr⟩
  · rwa [hs]
  · obtain ⟨hpos, hpair⟩ := h
    rw [hr]
    refine ⟨fun x hx => ?_, List.pairwise_append.mpr ⟨hpair, List.pairwise_singleton .., fun x hx y hy hc => ?_⟩⟩
    · rcases List.mem_append.mp hx with hx | hx
      · exact hpos x hx
      · rw [List.mem_singleton.mp hx, hn]; exact switchSize_pos hsize
    · obtain rfl := List.mem_singleton.mp hy
      exact (hclear x hx hc).symm

/-! ## SFREE (R324) -/

/-- An allocation is the only one of its context at its address. -/
theorem allocsApart_unique {s : State} (h : s.allocsApart) {a x : Alloc} (ha : a ∈ s.fabric.allocs) (hx : x ∈ s.fabric.allocs)
    (hc : x.ctx = a.ctx) {va : Nat} (hax : a.base ≤ va ∧ va < a.base + a.size) (hxx : x.base ≤ va ∧ va < x.base + x.size) : x = a := by
  obtain ⟨-, hpair⟩ := h
  rw [List.pairwise_iff_getElem] at hpair
  obtain ⟨i, hi, rfl⟩ := List.mem_iff_getElem.mp ha
  obtain ⟨j, hj, rfl⟩ := List.mem_iff_getElem.mp hx
  rcases Nat.lt_trichotomy i j with hij | rfl | hij
  · have := hpair i j hi hj hij hc.symm; omega
  · rfl
  · have := hpair j i hj hi hij hc; omega

/-- An allocation is the only one of its context with its base. -/
theorem allocsApart_base {s : State} (h : s.allocsApart) {a x : Alloc} (ha : a ∈ s.fabric.allocs) (hx : x ∈ s.fabric.allocs)
    (hc : x.ctx = a.ctx) (hb : x.base = a.base) : x = a := by
  have hapos := h.1 a ha
  have hxpos := h.1 x hx
  exact allocsApart_unique h ha hx hc (va := a.base) (by omega) (by omega)

theorem sfree_none {s : State} {c base : Nat} (h : ∀ a ∈ s.fabric.allocs, ¬ (a.ctx = c ∧ a.base = base)) : s.sfree c base = (5, s) := by
  have hfind : s.fabric.allocs.find? (fun a => a.ctx == c && a.base == base) = none :=
    List.find?_eq_none.mpr fun a ha => by simpa using h a ha
  simp only [State.sfree, hfind]

/-- Where a context has an allocation at an address, a free of it leaves the others, and no remembered translation of it. -/
theorem sfree_some {s : State} {a : Alloc} (h : s.allocsApart) (ha : a ∈ s.fabric.allocs) :
    s.sfree a.ctx a.base = (0, { s with
      fabric := { s.fabric with allocs := s.fabric.allocs.filter fun x => x != a }
      mem := { s.mem with tlb := s.mem.tlb.filter fun t => !(t.ctx == a.ctx && t.base < a.base + a.size && a.base < t.base + t.size) } }) := by
  have hiff : ∀ x ∈ s.fabric.allocs, (x.ctx == a.ctx && x.base == a.base) = (x == a) := fun x hx => by
    rw [Bool.eq_iff_iff, Bool.and_eq_true, beq_iff_eq, beq_iff_eq, beq_iff_eq]
    exact ⟨fun ⟨hc, hb⟩ => allocsApart_base h ha hx hc hb, fun e => e ▸ ⟨rfl, rfl⟩⟩
  have hfind : s.fabric.allocs.find? (fun x => x.ctx == a.ctx && x.base == a.base) = some a := by
    cases hf : s.fabric.allocs.find? (fun x => x.ctx == a.ctx && x.base == a.base) with
    | none => exact absurd (List.find?_eq_none.mp hf a ha) (by simp)
    | some x => rw [beq_iff_eq.mp ((hiff x (List.mem_of_find?_eq_some hf)).symm.trans (List.find?_some hf :))]
  have hfilter : s.fabric.allocs.filter (fun x => !(x.ctx == a.ctx && x.base == a.base)) = s.fabric.allocs.filter fun x => x != a :=
    List.filter_congr fun x hx => by rw [hiff x hx]; rfl
  simp only [State.sfree, hfind, hfilter]

/-- After a free no address of the allocation translates. -/
theorem sfree_walk {s : State} {a : Alloc} (h : s.allocsApart) (ha : a ∈ s.fabric.allocs) {va : Nat} (hva : va < 2 ^ 57)
    (hwin : (s.ctx a.ctx).inWindow va = true) (hlo : a.base ≤ va) (hhi : va < a.base + a.size) :
    (s.sfree a.ctx a.base).2.walk a.ctx va = .error .invalid := by
  have halloc : (s.fabric.allocs.filter fun x => x != a).find? (fun x => x.ctx == a.ctx && x.freeing.isNone && x.base ≤ va && va < x.base + x.size) =
      none := by
    refine List.find?_eq_none.mpr fun x hx hin => ?_
    obtain ⟨hx, hne⟩ := List.mem_filter.mp hx
    simp only [Bool.and_eq_true, beq_iff_eq, decide_eq_true_eq] at hin
    obtain ⟨⟨⟨hc, -⟩, hxlo⟩, hxhi⟩ := hin
    exact bne_iff_ne.mp hne (allocsApart_unique h ha hx hc ⟨hlo, hhi⟩ ⟨hxlo, hxhi⟩)
  have htlb : (s.mem.tlb.filter fun t => !(t.ctx == a.ctx && t.base < a.base + a.size && a.base < t.base + t.size)).find?
      (fun t => t.ctx == a.ctx && t.base ≤ va && va < t.base + t.size) = none := by
    refine List.find?_eq_none.mpr fun t ht hin => ?_
    have hout := (List.mem_filter.mp ht).2
    simp only [Bool.and_eq_true, beq_iff_eq, decide_eq_true_eq] at hin
    obtain ⟨⟨hc, htlo⟩, hthi⟩ := hin
    simp only [hc, beq_self_eq_true, Bool.true_and, Bool.not_eq_true', Bool.and_eq_false_iff, decide_eq_false_iff_not] at hout
    omega
  rw [sfree_some h ha]
  have hwin' := hwin
  unfold State.ctx at hwin'
  simp only [State.walk, State.walkNow, State.ctx, ge_iff_le, Nat.not_le.mpr hva, hwin', halloc, htlb, if_true, if_false]

theorem sfree_apart {s : State} (c base : Nat) (h : s.allocsApart) : (s.sfree c base).2.allocsApart := by
  obtain ⟨hpos, hpair⟩ := h
  unfold State.sfree
  split
  · exact ⟨hpos, hpair⟩
  · exact ⟨fun a ha => hpos a (List.mem_filter.mp ha).1, hpair.filter _⟩

theorem reset_allocsApart : State.reset.allocsApart := ⟨fun _ ha => (List.not_mem_nil ha).elim, List.Pairwise.nil⟩

/-! ## The commands -/

theorem Keeps.salloc (s : State) (c : Nat) (dup : Bool) (size : Nat) (pl : Word) (uid : Nat) : s.Keeps (s.salloc c dup size pl).2 uid := by
  rcases salloc_cases s c dup size pl with hs | ⟨a, -, -, -, -, -, hr⟩
  · rw [hs]; exact Keeps.refl ..
  · rw [hr]; exact Keeps.same uid rfl rfl

theorem sendSalloc_keeps (dup : Bool) (d : Option Nat) : Sender.Keeps (sendSalloc dup d) := fun s b x _ _ uid =>
  Issued.keeps_ite (Keeps.refl ..) (Keeps.trans (Keeps.releaseHeld s b x .fab uid) (Keeps.salloc ..))

theorem Keeps.sfree (s : State) (c base uid : Nat) : s.Keeps (s.sfree c base).2 uid := by
  unfold State.sfree
  split
  · exact Keeps.refl ..
  · exact Keeps.same uid rfl rfl

theorem sendSfree_keeps (d : Option Nat) : Sender.Keeps (sendSfree d) := fun s b x id ws uid => by
  have hunmap : ∀ a, s.Keeps (s.unmapAlloc b x a) uid := fun a => Keeps.same uid rfl rfl
  unfold sendSfree
  simp only
  split
  · exact Keeps.refl ..
  · exact Issued.keeps_ite (Keeps.refl ..) (Issued.keeps_ite (hunmap _) (Keeps.trans (hunmap _) (Keeps.sfree ..)))

end Sys2Proof.Machine

end

section
/-! PROOFS. O42. -/

open Sys2Proof Sys2Proof.Machine

/-- Settles O42: SALLOC leaves its state, or one with an allocation more that is apart from the others (`salloc_cases`); SFREE takes
one away, and no translation of it is left (`sfree_some`, `sfree_walk`). -/
theorem switchAllocationsComplete : Obligations.SwitchAllocationsComplete := by
  refine ⟨fun g dup d a b => sends_of_cmdGang (fun {s blk l} hi hd => ?salloc) fun _ => sendSalloc_keeps _ _,
    fun g d a => sends_of_cmdGang (fun {s blk l} hi hd => ?sfree) fun _ => sendSfree_keeps _,
    fun s c dup size pl h => salloc_quota h, fun s c dup size pl a h => salloc_made h, fun s c base h => sfree_none h,
    fun s a h ha => ?free, reset_allocsApart, fun s c dup size pl hsize h => salloc_apart c dup pl hsize h,
    fun s c base h => sfree_apart c base h⟩
  case salloc =>
    change execSalloc g dup d a b s = _
    simp only [execSalloc, State.perGang, hi, hd]
  case sfree =>
    change execSfree g d a s = _
    simp only [execSfree, State.perGang, hi, hd, Bool.false_eq_true, if_false]
  case free =>
    refine ⟨?_, ?_, fun va hva hwin hlo hhi => sfree_walk h ha hva hwin hlo hhi⟩ <;> rw [sfree_some h ha]

end

section
/-! PROOFS. Links and losses (R326, R348 to R355): what is sent and what is lost keep of the fabric, and what a flit, a key and a loss
leave of a port. -/

namespace Sys2Proof.Machine

/-! ## What sending and losing keep of the fabric -/

def State.port (s : State) (n : Nat) : Port := s.fabric.ports.getD n .reset

/-- A port whose link is as it was, with what it has accepted and refused. -/
def Port.sameLink (p q : Port) : Prop := q.up = p.up ∧ q.dead = p.dead ∧ q.expect = p.expect ∧ q.refusals = p.refusals

/-- From s to t the module keeps its number and its epochs, what it knows of losses stays known, no message that has left is taken back,
and every port keeps its link. -/
structure State.Spreads (s t : State) : Prop where
  devno : t.fabric.devno = s.fabric.devno
  epochs : t.fabric.epochs = s.fabric.epochs
  peers : s.fabric.lostPeers ⊆ t.fabric.lostPeers
  notices : s.fabric.notices ⊆ t.fabric.notices
  planes : s.fabric.lostPlanes ⊆ t.fabric.lostPlanes
  outbox : s.fabric.outbox ⊆ t.fabric.outbox
  links : ∀ n, (s.port n).sameLink (t.port n)

namespace State.Spreads

theorem refl (s : State) : s.Spreads s :=
  ⟨rfl, rfl, List.Subset.refl _, List.Subset.refl _, List.Subset.refl _, List.Subset.refl _, fun _ => ⟨rfl, rfl, rfl, rfl⟩⟩

theorem trans {s t u : State} (h : s.Spreads t) (k : t.Spreads u) : s.Spreads u where
  devno := k.devno.trans h.devno
  epochs := k.epochs.trans h.epochs
  peers := List.Subset.trans h.peers k.peers
  notices := List.Subset.trans h.notices k.notices
  planes := List.Subset.trans h.planes k.planes
  outbox := List.Subset.trans h.outbox k.outbox
  links n := by
    obtain ⟨hup, hdead, hexp, href⟩ := h.links n
    obtain ⟨kup, kdead, kexp, kref⟩ := k.links n
    exact ⟨kup.trans hup, kdead.trans hdead, kexp.trans hexp, kref.trans href⟩

theorem foldl {α : Type} {f : State → α → State} (hf : ∀ (s : State) x, s.Spreads (f s x)) (l : List α) (s : State) :
    s.Spreads (l.foldl f s) :=
  List.foldlRecOn (motive := s.Spreads) l f (refl s) fun _ ht x _ => trans ht (hf _ x)

theorem ite {s t u : State} {c : Prop} [Decidable c] (ht : s.Spreads t) (hu : s.Spreads u) : s.Spreads (if c then t else u) := by
  split
  exacts [ht, hu]

/-- A change that leaves the ports, the losses and what has left as they are. -/
theorem same {s t : State} (hd : t.fabric.devno = s.fabric.devno) (he : t.fabric.epochs = s.fabric.epochs)
    (hp : t.fabric.lostPeers = s.fabric.lostPeers) (hn : t.fabric.notices = s.fabric.notices)
    (hl : t.fabric.lostPlanes = s.fabric.lostPlanes) (ho : t.fabric.outbox = s.fabric.outbox) (hq : t.fabric.ports = s.fabric.ports) :
    s.Spreads t :=
  ⟨hd, he, by rw [hp]; exact List.Subset.refl _, by rw [hn]; exact List.Subset.refl _, by rw [hl]; exact List.Subset.refl _,
    by rw [ho]; exact List.Subset.refl _, fun n => by rw [State.port, State.port, hq]; exact ⟨rfl, rfl, rfl, rfl⟩⟩

theorem put (s : State) (x : Post) : s.Spreads (s.put x) :=
  { refl s with outbox := List.subset_append_left .. }

end State.Spreads

theorem State.port_modPort (s : State) (n m : Nat) (f : Port → Port) :
    (s.modPort m f).port n = if m = n ∧ n < s.fabric.ports.length then f (s.port n) else s.port n := by
  simp only [State.port, State.modPort, List.getD_eq_getElem?_getD, List.getElem?_modify]
  by_cases h : n < s.fabric.ports.length
  · by_cases hm : m = n <;> simp [h, hm]
  · simp [h]

theorem State.port_modPort_same {s : State} {n : Nat} (h : n < s.fabric.ports.length) (f : Port → Port) :
    (s.modPort n f).port n = f (s.port n) := by rw [State.port_modPort, if_pos ⟨rfl, h⟩]

namespace State.Spreads

/-- A change of a port that keeps its link. -/
theorem modPort (s : State) (m : Nat) (f : Port → Port) (hf : (s.port m).sameLink (f (s.port m))) : s.Spreads (s.modPort m f) :=
  { refl s with
    links := fun n => by
      rw [State.port_modPort]
      split
      · next h => exact h.1 ▸ hf
      · exact ⟨rfl, rfl, rfl, rfl⟩ }

theorem sendFlit (s : State) (p : Nat) (slot : Bool) (kind vc : Nat) (text : List Byte) : s.Spreads (s.sendFlit p slot kind vc text) := by
  unfold State.sendFlit
  refine ite (refl s) (ite (modPort _ _ _ ⟨rfl, rfl, rfl, rfl⟩) (trans (modPort s p _ ?_) (put ..)))
  exact ⟨rfl, rfl, rfl, rfl⟩

theorem sendNow (s : State) (p kind vc : Nat) (text : List Byte) : s.Spreads (s.sendNow p kind vc text) := by
  unfold State.sendNow
  split
  exacts [sendFlit .., refl s]

theorem carry (s : State) (p vc : Nat) : s.Spreads (s.carry p vc) :=
  trans (t := s.stepTag) (same rfl rfl rfl rfl rfl rfl rfl) (foldl (fun _ _ => sendNow ..) _ _)

theorem resend (s : State) (p : Nat) : s.Spreads (s.resend p) := by
  refine foldl (fun t x => ?_) _ s
  simp only
  have hnote : t.Spreads { t with fabric := { t.fabric with inFlight := t.fabric.inFlight.map fun (z : InFlight) =>
      if z.tag == x.tag then { z with post := { x.post with port := t.planeFor x.post.dst x.post.page }, again := true } else z } } :=
    same rfl rfl rfl rfl rfl rfl rfl
  split
  · exact trans hnote (trans (put ..) (carry ..))
  · exact trans hnote (put ..)

theorem contextFault (s : State) (c : Nat) (r : FaultRec) : s.Spreads (s.contextFault c r) := same rfl rfl rfl rfl rfl rfl rfl

theorem endOutstanding (s : State) (code : Nat) : s.Spreads (s.endOutstanding code) := by
  refine foldl (fun t c => ite ?_ (refl t)) _ s
  split
  · exact ite (contextFault ..) (refl t)
  · exact refl t

theorem losePlane (s : State) (k : Nat) : s.Spreads (s.losePlane k) := by
  refine ite (refl s) (trans ?_ (endOutstanding ..))
  exact { refl s with planes := List.subset_cons_self .. }

theorem settlePlanes (s : State) : s.Spreads s.settlePlanes := foldl (fun _ _ => ite (losePlane ..) (refl _)) _ s

theorem flood (s : State) (d e : Nat) : s.Spreads (s.flood d e) := by
  refine ite (refl s) (trans ?_ (foldl (fun _ _ => trans (put ..) (carry ..)) _ _))
  exact { refl s with notices := List.subset_cons_self .. }

end State.Spreads

/-- A notice that is new is kept. -/
theorem mem_notices_flood (s : State) (d e : Nat) : (d, e) ∈ (s.flood d e).fabric.notices := by
  unfold State.flood
  split
  · next h => exact List.contains_iff_mem.mp h
  · exact (State.Spreads.foldl (fun _ _ => State.Spreads.trans (.put ..) (.carry ..)) _ _).notices (List.mem_cons_self ..)

/-- It goes out on every live link. -/
theorem mem_outbox_flood {s : State} {d e : Nat} (h : (d, e) ∉ s.fabric.notices) {q : Nat} (hq : q ∈ s.livePorts) :
    ({ port := some q, dst := 0, page := none, msg := .notice d e } : Post) ∈ (s.flood d e).fabric.outbox := by
  rw [State.flood, if_neg (by simpa using h)]
  generalize { s with fabric := { s.fabric with notices := (d, e) :: s.fabric.notices } } = t
  generalize s.livePorts = l at hq
  clear h
  induction l generalizing t with
  | nil => cases hq
  | cons p l ih =>
    rcases List.mem_cons.mp hq with rfl | hq
    · have hstep := State.Spreads.carry (t.put { port := some q, dst := 0, page := none, msg := .notice d e }) q 3
      refine (State.Spreads.foldl (fun _ _ => State.Spreads.trans (.put ..) (.carry ..)) l _).outbox (hstep.outbox ?_)
      exact List.mem_append_right _ (List.mem_singleton_self _)
    · exact ih _ hq

/-! ## Lost peers (R353 to R355) -/

/-- A peer declared lost, before anything has come of it. -/
def State.markLost (s : State) (d : Nat) : State := { s with fabric := { s.fabric with lostPeers := d :: s.fabric.lostPeers } }

namespace State.Spreads

theorem markLost (s : State) (d : Nat) : s.Spreads (s.markLost d) := { refl s with peers := List.subset_cons_self .. }

/-- The loss of a peer that is not lost yet is noted, and what comes of it spreads from there. -/
theorem losePeer_markLost {s : State} {d : Nat} (e : Nat) (hl : d ∉ s.fabric.lostPeers) (hd : d ≠ s.fabric.devno.toNat) :
    ((s.flood d e).markLost d).Spreads (s.losePeer d e) := by
  rw [State.losePeer, if_neg (by simp [hl, hd])]
  refine trans (trans (foldl (fun t c => ite ?_ (refl t)) _ _) (endOutstanding ..)) (foldl (fun _ _ => contextFault ..) _ _)
  split
  exacts [contextFault .., refl t]

theorem losePeer (s : State) (d e : Nat) : s.Spreads (s.losePeer d e) := by
  by_cases h : (s.fabric.lostPeers.contains d || decide (d = s.fabric.devno.toNat)) = true
  · rw [State.losePeer, if_pos h]; exact refl s
  · simp only [Bool.or_eq_true, decide_eq_true_eq, List.contains_iff_mem, not_or] at h
    exact trans (trans (flood ..) (markLost ..)) (losePeer_markLost e h.1 h.2)

end State.Spreads

/-- A peer that is declared lost is lost. -/
theorem mem_lostPeers_losePeer {s : State} {d : Nat} (e : Nat) (hd : d ≠ s.fabric.devno.toNat) : d ∈ (s.losePeer d e).fabric.lostPeers := by
  by_cases hl : d ∈ s.fabric.lostPeers
  · exact (State.Spreads.losePeer s d e).peers hl
  · exact (State.Spreads.losePeer_markLost e hl hd).peers (List.mem_cons_self ..)

theorem State.Spreads.epochOf {s t : State} (h : s.Spreads t) (d : Nat) : t.epochOf d = s.epochOf d := by
  rw [State.epochOf, State.epochOf, h.epochs]

/-- A death notice that is new and of no older epoch (R353). -/
theorem exec_deathNotice {s : State} {d e : Nat} (hn : (d, e) ∉ s.fabric.notices) (he : s.epochOf d ≤ e) :
    exec (.deathNotice d e) s = .next (((s.flood d e).losePeer d e).settlePlanes) := by
  change execDeathNotice d e s = _
  have hepoch : (s.flood d e).epochOf d ≤ e := by rw [(State.Spreads.flood s d e).epochOf]; exact he
  simp only [execDeathNotice, List.contains_iff_mem, hn, hepoch, if_false, if_true]

theorem deathNotice_spreads {s : State} {d e : Nat} (hn : (d, e) ∉ s.fabric.notices) (hd : d ≠ s.fabric.devno.toNat) :
    let t := ((s.flood d e).losePeer d e).settlePlanes
    d ∈ t.fabric.lostPeers ∧ (d, e) ∈ t.fabric.notices ∧
      ∀ q ∈ s.livePorts, ({ port := some q, dst := 0, page := none, msg := .notice d e } : Post) ∈ t.fabric.outbox := by
  have hflood := State.Spreads.flood s d e
  have hlose := State.Spreads.losePeer (s.flood d e) d e
  have hsettle := State.Spreads.settlePlanes ((s.flood d e).losePeer d e)
  have hrest := hlose.trans hsettle
  exact ⟨hsettle.peers (mem_lostPeers_losePeer e (by rw [hflood.devno]; exact hd)), hrest.notices (mem_notices_flood s d e),
    fun q hq => hrest.outbox (mem_outbox_flood hn hq)⟩

theorem exec_peerReadmission {s : State} {d : Nat} (e : Nat) (hd : d ∈ s.fabric.lostPeers) :
    ∃ t, exec (.peerReadmission d e) s = .next t ∧ d ∉ t.fabric.lostPeers ∧ t.epochOf d = e ∧ ∀ k, (d, k) ∉ t.fabric.linkReports := by
  refine ⟨_, congrArg Host.Outcome.next (if_pos (List.contains_iff_mem.mpr hd)), ?_, ?_, fun k => ?_⟩
  · simp [List.mem_filter]
  · simp [State.epochOf]
  · simp [List.mem_filter]

theorem mem_lostPlanes_losePlane (s : State) (k : Nat) : k ∈ (s.losePlane k).fabric.lostPlanes := by
  unfold State.losePlane
  split
  · next h => exact List.contains_iff_mem.mp h
  · exact (State.Spreads.endOutstanding _ _).planes (List.mem_cons_self ..)

/-! ## Reports of dead links (R353, R355) -/

/-- A report kept with those that there were. -/
def State.reported (s : State) (d k : Nat) : State :=
  { s with fabric := { s.fabric with linkReports := (d, k) :: s.fabric.linkReports.filter (fun x => x != (d, k)) } }

theorem mem_linkReports_reported {s : State} {d k : Nat} {x : Nat × Nat} :
    x ∈ (s.reported d k).fabric.linkReports ↔ x = (d, k) ∨ x ∈ s.fabric.linkReports := by
  by_cases h : x = (d, k) <;> simp [State.reported, List.mem_filter, h]

theorem exec_linkDeathReport (s : State) (d k : Nat) :
    exec (.linkDeathReport d k) s = .next
      (if (List.range 16).all (fun j => (s.reported d k).fabric.linkReports.contains (d, j)) then
        (s.reported d k).losePeer d ((s.reported d k).epochOf d) else s.reported d k).settlePlanes := rfl

/-- No plane is lost while some known module has a link to it. -/
theorem settlePlanes_none {s : State} (h : ∀ j, j < 16 → ∃ x ∈ s.known, (x, j) ∉ s.fabric.linkReports) : s.settlePlanes = s := by
  refine List.foldlRecOn (motive := fun t => t = s) _ _ rfl fun t ht j hj => ?_
  subst ht
  obtain ⟨x, hx, hr⟩ := h j (List.mem_range.mp hj)
  refine if_neg fun hall => hr ?_
  exact List.contains_iff_mem.mp (List.all_eq_true.mp hall x hx)

/-! ## Flits (R348, R349) -/

theorem Port.sameLink_drained (p : Port) : p.sameLink p.drained := by
  unfold Port.drained
  simp only
  split <;> split <;> exact ⟨rfl, rfl, rfl, rfl⟩

namespace State.Spreads

theorem replayFlits (s : State) (p : Nat) (l : List Kept) : s.Spreads (s.replayFlits p l) :=
  foldl (fun t _ => trans (modPort t p _ ⟨rfl, rfl, rfl, rfl⟩) (put ..)) l s

theorem sendWaiting (s : State) (p : Nat) : s.Spreads (s.sendWaiting p) :=
  trans (modPort s p _ ⟨rfl, rfl, rfl, rfl⟩) (foldl (fun _ _ => sendNow ..) _ _)

end State.Spreads

/-- A port after a flit that it accepts, before it sends anything. -/
def Port.accepted (p : Port) (f : Flit) : Port :=
  ({ p.slotsAfter f with
      expect := p.expect + 1, refusals := p.refusals.filter (fun x => x.1 != f.seq), unacked := ackTo f.ack p.unacked } : Port).drained

theorem acceptFlit_spreads (s : State) (n : Nat) (f : Flit) : (s.modPort n fun p => p.accepted f).Spreads (s.acceptFlit n f) :=
  State.Spreads.trans (State.Spreads.ite (.replayFlits ..) (.refl _)) (.sendWaiting ..)

/-- An accepted flit is counted, and no refusal of it is kept. -/
theorem acceptFlit_port {s : State} {n : Nat} (hn : n < s.fabric.ports.length) (f : Flit) :
    ((s.acceptFlit n f).port n).expect = (s.port n).expect + 1 ∧ ∀ x ∈ ((s.acceptFlit n f).port n).refusals, x.1 ≠ f.seq := by
  obtain ⟨-, -, hexp, href⟩ := (acceptFlit_spreads s n f).links n
  rw [State.port_modPort_same hn] at hexp href
  obtain ⟨-, -, kexp, kref⟩ := Port.sameLink_drained ({ (s.port n).slotsAfter f with
    expect := (s.port n).expect + 1, refusals := (s.port n).refusals.filter (fun x => x.1 != f.seq), unacked := ackTo f.ack (s.port n).unacked })
  refine ⟨hexp.trans kexp, fun x hx => ?_⟩
  rw [href.trans kref] at hx
  exact bne_iff_ne.mp (List.mem_filter.mp hx).2

theorem exec_flitReceive_accept {s : State} {n : Nat} {f : Flit} (hup : (s.port n).up = true) (hp : (s.port n).passes f = true)
    (hseq : f.seq = (s.port n).expect) : exec (.flitReceive n f) s = .next (s.acceptFlit n f) := by
  change execFlitReceive n f s = _
  unfold State.port at hup hp hseq
  simp only [execFlitReceive, hup, hp, hseq, beq_self_eq_true, Bool.not_true, Bool.and_self, Bool.false_eq_true, if_false, if_true]

theorem exec_flitReceive_refuse {s : State} {n : Nat} {f : Flit} (hup : (s.port n).up = true)
    (hp : (s.port n).passes f = false ∨ f.seq ≠ (s.port n).expect) : exec (.flitReceive n f) s = .next (s.refuseFlit n f.seq) := by
  change execFlitReceive n f s = _
  have hno : ((s.port n).passes f && f.seq == (s.port n).expect) = false := by
    rcases hp with hp | hp
    · rw [hp, Bool.false_and]
    · rw [beq_eq_false_iff_ne.mpr hp, Bool.and_false]
  unfold State.port at hup hno
  simp only [execFlitReceive, hup, hno, Bool.not_true, Bool.false_eq_true, if_false]

/-- A flit refused for less than the eighth time is one refusal nearer to it. -/
theorem refuseFlit_refused {s : State} {n : Nat} {q : BitVec 12} (hn : n < s.fabric.ports.length) (h : (s.port n).refused q < 8) :
    ((s.refuseFlit n q).port n).refused q = (s.port n).refused q + 1 := by
  have hsent : s.refuseFlit n q = (s.modPort n fun p =>
    { p with nak := true, refusals := (q, (s.port n).refused q) :: p.refusals.filter fun x => x.1 != q }).sendNow n 5 3 [] :=
    if_neg (Nat.not_le.mpr h)
  rw [hsent]
  obtain ⟨-, -, -, href⟩ := (State.Spreads.sendNow (s.modPort n fun p =>
    { p with nak := true, refusals := (q, (s.port n).refused q) :: p.refusals.filter fun x => x.1 != q }) n 5 3 []).links n
  rw [State.port_modPort_same hn] at href
  rw [Port.refused]
  change (match ((State.sendNow _ n 5 3 []).port n).refusals.find? _ with | some x => x.2 | none => 0) + 1 = _
  rw [href]
  simp

/-- A link that dies is down until it is retrained. -/
theorem linkDies_port {s : State} {n : Nat} (hn : n < s.fabric.ports.length) (hup : (s.port n).up = true) :
    ((s.linkDies n).port n).up = false ∧ ((s.linkDies n).port n).dead = true := by
  have hdies : s.linkDies n = ((s.modPort n fun x => { x with up := false, dead := true }).resend n).endOutstanding 0x09 := if_pos hup
  rw [hdies]
  obtain ⟨kup, kdead, -, -⟩ := (State.Spreads.trans (.resend (s.modPort n fun x => { x with up := false, dead := true }) n)
    (.endOutstanding _ 0x09)).links n
  rw [State.port_modPort_same hn] at kup kdead
  exact ⟨kup, kdead⟩

/-! ## Key slots (R350) -/

theorem exec_keyInstall {s : State} {n : Nat} {tx slot : Bool} {key : List Byte} {salt : BitVec 32} {limit : Nat} (hroot : s.rootOn = true)
    (hkey : key.length = 32) (hlim : limit ≤ 2 ^ 36)
    (hst : (if tx then (s.port n).txSlot slot else (s.port n).rxSlot slot).st = .empty) :
    exec (.keyInstall n tx slot key salt limit) s = .next (s.modPort n fun p =>
      let new : KeySlot := { st := .ready, key, salt, limit, ctr := 0, marker := none }
      if tx then p.setTx slot new else p.setRx slot new) := by
  change execKeyInstall n tx slot key salt limit s = _
  unfold State.port at hst
  simp only [execKeyInstall, hroot, hst, hkey, gt_iff_lt, Nat.not_lt.mpr hlim, bne_self_eq_false, Bool.not_true, ne_eq, not_true_eq_false,
    decide_false, Bool.or_self, Bool.false_eq_true, if_false]

theorem exec_linkTrainingComplete {s : State} {n : Nat} {t r : List KeySlot} (hup : (s.port n).up = false)
    (ht : activate (s.port n).dead (s.port n).tx = some t) (hr : activate (s.port n).dead (s.port n).rx = some r) :
    exec (.linkTrainingComplete n) s = .next (s.modPort n fun _ => { Port.reset with up := true, tx := t, rx := r }).repost := by
  change execLinkTrainingComplete n s = _
  unfold State.port at hup ht hr
  simp only [execLinkTrainingComplete, hup, ht, hr, Bool.false_eq_true, if_false]

/-- A link that has died finds no slot to take up while one of the two is not ready. -/
theorem activate_dead {l : List KeySlot} (h : ∃ k ∈ l.take 2, k.st ≠ .ready) : activate true l = none := by
  have hnot : ((l.getD 0 .reset).st == .ready && (l.getD 1 .reset).st == .ready) = false := by
    rw [← Bool.not_eq_true, Bool.and_eq_true, beq_iff_eq, beq_iff_eq]
    rintro ⟨h0, h1⟩
    rcases l with _ | ⟨a, _ | ⟨b, l⟩⟩
    · cases h0
    · cases h1
    · obtain ⟨k, hk, hst⟩ := h
      rcases List.mem_cons.mp hk with rfl | hk
      · exact hst h0
      · exact hst (List.mem_singleton.mp hk ▸ h1)
  simp only [activate, hnot, Bool.not_false, Bool.and_self, Bool.or_true, if_true]

theorem exec_linkTrainingComplete_dead {s : State} {n : Nat} (hdead : (s.port n).dead = true)
    (h : ∃ k ∈ (s.port n).tx.take 2, k.st ≠ .ready) : exec (.linkTrainingComplete n) s = .next s := by
  have hnone : activate (s.port n).dead (s.port n).tx = none := hdead ▸ activate_dead h
  change execLinkTrainingComplete n s = _
  unfold State.port at hnone
  simp only [execLinkTrainingComplete, hnone]

/-- The slot in use has reached its limit: the other takes over, unless the flits kept for replay leave no room. -/
theorem exec_keySwitchover {s : State} {n : Nat} {b : Bool} (hup : (s.port n).up = true) (hb : activeOf (s.port n).tx = some b)
    (hlim : ((s.port n).txSlot b).limit ≤ ((s.port n).txSlot b).ctr) :
    (((s.port n).txSlot (!b)).st = .ready → (s.port n).unacked.length < 512 →
      exec (.keySwitchover n) s = .next (s.switchSlot n b)) ∧
    (((s.port n).txSlot (!b)).st ≠ .ready → exec (.keySwitchover n) s = .next (s.linkDies n)) := by
  have hexec : exec (.keySwitchover n) s = .next (if ((s.port n).txSlot (!b)).st != .ready then s.linkDies n
      else if (s.port n).unacked.length ≥ 512 then s else s.switchSlot n b) := by
    change execKeySwitchover n s = _
    unfold State.port at hup hb hlim
    simp only [execKeySwitchover, hup, hb, Nat.not_lt.mpr hlim, Bool.not_true, decide_false, Bool.or_self, Bool.false_eq_true, if_false]
    rfl
  constructor
  · intro hready hroom
    rw [hexec, hready, if_neg (by decide), if_neg (Nat.not_le.mpr hroom)]
  · intro hready
    rw [hexec, if_pos (bne_iff_ne.mpr hready)]

theorem exec_drainingSlotLimit {s : State} {n : Nat} (h : ∃ k ∈ (s.port n).tx, k.st = .draining ∧ k.limit + 2 ^ 16 < k.ctr) :
    exec (.drainingSlotLimit n) s = .next (s.linkDies n) := by
  obtain ⟨k, hk, hst, hctr⟩ := h
  refine congrArg Host.Outcome.next (if_pos (List.any_eq_true.mpr ⟨k, hk, ?_⟩))
  simp only [hst, beq_self_eq_true, Bool.true_and, decide_eq_true_eq]
  exact hctr

end Sys2Proof.Machine

end

section
/-! PROOFS. O55. -/

open Sys2Proof Sys2Proof.Machine

/-- Settles O55: what a port sends, and what a loss ends, keeps each port's link and forgets no loss and no message (`State.Spreads`), so
that a flit, a dead link and a notice leave what they set. -/
theorem linksAndLossesComplete : Obligations.LinksAndLossesComplete := by
  refine ⟨fun s n hn => ⟨fun f hup hp hseq => ⟨exec_flitReceive_accept hup hp hseq, acceptFlit_port hn f⟩,
      fun f hup hp => ⟨exec_flitReceive_refuse hup hp, fun h => if_pos h, fun h => refuseFlit_refused hn h⟩,
      fun hup => linkDies_port hn hup, rfl, rfl, fun tx slot key salt limit hroot hkey hlim hst => exec_keyInstall hroot hkey hlim hst,
      fun t r hup ht hr => exec_linkTrainingComplete hup ht hr, fun hdead h => exec_linkTrainingComplete_dead hdead h,
      fun b hup hb hlim => exec_keySwitchover hup hb hlim, fun h => exec_drainingSlotLimit h⟩,
    fun s d e hn he hl hd => ⟨_, exec_deathNotice hn he, deathNotice_spreads hn hd⟩,
    fun s d e hn => congrArg Host.Outcome.next (if_pos (List.contains_iff_mem.mpr hn)),
    fun s d e hd => exec_peerReadmission e hd, fun s k => ⟨rfl, mem_lostPlanes_losePlane s k⟩,
    fun s d k hlink hplanes => ?alive, fun s d k hall hl hd => ?dead⟩
  case alive =>
    have hmore : ¬ (List.range 16).all (fun j => (s.reported d k).fabric.linkReports.contains (d, j)) = true := by
      obtain ⟨j, hj, hjk, hr⟩ := hlink
      refine fun h => hr ?_
      have := List.contains_iff_mem.mp (List.all_eq_true.mp h j (List.mem_range.mpr hj))
      exact (mem_linkReports_reported.mp this).resolve_left fun e => hjk (congrArg Prod.snd e)
    rw [exec_linkDeathReport, if_neg hmore, settlePlanes_none fun j hj => ?_]
    · rfl
    · obtain ⟨x, hx, hne, hr⟩ := hplanes j hj
      refine ⟨x, hx, fun h => hr ((mem_linkReports_reported.mp h).resolve_left fun e => ?_)⟩
      cases e
      exact hne.elim (fun h => h rfl) fun h => h rfl
  case dead =>
    have hlast : (List.range 16).all (fun j => (s.reported d k).fabric.linkReports.contains (d, j)) = true :=
      List.all_eq_true.mpr fun j hj => List.contains_iff_mem.mpr <| mem_linkReports_reported.mpr <|
        (hall j (List.mem_range.mp hj)).imp (fun h => by rw [h]) id
    refine ⟨_, exec_linkDeathReport s d k, ?_⟩
    rw [if_pos hlast]
    exact (State.Spreads.settlePlanes _).peers (mem_lostPeers_losePeer _ hd)

end

section
/-! PROOFS. Boot, service images, attestation, power, the clock and the root mailbox (R325, R398 to R403). -/

namespace Sys2Proof.Machine

/-! ## Boot (R398) -/

namespace Firmware

/-- The service firmware starts where its image passes, and is refused elsewhere; either way it is measured. -/
theorem startService_spec (f : Firmware) (i : Image) :
    (f.startService i).svcMeas = Config.sha256 i.body ∧
    (f.startService i).bootst = (if Image.passes i f.rollSvc then 0x600D else 0x5EF0) ∧
    (f.startService i).rollRoot = f.rollRoot ∧ (f.startService i).rollSvc = f.rollSvc ∧ (f.startService i).leaf = f.leaf := by
  unfold startService
  simp only
  split <;> exact ⟨rfl, rfl, rfl, rfl, rfl⟩

theorem boot_spec (f : Firmware) :
    f.boot.bootst = (if Image.passes Config.flashRoot f.rollRoot then
      (if Image.passes Config.flashService f.rollSvc then 0x600D else 0x5EF0) else 0xBAD0) ∧
    f.boot.rollRoot = f.rollRoot ∧ f.boot.rollSvc = f.rollSvc ∧ f.boot.leaf = f.leaf := by
  unfold boot
  simp only
  split
  · obtain ⟨-, hst, hroot, hsvc, hleaf⟩ := startService_spec
      { f with rootMeas := Config.sha256 Config.flashRoot.body, security := Config.flashRoot.security } Config.flashService
    exact ⟨hst, hroot, hsvc, hleaf⟩
  · exact ⟨rfl, rfl, rfl, rfl⟩

end Firmware

theorem exec_moduleReset (s : State) : ∃ t, exec .moduleReset s = .next t ∧ t.blocks = [] ∧ t.launches = [] ∧
    t.fabric = State.reset.fabric ∧ t.ctxs = State.reset.ctxs ∧ t.fw.rollRoot = s.fw.rollRoot ∧ t.fw.rollSvc = s.fw.rollSvc ∧
    t.fw.leaf = s.fw.leaf ∧
    (t.fw.bootst = 0xBAD0 ↔ Image.passes Config.flashRoot s.fw.rollRoot = false) ∧
    (t.fw.bootst = 0x600D ↔ Image.passes Config.flashRoot s.fw.rollRoot = true ∧ Image.passes Config.flashService s.fw.rollSvc = true) := by
  obtain ⟨hst, hroot, hsvc, hleaf⟩ := (s.afterReset s.fw.leaf).fw.boot_spec
  refine ⟨_, rfl, rfl, rfl, rfl, rfl, hroot, hsvc, hleaf, ?_⟩
  change (Firmware.boot _).bootst = (if Image.passes Config.flashRoot s.fw.rollRoot then
    (if Image.passes Config.flashService s.fw.rollSvc then 0x600D else 0x5EF0) else 0xBAD0) at hst
  simp only [hst]
  cases Image.passes Config.flashRoot s.fw.rollRoot <;> cases Image.passes Config.flashService s.fw.rollSvc <;> decide

theorem exec_serviceImageDelivery {s : State} (i : Image) (h : s.fw.bootst = 0x5EF0) :
    ∃ t, exec (.serviceImageDelivery i) s = .next t ∧ t.fw.svcMeas = Config.sha256 i.body ∧
      (t.fw.bootst = 0x600D ↔ Image.passes i s.fw.rollSvc = true) ∧ (Image.passes i s.fw.rollSvc = false → t.fw.bootst = 0x5EF0) := by
  obtain ⟨hmeas, hst, -, -, -⟩ := s.fw.startService_spec i
  refine ⟨_, congrArg Host.Outcome.next (if_pos h), hmeas, ?_⟩
  simp only [hst]
  cases Image.passes i s.fw.rollSvc <;> decide

/-! ## Attestation, power and the clock (R400, R403) -/

theorem exec_attestationRequest {s : State} {nonce : List Byte} (hroot : s.rootOn = true) (hlen : nonce.length = 32) :
    ∃ t r, exec (.attestationRequest nonce) s = .next t ∧
      t.fw.reports = s.fw.reports ++ [r] ∧ r.nonce = nonce ∧ r.rootMeas = s.fw.rootMeas ∧ r.svcMeas = s.fw.svcMeas ∧
      (s.fw.leaf < 2 ^ 20 → t.fw.leaf = s.fw.leaf + 1 ∧ r.signature = Config.lmsSign s.fw.leaf r.text) ∧
      (2 ^ 20 ≤ s.fw.leaf → t.fw.leaf = s.fw.leaf ∧ r.status = .exhausted ∧ r.signature = []) := by
  have hgo : ¬ (!s.rootOn || decide (nonce.length ≠ 32)) = true := by simp [hroot, hlen]
  refine ⟨_, _, congrArg Host.Outcome.next (if_neg hgo), rfl, ?_⟩
  by_cases hleaf : 1048576 ≤ s.fw.leaf
  · simp [hleaf, Nat.not_lt.mpr hleaf]
  · simp [hleaf]
    exact fun _ => rfl

theorem exec_clockThrottle {s : State} (w : Nat) (h : s.fw.bootst = 0x600D) : ∃ t, exec (.clockThrottle w) s = .next t ∧
    (1600 ≤ w → t.fw.clockMHz ≤ s.fw.clockMHz) ∧ (1600 ≤ w → 75 < s.fw.clockMHz → t.fw.clockMHz = s.fw.clockMHz - 75) ∧
    (w < 1600 → t.fw.clockMHz = min 2250 (s.fw.clockMHz + 75)) := by
  refine ⟨_, congrArg Host.Outcome.next (if_neg (not_not.mpr h)), ?_⟩
  simp only
  refine ⟨fun hw => ?_, fun hw hf => ?_, fun hw => ?_⟩
  · rw [if_pos hw]
    split
    exacts [Nat.sub_le .., Nat.le_refl _]
  · rw [if_pos hw, if_pos hf]
  · rw [if_neg (Nat.not_le.mpr hw)]

/-! ## Tables (R401) -/

section
variable {l w : List AccWindow} {c : Nat} {t : BitVec 3}

/-- A table for every controller replaces all that there was for the context and the target. -/
theorem putTable_all : putTable l w c t none =
    l.filter (fun x => !(x.ctx == c && x.tgt == t)) ++ w.map fun x => { x with ctx := c, tgt := t, unit := none } := by
  unfold putTable
  congr 1
  induction l with
  | nil => rfl
  | cons x l ih =>
    rw [List.flatMap_cons, ih]
    by_cases hc : x.ctx = c <;> by_cases ht : x.tgt = t <;> simp [hc, ht]

theorem mem_putTable_new {i : Option Nat} {x : AccWindow} (hx : x ∈ w) : { x with ctx := c, tgt := t, unit := i } ∈ putTable l w c t i :=
  List.mem_append_right _ (List.mem_map_of_mem (f := fun x : AccWindow => { x with ctx := c, tgt := t, unit := i }) hx)

/-- Windows of other contexts, targets and controllers stay. -/
theorem mem_putTable_other {i : Option Nat} {x : AccWindow} (hx : x ∈ l)
    (h : x.ctx ≠ c ∨ x.tgt ≠ t ∨ (x.unit ≠ none ∧ i ≠ none ∧ x.unit ≠ i)) : x ∈ putTable l w c t i := by
  refine List.mem_append_left _ (List.mem_flatMap.mpr ⟨x, hx, ?_⟩)
  split
  · exact List.mem_singleton_self _
  · next hout =>
    simp only [Bool.or_eq_true, bne_iff_ne, ne_eq, not_or, not_not] at hout
    obtain ⟨hc, ht⟩ := hout
    obtain ⟨hu, hi, hne⟩ := (h.resolve_left (not_not.mpr hc)).resolve_left (not_not.mpr ht)
    obtain ⟨u, rfl⟩ := Option.ne_none_iff_exists'.mp hi
    obtain ⟨k, hk⟩ := Option.ne_none_iff_exists'.mp hu
    have hku : k ≠ u := fun e => hne (hk.trans (congrArg some e))
    simp only [hk, if_neg hku, List.mem_singleton]

/-- The windows at the controllers that the table names are its own. -/
theorem mem_putTable_own {i : Option Nat} {x : AccWindow} (hx : x ∈ putTable l w c t i) (hc : x.ctx = c) (ht : x.tgt = t)
    (hi : x.unit = i ∨ i = none) : ∃ y ∈ w, x = { y with ctx := c, tgt := t, unit := i } := by
  rcases List.mem_append.mp hx with hx | hx
  · obtain ⟨z, -, hz⟩ := List.mem_flatMap.mp hx
    split at hz
    · next hout =>
      rw [List.mem_singleton.mp hz] at hc ht
      simp [hc, ht] at hout
    · cases i with
      | none => cases hz
      | some u =>
        have hxu : x.unit = some u := hi.resolve_right (by simp)
        cases hzu : z.unit with
        | none =>
          simp only [hzu, List.mem_map, List.mem_filter] at hz
          obtain ⟨k, ⟨-, hk⟩, rfl⟩ := hz
          cases hxu
          simp at hk
        | some k =>
          simp only [hzu] at hz
          split at hz
          · cases hz
          · next hku =>
            rw [List.mem_singleton.mp hz, hzu] at hxu
            exact absurd (Option.some.inj hxu) hku
  · obtain ⟨y, hy, rfl⟩ := List.mem_map.mp hx
    exact ⟨y, hy, rfl⟩

end

/-! ## The root mailbox (R325, R401) -/

/-- The mailbox takes commands while the root firmware runs. -/
theorem mailbox_open {s : State} (h : s.rootOn = true) : ¬ (!s.rootOn) = true := by rw [h]; decide

end Sys2Proof.Machine

end

section
/-! PROOFS. O56. -/

open Sys2Proof Sys2Proof.Machine

/-- Settles O56: what boot, an image, a report, a step of the clock and a command of the mailbox leave, each by its own lemma. -/
theorem firmwareOperationsComplete : Obligations.FirmwareOperationsComplete := by
  refine ⟨exec_moduleReset, fun s i h => exec_serviceImageDelivery i h, fun s nonce hroot hlen => exec_attestationRequest hroot hlen,
    fun s a => ⟨_, rfl, rfl, rfl, rfl, rfl⟩, fun s w h => exec_clockThrottle w h,
    fun s hroot => ?mailbox, fun s c hroot => congrArg Host.Outcome.next (if_pos (by rw [hroot]; rfl))⟩
  case mailbox =>
    have hopen := mailbox_open hroot
    refine ⟨fun t n => ⟨_, congrArg Host.Outcome.next (if_neg hopen), ?quota⟩,
      fun w c k i hw => ⟨_, congrArg Host.Outcome.next (if_neg hopen), ?table⟩,
      fun n => ⟨_, congrArg Host.Outcome.next (if_neg hopen), rfl, rfl⟩, fun p => congrArg Host.Outcome.next (if_neg hopen),
      _, congrArg Host.Outcome.next (if_neg hopen), rfl, rfl⟩
    case quota => simp [State.quota]
    case table =>
      simp only [if_neg (Nat.not_lt.mpr hw)]
      exact ⟨fun hi => by rw [hi]; exact putTable_all, fun x hx => mem_putTable_new hx, fun x hx h => mem_putTable_other hx h,
        fun x hx hc ht hi => mem_putTable_own hx hc ht hi⟩

end

section
/-! PROOFS. Launches, events, the system registers, TRAP, ERET and SLEEP (R370, R371, R377 to R379, R385, R387, R388): what each keeps
of a gang's slices and how it goes on. -/

namespace Sys2Proof.Machine

/-! ## LAUNCH and EVOP -/

theorem Keeps.appendEntry (s : State) (q : Nat) (w : Word) (o : Option (Nat × Nat)) (uid : Nat) : s.Keeps (s.appendEntry q w o).2 uid := by
  unfold State.appendEntry
  dsimp only
  split
  · exact refl ..
  · exact same uid rfl rfl

theorem sendLaunch_keeps (d : Option Nat) : Sender.Keeps (sendLaunch d) := by
  intro s b x id ws uid
  have hpub := Keeps.publishHeldOf s b x uid
  unfold sendLaunch
  dsimp only
  refine Issued.keeps_ite (Keeps.trans hpub (Keeps.same uid rfl rfl)) ?_
  have happ := Keeps.appendEntry (s.publishHeldOf b x) (ws.getD 1 0).toNat (ws.headD 0) none uid
  split
  · next h => rw [h] at happ; exact Keeps.trans hpub happ
  · next h => rw [h] at happ; exact Keeps.trans hpub happ

theorem sendEvop_keeps (set : Bool) : Sender.Keeps (sendEvop set) := by
  intro s b x id ws uid
  refine Issued.keeps_ite (Keeps.refl ..) ?_
  cases set
  · exact Keeps.same uid rfl rfl
  · exact Keeps.trans (Keeps.releaseHeld s b x .sys uid) (Keeps.same uid rfl rfl)

theorem exec_evopTest {g : Guard} {d a b : Opd} {s : State} {blk : Block} {l : List Slice} (hi : s.issuing = some (blk, l))
    (hg : s.goes (lenOf [b]) = true) (hok : ∀ x ∈ l, evopBad false (Opd.negSmall a) (svalOf (s.envOf blk x) x a) = none) :
    exec (.evopTest g d a b) s = .next (s.after blk l (lenOf [b]) fun x => x.when g fun x =>
      x.setS g d (evWord (s.ctx (s.lrOf blk).ctx).ev (svalOf (s.envOf blk x) x a).toNat &&& svalOf (s.envOf blk x) x b)) := by
  obtain ⟨-, hd, -⟩ := goes_spec hi hg
  refine congrArg Host.Outcome.next (perSlice_goes _ hi hg (fun x hx _ => ?_) fun x _ => x.keeps_setS ..)
  have hdet : (s.envOf blk x).lr.det = false := hd
  simp only [hdet, hok x hx]
  rfl

/-! ## The system registers -/

/-- A value within the limits of qlen is written there (R378). -/
theorem Slice.sysWrite_qlen {x : Slice} {w : Word} (hlow : 256 ≤ w.toNat) (hhigh : w.toNat ≤ 65536) :
    x.sysWrite .qlen w = .ok { x with qlen := w.setWidth 17 } := by
  simp [Slice.sysWrite, hlow, hhigh]

/-- An aligned address is written to trapvec (R379). -/
theorem Slice.sysWrite_trapvec {x : Slice} {w : Word} (hsize : w.toNat < 2 ^ 57) (halign : w.toNat % 8 = 0) :
    x.sysWrite .trapvec w = .ok { x with trapvec := w.setWidth 57 } := by
  simp only [Slice.sysWrite, hsize, halign, decide_true, beq_self_eq_true, Bool.and_self, if_true]

/-- SYSW goes on where every slice's value is within its register's limits. -/
theorem exec_sysw {g : Guard} {r : SysReg} {a : Opd} {s : State} {b : Block} {l : List Slice} {h : Slice → Slice}
    (hi : s.issuing = some (b, l)) (hg : s.goes (lenOf [a]) = true)
    (hok : ∀ x ∈ l, x.sysWrite r (svalOf (s.envOf b x) x a) = .ok (h x)) (hk : ∀ x ∈ l, (h x).keeps x) :
    exec (.sysw g r a) s = .next (s.after b l (lenOf [a]) fun x => x.when g h) :=
  congrArg Host.Outcome.next (perSlice_goes h hi hg (fun x hx _ => by simp only [hok x hx]) hk)

/-! ## TRAP and ERET -/

/-- Every slice that takes part raises one event: its lanes are theirs. -/
theorem firstEv_all {g : Guard} {l : List Slice} {e : Ev} (h : acting g l ≠ []) :
    firstEv g l (fun x => some (e.per x g)) = some { e with lanes := (acting g l).map fun x => (x.num, x.part_ g) } := by
  obtain ⟨y, ys, hy⟩ := List.exists_cons_of_ne_nil h
  have hits : (l.filter fun x => x.part_ g != 0).filterMap (fun x => some (e.per x g)) = (y :: ys).map fun x => e.per x g :=
    (congrArg _ hy).trans (congrFun List.filterMap_eq_map _)
  have hsame : ((y :: ys).map fun x => e.per x g).filter (fun h => h.code == (e.per y g).code && h.check == (e.per y g).check) =
      (y :: ys).map fun x => e.per x g :=
    List.filter_eq_self.mpr fun f hf => by
      obtain ⟨x, -, rfl⟩ := List.mem_map.mp hf
      simp [Ev.per, Ev.in_]
  have hlanes : ((y :: ys).map fun x => e.per x g).flatMap (fun h => h.lanes) = (y :: ys).map fun x => (x.num, x.part_ g) := by
    rw [List.flatMap_map]
    exact List.flatMap_pure_eq_map ..
  rw [hy, ← hlanes, ← hsame]
  simp only [firstEv, hits, List.map_cons]
  rfl

theorem exec_trap {g : Guard} {n : BitVec 8} {s : State} {b : Block} {l : List Slice} (hi : s.issuing = some (b, l))
    (hact : acting g l ≠ []) :
    exec (.trap g n) s = .next (s.raise { trapEv n with lanes := (acting g l).map fun x => (x.num, x.part_ g) }) := by
  change execTrap g n s = _
  simp only [execTrap, State.perGang, hi, firstEv_all hact]
  rfl

/-- ERET in a handler leaves it, where the REP is no header or still one (R387). -/
theorem exec_eret {g : Guard} {s : State} {b : Block} {l : List Slice} (hi : s.issuing = some (b, l))
    (hhandling : ∀ x ∈ l, x.handling = true)
    (hrep : ∀ x ∈ l, x.part_ g ≠ 0 → x.ck.rep.header = true → s.noHeader (s.lrOf b).ctx x.ck.rep.pc = false) :
    exec (.eret g) s = .next (s.eretDone g b l) := by
  have htrap : eretTrap s (s.lrOf b).ctx g l = none := firstEv_none fun x hx => by
    obtain ⟨hx, hpart⟩ := List.mem_filter.mp hx
    have hheader : (x.ck.rep.header && s.noHeader (s.lrOf b).ctx x.ck.rep.pc) = false := by
      cases h : x.ck.rep.header with
      | false => rfl
      | true => exact hrep x hx (bne_iff_ne.mp hpart) h
    simp only [hhandling x hx, hheader, Bool.not_true, Bool.false_eq_true, if_false]
  change execEret g s = _
  simp only [execEret, hi, htrap]

/-! ## SLEEP -/

theorem asleep_of_idle {s : State} {g : Guard} {a : Opd} {b : Block} {x : Slice} (h : x.part_ g = 0) : asleep s g a b x = x := if_pos h

/-- Falling asleep changes what a slice waits for. -/
theorem asleep_wait (s : State) (g : Guard) (a : Opd) (b : Block) (x : Slice) : ∃ w, asleep s g a b x = { x with wait := w } := by
  unfold asleep
  split
  · exact ⟨_, rfl⟩
  · split
    · exact ⟨_, rfl⟩
    · exact ⟨_, rfl⟩

theorem asleep_part (s : State) (g : Guard) (a : Opd) (b : Block) (x : Slice) : (asleep s g a b x).part_ g = x.part_ g := by
  obtain ⟨w, hw⟩ := asleep_wait s g a b x
  rw [hw]
  rfl

/-- What a slice that is not asleep yet waits for at its SLEEP. -/
theorem asleep_wakes {s : State} {g : Guard} {a : Opd} {b : Block} {x : Slice} (hp : x.part_ g ≠ 0) (hw : ∀ u, x.wait ≠ .sleep u) :
    (asleep s g a b x).wait =
      .sleep (if (svalOf (s.envOf b x) x a).toNat % 2 ^ 32 = 0 then 0 else s.cycle + (svalOf (s.envOf b x) x a).toNat % 2 ^ 32) := by
  unfold asleep
  dsimp only
  rw [if_neg hp]
  split
  · next u h => exact absurd h (hw u)
  · rfl

/-- The gang's slices, put back as h of what they were: what an instruction on registers comes to where it raises nothing. -/
theorem eachSlice_done {s : State} {g : Guard} {b : Block} {l : List Slice} (h : Slice → Slice) :
    eachSlice s g b l (fun _ x => .ok (h x)) = .done (s.modBlock b.uid fun y => y.putSlices (l.map fun x => x.when g h)) [] := by
  have hga : gather (l.map fun x => if x.part_ g = 0 then Except.ok (x, false) else
      (Except.ok (h x) : Except Ev Slice).map fun y => (y, false)) = .ok (l.map fun x => (x.when g h, false)) :=
    gather_map_ok _ _ _ fun x _ => by
      unfold Slice.when
      split
      · rfl
      · rfl
  simp only [eachSlice, eachMove, hga, List.map_map, Function.comp_def]
  rw [show (List.map (fun x => x.1.num) (List.filter (fun x => x.2) (l.map fun x => (x.when g h, false)))) = [] by
    rw [List.filter_eq_nil_iff.mpr (by simp)]; rfl]

theorem sleepTrap_none {g : Guard} {a : Opd} {l : List Slice} (hneg : Opd.negSmall a = false) : sleepTrap g a l = none :=
  firstEv_none fun x _ => by rw [hneg]; rfl

theorem sleepGang_eq {s : State} {g : Guard} {a : Opd} {b : Block} {l : List Slice} (hneg : Opd.negSmall a = false) :
    sleepGang s g a b l =
      if (l.map (asleep s g a b)).all (fun x => x.part_ g == 0 || x.wait == .sleep 0) then
        .done (s.modBlock b.uid fun y => y.putSlices (l.map (asleep s g a b))) []
      else .stall (s.modBlock b.uid fun y => y.putSlices (l.map (asleep s g a b))) := by
  simp only [sleepGang, sleepTrap_none hneg]

/-- A gang whose sleeps have all run out goes on (R388). -/
theorem exec_sleep_over {g : Guard} {a : Opd} {s : State} {b : Block} {l : List Slice} (hi : s.issuing = some (b, l))
    (hg : s.goes (lenOf [a]) = true) (hneg : Opd.negSmall a = false)
    (hover : ∀ x ∈ l, x.part_ g = 0 ∨ x.wait = .sleep 0 ∨
      (svalOf (s.envOf b x) x a).toNat % 2 ^ 32 = 0 ∧ ∀ u, x.wait ≠ .sleep u) :
    exec (.sleep g a) s = .next (s.after b l (lenOf [a]) id) := by
  obtain ⟨hw, hd, hn, -, pc, hin⟩ := goes_spec hi hg
  have hall : (l.map (asleep s g a b)).all (fun x => x.part_ g == 0 || x.wait == .sleep 0) = true := by
    rw [List.all_map, List.all_eq_true]
    intro x hx
    simp only [Function.comp_apply, asleep_part, Bool.or_eq_true, beq_iff_eq]
    by_cases hp : x.part_ g = 0
    · exact .inl hp
    · right
      rcases hover x hx with h | h | ⟨hz, hnew⟩
      · exact absurd h hp
      · unfold asleep
        simp only [if_neg hp, h]
      · rw [asleep_wakes hp hnew, if_pos hz]
  have hwhen : ∀ x : Slice, x.when g (asleep s g a b) = asleep s g a b x := fun x => by
    unfold Slice.when
    split
    · next hp => exact (asleep_of_idle hp).symm
    · rfl
  have hpass : ∀ x : Slice, (asleep s g a b x).passed (lenOf [a]) = x.passed (lenOf [a]) := fun x => by
    obtain ⟨w, hw⟩ := asleep_wait s g a b x
    rw [hw]
    rfl
  have hgo := perSlice_goes (g := g) (f := fun _ x => .ok (asleep s g a b x)) (asleep s g a b) hi hg (fun _ _ _ => rfl) fun x _ => by
    obtain ⟨w, hw⟩ := asleep_wait s g a b x
    rw [hw]
    exact ⟨rfl, rfl, rfl, rfl, rfl⟩
  simp only [State.perSlice, hi, eachSlice_done, hwhen] at hgo
  change execSleep g a s = _
  simp only [execSleep, State.perGang, hi, sleepGang_eq hneg, hall, if_true, hgo, State.after, hpass, id]

/-- A gang with a slice that has yet to sleep waits at its SLEEP (R388). -/
theorem exec_sleep_waits {g : Guard} {a : Opd} {s : State} {b : Block} {l : List Slice} (hi : s.issuing = some (b, l))
    (hg : s.goes (lenOf [a]) = true) (hneg : Opd.negSmall a = false)
    (hwaits : ∃ x ∈ l, x.part_ g ≠ 0 ∧ (∀ u, x.wait ≠ .sleep u) ∧ (svalOf (s.envOf b x) x a).toNat % 2 ^ 32 ≠ 0) :
    exec (.sleep g a) s = .next (s.modBlock b.uid fun y => y.putSlices (l.map (asleep s g a b))) := by
  obtain ⟨x, hx, hp, hnew, hcount⟩ := hwaits
  have hall : (l.map (asleep s g a b)).all (fun x => x.part_ g == 0 || x.wait == .sleep 0) = false := by
    rw [List.all_eq_false]
    refine ⟨_, List.mem_map_of_mem hx, ?_⟩
    simp only [asleep_part, asleep_wakes hp hnew, if_neg hcount, Bool.or_eq_true, beq_iff_eq, hp, Wait.sleep.injEq, false_or]
    omega
  change execSleep g a s = _
  simp only [execSleep, State.perGang, hi, sleepGang_eq hneg, hall, Bool.false_eq_true, if_false, State.complete_stall hi hg]

/-! ## A block, resident or saved -/

/-- A change that keeps the numbers of blocks: the first block of a number is the one that it was. -/
theorem find?_uid_map {l : List Block} {uid : Nat} {f : Block → Block} (hf : ∀ b, (f b).uid = b.uid) :
    (l.map fun b => if b.uid == uid then f b else b).find? (fun b => b.uid == uid) = (l.find? fun b => b.uid == uid).map f := by
  have hfun : ((fun b : Block => b.uid == uid) ∘ fun b => if b.uid == uid then f b else b) = fun b => b.uid == uid := by
    funext b
    simp only [Function.comp_apply]
    split
    · rw [hf]
    · rfl
  rw [List.find?_map, hfun]
  cases h : l.find? (fun b => b.uid == uid) with
  | none => rfl
  | some b => rw [Option.map_some, Option.map_some, if_pos (List.find?_some h :)]

/-- A change of a block, wherever it is, changes that block. -/
theorem State.block?_modBlock_map (s : State) (uid : Nat) {f : Block → Block} (hf : ∀ b, (f b).uid = b.uid) :
    (s.modBlock uid f).block? uid = (s.block? uid).map f := by
  by_cases hres : s.blocks.any (fun b => b.uid == uid) = true
  · obtain ⟨b, hb⟩ := List.find?_isSome.mpr (List.any_eq_true.mp hres) |> Option.isSome_iff_exists.mp
    simp only [State.modBlock, hres, if_true, State.block?, find?_uid_map hf, hb, Option.map_some]
  · have hnone : s.blocks.find? (fun b => b.uid == uid) = none :=
      List.find?_eq_none.mpr fun b hb h => hres (List.any_eq_true.mpr ⟨b, hb, h⟩)
    have himages : (s.modBlock uid f).images = s.images.map fun b => if b.uid == uid then f b else b := by
      simp only [State.modBlock, if_neg hres, State.images, List.flatMap_map, List.map_flatMap]
    have hblocks : (s.modBlock uid f).blocks = s.blocks := by simp only [State.modBlock, if_neg hres]
    simp only [State.block?, hblocks, hnone, himages, find?_uid_map hf]

/-- A change of a slice that keeps its number. -/
theorem Block.slice?_modSlice {b : Block} {n : Nat} {x : Slice} {f : Slice → Slice} (hx : b.slice? n = some x)
    (hf : ∀ x, (f x).num = x.num) : (b.modSlice n f).slice? n = some (f x) := by
  have hfun : ((fun x : Slice => x.num == n) ∘ fun x => if x.num == n then f x else x) = fun x => x.num == n := by
    funext y
    simp only [Function.comp_apply]
    split
    · rw [hf]
    · rfl
  have hnum : (x.num == n) = true := (List.find?_some hx :)
  simp only [Block.slice?, Block.modSlice, List.find?_map, hfun]
  rw [show b.slices.find? (fun x => x.num == n) = some x from hx, Option.map_some, if_pos hnum]

/-- A change of a slice of a block, wherever that is. -/
theorem State.slice?_modSlice {s : State} {uid n : Nat} {b : Block} {x : Slice} {f : Slice → Slice} (hb : s.block? uid = some b)
    (hx : b.slice? n = some x) (hf : ∀ x, (f x).num = x.num) :
    ∃ c, (s.modSlice uid n f).block? uid = some c ∧ c.slice? n = some (f x) :=
  ⟨b.modSlice n f, (s.block?_modBlock_map uid (f := fun b => b.modSlice n f) fun _ => rfl).trans (by rw [hb, Option.map_some]), Block.slice?_modSlice hx hf⟩

/-- A sleep that has run out (R388). -/
theorem exec_sleepExpiry {s : State} {b : Block} {x : Slice} {u : Nat} (hb : s.block? b.uid = some b) (hx : b.slice? x.num = some x)
    (hw : x.wait = .sleep u) (hu : u ≤ s.cycle) : ∃ t, exec (.sleepExpiry b.uid x.num) s = .next t ∧
      ∃ c, t.block? b.uid = some c ∧ c.slice? x.num = some { x with wait := .sleep 0 } := by
  refine ⟨_, rfl, ?_⟩
  obtain ⟨c, hc, hy⟩ := State.slice?_modSlice hb hx
    (f := fun x => match x.wait with | .sleep u => if u ≤ s.cycle then { x with wait := .sleep 0 } else x | _ => x) fun y => by
      split
      · split
        · rfl
        · rfl
      · rfl
  refine ⟨c, hc, hy.trans ?_⟩
  simp only [hw, hu, if_true]

end Sys2Proof.Machine

end

section
/-! PROOFS. O45. -/

open Sys2Proof Sys2Proof.Machine

/-- Settles O45: the commands go by their senders (`sends_of_perGang`), the instructions on registers by `perSlice_goes`; every acting
slice raises TRAP's event (`exec_trap`), ERET raises none in a handler (`exec_eret`), and a SLEEP goes on once all its waits are over. -/
theorem systemInstructionsComplete : Obligations.SystemInstructionsComplete :=
  ⟨fun _ _ _ _ => sends_of_perGang (fun _ => rfl) fun _ => sendLaunch_keeps _,
    fun _ _ _ => sends_of_perGang (fun _ => rfl) fun _ => sendEvop_keeps true,
    fun _ _ _ => sends_of_perGang (fun _ => rfl) fun _ => sendEvop_keeps false,
    fun _ _ _ _ _ _ _ => exec_evopTest,
    fun _ _ _ _ _ _ hi hg => congrArg Host.Outcome.next (perSlice_goes _ hi hg (fun _ _ _ => rfl) fun x _ => x.keeps_setS ..),
    fun _ _ _ _ _ hi hg =>
      ⟨fun h => exec_sysw hi hg (fun x hx => Slice.sysWrite_qlen (h x hx).1 (h x hx).2) fun _ _ => ⟨rfl, rfl, rfl, rfl, rfl⟩,
        fun h => exec_sysw hi hg (fun x hx => Slice.sysWrite_trapvec (h x hx).1 (h x hx).2) fun _ _ => ⟨rfl, rfl, rfl, rfl, rfl⟩⟩,
    fun _ _ _ _ _ => exec_trap, fun _ _ _ _ => exec_eret,
    fun _ _ _ _ _ hi hg hneg => ⟨exec_sleep_over hi hg hneg, exec_sleep_waits hi hg hneg⟩,
    fun _ _ _ _ => exec_sleepExpiry⟩

end

section
/-! PROOFS. The hardware queues (R357 to R361, R364, R369): what their registers do, and how an entry's record is read and checked. -/

namespace Sys2Proof.Machine

variable {s : State} {q : Nat}

theorem State.hq_modHq (hq : q < s.sched.hqs.length) (f : Hq → Hq) : (s.modHq q f).hq q = f (s.hq q) := by
  simp only [State.hq, State.modHq, List.getD_eq_getElem?_getD, List.getElem?_modify, List.getElem?_eq_getElem hq, if_true,
    Option.getD_some]
  rfl

/-! ## HQSUB -/

theorem State.hqsub_unbound (hb : (s.hq q).bound = false) (addr : Word) : s.hqsub q addr = s := by
  simp only [State.hqsub, hb, Bool.not_false, Bool.or_true, if_true]

/-- A queue with room takes an entry at its next position (R357). -/
theorem State.appendEntry_room (h : (decide ((s.hq q).entries.length ≥ 1024) || s.posTaken q (s.hq q).next) = false) (addr : Word) :
    s.appendEntry q addr none = (some (s.hq q).next, s.modHq q fun h =>
      { h with
        entries := h.entries ++ [{ pos := (s.hq q).next, addr, graph := none, checked := false, rcd := default, age := none }]
        next := (h.next + 1) % 1024, st := if h.st = .idle then .running else h.st }) := by
  simp only [State.appendEntry, h, Bool.false_eq_true, if_false, beq_iff_eq]

theorem State.appendEntry_full (h : (decide ((s.hq q).entries.length ≥ 1024) || s.posTaken q (s.hq q).next) = true) (addr : Word) :
    s.appendEntry q addr none = (none, s) := by
  simp only [State.appendEntry, h, if_true]

theorem State.hqsub_full (ho : s.hostOpen = true) (hb : (s.hq q).bound = true)
    (h : (decide ((s.hq q).entries.length ≥ 1024) || s.posTaken q (s.hq q).next) = true) (addr : Word) :
    s.hqsub q addr = s.modHq q fun h => { h with ovf := true } := by
  simp only [State.hqsub, ho, hb, State.appendEntry_full h, Bool.not_true, Bool.or_self, Bool.false_eq_true, if_false]

theorem State.hqsub_room (ho : s.hostOpen = true) (hb : (s.hq q).bound = true)
    (h : (decide ((s.hq q).entries.length ≥ 1024) || s.posTaken q (s.hq q).next) = false) (addr : Word) :
    s.hqsub q addr = (s.appendEntry q addr none).2 := by
  simp only [State.hqsub, ho, hb, State.appendEntry_room h, Bool.not_true, Bool.or_self, Bool.false_eq_true, if_false]

/-! ## HQCTL -/

theorem State.recallHead_sched (s : State) (q : Nat) : (s.recallHead q).sched = s.sched := by
  unfold State.recallHead
  split
  · rfl
  · rfl

/-- A queue as HQCTL 1 leaves it (R357, R358). -/
def Hq.restarted (h : Hq) : Hq :=
  if h.st == .stopped then
    { h with st := if h.entries.isEmpty then .idle else .running, failPos := 0, failCode := 0
             entries := h.entries.mapIdx fun i e => if i = 0 then { e with checked := false, age := none } else e }
  else { h with failPos := 0, failCode := 0 }

theorem State.hq_hqctlRestart (ho : s.hostOpen = true) (hq : q < s.sched.hqs.length) :
    (s.hqctlRestart q).hq q = (s.hq q).restarted := by
  have hrun : s.hqctlRestart q = (s.recallHead q).modHq q Hq.restarted := by
    simp only [State.hqctlRestart, ho, Bool.not_true, Bool.false_eq_true, if_false]
    rfl
  rw [hrun, State.hq_modHq (by rwa [State.recallHead_sched])]
  simp only [State.hq, State.recallHead_sched]

/-- A stopped queue runs again, its head unchecked; of another the failure alone is forgotten. -/
theorem Hq.restarted_spec (h : Hq) :
    h.restarted.failCode = 0 ∧ h.restarted.failPos = 0 ∧ h.restarted.st ≠ .stopped ∧
      (h.st = .stopped → (h.restarted.st = .idle ↔ h.entries = [])) ∧
      h.restarted.entries.map (fun e => (e.pos, e.addr, e.graph)) = h.entries.map (fun e => (e.pos, e.addr, e.graph)) ∧
      (h.st = .stopped → ∀ e, h.restarted.entries.head? = some e → e.checked = false ∧ e.age = none) ∧
      (h.st ≠ .stopped → h.restarted.st = h.st ∧ h.restarted.entries = h.entries) := by
  by_cases hst : h.st = .stopped
  · have hr : h.restarted = { h with
        st := if h.entries.isEmpty then .idle else .running, failPos := 0, failCode := 0
        entries := h.entries.mapIdx fun i e => if i = 0 then { e with checked := false, age := none } else e } := if_pos (by rw [hst]; rfl)
    rw [hr]
    cases hent : h.entries with
    | nil => simp [hst]
    | cons e rest =>
      have hrest : List.mapIdx (fun _ e => e) rest = rest := List.mapIdx_eq_iff.mpr (by simp)
      simp [hst, List.mapIdx_cons, hrest]
  · have hr : h.restarted = { h with failPos := 0, failCode := 0 } := if_neg (by simpa using hst)
    rw [hr]
    exact ⟨rfl, rfl, hst, fun h => absurd h hst, rfl, fun h => absurd h hst, fun _ => ⟨rfl, rfl⟩⟩

/-- HQCTL 2 drops the head of a stopped queue, and the launch of it that has not started (R358, R360, R369). -/
theorem State.hqctlRemoveHead_spec {e : HqEntry} {rest : List HqEntry} (ho : s.hostOpen = true) (hst : (s.hq q).st = .stopped)
    (hent : (s.hq q).entries = e :: rest) (hq : q < s.sched.hqs.length) :
    let t := s.hqctlRemoveHead q
    (t.hq q).entries = rest ∧ (t.hq q).st = .stopped ∧ ∀ l ∈ t.launches, l.isAt q e.pos = false := by
  have hmod : ((s.recall q e.pos).modHq q fun h => { h with entries := rest }).hq q = { s.hq q with entries := rest } :=
    State.hq_modHq (s := s.recall q e.pos) hq _
  have hlaunches : ∀ l ∈ (s.recall q e.pos).launches, l.isAt q e.pos = false := fun l hl => by
    simpa using (List.mem_filter.mp hl).2
  have hspec : ∀ t : State, t.hq q = { s.hq q with entries := rest } → t.launches = (s.recall q e.pos).launches →
      (t.hq q).entries = rest ∧ (t.hq q).st = .stopped ∧ ∀ l ∈ t.launches, l.isAt q e.pos = false := fun t ht hl => by
    rw [ht, hl]
    exact ⟨rfl, hst, hlaunches⟩
  simp only [State.hqctlRemoveHead, hent, ho, hst, beq_self_eq_true, Bool.and_self, if_true]
  cases e.graph with
  | none => exact hspec _ hmod rfl
  | some _ => exact hspec _ hmod rfl

/-! ## The records of entries -/

theorem State.hq_readsAll (s : State) (c : Nat) (l : List (Nat × Nat)) (q : Nat) : (s.readsAll c l).hq q = s.hq q := by
  simp only [State.hq, State.readsAll_sched]

/-- The record of a launch is read and judged by R361. -/
theorem State.checkEntry_launch {e : HqEntry} {bs : List Byte} (hk : s.kindOf e = 1)
    (hbs : (s.readsAll (s.hq q).ctx (s.recReads (s.hq q).ctx e)).recBytes (s.hq q).ctx e = some bs) :
    let u := s.readsAll (s.hq q).ctx (s.recReads (s.hq q).ctx e)
    (u.recCode (s.hq q).ctx bs = 0 → s.checkEntry q e = u.putEntry q { e with checked := true, rcd := recOf bs }) ∧
    (u.recCode (s.hq q).ctx bs ≠ 0 → s.checkEntry q e = u.nodeFails q e.pos (u.recCode (s.hq q).ctx bs) e) := by
  intro u
  have hcheck : s.checkEntry q e = if u.recCode (s.hq q).ctx bs = 0 then u.putEntry q { e with checked := true, rcd := recOf bs }
      else u.nodeFails q e.pos (u.recCode (s.hq q).ctx bs) e := by
    simp only [State.checkEntry, hk, ne_eq, not_true_eq_false, if_false, State.hq_readsAll, hbs]
    split
    · next h => exact (if_pos h).symm
    · next h => exact (if_neg h).symm
  exact ⟨fun h => hcheck.trans (if_pos h), fun h => hcheck.trans (if_neg h)⟩

theorem exec_recordHeadCheck {e : HqEntry} (hst : (s.hq q).st = .running) (hn : s.nextCheck q = some e) :
    exec (.recordHeadCheck q) s = .next (s.checkEntry q e) := by
  change execRecordHeadCheck q s = _
  simp only [execRecordHeadCheck, hst, hn, bne_self_eq_false, Bool.false_eq_true, if_false]

theorem exec_nodeEnterPool {e : HqEntry} (hf : ((s.hq q).entries.take 64).find? (fun x => x.pos == e.pos) = some e)
    (hfirst : s.firstEntering = some (q, e.pos)) : exec (.nodeEnterPool q e.pos) s =
      .next (({ s with nextId := s.nextId + 1 } : State).putEntry q { e with age := some s.nextId }) := by
  change execNodeEnterPool q e.pos s = _
  simp only [execNodeEnterPool, hf, hfirst, beq_self_eq_true, if_true]
  rfl

end Sys2Proof.Machine

end

section
/-! PROOFS. O49. -/

open Sys2Proof Sys2Proof.Machine

/-- Settles O49: a queue with room takes an entry (`State.appendEntry_room`) and a full one overflows; HQCTL acts on its queue alone
(`State.hq_hqctlRestart`, `State.hqctlRemoveHead_spec`), and a record is judged by its code (`State.checkEntry_launch`). -/
theorem queueOperationsComplete : Obligations.QueueOperationsComplete := fun s q ho =>
  ⟨fun hb addr => congrArg Host.Outcome.next (State.hqsub_unbound hb addr),
    fun hb addr => ⟨fun h => congrArg Host.Outcome.next (by rw [State.hqsub_room ho hb h, State.appendEntry_room h]),
      fun h => congrArg Host.Outcome.next (State.hqsub_full ho hb h addr)⟩,
    ⟨s.hqctlRestart q, rfl, fun hq => by rw [State.hq_hqctlRestart ho hq]; exact (s.hq q).restarted_spec⟩,
    fun _ _ hst hent hq => ⟨s.hqctlRemoveHead q, rfl, State.hqctlRemoveHead_spec ho hst hent hq⟩,
    congrArg Host.Outcome.next (if_neg (by rw [ho]; decide)),
    fun hst _ hn => ⟨exec_recordHeadCheck hst hn, fun hk _ => State.checkEntry_launch hk⟩,
    fun _ => exec_nodeEnterPool⟩

end

section
/-! PROOFS. Units that leave their cores, the host's PREEMPT and the token buckets (R375, R392 to R397). -/

namespace Sys2Proof.Machine

/-! ## Leaving the cores -/

/-- A unit whose work has settled leaves its cores, as its pre-emption says (R393, R394). -/
theorem exec_chrysalisSaveComplete {s : State} {p : Preempt} {l : Launch} (hp : s.leaving p.launch p.unit = some p)
    (hl : s.launch? p.launch = some l) (hs : s.settled ((s.unitOf p.launch p.unit).map fun b => b.uid) = true) :
    exec (.chrysalisSaveComplete p.launch p.unit) s = .next (if p.act == .save
      then (s.dropPreempt p.launch p.unit).saveUnit l p (s.unitOf p.launch p.unit)
      else (s.dropPreempt p.launch p.unit).flushUnit l p (s.unitOf p.launch p.unit)) := by
  change execChrysalisSaveComplete p.launch p.unit s = _
  simp only [execChrysalisSaveComplete, hp, hl, hs, Bool.not_true, Bool.false_eq_true, if_false]

theorem exec_drainTimeout {s : State} {l : Launch} (u : Nat) (hl : s.launch? l.id = some l) :
    exec (.drainTimeout l.id u) s =
      .next { s with sched := { s.sched with preempts := s.sched.preempts.map (s.drainLate l l.id u) } } := by
  change execDrainTimeout l.id u s = _
  simp only [execDrainTimeout, hl]

/-! ## How a block is asked to leave (R392) -/

/-- A block that is flushed may be restarted, and has done nothing that a restart would do twice. -/
theorem Block.choice_flush {b : Block} {r : LaunchRec} (h : b.choice r = .flush) : r.restart = true ∧ b.noFlush = false := by
  unfold Block.choice at h
  dsimp only at h
  split at h
  · cases h
  · split at h
    · next hf =>
      simp only [Bool.and_eq_true, Bool.not_eq_true'] at hf
      obtain ⟨⟨⟨hrestart, -⟩, hclean⟩, -⟩ := hf
      exact ⟨hrestart, hclean⟩
    · cases h

/-- A block whose slices have all ended is drained (log entry 35). -/
theorem Block.choice_ended {b : Block} {r : LaunchRec} (h : ∀ x ∈ b.slices, x.ended = true) : b.choice r = .drain := by
  have hlive : b.slices.filter (fun x => !x.ended) = [] := List.filter_eq_nil_iff.mpr fun x hx => by simp [h x hx]
  refine if_pos ?_
  rw [hlive]
  rfl

/-! ## Token buckets (R375) -/

/-- What a µs makes of an enabled bucket's level. -/
theorem Bucket.tick_level {b : Bucket} (d : Nat) (h : 0 < b.cap) :
    (b.tick d).level = if b.level - d < b.cap then min b.cap (b.level - d + b.rate) else b.level - d := by
  have hcap : b.cap ≠ 0 := by omega
  simp only [Bucket.tick, hcap, if_false]

/-- A bucket is refilled up to its capacity, and one that stands above it is debited alone. -/
theorem Bucket.tick_le {b : Bucket} (d : Nat) (h : 0 < b.cap) :
    (b.tick d).level ≤ b.cap ∨ (b.tick d).level = b.level - d := by
  rw [Bucket.tick_level d h]
  split
  · exact .inl (min_le_left ..)
  · exact .inr rfl

end Sys2Proof.Machine

end

section
/-! PROOFS. O51. -/

open Sys2Proof Sys2Proof.Machine

/-- Settles O51: a unit leaves by its pre-emption once it has settled (`exec_chrysalisSaveComplete`); a µs debits a bucket and refills it
(`Bucket.tick_level`), and the table of R392 chooses for a block (`Block.choice_flush`, `Block.choice_ended`). -/
theorem preemptionsComplete : Obligations.PreemptionsComplete :=
  ⟨fun _ _ _ hp hl hs => ⟨fun h => (exec_chrysalisSaveComplete hp hl hs).trans (congrArg Host.Outcome.next (if_pos (by rw [h]; rfl))),
      fun h => (exec_chrysalisSaveComplete hp hl hs).trans (congrArg Host.Outcome.next (if_neg (by rw [h]; decide)))⟩,
    fun _ _ u hl => exec_drainTimeout u hl,
    fun _ _ ho => congrArg Host.Outcome.next (if_pos ho),
    fun _ _ _ => rfl,
    fun _ d h => ⟨Bucket.tick_le d h, fun hlow => (Bucket.tick_level d h).trans (if_pos hlow)⟩,
    fun _ _ => ⟨Block.choice_flush, Block.choice_ended⟩⟩

end

section
/-! PROOFS. The fault ring's record of a stop, and what the end of a context leaves (R389 to R391). -/

namespace Sys2Proof.Machine

/-! ## A context's registers -/

theorem State.ctx_setCtx {s : State} {c : Nat} (h : c < s.ctxs.length) (f : Ctx → Ctx) : (s.setCtx c f).ctx c = f (s.ctx c) := by
  simp only [State.ctx, State.setCtx, List.getD_eq_getElem?_getD, List.getElem?_modify_eq, List.getElem?_eq_getElem h]
  rfl

/-! ## Records of the fault ring (R389) -/

theorem writeHost_eq_pokeMany (m : Memory) (pa k : Nat) (bs : List Byte) :
    writeHost m (pa + k) bs = m.pokeMany ((bs.zipIdx k).map fun x => (hostKey (pa + x.2), x.1)) := by
  induction bs generalizing m k with
  | nil => rfl
  | cons b bs ih => exact ih (m.poke (hostKey (pa + k)) b) (k + 1)

/-- A byte of the host's memory that the device has written. -/
theorem peek_writeHost (m : Memory) (pa : Nat) {bs : List Byte} {i : Nat} (h : i < bs.length) :
    (writeHost m pa bs).peek (hostKey (pa + i)) = bs.getD i 0 := by
  have hv : bs[i]? = some (bs.getD i 0) := by
    rw [List.getD_eq_getElem?_getD, List.getElem?_eq_getElem h]
    rfl
  rw [← peek_hostWrite m pa hv, ← writeHost_eq_pokeMany m pa 0 bs, Nat.add_zero]

theorem Outstanding.image_length (o : Outstanding) : o.image.length = 32 := by
  simp only [Outstanding.image, List.length_append, length_leBytes]

/-- Of more numbers than a list holds one is not among its elements. -/
theorem exists_lt_not_mem (l : List Nat) : ∃ i < l.length + 1, i ∉ l := by
  by_contra hall
  have hsub : List.range (l.length + 1) ⊆ l := fun i hi => by
    by_contra hnot
    exact hall ⟨i, List.mem_range.mp hi, hnot⟩
  have hlen := (List.nodup_range.subperm hsub).length_le
  rw [List.length_range] at hlen
  omega

/-- No outstanding record has the identifier that a new one takes. -/
theorem State.freeRecord_unused (s : State) : ∀ y ∈ s.ctxs, ∀ q ∈ y.ring, q.id ≠ s.freeRecord := by
  intro y hy q hq hid
  obtain ⟨i, hi, hfree⟩ := exists_lt_not_mem (s.ctxs.flatMap fun x => x.ring.map fun r => r.id)
  have hsome := (List.find?_isSome (p := fun i => !(s.ctxs.flatMap fun x => x.ring.map fun r => r.id).contains i)).mpr
    ⟨i, List.mem_range.mpr hi, by simpa using hfree⟩
  obtain ⟨k, hk⟩ := Option.isSome_iff_exists.mp hsome
  have hunused := List.find?_some hk
  rw [Bool.not_eq_true', List.contains_eq_mem, decide_eq_false_iff_not] at hunused
  have hrec : s.freeRecord = k := by
    simp only [State.freeRecord, hk, Option.getD_some]
  exact hunused (List.mem_flatMap.mpr ⟨y, hy, List.mem_map.mpr ⟨q, hq, hid.trans hrec⟩⟩)

/-- The record as the ring takes it: under a free identifier, and with a slot where one is free. -/
def State.placed (s : State) (c : Nat) (o : Outstanding) : Outstanding :=
  { o with id := s.freeRecord, slot := freeSlot ((s.ctx c).ring.filterMap fun r => r.slot) (s.ctx c).nextSlot }

/-- A report changes the reporting context's ring and the host's memory. -/
theorem State.report_blocks (s : State) (c : Nat) (o : Outstanding) :
    (s.report c o).blocks = s.blocks ∧ (s.report c o).launches = s.launches := by
  unfold State.report
  dsimp only
  split
  · exact ⟨rfl, rfl⟩
  · exact ⟨rfl, rfl⟩

theorem State.report_ring {s : State} {c : Nat} (h : c < s.ctxs.length) (o : Outstanding) :
    ((s.report c o).ctx c).ring = (s.ctx c).ring ++ [s.placed c o] := by
  obtain ⟨n, hctx⟩ : ∃ n : Ctx → Nat,
      (s.report c o).ctxs = (s.setCtx c fun x => { x with ring := x.ring ++ [s.placed c o], nextSlot := n x }).ctxs := by
    unfold State.report State.placed
    dsimp only
    split
    · next h => rw [h]; exact ⟨_, rfl⟩
    · next h => rw [h]; exact ⟨_, rfl⟩
  rw [State.ctx, hctx]
  exact congrArg Ctx.ring (State.ctx_setCtx h _)

/-- The bytes of a record that has a slot stand there. -/
theorem State.peek_report {s : State} {c k i : Nat} {o : Outstanding} (hk : (s.placed c o).slot = some k) (hi : i < 32) :
    (s.report c o).mem.peek (hostKey ((s.ctx c).pfring + 32 * k + i)) = (s.placed c o).image.getD i 0 := by
  have hmem : (s.report c o).mem = writeHost s.mem ((s.ctx c).pfring + 32 * k) (s.placed c o).image := by
    simp only [State.placed] at hk
    simp only [State.report, State.placed, hk]
    rfl
  rw [hmem, peek_writeHost _ _ (by rwa [Outstanding.image_length])]

/-! ## A gang that stops (R389) -/

/-- The slices that issue are the block's. -/
theorem issuing_mem {s : State} {b : Block} {l : List Slice} (hi : s.issuing = some (b, l)) : ∀ x ∈ l, x ∈ b.slices := by
  unfold State.issuing at hi
  split at hi
  · cases hi
  · split at hi
    · cases hi
    · cases hi
      exact fun x hx => (List.mem_filter.mp (List.mem_filter.mp hx).1).1

/-- The block of a gang that a record holds. -/
def Block.hold (b : Block) (l : List Slice) (id : Nat) (trap : Bool) : Block :=
  { b with slices := b.slices.map fun x => if l.any (fun y => y.num == x.num) then { x with stop := .held id trap } else x }

theorem Block.hold_nums (b : Block) (l : List Slice) (id : Nat) (trap : Bool) :
    (b.hold l id trap).slices.map (fun x => x.num) = b.slices.map fun x => x.num := by
  refine (List.map_map ..).trans (List.map_congr_left fun x _ => ?_)
  simp only [Function.comp_apply]
  split
  · rfl
  · rfl

theorem Block.mem_hold {b : Block} {l : List Slice} {x : Slice} (id : Nat) (trap : Bool) (hx : x ∈ l) (hb : x ∈ b.slices) :
    { x with stop := .held id trap } ∈ (b.hold l id trap).slices :=
  have hheld : l.any (fun y => y.num == x.num) = true := List.any_eq_true.mpr ⟨x, hx, beq_self_eq_true _⟩
  List.mem_map.mpr ⟨x, hb, if_pos hheld⟩

/-- The record of a gang's stop. -/
def State.stopRecord (s : State) (b : Block) (l : List Slice) (r : Slice) (e : Ev) (trap : Bool) : Outstanding :=
  let core := (s.envOf b r).core
  { id := s.freeRecord, slot := none, addr := e.addr.getD (r.pc.setWidth 64), cause := e.cause (e.lanesOf r), source := 0, block := b.num
    place := core / 48 * 256 + core % 48 * 4 + r.part
    rcnt := match l with | x :: _ => x.rcnt.toNat | [] => 0
    src := .gang b.uid r.num trap }

/-- The state in which a gang has been held and its record is yet to come. -/
def State.heldGang (s : State) (b : Block) (l : List Slice) (trap : Bool) : State :=
  s.modBlock b.uid fun y => y.hold l s.freeRecord trap

theorem State.stopGang_eq (s : State) (b : Block) (l : List Slice) (r : Slice) (e : Ev) (trap : Bool) :
    s.stopGang b l r e trap = (s.heldGang b l trap).report (s.lrOf b).ctx (s.stopRecord b l r e trap) := rfl

/-- A slice of a gang that has stopped is held by the gang's record. -/
theorem State.now_stopGang {s : State} {b : Block} {l : List Slice} {x : Slice} (r : Slice) (e : Ev) (trap : Bool)
    (hi : s.issuing = some (b, l)) (hn : (b.slices.map fun x => x.num).Nodup) (hx : x ∈ l) :
    (s.stopGang b l r e trap).now b x = { x with stop := .held s.freeRecord trap } := by
  have hb := block?_modBlock (issuing_holds hi) (fun y => y.hold l s.freeRecord trap) fun _ => rfl
  obtain ⟨hblocks, -⟩ := (s.heldGang b l trap).report_blocks (s.lrOf b).ctx (s.stopRecord b l r e trap)
  refine now_eq (b' := b.hold l s.freeRecord trap) ?_ rfl (by rwa [Block.hold_nums]) (Block.mem_hold _ _ hx (issuing_mem hi x hx)) rfl
  rw [State.holds, State.stopGang_eq, hblocks]
  exact hb

/-- What a stop leaves (R389). -/
theorem State.stopGang_spec {s : State} {b : Block} {l : List Slice} (r : Slice) (e : Ev) (trap : Bool) (hi : s.issuing = some (b, l))
    (hn : (b.slices.map fun x => x.num).Nodup) (hc : (s.lrOf b).ctx < s.ctxs.length) :
    let t := s.stopGang b l r e trap
    let c := (s.lrOf b).ctx
    ∃ o : Outstanding, (t.ctx c).ring = (s.ctx c).ring ++ [o] ∧ (∀ y ∈ s.ctxs, ∀ q ∈ y.ring, q.id ≠ o.id) ∧
      (∀ x ∈ l, t.now b x = { x with stop := .held o.id trap }) ∧
      o.cause = e.cause (e.lanesOf r) ∧ o.addr = e.addr.getD (r.pc.setWidth 64) ∧ o.block = b.num ∧ o.source = 0 ∧
      ∀ k i, o.slot = some k → i < 32 →
        t.mem.peek (hostKey ((s.ctx c).pfring + 32 * k + i)) = (Outstanding.image o).getD i 0 := by
  have hctxs : (s.heldGang b l trap).ctxs = s.ctxs := State.modBlock_ctxs ..
  have hctx : (s.heldGang b l trap).ctx (s.lrOf b).ctx = s.ctx (s.lrOf b).ctx := by rw [State.ctx, hctxs, State.ctx]
  have hid : (s.heldGang b l trap).freeRecord = s.freeRecord := by rw [State.freeRecord, hctxs, State.freeRecord]
  refine ⟨(s.heldGang b l trap).placed (s.lrOf b).ctx (s.stopRecord b l r e trap), ?ring, ?unused, ?held, rfl, rfl, rfl, rfl, ?bytes⟩
  case ring => rw [State.stopGang_eq, State.report_ring (by rwa [hctxs]), hctx]
  case unused => exact fun y hy q hq => (s.freeRecord_unused y hy q hq).trans_eq hid.symm
  case held =>
    intro x hx
    rw [State.now_stopGang r e trap hi hn hx, ← hid]
    rfl
  case bytes =>
    intro k i hk h32
    rw [State.stopGang_eq, ← hctx, State.peek_report hk h32]

/-! ## The end of a context (R390, R391) -/

section
variable (s : State) (c : Nat) (r : FaultRec)

theorem State.discard_ctx : (s.discard c).ctx c = s.ctx c := rfl

theorem State.contextFault_ctx {s : State} {c : Nat} (r : FaultRec) (h : c < s.ctxs.length) :
    ((s.contextFault c r).ctx c).fault = some ((s.ctx c).fault.getD r) ∧ ((s.contextFault c r).ctx c).ring = [] := by
  have hctx : (s.contextFault c r).ctx c = { s.ctx c with fault := some ((s.ctx c).fault.getD r), ring := [] } := by
    refine (State.ctx_setCtx (s := s.discard c) h _).trans ?_
    cases hf : (s.ctx c).fault with
    | none => rw [State.discard_ctx, hf]; rfl
    | some f => rw [State.discard_ctx, hf]; rfl
  rw [hctx]
  exact ⟨rfl, rfl⟩

/-- A block that is left is of no launch of the context. -/
theorem State.contextFault_blocks {b : Block} (hb : b ∈ (s.contextFault c r).blocks) :
    b ∈ s.blocks ∧ ∀ l ∈ s.launches, l.rcd.ctx = c → l.id ≠ b.launch := by
  obtain ⟨hmem, hno⟩ := List.mem_filter.mp hb
  refine ⟨hmem, fun l hl hctx hid => ?_⟩
  rw [Bool.not_eq_true', List.contains_eq_mem, decide_eq_false_iff_not] at hno
  exact hno (List.mem_map.mpr ⟨l, List.mem_filter.mpr ⟨hl, beq_iff_eq.mpr hctx⟩, hid⟩)

theorem State.contextFault_launches {l : Launch} (hl : l ∈ (s.contextFault c r).launches) : l.rcd.ctx ≠ c :=
  bne_iff_ne.mp (List.mem_filter.mp hl).2

theorem State.contextFault_cmds {k : Cmd} (hk : k ∈ (s.contextFault c r).cmds) : k.ctx ≠ c :=
  bne_iff_ne.mp (List.mem_filter.mp hk).2

/-- A queue bound to the context stops with code 6. -/
theorem State.contextFault_hq {q : Nat} (hq : q < (s.contextFault c r).sched.hqs.length) (hb : (s.hq q).bound = true)
    (hc : (s.hq q).ctx = c) : ((s.contextFault c r).hq q).st = .stopped ∧ ((s.contextFault c r).hq q).failCode = 6 := by
  have hlen : q < s.sched.hqs.length := hq.trans_eq List.length_mapIdx
  have hget : s.sched.hqs[q]? = some (s.hq q) := by
    rw [State.hq, List.getD_eq_getElem?_getD, List.getElem?_eq_getElem hlen]
    rfl
  have hstop : ∀ l, ∃ n, (s.stopQueues c l).hq q = { s.hq q with st := .stopped, failCode := 6, failPos := n } := fun l => by
    rw [State.hq, State.stopQueues, List.getD_eq_getElem?_getD]
    dsimp only
    rw [List.getElem?_mapIdx, hget, Option.map_some, Option.getD_some, if_pos (by rw [hb, hc]; simp)]
    exact ⟨_, rfl⟩
  obtain ⟨n, hn⟩ := hstop _
  exact ⟨congrArg Hq.st hn, congrArg Hq.failCode hn⟩

end

end Sys2Proof.Machine

end

section
/-! PROOFS. O47. -/

open Sys2Proof Sys2Proof.Machine

/-- Settles O47: a stop's record takes an identifier that no other has (`State.freeRecord_unused`) and its bytes are written to its slot
(`State.peek_report`); the end of a context leaves nothing of its work (`State.contextFault_blocks` and the lemmas beside it). -/
theorem faultRecordsAreKept : Obligations.FaultRecordsAreKept :=
  ⟨fun _ _ _ r e trap => State.stopGang_spec r e trap,
    fun s c r hc => by
      obtain ⟨hfault, hring⟩ := State.contextFault_ctx r hc
      exact ⟨hfault, hring, fun _ => s.contextFault_blocks c r, fun _ => s.contextFault_launches c r, fun _ => s.contextFault_cmds c r,
        fun _ => s.contextFault_hq c r⟩⟩

end

section
/-! PROOFS. Exceptions (R380, R381, R384, R386, R387, R389 to R391): the route of an event, what entering a handler saves, and how ERET
goes back. -/

namespace Sys2Proof.Machine

/-! ## The gang that issues -/

/-- The slices that issue are those of the block that one test picks, and none of them has ended. -/
theorem issuing_filter {s : State} {b : Block} {l : List Slice} (hi : s.issuing = some (b, l)) :
    ∃ p : Slice → Bool, l = b.slices.filter p ∧ ∀ x, p x = true → x.ended = false := by
  unfold State.issuing at hi
  split at hi
  · cases hi
  · split at hi
    · cases hi
    · cases hi
      refine ⟨_, List.filter_filter, fun x hx => ?_⟩
      simp only [Bool.and_eq_true, Bool.not_eq_true'] at hx
      obtain ⟨-, -, hlive⟩ := hx
      exact hlive

/-- A slice of a block whose slices that p picks have been put back as f of what they were. -/
theorem State.now_put {s : State} {b : Block} {p : Slice → Bool} {f : Slice → Slice} {x : Slice} {n : Nat} (hb : s.holds b)
    (hn : (b.slices.map fun x => x.num).Nodup) (hf : ∀ x, (f x).num = x.num) (hx : x ∈ b.slices.filter p) :
    State.now { s.modBlock b.uid (fun y => y.putSlices ((b.slices.filter p).map f)) with nextId := n } b x = f x := by
  obtain ⟨hmem, hp⟩ := List.mem_filter.mp hx
  refine now_eq (b' := b.putSlices ((b.slices.filter p).map f)) (block?_modBlock hb (fun y => y.putSlices _) fun _ => rfl) rfl
    (by rwa [putSlices_nums]) ?_ (hf x)
  rw [putSlices_map b p f hn fun y _ => hf y]
  exact List.mem_map.mpr ⟨x, hmem, if_pos hp⟩

/-! ## Parting by pc (R97) -/

theorem eq_of_mem_short {α : Type} {l : List α} (h : l.length ≤ 1) {x y : α} (hx : x ∈ l) (hy : y ∈ l) : x = y := by
  match l, h with
  | [_], _ => exact (List.mem_singleton.mp hx).trans (List.mem_singleton.mp hy).symm

/-- Slices that run part by their pcs: those at one pc keep their gang where all are, and others get a gang of their own. -/
theorem partGang_gangs (first : Nat) {l : List Slice} (hl : ∀ x ∈ l, x.ended = false) :
    ∃ gang : Slice → Nat, (partGang first l).1 = l.map (fun x => { x with gang := gang x }) ∧
      ((∀ x ∈ l, ∀ y ∈ l, x.pc = y.pc) → ∀ x ∈ l, gang x = x.gang) ∧ ∀ x ∈ l, ∀ y ∈ l, x.pc ≠ y.pc → gang x ≠ gang y := by
  have hlive : l.filter (fun x => !x.ended) = l := List.filter_eq_self.mpr fun x hx => by rw [hl x hx]; rfl
  have hmem : ∀ x ∈ l, x.pc ∈ (l.map fun x => x.pc).eraseDups := fun x hx => List.mem_eraseDups.mpr (List.mem_map_of_mem hx)
  by_cases hone : ((l.map fun x => x.pc).eraseDups).length ≤ 1
  · refine ⟨fun x => x.gang, ?_, fun _ _ _ => rfl, fun x hx y hy hne => absurd (eq_of_mem_short hone (hmem x hx) (hmem y hy)) hne⟩
    have hsame : partGang first l = (l, first) := by simp only [partGang, hlive, hone, if_true]
    rw [hsame]
    exact (List.map_id l).symm
  · refine ⟨fun x => first + ((l.map fun x => x.pc).eraseDups).idxOf x.pc, ?_, fun hall => absurd ?_ hone, fun x hx y hy hne heq => ?_⟩
    · simp only [partGang, hlive, hone, if_false]
      exact List.map_congr_left fun x hx => by rw [hl x hx]; rfl
    · cases l with
      | nil => exact Nat.zero_le 1
      | cons x l => rw [eraseDups_map_const (List.cons_ne_nil x l) fun y hy => hall y hy x List.mem_cons_self]; exact Nat.le_refl 1
    · exact hne ((List.idxOf_inj (hmem x hx)).mp (Nat.add_left_cancel heq))

/-! ## The route of an event (R381) -/

/-- An event that a handler may take (R381): PERM, BKPT, and the one that TRAP names. -/
def Ev.recoverable (e : Ev) : Prop := e.code = 0x05 ∨ e.code = 0x06 ∨ e.code = 0x10

section
variable {s : State} {e : Ev} {b : Block} {l : List Slice} {r : Slice} (hi : s.issuing = some (b, l)) (hr : e.reporter l = some r)
include hi hr

theorem raise_handling (h : ∃ x ∈ l, x.handling = true) :
    s.raise e = s.contextFault (s.lrOf b).ctx (s.faultRec b r { e with detail := 0x0C }) := by
  simp only [State.raise, hi, hr, List.any_eq_true.mpr h, if_true]

variable (hh : ∀ x ∈ l, x.handling = false)
include hh

omit hi hr in
theorem none_handling : l.any (fun x => x.handling) = false := List.any_eq_false.mpr fun x hx => by simp [hh x hx]

theorem raise_pagef (h : e.code = 0x04) : s.raise e = s.stopGang b l r e false := by
  simp only [State.raise, hi, hr, none_handling hh, h, if_true, Bool.false_eq_true, if_false]

theorem raise_unrecoverable (h4 : e.code ≠ 0x04) (h : ¬ e.recoverable) : s.raise e = s.contextFault (s.lrOf b).ctx (s.faultRec b r e) := by
  have h' : ¬(e.code = 0x05 ∨ e.code = 0x06 ∨ e.code = 0x10) := h
  simp only [State.raise, hi, hr, none_handling hh, h4, h', Bool.false_eq_true, if_false]

theorem raise_without_handler (hv : r.trapvec = 0) (h : e.recoverable) :
    s.raise e = if e.code = 0x05 then s.contextFault (s.lrOf b).ctx (s.faultRec b r e) else s.stopGang b l r e true := by
  have h' : e.code = 0x05 ∨ e.code = 0x06 ∨ e.code = 0x10 := h
  have h4 : e.code ≠ 0x04 := by omega
  simp only [State.raise, hi, hr, none_handling hh, h4, h', hv, ne_eq, not_true_eq_false, if_true, Bool.false_eq_true, if_false]

variable (h : e.recoverable) (hv : r.trapvec ≠ 0)
include h hv

/-- A handler that cannot be read yet: the event comes again. -/
theorem raise_blocked (hb : ∃ x ∈ l, s.vaBlocked (s.lrOf b).ctx x.trapvec.toNat 8 = true) : s.raise e = s.markIssued b l := by
  have h' : e.code = 0x05 ∨ e.code = 0x06 ∨ e.code = 0x10 := h
  have h4 : e.code ≠ 0x04 := by omega
  simp only [State.raise, hi, hr, none_handling hh, h4, h', hv, List.any_eq_true.mpr hb, ne_eq, not_false_eq_true, if_true,
    Bool.false_eq_true, if_false]

variable (hb : ∀ x ∈ l, s.vaBlocked (s.lrOf b).ctx x.trapvec.toNat 8 = false)
include hb

omit hi hr hh h hv in
theorem none_blocked : l.any (fun x => s.vaBlocked (s.lrOf b).ctx x.trapvec.toNat 8) = false :=
  List.any_eq_false.mpr fun x hx => by simp [hb x hx]

theorem raise_no_header {x : Slice} (hx : l.find? (fun y => (okOf (s.header (s.lrOf b).ctx y.trapvec)).isNone) = some x) :
    s.raise e = s.contextFault (s.lrOf b).ctx (s.faultRec b x { Ev.badtgt with detail := 0x06, lanes := [(x.num, x.am)] }) := by
  have h' : e.code = 0x05 ∨ e.code = 0x06 ∨ e.code = 0x10 := h
  have h4 : e.code ≠ 0x04 := by omega
  simp only [State.raise, hi, hr, none_handling hh, none_blocked hb, hx, h4, h', hv, ne_eq, not_false_eq_true, if_true,
    Bool.false_eq_true, if_false]

/-- Where every slice's handler begins with a header the gang enters it. -/
theorem raise_enters (hw : ∀ x ∈ l, ∃ w, s.fetchWord (s.lrOf b).ctx x.trapvec.toNat = .ok w ∧ Hdr.isHeader w = true) :
    s.raise e = { s.modBlock b.uid (fun b => b.putSlices (partGang s.nextId (l.map fun x => x.enterHandler e)).1) with
                  nextId := (partGang s.nextId (l.map fun x => x.enterHandler e)).2 } := by
  have hnone : l.find? (fun x => (okOf (s.header (s.lrOf b).ctx x.trapvec)).isNone) = none :=
    List.find?_eq_none.mpr fun x hx => by
      obtain ⟨w, hok, hhdr⟩ := hw x hx
      simp [State.header, hok, hhdr, okOf]
  have h' : e.code = 0x05 ∨ e.code = 0x06 ∨ e.code = 0x10 := h
  have h4 : e.code ≠ 0x04 := by omega
  simp only [State.raise, hi, hr, none_handling hh, none_blocked hb, hnone, h4, h', hv, ne_eq, not_false_eq_true, if_true,
    Bool.false_eq_true, if_false]

/-- What entering a handler leaves (R380, R386): each slice has saved the event and its region, and slices of different handlers part. -/
theorem raise_enters_spec (hn : (b.slices.map fun x => x.num).Nodup)
    (hw : ∀ x ∈ l, ∃ w, s.fetchWord (s.lrOf b).ctx x.trapvec.toNat = .ok w ∧ Hdr.isHeader w = true) :
    (s.raise e).mem = s.mem ∧ (s.raise e).ctxs = s.ctxs ∧
      ((∀ x ∈ l, x.trapvec = r.trapvec ∧ x.ended = false) → ∀ x ∈ l, ((s.raise e).now b x).gang = x.gang) ∧
      (∀ x ∈ l, ∀ y ∈ l, x.ended = false → y.ended = false → x.trapvec ≠ y.trapvec →
        ((s.raise e).now b x).gang ≠ ((s.raise e).now b y).gang) ∧
      ∀ x ∈ l, (s.raise e).now b x = { x.enterHandler e with gang := ((s.raise e).now b x).gang } := by
  obtain ⟨p, hl, hp⟩ := issuing_filter hi
  have hended : ∀ y ∈ l.map (fun x => x.enterHandler e), y.ended = false := fun y hy => by
    obtain ⟨x, hx, rfl⟩ := List.mem_map.mp hy
    exact hp x (List.mem_filter.mp (hl ▸ hx)).2
  obtain ⟨gang, hparted, hsame, hdiff⟩ := partGang_gangs s.nextId hended
  have hraise := raise_enters hi hr hh h hv hb hw
  rw [hparted, List.map_map, hl] at hraise
  have hnow : ∀ x ∈ l, (s.raise e).now b x = { x.enterHandler e with gang := gang (x.enterHandler e) } := fun x hx => by
    rw [hraise]
    exact State.now_put (f := fun x => { x.enterHandler e with gang := gang (x.enterHandler e) }) (issuing_holds hi) hn
      (fun _ => rfl) (hl ▸ hx)
  have hin : ∀ x ∈ l, x.enterHandler e ∈ l.map fun x => x.enterHandler e := fun x hx => List.mem_map_of_mem hx
  refine ⟨?mem, ?ctxs, fun hall x hx => ?same, fun x hx y hy _ _ hne => ?differ, fun x hx => ?saved⟩
  case mem => rw [hraise]; exact State.modBlock_mem ..
  case ctxs => rw [hraise]; exact State.modBlock_ctxs ..
  case same =>
    rw [hnow x hx]
    refine hsame (fun y hy z hz => ?_) _ (hin x hx)
    obtain ⟨y', hy', rfl⟩ := List.mem_map.mp hy
    obtain ⟨z', hz', rfl⟩ := List.mem_map.mp hz
    exact (hall y' hy').1.trans (hall z' hz').1.symm
  case differ =>
    rw [hnow x hx, hnow y hy]
    exact hdiff _ (hin x hx) _ (hin y hy) hne
  case saved => rw [hnow x hx]

end

/-! ## ERET (R384, R387) -/

/-- Slices put back as they are not listed leave the block as it is. -/
theorem Block.putSlices_nil (b : Block) : b.putSlices [] = b := by
  have hid : b.slices.map (fun x => (([] : List Slice).find? (fun y => y.num == x.num)).getD x) = b.slices := List.map_id _
  rw [Block.putSlices, hid]

/-- The one slice of a block, put back. -/
theorem Block.putSlices_one {b : Block} {x y : Slice} (hs : b.slices = [x]) (hn : y.num = x.num) : (b.putSlices [y]).slices = [y] := by
  simp only [Block.putSlices, hs, List.map_cons, List.map_nil, List.find?_cons, hn, beq_self_eq_true, Option.getD_some]

theorem State.modBlock_self {s : State} {b : Block} (hb : s.holds b) : s.modBlock b.uid (fun y => y) = s := by
  rw [modBlock_resident hb]
  simp only [ite_self, List.map_id']

/-- Where no slice retires the state stays as it is. -/
theorem State.retire_nil {s : State} {b : Block} (hb : s.holds b) (n : Nat) (whole : Bool) :
    s.retire s b.uid [] [] n false whole = s := by
  have hnow : b.slices.filter (fun x => ([] : List Nat).contains x.num) = [] := List.filter_eq_nil_iff.mpr fun _ _ => Bool.false_ne_true
  have hpart : (if whole then partGang s.nextId [] else ([], s.nextId)) = (([] : List Slice), s.nextId) := by
    cases whole
    · rfl
    · rfl
  have hput : (fun y : Block => y.putSlices []) = fun y => y := funext Block.putSlices_nil
  simp only [State.retire, holds_block? hb, hnow, List.map_nil, gather, List.filterMap_nil, List.foldl_nil, List.any_nil, Bool.or_self,
    Bool.and_false, Bool.false_eq_true, if_false, hpart, hput, State.modBlock_self hb]

/-- The counts that re-executing slices abandon are no slices of the block. -/
theorem Block.dropPaths_slices (b : Block) (l : List Slice) : (b.dropPaths l).slices = b.slices ∧ (b.dropPaths l).uid = b.uid := by
  refine List.foldlRecOn (motive := fun c : Block => c.slices = b.slices ∧ c.uid = b.uid) l _ ⟨rfl, rfl⟩ fun c hc x _ => ?_
  exact List.foldlRecOn (motive := fun c : Block => c.slices = b.slices ∧ c.uid = b.uid) _ _ hc fun _ hc _ _ => hc

/-- The slice that ERET makes of one of a gang of one. -/
def Slice.leftHandler (x : Slice) : Slice := { x with handling := false, retired := x.retired + 1 }

/-- ERET of a gang that is its block's one slice (R387). -/
theorem State.eretDone_single {s : State} {g : Guard} {b : Block} {x : Slice} (hb : s.holds b) (hp : x.part_ g ≠ 0) : s.eretDone g b [x] =
      (s.modSlice b.uid x.num Slice.leftHandler).reExecuteAll b.uid fun y => [x.num].contains y.num := by
  have hact : ([x].filter fun x => x.part_ g != 0) = [x] := List.filter_eq_self.mpr fun y hy => by
    rw [List.mem_singleton.mp hy]; exact bne_iff_ne.mpr hp
  have hidle : ([x].filter fun x => x.part_ g == 0) = [] := List.filter_eq_nil_iff.mpr fun y hy => by
    rw [List.mem_singleton.mp hy]; simpa using hp
  have hev : s.retireEv b [] 1 = none := rfl
  simp only [State.eretDone, hact, hidle, hev, List.map_nil, List.map_cons, State.retire_nil hb, Option.isSome_none, Bool.false_eq_true,
    if_false, List.foldl_cons, List.foldl_nil]
  rfl

/-- A block whose slices that p picks have gone back to their checkpoints. -/
def Block.reExecuted (b : Block) (first : Nat) (p : Slice → Bool) : Block :=
  (b.dropPaths (b.slices.filter p)).putSlices (regroup first ((b.slices.filter p).map Slice.reExecute)).1

theorem State.holds_reExecuteAll {s : State} {b : Block} (hb : s.holds b) (p : Slice → Bool) :
    (s.reExecuteAll b.uid p).holds (b.reExecuted s.nextId p) := by
  have hblk : s.block? b.uid = some b := holds_block? hb
  simp only [State.reExecuteAll, hblk]
  exact block?_modBlock hb
    (fun y => (y.dropPaths (y.slices.filter p)).putSlices (regroup s.nextId ((b.slices.filter p).map Slice.reExecute)).1)
    fun y => (y.dropPaths_slices _).2

theorem Slice.reExecute_num (x : Slice) : x.reExecute.num = x.num := by
  unfold Slice.reExecute
  dsimp only
  split
  · rfl
  · rfl

/-- The one slice of a block that re-executes, under a fresh gang. -/
theorem Block.reExecuted_one {b : Block} {x : Slice} (hs : b.slices = [x]) {p : Slice → Bool} (hp : p x = true) (first : Nat) :
    ∃ n, (b.reExecuted first p).slices = [{ x.reExecute with gang := n }] := by
  have hpick : b.slices.filter p = [x] := by rw [hs, List.filter_cons_of_pos hp, List.filter_nil]
  obtain ⟨hslices, -⟩ := b.dropPaths_slices [x]
  obtain ⟨n, hn⟩ : ∃ n, (regroup first [x.reExecute]).1 = [{ x.reExecute with gang := n }] := ⟨_, rfl⟩
  refine ⟨n, ?_⟩
  rw [Block.reExecuted, hpick, List.map_cons, List.map_nil, hn]
  exact Block.putSlices_one (hslices.trans hs) x.reExecute_num

/-- A block's one slice after ERET: what its checkpoint holds, under some gang. -/
theorem State.now_eretDone {s : State} {g : Guard} {b : Block} {x : Slice} (hb : s.holds b) (hs : b.slices = [x])
    (hp : x.part_ g ≠ 0) : ∃ n, (s.eretDone g b [x]).now b x = { x.leftHandler.reExecute with gang := n } := by
  have hleft : (b.modSlice x.num Slice.leftHandler).slices = [x.leftHandler] := by
    simp only [Block.modSlice, hs, List.map_cons, List.map_nil, beq_self_eq_true, if_true]
  have hself : [x.num].contains x.leftHandler.num = true := List.contains_iff_mem.mpr (List.mem_singleton_self _)
  have hhold := State.holds_reExecuteAll (block?_modBlock hb (fun y => y.modSlice x.num Slice.leftHandler) fun _ => rfl)
    fun y => [x.num].contains y.num
  obtain ⟨n, hn⟩ := Block.reExecuted_one (p := fun y => [x.num].contains y.num) hleft hself
    (s.modBlock b.uid fun y => y.modSlice x.num Slice.leftHandler).nextId
  refine ⟨n, ?_⟩
  rw [State.eretDone_single hb hp]
  exact now_eq hhold (Block.dropPaths_slices _ _).2 (by rw [hn]; exact List.nodup_singleton _) (by rw [hn]; exact List.mem_singleton_self _)
    x.leftHandler.reExecute_num

theorem State.eretDone_mem {s : State} {g : Guard} {b : Block} {x : Slice} (hb : s.holds b) (hp : x.part_ g ≠ 0) : (s.eretDone g b [x]).mem = s.mem := by
  rw [State.eretDone_single hb hp, State.reExecuteAll]
  split
  · exact State.modSlice_mem ..
  · exact (State.modBlock_mem ..).trans (State.modSlice_mem ..)

/-- What a slice that re-executes its region takes from its checkpoint (R384), and what it keeps. -/
theorem Slice.reExecute_spec (x : Slice) :
    let y := x.reExecute
    y.atRep = x.ck.rep.header ∧ y.handling = x.handling ∧ y.pc = x.ck.rep.pc ∧ y.hdr = x.ck.rep.hdr ∧ y.hword = x.ck.rep.hword ∧
      y.wait = x.ck.rep.wait ∧ y.am = x.ck.am ∧ y.xm = x.ck.xm ∧ y.rs = x.ck.rs ∧ y.lp = x.ck.lp ∧ y.order = x.ck.order ∧
      y.fmt = x.ck.fmt ∧ y.clock = x.ck.clock ∧ y.v = (match x.ck.rep.hword with | some w => (x.trimLive (Hdr.live w)).v | none => x.v) ∧
      y.s = x.s ∧ y.p = x.p ∧ y.trapvec = x.trapvec ∧ y.trapcause = x.trapcause := by
  unfold Slice.reExecute
  dsimp only
  split
  · next w hw => simp only [hw, Slice.trimLive, and_self]
  · next hw => simp only [hw, and_self]

end Sys2Proof.Machine

end

section
/-! PROOFS. O46. -/

open Sys2Proof Sys2Proof.Machine

/-- Settles O46: the route of an event is the branch of `State.raise` that its code and the reporter's handler choose
(`raise_enters` and the lemmas beside it), and ERET goes back to the checkpoint (`Slice.reExecute_spec`). -/
theorem exceptionsAreTakenAndLeft : Obligations.ExceptionsAreTakenAndLeft := by
  refine ⟨fun s e b l r hi hr => ⟨raise_handling hi hr, fun hh => ⟨raise_pagef hi hr hh, raise_blocked hi hr hh,
    fun h hv hn hb => ⟨raise_enters_spec hi hr hh h hv hb hn, fun _ => raise_no_header hi hr hh h hv hb⟩,
    fun hv => ⟨fun h5 => ?overrun, fun h6 => ?stops⟩, raise_unrecoverable hi hr hh⟩⟩, fun g s b x hi hs hh hp hrep => ?eret⟩
  case overrun => exact (raise_without_handler hi hr hh hv (.inl h5)).trans (if_pos h5)
  case stops => exact (raise_without_handler hi hr hh hv (.inr h6)).trans (if_neg (by omega))
  case eret =>
    have hb := issuing_holds hi
    obtain ⟨n, hnow⟩ := State.now_eretDone hb hs hp
    have hex := exec_eret (g := g) hi (fun y hy => by rwa [List.mem_singleton.mp hy]) fun y hy _ => by
      rw [List.mem_singleton.mp hy]; exact hrep
    refine ⟨_, hex, State.eretDone_mem hb hp, ?_⟩
    rw [hnow]
    exact x.leftHandler.reExecute_spec

end

section
/-! PROOFS. A CINST.START that ends its own context (R332, R390) while the image of a unit of another context holds a block under the
number of its own: the instruction then retires in that image, where its slices need not stand as those of the gang did. -/

namespace Sys2Proof.Machine

namespace SavedTwin

/-- Every lane takes part. -/
def always : Guard := { neg := false, p := 0 }

/-- A slice that has opened its instance. -/
def made (x : Slice) : Slice := { x with wait := .made }

/-- The slice that has yet to open its own. -/
def second : Slice := { Place.slice 3 with num := 1 }

/-- The block of both, in context 0. -/
def block : Block :=
  { uid := 2, launch := 1, num := 0, unit := 0, round := .parallel, slices := [made (Place.slice 3), second]
    shares := [Share.entry 0 0 64], noFlush := false }

/-- The saved block of another launch under the same number; its first slice has ended. -/
def twin : Block := { block with launch := 9, slices := [{ made (Place.slice 3) with ended := true }, second] }

/-- A launch of a context with a saved unit. -/
def launch (id ctx : Nat) (saved : List Block) : Launch :=
  { id, rcd := { Place.rcd with ctx }, addr := 0, hq := 0, pos := 0, graph := none, age := 0
    waiting := [{ unit := 0, saved, todo := [], addr := 0, room := 0 }]
    nextUnit := 1, blocksLeft := 1, bars := [], tags := [], oau := [] }

/-- The gang at its CINST.START, after an announcement for job 0 whose digest will not be the instance's. -/
def state : State :=
  let s : State := { State.reset with
    cur := some { block := 2, gang := 3, only := none }, blocks := [block], launches := [launch 1 0 [], launch 9 1 [twin]] }
  s.modJob 0 fun j => { j with announced := [{ dev := 1, seq := 0, digest := 0 }] }

/-- The address that both slices name. -/
def address (x : Slice) : Nat := (svalOf (state.envOf block x) x (.small 1)).toNat

/-- The state once the second slice has opened its instance, which ends context 0. -/
def opened : State := (cinstTodo always block.slices).foldl (cinstOne (.s 2) address block) state

/-- The pcs of the saved slices that a step leaves. -/
def savedPcs : Out → List (List VA)
  | .next s => s.images.map fun b => b.slices.map fun x => x.pc
  | _ => []

theorem issues : state.issuing = some (block, block.slices) := by decide +kernel

theorem goes : state.goes (lenOf [.small 1]) = true := by decide +kernel

/-- No page holds the instruction up, nothing is raised, and both slices have opened their instances afterwards. -/
theorem opens : (!(cinstTodo always block.slices).any (fun x => state.anyBlocked (state.lrOf block).ctx (state.cinstReads block x (address x))) &&
    (cinstTrap state always address block block.slices).isNone && (cinstFull always block.slices).isNone &&
    (opened.takers always block block.slices).all (fun x => x.wait == .made)) = true := by decide +kernel

/-- The slice that has ended stays where it is, though the statement has it go on. -/
theorem retires_elsewhere : savedPcs (exec (.cinstStart always (.s 2) (.small 1)) state) ≠
    savedPcs (.next (opened.goOn block block.slices (lenOf [.small 1]))) := by decide +kernel

end SavedTwin

end Sys2Proof.Machine

end

section
/-! PROOFS. O43. -/

open Sys2Proof Sys2Proof.Machine

/-- Refutes O43: of CINST.START it has every state whose slices have opened their instances go on n words. Where the digests differ,
START ends its context and its block is gone (R332, R390); should the image of another context's unit hold a block under the same number,
`State.block?` finds that one, whose slices the instruction then retires as they stand: one that has ended does not move
(`SavedTwin.retires_elsewhere`). A machine that gives every block a number of its own does not come there; the statement asks no such
thing of its states. -/
theorem not_collectivesComplete : ¬ Obligations.CollectivesComplete := by
  intro h
  obtain ⟨-, -, -, -, -, -, hstart, -⟩ := h
  exact SavedTwin.retires_elsewhere (congrArg SavedTwin.savedPcs
    (hstart SavedTwin.always (.s 2) (.small 1) SavedTwin.state SavedTwin.block _ SavedTwin.issues SavedTwin.goes SavedTwin.opens))

end

section
/-! PROOFS. Traffic of other modules (R266, R281, R283, R329, R332, R333, R339 to R344): where an instance admits it, that a request is
performed once, and what each kind of traffic does. -/

namespace Sys2Proof.Machine

/-! ## Messages and answers -/

/-- Sending changes neither memory nor the record of what was served. -/
theorem State.sendFlit_rest (s : State) (p : Nat) (slot : Bool) (kind vc : Nat) (text : List Byte) :
    (s.sendFlit p slot kind vc text).mem = s.mem ∧ (s.sendFlit p slot kind vc text).fabric.served = s.fabric.served := by
  unfold State.sendFlit
  dsimp only
  split
  · exact ⟨rfl, rfl⟩
  · split
    · exact ⟨rfl, rfl⟩
    · exact ⟨rfl, rfl⟩

theorem State.sendNow_rest (s : State) (p kind vc : Nat) (text : List Byte) :
    (s.sendNow p kind vc text).mem = s.mem ∧ (s.sendNow p kind vc text).fabric.served = s.fabric.served := by
  unfold State.sendNow
  split
  · exact State.sendFlit_rest ..
  · exact ⟨rfl, rfl⟩

theorem State.carry_rest (s : State) (p vc : Nat) :
    (s.carry p vc).mem = s.mem ∧ (s.carry p vc).fabric.served = s.fabric.served := by
  refine List.foldlRecOn (motive := fun t : State => t.mem = s.mem ∧ t.fabric.served = s.fabric.served) _ _ ⟨rfl, rfl⟩ fun t ht x _ => ?_
  obtain ⟨hmem, hserved⟩ := State.sendNow_rest t p 1 vc x
  exact ⟨hmem.trans ht.1, hserved.trans ht.2⟩

theorem State.post_rest (s : State) (dst : Nat) (page : Option Nat) (m : Msg) :
    (s.post dst page m).mem = s.mem ∧ (s.post dst page m).fabric.served = s.fabric.served := by
  unfold State.post
  split
  · exact State.carry_rest ..
  · exact ⟨rfl, rfl⟩

/-- An answer is recorded under its request's origin, and changes no memory. -/
theorem State.answer_rest (s : State) (o : Origin) (m : Msg) :
    (s.answer o m).mem = s.mem ∧ (s.answer o m).fabric.served = (o.src, o.tag, m) :: s.fabric.served :=
  State.post_rest ..

/-! ## The gate of an instance (R333) -/

section
variable {s : State} {job seq : Nat} {i : Instr} {f : State → State}

theorem State.gate_open (hb : (s.job job).bound = true) (ha : (s.job job).accepts seq = true) : s.gate job seq i f = f s := by
  simp only [State.gate, hb, ha, Bool.not_true, Bool.false_eq_true, if_false, if_true]

theorem State.gate_next (hb : (s.job job).bound = true) (ha : (s.job job).accepts seq = false) (hs : seq = seqAdd (s.job job).cur 1) :
    s.gate job seq i f = s.modJob job fun j => { j with buffered := j.buffered ++ [i] } := by
  have hgate : s.gate job seq i f = if seq = seqAdd (s.job job).cur 1 then s.modJob job fun j => { j with buffered := j.buffered ++ [i] } else s := by
    simp only [State.gate, hb, ha, Bool.not_true, Bool.false_eq_true, if_false]
  exact hgate.trans (if_pos hs)

end

/-- Traffic that a gate lets through has its effect where its instance is open, and is kept where its instance is the next. -/
theorem gated {job seq : Nat} {i : Instr} {ok : State → Prop} {f g : State → State} (hexec : ∀ s, exec i s = .next (s.gate job seq i g))
    (hg : ∀ s, ok s → g s = f s) (s : State) (hb : (s.job job).bound = true) :
    ((s.job job).accepts seq = true → ok s → exec i s = .next (f s)) ∧
      ((s.job job).accepts seq = false → seq = seqAdd (s.job job).cur 1 →
        exec i s = .next (s.modJob job fun j => { j with buffered := j.buffered ++ [i] })) :=
  ⟨fun ha hok => by rw [hexec, State.gate_open hb ha, hg s hok], fun ha hs => by rw [hexec, State.gate_next hb ha hs]⟩

/-! ## Requests, each performed once (R337, R352) -/

/-- The answer on record to a request. -/
def State.recorded (s : State) (o : Origin) : Option (Nat × Nat × Msg) := s.fabric.served.find? fun x => x.1 == o.src && x.2.1 == o.tag

section
variable {s : State} {o : Origin} {f : State → State}

theorem State.once_fresh (job : Nat) (hs : s.recorded o = none) (hstop : (o.src, o.cmd) ∉ s.fabric.stopped) : s.once o job f = f s := by
  unfold State.recorded at hs
  simp only [State.once, hs, List.contains_eq_mem, hstop, decide_false, Bool.false_eq_true, if_false]

theorem State.once_stopped (job : Nat) (hs : s.recorded o = none) (hstop : (o.src, o.cmd) ∈ s.fabric.stopped) :
    s.once o job f = s.answer o (.refuse (some job) o.tag) := by
  unfold State.recorded at hs
  simp only [State.once, hs, List.contains_eq_mem, hstop, decide_true, if_true]

theorem State.once_recorded (job : Nat) {m : Msg} (hs : s.recorded o = some (o.src, o.tag, m)) : s.once o job f = s.post o.src none m := by
  unfold State.recorded at hs
  simp only [State.once, hs]

end

/-! ## Announcements (R332) -/

theorem State.modJob_congr {s : State} {job : Nat} {f g : Job → Job} (h : f (s.job job) = g (s.job job)) :
    s.modJob job f = s.modJob job g := by
  have hmod : s.fabric.jobs.modify job f = s.fabric.jobs.modify job g := by
    refine List.ext_getElem? fun k => ?_
    simp only [List.getElem?_modify]
    by_cases hk : job = k
    · subst hk
      cases hj : s.fabric.jobs[job]? with
      | none => rfl
      | some j =>
        have hjob : s.job job = j := by rw [State.job, List.getD_eq_getElem?_getD, hj, Option.getD_some]
        rw [hjob] at h
        simp only [if_true, h, Option.map_eq_map, Option.map_some]
    · simp only [hk, if_false]
  rw [State.modJob, hmod, State.modJob]

/-- A first announcement of a member for an instance is kept; one that differs from the instance that is open ends the context. -/
theorem exec_instanceAnnounceReceive {s : State} {job m seq : Nat} {d : BitVec 32} (h : (s.job job).heard m seq = false) :
    exec (.instanceAnnounceReceive job m seq d) s =
      .next (let t := s.modJob job fun j => { j with announced := { dev := m, seq := seq % 2 ^ 16, digest := d } :: j.announced }
        if (s.job job).bound && (s.job job).opened ≠ 0 && d != (s.job job).digest then t.faultCtx (s.job job).ctx digestEv else t) := by
  have hkeep : (s.modJob job fun j =>
      if j.heard m seq then j else { j with announced := { dev := m, seq := seq % 2 ^ 16, digest := d } :: j.announced }) =
      s.modJob job fun j => { j with announced := { dev := m, seq := seq % 2 ^ 16, digest := d } :: j.announced } :=
    State.modJob_congr (if_neg (by rw [h]; decide))
  change execInstanceAnnounceReceive job m seq d s = _
  simp only [execInstanceAnnounceReceive, hkeep]

/-! ## Physical requests of peers (R266, R281, R283) -/

section
variable {s : State} {src tag pa n : Nat} {w read : Bool} {r : RemoteReq}

theorem State.peerServe_recorded {m : Msg} (hs : s.recorded ⟨src, tag, 0⟩ = some (src, tag, m)) :
    s.peerServe src tag pa n w read r = s.post src none m := by
  unfold State.recorded at hs
  simp only [State.peerServe, hs]

variable (hs : s.recorded ⟨src, tag, 0⟩ = none)
include hs

theorem State.peerServe_refused (ha : s.peerAdmits src (peerPhys pa) n w = false) :
    s.peerServe src tag pa n w read r = s.post src none (.refuse none tag) := by
  unfold State.recorded at hs
  simp only [State.peerServe, hs, ha, Bool.not_false, if_true]

variable (ha : s.peerAdmits src (peerPhys pa) n w = true)
include ha

theorem State.peerServe_frozen (hf : frozenPage (peerPhys pa) ∈ s.mem.frozen) :
    s.peerServe src tag pa n w read r = s.post src none (.retry none tag) := by
  unfold State.recorded at hs
  simp only [State.peerServe, hs, ha, List.contains_eq_mem, hf, decide_true, Bool.not_true, Bool.false_eq_true, if_false, if_true]

variable (hf : frozenPage (peerPhys pa) ∉ s.mem.frozen)
include hf

theorem State.peerServe_poisoned (hr : read = true) (hp : s.poisoned (peerPhys pa) n = true) :
    s.peerServe src tag pa n w read r = s.post src none (.poisoned none tag) := by
  unfold State.recorded at hs
  simp only [State.peerServe, hs, ha, List.contains_eq_mem, hf, hr, hp, decide_false, Bool.not_true, Bool.and_self, Bool.false_eq_true,
    if_false, if_true]

theorem State.peerServe_done (hp : read = false ∨ s.poisoned (peerPhys pa) n = false) :
    s.peerServe src tag pa n w read r = (s.peerDo (peerPhys pa) r).2.answer ⟨src, tag, 0⟩ (.reply none tag (s.peerDo (peerPhys pa) r).1) := by
  have hclean : (read && s.poisoned (peerPhys pa) n) = false := by
    rcases hp with h | h
    · rw [h, Bool.false_and]
    · rw [h, Bool.and_false]
  unfold State.recorded at hs
  simp only [State.peerServe, hs, ha, List.contains_eq_mem, hf, hclean, decide_false, Bool.not_true, Bool.false_eq_true, if_false]

end

/-- The answers to a physical request, in the order in which they are looked for; what answers it is recorded. -/
theorem peerRequest_spec {s : State} {r : RemoteReq} {src tag pa n : Nat} {w read : Bool}
    (hexec : exec (.remoteRequestReceive r) s = .next (s.peerServe src tag pa n w read r)) :
    (∀ m, s.recorded ⟨src, tag, 0⟩ = some (src, tag, m) → exec (.remoteRequestReceive r) s = .next (s.post src none m)) ∧
    (s.recorded ⟨src, tag, 0⟩ = none →
      (s.peerAdmits src (peerPhys pa) n w = false → exec (.remoteRequestReceive r) s = .next (s.post src none (.refuse none tag))) ∧
      (s.peerAdmits src (peerPhys pa) n w = true →
        (frozenPage (peerPhys pa) ∈ s.mem.frozen → exec (.remoteRequestReceive r) s = .next (s.post src none (.retry none tag))) ∧
        (frozenPage (peerPhys pa) ∉ s.mem.frozen →
          (read = true → s.poisoned (peerPhys pa) n = true →
            exec (.remoteRequestReceive r) s = .next (s.post src none (.poisoned none tag))) ∧
          (read = false ∨ s.poisoned (peerPhys pa) n = false →
            exec (.remoteRequestReceive r) s =
              .next ((s.peerDo (peerPhys pa) r).2.answer ⟨src, tag, 0⟩ (.reply none tag (s.peerDo (peerPhys pa) r).1)))))) ∧
    ∀ (t : State) (m : Msg), (t.answer ⟨src, tag, 0⟩ m).mem = t.mem ∧
      (t.answer ⟨src, tag, 0⟩ m).fabric.served = (src, tag, m) :: t.fabric.served := by
  rw [hexec]
  exact ⟨fun m hs => congrArg _ (State.peerServe_recorded hs), fun hs => ⟨fun ha => congrArg _ (State.peerServe_refused hs ha),
    fun ha => ⟨fun hf => congrArg _ (State.peerServe_frozen hs ha hf), fun hf =>
      ⟨fun hr hp => congrArg _ (State.peerServe_poisoned hs ha hf hr hp), fun hp => congrArg _ (State.peerServe_done hs ha hf hp)⟩⟩⟩,
    fun t m => State.answer_rest t ⟨src, tag, 0⟩ m⟩

end Sys2Proof.Machine

end

section
/-! PROOFS. O44. -/

open Sys2Proof Sys2Proof.Machine

/-- Settles O44: each kind of traffic goes through the gate of its instance (`gated`) and is performed once (`State.once_fresh`); a
physical request is answered by the first of its answers that fits (`peerRequest_spec`). -/
theorem collectiveTrafficIsHandled : Obligations.CollectiveTrafficIsHandled := by
  refine ⟨⟨fun s job m seq d hheard => ?announce, fun o job seq y rank m e => gated (fun _ => rfl) fun s hok => ?exponent,
    fun o job seq y rank m e => gated (fun _ => rfl) fun s hok => ?agreed, fun job seq y p m => gated (fun _ => rfl) fun s hok => ?part,
    fun job seq owner y f => gated (fun _ => rfl) fun s hok => ?flags, fun job seq owner y => gated (fun _ => rfl) fun s _ => rfl,
    fun o job seq va n p => gated (fun _ => rfl) fun s hok => ?landing, fun s l data hl hlen => ?landed,
    fun o job seq va d => gated (fun _ => rfl) fun s hok => ?write, fun o job seq va n => gated (fun _ => rfl) fun s hok => ?read,
    fun o job seq va d => gated (fun _ => rfl) fun s hok => ?refused, fun o job seq va d => gated (fun _ => rfl) fun s hok => ?stopped,
    fun o job seq va d m => gated (fun _ => rfl) fun s hok => State.once_recorded job hok⟩, fun s r src tag pa n w read hr => ?physical⟩
  case announce =>
    rw [exec_instanceAnnounceReceive hheard]
    refine ⟨fun h => congrArg _ (if_neg ?_), fun hb ho hd => congrArg _ (if_pos ?_)⟩
    · rcases h with h | h | h
      · simp [h]
      · simp [h]
      · simp [h]
    · simp [hb, ho, hd]
  case exponent =>
    obtain ⟨⟨hrec, hstop⟩, halign, hm, hallowed, hexp, hroom⟩ := hok
    simp only [hm, Bool.false_eq_true, if_false]
    rw [State.once_fresh job hrec hstop]
    simp only [halign, hallowed, hroom, hexp, ne_eq, not_true_eq_false, decide_false, Bool.not_true, Bool.or_self, Bool.false_eq_true, if_false]
  case agreed => simp only [hok, if_true]
  case part =>
    obtain ⟨⟨hrec, hstop⟩, halign, hm, hallowed, hroom⟩ := hok
    simp only [hm]
    rw [State.once_fresh job hrec hstop]
    simp only [halign, hallowed, hroom, ne_eq, not_true_eq_false, decide_false, Bool.not_true, Bool.or_self, Bool.false_eq_true, if_false]
  case flags => simp only [List.contains_eq_mem, hok, decide_false, Bool.false_eq_true, if_false]
  case landing =>
    obtain ⟨⟨hrec, hstop⟩, hnew, hat⟩ := hok
    have hnone : s.fabric.landings.any (fun l => l.orig == o) = false := List.any_eq_false.mpr fun l hl => by simp [hnew l hl]
    rw [State.once_fresh job hrec hstop]
    simp only [hnone, hat, Bool.false_eq_true, if_false]
  case landed =>
    change execMcastLandingComplete l.id data s = _
    simp only [execMcastLandingComplete, hl, hlen, if_true]
  case write =>
    obtain ⟨⟨hrec, hstop⟩, hrange, hroom⟩ := hok
    rw [State.once_fresh job hrec hstop]
    simp only [hrange, hroom, Bool.not_true, Bool.false_eq_true, if_false]
  case read =>
    obtain ⟨⟨hrec, hstop⟩, hrange, hheld, hpoison⟩ := hok
    rw [State.once_fresh job hrec hstop]
    simp only [hrange, hheld, hpoison, Bool.not_true, Bool.false_eq_true, if_false]
  case refused =>
    obtain ⟨⟨hrec, hstop⟩, hrange⟩ := hok
    rw [State.once_fresh job hrec hstop]
    simp only [hrange, Bool.not_false, if_true]
    rfl
  case stopped => exact State.once_stopped job hok.1 hok.2
  case physical =>
    rcases hr with ⟨k, rfl, rfl, rfl, rfl⟩ | ⟨d, rfl, rfl, rfl, rfl⟩ | ⟨ty, op, a, c, rfl, rfl, rfl, rfl⟩ | ⟨v, rfl, rfl, rfl, rfl⟩ |
      ⟨e, v, rfl, rfl, rfl, rfl⟩
    · exact peerRequest_spec rfl
    · exact peerRequest_spec rfl
    · exact peerRequest_spec rfl
    · exact peerRequest_spec rfl
    · exact peerRequest_spec rfl

end

section
/-! PROOFS. A span that leaves its frame (R314) while memory lists a T1 key beyond the 512 GiB that T1 has: `t1Pa` looks at the low 39 bits
of a key only, so that such a key stands for a byte of the frame too, and its byte is the one that is written to T2. -/

namespace Sys2Proof.Machine

namespace AliasedFrame

/-- Memory that lists one byte, 512 GiB beyond the first byte of T1. -/
def state : State := { State.reset with mem := { Memory.reset with ram := [(2 ^ 39, 5)] } }

/-- A span whose copy lies in the first frame of T1. -/
def span : Span := { num := 0, st := .evicting, frame := some 0, cap := 0, pol := 0, seq := 1, cocoon := [], refetch := false }

theorem state_wf : state.mem.wf = true := by decide

/-- The key beyond T1 stands for the first byte of the frame. -/
theorem aliases : t1Off 0 (2 ^ 39) = some 0 := by decide

/-- Its byte leaves for T2 in place of the frame's own, which is 0. -/
theorem leaves_other_byte : (state.spanLeaves span).mem.peek (t2Key (span.num * 2 ^ 16 + 0)) ≠ state.mem.peek (t1Key false (0 + 0)) := by
  decide

end AliasedFrame

end Sys2Proof.Machine

end

section
/-! PROOFS. O41. -/

open Sys2Proof Sys2Proof.Machine

/-- Refutes O41: it has the copy of every span that leaves its frame go back to T2 byte for byte, over any memory whose lists are in
order (`Memory.wf`). Such a memory may list a key of T1's range at 2^39 or beyond, which stands for no byte of T1; `t1Off` takes it for the
byte of the frame that has its low 39 bits, and the span's copy then carries its byte (`AliasedFrame.leaves_other_byte`). -/
theorem not_spansCarryTheirBytes : ¬ Obligations.SpansCarryTheirBytes := by
  intro h
  obtain ⟨⟨-, -, -, hleaves⟩, -⟩ := h
  exact AliasedFrame.leaves_other_byte (hleaves AliasedFrame.state AliasedFrame.span 0 0 AliasedFrame.state_wf rfl (by decide) (by decide)
    (by decide) (by decide))

end

section
/-! PROOFS. What a store leaves as it was (R225, R227, R244, R266): bytes of other keys, and registers. -/

namespace Sys2Proof.Machine

/-! ## One byte of memory, and what is held of it -/

/-- The byte of a key and the held bytes of that key, in their order, are the same in both. -/
structure Memory.SameAt (m n : Memory) (key : Nat) : Prop where
  peek : n.peek key = m.peek key
  held : n.held.filter (fun h => h.key == key) = m.held.filter fun h => h.key == key

namespace Memory.SameAt

variable {m n : Memory} {key : Nat}

theorem refl (m : Memory) (key : Nat) : m.SameAt m key := ⟨rfl, rfl⟩

theorem trans {l : Memory} (h : m.SameAt n key) (k : n.SameAt l key) : m.SameAt l key :=
  ⟨k.peek.trans h.peek, k.held.trans h.held⟩

theorem of_eq (hr : n.ram = m.ram) (hh : n.held = m.held) : m.SameAt n key :=
  ⟨by rw [Memory.peek, Memory.peek, hr], by rw [hh]⟩

/-- Every observer reads the key alike. -/
theorem readAs (h : m.SameAt n key) (o : Option Observer) : n.readAs o key = m.readAs o key := by
  cases o with
  | none => exact h.peek
  | some o =>
    have hfind (l : List HeldByte) : l.find? (fun h => h.key == key && h.sees o) =
        (l.filter fun h => h.key == key).find? fun h => h.sees o := by
      simp only [List.find?_filter, Bool.decide_and, Bool.decide_eq_true]
    simp only [Memory.readAs, hfind, h.held, h.peek]

theorem mem_held (h : m.SameAt n key) {x : HeldByte} (hx : x ∈ n.held) (hk : x.key = key) : x ∈ m.held := by
  have hfiltered : x ∈ m.held.filter fun h => h.key == key := h.held ▸ List.mem_filter.mpr ⟨hx, beq_iff_eq.mpr hk⟩
  exact (List.mem_filter.mp hfiltered).1

/-- A byte of another key is written in the package order. -/
theorem written {k : Nat} {b : Byte} (hk : k ≠ key) (hr : n.ram = Cells.set 0 m.ram k b)
    (hh : n.held = m.held.filter fun h => h.key != k) : m.SameAt n key := by
  refine ⟨by rw [Memory.peek, hr, Cells.get_set_other _ _ _ hk.symm]; rfl, ?_⟩
  rw [hh, List.filter_filter]
  refine List.filter_congr fun x _ => ?_
  by_cases hx : x.key = key
  · simp [hx, hk.symm]
  · simp [hx]

theorem store (m : Memory) (nt : Bool) (c : CachePlace) {k : Nat} (b : Byte) (hk : k ≠ key) : m.SameAt (m.store nt c k b) key :=
  written hk (m.store_ram nt c k b) (m.store_held nt c k b)

theorem poke (m : Memory) {k : Nat} (b : Byte) (hk : k ≠ key) : m.SameAt (m.poke k b) key :=
  written hk (m.pokeAt_ram .home k b) (m.pokeAt_held .home k b)

theorem bankPoke (m : Memory) {k : Nat} (b : Byte) (hk : k ≠ key) : m.SameAt (m.bankPoke k b) key := by
  unfold Memory.bankPoke
  split
  · exact of_eq rfl rfl
  · exact ⟨Cells.get_set_other 0 m.ram b hk.symm, rfl⟩

theorem hold (m : Memory) {h : HeldByte} (hk : h.key ≠ key) : m.SameAt (m.hold h) key := by
  refine ⟨rfl, ?_⟩
  rw [Memory.hold, List.filter_cons, if_neg (by simpa using hk)]

/-- A publication that chooses no held byte of the key. -/
theorem publish {p : HeldByte → Bool} (hp : ∀ h ∈ m.held, h.key = key → p h = false) : m.SameAt (m.publish p) key := by
  have hfold : ∀ l : List HeldByte, (∀ h ∈ l, h.key = key → p h = false) →
      ({ m with held := l } : Memory).SameAt (l.foldr (fun (h : HeldByte) (n : Memory) => if p h then n.store h.nt h.place h.key h.val else
        { n with held := h :: n.held }) { m with held := [] }) key := by
    intro l hl
    induction l with
    | nil => exact refl ..
    | cons x l ih =>
      obtain ⟨hx, hrest⟩ := List.forall_mem_cons.mp hl
      have hbelow := ih hrest
      rw [List.foldr_cons]
      by_cases hk : x.key = key
      · rw [if_neg (by simp [hx hk])]
        exact ⟨hbelow.peek, by simp only [List.filter_cons, hbelow.held]⟩
      · have hskip : ({ m with held := x :: l } : Memory).SameAt { m with held := l } key := ⟨rfl, by simp [hk]⟩
        refine (hskip.trans hbelow).trans ?_
        split
        · exact store _ _ _ _ hk
        · exact hold _ hk
  exact hfold m.held hp

end Memory.SameAt

/-! ## Keys -/

/-- The keys of every access are the same in both (R219, R303). -/
structure State.SameKeys (s t : State) : Prop where
  devno : t.fabric.devno = s.fabric.devno
  frame : ∀ n, (t.span n).frame = (s.span n).frame

namespace State.SameKeys

theorem same {s t : State} (hd : t.fabric.devno = s.fabric.devno) (hs : t.spans = s.spans) : s.SameKeys t :=
  ⟨hd, fun n => by rw [State.span, State.span?, hs]; rfl⟩

theorem refl (s : State) : s.SameKeys s := same rfl rfl

theorem trans {s t u : State} (h : s.SameKeys t) (k : t.SameKeys u) : s.SameKeys u :=
  ⟨k.devno.trans h.devno, fun n => (k.frame n).trans (h.frame n)⟩

theorem keyOf {s t : State} (h : s.SameKeys t) (p : Phys) (i : Nat) : t.keyOf p i = s.keyOf p i := by
  simp only [State.keyOf, State.copyKey, h.devno, h.frame]

end State.SameKeys

theorem Span.append_num (p : Span) (e : CocoonEntry) : (p.append e).num = p.num := by
  have hc : ∀ p : Span, p.compacted.num = p.num := fun p => by unfold Span.compacted; dsimp only; split <;> rfl
  unfold Span.append
  dsimp only
  split <;> split <;> simp only [hc]

theorem Span.append_frame (p : Span) (e : CocoonEntry) : (p.append e).frame = p.frame := by
  have hc : ∀ p : Span, p.compacted.frame = p.frame := fun p => by unfold Span.compacted; dsimp only; split <;> rfl
  unfold Span.append
  dsimp only
  split <;> split <;> simp only [hc]

theorem State.span_setSpan (s : State) (p : Span) (n : Nat) : (s.setSpan p).span n = if p.num = n then p else s.span n := by
  unfold State.span State.span? State.setSpan
  by_cases hp : p.num = n
  · simp [hp]
  · rw [if_neg hp, List.find?_cons_of_neg (by simpa using hp), List.find?_filter]
    congr 2
    funext q
    by_cases hq : q.num = n
    · simp [hq, Ne.symm hp]
    · simp [hq]

theorem State.SameKeys.appendAll (s : State) (es : List (Nat × CocoonEntry)) : s.SameKeys (s.appendAll es) := by
  refine List.foldlRecOn (motive := s.SameKeys) es _ (.refl s) fun t ht e _ => ht.trans ⟨rfl, fun n => ?_⟩
  rw [State.span_setSpan]
  split
  · next hn => rw [Span.append_frame, ← hn, Span.append_num, State.span_num]
  · rfl

theorem State.SameKeys.travels (s : State) (c : Nat) (p : Phys) (n : Nat) (w : Bool) : s.SameKeys (s.travels c p n w) := by
  have hflit (s : State) (p : Nat) (slot : Bool) (kind vc : Nat) (text : List Byte) : (s.sendFlit p slot kind vc text).spans = s.spans := by
    unfold State.sendFlit
    dsimp only
    split
    · rfl
    · split <;> rfl
  have hnow (s : State) (p kind vc : Nat) (text : List Byte) : (s.sendNow p kind vc text).spans = s.spans := by
    unfold State.sendNow
    split
    exacts [hflit .., rfl]
  have hcarry (s : State) (k : Nat) : (s.carry k 0).spans = s.spans :=
    List.foldlRecOn (motive := fun t : State => t.spans = s.spans) _ _ rfl fun t ht x _ => (hnow t k 1 0 x).trans ht
  have hsent : s.SameKeys (s.sendOut p w) := by
    unfold State.sendOut
    split
    · exact List.foldlRecOn (motive := s.SameKeys) _ _ (refl s) fun t ht k _ =>
        ht.trans (same (State.Spreads.carry t k 0).devno (hcarry t k))
    · exact refl s
  unfold State.travels
  dsimp only
  split
  · exact hsent
  · exact hsent.trans (same rfl rfl)

end Sys2Proof.Machine

end

section
/-! PROOFS. One store, and those of a gang, beside keys that they do not reach. -/

namespace Sys2Proof.Machine

/-! ## A step that spares some keys and every register -/

/-- From s to t what is read at the keys K stays, the keys of accesses too, and every register of a resident block. -/
structure State.SparesKeys (s t : State) (K : Nat → Prop) : Prop where
  mem : ∀ key, K key → s.mem.SameAt t.mem key
  keys : s.SameKeys t
  regs : ∀ b, s.holds b → ∃ (b' : Block) (h : Slice → Slice), t.holds b' ∧ b'.uid = b.uid ∧
    (∀ x ∈ b.slices, x.SameRegs (h x)) ∧ b'.slices = b.slices.map h

namespace State.SparesKeys

variable {s t u : State} {K : Nat → Prop}

/-- What spares every byte and register spares these. -/
theorem of_spares (h : s.Spares t) (hk : s.SameKeys t) (K : Nat → Prop) : s.SparesKeys t K := ⟨fun _ _ => .of_eq h.ram h.held, hk, h.regs⟩

theorem refl (s : State) (K : Nat → Prop) : s.SparesKeys s K := of_spares (.refl s) (.refl s) K

theorem trans (h : s.SparesKeys t K) (k : t.SparesKeys u K) : s.SparesKeys u K := by
  refine ⟨fun key hkey => (h.mem key hkey).trans (k.mem key hkey), h.keys.trans k.keys, fun b hb => ?_⟩
  obtain ⟨b1, f, hb1, hu1, hf, hs1⟩ := h.regs b hb
  obtain ⟨b2, g, hb2, hu2, hg, hs2⟩ := k.regs b1 hb1
  exact ⟨b2, g ∘ f, hb2, hu2.trans hu1, fun x hx => (hf x hx).trans (hg _ (hs1 ▸ List.mem_map_of_mem hx)),
    by rw [hs2, hs1, List.map_map]⟩

/-- A change of memory alone. -/
theorem setMem {m : Memory} (h : ∀ key, K key → s.mem.SameAt m key) : s.SparesKeys { s with mem := m } K :=
  ⟨h, .same rfl rfl, (State.Spares.refl s).regs⟩

theorem modSlice (s : State) (uid n : Nat) {f : Slice → Slice} (hf : ∀ x : Slice, x.SameRegs (f x)) (K : Nat → Prop) :
    s.SparesKeys (s.modSlice uid n f) K :=
  of_spares (.modSlice s uid n f hf) (.same (by rw [State.modSlice_fabric]) (State.modSlice_spans ..)) K

/-- A change of a block's shares, which hold no registers. -/
theorem modShare (s : State) (uid n : Nat) (f : Share → Share) (K : Nat → Prop) : s.SparesKeys (s.modShare uid n f) K := by
  refine ⟨fun _ _ => .of_eq (by rw [State.modShare_mem]) (by rw [State.modShare_mem]), .same (by rw [State.modShare_fabric]) (State.modShare_spans ..),
    fun b hb => ⟨_, id, Keeps.modBlock_holds (uid := uid) hb (fun b => b.modShare n f) fun _ => rfl, ?_, fun x _ => .refl x, ?_⟩⟩
  · split <;> rfl
  · split <;> simp [Block.modShare]

theorem rememberAll (s : State) (c : Nat) (l : List Acc) (K : Nat → Prop) : s.SparesKeys (s.rememberAll c l) K := by
  obtain ⟨x, hx⟩ := s.rememberAll_sameButTlb c l
  rw [hx]
  exact setMem fun _ _ => .of_eq rfl rfl

theorem travels (s : State) (c : Nat) (p : Phys) (n : Nat) (w : Bool) (K : Nat → Prop) : s.SparesKeys (s.travels c p n w) K :=
  of_spares (.travels ..) (.travels ..) K

theorem tagAccess (s : State) (b : Block) (p : Phys) (n : Nat) (w : Bool) (K : Nat → Prop) : s.SparesKeys (s.tagAccess b p n w) K := by
  refine of_spares (.tagAccess ..) ?_ K
  unfold State.tagAccess
  split
  · exact .refl s
  · exact List.foldlRecOn (motive := s.SameKeys) _ _ (.refl s) fun t ht _ _ => ht.trans (.same rfl rfl)

theorem storeMark (s : State) (b : Block) (x : Slice) (p : Phys) (d : List (Option Byte)) (K : Nat → Prop) :
    s.SparesKeys (s.storeMark b x p d) K := by
  unfold State.storeMark
  split
  · refine of_spares (.storeTick ..) (.same ?_ ?_) K
    · rw [State.storeTick, State.modSlice_fabric]
    · rw [State.storeTick, State.modSlice_spans]
  · exact refl s K

theorem appendAll (s : State) (es : List (Nat × CocoonEntry)) (K : Nat → Prop) : s.SparesKeys (s.appendAll es) K := by
  have hsame : (s.appendAll es).mem = s.mem ∧ (s.appendAll es).blocks = s.blocks :=
    List.foldlRecOn (motive := fun t : State => t.mem = s.mem ∧ t.blocks = s.blocks) es _ ⟨rfl, rfl⟩ fun _ ht _ _ => ht
  exact of_spares (.same (by rw [hsame.1]) (by rw [hsame.1]) hsame.2) (.appendAll s es) K

end State.SparesKeys

/-! ## One byte of an access -/

/-- A byte of the on-chip map that lies in a scratchpad window (R222). -/
def scratchPlace (pa : Nat) : Prop := 2 ^ 20 ≤ pa % 2 ^ 22 ∧ pa % 2 ^ 22 < 2 ^ 21

/-- What holds a byte of a scratchpad window is a slot. -/
theorem opmLoc_of_scratchPlace {pa : Nat} (h : scratchPlace pa) (s : State) (c : Nat) {o : OpmLoc} (ho : s.opmLoc c pa = some o) :
    ∃ blk share off, o = .scratch blk share off := by
  obtain ⟨hlow, hhigh⟩ := h
  simp only [State.opmLoc, if_neg (Nat.not_lt.mpr hlow), if_pos hhigh] at ho
  obtain ⟨x, -, hx⟩ := List.exists_of_findSome?_eq_some ho
  split at hx
  · exact ⟨_, _, _, (Option.some.inj hx).symm⟩
  · cases hx

/-- A byte that a slot holds lies in a scratchpad window. -/
theorem scratchPlace_of_opmLoc {s : State} {c pa blk share off : Nat} (h : s.opmLoc c pa = some (.scratch blk share off)) : scratchPlace pa := by
  unfold State.opmLoc at h
  dsimp only at h
  split at h
  · obtain ⟨x, -, hx⟩ := List.exists_of_findSome?_eq_some h
    obtain ⟨y, -, hy⟩ := Option.bind_eq_some_iff.mp hx
    split at hy <;> cases hy
  · split at h
    · next hlow hhigh => exact ⟨Nat.not_lt.mp hlow, hhigh⟩
    · split at h
      · obtain ⟨x, -, hx⟩ := List.exists_of_findSome?_eq_some h
        split at hx <;> cases hx
      · cases h

/-- A byte of a page reaches none of the keys K, on neither plane of a DUP2 page, and no register: on-chip it lies in a scratchpad
window. -/
structure State.Misses (s : State) (p : Phys) (i : Nat) (K : Nat → Prop) : Prop where
  place : ¬ K (s.keyOf p i)
  partner : ∀ q, partnerOf p.pte = some q → ¬ K (switchKey q (p.pa + i))
  scratch : Pte.tgt p.pte = 5 → scratchPlace (p.pa + i)

theorem State.Misses.sameKeys {s t : State} {p : Phys} {i : Nat} {K : Nat → Prop} (h : s.Misses p i K) (hk : s.SameKeys t) : t.Misses p i K :=
  { h with place := by rw [hk.keyOf]; exact h.place }

namespace State.SparesKeys

variable {K : Nat → Prop}

theorem mirror (s : State) {p : Phys} {i : Nat} (h : ∀ q, partnerOf p.pte = some q → ¬ K (switchKey q (p.pa + i))) (x : Byte) :
    s.SparesKeys (s.mirror p i x) K := by
  unfold State.mirror
  split
  · next q hq => exact setMem fun key hkey => .poke _ _ fun e => h q hq (e ▸ hkey)
  · exact refl s K

theorem writeByte (s : State) (b : Block) (sl : Slice) (hold : Option Nat) (seq : Nat) (nt : Bool) (c : Option CachePlace) {p : Phys}
    {i : Nat} (h : s.Misses p i K) (x : Byte) : s.SparesKeys (s.writeByte b sl hold seq nt c p i x) K := by
  unfold State.writeByte
  refine (mirror s h.partner x).trans ?_
  have hne : ∀ key, K key → s.keyOf p i ≠ key := fun key hkey e => h.place (e ▸ hkey)
  dsimp only
  split
  · next htgt =>
    split
    · next o ho =>
      obtain ⟨blk, share, off, rfl⟩ := opmLoc_of_scratchPlace (h.scratch htgt) _ _ ho
      have hslot := modShare (s.mirror p i x) blk share (fun y => { y with scratch := Cells.set 0 y.scratch off x }) K
      exact ⟨fun _ _ => .of_eq rfl rfl, .same hslot.keys.devno (State.modShare_spans ..), hslot.regs⟩
    · exact refl _ K
  · split
    · exact setMem fun key hkey => .bankPoke _ _ (hne key hkey)
    · split
      · exact setMem fun key hkey => .hold _ (hne key hkey)
      · exact setMem fun key hkey => .store _ _ _ _ (hne key hkey)

theorem writeBytes (s : State) (b : Block) (sl : Slice) (hold : Option Nat) (seq : Nat) (nt : Bool) (c : Option CachePlace) {p : Phys}
    {d : List (Option Byte)} (h : ∀ i < d.length, s.Misses p i K) : s.SparesKeys (s.writeBytes b sl hold seq nt c p d) K := by
  refine List.foldlRecOn (motive := fun t => s.SparesKeys t K) _ _ (refl s K) fun t ht x hx => ?_
  split
  · have hi : x.2 < d.length := by
      obtain ⟨-, hi, -⟩ := List.mem_zipIdx hx
      simpa using hi
    exact ht.trans (writeByte t b sl hold seq nt c ((h _ hi).sameKeys ht.keys) _)
  · exact ht

/-! ## Stores -/

/-- A slice that holds no byte of the keys leaves them as they are when it releases. -/
theorem releaseHeld (s : State) {b : Block} {x : Slice} (h : ∀ y ∈ s.mem.held, K y.key → y.block = b.uid → y.slice ≠ x.num)
    (sc : Scope) : s.SparesKeys (s.releaseHeld b x sc) K := by
  refine setMem fun key hkey => .publish fun y hy hk => ?_
  by_cases hb : y.block = b.uid
  · simp [h y hy (hk ▸ hkey) hb]
  · simp [hb]

/-- One store of a slice that holds no byte of the keys, none of whose own bytes reaches them. -/
theorem storeOne (s : State) {b : Block} {x : Slice × Phys × List (Option Byte)}
    (hheld : ∀ y ∈ s.mem.held, K y.key → y.block = b.uid → y.slice ≠ x.1.num) (h : ∀ i < x.2.2.length, s.Misses x.2.1 i K)
    (sc : Scope) (nt : Bool) (c : Option CachePlace) (seq : Nat) : s.SparesKeys (s.storeOne b sc nt c seq x) K := by
  unfold State.storeOne
  dsimp only
  generalize (if s.inAbsentSpan x.2.1 = true then Scope.fab else scopeOn x.2.1 sc) = released
  have hsent := ((releaseHeld s hheld released).trans
    (tagAccess _ b x.2.1 x.2.2.length true K)).trans (travels _ (s.lrOf b).ctx x.2.1 (x.2.2.filter Option.isSome).length true K)
  refine (hsent.trans ?_).trans (storeMark ..)
  split
  · exact appendAll ..
  · exact writeBytes _ _ _ _ _ _ _ fun i hi => (h i hi).sameKeys hsent.keys

/-- The stores of slices that hold no byte of the keys. -/
theorem stored (s : State) {b : Block} {l : List (Slice × Phys × List (Option Byte))}
    (hheld : ∀ x ∈ l, ∀ y ∈ s.mem.held, K y.key → y.block = b.uid → y.slice ≠ x.1.num)
    (h : ∀ x ∈ l, ∀ i < x.2.2.length, s.Misses x.2.1 i K) (sc : Scope) (nt : Bool) : s.SparesKeys (s.stored b sc nt l) K := by
  refine List.foldlRecOn (motive := fun t => s.SparesKeys t K) l _ ⟨fun _ _ => .refl .., .same rfl rfl, (State.Spares.refl s).regs⟩ fun t ht x hx => ?_
  exact ht.trans (storeOne t (fun y hy hk => hheld x hx y ((ht.mem _ hk).mem_held hy rfl) hk) (fun i hi => (h x hx i hi).sameKeys ht.keys) ..)

theorem countStores (s : State) (b : Block) (l : List (Slice × Phys × List (Option Byte))) (K : Nat → Prop) :
    s.SparesKeys (s.countStores b l) K := by
  refine List.foldlRecOn (motive := fun t => s.SparesKeys t K) _ _ (refl s K) fun t ht n _ => ht.trans (modSlice _ _ _ (fun x => ?_) K)
  unfold Slice.countStore
  split <;> exact ⟨rfl, rfl, rfl, rfl, rfl, rfl⟩

theorem storedAll (s : State) {b : Block} {l : List (Slice × Phys × List (Option Byte))}
    (hheld : ∀ x ∈ l, ∀ y ∈ s.mem.held, K y.key → y.block = b.uid → y.slice ≠ x.1.num)
    (h : ∀ x ∈ l, ∀ i < x.2.2.length, s.Misses x.2.1 i K) (sc : Scope) (nt : Bool) : s.SparesKeys (s.storedAll b sc nt l) K :=
  have hmade : ∀ x ∈ s.unmade l, x ∈ l := fun _ hx => (List.mem_filter.mp hx).1
  (stored s (fun x hx => hheld x (hmade x hx)) (fun x hx => h x (hmade x hx)) sc nt).trans (countStores ..)

end State.SparesKeys

end Sys2Proof.Machine

end

section
/-! PROOFS. The stores of a gang whose translations stay as they were checked (R220, R223, R226). -/

namespace Sys2Proof.Machine

/-! ## What the checks of R226 say of an access -/

/-- An access of those that pass their checks fails no row. -/
theorem rowFails_none_of_checked {s : State} {b : Block} {accs : List Acc} {ok : Phys → Bool} (h : s.checkAccs b accs ok = none) {a : Acc}
    (ha : a ∈ accs) {k : Nat} (hk : k ∈ [1, 2, 3, 4, 5, 6, 7]) : s.rowFails b ok k a = none := by
  by_contra hne
  have hmem : a ∈ accs.filter fun x => (s.rowFails b ok k x).isSome := List.mem_filter.mpr ⟨ha, Option.isSome_iff_ne_none.mpr hne⟩
  have hrow := List.findSome?_eq_none_iff.mp h k hk
  split at hrow
  · next he => rw [he] at hmem; cases hmem
  · next y ys he =>
    rw [Option.map_eq_none_iff] at hrow
    have hy := (List.mem_filter.mp (he ▸ List.mem_cons_self (a := y) (l := ys))).2
    rw [hrow] at hy
    cases hy

/-- A store to an OPM page that passes its checks lies in scratchpad windows (R223). -/
theorem scratchPlace_of_checked {s : State} {b : Block} {accs : List Acc} {ok : Phys → Bool} (h : s.checkAccs b accs ok = none) {a : Acc}
    (ha : a ∈ accs) (hw : a.w = true) {va : Nat} (hva : a.ea = some va) (htgt : Pte.tgt (s.physOf (s.lrOf b).ctx a).pte = 5) {i : Nat}
    (hi : i < a.size) : scratchPlace ((s.physOf (s.lrOf b).ctx a).pa + i) := by
  have hrow := rowFails_none_of_checked h ha (k := 4) (by decide)
  simp only [State.rowFails, hva, phys?_of_checked h ha hva] at hrow
  have hpermits : s.permits (s.lrOf b).ctx (s.physOf (s.lrOf b).ctx a) a ok = true := by
    by_contra hne
    rw [if_neg hne] at hrow
    cases hrow
  simp only [State.permits, htgt, bne_self_eq_false, Bool.false_or, Bool.and_eq_true, State.opmAllows, hw, List.all_eq_true, List.mem_range]
    at hpermits
  have hbyte := hpermits.1.1.2 i hi
  split at hbyte
  · next ho => exact scratchPlace_of_opmLoc ho
  · cases hbyte
  · cases hbyte

/-! ## The stores of accesses -/

/-- An access of a slice of the gang that stores n bytes at an address. -/
structure Acc.Stores (a : Acc) (l : List Slice) (n : Nat) : Prop where
  slice : ∃ x ∈ l, x.num = a.slice
  ea : ∃ va, a.ea = some va
  size : a.size = n
  w : a.w = true

/-- Stores of at most n bytes each that accesses make in a state: each is of the access's slice and lands where it translates to. -/
def State.storesAt (s : State) (b : Block) (l : List Slice) (n : Nat) (accs : List Acc) (sts : List (Slice × Phys × List (Option Byte))) : Prop :=
  ∀ x ∈ sts, ∃ a ∈ accs, x.1 = sliceOf l a.slice ∧ x.2.1 = s.physOf (s.lrOf b).ctx a ∧ x.2.2.length ≤ n

theorem State.storesAt_storesOf {s : State} {b : Block} {l : List Slice} {n : Nat} {accs : List Acc} {data : Acc → List (Option Byte)}
    (h : ∀ a, (data a).length ≤ n) : s.storesAt b l n accs (s.storesOf b l accs data) := by
  intro x hx
  obtain ⟨a, ha, rfl⟩ := List.mem_map.mp hx
  exact ⟨a, ha, rfl, rfl, h a⟩

theorem State.storesAt_splitStores (s : State) (b : Block) (l : List Slice) (n : Nat) (c : Opd) (accs : List Acc) :
    s.storesAt b l n accs (s.splitStores b l n c accs) := by
  intro x hx
  obtain ⟨a, ha, rfl⟩ := List.mem_map.mp hx
  exact ⟨a.1, (List.mem_zipIdx' ha).2 ▸ List.getElem_mem _, rfl, rfl, by simp⟩

theorem length_stData (s : State) (b : Block) (l : List Slice) (ty : Ty) (c : Opd) (a : Acc) : (stData s b l ty c a).length = ty.width / 8 := by
  simp [stData]

theorem length_stwData (s : State) (b : Block) (l : List Slice) (n : Nat) (o c : Opd) (a : Acc) : (stwData s b l n o c a).length ≤ n := by
  simp only [stwData, List.length_mapIdx]
  unfold groupBytes
  split
  · rw [length_flatMap_leBytes, List.length_range]
    exact Nat.div_mul_le_self n 4
  · exact Nat.zero_le n

theorem stores_of_globalAccs {s : State} {b : Block} {l : List Slice} {g : Guard} {a off : Opd} {n : Nat} :
    ∀ y ∈ gangAccs s b l fun e sl => globalAccs e sl g false a off n n false true, y.Stores l n := by
  intro y hy
  obtain ⟨x, hx, hy⟩ := List.mem_flatMap.mp hy
  obtain ⟨z, -, rfl⟩ := List.mem_map.mp hy
  exact ⟨⟨x, hx, rfl⟩, ⟨_, rfl⟩, rfl, rfl⟩

theorem stores_of_splitAccs {s : State} {b : Block} {l : List Slice} {g : Guard} {a off : Opd} {n : Nat} :
    ∀ y ∈ stsplitAccs s b l g n a off, y.Stores l n := by
  intro y hy
  obtain ⟨x, hx, hy⟩ := List.mem_flatMap.mp hy
  obtain ⟨z, -, hy⟩ := List.mem_flatMap.mp hy
  obtain ⟨h, -, rfl⟩ := List.mem_map.mp hy
  exact ⟨⟨x, hx, rfl⟩, ⟨_, rfl⟩, rfl, rfl⟩

/-! ## Stores that land where they were checked -/

/-- Remembered translations change neither the rooms that stores need nor the keys that they reach. -/
theorem State.roomFor_mapped (s : State) (b : Block) (accs : List Acc) (l : List (Slice × Phys × List (Option Byte))) :
    (s.mapped b accs).roomFor b l = s.roomFor b l := by
  obtain ⟨x, hx⟩ := s.rememberAll_sameButTlb (s.lrOf b).ctx accs
  rw [State.mapped, hx]
  rfl

/-- Once the gang's accesses are remembered each lands where its check found it. -/
def State.landsChecked (s : State) (b : Block) (accs : List Acc) : Prop :=
  ∀ a ∈ accs, (s.mapped b accs).physOf (s.lrOf b).ctx a = s.physOf (s.lrOf b).ctx a

section
variable {s : State} {b : Block} {l : List Slice} {accs : List Acc} {sts : List (Slice × Phys × List (Option Byte))} {n : Nat}

/-- The keys that none of these stores reaches, on neither plane of a DUP2 page, and of which no slice of the gang still holds a byte. -/
def State.unreached (s : State) (b : Block) (l : List Slice) (sts : List (Slice × Phys × List (Option Byte))) (key : Nat) : Prop :=
  (∀ x ∈ sts, ∀ k < x.2.2.length, s.keyOf x.2.1 k ≠ key ∧ ∀ q, partnerOf x.2.1.pte = some q → switchKey q (x.2.1.pa + k) ≠ key) ∧
  ∀ h ∈ s.mem.held, h.key = key → h.block = b.uid → ∀ x ∈ l, h.slice ≠ x.num

/-- Such stores spare the keys that they do not reach, and every register. -/
theorem storedAll_spares (hlands : s.landsChecked b accs) (hu : s.unblocked b accs = true) (haccs : ∀ a ∈ accs, a.Stores l n)
    (hsts : (s.mapped b accs).storesAt b l n accs sts) (sc : Scope) (nt : Bool) :
    s.SparesKeys ((s.mapped b accs).storedAll b sc nt sts) (s.unreached b l sts) := by
  have hmapped : s.SparesKeys (s.mapped b accs) (s.unreached b l sts) := .rememberAll ..
  obtain ⟨hchecked, -⟩ := State.unblocked_iff.mp hu
  have hctx : (s.mapped b accs).lrOf b = s.lrOf b := by
    obtain ⟨x, hx⟩ := s.rememberAll_sameButTlb (s.lrOf b).ctx accs
    rw [State.mapped, hx]
    rfl
  refine hmapped.trans (.storedAll _ (fun x hx y hy hk hb => ?_) (fun x hx i hi => ?_) sc nt)
  · obtain ⟨a, ha, hslice, -⟩ := hsts x hx
    obtain ⟨z, hz, hnum⟩ := (haccs a ha).slice
    obtain ⟨w, hw⟩ := Option.isSome_iff_exists.mp (List.find?_isSome.mpr ⟨z, hz, beq_iff_eq.mpr hnum⟩ :
      (l.find? fun x => x.num == a.slice).isSome = true)
    rw [hslice, sliceOf, hw]
    exact hk.2 y ((hmapped.mem _ hk).mem_held hy rfl) rfl hb w (List.mem_of_find?_eq_some hw)
  · obtain ⟨a, ha, -, hphys, hlen⟩ := hsts x hx
    obtain ⟨va, hva⟩ := (haccs a ha).ea
    rw [hctx, hlands a ha] at hphys
    refine ⟨fun hk => (hk.1 x hx i hi).1 (hmapped.keys.keyOf ..).symm, fun q hq hk => (hk.1 x hx i hi).2 q hq rfl, fun htgt => ?_⟩
    rw [hphys] at htgt ⊢
    exact scratchPlace_of_checked hchecked ha (haccs a ha).w hva htgt (by have := (haccs a ha).size; omega)

/-- A gang's slice after an effect that spares registers, once its instruction has retired. -/
theorem sameRegs_goOn {t : State} {m : Nat} {K : Nat → Prop} (hi : s.issuing = some (b, l)) (hg : s.goes m = true) (hk : s.Keeps t b.uid)
    (ht : s.SparesKeys t K) {x : Slice} (hx : x ∈ l) : x.SameRegs ((t.goOn b l m).now b x) := by
  obtain ⟨-, hd, hn, ⟨p, hl, -⟩, -⟩ := goes_spec hi hg
  have hsub : ∀ y ∈ l, y ∈ b.slices := fun y hy => (List.mem_filter.mp (hl ▸ hy)).1
  have hnl : (l.map fun x => x.num).Nodup := hl ▸ hn.sublist ((List.filter_sublist).map _)
  obtain ⟨b', h, hb', hu', hh, hs'⟩ := ht.regs b (issuing_holds hi)
  have hnums : b'.slices.map (fun x => x.num) = b.slices.map fun x => x.num := by rw [hs', nums_map fun y hy => (hh y hy).num]
  have hmem : ∀ y ∈ l, h y ∈ b'.slices := fun y hy => hs' ▸ List.mem_map_of_mem (hsub y hy)
  rw [now_goOn hb' hu' ((congrArg LaunchRec.det (Keeps.lrOf hk rfl)).trans hd) (hnums ▸ hn) hnl
    (fun y hy => ⟨h y, hmem y hy, (hh y (hsub y hy)).num⟩) hx, now_eq hb' hu' (hnums ▸ hn) (hmem x hx) (hh x (hsub x hx)).num]
  exact (hh x (hsub x hx)).trans (.passed ..)

end

end Sys2Proof.Machine

end

section
/-! PROOFS. Stores where every translation is what the tables give (R220). -/

namespace Sys2Proof.Machine

/-! ## Translations that the tables give (R220) -/

/-- A walk of the tables looks at no remembered translation. -/
theorem State.SameButTlb.walkNow {s t : State} (h : s.SameButTlb t) (c va : Nat) : t.walkNow c va = s.walkNow c va := by
  obtain ⟨x, rfl⟩ := h
  rfl

/-- Where no remembered translation is used against the tables, an access is translated as they stand. -/
theorem walk_of_not_stale {s : State} (h : Config.useStale s.fresh = false) (c va : Nat) : s.walk c va = s.walkNow c va := by
  unfold State.walk
  dsimp only
  split
  · rfl
  · split
    · rfl
    · simp [h]

/-- Then remembering accesses moves none of them. -/
theorem landsChecked_of_not_stale {s : State} (h : Config.useStale s.fresh = false) (b : Block) (accs : List Acc) : s.landsChecked b accs := by
  intro a _
  have htlb := s.rememberAll_sameButTlb (s.lrOf b).ctx accs
  have hfresh : (s.mapped b accs).fresh = s.fresh := by
    obtain ⟨x, hx⟩ := htlb
    rw [State.mapped, hx]
  have hwalk := (walk_of_not_stale (hfresh.symm ▸ h : Config.useStale (s.mapped b accs).fresh = false) (s.lrOf b).ctx (a.ea.getD 0)).trans
    (htlb.walkNow (s.lrOf b).ctx (a.ea.getD 0))
  simp only [State.physOf, State.phys?, hwalk, walk_of_not_stale h]

/-! ## What a store that goes on keeps -/

/-- A store of a gang has gone on: every other byte is read as before, and the gang's registers stay. -/
theorem storedAll_keeps {s : State} {b : Block} {l : List Slice} {accs : List Acc} {sts : List (Slice × Phys × List (Option Byte))}
    {i : Instr} {m n : Nat} {sc : Scope} {nt : Bool} (hi : s.issuing = some (b, l)) (hg : s.goes m = true)
    (hexec : exec i s = .next (((s.mapped b accs).storedAll b sc nt sts).goOn b l m)) (hlands : s.landsChecked b accs)
    (hu : s.unblocked b accs = true) (haccs : ∀ a ∈ accs, a.Stores l n) (hsts : (s.mapped b accs).storesAt b l n accs sts) :
    ∃ t, exec i s = .next t ∧
      (∀ o key, (∀ x ∈ sts, ∀ k < x.2.2.length, s.keyOf x.2.1 k ≠ key ∧
          ∀ q, partnerOf x.2.1.pte = some q → switchKey q (x.2.1.pa + k) ≠ key) →
        (∀ h ∈ s.mem.held, h.key = key → h.block = b.uid → ∀ x ∈ l, h.slice ≠ x.num) → t.mem.readAs o key = s.mem.readAs o key) ∧
      ∀ x ∈ l, (t.now b x).v = x.v ∧ (t.now b x).s = x.s ∧ (t.now b x).p = x.p ∧ (t.now b x).flg = x.flg ∧ (t.now b x).fmt = x.fmt := by
  have hspares := storedAll_spares hlands hu haccs hsts sc nt
  refine ⟨_, hexec, fun o key hkey hheld => ?_, fun x hx => ?_⟩
  · rw [State.goOn, State.modBlock_mem]
    exact (hspares.mem key ⟨hkey, hheld⟩).readAs o
  · have hregs := sameRegs_goOn hi hg (Keeps.trans (Keeps.mapped ..) (Keeps.storedAll ..)) hspares hx
    exact ⟨hregs.v, hregs.s, hregs.p, hregs.flg, hregs.fmt⟩

/-- What O22 says holds where no step uses a remembered translation against the tables: each form stores where its checks found its
accesses. -/
theorem storesKeepOtherBytes_of_never_stale (h : ∀ n, Config.useStale n = false) : Obligations.StoresKeepOtherBytes := by
  obtain ⟨-, -, -, -, -, hst, hstw, hstsplit, -⟩ := storesComplete
  refine ⟨fun g ty sc k a b c s blk l hi hg hok hr => ?_, fun g ty sc g4 a b c s blk l hi hg hok hr => ?_,
    fun g ty sc a b c s blk l hi hg hok hr => ?_⟩
  · obtain ⟨hu, hw⟩ := Bool.and_eq_true_iff.mp hok
    have hexec := hst g ty sc k a b c s blk l hi hg (by simp only [hu, hw, State.roomFor_mapped, hr, Bool.and_self])
    exact storedAll_keeps hi hg hexec (landsChecked_of_not_stale (h _) blk _) hu stores_of_globalAccs
      (State.storesAt_storesOf fun _ => (length_stData ..).le)
  · have hexec := hstw g ty sc g4 a b c s blk l hi hg (by simp only [hok, State.roomFor_mapped, hr, Bool.and_self])
    exact storedAll_keeps hi hg hexec (landsChecked_of_not_stale (h _) blk _) hok stores_of_globalAccs
      (State.storesAt_storesOf fun _ => length_stwData ..)
  · have hexec := hstsplit g ty sc a b c s blk l hi hg (by simp only [hok, State.roomFor_mapped, hr, Bool.and_self])
    exact storedAll_keeps hi hg hexec (landsChecked_of_not_stale (h _) blk _) (Bool.and_eq_true_iff.mp hok).2 stores_of_splitAccs
      (State.storesAt_splitStores _ blk l _ c _)

end Sys2Proof.Machine

end

section
/-! PROOFS. A store that reaches a register where a remembered translation that the tables no longer give is used (R220, R223; log entry 5).
Its access is checked where that translation takes it. Another access of the same store brings in the larger page that the tables give for
both, and the store is made where that page takes it. -/

namespace Sys2Proof.Machine

/-- A remembered translation that the tables no longer give, where one is used. -/
theorem walk_stale {s : State} {c va : Nat} {t : TlbEntry} (hva : va < 2 ^ 57)
    (ht : s.mem.tlb.find? (fun t => t.ctx == c && t.base ≤ va && va < t.base + t.size) = some t)
    (hnow : s.walkNow c va ≠ .ok ⟨t.pte, t.base, t.size⟩) (hst : Config.useStale s.fresh = true) :
    s.walk c va = .ok ⟨t.pte, t.base, t.size⟩ := by
  unfold State.walk
  rw [if_neg (Nat.not_le.mpr hva), ht]
  dsimp only
  rw [hst, if_pos rfl, if_neg]
  intro hsame
  split at hsame
  · next l hl => exact hnow (hl.trans (congrArg _ (eq_of_beq hsame)))
  · cases hsame

/-- Accesses that fail no row pass their checks. -/
theorem checked_of_rowFails_none {s : State} {b : Block} {accs : List Acc} {ok : Phys → Bool}
    (h : ∀ a ∈ accs, ∀ k ∈ [1, 2, 3, 4, 5, 6, 7], s.rowFails b ok k a = none) : s.checkAccs b accs ok = none := by
  refine List.findSome?_eq_none_iff.mpr fun k hk => ?_
  have hnone : accs.filter (fun a => (s.rowFails b ok k a).isSome) = [] :=
    List.filter_eq_nil_iff.mpr fun a ha => by rw [h a ha k hk]; exact Bool.false_ne_true
  rw [hnone]

namespace StaleStore

/-- Every lane takes part. -/
def always : Guard := { neg := false, p := 0 }

/-- The address of a page that the tables give to the on-chip map, whose first bytes are registers of core 0 (R222). -/
def registers : Nat := 2 * 2 ^ 36

/-- A remembered translation of that address, to T1. -/
def remembered : TlbEntry := { ctx := 0, base := registers, size := 2 ^ 14, pte := 0xF }

/-- A slice of two active lanes, the first of which has an offset of 1 MiB in v1, that of the scratchpad window, and the second none. -/
def slice : Slice := (({ Place.slice 3 with am := 3 }.wv 1 0 0x10_0000).ws 4 (BitVec.ofNat 64 registers)).ws 5 7

/-- The block of that slice on core 0. -/
def block : Block :=
  { uid := 2, launch := 1, num := 0, unit := 0, round := .parallel, slices := [slice], shares := [Share.entry 0 0 64], noFlush := false }

/-- The third entry of the top table's first table names a table whose first entry maps 32 MiB of the on-chip map. -/
def tables (ram : List Host.Cell) : List Host.Cell :=
  Place.put8 (Place.put8 ram (Place.root + 0x4010) (1 + (Place.root + 0x8000))) (Place.root + 0x8000) (0xF + 5 * 2 ^ 5)

/-- A number whose step uses remembered translations, where one does. -/
noncomputable def stale : Nat := Classical.epsilon fun n => Config.useStale n = true

/-- The slice at its store. -/
noncomputable def state : State :=
  let s := State.reset.place 0
  { s with
    fresh := stale, cur := some { block := 2, gang := 3, only := none }, blocks := [block]
    launches := s.launches.map fun l => { l with rcd := { l.rcd with sreg := 4, sscr := 4 } }
    mem := { s.mem with ram := tables s.mem.ram, tlb := [remembered] }
    fw := { s.fw with windows := { Place.window with tgt := 5, size := 2 ^ 25 } :: s.fw.windows } }

/-- The accesses of ST [s4 + v1], s5, and what it stores. -/
noncomputable def accs : List Acc := stAccs state block [slice] always .n32 (.s 4) (.v 1)

noncomputable def stores : List (Slice × Phys × List (Option Byte)) :=
  (state.mapped block accs).storesOf block [slice] accs (stData state block [slice] .n32 (.s 5))

/-- The access of a lane. -/
def acc (lane ea : Nat) : Acc :=
  { slice := 0, mask := 1#4 <<< lane, lane, pos := lane, ea := some ea, so := none, size := 4, align := 4, r := false, w := true }

/-- The first lane's access is to the scratchpad window, the second's to the page whose translation is remembered. -/
theorem accs_eq : accs = [acc 0 (registers + 0x10_0000), acc 1 registers] := by decide +kernel

theorem issues : state.issuing = some (block, [slice]) := by decide +kernel

theorem goes : state.goes (lenOf [.s 4, .v 1, .s 5]) = true := by decide +kernel

theorem room : state.roomFor block stores = true := by decide +kernel

/-- The scratchpad access passes whatever is remembered of the other page. -/
theorem scratch_passes : ∀ k ∈ [1, 2, 3, 4, 5, 6, 7], state.rowFails block (fun _ => true) k (acc 0 (registers + 0x10_0000)) = none := by
  decide +kernel

theorem scratch_goes : state.blocked (state.physOf 0 (acc 0 (registers + 0x10_0000))) = false := by decide +kernel

/-- Where the remembered translation takes the other access. -/
def target : Phys := ⟨0xF, 0, registers / 2 ^ 14⟩

theorem target_passes : state.permits 0 target (acc 1 registers) (fun _ => true) = true ∧ state.lostPage target.pte = false ∧
    state.blocked target = false := by decide +kernel

/-- The tables give that page to the on-chip map, and not what is remembered. -/
theorem tables_differ : state.walkNow 0 registers ≠ .ok ⟨remembered.pte, remembered.base, remembered.size⟩ := by decide +kernel

/-- Once the first access is remembered, the second one reaches a register. -/
theorem register_changes :
    ((((state.mapped block accs).storedAll block .pkg (MemKind.plain == .nt) stores).goOn block [slice] (lenOf [.s 4, .v 1, .s 5])).now
      block slice).v ≠ slice.v := by decide +kernel

section
variable (h : ∃ n, Config.useStale n = true)
include h

theorem phys_stale : state.phys? 0 registers = .ok target := by
  have hst : Config.useStale state.fresh = true := Classical.epsilon_spec h
  rw [State.phys?, walk_stale (t := remembered) (by decide) (by decide +kernel) tables_differ hst]
  decide

/-- The other access passes its checks where the remembered translation takes it. -/
theorem stale_passes : ∀ k ∈ [1, 2, 3, 4, 5, 6, 7], state.rowFails block (fun _ => true) k (acc 1 registers) = none := by
  obtain ⟨hpermits, hlost, -⟩ := target_passes
  have hctx : (state.lrOf block).ctx = 0 := by decide +kernel
  have hdet : (state.lrOf block).det = false := by decide +kernel
  have hwalk : ∃ l, state.walk 0 registers = .ok l := by
    have hphys := phys_stale h
    unfold State.phys? at hphys
    split at hphys
    · next l hl => exact ⟨l, hl⟩
    · cases hphys
  obtain ⟨l, hl⟩ := hwalk
  intro k hk
  simp only [List.mem_cons, List.not_mem_nil, or_false] at hk
  rcases hk with rfl | rfl | rfl | rfl | rfl | rfl | rfl
  · rfl
  · rfl
  · simp only [State.rowFails, acc, hctx, Option.map_some, hl]
  · simp only [State.rowFails, acc, hctx, phys_stale h]
    exact if_pos hpermits
  · simp only [State.rowFails, acc, hctx, phys_stale h, hlost]
    rfl
  · simp only [State.rowFails, acc, hctx, phys_stale h, hdet, Bool.false_and, Bool.false_eq_true, if_false]
  · simp only [State.rowFails, acc, hctx, phys_stale h, Bool.false_and, Bool.false_eq_true, if_false]

theorem unblocked : state.unblocked block accs = true := by
  have hctx : (state.lrOf block).ctx = 0 := by decide +kernel
  have hphys : state.physOf 0 (acc 1 registers) = target := by simp only [State.physOf, acc, Option.getD_some, phys_stale h]
  rw [State.unblocked_iff, accs_eq]
  refine ⟨checked_of_rowFails_none fun a ha => ?_, ?_⟩
  · rcases List.mem_pair.mp ha with rfl | rfl
    exacts [scratch_passes, stale_passes h]
  · simp only [State.held_, hctx, List.any_cons, scratch_goes, hphys, target_passes, List.any_nil, Bool.and_false, Bool.or_self]

end

end StaleStore

/-! ## What the statement comes to -/

/-- What O22 says fails where a step uses a remembered translation against the tables: the store of `StaleStore.state` writes a register
(`StaleStore.register_changes`). -/
theorem not_storesKeepOtherBytes_of_stale (h : ∃ n, Config.useStale n = true) : ¬ Obligations.StoresKeepOtherBytes := by
  rintro ⟨hst, -, -⟩
  have hu := StaleStore.unblocked h
  obtain ⟨t, ht, -, hregs⟩ := hst StaleStore.always .n32 .pkg .plain (.s 4) (.v 1) (.s 5) StaleStore.state StaleStore.block
    [StaleStore.slice] StaleStore.issues StaleStore.goes (Bool.and_eq_true_iff.mpr ⟨hu, rfl⟩) StaleStore.room
  obtain ⟨-, -, -, -, -, hperforms, -⟩ := storesComplete
  have hexec := hperforms StaleStore.always .n32 .pkg .plain (.s 4) (.v 1) (.s 5) StaleStore.state StaleStore.block
    [StaleStore.slice] StaleStore.issues StaleStore.goes
    (Bool.and_eq_true_iff.mpr ⟨Bool.and_eq_true_iff.mpr ⟨hu, rfl⟩, (State.roomFor_mapped ..).trans StaleStore.room⟩)
  have hnow := congrArg (fun u => (State.now u StaleStore.block StaleStore.slice).v) (Host.Outcome.next.inj (hexec.symm.trans ht))
  exact StaleStore.register_changes (hnow.trans (hregs StaleStore.slice (List.mem_singleton_self _)).1)

/-- What O22 comes to, which leaves it open: it holds exactly where no step uses a remembered translation that the tables no longer give.
Whether one does is `Config.useStale`, an opaque choice of the model that no proof can see (R220; log entry 5). -/
theorem storesKeepOtherBytes_iff : Obligations.StoresKeepOtherBytes ↔ ∀ n, Config.useStale n = false := by
  refine ⟨fun hkeeps n => ?_, storesKeepOtherBytes_of_never_stale⟩
  by_contra hn
  exact not_storesKeepOtherBytes_of_stale ⟨n, by simpa using hn⟩ hkeeps

end Sys2Proof.Machine

end
